-- ==== Sys2Proof/Word.lean ====
section
/-! DEFINITION. The word types of the K4 and the plain bit-field helpers that every file uses. -/
namespace Sys2Proof

/-- A 32-bit register lane, scalar register or instruction word (R1, R70). -/
abbrev Word := BitVec 32
/-- A 64-bit value: a program counter, a scalar pair, an address (R80, R103, R148). -/
abbrev Wide := BitVec 64
/-- One byte of memory. -/
abbrev Byte := BitVec 8
/-- A 128-lane mask (R90). -/
abbrev Mask := BitVec 128
/-- The 128 words of one vector register; a missing entry stands for 0. -/
abbrev Lanes := List Word
/-- A finite table from numbers to values, kept with strictly rising keys. -/
abbrev Tab (α : Type) := List (Nat × α)

/-- Bits `[lo + n - 1 : lo]` of a word, as a number. -/
def fld {w : Nat} (x : BitVec w) (lo n : Nat) : Nat := x.toNat / 2 ^ lo % 2 ^ n

/-- Bit `i` of a vector of bits. -/
def bit {w : Nat} (x : BitVec w) (i : Nat) : Bool := x.getLsbD i

/-- The signed value of the low `n` bits of a number. -/
def sextN (n x : Nat) : Int :=
  if x % 2 ^ n < 2 ^ (n - 1) then (x % 2 ^ n : Nat) else (x % 2 ^ n : Nat) - (2 ^ n : Nat)

end Sys2Proof
end

