-- ==== Sys2Proof/Config.lean ====
section
/-! DEFINITION. What an implementation fixes and what the manual leaves open. The opaque constants have no body, so
no proof can learn a value of them. -/
namespace Sys2Proof.Config

/-- A value the manual leaves unspecified (R212): a fresh one for each count of `freeCtr`, and for each lane of a
multi-lane read. FREE VALUE, log entry 6. -/
opaque freeWord : Nat → Nat → BitVec 32
/-- A choice the manual leaves open (R212: the thread's value or the engine's, old or new). FREE VALUE, log entry 6. -/
opaque freeChoice : Nat → Nat → Bool
/-- Where in its region's spill pool the spill area of a group lies (R20, R99), which is the device's. FREE VALUE, log entry
16. -/
opaque spillPlace : Nat → Nat
/-- The address of the RCB that supplies the fault domain of a record of another chip, on that chip (R276, R280). FREE VALUE, log
entry 35. -/
opaque peerRcb : BitVec 64 → Nat
/-- Whether the unit forms groups of THRESH rows where more are woken, for a threshold and a count of woken rows: R254 takes every
woken row up to 128, and R263 allows two groups of 64 under a threshold of 64. FREE VALUE, log entry 56. -/
opaque formByThresh : Nat → Nat → Bool
/-- The RSASSA-PSS signature by the device identity key over a digest (R347). FREE VALUE, log entry 8. -/
opaque quoteSign : BitVec 384 → BitVec 3072
/-- Whether a firmware image carries a valid RSASSA-PSS signature (R344). FREE VALUE, log entry 8. -/
opaque imageValid : List (BitVec 8) → Bool

/-- The Kloeri chip identifier in sys.CHIPID (R295, R320). DESIGN CHOICE, log entry 4. -/
def chipId : Nat := 1
/-- First DRAM-window offset of the area of each die's DRAM that the Spire reserves (R267, R278, R318): the top
512 MiB of the populated 48 GiB. DESIGN CHOICE, log entry 15. -/
def keepOffset : Nat := 0xBE0000000
/-- What a byte of memory that nothing has written reads as. DESIGN CHOICE, log entry 3. -/
def blankByte : BitVec 8 := 0
/-- Issues of a match-point handler before it is abandoned (R301). -/
def handlerIssues : Nat := 64

end Sys2Proof.Config
end

