-- ==== Sys2Proof/Syntax.lean ====
section
/-! DEFINITION. The instructions of the K4: one constructor for each row of the opcode table, with the fields of its
format (R70) as operands. Rows of the table that are steps of another agent carry what the step works on. -/
namespace Sys2Proof

/-- The fields of a TR word, and of the first word of a WD instruction (R70). -/
structure TR where
  la : Bool
  lb : Bool
  m : BitVec 2
  d : BitVec 7
  a : BitVec 7
  b : BitVec 7
  deriving DecidableEq, Repr

/-- The fields of an RI word (R70). -/
structure RI where
  la : Bool
  d : BitVec 7
  a : BitVec 7
  imm : BitVec 10
  deriving DecidableEq, Repr

/-- The fields of an LU word (R70). -/
structure LU where
  d : BitVec 7
  imm : BitVec 18
  deriving DecidableEq, Repr

/-- The field of a BR word (R70). -/
structure BR where
  off : BitVec 25
  deriving DecidableEq, Repr

/-- The fields of an ME word (R70). -/
structure ME where
  la : Bool
  mode : Bool
  size : BitVec 2
  d : BitVec 7
  a : BitVec 7
  off : BitVec 7
  deriving DecidableEq, Repr

/-- Where an uncorrectable error was found (R308). -/
inductive EccSite where
  | regLane (core preg lane : Nat)
  | uniformLane (core slot lane : Nat)
  | scalar (group s : Nat)
  | latch (part l : Nat)
  | mailbox (block m : Nat)
  | grain (bank addr : Nat)
  deriving DecidableEq, Repr

/-- What a peer handler asks of the home chip (R280, R289, R290). -/
inductive PkAction where
  | readRec | readReg | readRpl | writeRec | writeReg | writeRpl
  | res | rty | dir (target : Nat) | kil
  deriving DecidableEq, Repr

/-- A PK request (R280): the record handle, the selector, the value written, and who asks: the handle of the record whose fault domain
the requesting fault task works in (R276, R287), its chip, whether it comes under transport security, and its UEC job
identifier (R329). -/
structure PkRequest where
  action : PkAction
  handle : Wide
  selector : Nat
  value : Wide
  own : Wide
  peer : Nat
  secure : Bool
  job : Nat
  deriving DecidableEq, Repr

/-- The remote operations of the semantic sublayer (R316), and a peer Belfry's report of a fault task's charge (R48). -/
inductive RemoteKind where
  | write | read | fetchAdd | swap | compareSwap | report
  deriving DecidableEq, Repr

/-- A remote operation that arrives at this chip (R318): its job identifier, whether it came under transport
security, the virtual address, the data, the number of bytes read, the poisoned grains it carries (R309), its port and
traffic class (R317), and whether its initiator is a host that is not a K4 (R309). -/
structure RemoteOp where
  kind : RemoteKind
  job : Nat
  secure : Bool
  va : Wide
  size : Nat
  data : List Byte
  compare : Wide
  poison : List Nat
  port : Nat
  cls : Nat
  host : Bool
  deriving DecidableEq, Repr

/-- What comes back for a remote read or request of this chip (R309, R318). -/
structure RemoteResult where
  bytes : List Byte
  poison : Option Nat
  refusal : Option (Nat × Nat)
  deriving DecidableEq, Repr

/-- How a packet is delivered (R316). -/
inductive Delivery where
  | rud | rod | rudi | uud
  deriving DecidableEq, Repr

/-- What a packet asks of the semantic sublayer (R316). -/
inductive Semantic where
  | write | read | answer
  | atomic (bytes : Nat) (aligned : Bool)
  | other
  deriving DecidableEq, Repr

/-- What a frame carries (R316, R317, R323): a pause of some traffic classes, of none to let all go on; a Transport packet between two
chips or hosts; notice that a packet of an operation could not be delivered; a keepalive, a link-state update or an IEEE 1588 message, which
are events of their own; or something that R316 does not list. -/
inductive FrameKind where
  | pause (classes : BitVec 8)
  | transport (delivery : Delivery) (op : Semantic) (receiverCredit : Bool) (src dst : Nat) (message : Nat)
  | undeliverable (message : Nat)
  | control
  | other
  deriving DecidableEq, Repr

/-- A frame: its bytes, those of its Transport payload, its traffic class, what it carries. -/
structure Frame where
  bytes : Nat
  payload : Nat
  cls : Nat
  kind : FrameKind
  deriving DecidableEq, Repr

/-- An IEEE 1588 message of the delay request-response mechanism (R324): a Sync of a one-step master with its time, or of a two-step one
without; the Follow_Up; a Delay_Req; the Delay_Resp with the time at which that was received. -/
inductive PtpMsg where
  | sync (seq : Nat) (origin : Option Nat)
  | followUp (seq origin : Nat)
  | delayReq (seq : Nat)
  | delayResp (seq received : Nat)
  deriving DecidableEq, Repr

/-- One of the sixteen entries of a link-state update (R322). -/
structure LinkEntry where
  peer : Nat
  port : Nat
  up : Bool
  deriving DecidableEq, Repr

/-- A link-state update (R322). -/
structure LinkUpdate where
  origin : Nat
  seq : Word
  time : Wide
  links : List LinkEntry
  deriving DecidableEq, Repr

/-- One constructor for each row of the opcode table. -/
inductive Instr where
  /-- NOP: Issues and does nothing (R144) -/
  | nop
  /-- BRA: Sets the PC of each active thread to a target given as a relative slot offset (R144) -/
  | bra (f : BR) (l : Option Word)
  /-- CALL: Writes the return PC to a scalar pair once per split and branches by a relative slot offset (R144) -/
  | call (f : LU) (l : Option Word)
  /-- RET_SCALAR: Sets the PC from bits [55:0] of a scalar pair (R144) -/
  | retScalar (f : TR)
  /-- RET_VECTOR: Sets each thread's PC from the lane pair vA, vA+1 of its own lane (R144) -/
  | retVector (f : TR)
  /-- LOOP: Pushes WB onto the loop stack and adds F to WB, checking the depth first and then the window limit (R89) -/
  | loop (f : RI)
  /-- ENDL: Pops the loop stack into WB, or faults with LOOPDEPTH at depth 0 (R89) -/
  | endl
  /-- WBASE: Sets WB directly and leaves the loop stack unchanged (R89) -/
  | wbase (f : RI)
  /-- EXIT: Makes each active thread's lane vacant and releases the lane from every mask, while effects already issued continue (R145) -/
  | exit
  /-- PKRD_REC: Reads one word of a parked record through its handle (R289) -/
  | pkrdRec (f : TR) (e : Word)
  /-- PKRD_REG: Reads one lane of a parked vector register through a record handle (R289) -/
  | pkrdReg (f : TR) (e : Word)
  /-- PKRD_RPL: Reads one word of a parked lane's replay state (R289) -/
  | pkrdRpl (f : TR) (e : Word)
  /-- PKWR_REC: Patches a writable word of a parked record and sets PATCHED (R289) -/
  | pkwrRec (f : TR) (e : Word)
  /-- PKWR_REG: Writes one lane of a parked vector register as a partial update in the origin's map, fault-bin row or spill area (R289) -/
  | pkwrReg (f : TR) (e : Word)
  /-- PKWR_RPL: Patches one word of a parked lane's replay address or data (R289) -/
  | pkwrRpl (f : TR) (e : Word)
  /-- PKRES: Resumes the parked work from its replay state, by OTYPE, and returns a result code (R290) -/
  | pkres (f : TR)
  /-- PKRTY: Retries the parked work with its operands read afresh, by OTYPE (R290) -/
  | pkrty (f : TR)
  /-- PKDIR: Redirects the parked work to a new PC, B source, gather descriptor or segment address (R290) -/
  | pkdir (f : TR) (e : Word)
  /-- PKKIL: Kills the parked work and makes KILLED the final status of its origin (R290) -/
  | pkkil (f : TR)
  /-- CTOPEN: Opens a containment region for the whole group, snapshots the map and pins its registers (R281) -/
  | ctopen (f : TR) (e : Word)
  /-- CTCLOSE: Closes the containment region, releases the held stores and unpins the snapshot registers (R283) -/
  | ctclose
  /-- SRD_GRP: Reads a group register, such as GWARN, GFLAGS, GSTATUS or a stall counter (R293) -/
  | srdGrp (f : TR) (e : Word)
  /-- SWR_GRP: Writes a group register under its access codes (R293) -/
  | swrGrp (f : TR) (e : Word)
  /-- SRD_SYS: Load-acquire at .sys of a 32-bit system register (R293) -/
  | srdSys (f : TR) (e : Word)
  /-- SWR_SYS: Store-release at .sys of a 32-bit system register (R293) -/
  | swrSys (f : TR) (e : Word)
  /-- SRD_SYS_B64: Load-acquire at .sys of a 64-bit system register into an even pair (R293) -/
  | srdSysB64 (f : TR) (e : Word)
  /-- SWR_SYS_B64: Store-release at .sys of a 64-bit system register from an even pair (R293) -/
  | swrSysB64 (f : TR) (e : Word)
  /-- RDID: Writes the issuing group's identity to a scalar pair (R296) -/
  | rdid (f : TR)
  /-- RDTIME: Writes the campanile value of the issue cycle to a scalar pair (R297) -/
  | rdtime (f : TR)
  /-- TRAP: Parks each active thread with kind TRAP and the 8-bit code as subcode (R298) -/
  | trap (f : TR)
  /-- PSTOP: Freezes a partition at instruction boundaries, writes its dump and lets the groups go on (R299) -/
  | pstop (f : TR) (e : Word)
  /-- DUMP_WRITE: After the freeze, writes the header, the body, and last FLAGS and WRITTEN, stopping on truncation or a fault (R286) -/
  | dumpWrite (part : Nat)
  /-- PMSET: Reads a match-point descriptor and sets or frees match point n (R300) -/
  | pmset (f : TR)
  /-- PMRET: Returns from a match-point handler, and the matched instruction executes (R301) -/
  | pmret
  /-- MATCH_HANDLER_ABANDON: A handler that reaches 64 issues without PMRET is abandoned as if by PMRET (R301) -/
  | matchHandlerAbandon (group : Nat)
  /-- FTEST: Removes a cluster from placement, stows its blocks and starts its built-in self-test (R302) -/
  | ftest (f : TR)
  /-- FTEST_COMPLETE: The self-test ends; the result word is written and, on FAIL, the cluster is fenced, the defect record updated and SUSPECT records formed (R327) -/
  | ftestComplete (wait : Nat)
  /-- CHKSET: ORs check bits into the group's checks in force (R303) -/
  | chkset (f : TR)
  /-- CHKSET_RESTORE: Restores the group's checks to the region's effective values (R303) -/
  | chksetRestore (f : TR)
  /-- REGGIVE: Gives n registers of allotment to the block's FREE, recording owe for registers still held (R239) -/
  | reggive (f : TR)
  /-- REGGIVE_LITERAL: REGGIVE with its count taken from a 32-bit literal (R239) -/
  | reggiveLiteral (f : TR) (e : Word)
  /-- REGCLAIM: Appends a claim of n registers to the block's claim queue and waits to be served (R239) -/
  | regclaim (f : TR)
  /-- REGCLAIM_LITERAL: REGCLAIM with its count taken from a 32-bit literal (R239) -/
  | regclaimLiteral (f : TR) (e : Word)
  /-- CLAIM_SERVE: The head of the claim queue is served when FREE covers it (R240) -/
  | claimServe (block : Nat)
  /-- ROLE: Moves the whole group into the role, allotment, class and entry PC of sub-launch k (R242) -/
  | role (f : TR)
  /-- PHPOST: Writes the phase result word as an 8-byte store-release at .dev (R243) -/
  | phpost (f : TR)
  /-- IADD_SCALAR: Scalar integer add, wrapping or saturating, or a 64-bit pair add under M 0b10 (R130) -/
  | iaddScalar (f : TR) (l : Option Word)
  /-- ISUB_SCALAR: Scalar integer subtract, wrapping or saturating, or a 64-bit pair subtract (R130) -/
  | isubScalar (f : TR) (l : Option Word)
  /-- IMUL_SCALAR: Scalar integer multiply, low 32 bits or saturated (R130) -/
  | imulScalar (f : TR) (l : Option Word)
  /-- IMULH_SCALAR: Scalar high half of the product, signed or unsigned (R130) -/
  | imulhScalar (f : TR) (l : Option Word)
  /-- AND_SCALAR: Scalar bitwise AND (R130) -/
  | andScalar (f : TR) (l : Option Word)
  /-- OR_SCALAR: Scalar bitwise OR (R130) -/
  | orScalar (f : TR) (l : Option Word)
  /-- XOR_SCALAR: Scalar bitwise XOR (R130) -/
  | xorScalar (f : TR) (l : Option Word)
  /-- SHL_SCALAR: Scalar left shift by a register count (R130) -/
  | shlScalar (f : TR) (l : Option Word)
  /-- SHR_SCALAR: Scalar logical or arithmetic right shift by a register count (R130) -/
  | shrScalar (f : TR) (l : Option Word)
  /-- IMIN_SCALAR: Scalar minimum, signed or unsigned (R130) -/
  | iminScalar (f : TR) (l : Option Word)
  /-- IMAX_SCALAR: Scalar maximum, signed or unsigned (R130) -/
  | imaxScalar (f : TR) (l : Option Word)
  /-- BITS_SCALAR: Scalar POPC, CLZ, CTZ or BREV, selected by M (R130) -/
  | bitsScalar (f : TR)
  /-- IADD_SCALAR_IMM: Scalar add of a signed 10-bit immediate (R133) -/
  | iaddScalarImm (f : RI) (l : Option Word)
  /-- AND_SCALAR_IMM: Scalar AND with a sign-extended immediate (R133) -/
  | andScalarImm (f : RI) (l : Option Word)
  /-- OR_SCALAR_IMM: Scalar OR with a sign-extended immediate (R133) -/
  | orScalarImm (f : RI) (l : Option Word)
  /-- XOR_SCALAR_IMM: Scalar XOR with a sign-extended immediate (R133) -/
  | xorScalarImm (f : RI) (l : Option Word)
  /-- SHL_SCALAR_IMM: Scalar left shift by an immediate count (R133) -/
  | shlScalarImm (f : RI)
  /-- SHR_SCALAR_IMM: Scalar logical or arithmetic right shift by an immediate count (R133) -/
  | shrScalarImm (f : RI)
  /-- ISET: Sets sD to 1 when sA meets the condition against imm7, and to 0 otherwise (R133) -/
  | iset (f : RI)
  /-- MOV_SCALAR_IMM: Writes a sign-extended 18-bit immediate to a scalar (R134) -/
  | movScalarImm (f : LU) (l : Option Word)
  /-- MOV_SCALAR: Copies a scalar, or a 64-bit pair under M 1 (R134) -/
  | movScalar (f : TR)
  /-- IADD_VECTOR: Vector integer add per active lane, wrapping or saturating (R130) -/
  | iaddVector (f : TR) (l : Option Word)
  /-- ISUB_VECTOR: Vector integer subtract per active lane (R130) -/
  | isubVector (f : TR) (l : Option Word)
  /-- IMUL_VECTOR: Vector integer multiply per active lane (R130) -/
  | imulVector (f : TR) (l : Option Word)
  /-- IMULH_VECTOR: Vector high half of the product per active lane (R130) -/
  | imulhVector (f : TR) (l : Option Word)
  /-- IMAD: Vector multiply-add a × b + d, with d read through the destination (R130) -/
  | imad (f : TR) (l : Option Word)
  /-- AND_VECTOR: Vector bitwise AND (R130) -/
  | andVector (f : TR) (l : Option Word)
  /-- OR_VECTOR: Vector bitwise OR (R130) -/
  | orVector (f : TR) (l : Option Word)
  /-- XOR_VECTOR: Vector bitwise XOR (R130) -/
  | xorVector (f : TR) (l : Option Word)
  /-- SHL_VECTOR: Vector left shift by a register count (R130) -/
  | shlVector (f : TR) (l : Option Word)
  /-- SHR_VECTOR: Vector logical or arithmetic right shift by a register count (R130) -/
  | shrVector (f : TR) (l : Option Word)
  /-- IMIN_VECTOR: Vector minimum, signed or unsigned (R130) -/
  | iminVector (f : TR) (l : Option Word)
  /-- IMAX_VECTOR: Vector maximum, signed or unsigned (R130) -/
  | imaxVector (f : TR) (l : Option Word)
  /-- ICMP: Writes a predicate per active thread from an integer comparison with condition code CC (R129) -/
  | icmp (f : TR) (l : Option Word)
  /-- INEG: Vector negation or absolute value, optionally saturating (R130) -/
  | ineg (f : TR)
  /-- BITS_VECTOR: Vector POPC, CLZ, CTZ or BREV, selected by M (R130) -/
  | bitsVector (f : TR)
  /-- CVTI: Extends an 8- or 16-bit element to 32 bits, or saturates to that width (R134) -/
  | cvti (f : TR)
  /-- IADD_VECTOR_IMM: Vector add of a signed immediate (R133) -/
  | iaddVectorImm (f : RI) (l : Option Word)
  /-- AND_VECTOR_IMM: Vector AND with an immediate (R133) -/
  | andVectorImm (f : RI) (l : Option Word)
  /-- OR_VECTOR_IMM: Vector OR with an immediate (R133) -/
  | orVectorImm (f : RI) (l : Option Word)
  /-- XOR_VECTOR_IMM: Vector XOR with an immediate (R133) -/
  | xorVectorImm (f : RI) (l : Option Word)
  /-- SHL_VECTOR_IMM: Vector left shift by an immediate count (R133) -/
  | shlVectorImm (f : RI)
  /-- SHR_VECTOR_IMM: Vector logical or arithmetic right shift by an immediate count (R133) -/
  | shrVectorImm (f : RI)
  /-- ICMP_IMM: Writes a predicate from a comparison with a signed immediate (R133) -/
  | icmpImm (f : RI) (l : Option Word)
  /-- ISUB_VECTOR_IMM: Vector subtract of a signed immediate (R133) -/
  | isubVectorImm (f : RI) (l : Option Word)
  /-- IMUL_VECTOR_IMM: Vector multiply by a signed immediate, low 32 bits (R133) -/
  | imulVectorImm (f : RI) (l : Option Word)
  /-- MOV_VECTOR_IMM: Writes a sign-extended immediate to each active lane (R134) -/
  | movVectorImm (f : LU) (l : Option Word)
  /-- MOV_VECTOR: Lane-by-lane copy of a vector register (R134) -/
  | movVector (f : TR)
  /-- MOV_VECTOR_BROADCAST: Broadcasts a scalar into each active lane (R134) -/
  | movVectorBroadcast (f : TR)
  /-- MOV_VECTOR_B64: Broadcasts a scalar pair into vD and vD+1 (R134) -/
  | movVectorB64 (f : TR)
  /-- FADD: f32 add with RNE rounding (R135) -/
  | fadd (f : TR) (l : Option Word)
  /-- FSUB: f32 subtract with RNE rounding (R135) -/
  | fsub (f : TR) (l : Option Word)
  /-- FMUL: f32 multiply with RNE rounding (R135) -/
  | fmul (f : TR) (l : Option Word)
  /-- FFMA: f32 fused multiply-add with one rounding, in three sign forms (R135) -/
  | ffma (f : TR) (l : Option Word)
  /-- FMIN: f32 minimum with the stated NaN and signed-zero rules (R135) -/
  | fmin (f : TR) (l : Option Word)
  /-- FMAX: f32 maximum with the stated NaN and signed-zero rules (R135) -/
  | fmax (f : TR) (l : Option Word)
  /-- FCMP: Writes a predicate from an f32 comparison (R135) -/
  | fcmp (f : TR) (l : Option Word)
  /-- FNEG: Negation, absolute value or negated absolute value of an f32 (R135) -/
  | fneg (f : TR)
  /-- FRCP: Correctly rounded reciprocal (R136) -/
  | frcp (f : TR)
  /-- FRSQ: Correctly rounded reciprocal square root (R136) -/
  | frsq (f : TR)
  /-- FEXP2: Correctly rounded base-2 exponential (R136) -/
  | fexp2 (f : TR)
  /-- FLOG2: Correctly rounded base-2 logarithm (R136) -/
  | flog2 (f : TR)
  /-- CVT: Converts one element per active lane between formats, under a rounding mode (R139) -/
  | cvt (f : TR) (e : Word)
  /-- PACK: Converts k source registers into one packed register per lane (R140) -/
  | pack (f : TR) (e : Word)
  /-- UNPACK: Expands a packed register into k registers of a wider format (R140) -/
  | unpack (f : TR) (e : Word)
  /-- FSCALE: Rounds a × 2^b once (R135) -/
  | fscale (f : TR) (l : Option Word)
  /-- HADD2: Adds the two bf16 or f16 elements of each lane (R137) -/
  | hadd2 (f : TR) (l : Option Word)
  /-- HMUL2: Multiplies the two bf16 or f16 elements of each lane (R137) -/
  | hmul2 (f : TR) (l : Option Word)
  /-- HFMA2: Fused multiply-add of the two 16-bit elements of each lane (R137) -/
  | hfma2 (f : TR) (l : Option Word)
  /-- FCLASS: Writes a one-hot class mask of an f32 (R135) -/
  | fclass (f : TR)
  /-- LANEID: Writes each active lane's index (R141) -/
  | laneid (f : TR)
  /-- SHFL: Reads a source lane chosen by idx, up, down or xor mode (R141) -/
  | shfl (f : TR)
  /-- VOTE_ALL: Writes the AND of a predicate over the active threads (R141) -/
  | voteAll (f : TR)
  /-- VOTE_ANY: Writes the OR of a predicate over the active threads (R141) -/
  | voteAny (f : TR)
  /-- VOTE_BALLOT: Writes a ballot of a predicate into four scalars (R141) -/
  | voteBallot (f : TR)
  /-- RED: Tree reduction over the active lanes in a fixed order, with the result in every active lane (R142) -/
  | red (f : TR)
  /-- VREDS: Reduction into RRES, stamped with the next sequence number (R143) -/
  | vreds (f : TR)
  /-- VREDS_COMPLETE: 8 ac after issue, RRES receives the value, the stamp and VALID (R143) -/
  | vredsComplete (group : Nat)
  /-- PLOP: Predicate AND, OR, XOR or ANDN (R141) -/
  | plop (f : TR)
  /-- PMOV: Copies each thread's own predicate (R141) -/
  | pmov (f : TR)
  /-- PMOV_NZ: Sets a predicate to sA ≠ 0 (R141) -/
  | pmovNz (f : TR)
  /-- PMOV_BIT: Sets each thread's predicate from its lane bit of four scalars (R141) -/
  | pmovBit (f : TR)
  /-- SREDW: Waits for a given RRES stamp and writes VALUE to a scalar pair (R143) -/
  | sredw (f : TR)
  /-- SREDW_RETURN: The awaited stamp appears in RRES, and the waiting SREDW writes its pair (R143) -/
  | sredwReturn (wait : Nat)
  /-- LD: Per-lane global load into a vector destination (R176) -/
  | ld (f : ME)
  /-- LD_EXTENDED: LD with a memory extension word giving scope, order and displacement (R176) -/
  | ldExtended (f : ME) (e : Word)
  /-- ST: Per-lane global store into the group's store FIFO (R177) -/
  | st (f : ME)
  /-- ST_EXTENDED: ST with a memory extension word (R177) -/
  | stExtended (f : ME) (e : Word)
  /-- LDS: Per-lane scratchpad load (R176) -/
  | lds (f : ME)
  /-- LDS_EXTENDED: LDS with a memory extension word (R176) -/
  | ldsExtended (f : ME) (e : Word)
  /-- STS: Per-lane scratchpad store (R177) -/
  | sts (f : ME)
  /-- STS_EXTENDED: STS with a memory extension word (R177) -/
  | stsExtended (f : ME) (e : Word)
  /-- LDC: Loads once per split into a scalar destination (R178) -/
  | ldc (f : ME)
  /-- LDC_EXTENDED: LDC with a memory extension word (R178) -/
  | ldcExtended (f : ME) (e : Word)
  /-- LDWS: Bounded-latency load from the weight store (R179) -/
  | ldws (f : ME)
  /-- LDWS_EXTENDED: LDWS with a memory extension word (R179) -/
  | ldwsExtended (f : ME) (e : Word)
  /-- PREF: L2 hint to fetch, keep or evict a line, with no architectural effect (R180) -/
  | pref (f : ME)
  /-- PREF_EXTENDED: PREF with a memory extension word that carries a displacement (R180) -/
  | prefExtended (f : ME) (e : Word)
  /-- LDSP: Checks its operands and queues a global-to-scratchpad transfer on the transfer unit, bound to a barrier generation (R182) -/
  | ldsp (f : TR) (e : Word)
  /-- ATOM: Per-lane global read-modify-write at the node of its scope (R184) -/
  | atom (f : TR) (e : Word)
  /-- ATOMS: Per-lane scratchpad read-modify-write at the bank (R184) -/
  | atoms (f : TR) (e : Word)
  /-- FENCE: Waits until the acquire and release conditions at the scope hold (R227) -/
  | fence (f : TR)
  /-- FENCE_COMPLETE: A waiting fence's conditions are met and its threads go on (R227) -/
  | fenceComplete (wait : Nat)
  /-- WAITSB: Waits until every named scoreboard slot of the home group is clear (R186) -/
  | waitsb (f : LU)
  /-- WAITSB_RETURN: The awaited slots clear, and the waiting WAITSB completes (R186) -/
  | waitsbReturn (wait : Nat)
  /-- BINIT: Initialises a barrier's expected count and advances its generation (R187) -/
  | binit (f : RI)
  /-- BINIT_LITERAL: BINIT with its count taken from a 32-bit literal (R187) -/
  | binitLiteral (f : RI) (e : Word)
  /-- BARV: Group arrival on a barrier, as a release at block scope (R187) -/
  | barv (f : TR)
  /-- BEXP: Adds expected bytes to a barrier (R187) -/
  | bexp (f : TR)
  /-- BEXP_LITERAL: BEXP with its byte count taken from a literal (R187) -/
  | bexpLiteral (f : TR) (e : Word)
  /-- BWAIT: Waits until the barrier's PHASE differs from LP, then toggles LP (R188) -/
  | bwait (f : TR)
  /-- BWAIT_RETURN: A barrier phase completes, and the waiting BWAIT returns with an acquire at block scope (R188) -/
  | bwaitReturn (wait : Nat)
  /-- BTEST: Tests whether the barrier's phase has passed and toggles LP when it has (R188) -/
  | btest (f : TR)
  /-- BARRIER_BANK_OP: An init, expect or group arrival is applied at the barrier's bank, with the completion check (R157) -/
  | barrierBankOp (block : Nat)
  /-- ENGINE_ARRIVE: An engine arrival is applied if its generation matches, or is discarded or dropped (R157) -/
  | engineArrive (arrival : Nat)
  /-- MBW: Fills a mailbox with the lowest active lane's value, waiting while it is full (R190) -/
  | mbw (f : TR)
  /-- MBR: Takes a mailbox's value into a scalar and empties it, waiting while it is empty (R190) -/
  | mbr (f : TR)
  /-- MBP: Reads a mailbox without emptying it, waiting while it is empty (R190) -/
  | mbp (f : TR)
  /-- MAILBOX_FILL: The head of the write queue finds the mailbox empty and fills it (R105) -/
  | mailboxFill (wait : Nat)
  /-- MAILBOX_TAKE: The head of the read queue finds the mailbox full and reads or peeks it (R105) -/
  | mailboxTake (wait : Nat)
  /-- CPSUB: Reads a COPY image and submits it for admission from a kernel (R192) -/
  | cpsub (f : TR) (e : Word)
  /-- CPSUB_ADMIT: Admission of a kernel copy is decided, and the handle lands in sD (R192) -/
  | cpsubAdmit (wait : Nat)
  /-- CPWP: Returns the bytes delivered by the copy that a handle names, with an acquire at die scope (R193) -/
  | cpwp (f : TR) (e : Word)
  /-- CPWP_RAW: Returns the 64-bit WPTR of any context of the die (R193) -/
  | cpwpRaw (f : TR) (e : Word)
  /-- CPWAIT: Waits for the final status of the copy that a handle names (R194) -/
  | cpwait (f : TR) (e : Word)
  /-- CPWAIT_RETURN: The copy reaches its final status, and the waiting CPWAIT writes it (R194) -/
  | cpwaitReturn (wait : Nat)
  /-- MMA: Signs a matrix multiply-accumulate on a convergence set (R204) -/
  | mma (f : TR) (e : Word)
  /-- MMAG: Signs an MMA whose A rows are gathered from scratchpad (R206) -/
  | mmag (f : TR) (e : Word)
  /-- MMAB: Signs an MMA whose A operand is read from an A-latch (R207) -/
  | mmab (f : TR) (e : Word)
  /-- MDRN: Signs a drain of accumulators, converted, into a latch and/or registers (R209) -/
  | mdrn (f : TR) (e : Word)
  /-- KDEF: Defines a convergence register's set, waiting until the register is idle (R198) -/
  | kdef (f : TR)
  /-- KDEF_COMPLETE: The convergence register becomes idle, and the waiting KDEF installs the set (R198) -/
  | kdefComplete (wait : Nat)
  /-- MACZ: Writes +0 to 32 names in the active lanes (R208) -/
  | macz (f : TR)
  /-- MWAIT: Waits until the operations of the register that hold the group's signs have completed (R200) -/
  | mwait (f : TR)
  /-- ENGINE_OP_START: An operation reaches the head of the engine queue, takes its destinations and reads or gathers its operands (R211) -/
  | engineOpStart (part : Nat)
  /-- ENGINE_OP_COMPLETE: Execution ends: D and latches are written, flags set, slots cleared and MWAITs released, or the tile task parks (R204) -/
  | engineOpComplete (part : Nat)
  /-- TDEF: Writes back and unbinds a handle, then binds it to a checked frame tile descriptor (R248) -/
  | tdef (f : TR)
  /-- TQRY: Writes a tile's OCC, WOKEN, OVFROWS or free rows to a scalar (R252) -/
  | tqry (f : TR)
  /-- BINRUN: Marks a handle for dispatch as soon as one row is woken (R252) -/
  | binrun (f : TR)
  /-- SUSP: Suspends the active threads into tile or overflow rows and vacates their lanes (R249) -/
  | susp (f : TR)
  /-- WAKE_SCALAR: Sets the wake bit of the row a scalar names (R250) -/
  | wakeScalar (f : TR)
  /-- WAKE_VECTOR: Sets the wake bits of the rows named per active lane (R250) -/
  | wakeVector (f : TR)
  /-- TWAKEQ: Wakes every tile and overflow row whose column satisfies a comparison (R250) -/
  | twakeq (f : TR) (e : Word)
  /-- TAPPLY: Applies one operation to a column of every sleeping row (R251) -/
  | tapply (f : TR) (e : Word)
  /-- BIN_GROUP_FORM: A placed bin dispatch forms a new group from up to 128 woken rows (R254) -/
  | binGroupForm (block : Nat) (handle : Nat)
  /-- FIXED_WRITEBACK: A fixed-latency result lands at c + L and updates the rename table (R91) -/
  | fixedWriteback (pend : Nat)
  /-- STARVATION_GUARD: A split that has been able to issue for 64 ac without issuing is issued first (R85) -/
  | starvationGuard (part : Nat)
  /-- ACTIVE_SET_SWAP: A group meets a long-latency dependence and is swapped with the oldest ready pending group (R86) -/
  | activeSetSwap (part : Nat)
  /-- PENDING_AGE_SWAP: A pending group ready for 1,024 ac replaces the longest-resident active group (R86) -/
  | pendingAgeSwap (part : Nat)
  /-- POOL_ALLOC_SERVE: Freed registers serve the head of the core's pool waiting list (R98) -/
  | poolAllocServe (core : Nat)
  /-- SPILL_EVICT: The spill engine evicts a victim group whole to its spill area (R99) -/
  | spillEvict (core : Nat)
  /-- GROUP_REFILL: A spilled group's registers, table and uniform values are restored (R100) -/
  | groupRefill (group : Nat)
  /-- LOAD_PERFORM: A pending load reads each byte from the FIFO, the bank or the path, and lands (R224) -/
  | loadPerform (op : Nat) (lane : Nat)
  /-- STORE_DRAIN: The head entry of a group FIFO enters the core node or writes its bank (R225) -/
  | storeDrain (group : Nat)
  /-- STORE_PUSH: A buffered entry moves from a node to its parent node (R222) -/
  | storePush (node : Nat) (entry : Nat)
  /-- ATOMIC_PERFORM: An atomic lane is performed indivisibly at the node of its scope (R226) -/
  | atomicPerform (op : Nat) (lane : Nat)
  /-- TLB_WALK_DONE: A table walk ends in a physical address, PAGE, PROT or POISON (R150) -/
  | tlbWalkDone (walk : Nat)
  /-- TRANSFER_SEGMENT: The transfer unit translates and moves one 4 KiB source segment into scratchpad, or parks it (R182) -/
  | transferSegment (transfer : Nat) (segment : Nat)
  /-- COPY_SEGMENT: A channel translates and moves one segment or transpose tile, advancing WPTR or parking (R162) -/
  | copySegment (copy : Nat) (segment : Nat)
  /-- COPY_COMPLETE: The last byte lands, the chain compares, the barrier arrives and the final status is written (R164) -/
  | copyComplete (copy : Nat)
  /-- BELFRY_WAKE: A write to WRIDX or to the awaited ticket line of a watched queue wakes the Belfry (R30) -/
  | belfryWake (queue : Nat)
  /-- QUEUE_POLL: The Belfry polls an unwatched queue at least every 10 µs (R30) -/
  | queuePoll (queue : Nat)
  /-- PACKET_FETCH: A published slot is copied, its ticket freed and RDIDX advanced (R28) -/
  | packetFetch (queue : Nat)
  /-- QUEUE_SLICE_EXPIRE: A 2 µs slice expires, and the processor moves to the next ready queue between packets (R38) -/
  | queueSliceExpire (proc : Nat)
  /-- LAUNCH: Validates the region, the descriptor and the spill space, runs the demand test, and admits or refuses the bundle (R42) -/
  | launchPacket (queue : Nat)
  /-- FAULT_LAUNCH: A LAUNCH with FAULT set is admitted without the demand test and runs one handler block (R273) -/
  | faultLaunch (queue : Nat)
  /-- WAIT: Stops fetch until a masked memory word meets a comparison (R35) -/
  | waitPacket (queue : Nat)
  /-- WAIT_RECHECK: A write to the line or the 1 µs timer re-reads the WAIT's word and ends the wait if it holds (R35) -/
  | waitRecheck (queue : Nat)
  /-- WRITE: Store-release of 4 or 8 bytes at .sys, then DONE (R34) -/
  | writePacket (queue : Nat)
  /-- WRSIG_ADD: Store-release, then an atomic add to a signal word, then DONE (R34) -/
  | wrsigAdd (queue : Nat)
  /-- WRSIG_APPEND: Claims a target-queue slot without waiting and appends a packet image (R36) -/
  | wrsigAppend (queue : Nat)
  /-- WRSIG_RETRY: A WRSIG kind 1 that found its target full or contended retries (R36) -/
  | wrsigRetry (queue : Nat)
  /-- BRANCH: Reads the phase result word and skips T(s) slots (R34) -/
  | branchPacket (queue : Nat)
  /-- JUMP: Skips SKIP slots (R34) -/
  | jumpPacket (queue : Nat)
  /-- SKIP_SLOT: Consumes one skipped slot once its ticket is published (R34) -/
  | skipSlot (queue : Nat)
  /-- COPY: Validates and admits a copy and assigns it a channel and context (R161) -/
  | copyPacket (queue : Nat)
  /-- FENCE_PACKET: Waits until earlier LAUNCH and COPY packets are final and visible at the scope, then DONE (R34) -/
  | fencePacket (queue : Nat)
  /-- STAMP: Store-release of the campanile value, then DONE (R34) -/
  | stamp (queue : Nat)
  /-- NOP_PACKET: Completes with DONE (R34) -/
  | nopPacket (queue : Nat)
  /-- BUNDLE_RETIRE: Once every group has exited and every record is served, writes the retire record and the final status (R232) -/
  | bundleRetire (launch : Nat)
  /-- DISPATCH_PLACE: A die's dispatcher places the head of its run queues, starting or resuming a block (R51) -/
  | dispatchPlace (die : Nat)
  /-- PREEMPT_HALT_DONE: The halt completes and each group's issue state is captured (R57) -/
  | preemptHaltDone (block : Nat)
  /-- SERVER_REPLENISH: At PSTART + PERIOD, a server's USED becomes 0 and PSTART advances (R46) -/
  | serverReplenish (server : Nat)
  /-- USED_WRITEBACK: Writes USED and PSTART back to the RCB at least every 10 µs (R46) -/
  | usedWriteback (server : Nat)
  /-- PARKED_RECORD_WRITE: Writes a parked record to PKAREA or a Keep slot, or defers it (R267) -/
  | parkedRecordWrite (record : Nat)
  /-- DEFERRED_RECORD_FORM: A record slot frees, and a deferred record is formed (R267) -/
  | deferredRecordForm (record : Nat)
  /-- FAULT_TASK_APPEND: Appends the fault-task LAUNCH to HQUEUE, retrying while full (R273) -/
  | faultTaskAppend (record : Nat)
  /-- TRCTL_WRITE: Writes trace control: enabling restarts TRWPTR, ERR is cleared by 1 (R341) -/
  | trctlWrite (write : Nat)
  /-- QREG_WRITE: A write to a sys.QREG entry registers, refuses, stops or deregisters a queue under world rules (R29) -/
  | qregWrite (write : Nat)
  /-- TLBINV_WRITE: Drops matching TLB entries package-wide, checking ASID permissions (R295) -/
  | tlbinvWrite (write : Nat)
  /-- SYSTEM_REGISTER_WRITE: A write to a system register with no row of its own changes only its writable fields (R293) -/
  | systemRegisterWrite (write : Nat)
  /-- KEEPALIVE_SEND: Sends a keepalive on every up link at each 10,000 ns multiple (R320) -/
  | keepaliveSend (port : Nat)
  /-- KEEPALIVE_MISS: A keepalive is missed after 2,000 ns; the third in a row makes the link dead (R321) -/
  | keepaliveMiss (port : Nat)
  /-- RAIL_SLEW_DONE: A rail finishes slewing, and BUSY clears (R348) -/
  | railSlewDone (rail : Nat)
  /-- MATCH_POINT_HIT: A matched split reaching MATCHPC runs the handler with shadow registers before the instruction executes (R301) -/
  | matchPointHit (group : Nat)
  /-- REMOTE_WRITE_ACK: Acknowledged remote-write bytes count as landed (R168) -/
  | remoteWriteAck (message : Nat) (refusal : Option (Nat × Nat))
  /-- WS_REFRESH_WINDOW_END: A weight-store bank's refresh window ends, and held reads and writes go on (R155) -/
  | wsRefreshWindowEnd (die : Nat) (bank : Nat)
  /-- BUDGET_TICK: Every 100 ns, finds budget and server exhaustion and demotes work (R47) -/
  | budgetTick
  /-- PK_REQUEST_RECEIVE: A PK request from a peer handler takes effect on the home chip (R280) -/
  | pkRequestReceive (request : PkRequest)
  /-- TRACE_SAMPLE: Each sample period writes a SAMPLE record of the named partition (R342) -/
  | traceSample
  /-- ECC_CORRECTED: A corrected error is logged as a CE (R308) -/
  | eccCorrected (bank : Nat) (detail : Byte)
  /-- ECC_UNCORRECTABLE: An uncorrectable error poisons its unit and is logged as a UE (R308) -/
  | eccUncorrectable (site : EccSite) (detail : Byte)
  /-- ERRBANK_STATUS_READ: A world-S read of STATUS sets SEEN (R315) -/
  | errbankStatusRead (bank : Nat) (world : Bool)
  /-- ERRBANK_STATUS_WRITE: W1C writes clear OVF and counters, and CLR empties the record (R314) -/
  | errbankStatusWrite (bank : Nat) (value : Wide)
  /-- SPIRE_BANK_SCAN: Every 10 ms, the Spire reads each UE bank and reports it (R315) -/
  | spireBankScan
  /-- FRAME_RECEIVE: A received frame is checked by FEC and replayed by link-level retry (R316) -/
  | frameReceive (port : Nat) (fecOk : Bool) (frame : Frame)
  /-- REMOTE_OP_RECEIVE: A remote write, read or atomic is checked against the grant table and performed or refused (R318) -/
  | remoteOpReceive (op : RemoteOp)
  /-- KEEPALIVE_RECEIVE: A received keepalive counts toward bringing the link up (R321) -/
  | keepaliveReceive (port : Nat)
  /-- PHYSICAL_LINK_LOSS: Loss of the physical link makes the link dead at once (R321) -/
  | physicalLinkLoss (port : Nat)
  /-- LINK_STATE_UPDATE: A received update is accepted and forwarded if newer, or discarded (R322) -/
  | linkStateUpdate (port : Nat) (update : LinkUpdate)
  /-- DRAIN_ROUND_1: Returns queued packets whose next hop crosses a dead element (R323) -/
  | drainRound1
  /-- DRAIN_ROUND_2: Fails returned operations to unreachable chips and holds the others (R323) -/
  | drainRound2
  /-- DRAIN_ROUND_3: Fails every unacknowledged operation toward unreachable chips (R323) -/
  | drainRound3
  /-- ROUTE_RECOMPUTE: Recomputes routes and resends held operations (R323) -/
  | routeRecompute
  /-- PTP_EVENT_MESSAGE: A timestamped IEEE 1588 message steers the campanile rate and the lock state (R324) -/
  | ptpEventMessage (port : Nat) (message : PtpMsg)
  /-- POWER_ON_BOOT: The Spire verifies and releases units in order and measures them into the attestation value (R344) -/
  | powerOnBoot (images : List (List Byte × List Byte))
  /-- BOOT_LOCK_TIMEOUT: No IEEE 1588 lock within 2 s, so the campanile runs FREE and boot goes on (R344) -/
  | bootLockTimeout
  /-- HEARTBEAT_MISS: Two missed 1 ms heartbeats make the Spire reset the unit (R345) -/
  | heartbeatMiss (unit : Nat)
  /-- POWER_THERMAL_FAULT: Input voltage or temperature outside limits resets every die (R346) -/
  | powerThermalFault
  /-- POWER_THERMAL_RECOVER: Input and temperature return within limits, and the dies leave reset (R346) -/
  | powerThermalRecover
  /-- QUOTE: Returns a signed attestation quote over a nonce (R347) -/
  | quote
  /-- LOGREAD: Returns 8 measurement-log digests (R347) -/
  | logread
  /-- GRANT: Writes one grant table entry (R347) -/
  | grantCommand
  /-- RESET: Resets a die or unit under R345 (R347) -/
  | resetCommand
  /-- QCLEAR: Clears a quarantine entry or a fenced controller (R347) -/
  | qclear
  /-- MARGIN: Fences or unfences a die for margining (R348) -/
  | margin
  /-- WMAP: Sets the world-map bits of a range of pages (R362) -/
  | wmap
  /-- MAILBOX_COMMAND_REFUSED: An unrecognised Spire command ends with status refused (R347) -/
  | mailboxCommandRefused
  /-- RAIL_STEP_WRITE: Writes a rail offset, or sets ERR if the die is not fenced or the value is out of range (R348) -/
  | railStepWrite (rail : Nat) (value : Wide)
  /-- LANE_TAP_WRITE: Writes a lane's FIR taps and offsets, refused with ERR while the link is up (R349) -/
  | laneTapWrite (lane : Nat) (value : Wide)
  /-- EYE_SCAN_START: Starts an eye scan at the set offsets (R349) -/
  | eyeScanStart (lane : Nat) (value : Wide)
  /-- EYE_SCAN_DONE: The scan completes with ERRCNT and DONE (R349) -/
  | eyeScanDone (lane : Nat) (errors : Word)
  /-- PHYSICAL_LINK_UP: A port regains its physical link and passes training, so it can begin to count keepalives toward being declared up (R321) -/
  | physicalLinkUp (port : Nat)
  /-- PTP_HOLDOVER: The parent clock is lost, and sys.TIMESYNC moves from LOCKED to HOLDOVER, voiding the ±20 ns promise (R324) -/
  | ptpHoldover
  /-- DRAM_TEMPERATURE_THRESHOLD: The DRAM layers cross 85 °C or 95 °C, and the refresh rate changes to two or four times the base rate (R152) -/
  | dramTemperatureThreshold (die : Nat) (rate : Nat)
  /-- REMOTE_READ_RESPONSE: The data, a poison-marked flit or a UEC semantic error returns for a Transport remote read that a channel or the Belfry issued (R309) -/
  | remoteReadResponse (message : Nat) (result : RemoteResult)
  /-- SECURED_CONTEXT_OPEN: A transport-security context to a peer becomes available, so that S-world appends and copies waiting for one may proceed (R325) -/
  | securedContextOpen (chip : Nat)
  deriving DecidableEq, Repr

end Sys2Proof
end

