-- ==== Sys2Proof/Machine/State.lean ====
section
/-! DEFINITION. The state of the K4 as plain data: every piece of state the spec names (INVENTORY.md, State), the
reasons a step could stop, and the state right after power-on reset. -/
namespace Sys2Proof.Machine

/-- Reasons a step stops with a fault. No meaning raises one: on the K4 a fault parks work and the machine goes on
(00_scope, R268). -/
inductive Fault where
  /-- Reserved: raised by no meaning. Safe. -/
  | none
  deriving DecidableEq, Repr

/-- Reasons a step is refused. -/
inductive Refusal where
  /-- Raised by an arm of exec whose instruction has no meaning yet. Safe: the machine stops. -/
  | notModelled (mnemonic : String)
  deriving DecidableEq, Repr

/-! ### Clock, environment, issue -/

/-- The arithmetic clock (R1) and the campanile (R3, R324). `frac` is the part of a nanosecond gained so far, in
units of 1 / 18,000,000 ns; `ppm` is the steering of R324. -/
structure Clock where
  ac : Nat
  ns : Nat
  frac : Nat
  ppm : Int
  deriving DecidableEq, Repr, Inhabited

/-- A choice made from outside about what the machine does next: an event, an issue by a partition although other events
are due, a partition whose fetch has not come in this cycle, or the end of the cycle although events of no fixed time are
due. -/
inductive Choice where
  | event (i : Instr)
  | issue (part : Nat)
  | miss (part : Nat)
  | cycle
  deriving DecidableEq, Repr

/-- The model's own fields: the steps and inputs chosen from outside, the counter of the free values, the policy of
R83, the mismatches to come (R311), and the counters that name things. -/
structure Env where
  sched : List Choice
  freeCtr : Nat
  joins : Bool
  sdc : Nat
  seq : Nat
  nextId : Nat
  deriving DecidableEq, Repr

/-- One home group's threads of a split: those in it, and those whose guard is true (R69, R127). -/
structure Member where
  gid : Nat
  lanes : Mask
  act : Mask
  deriving DecidableEq, Repr, Inhabited

/-- The accounts of a partition and of a split's groups as they stood before an attempt to issue, which stand again when
the split turns out not to issue: the last leader, the owed split, and of each group whether it was served since its last
issue, ISSUED and the issues of its handler. -/
structure Accounts where
  last : Option Nat
  owed : Option (Nat × Wide × BitVec 9)
  groups : List (Nat × Bool × Nat × Nat)
  deriving DecidableEq, Repr, Inhabited

/-- The split that issues (R82) and the slot control of its instruction (R65). The first member is the leader. `seq` is
its place in the issue sequence (R88). -/
structure Issue where
  part : Nat
  members : List Member
  pc : Wide
  next : Wide
  wb : BitVec 9
  stall : Nat
  sbset : Nat
  guardField : BitVec 4
  secondCtl : Bool
  word : Word
  ext : Word
  seq : Nat
  before : Accounts
  deriving DecidableEq, Repr, Inhabited

/-! ### Threads and groups -/

/-- The states of a lane (R81). -/
inductive LaneState where
  | live | waiting | parked | vacant
  deriving DecidableEq, Repr, Inhabited

/-- A mapping of the rename table (R90, R339): a physical register, a uniform slot, or values in the spill area, with
their poisoned lanes and whether they stood in a uniform slot. `key` tells apart the registers of a spilled group. -/
inductive Mapping where
  | phys (p : Nat)
  | unif (u : Nat)
  | spilled (key : Nat) (vals : Lanes) (poison : Mask) (uni : Bool)
  deriving DecidableEq, Repr

/-- What a lane of a name reads as: its value, whether it is live, whether it is poisoned. -/
structure LaneRead where
  val : Word
  live : Bool
  poison : Bool
  deriving DecidableEq, Repr, Inhabited

/-- How a parked lane goes on (R171, R288, R290): it keeps its address, data and dither phase; `fresh` says that
PKRTY discarded them, `known` that the instruction had come to its address and data; `go` says that a service has made it replay. `after` is where a lane that had already run on
goes back to once it has replayed. `srcs` are the vector operands as the lane met them and `holds` the registers behind
them, whose reads are pending until the replay (R91); `issued` says that the instruction had issued (R117). -/
structure Replay where
  addr : Wide
  data : List Word
  known : Bool
  phase : BitVec 5
  srcs : Tab LaneRead
  holds : List Mapping
  fresh : Bool
  go : Bool
  after : Option (Wide × BitVec 9 × List (BitVec 9))
  record : Nat
  issued : Bool
  deriving DecidableEq, Repr, Inhabited

/-- A thread, held by its home lane (R80). `since` times the starvation guard (R85). `stash` are the replays that it comes back to
after its replay, where an earlier instruction's fault has come after it had parked (R268). -/
structure Thread where
  st : LaneState
  pc : Wide
  wb : BitVec 9
  stack : List (BitVec 9)
  preds : BitVec 7
  ready : Nat
  since : Option Nat
  replay : Option Replay
  stash : List Replay
  noMatch : Bool
  deriving DecidableEq, Repr, Inhabited

/-- An entry of the rename table (R90). -/
structure MapEntry where
  map : Mapping
  mask : Mask
  deriving DecidableEq, Repr

/-- What set a scoreboard slot (R68, R186, R336) and the destinations recorded against it. -/
structure SbSlot where
  op : Nat
  mem : Bool
  ldws : Bool
  set : Option Nat
  names : List Nat
  scalars : List Nat
  preds : List Nat
  count : Nat
  deriving DecidableEq, Repr, Inhabited

/-- An entry of a group's store FIFO (R221, R229). `pa` is none until its translation is known. -/
structure StoreEntry where
  seq : Nat
  op : Nat
  lane : Nat
  va : Wide
  pa : Option Nat
  bytes : List Byte
  scope : Nat
  rel : Bool
  deriving DecidableEq, Repr, Inhabited

/-- An open containment region (R281). -/
structure Contain where
  map : Tab MapEntry
  frames : List (BitVec 9 × List (BitVec 9))
  handler : Wide
  status : Nat
  stores : List Nat
  fresh : List Nat
  openSeq : Nat
  deriving DecidableEq, Repr

/-- A match-point handler in progress (R301): the split, its return PC, the shadow predicates, the issues made, and where it stands in
the issue sequence. -/
structure MatchCtx where
  point : Nat
  lanes : Mask
  ret : Wide
  wb : BitVec 9
  saved : List (Wide × BitVec 9 × List (BitVec 9) × BitVec 7)
  issues : Nat
  seq : Nat
  deriving DecidableEq, Repr, Inhabited

/-- A value waiting in the landing buffer of a stowed group (R58), with its instruction's place in the issue sequence. -/
structure Landing where
  name : Nat
  scalar : Bool
  mask : Mask
  vals : Lanes
  seq : Nat
  deriving DecidableEq, Repr, Inhabited

/-- Where a group stands (R59, R86). A group that has exited is `gone`: it has no slot, and is kept until its bundle
retires because its stores, atomics and engine reads go on (R145). -/
inductive Place where
  | active | pending | keep | stowed | gone
  deriving DecidableEq, Repr, Inhabited

/-- The reduction result register and the last stamp given (R106, R143). -/
structure Rres where
  value : Wide
  seq : BitVec 16
  valid : Bool
  stamp : BitVec 16
  deriving DecidableEq, Repr, Inhabited

/-- What names a group and where it runs; `bindex` is the index of its block in the launch. -/
structure GroupId where
  block : Nat
  bindex : Nat
  index : Nat
  launch : Nat
  part : Nat
  slot : Nat
  sub : Option Nat
  role : Nat
  cls : Nat
  stride : Nat
  start : Nat
  deriving DecidableEq, Repr, Inhabited

/-- The group registers (R294) and the other words a group keeps. -/
structure GroupRegs where
  allot : Nat
  owe : Nat
  gwarn : BitVec 4
  gflags : BitVec 6
  phase : BitVec 5
  rres : Rres
  lp : BitVec 16
  chk : BitVec 3
  stalls : List Nat
  issued : Nat
  deriving DecidableEq, Repr, Inhabited

/-- How a group stands in the issue path: its place, scheduling ages, the cycle from which it can issue in the active set
(R86), whether its registers are spilled, and whether the pool has served it since its last issue (R100). -/
structure GroupRun where
  place : Place
  entered : Nat
  openAt : Nat
  readySince : Option Nat
  spilled : Bool
  served : Bool
  deriving DecidableEq, Repr, Inhabited

/-- A resident or stowed group. `scalSeq` is of each scalar the instruction whose write has landed there last: its place in
the issue sequence and its split's threads (R88). `leaving` are the lanes of its names whose release waits for an engine's
read (R210). -/
structure Group where
  id : GroupId
  run : GroupRun
  threads : List Thread
  map : Tab MapEntry
  leaving : Tab Mask
  scal : Tab Word
  scalPoison : List Nat
  scalSeq : Tab (Nat × Mask)
  regs : GroupRegs
  sb : Tab SbSlot
  fifo : List StoreEntry
  contain : Option Contain
  landing : List Landing
  handler : Option MatchCtx
  deriving DecidableEq, Repr, Inhabited

/-! ### Cores and partitions -/

/-- A physical register in use (R90): its owner, lanes, poisoned lanes, pending reads, how many set operations will use
it in place as accumulator, which is no pending read but holds its release (R210, R211), whether it is still mapped, and
whether an open snapshot pins it (R281). -/
structure PReg where
  owner : Nat
  vals : Lanes
  poison : Mask
  reads : Nat
  engine : Nat
  mapped : Bool
  pinned : Bool
  deriving DecidableEq, Repr, Inhabited

/-- A uniform slot in use (R93), with its pending reads (R91). -/
structure Unif where
  owner : Nat
  val : Word
  poison : Mask
  reads : Nat
  deriving DecidableEq, Repr, Inhabited

/-- Who asks for registers: a split of a group by its PC and WB, a PKWR.reg that writes a register of the group, by its own split or
from another chip (R289), a set operation for a member, a refill, or the formation of a bin group, which has no group yet. -/
inductive PoolFor where
  | split (pc : Wide) (wb : BitVec 9)
  | patch (handler : Option (Nat × Wide × BitVec 9))
  | op (id : Nat)
  | refill
  | form (block handle : Nat)
  deriving DecidableEq, Repr

/-- A request on a core's pool waiting list (R98). One that is `own` waits for a release of its group's own registers
(R96) and is no request to the pool. -/
structure PoolReq where
  gid : Nat
  count : Nat
  asker : PoolFor
  own : Bool
  granted : Bool
  deriving DecidableEq, Repr

/-- A cached translation (R149, R151): a page of 2^16, 2^21 or 2^30 bytes. -/
structure TlbEntry where
  asid : Nat
  vbase : Nat
  size : Nat
  pbase : Nat
  leaf : BitVec 8
  deriving DecidableEq, Repr, Inhabited

/-- A match point (R300). `all` is set by world S. -/
structure MatchPoint where
  pc : Wide
  handler : Wide
  holder : Nat
  all : Bool
  desc : Nat
  deriving DecidableEq, Repr, Inhabited

/-- The generation that an arrival is bound to: a value, or what the barrier has right after an operation of the same group that
is still on its way to the bank, named by its place in the issue order (R189). -/
inductive Gen where
  | value (gen : BitVec 8)
  | behind (op : Nat)
  deriving DecidableEq, Repr, Inhabited

/-- A transfer of the core's transfer unit (R182). `again` holds of a segment that a service makes move again the offset in it to
start at, and the source and the destination of its first byte (R290). -/
structure Transfer where
  id : Nat
  gid : Nat
  block : Nat
  launch : Nat
  src : Wide
  dst : Nat
  n : Nat
  bar : Nat
  gen : Gen
  seq : Nat
  done : List Nat
  parked : List (Nat × Nat)
  again : Tab (Nat × Nat × Nat)
  killed : Bool
  deriving DecidableEq, Repr, Inhabited

/-- A core. -/
structure Core where
  pool : Tab PReg
  unif : Tab Unif
  pwait : List PoolReq
  xfer : Tab Transfer
  points : Tab MatchPoint
  deriving DecidableEq, Repr, Inhabited

/-- An A-latch (R207): 64 rows of 64 bytes and its owner. -/
structure Latch where
  owner : Option Nat
  bytes : List Byte
  poison : Bool
  deriving DecidableEq, Repr, Inhabited

/-- A dump in progress (R286): the requester's wait, the buffer, its size, the image taken at the freeze. -/
structure Dump where
  gid : Nat
  dest : Nat
  wait : Nat
  buf : Wide
  size : Nat
  image : List Byte
  need : Nat
  phase : Nat
  deriving DecidableEq, Repr, Inhabited

/-- A partition. `engineEnd` is the cycle in which the engine last completed or parked an operation, and the one in which it had executed it (R213), `hold` the cycle until which the issue slot is held (R312), `fetchAt` that until which the
fetch of its next instruction takes (R151); `issuers` are the groups with a thread
in the split issued in this cycle, the leader first. -/
structure Part where
  last : Option Nat
  owed : Option (Nat × Wide × BitVec 9)
  queue : List Nat
  engine : Option (Nat × Nat)
  engineEnd : Nat × Nat
  latches : Tab Latch
  shadowV : Tab Lanes
  shadowS : Tab Word
  hold : Nat
  fetchAt : Nat
  frozen : Option Dump
  issuers : List Nat
  deriving DecidableEq, Repr, Inhabited

/-! ### Blocks -/

/-- A barrier register (R156). -/
structure Bar where
  expect : BitVec 16
  arrived : BitVec 16
  xbytes : Word
  lbytes : Word
  gen : BitVec 8
  phase : Bool
  deriving DecidableEq, Repr, Inhabited

/-- A mailbox (R105). -/
structure Mbox where
  val : Wide
  full : Bool
  poison : Bool
  deriving DecidableEq, Repr, Inhabited

/-- A convergence register (R197); `signing` names the operation that holds signs. -/
structure KReg where
  base : Nat
  n : Nat
  signing : Option Nat
  ordinal : Nat
  deriving DecidableEq, Repr, Inhabited

/-- An operation of the issue order of a group on its way to a barrier's bank (R189). -/
inductive BankKind where
  | init (n : BitVec 16)
  | expect (x : Word)
  | arrive
  deriving DecidableEq, Repr

/-- A queued barrier-bank operation (R157, R189). -/
structure BankOp where
  gid : Nat
  bar : Nat
  kind : BankKind
  slot : Nat
  seq : Nat
  deriving DecidableEq, Repr

/-- Where a bin dispatch stands (R253): in the claim queue, in the run queue, or given a place in a partition. -/
inductive Dispatch where
  | none | claiming | item
  | placed (part : Nat)
  deriving DecidableEq, Repr, Inhabited

/-- A bound frame tile (R245, R246, R252): `occ` and `woken` are the rows whose bit is set in the row-state area, `nocc`,
`nwoken` and `ovf` the counts OCC, WOKEN and OVFROWS. -/
structure Tile where
  va : Wide
  pa : Nat
  base : Wide
  resume : Wide
  wakeBase : Wide
  overflow : Wide
  names : List Nat
  rows : Nat
  scratch : Bool
  thresh : Nat
  allot : Nat
  role : Nat
  occ : List Nat
  woken : List Nat
  nocc : Nat
  nwoken : Nat
  ovf : Nat
  binrun : Bool
  dispatch : Dispatch
  deriving DecidableEq, Repr, Inhabited

/-- An entry of the claim queue (R240). -/
inductive Claim where
  | thread (wait : Nat)
  | bin (handle : Nat)
  deriving DecidableEq, Repr

/-- How a block stands (R43, R57, R59). -/
inductive BlockRun where
  | running | halting (until_ : Nat) | stowed
  deriving DecidableEq, Repr, Inhabited

/-- What names a block and where it lives (R18). -/
structure BlockId where
  launch : Nat
  index : Nat
  die : Nat
  cores : List Nat
  spread : Bool
  keep : Bool
  base : Nat
  t : Nat
  g : Nat
  start : Nat
  deriving DecidableEq, Repr, Inhabited

/-- A block. `image` holds its scratchpad while that lies in the stow area, `imageBad` the poisoned grains of it, and
`stowLatches` its latches, by partition within its cores (R59, R216);
`ghosts` counts the registers that groups which have exited still hold (R238). -/
structure Block where
  id : BlockId
  run : BlockRun
  bars : List Bar
  mboxes : List Mbox
  kregs : List KReg
  free : Nat
  total : Nat
  claims : List Claim
  tiles : Tab Tile
  bank : List BankOp
  image : Option (List Byte)
  imageBad : List Nat
  stowLatches : List (Nat × Nat × Latch)
  ghosts : Tab Nat
  deriving DecidableEq, Repr, Inhabited

/-! ### Matrix operations -/

/-- An operand name as a set operation met it at a member's last sign: the values, the live lanes, the poisoned ones. -/
structure OpVal where
  vals : Lanes
  live : Mask
  poison : Mask
  map : Option Mapping
  deriving DecidableEq, Repr, Inhabited

/-- One member's part of a set operation (R197, R199, R210): `vals` is its operand names as the last sign met them, `alt`
the values that writes issued since the first sign have put into some lanes of its names (R212), `holds` the mappings
whose release waits for the engine's read, `claims` those of accumulators used in place, `late` the accumulator names that
an earlier operation of the register is still to write (R218), `marks` the lanes that last-use bits release with the read
(R8), `touch` every name of the operation (R212), `seq` the place of its first sign in the issue sequence and a number that
orders its last sign among the stores; `dead` says that an unwind has freed the registers that its results were for (R282). -/
structure MatMem where
  gid : Nat
  signed : Mask
  wb : Option (BitVec 9)
  vals : Tab OpVal
  alt : Tab (Lanes × Mask)
  holds : List Mapping
  claims : List Mapping
  late : List Nat
  marks : Tab Mask
  seq : Nat × Nat
  phase : BitVec 5
  desc : Wide
  slots : List Nat
  scalB : Wide
  scalBad : Bool
  dead : Bool
  touch : List Nat
  deriving DecidableEq, Repr, Inhabited

/-- The progress of a set operation (R199, R200, R214). -/
inductive MatPhase where
  | signing | waiting | queued | allocating | running (until_ : Nat) | parked
  deriving DecidableEq, Repr, Inhabited

/-- A set operation. `out` is one list of registers for each member, computed when the engine reads; `resv` the registers
taken for its destinations; `readAt` the cycle in which its operands have been read (R213); `cuts` the cycles between its
checked pieces, in which a halt may fall (R215); `fault` what parks it when its execution ends. -/
structure MatOp where
  block : Nat
  k : Nat
  ordinal : Nat
  seq : Nat
  instr : Instr
  words : Word × Word
  members : List MatMem
  phase : MatPhase
  lastPc : Wide
  checks : BitVec 3
  bsrc : Option Wide
  gdesc : Option Wide
  out : List (List Lanes)
  latchOut : List (List Byte)
  resv : List (List (Option Nat))
  flags : BitVec 6
  fault : Option (Nat × Nat)
  due : Nat
  readAt : Option Nat
  cuts : List Nat
  deriving DecidableEq, Repr

/-! ### Memory operations, waits and other work in flight -/

/-- One lane of a pending memory operation. `cause` is a fault that has been met and not yet parked, `opval` what its
record would hold (R269). -/
structure LaneOp where
  lane : Nat
  addr : Wide
  pa : Option Nat
  done : Bool
  parked : Bool
  cause : Option (Nat × Nat)
  data : List Word
  value : Wide
  opval : List Wide
  deriving DecidableEq, Repr, Inhabited

/-- What a pending memory operation does. -/
inductive OpKind where
  | load | store
  | atomic (aop : Nat) (ret : Bool)
  deriving DecidableEq, Repr

/-- A memory instruction of one home group that has issued (R221, R223). `mask` is its active threads, `late` the names
that its last-use bits release in lanes whose translation was not known at issue, `phase` PHASE at its issue (R268). -/
structure MemOp where
  gid : Nat
  phase : BitVec 5
  kind : OpKind
  mask : Mask
  late : List Nat
  opcode : Nat
  scratch : Bool
  size : Nat
  scope : Nat
  acq : Bool
  rel : Bool
  dests : List Nat
  sdest : Option Nat
  slot : Nat
  pc : Wide
  next : Wide
  wb : BitVec 9
  seq : Nat
  lanes : List LaneOp
  resv : List (Option Nat)
  deriving DecidableEq, Repr

/-- A pending fixed-latency result (R66, R67, R91). -/
inductive Dest where
  | vec (name : Nat)
  | scal (s : Nat)
  | pred (p : Nat)
  deriving DecidableEq, Repr

/-- A pending fixed-latency write of one home group: what lands, where, when, and what follows from it.
DEDUCED, log entry 9. -/
structure Pend where
  gid : Nat
  dest : Dest
  lanes : Mask
  vals : Lanes
  landAt : Nat
  slot : Nat
  flags : BitVec 6
  uniform : Bool
  reserved : Option Nat
  seq : Nat
  deriving DecidableEq, Repr

/-- What a waiting split waits for (R81). A BWAIT is `passed` once the phase that it waits for has completed (R188). -/
inductive WaitKind where
  | fence (acq rel : Bool) (scope : Nat)
  | waitsb (slots : BitVec 8)
  | bwait (b : Nat) (passed : Bool)
  | mbw (m : Nat) (val : Wide) (poison : Bool)
  | mbr (m : Nat) (take wide : Bool) (d : Nat)
  | kdef (k n : Nat)
  | mwait (k : Nat)
  | claim (n : Nat)
  | role (n k : Nat) (keep : Bool) (cls : Nat)
  | cpsub (d : Nat) (image : Option (List Byte)) (ext : Word) (gen : Gen) (imageAt : Wide)
  | cpwait (d : Nat) (handle : Word)
  | sredw (d : Nat) (stamp : BitVec 16)
  | vreds (value : Wide) (stamp : BitVec 16) (flags : BitVec 6)
  | ftest (d cluster : Nat) (keep : Bool)
  | dump (d : Nat)
  | pk (d : Nat) (message : Nat) (wide : Bool)
  | sysStore (write : Nat)
  deriving DecidableEq, Repr

/-- Where an instruction stands that parks its lanes: its PC and WB, the PC after it, PHASE and its place in the issue sequence when it
issued (R268, R274), the vector names that its replay reads (R91), and whether it issued at all: one whose fetch faults has
not (R117). -/
structure At where
  pc : Wide
  next : Wide
  wb : BitVec 9
  phase : BitVec 5
  seq : Nat
  names : List Nat
  issued : Bool
  deriving DecidableEq, Repr, Inhabited

/-- A waiting split of one group: `here` is where its instruction stands and `opval` what a record of it holds (R269). -/
structure Wait where
  gid : Nat
  lanes : Mask
  kind : WaitKind
  slot : Nat
  pc : Wide
  seq : Nat
  at_ : Nat
  here : At
  opval : List Wide
  deriving DecidableEq, Repr

/-- A walk in progress (R151): whose TLB it serves, the space, and the 64 KiB page it looks up. -/
structure Walk where
  tlb : Nat
  asid : Nat
  troot : Nat
  page : Nat
  deriving DecidableEq, Repr, Inhabited

/-- A store entry in a node buffer (R221). -/
structure NodeEntry where
  op : Nat
  gid : Nat
  pa : Nat
  bytes : List Byte
  deriving DecidableEq, Repr, Inhabited

/-- A write on its way to a system register (R293), of 1, 2, 4 or 8 bytes. -/
structure SysWrite where
  off : Nat
  size : Nat
  val : Wide
  world : Bool
  asid : Nat
  op : Nat
  gid : Nat
  deriving DecidableEq, Repr, Inhabited

/-- An engine arrival to be applied (R157). `chan` names the channel of a copy. -/
structure Arrival where
  block : Option Nat
  bar : Nat
  gen : Gen
  n : Nat
  gid : Nat
  chan : Option Nat
  deriving DecidableEq, Repr, Inhabited

/-- Everything in flight in the ordering machine (R221) and at the units. -/
structure Flight where
  nodes : Tab (List NodeEntry)
  ops : Tab MemOp
  pends : Tab Pend
  waits : Tab Wait
  walks : Tab Walk
  tlbs : Tab (List TlbEntry)
  sysw : Tab SysWrite
  arrivals : Tab Arrival
  poison : List Nat
  deriving DecidableEq, Repr

/-! ### Regions, launches, the Belfry -/

/-- An effective fault domain (R10, R12); `rcb` is the RCB that supplies it, with that region's translation (R279). `peer` names the
record of another chip whose domain it is, where a handler of that record runs here (R276). -/
structure Domain where
  rcb : Nat
  ftclass : Nat
  maxDepth : Nat
  hqChip : Nat
  pkCount : Nat
  hbundle : Wide
  hqueue : Nat
  pkArea : Nat
  fbtile : Wide
  termrec : Wide
  fdeadline : Nat
  regionId : Nat
  asid : Nat
  troot : Nat
  world : Bool
  peer : Option Wide
  deriving DecidableEq, Repr, Inhabited

/-- An effective region, captured at admission (R12 to R14). `servers` is the serving server and its ancestors. -/
structure Region where
  rcb : Nat
  regionId : Nat
  servers : List Nat
  cls : Nat
  world : Bool
  asid : Nat
  troot : Nat
  defAllot : Nat
  defScratch : Nat
  chk : BitVec 3
  ftz : Bool
  trapen : BitVec 5
  spillBase : Nat
  spillSize : Nat
  dom : Domain
  deriving DecidableEq, Repr, Inhabited

/-- A budget server (R14, R46). Charges are kept in partition-ac, and in ns for copies and peers' reports. -/
structure Server where
  budget : Nat
  period : Nat
  freserve : Nat
  pstart : Nat
  ordAc : Nat
  ordNs : Nat
  faultAc : Nat
  faultNs : Nat
  ordOut : Bool
  faultOut : Bool
  nextWrite : Nat
  deriving DecidableEq, Repr, Inhabited

/-- A sub-launch (R16). -/
structure SubLaunch where
  entry : Wide
  role : Nat
  groups : Nat
  allot : Nat
  scratch : Nat
  stride : Nat
  deriving DecidableEq, Repr, Inhabited

/-- A validated bundle descriptor (R15). -/
structure Bundle where
  addr : Wide
  rcb : Wide
  blocks : Nat
  clmask : Nat
  deadline : Nat
  budget : Nat
  args : Wide
  phaseWord : Wide
  variants : List (List Nat)
  retireRec : Wide
  subs : List SubLaunch
  deriving DecidableEq, Repr, Inhabited

/-- What a fault task carries (R273, R276): the record it serves, its depth, and the faulting region. -/
structure FaultTask where
  handle : Wide
  record : Option Nat
  kind : Nat
  sub : Nat
  depth : Nat
  origin : Region
  deriving DecidableEq, Repr, Inhabited

/-- An admitted bundle (R22, R39 to R42). `qheader` is the header of its queue, `waitBlocks` holds for each die the next block index to start there and the
end of its range (R23). `charge` is in partition-ac; `demoted` and `low` are the two ways of running at class 0 (R47). -/
structure Launch where
  seq : Nat
  queue : Nat
  slot : Nat
  compl : Wide
  qtroot : Nat
  qworld : Bool
  qheader : Nat
  region : Region
  bundle : Bundle
  cls : Nat
  deadline : Nat
  budget : Nat
  t : Nat
  g : Nat
  k : Nat
  variant : Nat
  waitBlocks : Tab (Nat × Nat)
  started : Nat
  exited : Nat
  charge : Nat
  demoted : Bool
  low : Bool
  killed : Bool
  fault : Option FaultTask
  admitted : Nat
  first : Option Nat
  dieFirst : List (Nat × Nat)
  dieLast : List (Nat × Nat)
  recs : Nat
  lost : Nat
  reserved : Nat
  keepReserve : Option Nat
  deriving DecidableEq, Repr, Inhabited

/-- An entry of sys.QREG (R29). -/
structure QEntry where
  header : Wide
  valid : Bool
  world : Bool
  err : Bool
  deriving DecidableEq, Repr, Inhabited

/-- A packet being acted on (R37, R38): the steps performed, the campanile value at its fetch, whether it is held as a
waiting WAIT or WRSIG, the message whose answer it waits for, the value that its steps carry, and the target header that
a WRSIG of kind 1 has read. -/
structure Packet where
  slot : Nat
  bytes : List Byte
  step : Nat
  fetched : Nat
  held : Bool
  msg : Option Nat
  val : Wide
  info : List Byte
  deriving DecidableEq, Repr, Inhabited

/-- A served queue (R25, R28, R35). `devSlots` are the slots whose packets the device, or another chip, has appended:
only those may carry FAULT (R273). `line` is the address of the 64-byte line that holds the ticket that a watched queue
waits on, `seen` what WRIDX and that line held when it began to wait (R30). -/
structure Queue where
  header : Nat
  nslots : Nat
  slotBase : Wide
  asid : Nat
  troot : Nat
  world : Bool
  watch : Bool
  rd : Nat
  packet : Option Packet
  skips : Nat
  awake : Bool
  checkAt : Nat
  stopping : Bool
  devSlots : List Nat
  line : Nat
  seen : List Byte
  deriving DecidableEq, Repr, Inhabited

/-- A Belfry processor (R38). -/
structure Proc where
  current : Option Nat
  sliceEnd : Nat
  deriving DecidableEq, Repr, Inhabited

/-- The current variant of a sequence of phases (R54), keyed by RCB and descriptor address. -/
structure VariantRow where
  rcb : Nat
  bundle : Wide
  variant : Nat
  deriving DecidableEq, Repr, Inhabited

/-- The Belfry. `overruns` are the OVERRUNS counts that it keeps for RCBs whose regions have admitted work (R10). -/
structure Belfry where
  qreg : Tab QEntry
  queues : Tab Queue
  procs : Tab Proc
  launches : Tab Launch
  servers : Tab Server
  variants : List VariantRow
  overruns : Tab Nat
  arrival : Nat
  nextTick : Nat
  deriving DecidableEq, Repr, Inhabited

/-! ### Copies -/

/-- Who issued a copy (R192): a slot of a queue, or a group. -/
inductive CopySource where
  | queue (q slot : Nat) (compl : Wide)
  | group (gid launch bindex gindex : Nat) (compl : Wide)
  deriving DecidableEq, Repr

/-- The fields of a COPY image (R158 to R160). -/
structure CopyImage where
  src : Wide
  dst : Wide
  rchip : Nat
  rcb : Nat
  rside : Nat
  seg : Nat
  ckmode : Nat
  ckin : Bool
  ckend : Bool
  retry : Nat
  xw : Nat
  xcols : Nat
  size : Nat
  ckval : Word
  bar : Nat
  gen : Gen
  cluster : Nat
  bwin : Nat
  baren : Bool
  deadline : Nat
  budget : Nat
  deriving DecidableEq, Repr, Inhabited

/-- A parked segment of a copy (R162): its index, the failing grain's offset in it, the record, and the addresses of its
first byte. -/
structure ParkedSeg where
  seg : Nat
  off : Nat
  record : Nat
  src : Wide
  dst : Wide
  deriving DecidableEq, Repr, Inhabited

/-- A segment that a service has sent to another destination: from which offset and tile on its bytes do not come to the image's
destination, and from which on they come to the one it has now (R229, R290). -/
structure Away where
  seg : Nat
  off : Nat
  tile : Nat
  nowOff : Nat
  nowTile : Nat
  dst : Wide
  deriving DecidableEq, Repr, Inhabited

/-- How a copy is known to the Belfry. `target` is the block whose barrier takes the arrival (R157), `imageAt` the
address of the packet's image (R269), `qheader` the header of its queue, `ws` says that the local destination lies in the weight store (R154). `charge` is
in channel-ns, `rest` the bytes moved in the ns that is not full yet. `depth`, `dom` and `parent` are what a fault of its segments takes (R276). -/
structure CopyId where
  source : CopySource
  region : Region
  troot : Nat
  qworld : Bool
  qheader : Nat
  seq : Nat
  cls : Nat
  deadline : Nat
  budget : Nat
  demoted : Bool
  low : Bool
  killed : Bool
  charge : Nat
  rest : Nat
  target : Option Nat
  imageAt : Wide
  ws : Bool
  depth : Nat
  dom : Domain
  parent : Wide
  deriving DecidableEq, Repr

/-- An admitted copy (R162 to R167). `done` are the segments that have landed, `tiles` counts the transpose tiles of a
segment that have landed, `again` are segments that a service makes move from their `off` on, `moving` are segments under way to or from another chip, `data` is the landed bytes of each
segment in source order while a checksum needs them, `chain` is the first copy of its chain, `tries` the retries made.
`parts` holds, by grain of the destination, the bytes of grains that have not come whole, with their physical addresses, and nothing
for a grain that has (R229), `away` the segments that go elsewhere, `arrived` the answers to remote reads that a refresh window holds (R155), `arriving` names the
arrival made at completion. -/
structure Copy where
  id : CopyId
  img : CopyImage
  die : Nat
  chan : Nat
  ctx : Nat
  w0 : Nat
  done : List Nat
  tiles : Tab Nat
  moving : List Nat
  parked : List ParkedSeg
  again : List ParkedSeg
  data : Tab (List Byte)
  chain : Option Nat
  tries : Nat
  matched : Bool
  parts : Tab (List (Nat × List Byte))
  away : List Away
  arrived : Tab RemoteResult
  arriving : Option Nat
  deriving DecidableEq, Repr

/-- A context of a channel (R163, R192, R194). -/
structure Ctx where
  wptr : Wide
  serial : BitVec 15
  copy : Option Nat
  w0 : Nat
  status : Nat
  deriving DecidableEq, Repr, Inhabited

/-- A copy channel (R163). -/
structure Chan where
  ctxs : Tab Ctx
  warn : BitVec 4
  deriving DecidableEq, Repr, Inhabited

/-- The copy engines. Channel c of die d has the key 16 d + c. -/
structure Copies where
  copies : Tab Copy
  chans : Tab Chan
  deriving DecidableEq, Repr

/-! ### Faults -/

/-- What a record's origin is (R265). -/
inductive Origin where
  | lanes (gid : Nat) (mask : Mask)
  | tile (op : Nat)
  | segment (copy seg : Nat)
  | transfer (core entry seg : Nat)
  | claims (block : Nat) (waits : List Wait)
  | region (cluster : Nat)
  | spill (gid : Nat)
  | formation (block handle : Nat)
  | writeBack (block : Nat) (home : BlockId) (tile : Tile)
  deriving DecidableEq, Repr

/-- The device's side of a parked record (R265, R266, R267): what is parked and how far its delivery has come. `torn`
says that a teardown has killed its fault task, `deferred` that no slot was free for it, `unissued` that the fetch of its instruction faulted. `iseq` is the faulting
instruction's place in the issue sequence (R274), `service` a service that takes effect when the origin's block is resumed
(R284): its action, target and value. `moved` are the groups and lanes in which binned threads of the record have come back,
`went` by home lane where a binned thread that had already run on goes back to (R271, R272). -/
structure FRec where
  kind : Nat
  sub : Nat
  depth : Nat
  origin : Origin
  region : Region
  dom : Domain
  launch : Option Nat
  bundle : Wide
  block : Nat
  group : Nat
  pc : Wide
  addr : Wide
  opval : List Wide
  time : Nat
  parent : Wide
  handle : Option Wide
  keep : Bool
  state : Nat
  action : Nat
  patched : Bool
  binned : Option Nat
  appended : Bool
  task : Option Nat
  torn : Bool
  deferred : Bool
  seq : Nat
  iseq : Nat
  unissued : Bool
  service : Option (Nat × Nat × Wide)
  moved : List (Nat × Mask)
  went : Tab (Wide × BitVec 9 × List (BitVec 9))
  deriving DecidableEq, Repr

/-- The fault path: the records. A block's rows in a fault-bin tile (R271) are its binding of handle 16. -/
structure Faults where
  recs : Tab FRec
  deriving DecidableEq, Repr

/-! ### Links and the outside -/

/-- A port (R316, R320, R321). `expect` is the scheduled time of the next keepalive from the peer, `nextSend` that of the
next one sent; `got` counts keepalives in a row while the link is down, `paused` are the traffic classes that the peer pauses. -/
structure Port where
  up : Bool
  phys : Bool
  missed : Nat
  got : Nat
  replays : Nat
  peer : Nat
  peerPort : Nat
  nextSend : Nat
  expect : Nat
  paused : BitVec 8
  deriving DecidableEq, Repr, Inhabited

/-- What this chip has sent to another chip and is not yet acknowledged (R34, R168, R280, R323). -/
inductive MsgKind where
  | copyWrite (copy seg : Nat)
  | copyRead (copy seg : Nat)
  | belfry (queue : Nat)
  | append (record : Nat)
  | pk (wait : Nat) (request : PkRequest)
  | keepalive
  | linkState (update : LinkUpdate)
  | ptp (message : PtpMsg)
  | undeliverable (message : Nat)
  | status (handle : Wide)
  | report (handle : Wide) (amount : Nat)
  deriving DecidableEq, Repr

/-- A message of this chip: where it goes, what it is, its bytes and target address, the offsets from there and lengths of
the runs that an operation touches (R165), its traffic class (R317), and the UEC job identifier of a copy or a PK request
(R329). A `held` message
has not left this chip, for its next hop is dead or pauses its class, no delivery context is free for it, or a drain round holds it; it has
been `returned` as undeliverable (R316, R323). -/
structure Msg where
  chip : Nat
  port : Option Nat
  kind : MsgKind
  addr : Wide
  bytes : List Byte
  secure : Bool
  returned : Bool
  held : Bool
  runs : List (Nat × Nat)
  cls : Nat
  job : Option Nat
  deriving DecidableEq, Repr

/-- A row of the link-state table (R322). -/
structure LinkRow where
  seq : Word
  links : List LinkEntry
  deriving DecidableEq, Repr, Inhabited

/-- An entry of the grant table (R318). -/
structure Grant where
  job : Nat
  ctrl : BitVec 16
  asid : Nat
  troot : Nat
  deriving DecidableEq, Repr, Inhabited

/-- A packet on its way between two other chips that is queued here (R323). -/
structure Transit where
  src : Nat
  dst : Nat
  cls : Nat
  message : Nat
  deriving DecidableEq, Repr, Inhabited

/-- What has arrived from outside and waits here to be performed: a read that a refresh window holds, a write that registers a queue
whose former packet is in progress, a PK request that the pool makes wait, and what comes after one of them from the same
source (R29, R155, R230, R289). -/
inductive Inbound where
  | op (o : RemoteOp)
  | pk (q : PkRequest)
  deriving DecidableEq, Repr

/-- Links, routes and remote work. `round` is the drain round in progress, 4 while they wait to start again, `roundAt`
when the next one starts, `restart` that they start again at the boundary after that (R328), `reach` the chips that the rounds in progress found reachable, `recompute` when an update that
made a link up takes effect. `contexts` are the open delivery contexts, by chip and traffic class (R316, R323). -/
structure Net where
  ports : Tab Port
  table : Tab LinkRow
  seq : Word
  round : Nat
  roundAt : Option Nat
  reach : List Nat
  recompute : Option Nat
  routes : Tab Nat
  msgs : Tab Msg
  grants : Tab Grant
  secured : List Nat
  replies : List (Nat × RemoteResult)
  contexts : List (Nat × Nat)
  transit : List Transit
  waiting : List Inbound
  restart : Bool
  deriving DecidableEq, Repr, Inhabited

/-! ### The Spire, error banks, margining, trace -/

/-- An error bank (R314). -/
structure Bank where
  state : Nat
  ovf : Bool
  seen : Bool
  ueovf : Nat
  cecount : Nat
  addr : Wide
  info : Word
  origin : Word
  time : Wide
  deriving DecidableEq, Repr, Inhabited

/-- A rail's margining register (R348). `origin` is where it stood when it began to slew, in thousandths of a step, and `doneAt`
the campanile value at which it stops. -/
structure Rail where
  step : BitVec 7
  origin : Int
  busy : Bool
  err : Bool
  mv : BitVec 16
  doneAt : Nat
  deriving DecidableEq, Repr, Inhabited

/-- A lane's margining registers (R349). -/
structure LaneReg where
  taps : Word
  scanning : Bool
  done : Bool
  err : Bool
  phase : Byte
  volt : Byte
  errcnt : Word
  deriving DecidableEq, Repr, Inhabited

/-- A die's entry of a defect map (R350). -/
structure DefectDie where
  cores : BitVec 16
  fenced : BitVec 4
  parts : BitVec 64
  lanesp : List Byte
  sprep : Tab Word
  wsrep : Word
  dramRows : Word
  failTime : Wide
  deriving DecidableEq, Repr, Inhabited

/-- A DRAM controller's quarantine list and fence (R170, R310). Its record of poisoned sectors is the part of
`Flight.poison` that lies in its pages. -/
structure DramCtl where
  pages : List Nat
  fenced : Bool
  deriving DecidableEq, Repr, Inhabited

/-- What the Spire keeps of a cluster (R302, R326, R327). `out` says that KEEPFENCE keeps it out of placement. -/
structure Cluster where
  pass : Nat
  suspects : List (Nat × Region)
  testing : Option Nat
  fenced : Bool
  out : Bool
  deriving DecidableEq, Repr, Inhabited

/-- The boot state and the attestation (R344, R347). Units: 0 Belfry, 1 to 4 dispatchers, 5 firmware, 6 stores. -/
structure Boot where
  released : Nat
  slotB : Bool
  failed : Bool
  lockWait : Option Nat
  inReset : List Nat
  beats : Tab Nat
  m : BitVec 384
  log : List (BitVec 384)
  tempHold : Bool
  deriving DecidableEq, Repr, Inhabited

/-- The Spire mailbox (R347). -/
structure Mailbox where
  cmd : BitVec 8
  status : BitVec 8
  arg : Tab Byte
  resp : List Byte
  deriving DecidableEq, Repr, Inhabited

/-- A measurement of the offset from a parent clock in progress (R324): its port and sequence number, when the parent sent its Sync, when
that came, when the Delay_Req went out. -/
structure PtpExchange where
  port : Nat
  seq : Nat
  origin : Option Nat
  arrived : Nat
  sent : Option Nat
  deriving DecidableEq, Repr, Inhabited

/-- IEEE 1588 state (R324). -/
structure TimeSync where
  state : Nat
  port : Nat
  offset : Int
  exchange : Option PtpExchange
  deriving DecidableEq, Repr, Inhabited

/-- The Spire and what only it commands. -/
structure Spire where
  boot : Boot
  mail : Mailbox
  sync : TimeSync
  banks : Tab Bank
  scanAt : Nat
  worldS : List Nat
  dram : Tab DramCtl
  clusters : Tab Cluster
  margin : List Nat
  rails : Tab Rail
  lanes : Tab LaneReg
  fused : Tab DefectDie
  field : Tab DefectDie
  refresh : Tab Nat
  deriving DecidableEq, Repr, Inhabited

/-- Trace control (R341). -/
structure Trace where
  en : Bool
  stopFull : Bool
  err : Bool
  types : BitVec 16
  base : Nat
  size : Nat
  wptr : Nat
  lost : Nat
  sample : Word
  nextSample : Nat
  deriving DecidableEq, Repr, Inhabited

/-! ### The whole machine -/

/-- The whole state of the package. -/
structure State where
  clk : Clock
  env : Env
  issue : Option Issue
  mem : List Host.Cell
  flight : Flight
  groups : Tab Group
  blocks : Tab Block
  cores : Tab Core
  parts : Tab Part
  mats : Tab MatOp
  belfry : Belfry
  copies : Copies
  faults : Faults
  net : Net
  spire : Spire
  trace : Trace
  deriving DecidableEq, Repr

/-- The state right after power-on: the Spire holds every other unit in reset (R344), memory lists nothing, and every
register has its reset value or the one a log entry names (entry 4).
DESIGN CHOICE, log entry 4. -/
def State.reset : State where
  clk := ⟨0, 0, 0, 0⟩
  env := ⟨[], 0, false, 0, 0, 1⟩
  issue := none
  mem := []
  flight := ⟨[], [], [], [], [], [], [], [], []⟩
  groups := []
  blocks := []
  cores := []
  parts := []
  mats := []
  belfry := ⟨[], [], [], [], [], [], [], 0, 100⟩
  copies := ⟨[], []⟩
  faults := ⟨[]⟩
  net := ⟨[], [], 0, 0, none, [], none, [], [], [], [], [], [], [], [], false⟩
  spire :=
    { boot := ⟨0, false, false, none, [0, 1, 2, 3, 4, 5, 6], [], 0, [], false⟩
      mail := ⟨0, 0, [], []⟩
      sync := ⟨0, 0, 0, none⟩
      banks := [], scanAt := 10000000, worldS := [], dram := [], clusters := [], margin := []
      rails := [], lanes := [], fused := [], field := [], refresh := [] }
  trace := ⟨false, false, false, 0, 0, 0, 0, 0, 0, 0⟩

end Sys2Proof.Machine
end

