-- ==== Sys2Proof/Machine/Data.lean ====
section
/-! DEFINITION. Tables with strictly rising keys, byte memory in canonical form, and the physical map (R146). -/
namespace Sys2Proof.Machine

/-! ### Tables -/

/-- The entry of a key. -/
def tget {α : Type} : Tab α → Nat → Option α
  | [], _ => none
  | (k, v) :: r, n => if n = k then some v else tget r n

/-- The entry of a key, or the default. -/
def tgetD {α : Type} [Inhabited α] (t : Tab α) (n : Nat) : α := (tget t n).getD default

/-- A table with one entry set; the keys stay in rising order. -/
def tput {α : Type} : Tab α → Nat → α → Tab α
  | [], n, v => [(n, v)]
  | (k, x) :: r, n, v =>
    if n < k then (n, v) :: (k, x) :: r
    else if n = k then (n, v) :: r
    else (k, x) :: tput r n v

/-- A table without one key. -/
def tdel {α : Type} (t : Tab α) (n : Nat) : Tab α := t.filter (fun e => e.1 ≠ n)

/-- A table with one entry changed where it is there. -/
def tmod {α : Type} (t : Tab α) (n : Nat) (f : α → α) : Tab α :=
  t.map (fun e => if e.1 = n then (e.1, f e.2) else e)

/-- A table with one entry changed, starting from the default where it is not there. -/
def tupd {α : Type} [Inhabited α] (t : Tab α) (n : Nat) (f : α → α) : Tab α := tput t n (f (tgetD t n))

/-- The lowest number, not below `n`, that is not a key of a table in rising order. -/
def tfreeFrom {α : Type} : Tab α → Nat → Nat
  | [], n => n
  | (k, _) :: r, n => if k < n then tfreeFrom r n else if k = n then tfreeFrom r (n + 1) else n

/-- A number above every key. -/
def tfresh {α : Type} : Tab α → Nat
  | [] => 0
  | (k, _) :: r => max (k + 1) (tfresh r)

/-- A number that is not a key: of a table in rising order the lowest one. -/
def tfree {α : Type} (t : Tab α) : Nat :=
  if (tget t (tfreeFrom t 0)).isNone then tfreeFrom t 0 else tfresh t

/-- Whether the keys rise strictly. -/
def Tab.wf {α : Type} (t : Tab α) : Bool := decide ((t.map Prod.fst).Pairwise (· < ·))

/-! ### Byte memory -/

/-- The canonical form: addresses strictly rising and no entry equal to what an unlisted address reads as. -/
def memWf (m : List Host.Cell) : Bool :=
  decide ((m.map Prod.fst).Pairwise (· < ·)) && m.all (fun c => c.2 ≠ Config.blankByte)

/-- The byte at an address.
DESIGN CHOICE, log entry 3. -/
def memGet : List Host.Cell → Nat → Byte
  | [], _ => Config.blankByte
  | (x, b) :: r, a => if x = a then b else memGet r a

/-- Memory with one byte written, in canonical form. -/
def memPut : List Host.Cell → Nat → Byte → List Host.Cell
  | [], a, v => if v = Config.blankByte then [] else [(a, v)]
  | (x, b) :: r, a, v =>
    if a < x then (if v = Config.blankByte then (x, b) :: r else (a, v) :: (x, b) :: r)
    else if a = x then (if v = Config.blankByte then r else (a, v) :: r)
    else (x, b) :: memPut r a v

/-- The `n` bytes from an address upward. -/
def memRead (m : List Host.Cell) (a n : Nat) : List Byte := (List.range n).map (fun i => memGet m (a + i))

/-- Memory with a run of bytes written. -/
def memWrite : List Host.Cell → Nat → List Byte → List Host.Cell
  | m, _, [] => m
  | m, a, b :: r => memWrite (memPut m a b) (a + 1) r

/-- A little-endian number from bytes (R10, R265 and every layout). -/
def leNat : List Byte → Nat
  | [] => 0
  | b :: r => b.toNat + 256 * leNat r

/-- The `n` little-endian bytes of a number. -/
def leBytes : Nat → Nat → List Byte
  | 0, _ => []
  | n + 1, x => BitVec.ofNat 8 x :: leBytes n (x / 256)

/-- A little-endian field of a block of bytes. -/
def leAt (b : List Byte) (o n : Nat) : Nat := leNat ((b.drop o).take n)

/-! ### The physical map (R146) -/

/-- Where a physical address lies. -/
inductive Window where
  | dram (die off : Nat)
  | weight (die off : Nat)
  | scratch (cluster off : Nat)
  | sys (off : Nat)
  | hole
  deriving DecidableEq, Repr

/-- First address of the weight-store windows. -/
def weightBase : Nat := 0x4000000000
/-- First address of the scratchpad windows. -/
def scratchBase : Nat := 0x5000000000
/-- First address of the system register space. -/
def sysBase : Nat := 0x6000000000

/-- The window of an address; unpopulated parts and addresses outside the ranges are holes (R146, R147). -/
def window (a : Nat) : Window :=
  if a < weightBase then
    if a % 0x1000000000 < 0xC00000000 then .dram (a / 0x1000000000) (a % 0x1000000000) else .hole
  else if a < weightBase + 4 * 0x40000000 then
    let o := a - weightBase
    if o % 0x40000000 < 0x30000000 then .weight (o / 0x40000000) (o % 0x40000000) else .hole
  else if scratchBase ≤ a ∧ a < scratchBase + 16 * 0x400000 then
    let o := a - scratchBase
    if o % 0x400000 < 0x200000 then .scratch (o / 0x400000) (o % 0x400000) else .hole
  else if sysBase ≤ a ∧ a < sysBase + 0x100000000 then .sys (a - sysBase)
  else .hole

/-- Whether an address lies in the weight-store windows. -/
def inWeight (pa : Nat) : Bool := decide (weightBase ≤ pa) && decide (pa < weightBase + 4 * 0x40000000)

/-- Whether every byte of a run lies in one populated window that is memory. -/
def memRun (a n : Nat) : Bool :=
  match window a, window (a + (n - 1)) with
  | .dram d _, .dram d' _ => d = d'
  | .weight d _, .weight d' _ => d = d'
  | .scratch c _, .scratch c' _ => c = c'
  | _, _ => false

/-- The die that holds an address; addresses that no die holds count as die 0. -/
def dieOf (a : Nat) : Nat :=
  match window a with
  | .dram d _ => d
  | .weight d _ => d
  | .scratch c _ => c / 4
  | _ => 0

/-- The physical address of a core's scratchpad offset (R146, R153). -/
def scratchAddr (core off : Nat) : Nat := scratchBase + (core / 4) * 0x400000 + (core % 4) * 0x80000 + off

/-- First address of the area of a die's DRAM that the Spire reserves (DESIGN CHOICE, log entry 15). -/
def keepBase (die : Nat) : Nat := die * 0x1000000000 + Config.keepOffset

/-- The DRAM controller of an address: which of a die's sixteen serves it is not in the spec (DESIGN CHOICE, log
entry 15). -/
def dramController (a : Nat) : Nat := (a / 0x1000000000) * 16 + (a / 0x10000) % 16

/-! ### Lanes and masks -/

/-- Every lane. -/
def allLanes : Mask := BitVec.allOnes 128

/-- The lanes of a mask, in rising order. -/
def lanesOf (m : Mask) : List Nat := (List.range 128).filter (fun i => m.getLsbD i)

/-- The mask of one lane. -/
def laneBit (l : Nat) : Mask := 1#128 <<< l

/-- The mask of a list of lanes. -/
def maskOf (ls : List Nat) : Mask := ls.foldl (fun m l => m ||| laneBit l) 0

/-- The lane values of a function. -/
def lanesFn (f : Nat → Word) : Lanes := (List.range 128).map f

/-- The value of a lane. -/
def laneVal (v : Lanes) (l : Nat) : Word := v.getD l 0

/-- Lane values with the lanes of a mask replaced. -/
def mergeLanes (m : Mask) (new old : Lanes) : Lanes :=
  lanesFn (fun l => if m.getLsbD l then laneVal new l else laneVal old l)

/-- The number of lanes in a mask. -/
def laneCount (m : Mask) : Nat := (lanesOf m).length

/-- The low and the high word of a 64-bit value. -/
def loWord (x : Wide) : Word := x.extractLsb' 0 32
/-- The high word of a 64-bit value. -/
def hiWord (x : Wide) : Word := x.extractLsb' 32 32
/-- A 64-bit value from its high and low words (R103). -/
def wideOf (hi lo : Word) : Wide := hi ++ lo

end Sys2Proof.Machine
end

