-- ==== Sys2Proof/Machine/Flags.lean ====
section
/-! DEFINITION. Exceptions and conditions: the GFLAGS bits (R125), the exceptions that trap (R126), integer saturation
(R123, R130) and the integer conditions (R129, R133). -/
namespace Sys2Proof.Machine

/-- Invalid (R125). -/
def fNV : BitVec 6 := 1
/-- Divide by zero. -/
def fDZ : BitVec 6 := 2
/-- Overflow. -/
def fOF : BitVec 6 := 4
/-- Underflow. -/
def fUF : BitVec 6 := 8
/-- Inexact. -/
def fNX : BitVec 6 := 16
/-- A .sat integer result was clamped. -/
def fSAT : BitVec 6 := 32

/-- The enabled exceptions among those raised, which are the subcode of ARITH (R126). SAT never traps (R123). -/
def trapSub (trapen : BitVec 5) (f : BitVec 6) : Nat := (f.extractLsb' 0 5 &&& trapen).toNat

/-- The word of an exact result, wrapped (R123, R130). -/
def wrap32 (x : Int) : Word := BitVec.ofInt 32 x

/-- A clamp, and SAT when it changes the value (R123). -/
def clampTo (lo hi x : Int) : Int × BitVec 6 :=
  if x < lo then (lo, fSAT) else if x > hi then (hi, fSAT) else (x, 0)

/-- The range of .i32. -/
def clampI32 (x : Int) : Int × BitVec 6 := clampTo (-2147483648) 2147483647 x
/-- The range of .n32. -/
def clampN32 (x : Int) : Int × BitVec 6 := clampTo 0 4294967295 x

/-- The integer conditions of ICMP (R129). -/
def icmpHolds (cc : Nat) (a b : Word) : Bool :=
  match cc with
  | 0 => a = b
  | 1 => a ≠ b
  | 2 => a.slt b
  | 3 => a.sle b
  | 4 => b.slt a
  | 5 => b.sle a
  | 6 => a.ult b
  | 7 => a.ule b
  | 8 => b.ult a
  | _ => b.ule a

/-- The conditions of ISET (R133) and of TWAKEQ (R250). -/
def isetHolds (c : Nat) (a b : Word) : Bool :=
  match c with
  | 0 => a = b
  | 1 => a ≠ b
  | 2 => a.slt b
  | 3 => a.sle b
  | 4 => b.slt a
  | 5 => b.sle a
  | 6 => a.ult b
  | _ => b.ule a

end Sys2Proof.Machine
end

