-- ==== Sys2Proof/Machine/Formats.lean ====
section
/-! DEFINITION. Number formats, rounding and conversion by exact values (R107 to R117, R124). Format codes are those of
R138. -/
namespace Sys2Proof.Machine

/-- An exact value: `(-1) ^ neg * n * 2 ^ e`, an infinity, or a NaN. -/
inductive FV where
  | nan (signalling : Bool)
  | inf (neg : Bool)
  | fin (neg : Bool) (n : Nat) (e : Int)
  deriving DecidableEq, Repr, Inhabited

/-- A zero of a sign. -/
def FV.zero (neg : Bool) : FV := .fin neg 0 0

/-! ### The formats (R107 to R110) -/

/-- Exponent bits, mantissa bits and bias of a binary float format (R107). -/
def binFmt (f : Nat) : Option (Nat × Nat × Int) :=
  match f with
  | 0 => some (8, 23, 127)
  | 1 => some (8, 7, 127)
  | 2 => some (5, 10, 15)
  | 3 => some (4, 3, 7)
  | 4 => some (5, 2, 15)
  | 5 => some (2, 1, 1)
  | _ => none

/-- Width and signedness of an integer format (R110). -/
def intFmt (f : Nat) : Option (Nat × Bool) :=
  match f with
  | 8 => some (32, true)
  | 9 => some (32, false)
  | 10 => some (16, true)
  | 11 => some (16, false)
  | 12 => some (8, true)
  | 13 => some (8, false)
  | _ => none

/-- Width of an element of a format (R111). -/
def elemWidth (f : Nat) : Nat :=
  match f with
  | 0 | 8 | 9 => 32
  | 1 | 2 | 10 | 11 => 16
  | 5 => 4
  | 6 => 6
  | _ => 8

/-- Code of the largest finite magnitude. -/
def maxCode (f : Nat) : Nat :=
  match f with
  | 0 => 0x7F7FFFFF
  | 1 => 0x7F7F
  | 2 => 0x7BFF
  | 3 => 0x7E
  | 4 => 0x7B
  | 5 => 7
  | 6 => 31
  | _ => 0xFE

/-- Code of the canonical NaN (R107, R109). -/
def nanCode (f : Nat) : Nat :=
  match f with
  | 0 => 0x7FC00000
  | 1 => 0x7FC0
  | 2 => 0x7E00
  | 3 => 0x7F
  | 4 => 0x7E
  | _ => 0xFF

/-- T of R108. -/
def lgT (i : Nat) : Nat :=
  match i with
  | 0 => 0x8000
  | 1 => 0x9838
  | 2 => 0xB505
  | _ => 0xD745

/-- The magnitude `2 ^ floor(q/4) * T[q mod 4] / 2 ^ 15` (R108, R121). -/
def lgMag (q : Int) : Nat × Int := (lgT (q % 4).toNat, q / 4 - 15)

/-- Whether FTZ concerns a format (R114). -/
def ftzFmt (f : Nat) : Bool := f = 0 || f = 1

/-- The value of a code; under FTZ a subnormal f32 or bf16 reads as zero of its sign (R114). -/
def decodeFmt (f : Nat) (ftz : Bool) (x : Nat) : FV :=
  match binFmt f with
  | some (eb, mb, bias) =>
    let m := x % 2 ^ mb
    let e := x / 2 ^ mb % 2 ^ eb
    let neg := x / 2 ^ (mb + eb) % 2 = 1
    if f = 3 ∧ e = 15 ∧ m = 7 then .nan false
    else if f ≠ 3 ∧ f ≠ 5 ∧ e = 2 ^ eb - 1 then
      if m = 0 then .inf neg
      else .nan (decide (f ≤ 2) && decide (m < 2 ^ (mb - 1)))
    else if e = 0 then
      if ftz && ftzFmt f then .zero neg else .fin neg m (1 - bias - mb)
    else .fin neg (2 ^ mb + m) (e - bias - mb)
  | none =>
    match intFmt f with
    | some (w, true) =>
      let v := sextN w x
      .fin (decide (v < 0)) v.natAbs 0
    | some (w, false) => .fin false (x % 2 ^ w) 0
    | none =>
      if f = 6 then
        let neg := x / 32 % 2 = 1
        if x % 32 = 0 then .zero neg
        else
          let (n, e) := lgMag ((x % 32 : Nat) - 16)
          .fin neg n e
      else if x % 256 = 255 then .nan false
      else .fin false 1 ((x % 256 : Nat) - 127)

/-! ### Rounding (R112, R115) -/

/-- Five bits in reverse order. -/
def bitrev5 (j : Nat) : Nat :=
  (List.range 5).foldl (fun a i => a + (j / 2 ^ i % 2) * 2 ^ (4 - i)) 0

/-- Whether the upper neighbour is chosen, where the magnitude lies `r / den` of the way from the lower to the upper.
Modes: 0 RNE, 1 toward zero, 2 up, 3 down, 4 dithered with D. -/
def takeHi (rnd : Nat) (neg : Bool) (r den : Nat) (loEven : Bool) (dith : Nat) : Bool :=
  match rnd with
  | 0 => decide (2 * r > den) || (decide (2 * r = den) && !loEven)
  | 1 => false
  | 2 => !neg
  | 3 => neg
  | _ => decide (32 * r / den + dith ≥ 32)

/-- A magnitude in units of `2 ^ q`: the whole units and the rest over its denominator. -/
def splitAt (n : Nat) (e q : Int) : Nat × Nat × Nat :=
  if e ≥ q then (n * 2 ^ (e - q).toNat, 0, 1)
  else
    let d := 2 ^ (q - e).toNat
    (n / d, n % d, d)

/-- The sign bit of a code. -/
def signCode (f : Nat) (neg : Bool) : Nat := if neg then 2 ^ (elemWidth f - 1) else 0

/-- Whether a format has an infinity. -/
def hasInf (f : Nat) : Bool := f = 0 || f = 1 || f = 2 || f = 4

/-- A result that rounds beyond the largest magnitude (R113). -/
def beyond (f rnd : Nat) (sat neg : Bool) : Nat × BitVec 6 :=
  let toInf := hasInf f && !sat && (rnd = 0 || (rnd = 2 && !neg) || (rnd = 3 && neg))
  (signCode f neg + maxCode f + (if toInf then 1 else 0), fOF ||| fNX)

/-- A nonzero magnitude into a binary float format (R112 to R114).
DEDUCED, log entry 28. -/
def encodeBin (f mb : Nat) (bias : Int) (rnd : Nat) (sat ftz neg : Bool) (dith n : Nat) (e : Int) :
    Nat × BitVec 6 :=
  let sgn := signCode f neg
  let emin : Int := 1 - bias
  let top : Int := (maxCode f / 2 ^ mb : Nat) - bias
  let p := max (min ((n.log2 : Nat) + e) top) emin
  let (m, r, den) := splitAt n e (p - mb)
  let c := (p - emin).toNat * 2 ^ mb + m
  if c > maxCode f ∨ (c = maxCode f ∧ r ≠ 0) then
    let past := c - maxCode f
    if takeHi rnd neg (past * den + r) den (maxCode f % 2 = 0) dith then beyond f rnd sat neg
    else (sgn + maxCode f, fNX)
  else
    let c := if r ≠ 0 ∧ takeHi rnd neg r den (m % 2 = 0) dith then c + 1 else c
    let nx : BitVec 6 := if r ≠ 0 then fNX else 0
    if c = 0 then (sgn, fUF ||| fNX)
    else if c < 2 ^ mb then
      if ftz && ftzFmt f then (sgn, fUF ||| fNX) else (sgn + c, if r ≠ 0 then fUF ||| fNX else 0)
    else (sgn + c, nx)

/-- A nonzero magnitude into an integer format: rounded, then tested against the range (R113).
DEDUCED, log entry 20. -/
def encodeInt (w : Nat) (signed : Bool) (rnd : Nat) (neg : Bool) (dith n : Nat) (e : Int) : Nat × BitVec 6 :=
  let (m, r, den) := splitAt n e 0
  let m := if r ≠ 0 ∧ takeHi rnd neg r den (m % 2 = 0) dith then m + 1 else m
  let v : Int := if neg then -(m : Int) else m
  let lo : Int := if signed then -(2 ^ (w - 1)) else 0
  let hi : Int := if signed then 2 ^ (w - 1) - 1 else 2 ^ w - 1
  if v < lo then ((lo % 2 ^ w).toNat, fNV)
  else if v > hi then (hi.toNat, fNV)
  else ((v % 2 ^ w).toNat, if r ≠ 0 then fNX else 0)

/-- A nonzero magnitude into .e8: adjacent powers of two; the sign is dropped (R112, R113). -/
def encodeE8 (rnd dith n : Nat) (e : Int) : Nat × BitVec 6 :=
  let k : Int := (n.log2 : Nat) + e
  let (m, r, den) := splitAt n e (min k 127)
  if k ≥ 128 then
    if takeHi rnd false ((m - 1) * den + r) den true dith then (0xFE, fOF ||| fNX) else (0xFE, fNX)
  else
    let k' := if r ≠ 0 ∧ takeHi rnd false r den ((k + 127) % 2 = 0) dith then k + 1 else k
    if k' ≥ 128 then (0xFE, fOF ||| fNX)
    else if k' < -127 then (0, fUF ||| fNX)
    else ((k' + 127).toNat, if r ≠ 0 then fNX else 0)

/-- The largest L whose decoded magnitude does not exceed `n * 2 ^ e`, from `L` downward; 0 where none does. -/
def lgBelow (n : Nat) (e : Int) : Nat → Nat
  | 0 => 0
  | l + 1 =>
    let (m, q) := lgMag ((l + 1 : Nat) - 16)
    let base := min e q
    if m * 2 ^ (q - base).toNat ≤ n * 2 ^ (e - base).toNat then l + 1 else lgBelow n e l

/-- A nonzero magnitude into .lg6 (R108, R112, R113). -/
def encodeLg (rnd : Nat) (neg : Bool) (dith n : Nat) (e : Int) : Nat × BitVec 6 :=
  let l := lgBelow n e 31
  let (lm, le) : Nat × Int := if l = 0 then (0, e) else lgMag ((l : Int) - 16)
  let (hm, he) := lgMag ((l : Int) + 1 - 16)
  let base := min e (min le he)
  let x := n * 2 ^ (e - base).toNat
  let lo := lm * 2 ^ (le - base).toNat
  let hi := hm * 2 ^ (he - base).toNat
  let s := signCode 6 neg
  if x = lo then (s + l, 0)
  else
    let l' := if takeHi rnd neg (x - lo) (hi - lo) (l % 2 = 0) dith then l + 1 else l
    if l' = 32 then beyond 6 rnd false neg
    else if l' = 0 then (s, fUF ||| fNX)
    else (s + l', fNX)

/-- A value into a format: the code and the exceptions (R112 to R115). -/
def encodeFmt (f rnd : Nat) (sat ftz : Bool) (dith : Nat) (v : FV) : Nat × BitVec 6 :=
  match v with
  | .nan sig =>
    if (intFmt f).isSome ∨ f = 5 ∨ f = 6 then (0, fNV) else (nanCode f, if sig then fNV else 0)
  | .inf neg =>
    match intFmt f with
    | some (w, signed) =>
      let lo : Int := if signed then -(2 ^ (w - 1)) else 0
      let hi : Int := if signed then 2 ^ (w - 1) - 1 else 2 ^ w - 1
      (((if neg then lo else hi) % 2 ^ w).toNat, fNV)
    | none =>
      if f = 7 then (0xFE, fOF)
      else if hasInf f then (signCode f neg + maxCode f + (if sat then 0 else 1), 0)
      else (signCode f neg + maxCode f, fOF)
  | .fin neg n e =>
    match intFmt f with
    | some (w, signed) => if n = 0 then (0, 0) else encodeInt w signed rnd neg dith n e
    | none =>
      if f = 7 then if n = 0 then (0, fUF ||| fNX) else encodeE8 rnd dith n e
      else if n = 0 then (signCode f neg, 0)
      else if f = 6 then encodeLg rnd neg dith n e
      else
        match binFmt f with
        | some (_, mb, bias) => encodeBin f mb bias rnd sat ftz neg dith n e
        | none => (0, 0)

/-- A conversion of one element (R112 to R115). -/
def convert (sf df rnd : Nat) (sat ftz : Bool) (dith x : Nat) : Nat × BitVec 6 :=
  encodeFmt df rnd sat ftz dith (decodeFmt sf ftz x)

/-- D of R115 for a position and a phase. -/
def ditherOf (p phase : Nat) : Nat := bitrev5 ((p + phase) % 32)

/-! ### Exact arithmetic -/

/-- The value with its sign turned. -/
def FV.neg : FV → FV
  | .nan s => .nan s
  | .inf n => .inf (!n)
  | .fin n m e => .fin (!n) m e

/-- Whether a value is a NaN. -/
def FV.isNan : FV → Bool
  | .nan _ => true
  | _ => false
/-- Whether a value is a signalling NaN. -/
def FV.isSnan : FV → Bool
  | .nan s => s
  | _ => false
/-- The sign of a value. -/
def FV.sign : FV → Bool
  | .nan _ => false
  | .inf n => n
  | .fin n _ _ => n

/-- Invalid for a signalling operand (R107). -/
def snanFlag (a b : FV) : BitVec 6 := if a.isSnan || b.isSnan then fNV else 0

/-- An exact sum; an exact zero sum of opposite signs is +0 (R135). -/
def addFV (a b : FV) : FV × BitVec 6 :=
  if a.isNan || b.isNan then (.nan false, snanFlag a b)
  else
    match a, b with
    | .inf x, .inf y => if x = y then (.inf x, 0) else (.nan false, fNV)
    | .inf x, _ => (.inf x, 0)
    | _, .inf y => (.inf y, 0)
    | .fin sa ma ea, .fin sb mb eb =>
      if ma = 0 ∧ mb = 0 then (.zero (sa && sb), 0)
      else if ma = 0 then (b, 0)
      else if mb = 0 then (a, 0)
      else
        let e := min ea eb
        let x : Int := (ma * 2 ^ (ea - e).toNat : Nat)
        let y : Int := (mb * 2 ^ (eb - e).toNat : Nat)
        let t := (if sa then -x else x) + (if sb then -y else y)
        (.fin (decide (t < 0)) t.natAbs e, 0)
    | _, _ => (.nan false, 0)

/-- An exact product; ∞ × 0 is invalid (R135). -/
def mulFV (a b : FV) : FV × BitVec 6 :=
  if a.isNan || b.isNan then (.nan false, snanFlag a b)
  else
    let s := a.sign ^^ b.sign
    match a, b with
    | .fin _ ma ea, .fin _ mb eb => (.fin s (ma * mb) (ea + eb), 0)
    | .fin _ 0 _, _ => (.nan false, fNV)
    | _, .fin _ 0 _ => (.nan false, fNV)
    | _, _ => (.inf s, 0)

/-- Whether a value that is no NaN lies below another; zeros of both signs are equal. -/
def ltFV (a b : FV) : Bool :=
  match a, b with
  | .inf x, .inf y => x && !y
  | .inf x, _ => x
  | _, .inf y => !y
  | .fin sa ma ea, .fin sb mb eb =>
    let e := min ea eb
    let x : Int := (ma * 2 ^ (ea - e).toNat : Nat)
    let y : Int := (mb * 2 ^ (eb - e).toNat : Nat)
    decide ((if sa then -x else x) < (if sb then -y else y))
  | _, _ => false

/-- Round to nearest even into a format, with FTZ for f32 and bf16. -/
def rne (f : Nat) (ftz : Bool) (v : FV × BitVec 6) : Nat × BitVec 6 :=
  let r := encodeFmt f 0 false ftz 0 v.1
  (r.1, r.2 ||| v.2)

end Sys2Proof.Machine
end

