-- ==== Sys2Proof/Machine/Ops.lean ====
section
/-! DEFINITION. The named operations over the state: groups and their threads, the rename table and the pool (R90 to
R99), scalars and predicates, scoreboard slots, taking a fault (R268) and the lanes' way on. -/
namespace Sys2Proof.Machine

/-! ### Access -/

/-- A group. -/
def State.group (s : State) (g : Nat) : Group := tgetD s.groups g
/-- The state with one group changed. -/
def State.modGroup (s : State) (g : Nat) (f : Group → Group) : State := { s with groups := tmod s.groups g f }
/-- A block. -/
def State.block (s : State) (b : Nat) : Block := tgetD s.blocks b
/-- The state with one block changed. -/
def State.modBlock (s : State) (b : Nat) (f : Block → Block) : State := { s with blocks := tmod s.blocks b f }
/-- A core. -/
def State.core (s : State) (c : Nat) : Core := tgetD s.cores c
/-- The state with one core changed. -/
def State.modCore (s : State) (c : Nat) (f : Core → Core) : State := { s with cores := tupd s.cores c f }
/-- A partition. -/
def State.part (s : State) (p : Nat) : Part := tgetD s.parts p
/-- The state with one partition changed. -/
def State.modPart (s : State) (p : Nat) (f : Part → Part) : State := { s with parts := tupd s.parts p f }
/-- An admitted launch. -/
def State.launch (s : State) (l : Nat) : Launch := tgetD s.belfry.launches l
/-- The state with one launch changed. -/
def State.modLaunch (s : State) (l : Nat) (f : Launch → Launch) : State :=
  { s with belfry := { s.belfry with launches := tmod s.belfry.launches l f } }
/-- The core of a partition. -/
def coreOfPart (p : Nat) : Nat := p / 4
/-- The die of a core. -/
def dieOfCore (c : Nat) : Nat := c / 16
/-- The core that a group runs on. -/
def State.coreOf (s : State) (g : Nat) : Nat := coreOfPart (s.group g).id.part
/-- The effective region that a group's work runs in (R13). -/
def State.regionOf (s : State) (g : Nat) : Region := (s.launch (s.group g).id.launch).region
/-- The block of a group. -/
def State.blockOf (s : State) (g : Nat) : Block := s.block (s.group g).id.block
/-- The state with a fresh identity number taken. -/
def State.freshId (s : State) : Nat × State :=
  (s.env.nextId, { s with env := { s.env with nextId := s.env.nextId + 1 } })
/-- The state with a fresh place in the issue sequence taken (R88). -/
def State.freshSeq (s : State) : Nat × State := (s.env.seq, { s with env := { s.env with seq := s.env.seq + 1 } })
/-- The state with a fresh count for the free values taken (DESIGN CHOICE, log entry 6). -/
def State.freshFree (s : State) : Nat × State :=
  (s.env.freeCtr, { s with env := { s.env with freeCtr := s.env.freeCtr + 1 } })
/-- Folds a state over a list. -/
def foldS {α : Type} (l : List α) (s : State) (f : State → α → State) : State := l.foldl f s

/-- Whether a partition holds a group of a block whose halt is under way: it issues nothing, and its engine starts nothing
(R56, R57). -/
def State.partHalted (s : State) (p : Nat) : Bool :=
  s.blocks.any (fun e => (match e.2.run with
    | .halting _ => true
    | _ => false) && s.groups.any (fun g => decide (g.2.id.block = e.1) && decide (g.2.id.part = p) && decide (g.2.run.place ≠ .gone)))

/-! ### Group registers -/

/-- The state with a group's registers changed. -/
def State.modRegs (s : State) (g : Nat) (f : GroupRegs → GroupRegs) : State :=
  s.modGroup g (fun G => { G with regs := f G.regs })
/-- Sets bits of GWARN (R79): STALE 0, MODCOMBO 1, STALEARRIVE 2, WAKEEMPTY 3. -/
def State.warn (s : State) (g : Nat) (i : Nat) : State :=
  s.modRegs g (fun r => { r with gwarn := r.gwarn ||| (1#4 <<< i) })
/-- ORs exceptions into GFLAGS (R125). -/
def State.orFlags (s : State) (g : Nat) (f : BitVec 6) : State :=
  s.modRegs g (fun r => { r with gflags := r.gflags ||| f })
/-- RCHK in force for a group (R303). -/
def State.rchk (s : State) (g : Nat) : Bool := (s.group g).regs.chk.getLsbD 0
/-- SBCHK in force for a group (R303). -/
def State.sbchk (s : State) (g : Nat) : Bool := (s.group g).regs.chk.getLsbD 1
/-- STALECHK in force for a group (R303). -/
def State.stalechk (s : State) (g : Nat) : Bool := (s.group g).regs.chk.getLsbD 2

/-! ### Threads -/

/-- A thread of a group by home lane. -/
def Group.thread (G : Group) (l : Nat) : Thread := G.threads.getD l default
/-- A group with the threads of a mask changed. -/
def Group.modThreads (G : Group) (m : Mask) (f : Nat → Thread → Thread) : Group :=
  { G with threads := (List.range 128).map (fun l => if m.getLsbD l then f l (G.thread l) else G.thread l) }
/-- The lanes of a group in a state. -/
def Group.lanesIn (G : Group) (st : LaneState) : Mask :=
  maskOf ((List.range 128).filter (fun l => decide ((G.thread l).st = st)))
/-- The lanes that are not vacant (R81). -/
def Group.occupied (G : Group) : Mask := ~~~ (G.lanesIn .vacant)

/-- A predicate of a thread; p7 reads true (R104). -/
def Thread.pred (t : Thread) (p : Nat) : Bool := if p % 8 = 7 then true else t.preds.getLsbD (p % 8)
/-- A thread with a predicate written; a write to p7 is ignored (R104). -/
def Thread.setPred (t : Thread) (p : Nat) (v : Bool) : Thread :=
  if p % 8 = 7 then t
  else { t with preds := if v then t.preds ||| (1#7 <<< (p % 8)) else t.preds &&& ~~~(1#7 <<< (p % 8)) }

/-- The issuing cycle of the current instruction's threads' next instruction (R66, R312). -/
def State.nextReady (s : State) (i : Issue) (extra : Nat) : Nat := s.clk.ac + 1 + i.stall + extra

/-- Every replay that a thread has to make, the first one first. -/
def Thread.replays (t : Thread) : List Replay := t.replay.toList ++ t.stash
/-- A thread with all its replays changed. -/
def Thread.mapReplays (f : Replay → Replay) (t : Thread) : Thread := { t with replay := t.replay.map f, stash := t.stash.map f }

/-- A thread goes on at a PC, not before a cycle. One that has made a replay goes back to where it had run on to, where it may
be parked with the next one (R268). -/
def Thread.goOn (t : Thread) (pc : Wide) (ready : Nat) : Thread :=
  match t.replay with
  | some r =>
    match r.after with
    | some (pc', wb', stk) => { t with
        pc := pc', wb := wb', stack := stk, ready, since := none, replay := t.stash.head?, stash := t.stash.tail, noMatch := false
        st := if t.stash.head?.any (fun x => !x.go) then .parked else t.st }
    | none => { t with pc, ready, since := none, replay := none, noMatch := false }
  | none => { t with pc, ready, since := none, noMatch := false }

/-- Threads of a mask go on at a PC, not before a cycle (R61, R66). -/
def State.advance (s : State) (g : Nat) (m : Mask) (pc : Wide) (ready : Nat) : State :=
  s.modGroup g (fun G => G.modThreads m (fun _ t => t.goOn pc ready))

/-- Sets the state of the lanes of a mask (R81). -/
def State.setLanes (s : State) (g : Nat) (m : Mask) (st : LaneState) : State :=
  s.modGroup g (fun G => G.modThreads m (fun _ t => { t with st }))

/-! ### Scalars -/

/-- Whether a group runs a match-point handler (R301). -/
def State.inHandler (s : State) (g : Nat) : Bool := (s.group g).handler.isSome
/-- Whether a scalar field names a shadow scalar hs0 to hs7 (R301). -/
def State.shadowScalar (s : State) (g i : Nat) : Bool := s.inHandler g && decide (i % 128 < 8)
/-- A scalar register; it is 0 where nothing has been written (R6, R103). In a match-point handler the fields 0 to 7
name the partition's shadow scalars (R301). -/
def State.scalar (s : State) (g i : Nat) : Word :=
  if s.shadowScalar g i then (tget (s.part (s.group g).id.part).shadowS (i % 128)).getD 0
  else (tget (s.group g).scal (i % 128)).getD 0
/-- The state with a scalar of the group itself written; the write clears its poison (R308). -/
def State.setOwn (s : State) (g i : Nat) (v : Word) : State :=
  s.modGroup g (fun G => { G with
    scal := if v = 0 then tdel G.scal (i % 128) else tput G.scal (i % 128) v
    scalPoison := G.scalPoison.filter (· ≠ i % 128) })
/-- The state with a scalar written, or the partition's shadow scalar in a match-point handler. -/
def State.setScalar (s : State) (g i : Nat) (v : Word) : State :=
  if s.shadowScalar g i then
    s.modPart (s.group g).id.part (fun p => { p with shadowS := tput p.shadowS (i % 128) v })
  else s.setOwn g i v
/-- The write of a scalar that has landed is that of some threads' instruction. -/
def State.noteScalar (s : State) (g i : Nat) (lanes : Mask) (seq : Nat) : State :=
  s.modGroup g (fun G => { G with scalSeq := tput G.scalSeq (i % 128) (seq, lanes) })
/-- Whether a split of other threads that issued later has written a scalar already: the register holds the later-issued
write (R88, R103). Writes of one thread land in write-back order (R67). -/
def State.scalarTaken (s : State) (g i : Nat) (lanes : Mask) (seq : Nat) : Bool :=
  match tget (s.group g).scalSeq (i % 128) with
  | some (q, m) => decide (seq < q) && decide (m &&& lanes = 0)
  | none => false
/-- A result that some threads' instruction has had in flight reaches a scalar of the group itself. -/
def State.landOwn (s : State) (g i : Nat) (v : Word) (lanes : Mask) (seq : Nat) : State :=
  if s.scalarTaken g i lanes seq then s else (s.setOwn g i v).noteScalar g i lanes seq
/-- A result that some threads' instruction has had in flight reaches a scalar, or the partition's shadow scalar in a
match-point handler. -/
def State.landScal (s : State) (g i : Nat) (v : Word) (lanes : Mask) (seq : Nat) : State :=
  if s.shadowScalar g i then s.setScalar g i v else s.landOwn g i v lanes seq
/-- The even register of a pair field (R71, R78). -/
def evenOf (f : Nat) : Nat := f / 2 * 2
/-- A scalar pair (R103). -/
def State.pair (s : State) (g f : Nat) : Wide := wideOf (s.scalar g (evenOf f + 1)) (s.scalar g (evenOf f))
/-- The state with a pair written. -/
def State.setPair (s : State) (g f : Nat) (v : Wide) : State :=
  (s.setScalar g (evenOf f) (loWord v)).setScalar g (evenOf f + 1) (hiWord v)
/-- Whether any of a group's scalars is poisoned (R308). -/
def State.scalarsPoisoned (s : State) (g : Nat) (l : List Nat) : Bool :=
  l.any (fun i => (s.group g).scalPoison.contains (i % 128))

/-! ### Names (R71, R89) -/

/-- The absolute name of a vector field at a window base (R71, R89). -/
def nameOf (wb : BitVec 9) (f : Nat) : Nat := if f % 128 < 112 then wb.toNat + f % 128 else 496 + (f % 128 - 112)

/-- The first number that names the shadow registers h0 to h15 in place of absolute names (R301). -/
def shadowName : Nat := 512

/-- The name of a field of a group's thread: in a match-point handler the fields 0 to 15 are shadow registers (R301). -/
def State.fieldName (s : State) (g : Nat) (wb : BitVec 9) (f : Nat) : Nat :=
  if s.inHandler g && decide (f % 128 < 16) then shadowName + f % 128 else nameOf wb f

/-- The i-th field of a register group that starts at field `f` (R71). -/
def groupField (f i : Nat) : Nat := if f % 128 < 112 then (f % 128 + i) % 112 else 112 + ((f % 128 - 112) + i) % 16

/-! ### Reading names (R90, R95) -/

/-- The lanes behind a mapping. -/
def Core.mapVals (c : Core) : Mapping → Lanes
  | .phys p => (tgetD c.pool p).vals
  | .unif u => List.replicate 128 (tgetD c.unif u).val
  | .spilled _ v _ _ => v

/-- The poisoned lanes behind a mapping. -/
def Core.mapPoison (c : Core) : Mapping → Mask
  | .phys p => (tgetD c.pool p).poison
  | .unif u => (tgetD c.unif u).poison
  | .spilled _ _ p _ => p

/-- A lane of an entry of the rename table; a lane that is not live reads 0 (R95). -/
def Core.readEntry (c : Core) (e : Option MapEntry) (l : Nat) : LaneRead :=
  match e with
  | none => ⟨0, false, false⟩
  | some e =>
    if e.mask.getLsbD l then ⟨laneVal (c.mapVals e.map) l, true, (c.mapPoison e.map).getLsbD l⟩
    else ⟨0, false, false⟩

/-- Whether a name of a group belongs to a set operation that holds a sign of the group and is not complete (R212). -/
def State.inMatrix (s : State) (g name : Nat) : Bool :=
  s.mats.any (fun e => e.2.members.any (fun m => m.gid = g && m.touch.contains name))

/-- A lane of a group's name (R127). A name of an incomplete set operation reads as an unspecified value (R212, log
entry 6).
DEDUCED, log entry 7. -/
def State.readName (s : State) (g name l : Nat) : LaneRead :=
  if shadowName ≤ name then
    ⟨laneVal ((tget (s.part (s.group g).id.part).shadowV (name - shadowName)).getD []) l, true, false⟩
  else
    let r := (s.core (s.coreOf g)).readEntry (tget (s.group g).map name) l
    if s.inMatrix g name then { r with val := Config.freeWord s.env.freeCtr (65536 + name * 128 + l) } else r

/-- A lane of a vector source of the instruction being issued: a lane that replays reads what it met when it parked, unless
PKRTY has discarded that (R91, R290). -/
def State.readSrc (s : State) (g name l : Nat) : LaneRead :=
  match ((s.group g).thread l).replay with
  | some r => if r.go && !r.fresh then (tget r.srcs name).getD (s.readName g name l) else s.readName g name l
  | none => s.readName g name l

/-! ### The pool (R96 to R99) -/

/-- The physical registers that a group holds (R96). -/
def Core.held (c : Core) (g : Nat) : Nat := (c.pool.filter (fun e => e.2.owner = g)).length
/-- Whether any register of a group that is not mapped any more awaits its pending reads, or an engine (R96, R241). -/
def Core.awaiting (c : Core) (g : Nat) : Bool :=
  c.pool.any (fun e => e.2.owner = g && !e.2.mapped && decide (e.2.reads + e.2.engine > 0))
/-- Whether two mappings are the same register or slot. -/
def Mapping.same : Mapping → Mapping → Bool
  | .phys p, .phys q => decide (p = q)
  | .unif u, .unif v => decide (u = v)
  | .spilled k _ _ _, .spilled l _ _ _ => decide (k = l)
  | _, _ => false

/-- Every mapping that a group refers to: in its table, its snapshot, the operands that set operations and replays keep.
The table's come first. -/
def State.mappingsOf (s : State) (g : Nat) : List Mapping :=
  let G := s.group g
  G.map.map (fun e => e.2.map) ++ ((G.contain.map (fun c => c.map.map (fun e => e.2.map))).getD []) ++
    s.mats.flatMap (fun e => e.2.members.flatMap (fun m => if m.gid = g then m.holds ++ m.claims else [])) ++
    G.threads.flatMap (fun t => t.replays.flatMap Replay.holds)

/-- The spilled registers and slots that a group refers to, each once. -/
def State.spilledKeys (s : State) (g : Nat) : List Mapping :=
  (s.mappingsOf g).foldl (fun acc x => match x with
    | .spilled _ _ _ _ => if acc.any (Mapping.same x) then acc else acc ++ [x]
    | _ => acc) []

/-- The physical registers of a spilled group that its allotment counts (R96). -/
def State.spilledHeld (s : State) (g : Nat) : Nat :=
  ((s.spilledKeys g).filter (fun x => match x with
    | .spilled _ _ _ uni => !uni
    | _ => false)).length

/-- The registers that a group's allotment counts, in the pool or in its spill area (R96). -/
def State.regsHeld (s : State) (g : Nat) : Nat :=
  if (s.group g).run.spilled then (s.core (s.coreOf g)).held g + s.spilledHeld g else (s.core (s.coreOf g)).held g

/-- Whether an operand of a set operation's member in a group has a mapping and has not been read yet (R210, R211). -/
def State.engineHolds (s : State) (g : Nat) (x : Mapping) : Bool :=
  s.mats.any (fun e => e.2.members.any (fun m => decide (m.gid = g) && (m.holds ++ m.claims).any (Mapping.same x)))

/-- Whether a register of a spilled group awaits its pending reads: nothing maps it any more and no snapshot keeps it (R96). -/
def State.spilledAwaiting (s : State) (g : Nat) : Bool :=
  let G := s.group g
  G.run.spilled && (s.spilledKeys g).any (fun x => !G.map.any (fun e => x.same e.2.map) &&
    !(G.contain.map (fun c => c.map.any (fun e => x.same e.2.map))).getD false)

/-- Whether any register of a group awaits release: it is not mapped any more, or the last use of a set operation, or the
leaving of its threads, waits for the engine's read (R8, R96, R210). -/
def State.awaiting (s : State) (core g : Nat) : Bool :=
  (s.core core).awaiting g || s.spilledAwaiting g || s.mats.any (fun e => e.2.members.any (fun m => decide (m.gid = g) &&
    m.marks.any (fun n => match tget (s.group g).map n.1 with
      | some x => m.holds.any (Mapping.same x.map) && decide (x.mask &&& ~~~n.2 = 0)
      | none => false))) ||
  (s.group g).leaving.any (fun n => match tget (s.group g).map n.1 with
    | some x => decide (x.mask &&& ~~~n.2 = 0)
    | none => false)

/-- The registers that a place reserves for a group, or lets it take before any from free (R97). -/
def Place.floor : Place → Nat
  | .keep => 64
  | .stowed | .gone => 0
  | _ => 16

/-- The groups resident or stowed on a core. -/
def State.groupsOn (s : State) (core : Nat) : List (Nat × Group) :=
  s.groups.filter (fun e => coreOfPart e.2.id.part = core)

/-- The shared free count of a core (R97). -/
def State.poolFree (s : State) (core : Nat) : Int :=
  let c := s.core core
  let need (e : Nat × Group) : Nat :=
    match e.2.run.place with
    | .stowed | .gone => c.held e.1
    | .keep => c.held e.1 - 64
    | _ => max (c.held e.1) 16
  (4096 - 64 : Int) - ((s.groupsOn core).map need).sum

/-- Whether a group may take `n` more registers at once (R97): from its floor, from the Keep's, or from free. -/
def State.canTake (s : State) (g n : Nat) : Bool :=
  let core := s.coreOf g
  let h := (s.core core).held g
  let floor := (s.group g).run.place.floor
  decide (((h + n : Nat) : Int) - max (h : Int) floor ≤ s.poolFree core) || decide (h + n ≤ floor)

/-- A register of a group is released: one of a group that has exited moves to FREE (R238), and while the group owes,
the release pays (R239). -/
def State.payRelease (s : State) (g : Nat) : State :=
  let G := s.group g
  match tget (s.block G.id.block).ghosts g with
  | some n => s.modBlock G.id.block (fun b => { b with
      free := b.free + 1
      ghosts := if n ≤ 1 then tdel b.ghosts g else tput b.ghosts g (n - 1) })
  | none =>
    if G.regs.owe > 0 then
      (s.modRegs g (fun r => { r with owe := r.owe - 1 })).modBlock G.id.block (fun b => { b with free := b.free + 1 })
    else s

/-- A physical register that is no longer mapped goes back to the pool once it has no pending read, no engine is to use it
and it is not pinned. -/
def State.dropPhys (s : State) (core p : Nat) : State :=
  match tget (s.core core).pool p with
  | none => s
  | some r =>
    if r.reads = 0 ∧ r.engine = 0 ∧ ¬ r.pinned then
      (s.modCore core (fun c => { c with pool := tdel c.pool p })).payRelease r.owner
    else s.modCore core (fun c => { c with pool := tput c.pool p { r with mapped := false } })

/-- Whether an open containment snapshot holds a mapping (R281). -/
def State.inSnapshot (s : State) (g : Nat) (m : Mapping) : Bool :=
  match (s.group g).contain with
  | some c => c.map.any (fun e => decide (e.2.map = m))
  | none => false

/-- A mapping that a name no longer has is given back (R92, R93); what an open snapshot holds stays (R281). -/
def State.dropMapping (s : State) (core : Nat) : Mapping → State
  | .phys p => s.dropPhys core p
  | .unif u =>
    if s.inSnapshot (tgetD (s.core core).unif u).owner (.unif u) ∨ (tgetD (s.core core).unif u).reads > 0 then s
    else s.modCore core (fun c => { c with unif := tdel c.unif u })
  | .spilled _ _ _ _ => s

/-- A pending read of a physical register begins (R91). -/
def State.addRead (s : State) (core p : Nat) : State :=
  s.modCore core (fun c => { c with pool := tmod c.pool p (fun r => { r with reads := r.reads + 1 }) })

/-- A pending read of a physical register ends; a register that awaited it is released (R91, R92). -/
def State.endRead (s : State) (core p : Nat) : State :=
  let s := s.modCore core (fun c => { c with pool := tmod c.pool p (fun r => { r with reads := r.reads - 1 }) })
  match tget (s.core core).pool p with
  | some r => if r.mapped then s else s.dropPhys core p
  | none => s

/-- A mapping's pending read begins. -/
def State.holdMapping (s : State) (core : Nat) : Mapping → State
  | .phys p => s.addRead core p
  | .unif u => s.modCore core (fun c => { c with unif := tmod c.unif u (fun x => { x with reads := x.reads + 1 }) })
  | .spilled _ _ _ _ => s

/-- Whether a mapping is a spilled register with a key. -/
def Mapping.hasKey (k : Nat) : Mapping → Bool
  | .spilled x _ _ _ => decide (x = k)
  | _ => false

/-- Whether an open containment snapshot of a spilled group pins a register (R281). -/
def State.keyPinned (s : State) (g k : Nat) : Bool :=
  ((s.group g).contain.map (fun c => c.map.any (fun e => e.2.map.hasKey k))).getD false

/-- Whether a register of a spilled group has a pending read (R91). -/
def State.keyHeld (s : State) (g k : Nat) : Bool :=
  s.mats.any (fun e => e.2.members.any (fun m => decide (m.gid = g) && (m.holds ++ m.claims).any (Mapping.hasKey k))) ||
    (s.group g).threads.any (fun t => t.replays.any (fun r => r.holds.any (Mapping.hasKey k)))

/-- A mapping's pending read ends; a register of a spilled group that nothing keeps any more is released. -/
def State.freeMapping (s : State) (core g : Nat) : Mapping → State
  | .phys p => s.endRead core p
  | .spilled k _ _ _ =>
    if s.keyPinned g k || s.keyHeld g k || (s.group g).map.any (fun e => e.2.map.hasKey k) then s else s.payRelease g
  | .unif u =>
    let s := s.modCore core (fun c => { c with unif := tmod c.unif u (fun x => { x with reads := x.reads - 1 }) })
    if (s.group g).map.any (fun e => decide (e.2.map = .unif u)) then s else s.dropMapping core (.unif u)

/-- A set operation is to use a register in place (R211). -/
def State.claimMapping (s : State) (core : Nat) : Mapping → State
  | .phys p => s.modCore core (fun c => { c with pool := tmod c.pool p (fun r => { r with engine := r.engine + 1 }) })
  | _ => s

/-- A set operation is done with a register that it used in place. -/
def State.unclaimMapping (s : State) (core : Nat) : Mapping → State
  | .phys p =>
    let s := s.modCore core (fun c => { c with pool := tmod c.pool p (fun r => { r with engine := r.engine - 1 }) })
    match tget (s.core core).pool p with
    | some r => if r.mapped then s else s.dropPhys core p
    | none => s
  | _ => s

/-- A free physical register is taken for a group: the one reserved at issue, else the lowest free one (DESIGN CHOICE, log entry 5). -/
def State.takePhys (s : State) (core g : Nat) (resv : Option Nat) (vals : Lanes) (poison : Mask) : Nat × State :=
  let p := resv.getD (tfree (s.core core).pool)
  (p, s.modCore core (fun c => { c with pool := tput c.pool p ⟨g, vals, poison, 0, 0, true, false⟩ }))

/-- A register reserved at issue and not needed goes back. -/
def State.unreserve (s : State) (core : Nat) (resv : Option Nat) : State :=
  match resv with
  | some p => s.dropPhys core p
  | none => s

/-- The entry of a name is set. -/
def State.setEntry (s : State) (g name : Nat) (e : Option MapEntry) : State :=
  s.modGroup g (fun G => { G with map := match e with
    | some x => tput G.map name x
    | none => tdel G.map name })

/-- Whether a value is bitwise equal in every lane. -/
def uniformVal (v : Lanes) : Bool := (List.range 128).all (fun l => laneVal v l = laneVal v 0)

/-- Whether a write is held in uniform form (R93): all 128 lanes, one value, a fixed-latency vector instruction, a free
slot. -/
def State.takesUniform (s : State) (core : Nat) (w : Mask) (v : Lanes) (fixedLat : Bool) : Bool :=
  fixedLat && decide (w = allLanes) && uniformVal v && decide ((s.core core).unif.length < 8192)

/-- A key for a register that a spilled group gets while it is spilled. -/
def State.freshKey (s : State) : Nat × State :=
  let (id, s) := s.freshId
  (100000 + id, s)

/-- A vector write of the lanes `w` of a name at write-back: first write, redefinition or partial update (R91), uniform
form (R93, R94), and never into a register that an open containment snapshot pins (R281). -/
def State.landName (s : State) (g name : Nat) (w : Mask) (v : Lanes) (fixedLat : Bool) (resv : Option Nat) : State :=
  if w = 0 then s.unreserve (s.coreOf g) resv
  else if shadowName ≤ name then
    s.modPart (s.group g).id.part (fun p => { p with
      shadowV := tupd p.shadowV (name - shadowName) (fun old => mergeLanes w v old) })
  else if (s.group g).run.spilled then
    let s := s.unreserve (s.coreOf g) resv
    match tget (s.group g).map name with
    | some ⟨.spilled k old p _, m⟩ =>
      let (k, s) := if s.keyPinned g k ∨ m &&& ~~~w = 0 ∧ s.keyHeld g k then s.freshKey else (k, s)
      s.setEntry g name (some ⟨.spilled k (mergeLanes w v old) (p &&& ~~~w) false, m ||| w⟩)
    | _ =>
      let (k, s) := s.freshKey
      s.setEntry g name (some ⟨.spilled k (mergeLanes w v []) 0 false, w⟩)
  else
    let core := s.coreOf g
    let c := s.core core
    let uni := s.takesUniform core w v fixedLat
    let newUnif (s : State) : State :=
      let u := tfree (s.core core).unif
      ((s.modCore core (fun c => { c with unif := tput c.unif u ⟨g, laneVal v 0, 0, 0⟩ })).setEntry g name
        (some ⟨.unif u, w⟩)).unreserve core resv
    let newPhys (s : State) (vals : Lanes) (poison m : Mask) : State :=
      let (p, s) := s.takePhys core g resv vals poison
      s.setEntry g name (some ⟨.phys p, m⟩)
    let inPlace (s : State) (p : Nat) (m : Mask) : State :=
      ((s.modCore core (fun c => { c with pool := tmod c.pool p (fun r =>
        { r with vals := mergeLanes w v r.vals, poison := r.poison &&& ~~~w }) })).setEntry g name
          (some ⟨.phys p, m⟩)).unreserve core resv
    match tget (s.group g).map name with
    | none => if uni then newUnif s else newPhys s (mergeLanes w v []) 0 w
    | some e =>
      if e.mask &&& ~~~w = 0 then
        if uni then newUnif (s.dropMapping core e.map)
        else
          match e.map with
          | .phys p =>
            let r := tgetD c.pool p
            if r.reads = 0 ∧ ¬ r.pinned then inPlace s p w
            else newPhys (s.dropMapping core e.map) (mergeLanes w v []) 0 w
          | _ => newPhys (s.dropMapping core e.map) (mergeLanes w v []) 0 w
      else
        match e.map with
        | .phys p =>
          let r := tgetD c.pool p
          if r.pinned then
            newPhys (s.dropMapping core e.map) (mergeLanes w v r.vals) (r.poison &&& ~~~w) (e.mask ||| w)
          else inPlace s p (e.mask ||| w)
        | .unif u =>
          let x := tgetD c.unif u
          newPhys (s.dropMapping core e.map) (mergeLanes w v (List.replicate 128 x.val)) (x.poison &&& ~~~w)
            (e.mask ||| w)
        | .spilled k old p _ => (s.setEntry g name
          (some ⟨.spilled k (mergeLanes w v old) (p &&& ~~~w) false, e.mask ||| w⟩)).unreserve core resv

/-- Whether a write of the lanes `w` of a name needs one more physical register now (R91, R94, R96, R281). -/
def State.needsPhys (s : State) (g name : Nat) (w : Mask) (uni : Bool) : Bool :=
  if w = 0 ∨ uni ∨ shadowName ≤ name then false
  else
    match tget (s.group g).map name with
    | none => true
    | some e =>
      match e.map with
      | .phys p =>
        let r := tgetD (s.core (s.coreOf g)).pool p
        r.pinned || (decide (r.reads > 0) && decide (e.mask &&& ~~~w = 0))
      | .unif _ => true
      | .spilled _ _ _ _ => false

/-- A physical register is set aside at issue for a write that will need one (R94, R98). -/
def State.reserve (s : State) (g : Nat) : Option Nat × State :=
  let core := s.coreOf g
  let p := tfree (s.core core).pool
  (some p, s.modCore core (fun c => { c with pool := tput c.pool p ⟨g, [], 0, 0, 0, false, false⟩ }))

/-- Lanes are released from a name's mask; an empty mask gives the mapping back (R92). The release of an operand that an
engine is still to read waits for the read (R210, R212). -/
def State.releaseName (s : State) (g name : Nat) (w : Mask) : State :=
  match tget (s.group g).map name with
  | none => s
  | some e =>
    if s.engineHolds g e.map then s.modGroup g (fun G => { G with leaving := tupd G.leaving name (w ||| ·) })
    else
    let m := e.mask &&& ~~~w
    if m = 0 then (s.setEntry g name none).dropMapping (s.coreOf g) e.map
    else s.setEntry g name (some { e with mask := m })

/-- Lanes leave every mask of their home group (R81). -/
def State.releaseAll (s : State) (g : Nat) (w : Mask) : State :=
  foldS ((s.group g).map.map Prod.fst) s (fun s n => s.releaseName g n w)

/-! ### Scoreboard slots (R68) -/

/-- A slot of a group is marked by an instruction; its destinations are recorded against it. A set operation that finds
its own operation's mark shares it (R199). -/
def State.markSlot (s : State) (g k : Nat) (x : SbSlot) : State :=
  if k = 0 then s
  else s.modGroup g (fun G => { G with sb := match tget G.sb k with
    | some y => tput G.sb k { y with count := y.count + 1 }
    | none => tput G.sb k x })

/-- A slot of a group is cleared. -/
def State.clearSlot (s : State) (g k : Nat) : State :=
  if k = 0 then s else s.modGroup g (fun G => { G with sb := tdel G.sb k })

/-- The slot that an instruction of the variable-latency class uses: slot 7 where SBSET is 0 (R78). -/
def varSlot (i : Issue) : Nat := if i.sbset = 0 then 7 else i.sbset

/-! ### Match-point handlers (R301) -/

/-- Whether a result that a group still has in flight goes to a predicate or to one of the scalars that a match-point handler
has under another name: a handler neither starts nor returns before it has landed (R301, DEDUCED, log entry 51). -/
def State.shadowBusy (s : State) (g : Nat) : Bool :=
  s.flight.pends.any (fun e => decide (e.2.gid = g) && (match e.2.dest with
    | .scal i => decide (i % 128 < 8)
    | .pred k => decide (k ≠ 7)
    | .vec _ => false)) ||
  s.flight.ops.any (fun e => decide (e.2.gid = g) && e.2.sdest.any (fun d => decide (d % 128 < 8)))

/-- What an abandoned handler has computed stands in its shadow scalars; a load or a wait of its has nothing more to write
(R301, log entry 51). -/
def State.settleHandler (s : State) (g : Nat) (lanes : Mask) : State :=
  let mine (p : Pend) : Bool := decide (p.gid = g) && (match p.dest with
    | .scal i => decide (i % 128 < 8)
    | .pred _ => true
    | .vec _ => false)
  let s := foldS (s.flight.pends.filter (fun e => mine e.2)) s (fun s e => match e.2.dest with
    | .scal i => s.setScalar g i (laneVal e.2.vals 0)
    | .vec _ | .pred _ => s)
  let ended (w : Wait) : Bool := decide (w.gid = g) && decide (w.lanes &&& lanes ≠ 0)
  let slots := (s.flight.waits.filter (fun e => ended e.2)).map (fun e => e.2.slot)
  let s := { s with flight := { s.flight with
    pends := s.flight.pends.map (fun (e : Nat × Pend) => if mine e.2 then (e.1, { e.2 with lanes := 0 }) else e)
    ops := s.flight.ops.map (fun (e : Nat × MemOp) =>
      if e.2.gid = g ∧ e.2.sdest.any (fun d => decide (d % 128 < 8)) then (e.1, { e.2 with sdest := none }) else e)
    waits := s.flight.waits.filter (fun (e : Nat × Wait) => !ended e.2) } }
  foldS slots s (fun s k => s.clearSlot g k)

/-- A match-point handler is abandoned: the threads take their own predicates and windows back and stand at MATCHPC, where
the instruction executes without matching again. -/
def State.endHandler (s : State) (g : Nat) : State :=
  match (s.group g).handler with
  | none => s
  | some h =>
    (s.settleHandler g h.lanes).modGroup g (fun G => { (G.modThreads h.lanes (fun l t =>
      match h.saved.getD l (h.ret, h.wb, [], 0) with
      | (_, wb, stk, ps) => { t with st := if t.st = .waiting then .live else t.st, pc := h.ret, wb := wb, stack := stk
                                     preds := ps, noMatch := true, ready := s.clk.ac + 1 })) with handler := none })

/-- A handler is abandoned for a fault or a write of a non-shadow name: EN is cleared, and bit 63 of the descriptor in
memory. -/
def State.abandonHandler (s : State) (g : Nat) : State :=
  match (s.group g).handler with
  | none => s
  | some h =>
    let core := s.coreOf g
    match tget (s.core core).points h.point with
    | none => s.endHandler g
    | some p =>
      let s := s.modCore core (fun c => { c with points := tdel c.points h.point })
      let s := { s with mem := memPut s.mem (p.desc + 7) (memGet s.mem (p.desc + 7) &&& 0x7F#8) }
      s.endHandler g

/-! ### Faults: parking (R264 to R276) -/

/-- The kinds of R264. -/
def kPage : Nat := 1
/-- R264. -/
def kProt : Nat := 2
/-- R264. -/
def kPoison : Nat := 3
/-- R264. -/
def kArith : Nat := 4
/-- R264. -/
def kLinkto : Nat := 5
/-- R264. -/
def kIllegal : Nat := 6
/-- R264. -/
def kStallchk : Nat := 7
/-- R264. -/
def kStaleread : Nat := 8
/-- R264. -/
def kSdcmis : Nat := 9
/-- R264. -/
def kRegdead : Nat := 10
/-- R264. -/
def kBinovf : Nat := 11
/-- R264. -/
def kCksum : Nat := 12
/-- R264. -/
def kBarstore : Nat := 13
/-- R264. -/
def kTrap : Nat := 14
/-- R264. -/
def kSuspect : Nat := 15

/-- A kind and a subcode (R264). -/
abbrev Cause := Nat × Nat

/-- The nesting depth and the fault domain of a fault raised by work of a launch (R276). -/
def Launch.faultHome (l : Launch) : Nat × Domain :=
  match l.fault with
  | some f => (f.depth + 1, f.origin.dom)
  | none => (1, l.region.dom)

/-- A fault of work is taken: a record is formed, to be written and delivered by the fault path (R268, R275). The work
that it names parks where the fault was met. -/
def State.formRecord (s : State) (cause : Cause) (origin : Origin) (launch : Nat) (group : Nat) (pc addr : Wide)
    (opval : List Wide) : Nat × State :=
  let (id, s) := s.freshId
  let (q, s) := s.freshSeq
  let l := s.launch launch
  let (depth, dom) := l.faultHome
  let block := (match origin with
    | .lanes g _ | .spill g => (s.group g).id.bindex
    | .tile o => (s.block (match tget s.mats o with | some m => m.block | none => 0)).id.index
    | .claims b _ | .formation b _ => (s.block b).id.index
    | .transfer c e _ => (s.group (tgetD (s.core c).xfer e).gid).id.bindex
    | _ => 0)
  let r : FRec :=
    { kind := cause.1, sub := cause.2, depth, origin, region := l.region, dom, launch := some launch
      bundle := l.bundle.addr, block, group, pc, addr, opval, time := s.clk.ns
      parent := (match l.fault with | some f => f.handle | none => 0)
      handle := none, keep := false, state := 0, action := 0, patched := false, binned := none
      appended := false, task := none, torn := false, deferred := false, seq := q, iseq := q, unissued := false, service := none, moved := [], went := [] }
  (id, ({ s with faults := { s.faults with recs := tput s.faults.recs id r } }).modLaunch launch
    (fun l => { l with recs := l.recs + 1 }))

/-- The registers behind a list of names of a group. -/
def Group.mappings (G : Group) (names : List Nat) : List Mapping :=
  names.eraseDups.filterMap (fun n => (tget G.map n).map MapEntry.map)

/-- The pending reads of the replays of some lanes end (R91). -/
def State.endHolds (s : State) (g : Nat) (m : Mask) : State :=
  let held := (lanesOf m).flatMap (fun l => ((s.group g).thread l).replays.flatMap Replay.holds)
  if held.isEmpty then s
  else
    let s := s.modGroup g (fun G => G.modThreads m (fun _ t => t.mapReplays (fun r => { r with holds := [] })))
    foldS held s (fun s x => s.freeMapping (s.coreOf g) g x)

/-- Whether a lane replays an instruction that has issued: one whose fetch faulted has not (R117). -/
def Thread.reissues (t : Thread) : Bool := t.replay.any Replay.issued

/-- A thread parks at an instruction with a replay to make. One that was to make a replay of a later instruction already keeps that
one for afterwards (R268, DEDUCED, log entry 55); `again` says that it parks anew at the instruction that it replays. -/
def Thread.park (t : Thread) (x : At) (again : Bool) (new : Replay) : Thread :=
  let t' := { t with st := .parked, since := none, pc := x.pc, wb := x.wb }
  match t.replay with
  | some r =>
    if again then { t' with replay := some (if r.issued then
        { r with addr := new.addr, data := new.data, known := new.known, fresh := false, go := false, record := new.record }
      else { new with after := r.after }) }
    else { t' with replay := some { new with after := some (t.pc, t.wb, t.stack) }, stash := r :: t.stash }
  | none => { t' with replay := some { new with
      after := if (t.pc = x.pc ∨ t.pc = x.next) ∧ t.wb = x.wb then none else some (t.pc, t.wb, t.stack) } }

/-- Lanes of one group park at an instruction (R81, R268): they keep its PC and WB, their predicates and mask bits, and
each keeps the address, data and dither phase of its replay and what its vector sources held. Where the instruction has not come
to its address and data, `replay` gives none, and the replay forms them from those sources. A fault of an instruction from before a
match-point handler ends the handler of its threads, and leaves EN as it is (DEDUCED, log entry 51). -/
def State.parkLanes (s : State) (g : Nat) (m : Mask) (cause : Cause) (x : At) (addr : Wide) (opval : List Wide)
    (replay : Nat → Option (Wide × List Word)) : State :=
  if m = 0 then s
  else if (s.group g).handler.any (fun h => decide (h.seq ≤ x.seq)) then s.abandonHandler g
  else
    let s := if (s.group g).handler.any (fun h => decide (h.lanes &&& m ≠ 0)) then s.endHandler g else s
    let G := s.group g
    let (id, s) := s.formRecord cause (.lanes g m) G.id.launch G.id.index x.pc addr opval
    let s := { s with faults := { s.faults with recs := tmod s.faults.recs id (fun r => { r with iseq := x.seq, unissued := !x.issued }) } }
    let again := s.issue.isSome
    let first := (lanesOf m).headD 0
    let holds := if again && (G.thread first).reissues then [] else G.mappings x.names
    let srcs (l : Nat) : Tab LaneRead := x.names.eraseDups.map (fun n => (n, s.readName g n l))
    let s := foldS holds s (fun s y => s.holdMapping (s.coreOf g) y)
    s.modGroup g (fun G => G.modThreads m (fun l t => t.park x again
      { addr := ((replay l).map Prod.fst).getD 0, data := ((replay l).map Prod.snd).getD [], known := (replay l).isSome
        phase := x.phase, srcs := srcs l, holds := if l = first then holds else [], fresh := false, go := false
        after := none, record := id, issued := x.issued }))

/-- A member of the split being issued, as its lanes park. -/
def State.atIssue (s : State) (i : Issue) (g : Nat) (names : List Nat) : At :=
  ⟨i.pc, i.next, i.wb, (s.group g).regs.phase, i.seq, names, true⟩

/-- A split's threads park at the issuing instruction's PC with no replay data (decode-time and execution faults). -/
def State.parkSplit (s : State) (i : Issue) (g : Nat) (m : Mask) (cause : Cause) (addr : Wide) (opval : List Wide) :
    State :=
  s.parkLanes g m cause (s.atIssue i g []) addr opval (fun _ => some (addr, []))

/-! ### Ends -/

/-- A waiting instruction completes: its threads are live again and its slot clears. -/
def State.endWait (s : State) (id : Nat) : State :=
  match tget s.flight.waits id with
  | none => s
  | some w =>
    let s := { s with flight := { s.flight with waits := tdel s.flight.waits id } }
    let back := w.lanes &&& (s.group w.gid).lanesIn .waiting
    (s.modGroup w.gid (fun G => G.modThreads back (fun _ t =>
      { t with st := .live, since := none, ready := max t.ready (s.clk.ac + 1) }))).clearSlot w.gid w.slot

/-- Registers set aside for an operation and not used go back. -/
def State.dropResv (s : State) (g : Nat) (l : List (Option Nat)) : State :=
  foldS l s (fun s r => s.unreserve (s.coreOf g) r)

/-! ### The issuing instruction -/

/-- The context of the instruction being issued; an empty one where there is none. -/
def State.iss (s : State) : Issue := s.issue.getD default
/-- The leader of the split (R82). -/
def Issue.leader (i : Issue) : Member := i.members.headD default
/-- The instruction words as OPVAL +24 holds them (R269). -/
def Issue.opWords (i : Issue) : Wide := wideOf i.ext i.word

/-- The issuing split writes a scalar at once. -/
def State.issueScalar (s : State) (g i : Nat) (v : Word) : State :=
  if s.shadowScalar g i then s.setScalar g i v
  else (s.setScalar g i v).noteScalar g i s.iss.leader.act s.iss.seq
/-- The issuing split writes a scalar pair at once. -/
def State.issuePair (s : State) (g f : Nat) (v : Wide) : State :=
  (s.issueScalar g (evenOf f) (loWord v)).issueScalar g (evenOf f + 1) (hiWord v)

/-- Threads of every member go on at the next instruction (R61, R69). -/
def State.advanceAll (s : State) (i : Issue) (extra : Nat) : State :=
  foldS i.members s (fun s m => s.advance m.gid m.lanes i.next (s.nextReady i extra))

/-- An unslotted instruction's threads go on; with SBSET its slot clears at issue + 1, so it is never seen pending by
a later instruction (R66). -/
def State.finish (s : State) (i : Issue) : State := s.advanceAll i 0

end Sys2Proof.Machine
end

