-- ==== Sys2Proof/Machine/Bank.lean ====
section
/-! DEFINITION. The error banks (R313 to R315) and trace records (R341 to R343). -/
namespace Sys2Proof.Machine

/-- Whether an index names a bank (R313). -/
def bankExists (i : Nat) : Bool :=
  if i < 4096 then
    let k := i % 1024
    decide (k ≤ 34) || (decide (48 ≤ k) && decide (k ≤ 79))
  else decide (i ≤ 4113)

/-- The bank of a core. -/
def coreBank (core : Nat) : Nat := 1024 * (core / 16) + core % 16
/-- The bank of a core's scratchpad. -/
def scratchBank (core : Nat) : Nat := 1024 * (core / 16) + 16 + core % 16
/-- The bank of a DRAM controller. -/
def dramBank (ctl : Nat) : Nat := 1024 * (ctl / 16) + 48 + ctl % 16
/-- The bank of a port. -/
def portBank (p : Nat) : Nat := 4096 + p

/-- TYPE ARRAY and the others (R314). -/
def tyArray : Nat := 1
/-- R314. -/
def tySdc : Nat := 2
/-- R314. -/
def tyLink : Nat := 3
/-- R314. -/
def tyPoisonIn : Nat := 4
/-- R314. -/
def tyQuarantine : Nat := 5
/-- R314. -/
def tyQfull : Nat := 6
/-- R314. -/
def tyTest : Nat := 7

/-- What an event brings to a bank (R314). -/
structure BankRec where
  addr : Wide
  info : Word
  origin : Word
  deriving DecidableEq, Repr

/-- A bank with a record taken (R315): SEEN is cleared. -/
def Bank.take (b : Bank) (r : BankRec) (state : Nat) (time : Wide) : Bank :=
  { b with state, seen := false, addr := r.addr, info := r.info, origin := r.origin, time }

/-- A corrected error arrives (R315). -/
def Bank.ce (b : Bank) (r : BankRec) (time : Wide) : Bank :=
  let b := { b with cecount := min (b.cecount + 1) 0xFFFF }
  if b.state = 0 ∨ (b.state = 1 ∧ b.seen) then b.take r 1 time else b

/-- An uncorrectable error arrives (R315). -/
def Bank.ue (b : Bank) (r : BankRec) (time : Wide) : Bank :=
  if b.state = 2 ∧ ¬ b.seen then { b with ovf := true, ueovf := min (b.ueovf + 1) 255 }
  else b.take r 2 time

/-- The campanile as a 64-bit value. -/
def State.time (s : State) : Wide := BitVec.ofNat 64 s.clk.ns

/-- Logs an error in a bank (R308, R313). The syndrome is a free value (log entry 6). -/
def State.logBank (s : State) (i : Nat) (ue : Bool) (r : BankRec) : State :=
  let b := tgetD s.spire.banks i
  let synd := Config.freeWord s.env.freeCtr 0 <<< 16
  let r := { r with info := r.info ||| synd }
  { s with
    env := { s.env with freeCtr := s.env.freeCtr + 1 }
    spire := { s.spire with banks := tput s.spire.banks i (if ue then b.ue r s.time else b.ce r s.time) } }

/-- TYPE and detail of an INFO word (R314). -/
def bankInfo (ty : Nat) (detail : Nat) : Word := BitVec.ofNat 32 (ty + 256 * detail)

/-- The state with the Spire changed. -/
def State.modSpire (s : State) (f : Spire → Spire) : State := { s with spire := f s.spire }

/-- Whether a controller refuses an address: its page is in the quarantine list, or the controller is fenced (R170,
R310). -/
def State.quarantined (s : State) (pa : Nat) : Bool :=
  match window pa with
  | .dram _ _ =>
    match tget s.spire.dram (dramController pa) with
    | some d => d.fenced || d.pages.contains (pa / 65536)
    | none => false
  | _ => false

/-- An Ixmen record is written to the ring where its type is enabled (R341 to R343); a record whose write fails sets ERR
and clears EN, and one that finds the ring full under STOPFULL, or no ring at all, is dropped and counted. A write fails outside R146, in the weight store,
which only copies write (R154, R230), and in a quarantined page (R170). -/
def State.trace1 (s : State) (ty src region : Nat) (data : List Byte) : State :=
  let t := s.trace
  if ¬ t.en ∨ ¬ t.types.getLsbD (ty - 1) then s
  else if t.size = 0 ∨ (t.stopFull ∧ t.wptr ≥ t.size) then
    { s with trace := { t with lost := min (t.lost + 1) (2 ^ 64 - 1) } }
  else
    let a := t.base + t.wptr % t.size
    if ¬ memRun a 32 ∨ inWeight a ∨ s.quarantined a then { s with trace := { t with en := false, err := true } }
    else
      let rec32 := leBytes 8 s.clk.ns ++ [BitVec.ofNat 8 ty, 0] ++ leBytes 2 src ++ leBytes 4 region ++
        ((data ++ List.replicate 16 0).take 16)
      { s with
        mem := memWrite s.mem a rec32
        flight := { s.flight with poison := s.flight.poison.filter (fun g => decide (g ≠ a / 32)) }
        trace := { t with wptr := t.wptr + 32 } }

/-- The partition that a WHERE names (R285, R341). -/
def partOfWhere (w : Nat) : Nat := w % 4 + 4 * (w / 4 % 16) + 64 * (w / 64 % 4)

/-- SRC of a record of a partition (R342). -/
def srcOfPart (p : Nat) : Nat := (p / 64) + 4 * (p / 4 % 16) + 64 * (p % 4)
/-- SRC of a record of the Belfry (R342). -/
def srcHub : Nat := 256

end Sys2Proof.Machine
end

