-- ==== Sys2Proof/Decode.lean ====
section
/-! DEFINITION. From bundle words to instructions and back (05_bundle_encoding R61 to R77): the formats, the opcode map,
the decode-time checks of every entry, and the encoder written from the same tables. -/
namespace Sys2Proof

/-! ### Formats (R70) -/

/-- The opcode of a word. -/
def opOf (w : Word) : BitVec 7 := w.extractLsb' 25 7
/-- The TR fields of a word. -/
def trOf (w : Word) : TR :=
  ⟨w.getLsbD 24, w.getLsbD 23, w.extractLsb' 21 2, w.extractLsb' 14 7, w.extractLsb' 7 7, w.extractLsb' 0 7⟩
/-- The RI fields of a word. -/
def riOf (w : Word) : RI := ⟨w.getLsbD 24, w.extractLsb' 17 7, w.extractLsb' 10 7, w.extractLsb' 0 10⟩
/-- The LU fields of a word. -/
def luOf (w : Word) : LU := ⟨w.extractLsb' 18 7, w.extractLsb' 0 18⟩
/-- The BR field of a word. -/
def brOf (w : Word) : BR := ⟨w.extractLsb' 0 25⟩
/-- The ME fields of a word. -/
def meOf (w : Word) : ME :=
  ⟨w.getLsbD 24, w.getLsbD 23, w.extractLsb' 21 2, w.extractLsb' 14 7, w.extractLsb' 7 7, w.extractLsb' 0 7⟩

/-- The TR word of an opcode and fields. -/
def trWord (op : BitVec 7) (f : TR) : Word :=
  op ++ BitVec.ofBool f.la ++ BitVec.ofBool f.lb ++ f.m ++ f.d ++ f.a ++ f.b
/-- The RI word of an opcode and fields. -/
def riWord (op : BitVec 7) (f : RI) : Word := op ++ BitVec.ofBool f.la ++ f.d ++ f.a ++ f.imm
/-- The LU word of an opcode and fields. -/
def luWord (op : BitVec 7) (f : LU) : Word := op ++ f.d ++ f.imm
/-- The BR word of an opcode and offset. -/
def brWord (op : BitVec 7) (f : BR) : Word := op ++ f.off
/-- The ME word of an opcode and fields. -/
def meWord (op : BitVec 7) (f : ME) : Word :=
  op ++ BitVec.ofBool f.la ++ BitVec.ofBool f.mode ++ f.size ++ f.d ++ f.a ++ f.off

/-! ### The fate of an encoding (R77) -/

/-- The decode-time causes of ILLEGAL (R77). -/
inductive DecodeError where
  | opcode | kind | subop | wide | target | scope | field
  deriving DecidableEq, Repr

/-- The subcode of a cause (R77). -/
def DecodeError.code : DecodeError → Nat
  | .opcode => 1 | .kind => 2 | .subop => 3 | .wide => 4 | .target => 5 | .scope => 8 | .field => 9

/-- What the opcode map answers: an instruction, and whether it may stand as it does, alone or in a pair (R75). -/
abbrev Picked := Except DecodeError (Instr × Bool)

/-- An instruction that takes no literal. -/
def single (l : Option Word) (i : Instr) : Picked := .ok (i, l.isNone)
/-- An instruction that needs a second word. -/
def pair (l : Option Word) (c : Word → Instr) : Picked := .ok (c (l.getD 0), l.isSome)
/-- An instruction whose row depends on whether a second word is there. -/
def either (l : Option Word) (i : Instr) (c : Word → Instr) : Picked :=
  match l with
  | none => .ok (i, true)
  | some e => .ok (c e, true)
/-- A BITS or CVTI: a literal is its B value in place of the field (R131; DEDUCED, log entry 11). A literal that the seven
bits of the field cannot hold stands as 0x7F, a value that neither entry assigns. -/
def litB (l : Option Word) (c : TR → Instr) (f : TR) : Picked :=
  .ok (c { f with b := (l.map fun v => if v.toNat < 128 then v.setWidth 7 else 127).getD f.b }, true)
/-- An instruction whose every field is fixed. -/
def fixed (l : Option Word) (w full : Word) (i : Instr) : Picked :=
  if l.isSome then .error .wide else if w = full then .ok (i, true) else .error .field

/-- The opcode map (R73, R74) with the sub-operations that M or B selects. -/
def pick (w : Word) (l : Option Word) : Picked :=
  match opOf w with
  | 0x00#7 => fixed l w 0x00000000#32 .nop
  | 0x01#7 => .ok (.bra (brOf w) l, true)
  | 0x02#7 => .ok (.call (luOf w) l, true)
  | 0x03#7 => match (trOf w).m with
    | 0#2 => single l (.retScalar (trOf w))
    | 1#2 => single l (.retVector (trOf w))
    | _ => .error .subop
  | 0x04#7 => single l (.loop (riOf w))
  | 0x05#7 => fixed l w 0x0A000000#32 .endl
  | 0x06#7 => single l (.wbase (riOf w))
  | 0x07#7 => fixed l w 0x0E000000#32 .exit
  | 0x10#7 => match (trOf w).b with
    | 0#7 => (match (trOf w).m with | 0#2 => pair l (.pkrdRec (trOf w)) | 1#2 => pair l (.pkrdReg (trOf w)) | 2#2 => pair l (.pkrdRpl (trOf w)) | _ => .error .subop)
    | 1#7 => (match (trOf w).m with | 0#2 => pair l (.pkwrRec (trOf w)) | 1#2 => pair l (.pkwrReg (trOf w)) | 2#2 => pair l (.pkwrRpl (trOf w)) | _ => .error .subop)
    | 2#7 => single l (.pkres (trOf w))
    | 3#7 => single l (.pkrty (trOf w))
    | 4#7 => pair l (.pkdir (trOf w))
    | 5#7 => single l (.pkkil (trOf w))
    | _ => .error .subop
  | 0x11#7 => match (trOf w).b with
    | 0#7 => pair l (.ctopen (trOf w))
    | 1#7 => fixed l w 0x22000001#32 .ctclose
    | _ => .error .subop
  | 0x12#7 => match (trOf w).b with
    | 0#7 => (match (trOf w).m with | 0#2 => pair l (.srdGrp (trOf w)) | 1#2 => pair l (.srdSys (trOf w)) | 2#2 => pair l (.srdSysB64 (trOf w)) | _ => .error .subop)
    | 1#7 => (match (trOf w).m with | 0#2 => pair l (.swrGrp (trOf w)) | 1#2 => pair l (.swrSys (trOf w)) | 2#2 => pair l (.swrSysB64 (trOf w)) | _ => .error .subop)
    | 2#7 => single l (.rdid (trOf w))
    | 3#7 => single l (.rdtime (trOf w))
    | _ => .error .subop
  | 0x13#7 => match (trOf w).b with
    | 0#7 => single l (.trap (trOf w))
    | _ => .error .subop
  | 0x14#7 => match (trOf w).b with
    | 0#7 => pair l (.pstop (trOf w))
    | 1#7 => single l (.pmset (trOf w))
    | 2#7 => fixed l w 0x28000002#32 .pmret
    | _ => .error .subop
  | 0x15#7 => match (trOf w).b with
    | 0#7 => single l (.ftest (trOf w))
    | 1#7 => (match (trOf w).m with | 0#2 => single l (.chkset (trOf w)) | 1#2 => single l (.chksetRestore (trOf w)) | _ => .error .subop)
    | _ => .error .subop
  | 0x16#7 => match (trOf w).b with
    | 0#7 => either l (.reggive (trOf w)) (.reggiveLiteral (trOf w))
    | 1#7 => either l (.regclaim (trOf w)) (.regclaimLiteral (trOf w))
    | 2#7 => single l (.role (trOf w))
    | 3#7 => single l (.phpost (trOf w))
    | _ => .error .subop
  | 0x18#7 => .ok (.iaddScalar (trOf w) l, true)
  | 0x19#7 => .ok (.isubScalar (trOf w) l, true)
  | 0x1A#7 => .ok (.imulScalar (trOf w) l, true)
  | 0x1B#7 => .ok (.imulhScalar (trOf w) l, true)
  | 0x1C#7 => .ok (.andScalar (trOf w) l, true)
  | 0x1D#7 => .ok (.orScalar (trOf w) l, true)
  | 0x1E#7 => .ok (.xorScalar (trOf w) l, true)
  | 0x1F#7 => .ok (.shlScalar (trOf w) l, true)
  | 0x20#7 => .ok (.shrScalar (trOf w) l, true)
  | 0x21#7 => if (trOf w).m.getLsbD 0 then .ok (.imaxScalar (trOf w) l, true) else .ok (.iminScalar (trOf w) l, true)
  | 0x22#7 => litB l .bitsScalar (trOf w)
  | 0x23#7 => .ok (.iaddScalarImm (riOf w) l, true)
  | 0x24#7 => .ok (.andScalarImm (riOf w) l, true)
  | 0x25#7 => .ok (.orScalarImm (riOf w) l, true)
  | 0x26#7 => .ok (.xorScalarImm (riOf w) l, true)
  | 0x27#7 => single l (.shlScalarImm (riOf w))
  | 0x28#7 => single l (.shrScalarImm (riOf w))
  | 0x29#7 => single l (.iset (riOf w))
  | 0x2A#7 => .ok (.movScalarImm (luOf w) l, true)
  | 0x2B#7 => single l (.movScalar (trOf w))
  | 0x2C#7 => .ok (.iaddVector (trOf w) l, true)
  | 0x2D#7 => .ok (.isubVector (trOf w) l, true)
  | 0x2E#7 => .ok (.imulVector (trOf w) l, true)
  | 0x2F#7 => .ok (.imulhVector (trOf w) l, true)
  | 0x30#7 => .ok (.imad (trOf w) l, true)
  | 0x31#7 => .ok (.andVector (trOf w) l, true)
  | 0x32#7 => .ok (.orVector (trOf w) l, true)
  | 0x33#7 => .ok (.xorVector (trOf w) l, true)
  | 0x34#7 => .ok (.shlVector (trOf w) l, true)
  | 0x35#7 => .ok (.shrVector (trOf w) l, true)
  | 0x36#7 => .ok (.iminVector (trOf w) l, true)
  | 0x37#7 => .ok (.imaxVector (trOf w) l, true)
  | 0x38#7 => .ok (.icmp (trOf w) l, true)
  | 0x39#7 => .ok (.ineg (trOf w), true)
  | 0x3A#7 => litB l .bitsVector (trOf w)
  | 0x3B#7 => litB l .cvti (trOf w)
  | 0x3C#7 => .ok (.iaddVectorImm (riOf w) l, true)
  | 0x3D#7 => .ok (.andVectorImm (riOf w) l, true)
  | 0x3E#7 => .ok (.orVectorImm (riOf w) l, true)
  | 0x3F#7 => .ok (.xorVectorImm (riOf w) l, true)
  | 0x40#7 => single l (.shlVectorImm (riOf w))
  | 0x41#7 => single l (.shrVectorImm (riOf w))
  | 0x42#7 => .ok (.icmpImm (riOf w) l, true)
  | 0x43#7 => .ok (.isubVectorImm (riOf w) l, true)
  | 0x44#7 => .ok (.imulVectorImm (riOf w) l, true)
  | 0x45#7 => .ok (.movVectorImm (luOf w) l, true)
  | 0x46#7 => match (trOf w).m with
    | 0#2 => single l (.movVector (trOf w))
    | 1#2 => single l (.movVectorBroadcast (trOf w))
    | 2#2 => single l (.movVectorB64 (trOf w))
    | _ => .error .subop
  | 0x48#7 => .ok (.fadd (trOf w) l, true)
  | 0x49#7 => .ok (.fsub (trOf w) l, true)
  | 0x4A#7 => .ok (.fmul (trOf w) l, true)
  | 0x4B#7 => .ok (.ffma (trOf w) l, true)
  | 0x4C#7 => .ok (.fmin (trOf w) l, true)
  | 0x4D#7 => .ok (.fmax (trOf w) l, true)
  | 0x4E#7 => .ok (.fcmp (trOf w) l, true)
  | 0x4F#7 => single l (.fneg (trOf w))
  | 0x50#7 => single l (.frcp (trOf w))
  | 0x51#7 => single l (.frsq (trOf w))
  | 0x52#7 => single l (.fexp2 (trOf w))
  | 0x53#7 => single l (.flog2 (trOf w))
  | 0x54#7 => pair l (.cvt (trOf w))
  | 0x55#7 => pair l (.pack (trOf w))
  | 0x56#7 => pair l (.unpack (trOf w))
  | 0x57#7 => .ok (.fscale (trOf w) l, true)
  | 0x58#7 => .ok (.hadd2 (trOf w) l, true)
  | 0x59#7 => .ok (.hmul2 (trOf w) l, true)
  | 0x5A#7 => .ok (.hfma2 (trOf w) l, true)
  | 0x5B#7 => single l (.fclass (trOf w))
  | 0x60#7 => single l (.laneid (trOf w))
  | 0x61#7 => single l (.shfl (trOf w))
  | 0x62#7 => match (trOf w).m with
    | 0#2 => single l (.voteAll (trOf w))
    | 1#2 => single l (.voteAny (trOf w))
    | 2#2 => single l (.voteBallot (trOf w))
    | _ => .error .subop
  | 0x63#7 => single l (.red (trOf w))
  | 0x64#7 => single l (.vreds (trOf w))
  | 0x65#7 => single l (.plop (trOf w))
  | 0x66#7 => match (trOf w).m with
    | 0#2 => single l (.pmov (trOf w))
    | 1#2 => single l (.pmovNz (trOf w))
    | 2#2 => single l (.pmovBit (trOf w))
    | _ => .error .subop
  | 0x67#7 => single l (.sredw (trOf w))
  | 0x68#7 => either l (.ld (meOf w)) (.ldExtended (meOf w))
  | 0x69#7 => either l (.st (meOf w)) (.stExtended (meOf w))
  | 0x6A#7 => either l (.lds (meOf w)) (.ldsExtended (meOf w))
  | 0x6B#7 => either l (.sts (meOf w)) (.stsExtended (meOf w))
  | 0x6C#7 => either l (.ldc (meOf w)) (.ldcExtended (meOf w))
  | 0x6D#7 => either l (.ldws (meOf w)) (.ldwsExtended (meOf w))
  | 0x6E#7 => either l (.pref (meOf w)) (.prefExtended (meOf w))
  | 0x6F#7 => pair l (.ldsp (trOf w))
  | 0x70#7 => pair l (.atom (trOf w))
  | 0x71#7 => pair l (.atoms (trOf w))
  | 0x72#7 => single l (.fence (trOf w))
  | 0x73#7 => single l (.waitsb (luOf w))
  | 0x74#7 => either l (.binit (riOf w)) (.binitLiteral (riOf w))
  | 0x75#7 => match (trOf w).m with
    | 0#2 => single l (.barv (trOf w))
    | 1#2 => either l (.bexp (trOf w)) (.bexpLiteral (trOf w))
    | 2#2 => single l (.bwait (trOf w))
    | 3#2 => single l (.btest (trOf w))
  | 0x76#7 => match (trOf w).m with
    | 0#2 => single l (.mbw (trOf w))
    | 1#2 => single l (.mbr (trOf w))
    | 2#2 => single l (.mbp (trOf w))
    | _ => .error .subop
  | 0x77#7 => match (trOf w).m with
    | 0#2 => pair l (.cpsub (trOf w))
    | 1#2 => pair l (.cpwp (trOf w))
    | 2#2 => pair l (.cpwait (trOf w))
    | 3#2 => pair l (.cpwpRaw (trOf w))
  | 0x78#7 => match (trOf w).m with
    | 0#2 => pair l (.mma (trOf w))
    | _ => .error .subop
  | 0x79#7 => match (trOf w).m with
    | 0#2 => pair l (.mmag (trOf w))
    | 1#2 => pair l (.mmab (trOf w))
    | _ => .error .subop
  | 0x7A#7 => match (trOf w).m with
    | 0#2 => single l (.kdef (trOf w))
    | 1#2 => single l (.macz (trOf w))
    | 2#2 => single l (.mwait (trOf w))
    | _ => .error .subop
  | 0x7B#7 => pair l (.mdrn (trOf w))
  | 0x7C#7 => match (trOf w).m with
    | 0#2 => single l (.tdef (trOf w))
    | 1#2 => single l (.tqry (trOf w))
    | 2#2 => single l (.binrun (trOf w))
    | _ => .error .subop
  | 0x7D#7 => match (trOf w).m with
    | 0#2 => single l (.susp (trOf w))
    | 1#2 => single l (.wakeScalar (trOf w))
    | 2#2 => single l (.wakeVector (trOf w))
    | _ => .error .subop
  | 0x7E#7 => match (trOf w).m with
    | 0#2 => pair l (.twakeq (trOf w))
    | 1#2 => pair l (.tapply (trOf w))
    | _ => .error .subop
  | _ => .error .opcode

/-! ### The checks of the entries -/

/-- The condition code of a compare's D field (R129). -/
def TR.cc (f : TR) : Nat := f.d.toNat / 8
/-- The condition code of an RI compare's D field (R129). -/
def RI.cc (f : RI) : Nat := f.d.toNat / 8

/-- The element width of a format code of R138. -/
def fmtWidth (c : Nat) : Nat :=
  match c with
  | 0 => 32 | 1 => 16 | 2 => 16 | 3 => 8 | 4 => 8 | 5 => 4 | 6 => 6 | 7 => 8
  | 8 => 32 | 9 => 32 | 10 => 16 | 11 => 16 | _ => 8

/-- Elements of a format that one source register holds for CVT (R139). -/
def fmtElems (c : Nat) : Nat := if fmtWidth c = 32 ∨ c = 6 then 1 else 32 / fmtWidth c

/-- M and condition-code values that the entry assigns (SUBOP otherwise). A nonzero M where the entry gives M no meaning but 0 is a value
that it does not assign, for FRCP, FRSQ, FEXP2 and FLOG2 too (DESIGN CHOICE, log entry 53). -/
def subopWord : Instr → Bool
  | .imulScalar f _ | .iaddVector f _ | .isubVector f _ | .imulVector f _ | .imad f _ => f.m ≠ 2#2
  | .imulhScalar f _ | .imulhVector f _ => !f.m.getLsbD 0
  | .andScalar f _ | .orScalar f _ | .xorScalar f _ | .shlScalar f _ => !f.m.getLsbD 1
  | .andVector f _ | .orVector f _ | .xorVector f _ | .shlVector f _ => !f.m.getLsbD 1
  | .movScalar f | .cvti f => !f.m.getLsbD 1
  | .pkdir f _ => !f.m.getLsbD 1
  | .hadd2 f _ | .hmul2 f _ | .hfma2 f _ => !f.m.getLsbD 1
  | .icmp f _ => !f.m.getLsbD 1 && decide (f.cc ≤ 9)
  | .icmpImm f _ => decide (f.cc ≤ 9)
  | .fcmp f _ => f.m = 0#2 && decide (f.cc ≤ 7)
  | .fadd f _ | .fsub f _ | .fmul f _ | .fmin f _ | .fmax f _ | .fscale f _ => f.m = 0#2
  | .fclass f | .frcp f | .frsq f | .fexp2 f | .flog2 f => f.m = 0#2
  | .ffma f _ => f.m ≠ 3#2
  | .fneg f => f.m ≠ 3#2
  | .red f => !(f.m = 3#2 && fld f.b 0 2 = 2)
  | .vreds f => !(f.m = 3#2 && fld f.b 0 2 = 2) && !(f.m ≠ 0#2 && fld f.b 0 2 = 3)
  | .pref f | .prefExtended f _ => fld f.d 0 2 ≠ 3
  | _ => true

/-- Format pairs that CVT, PACK and UNPACK assign (R138 to R140). -/
def subopCvt (e : Word) : Bool :=
  decide (fld e 8 3 ≤ 4) && decide (fld e 0 4 ≤ 13) && decide (fld e 4 4 ≤ 13)
/-- PACK's 32-bit side `p` and packed side `q` (R140). -/
def subopPack (p q : Nat) : Bool :=
  decide (fmtWidth q < 32) && (if q < 8 then p = 0 else p = 8 || p = 9)

/-- Extension-word values that the entry assigns (SUBOP otherwise). -/
def subopExt : Instr → Bool
  | .cvt _ e => subopCvt e && !(decide (fld e 0 4 ≥ 8) && decide (fld e 4 4 ≥ 8)) &&
      !(fld e 0 4 = 7 && decide (fld e 4 4 ≥ 8))
  | .pack _ e => subopCvt e && subopPack (fld e 0 4) (fld e 4 4)
  | .unpack _ e => subopCvt e && subopPack (fld e 4 4) (fld e 0 4)
  | .atom _ e | .atoms _ e => decide (fld e 0 4 ≤ 11) && decide (fld e 4 2 ≤ 1) && !(fld e 0 4 = 11 && fld e 4 2 = 1)
  | .mma _ e | .mmag _ e => fld e 4 3 ≠ 7 && fld e 25 2 ≠ 3
  | .mmab _ e => (fld e 4 3 = 2 || fld e 4 3 = 3) && fld e 25 2 ≠ 3
  | .mdrn f e => decide (fld e 4 3 ≤ 3) && !((f.m = 0#2 || f.m = 2#2) && decide (fld e 4 3 < 2))
  | .tapply _ e => decide (fld e 5 4 ≤ 11)
  | _ => true

/-- M of MMA and of MDRN (SUBOP otherwise). -/
def subopWide : Instr → Bool
  | .mma f _ => f.m = 0#2
  | .mdrn f _ => f.m ≠ 3#2
  | _ => true

/-- Scopes and orders that the entry allows (SCOPE otherwise). -/
def scopeOk : Instr → Bool
  | .ldExtended _ e | .stExtended _ e | .ldcExtended _ e | .ldwsExtended _ e => fld e 0 3 ≠ 7 && fld e 3 2 ≠ 3
  | .ldsExtended _ e | .stsExtended _ e => decide (fld e 0 3 ≤ 3) && fld e 3 2 ≠ 3
  | .prefExtended _ e => fld e 0 5 = 0
  | .atom _ e => fld e 6 3 ≠ 7
  | .atoms _ e => decide (fld e 6 3 ≤ 3)
  | .fence f => fld f.b 0 3 ≠ 7
  | _ => true

/-- Fields of the first word that the entry leaves unused or bounds (FIELD otherwise). Of the fields that no entry names, D and LB of RET,
B of VOTE, PMOV, INEG and SREDW and M of SREDW are ignored, and M of LANEID must be 0 (DESIGN CHOICE, log entry 53). A last-use bit
of a tile instruction on an operand that is no vector register is no fault (R78, DEDUCED, log entry 12). -/
def fieldWord : Instr → Bool
  | .retScalar f | .retVector f => f.b = 0
  | .loop f => f.d = 0 && f.a = 0 && !f.la && decide (f.imm.toNat % 16 = 0) && decide (f.imm.toNat ≤ 96)
  | .wbase f => f.d = 0 && f.a = 0 && !f.la && decide (f.imm.toNat % 16 = 0) && decide (f.imm.toNat ≤ 384)
  | .bitsScalar f | .bitsVector f => f.b = 0
  | .movScalar f | .movVector f | .movVectorBroadcast f | .movVectorB64 f => f.b = 0
  | .fneg f | .fclass f | .frcp f | .frsq f | .fexp2 f | .flog2 f => f.b = 0
  | .shlScalarImm f | .shlVectorImm f => fld f.imm 5 5 = 0
  | .shrScalarImm f | .shrVectorImm f => fld f.imm 6 4 = 0
  | .cvti f => decide (fld f.b 0 2 ≤ 1) && !f.b.getLsbD 6 && !(f.m = 1#2 && fld f.b 3 3 ≠ 0) &&
      decide (fld f.b 3 3 ≤ (if fld f.b 0 2 = 0 then 3 else 1))
  | .laneid f => f.a = 0 && f.b = 0 && f.m = 0
  | .voteBallot f => decide (f.d.toNat % 4 = 0)
  | .pmovBit f => decide (f.a.toNat % 4 = 0)
  | .red f => fld f.b 2 5 = 0 && fld f.b 0 2 ≠ 3
  | .vreds f => fld f.b 2 5 = 0 && f.d = 0 && !f.lb
  | .pkrdRec f _ | .pkrdReg f _ | .pkrdRpl f _ | .pkwrRec f _ | .pkwrReg f _ | .pkwrRpl f _ => !f.lb && !f.la
  | .pkres f | .pkrty f | .pkkil f => !f.lb && !f.la && f.m = 0
  | .pkdir f _ => !f.lb && !f.la
  | .ctopen f _ => !f.lb && !f.la && f.m = 0 && f.a = 0
  | .srdGrp f _ | .swrGrp f _ | .srdSys f _ | .swrSys f _ | .srdSysB64 f _ | .swrSysB64 f _ => !f.lb && !f.la && f.a = 0
  | .rdid f | .rdtime f => !f.lb && !f.la && f.a = 0 && f.m = 0
  | .trap f => !f.lb && !f.la && f.m = 0 && fld f.a 1 6 = 0
  | .pstop f _ => !f.lb && !f.la && f.m = 0
  | .pmset f => !f.lb && !f.la && f.m = 0 && fld f.d 5 2 = 0
  | .ftest f => !f.lb && !f.la && f.m = 0
  | .chkset f | .chksetRestore f => !f.lb && !f.la && f.d = 0
  | .reggive f | .regclaim f => !f.lb && !f.la && f.m = 0 && f.d = 0
  | .reggiveLiteral f _ | .regclaimLiteral f _ => !f.lb && !f.la && f.m = 0 && f.d = 0 && f.a = 0
  | .role f => !f.lb && !f.la && f.m = 0 && fld f.d 2 5 = 0 && fld f.a 4 3 = 0
  | .phpost f => !f.lb && !f.la && f.m = 0
  | .pref f | .prefExtended f _ => fld f.d 2 5 = 0
  | .fence f => f.d = 0 && f.a = 0 && f.m = 0 && !f.la && !f.lb && fld f.b 5 2 = 0
  | .waitsb f => f.d = 0 && !f.imm.getLsbD 0 && fld f.imm 8 10 = 0
  | .binit f | .binitLiteral f _ => f.a = 0 && fld f.d 4 3 = 0
  | .barv f | .bwait f => f.d = 0 && f.b = 0 && fld f.a 4 3 = 0
  | .bexp f | .bexpLiteral f _ => f.d = 0 && fld f.a 4 3 = 0
  | .btest f => f.b = 0 && fld f.a 4 3 = 0
  | .mbw f => fld f.d 1 6 = 0 && fld f.b 4 3 = 0
  | .mbr f | .mbp f => fld f.a 1 6 = 0 && fld f.b 4 3 = 0
  | .kdef f => f.a = 0 && !f.la && !f.lb && fld f.d 4 3 = 0 && (f.b = 1 || f.b = 2 || f.b = 4)
  | .macz f => f.a = 0 && f.b = 0 && !f.la && !f.lb
  | .mwait f => f.a = 0 && f.b = 0 && !f.la && !f.lb && fld f.d 4 3 = 0
  | .tdef f => f.d = 0 && fld f.a 4 3 = 0
  | .tqry f => fld f.b 2 5 = 0 && fld f.a 4 3 = 0
  | .binrun f => f.d = 0 && f.b = 0 && fld f.a 4 3 = 0
  | .susp f => f.b = 0 && fld f.a 4 3 = 0
  | .wakeScalar f | .wakeVector f => f.d = 0 && fld f.a 4 3 = 0
  | .cvt f _ | .pack f _ | .unpack f _ => !f.lb && f.m = 0 && f.b = 0
  | .ldsp f _ => f.m = 0 && !f.la && !f.lb
  | .atom f _ | .atoms f _ => f.m = 0 && !f.la
  | .cpsub f _ | .cpwp f _ | .cpwpRaw f _ | .cpwait f _ => !f.la && !f.lb && f.b = 0
  | .mmab f _ => !f.la && fld f.a 2 5 = 0
  | .mdrn f _ => !f.lb && f.b = 0 && !(f.m = 0#2 && f.d ≠ 0)
  | .twakeq f _ | .tapply f _ => f.d = 0 && fld f.a 4 3 = 0
  | _ => true

/-- Scale fields of the MMA family (R119, R203). -/
def fieldScale (e : Word) : Bool :=
  !(decide (2 ≤ fld e 4 3) && decide (fld e 4 3 ≤ 6)) ||
    (if e.getLsbD 27 then !(decide (5 ≤ fld e 4 3) && (decide (fld e 21 2 > 1) || decide (fld e 23 2 > 1)))
     else fld e 14 7 = 0 && fld e 21 4 = 0)

/-- The selector word of PKRD and PKWR (R288); `m` is what M selects. -/
def fieldSel (m : Nat) (e : Word) : Bool :=
  if e.getLsbD 31 then fld e 7 24 = 0
  else match m with
    | 0 => fld e 5 27 = 0
    | 1 => fld e 18 14 = 0
    | _ => fld e 16 16 = 0 && fld e 3 6 = 0 && decide (fld e 0 3 ≤ 5)

/-- The group register indices of R294. -/
def groupIndexOk (e : Word) : Bool :=
  decide (e.toNat ≤ 5) || (decide (8 ≤ e.toNat) && decide (e.toNat ≤ 10)) ||
    (decide (16 ≤ e.toNat) && decide (e.toNat ≤ 31))

/-- Fields of the second word that the entry leaves unused or bounds (FIELD otherwise). -/
def fieldExt : Instr → Bool
  | .ldExtended _ e | .stExtended _ e | .ldsExtended _ e | .stsExtended _ e | .ldcExtended _ e | .ldwsExtended _ e
  | .prefExtended _ e => fld e 5 3 = 0
  | .cvt _ e => fld e 15 17 = 0 && decide (fld e 12 3 < fmtElems (fld e 0 4))
  | .pack _ e | .unpack _ e => fld e 12 20 = 0
  | .ldsp _ e => fld e 4 28 = 0
  | .atom _ e | .atoms _ e => fld e 12 4 = 0
  | .binitLiteral _ e => decide (e.toNat ≤ 0xFFFF)
  | .cpsub _ e => fld e 27 5 = 0
  | .cpwp _ e | .cpwpRaw _ e | .cpwait _ e => e = 0
  | .mma _ e | .mmab _ e => fieldScale e && fld e 28 4 = 0
  | .mmag _ e => fieldScale e
  | .mdrn _ e => fld e 19 13 = 0
  | .twakeq _ e => fld e 8 24 = 0
  | .tapply _ e => fld e 9 23 = 0
  | .pkrdRec _ e | .pkwrRec _ e => fieldSel 0 e
  | .pkrdReg _ e | .pkwrReg _ e => fieldSel 1 e
  | .pkrdRpl _ e | .pkwrRpl _ e => fieldSel 2 e
  | .pkdir _ e => fld e 7 25 = 0
  | .srdGrp _ e | .swrGrp _ e => groupIndexOk e
  | .srdSys _ e | .swrSys _ e => decide (e.toNat % 4 = 0)
  | .srdSysB64 _ e | .swrSysB64 _ e => decide (e.toNat % 8 = 0)
  | .pstop _ e => !(e.getLsbD 8 && fld e 0 8 ≠ 0)
  | _ => true

/-- What the checks find, the lowest subcode first (R77); `wideOk` is the answer of the opcode map.
DEDUCED, log entry 41. -/
def check (i : Instr) (wideOk : Bool) : Option DecodeError :=
  if !(subopWord i && subopWide i && (!wideOk || subopExt i)) then some .subop
  else if !wideOk then some .wide
  else if !scopeOk i then some .scope
  else if !(fieldWord i && fieldExt i) then some .field
  else none

/-- The instruction of a slot's word, with the second word when the slot starts a wide pair (R70 to R77).
DEDUCED, log entry 11. -/
def decodeWord (w : Word) (l : Option Word) : Except DecodeError Instr :=
  match pick w l with
  | .error e => .error e
  | .ok (i, ok) =>
    match check i ok with
    | some e => .error e
    | none => .ok i

/-! ### Bundles (R61, R64) -/

/-- The 32-bit little-endian word of four bytes. -/
def word4 (b : List Byte) (o : Nat) : Word :=
  b.getD (o + 3) 0 ++ b.getD (o + 2) 0 ++ b.getD (o + 1) 0 ++ b.getD o 0

/-- A slot of a bundle: its instruction word, its second word, the number of slots, its control field (R65), and
whether the second slot's control field is nonzero (R78). -/
structure Slot where
  word : Word
  ext : Option Word
  slots : Nat
  ctl : BitVec 10
  secondCtl : Bool
  deriving DecidableEq, Repr

/-- What stands at slot `s` (0 to 2) of a bundle of 16 bytes: KIND 3, or the second slot of a pair, is refused. With KIND 3
an opcode shown as a dash in the slot is the lower subcode of the two (R77). -/
def slotAt (b : List Byte) (s : Nat) : Except DecodeError Slot :=
  let c := word4 b 0
  let w (k : Nat) := word4 b (4 + 4 * k)
  let f (k : Nat) := c.extractLsb' (10 * k) 10
  let one : Except DecodeError Slot := .ok ⟨w s, none, 1, f s, false⟩
  let two : Except DecodeError Slot := .ok ⟨w s, some (w (s + 1)), 2, f s, f (s + 1) ≠ 0⟩
  match fld c 30 2, s with
  | 0, _ => one
  | 1, 0 => two
  | 1, 1 => .error .target
  | 1, _ => one
  | 2, 0 => one
  | 2, 1 => two
  | 2, _ => .error .target
  | _, _ => match pick (w s) none with
    | .error .opcode => .error .opcode
    | _ => .error .kind

/-- The slot number of a PC within its bundle, if it is one (R61). -/
def slotOfPc (pc : Nat) : Option Nat := if pc % 16 % 4 = 0 ∧ pc % 16 ≠ 0 then some (pc % 16 / 4 - 1) else none

/-- Whether an opcode's instructions always stand in a wide pair (R75, R138, R182, R183, R191, R203, R209, R258, and the
entries that require a literal). -/
def needsPair (w : Word) : Bool :=
  match pick w none with
  | .ok (_, ok) => !ok
  | .error _ => false

/-! ### The encoder -/

/-- The words of an instruction, from the tables of R70 and R73. Rows that are steps have none. -/
def encode : Instr → Option (Word × Option Word)
  | .nop => some (0x00000000#32, none)
  | .bra f l => some (brWord 0x01#7 f, l)
  | .call f l => some (luWord 0x02#7 f, l)
  | .retScalar f => some (trWord 0x03#7 f, none)
  | .retVector f => some (trWord 0x03#7 f, none)
  | .loop f => some (riWord 0x04#7 f, none)
  | .endl => some (0x0A000000#32, none)
  | .wbase f => some (riWord 0x06#7 f, none)
  | .exit => some (0x0E000000#32, none)
  | .pkrdRec f e => some (trWord 0x10#7 f, some e)
  | .pkrdReg f e => some (trWord 0x10#7 f, some e)
  | .pkrdRpl f e => some (trWord 0x10#7 f, some e)
  | .pkwrRec f e => some (trWord 0x10#7 f, some e)
  | .pkwrReg f e => some (trWord 0x10#7 f, some e)
  | .pkwrRpl f e => some (trWord 0x10#7 f, some e)
  | .pkres f => some (trWord 0x10#7 f, none)
  | .pkrty f => some (trWord 0x10#7 f, none)
  | .pkdir f e => some (trWord 0x10#7 f, some e)
  | .pkkil f => some (trWord 0x10#7 f, none)
  | .ctopen f e => some (trWord 0x11#7 f, some e)
  | .ctclose => some (0x22000001#32, none)
  | .srdGrp f e => some (trWord 0x12#7 f, some e)
  | .swrGrp f e => some (trWord 0x12#7 f, some e)
  | .srdSys f e => some (trWord 0x12#7 f, some e)
  | .swrSys f e => some (trWord 0x12#7 f, some e)
  | .srdSysB64 f e => some (trWord 0x12#7 f, some e)
  | .swrSysB64 f e => some (trWord 0x12#7 f, some e)
  | .rdid f => some (trWord 0x12#7 f, none)
  | .rdtime f => some (trWord 0x12#7 f, none)
  | .trap f => some (trWord 0x13#7 f, none)
  | .pstop f e => some (trWord 0x14#7 f, some e)
  | .pmset f => some (trWord 0x14#7 f, none)
  | .pmret => some (0x28000002#32, none)
  | .ftest f => some (trWord 0x15#7 f, none)
  | .chkset f => some (trWord 0x15#7 f, none)
  | .chksetRestore f => some (trWord 0x15#7 f, none)
  | .reggive f => some (trWord 0x16#7 f, none)
  | .reggiveLiteral f e => some (trWord 0x16#7 f, some e)
  | .regclaim f => some (trWord 0x16#7 f, none)
  | .regclaimLiteral f e => some (trWord 0x16#7 f, some e)
  | .role f => some (trWord 0x16#7 f, none)
  | .phpost f => some (trWord 0x16#7 f, none)
  | .iaddScalar f l => some (trWord 0x18#7 f, l)
  | .isubScalar f l => some (trWord 0x19#7 f, l)
  | .imulScalar f l => some (trWord 0x1A#7 f, l)
  | .imulhScalar f l => some (trWord 0x1B#7 f, l)
  | .andScalar f l => some (trWord 0x1C#7 f, l)
  | .orScalar f l => some (trWord 0x1D#7 f, l)
  | .xorScalar f l => some (trWord 0x1E#7 f, l)
  | .shlScalar f l => some (trWord 0x1F#7 f, l)
  | .shrScalar f l => some (trWord 0x20#7 f, l)
  | .iminScalar f l => some (trWord 0x21#7 f, l)
  | .imaxScalar f l => some (trWord 0x21#7 f, l)
  | .bitsScalar f => some (trWord 0x22#7 f, none)
  | .iaddScalarImm f l => some (riWord 0x23#7 f, l)
  | .andScalarImm f l => some (riWord 0x24#7 f, l)
  | .orScalarImm f l => some (riWord 0x25#7 f, l)
  | .xorScalarImm f l => some (riWord 0x26#7 f, l)
  | .shlScalarImm f => some (riWord 0x27#7 f, none)
  | .shrScalarImm f => some (riWord 0x28#7 f, none)
  | .iset f => some (riWord 0x29#7 f, none)
  | .movScalarImm f l => some (luWord 0x2A#7 f, l)
  | .movScalar f => some (trWord 0x2B#7 f, none)
  | .iaddVector f l => some (trWord 0x2C#7 f, l)
  | .isubVector f l => some (trWord 0x2D#7 f, l)
  | .imulVector f l => some (trWord 0x2E#7 f, l)
  | .imulhVector f l => some (trWord 0x2F#7 f, l)
  | .imad f l => some (trWord 0x30#7 f, l)
  | .andVector f l => some (trWord 0x31#7 f, l)
  | .orVector f l => some (trWord 0x32#7 f, l)
  | .xorVector f l => some (trWord 0x33#7 f, l)
  | .shlVector f l => some (trWord 0x34#7 f, l)
  | .shrVector f l => some (trWord 0x35#7 f, l)
  | .iminVector f l => some (trWord 0x36#7 f, l)
  | .imaxVector f l => some (trWord 0x37#7 f, l)
  | .icmp f l => some (trWord 0x38#7 f, l)
  | .ineg f => some (trWord 0x39#7 f, none)
  | .bitsVector f => some (trWord 0x3A#7 f, none)
  | .cvti f => some (trWord 0x3B#7 f, none)
  | .iaddVectorImm f l => some (riWord 0x3C#7 f, l)
  | .andVectorImm f l => some (riWord 0x3D#7 f, l)
  | .orVectorImm f l => some (riWord 0x3E#7 f, l)
  | .xorVectorImm f l => some (riWord 0x3F#7 f, l)
  | .shlVectorImm f => some (riWord 0x40#7 f, none)
  | .shrVectorImm f => some (riWord 0x41#7 f, none)
  | .icmpImm f l => some (riWord 0x42#7 f, l)
  | .isubVectorImm f l => some (riWord 0x43#7 f, l)
  | .imulVectorImm f l => some (riWord 0x44#7 f, l)
  | .movVectorImm f l => some (luWord 0x45#7 f, l)
  | .movVector f => some (trWord 0x46#7 f, none)
  | .movVectorBroadcast f => some (trWord 0x46#7 f, none)
  | .movVectorB64 f => some (trWord 0x46#7 f, none)
  | .fadd f l => some (trWord 0x48#7 f, l)
  | .fsub f l => some (trWord 0x49#7 f, l)
  | .fmul f l => some (trWord 0x4A#7 f, l)
  | .ffma f l => some (trWord 0x4B#7 f, l)
  | .fmin f l => some (trWord 0x4C#7 f, l)
  | .fmax f l => some (trWord 0x4D#7 f, l)
  | .fcmp f l => some (trWord 0x4E#7 f, l)
  | .fneg f => some (trWord 0x4F#7 f, none)
  | .frcp f => some (trWord 0x50#7 f, none)
  | .frsq f => some (trWord 0x51#7 f, none)
  | .fexp2 f => some (trWord 0x52#7 f, none)
  | .flog2 f => some (trWord 0x53#7 f, none)
  | .cvt f e => some (trWord 0x54#7 f, some e)
  | .pack f e => some (trWord 0x55#7 f, some e)
  | .unpack f e => some (trWord 0x56#7 f, some e)
  | .fscale f l => some (trWord 0x57#7 f, l)
  | .hadd2 f l => some (trWord 0x58#7 f, l)
  | .hmul2 f l => some (trWord 0x59#7 f, l)
  | .hfma2 f l => some (trWord 0x5A#7 f, l)
  | .fclass f => some (trWord 0x5B#7 f, none)
  | .laneid f => some (trWord 0x60#7 f, none)
  | .shfl f => some (trWord 0x61#7 f, none)
  | .voteAll f => some (trWord 0x62#7 f, none)
  | .voteAny f => some (trWord 0x62#7 f, none)
  | .voteBallot f => some (trWord 0x62#7 f, none)
  | .red f => some (trWord 0x63#7 f, none)
  | .vreds f => some (trWord 0x64#7 f, none)
  | .plop f => some (trWord 0x65#7 f, none)
  | .pmov f => some (trWord 0x66#7 f, none)
  | .pmovNz f => some (trWord 0x66#7 f, none)
  | .pmovBit f => some (trWord 0x66#7 f, none)
  | .sredw f => some (trWord 0x67#7 f, none)
  | .ld f => some (meWord 0x68#7 f, none)
  | .ldExtended f e => some (meWord 0x68#7 f, some e)
  | .st f => some (meWord 0x69#7 f, none)
  | .stExtended f e => some (meWord 0x69#7 f, some e)
  | .lds f => some (meWord 0x6A#7 f, none)
  | .ldsExtended f e => some (meWord 0x6A#7 f, some e)
  | .sts f => some (meWord 0x6B#7 f, none)
  | .stsExtended f e => some (meWord 0x6B#7 f, some e)
  | .ldc f => some (meWord 0x6C#7 f, none)
  | .ldcExtended f e => some (meWord 0x6C#7 f, some e)
  | .ldws f => some (meWord 0x6D#7 f, none)
  | .ldwsExtended f e => some (meWord 0x6D#7 f, some e)
  | .pref f => some (meWord 0x6E#7 f, none)
  | .prefExtended f e => some (meWord 0x6E#7 f, some e)
  | .ldsp f e => some (trWord 0x6F#7 f, some e)
  | .atom f e => some (trWord 0x70#7 f, some e)
  | .atoms f e => some (trWord 0x71#7 f, some e)
  | .fence f => some (trWord 0x72#7 f, none)
  | .waitsb f => some (luWord 0x73#7 f, none)
  | .binit f => some (riWord 0x74#7 f, none)
  | .binitLiteral f e => some (riWord 0x74#7 f, some e)
  | .barv f => some (trWord 0x75#7 f, none)
  | .bexp f => some (trWord 0x75#7 f, none)
  | .bexpLiteral f e => some (trWord 0x75#7 f, some e)
  | .bwait f => some (trWord 0x75#7 f, none)
  | .btest f => some (trWord 0x75#7 f, none)
  | .mbw f => some (trWord 0x76#7 f, none)
  | .mbr f => some (trWord 0x76#7 f, none)
  | .mbp f => some (trWord 0x76#7 f, none)
  | .cpsub f e => some (trWord 0x77#7 f, some e)
  | .cpwp f e => some (trWord 0x77#7 f, some e)
  | .cpwpRaw f e => some (trWord 0x77#7 f, some e)
  | .cpwait f e => some (trWord 0x77#7 f, some e)
  | .mma f e => some (trWord 0x78#7 f, some e)
  | .mmag f e => some (trWord 0x79#7 f, some e)
  | .mmab f e => some (trWord 0x79#7 f, some e)
  | .mdrn f e => some (trWord 0x7B#7 f, some e)
  | .kdef f => some (trWord 0x7A#7 f, none)
  | .macz f => some (trWord 0x7A#7 f, none)
  | .mwait f => some (trWord 0x7A#7 f, none)
  | .tdef f => some (trWord 0x7C#7 f, none)
  | .tqry f => some (trWord 0x7C#7 f, none)
  | .binrun f => some (trWord 0x7C#7 f, none)
  | .susp f => some (trWord 0x7D#7 f, none)
  | .wakeScalar f => some (trWord 0x7D#7 f, none)
  | .wakeVector f => some (trWord 0x7D#7 f, none)
  | .twakeq f e => some (trWord 0x7E#7 f, some e)
  | .tapply f e => some (trWord 0x7E#7 f, some e)
  | .dumpWrite _ => none
  | .matchPointHit _ => none
  | .matchHandlerAbandon _ => none
  | .ftestComplete _ => none
  | .claimServe _ => none
  | .vredsComplete _ => none
  | .sredwReturn _ => none
  | .fenceComplete _ => none
  | .waitsbReturn _ => none
  | .bwaitReturn _ => none
  | .barrierBankOp _ => none
  | .engineArrive _ => none
  | .mailboxFill _ => none
  | .mailboxTake _ => none
  | .cpsubAdmit _ => none
  | .cpwaitReturn _ => none
  | .kdefComplete _ => none
  | .engineOpStart _ => none
  | .engineOpComplete _ => none
  | .binGroupForm _ _ => none
  | .fixedWriteback _ => none
  | .starvationGuard _ => none
  | .activeSetSwap _ => none
  | .pendingAgeSwap _ => none
  | .poolAllocServe _ => none
  | .spillEvict _ => none
  | .groupRefill _ => none
  | .loadPerform _ _ => none
  | .storeDrain _ => none
  | .storePush _ _ => none
  | .atomicPerform _ _ => none
  | .tlbWalkDone _ => none
  | .transferSegment _ _ => none
  | .copySegment _ _ => none
  | .remoteWriteAck _ _ => none
  | .copyComplete _ => none
  | .wsRefreshWindowEnd _ _ => none
  | .belfryWake _ => none
  | .queuePoll _ => none
  | .packetFetch _ => none
  | .queueSliceExpire _ => none
  | .launchPacket _ => none
  | .faultLaunch _ => none
  | .waitPacket _ => none
  | .waitRecheck _ => none
  | .writePacket _ => none
  | .wrsigAdd _ => none
  | .wrsigAppend _ => none
  | .wrsigRetry _ => none
  | .branchPacket _ => none
  | .jumpPacket _ => none
  | .skipSlot _ => none
  | .copyPacket _ => none
  | .fencePacket _ => none
  | .stamp _ => none
  | .nopPacket _ => none
  | .bundleRetire _ => none
  | .dispatchPlace _ => none
  | .preemptHaltDone _ => none
  | .budgetTick => none
  | .serverReplenish _ => none
  | .usedWriteback _ => none
  | .parkedRecordWrite _ => none
  | .deferredRecordForm _ => none
  | .faultTaskAppend _ => none
  | .pkRequestReceive _ => none
  | .traceSample => none
  | .trctlWrite _ => none
  | .qregWrite _ => none
  | .tlbinvWrite _ => none
  | .systemRegisterWrite _ => none
  | .eccCorrected _ _ => none
  | .eccUncorrectable _ _ => none
  | .errbankStatusRead _ _ => none
  | .errbankStatusWrite _ _ => none
  | .spireBankScan => none
  | .frameReceive _ _ _ => none
  | .remoteOpReceive _ => none
  | .keepaliveSend _ => none
  | .keepaliveReceive _ => none
  | .keepaliveMiss _ => none
  | .physicalLinkLoss _ => none
  | .linkStateUpdate _ _ => none
  | .drainRound1 => none
  | .drainRound2 => none
  | .drainRound3 => none
  | .routeRecompute => none
  | .ptpEventMessage _ _ => none
  | .powerOnBoot _ => none
  | .bootLockTimeout => none
  | .heartbeatMiss _ => none
  | .powerThermalFault => none
  | .powerThermalRecover => none
  | .quote => none
  | .logread => none
  | .grantCommand => none
  | .resetCommand => none
  | .qclear => none
  | .margin => none
  | .wmap => none
  | .mailboxCommandRefused => none
  | .railStepWrite _ _ => none
  | .railSlewDone _ => none
  | .laneTapWrite _ _ => none
  | .eyeScanStart _ _ => none
  | .eyeScanDone _ _ => none
  | .physicalLinkUp _ => none
  | .ptpHoldover => none
  | .dramTemperatureThreshold _ _ => none
  | .remoteReadResponse _ _ => none
  | .securedContextOpen _ => none

/-- The bytes of a bundle that holds one instruction at slot 0: KIND 1 with a second word, else KIND 0, every control
field "always" and the other slots NOP (R64, R356). -/
def bundleOf (w : Word) (l : Option Word) : List Byte :=
  let c : Word := match l with
    | none => 0x00701C07#32
    | some _ => 0x40700007#32
  let b4 (x : Word) : List Byte := [x.extractLsb' 0 8, x.extractLsb' 8 8, x.extractLsb' 16 8, x.extractLsb' 24 8]
  b4 c ++ b4 w ++ b4 (l.getD 0) ++ b4 0

/-- The bundle that a table word of `nbits` bits stands in, at slot 0: its bits above 32 are a second word, and an
instruction that needs one and is given none has a second word of 0. -/
def tableBundle (nbits w : Nat) : List Byte :=
  let lo : Word := BitVec.ofNat 32 w
  bundleOf lo (if nbits > 32 then some (BitVec.ofNat 32 (w / 2 ^ 32)) else if needsPair lo then some 0 else none)

/-- The instruction at a slot of a bundle's bytes. -/
def decodeBundle (b : List Byte) (s : Nat) : Except DecodeError (Instr × Slot) :=
  match slotAt b s with
  | .error e => .error e
  | .ok sl =>
    match decodeWord sl.word sl.ext with
    | .error e => .error e
    | .ok i => .ok (i, sl)

/-- The instruction the decoder reads from a word numbered as the opcode table numbers it. -/
def decodeTableWord (nbits w : Nat) : Option Instr :=
  match decodeBundle (tableBundle nbits w) 0 with
  | .ok (i, _) => some i
  | .error _ => none

end Sys2Proof
end

