-- ==== Sys2Proof/Machine/Operands.lean ====
section
/-! DEFINITION. What each instruction reads and writes (R71, R72 and the entries), its latency class (R66), whether it
admits foreign threads (R84), and the combinations that set MODCOMBO (R78). -/
namespace Sys2Proof.Machine

/-- A vector source operand: its fields, whether its last-use bit is set, whether it is one 64-bit value (R269). -/
structure VSrc where
  fields : List Nat
  last : Bool
  wide : Bool
  deriving DecidableEq, Repr

/-- A scalar source operand: its register, and whether it is a pair (R71). -/
structure SSrc where
  reg : Nat
  wide : Bool
  deriving DecidableEq, Repr

/-- The operands of an instruction, by field (R127, R269). -/
structure Opnds where
  vs : List VSrc
  vd : List Nat
  ss : List SSrc
  sd : List Nat
  ps : List Nat
  pd : List Nat
  deriving DecidableEq, Repr

/-- No operands. -/
def Opnds.none : Opnds := ⟨[], [], [], [], [], []⟩

/-- The fields of a register group of `n` names that starts at field `f` (R71). -/
def groupFields (f n : Nat) : List Nat := (List.range n).map (groupField f)

/-- A one-name vector source. -/
def v1 (f : BitVec 7) (last : Bool) : VSrc := ⟨[f.toNat], last, false⟩
/-- A two-name vector source that is one 64-bit value. -/
def v2 (f : BitVec 7) (last : Bool) : VSrc := ⟨groupFields f.toNat 2, last, true⟩
/-- A vector source of `n` names. -/
def vn (f : BitVec 7) (n : Nat) (last : Bool) : VSrc := ⟨groupFields f.toNat n, last, false⟩
/-- A single scalar source. -/
def s1 (f : BitVec 7) : SSrc := ⟨f.toNat, false⟩
/-- A scalar pair source. -/
def s2 (f : BitVec 7) : SSrc := ⟨evenOf f.toNat, true⟩
/-- The two registers of a pair destination. -/
def sPair (f : BitVec 7) : List Nat := [evenOf f.toNat, evenOf f.toNat + 1]
/-- The predicate of a field (R71, R78). -/
def pf (f : BitVec 7) : Nat := f.toNat % 8

/-- Vector TR forms with sources A and B and one destination; a literal stands for B. -/
def tr3 (f : TR) (l : Option Word) : Opnds :=
  { Opnds.none with vs := v1 f.a f.la :: (if l.isSome then [] else [v1 f.b f.lb]), vd := [f.d.toNat] }
/-- As `tr3`, with the old destination as a third source. -/
def tr4 (f : TR) (l : Option Word) : Opnds := { tr3 f l with vs := (tr3 f l).vs ++ [v1 f.d false] }
/-- Vector TR forms with one source. -/
def tr2 (f : TR) : Opnds := { Opnds.none with vs := [v1 f.a f.la], vd := [f.d.toNat] }
/-- Vector compares: a predicate destination. -/
def trc (f : TR) (l : Option Word) : Opnds := { tr3 f l with vd := [], pd := [pf f.d] }
/-- Scalar TR forms; M = 2 of IADD and ISUB works on pairs (R132). -/
def trs (f : TR) (l : Option Word) (wide : Bool) : Opnds :=
  if wide then
    { Opnds.none with ss := s2 f.a :: (if l.isSome then [] else [s2 f.b]), sd := sPair f.d }
  else { Opnds.none with ss := s1 f.a :: (if l.isSome then [] else [s1 f.b]), sd := [f.d.toNat] }
/-- Vector RI forms. -/
def riv (f : RI) : Opnds := { Opnds.none with vs := [v1 f.a f.la], vd := [f.d.toNat] }
/-- Scalar RI forms. -/
def ris (f : RI) : Opnds := { Opnds.none with ss := [s1 f.a], sd := [f.d.toNat] }

/-- Access size in bytes of an ME or ATOM size code. -/
def szOf (x : BitVec 2) : Nat := 2 ^ x.toNat
/-- The vector fields of a load's destination or a store's data. -/
def meData (f : ME) : List Nat := if f.size = 3#2 then groupFields f.d.toNat 2 else [f.d.toNat]
/-- The data operand of a store: in MODE 1 of ST, LA still covers it (R175). -/
def stData (f : ME) : VSrc := ⟨meData f, f.la, f.size = 3#2⟩
/-- Operands of LD and LDWS (R173, R175). -/
def ldOps (f : ME) : Opnds :=
  { Opnds.none with ss := [s2 f.a], vs := if f.mode then [] else [v1 f.off f.la], vd := meData f }
/-- Operands of ST. -/
def stOps (f : ME) : Opnds :=
  { Opnds.none with ss := [s2 f.a], vs := (if f.mode then [] else [v1 f.off f.la]) ++ [stData f] }
/-- Operands of LDS. -/
def ldsOps (f : ME) : Opnds :=
  { Opnds.none with ss := if f.mode then [] else [s1 f.off], vs := [v1 f.a f.la], vd := meData f }
/-- Operands of STS. -/
def stsOps (f : ME) : Opnds :=
  { Opnds.none with ss := if f.mode then [] else [s1 f.off], vs := [v1 f.a f.la, stData f] }
/-- Operands of LDC. -/
def ldcOps (f : ME) : Opnds :=
  { Opnds.none with
    ss := s2 f.a :: (if f.mode then [] else [s1 f.off])
    sd := if f.size = 3#2 then sPair f.d else [f.d.toNat] }
/-- Operands of PREF. -/
def prefOps (f : ME) : Opnds :=
  { Opnds.none with ss := [s2 f.a], vs := if f.mode then [] else [v1 f.off f.la] }

/-- Registers that an atomic's data takes (R184). -/
def atomData (f : TR) (e : Word) : List Nat :=
  let n := (if fld e 4 2 = 1 then 2 else 1) * (if fld e 0 4 = 10 then 2 else 1)
  groupFields f.d.toNat n
/-- Registers that an atomic returns into. -/
def atomRet (f : TR) (e : Word) : List Nat :=
  if e.getLsbD 11 then groupFields f.d.toNat (if fld e 4 2 = 1 then 2 else 1) else []

/-- The source registers of PACK: one for each element of DFMT (R140). -/
def packCount (fmt : Nat) : Nat := if fmt = 6 then 16 else 32 / fmtWidth fmt
/-- The registers of a packed format. -/
def packRegs (fmt : Nat) : Nat := if fmt = 6 then 3 else 1

/-- The selector scalar of an indirect PKRD or PKWR selector (R288). -/
def selScalar (e : Word) : List SSrc := if e.getLsbD 31 then [⟨fld e 0 7, false⟩] else []

/-- The operands of every instruction. Steps of other agents have none. -/
def opnds : Instr → Opnds
  | .iaddScalar f l | .isubScalar f l => trs f l (f.m = 2#2)
  | .imulScalar f l | .imulhScalar f l | .andScalar f l | .orScalar f l | .xorScalar f l | .shlScalar f l
  | .shrScalar f l | .iminScalar f l | .imaxScalar f l => trs f l false
  | .bitsScalar f => { Opnds.none with ss := [s1 f.a], sd := [f.d.toNat] }
  | .iaddScalarImm f _ | .andScalarImm f _ | .orScalarImm f _ | .xorScalarImm f _ => ris f
  | .shlScalarImm f | .shrScalarImm f | .iset f => ris f
  | .movScalarImm f _ => { Opnds.none with sd := [f.d.toNat] }
  | .movScalar f =>
    if f.m = 1#2 then { Opnds.none with ss := [s2 f.a], sd := sPair f.d }
    else { Opnds.none with ss := [s1 f.a], sd := [f.d.toNat] }
  | .iaddVector f l | .isubVector f l | .imulVector f l | .imulhVector f l | .andVector f l | .orVector f l
  | .xorVector f l | .shlVector f l | .shrVector f l | .iminVector f l | .imaxVector f l => tr3 f l
  | .imad f l => tr4 f l
  | .icmp f l => trc f l
  | .ineg f | .bitsVector f | .cvti f | .movVector f => tr2 f
  | .iaddVectorImm f _ | .isubVectorImm f _ | .imulVectorImm f _ | .andVectorImm f _ | .orVectorImm f _
  | .xorVectorImm f _ => riv f
  | .shlVectorImm f | .shrVectorImm f => riv f
  | .icmpImm f _ => { riv f with vd := [], pd := [f.d.toNat % 8] }
  | .movVectorImm f _ => { Opnds.none with vd := [f.d.toNat] }
  | .movVectorBroadcast f => { Opnds.none with ss := [s1 f.a], vd := [f.d.toNat] }
  | .movVectorB64 f => { Opnds.none with ss := [s2 f.a], vd := groupFields f.d.toNat 2 }
  | .fadd f l | .fsub f l | .fmul f l | .fmin f l | .fmax f l | .fscale f l => tr3 f l
  | .ffma f l => tr4 f l
  | .fcmp f l => trc f l
  | .fneg f | .fclass f | .frcp f | .frsq f | .fexp2 f | .flog2 f => tr2 f
  | .hadd2 f l | .hmul2 f l => tr3 f l
  | .hfma2 f l => tr4 f l
  | .cvt f _ => tr2 f
  | .pack f e => { Opnds.none with
      vs := [vn f.a (packCount (fld e 4 4)) f.la], vd := groupFields f.d.toNat (packRegs (fld e 4 4)) }
  | .unpack f e => { Opnds.none with
      vs := [vn f.a (packRegs (fld e 0 4)) f.la], vd := groupFields f.d.toNat (packCount (fld e 0 4)) }
  | .laneid f => { Opnds.none with vd := [f.d.toNat] }
  | .shfl f => { tr2 f with vs := [v1 f.a f.la, v1 f.b f.lb] }
  | .voteAll f | .voteAny f => { Opnds.none with ps := [pf f.a], pd := [pf f.d] }
  | .voteBallot f => { Opnds.none with ps := [pf f.a], sd := (List.range 4).map (fun i => f.d.toNat + i) }
  | .red f => tr2 f
  | .vreds f => { Opnds.none with vs := [v1 f.a f.la] }
  | .sredw f => { Opnds.none with ss := [s1 f.a], sd := sPair f.d }
  | .plop f => { Opnds.none with ps := [pf f.a, pf f.b], pd := [pf f.d] }
  | .pmov f => { Opnds.none with ps := [pf f.a], pd := [pf f.d] }
  | .pmovNz f => { Opnds.none with ss := [s1 f.a], pd := [pf f.d] }
  | .pmovBit f => { Opnds.none with ss := (List.range 4).map (fun i => ⟨f.a.toNat + i, false⟩), pd := [pf f.d] }
  | .nop | .bra _ _ | .loop _ | .endl | .wbase _ | .exit => Opnds.none
  | .call f _ => { Opnds.none with sd := sPair f.d }
  | .retScalar f => { Opnds.none with ss := [s2 f.a] }
  | .retVector f => { Opnds.none with vs := [v2 f.a f.la] }
  | .ld f | .ldExtended f _ | .ldws f | .ldwsExtended f _ => ldOps f
  | .st f | .stExtended f _ => stOps f
  | .lds f | .ldsExtended f _ => ldsOps f
  | .sts f | .stsExtended f _ => stsOps f
  | .ldc f | .ldcExtended f _ => ldcOps f
  | .pref f | .prefExtended f _ => prefOps f
  | .ldsp f _ => { Opnds.none with ss := [s2 f.a, s1 f.b, s1 f.d] }
  | .atom f e => { Opnds.none with
      ss := [s2 f.a], vs := [v1 f.b f.lb, ⟨atomData f e, false, fld e 4 2 = 1⟩], vd := atomRet f e }
  | .atoms f e => { Opnds.none with
      ss := [s1 f.b], vs := [v1 f.a false, ⟨atomData f e, false, fld e 4 2 = 1⟩], vd := atomRet f e }
  | .fence _ | .waitsb _ | .binit _ | .binitLiteral _ _ | .barv _ | .bwait _ | .bexpLiteral _ _ => Opnds.none
  | .bexp f => { Opnds.none with ss := [s1 f.b] }
  | .btest f => { Opnds.none with pd := [pf f.d] }
  | .mbw f => { Opnds.none with vs := [if f.d.getLsbD 0 then v2 f.a f.la else v1 f.a f.la] }
  | .mbr f | .mbp f => { Opnds.none with sd := if f.a.getLsbD 0 then sPair f.d else [f.d.toNat] }
  | .cpsub f _ => { Opnds.none with ss := [s2 f.a], sd := [f.d.toNat] }
  | .cpwp f _ | .cpwait f _ => { Opnds.none with ss := [s1 f.a], sd := [f.d.toNat] }
  | .cpwpRaw f _ => { Opnds.none with ss := [s1 f.a], sd := sPair f.d }
  | .kdef _ | .mwait _ => Opnds.none
  | .macz f => { Opnds.none with vd := groupFields f.d.toNat 32 }
  | .mma _ _ | .mmag _ _ | .mmab _ _ | .mdrn _ _ => Opnds.none
  | .tdef f => { Opnds.none with ss := [s2 f.b] }
  | .tqry f => { Opnds.none with sd := [f.d.toNat] }
  | .binrun _ => Opnds.none
  | .susp f => { Opnds.none with pd := [pf f.d] }
  | .wakeScalar f => { Opnds.none with ss := [s1 f.b] }
  | .wakeVector f => { Opnds.none with vs := [v1 f.b f.lb] }
  | .twakeq f _ | .tapply f _ => { Opnds.none with ss := [s1 f.b] }
  | .reggive f | .regclaim f => { Opnds.none with ss := [s1 f.a] }
  | .reggiveLiteral _ _ | .regclaimLiteral _ _ | .role _ => Opnds.none
  | .phpost f => { Opnds.none with ss := [s1 f.a, s1 f.d] }
  | .pkrdRec f e | .pkrdReg f e | .pkrdRpl f e => { Opnds.none with ss := s2 f.a :: selScalar e, sd := [f.d.toNat] }
  | .pkwrRec f e | .pkwrReg f e | .pkwrRpl f e => { Opnds.none with ss := [s2 f.a, s1 f.d] ++ selScalar e }
  | .pkres f | .pkrty f | .pkkil f => { Opnds.none with ss := [s2 f.a], sd := [f.d.toNat] }
  | .pkdir f e => { Opnds.none with ss := [s2 f.a, ⟨evenOf (fld e 0 7), true⟩], sd := [f.d.toNat] }
  | .ctopen f _ => { Opnds.none with sd := [f.d.toNat] }
  | .ctclose | .pmret | .trap _ => Opnds.none
  | .srdGrp f _ | .srdSys f _ => { Opnds.none with sd := [f.d.toNat] }
  | .srdSysB64 f _ | .rdid f | .rdtime f => { Opnds.none with sd := sPair f.d }
  | .swrGrp f _ | .swrSys f _ => { Opnds.none with ss := [s1 f.d] }
  | .swrSysB64 f _ => { Opnds.none with ss := [s2 f.d] }
  | .pstop f _ => { Opnds.none with ss := [s2 f.a], sd := [f.d.toNat] }
  | .pmset f => { Opnds.none with ss := [s2 f.a] }
  | .ftest f => { Opnds.none with ss := [s1 f.a], sd := [f.d.toNat] }
  | .chkset f | .chksetRestore f => { Opnds.none with ss := [s1 f.a] }
  | _ => Opnds.none

/-! ### Latency classes (R66) -/

/-- The latency class of an instruction (R66). -/
inductive Latency where
  | fixed (l : Nat)
  | unslotted
  | variable
  deriving DecidableEq, Repr

/-- The opcode of an instruction, if it has words. -/
def opcodeOf (i : Instr) : Option Nat := (encode i).map (fun w => (opOf w.1).toNat)

/-- The latency class, from the table of R66 by opcode and form. -/
def latency (i : Instr) : Latency :=
  match i with
  | .nop | .bra _ _ | .retScalar _ | .retVector _ | .loop _ | .endl | .wbase _ | .exit | .trap _ | .pref _
  | .prefExtended _ _ | .binit _ | .binitLiteral _ _ | .barv _ | .bexp _ | .bexpLiteral _ _ | .reggive _
  | .reggiveLiteral _ _ => .unslotted
  | .call _ _ => .fixed 2
  | .imulVector _ _ | .imulhVector _ _ | .imad _ _ | .imulVectorImm _ _ => .fixed 5
  | .cvti _ => .fixed 6
  | .red _ | .shfl _ | .voteAll _ | .voteAny _ | .voteBallot _ | .frcp _ | .frsq _ | .fexp2 _ | .flog2 _ => .fixed 8
  | .laneid _ | .plop _ | .pmov _ | .pmovNz _ | .pmovBit _ => .fixed 3
  | .cvt _ _ | .pack _ _ | .unpack _ _ | .hadd2 _ _ | .hmul2 _ _ | .hfma2 _ _ => .fixed 6
  | _ =>
    match opcodeOf i with
    | none => .variable
    | some o =>
      if 0x18 ≤ o ∧ o ≤ 0x2B then .fixed 2
      else if 0x2C ≤ o ∧ o ≤ 0x47 then .fixed 3
      else if 0x48 ≤ o ∧ o ≤ 0x5B then .fixed 5
      else .variable

/-- L of a fixed-latency instruction; MACZ, the one variable-latency vector instruction, completes within 4 ac (R208). -/
def fixedL (i : Instr) : Nat :=
  match latency i with
  | .fixed l => l
  | _ => 4

/-- Whether an instruction's latency is fixed, as uniform form requires (R93). -/
def isFixed (i : Instr) : Bool :=
  match latency i with
  | .fixed _ => true
  | _ => false

/-- Whether the split may hold threads of other groups (R84). -/
def admitsForeign (i : Instr) : Bool :=
  match opcodeOf i with
  | none => false
  | some o => (decide (0x2C ≤ o) && decide (o ≤ 0x5F)) || (decide (0x68 ≤ o) && decide (o ≤ 0x6B)) || o = 1

/-- Whether the opcode is one of the memory instructions 0x68 to 0x73 (R86, R186). -/
def isMemory (i : Instr) : Bool :=
  match opcodeOf i with
  | none => false
  | some o => decide (0x68 ≤ o) && decide (o ≤ 0x73)

/-- Whether an acquire that is still pending holds the instruction back: the memory instructions, and the accesses to system
registers, which are loads and stores (R181, R231, R293). -/
def afterAcquire (i : Instr) : Bool :=
  match i with
  | .srdSys _ _ | .srdSysB64 _ _ | .swrSys _ _ | .swrSysB64 _ _ => true
  | _ => isMemory i

/-- Whether rotated checking runs the instruction twice: opcodes 0x2C to 0x67, and MACZ (R311). -/
def isChecked (i : Instr) : Bool :=
  match i with
  | .macz _ => true
  | _ =>
    match opcodeOf i with
    | none => false
    | some o => decide (0x2C ≤ o) && decide (o ≤ 0x67)

/-! ### MODCOMBO (R78) -/

/-- Whether a vector register group runs from windowed names into the globals, or past g15. -/
def groupWraps (f n : Nat) : Bool :=
  if f < 112 then decide (f + n > 112) else decide (f + n > 128)

/-- Whether a predicate field has bits [6:3] set. -/
def predHigh (f : BitVec 7) : Bool := decide (f.toNat ≥ 8)

/-- Whether a field that names a pair is odd. -/
def oddPair (f : BitVec 7) : Bool := f.getLsbD 0

/-- LA or LB on operands of a TR word that are not vector sources: `a` and `b` say whether A and B are. -/
def lastBits (f : TR) (a b : Bool) : Bool := (f.la && !a) || (f.lb && !b)

/-- Conversions that are exact for every input (R113, R139), by format codes of R138. -/
def exactCvt (s d : Nat) : Bool :=
  s = d ||
  match d with
  | 0 => decide (s ≤ 7) || decide (10 ≤ s)
  | 1 => s = 3 || s = 4 || s = 5 || s = 7 || s = 12 || s = 13
  | 2 => s = 3 || s = 4 || s = 5 || s = 12 || s = 13
  | 3 => s = 5
  | 4 => s = 5
  | _ => false

/-- Combinations of an extension word with the fields of an ME word. -/
def comboExt (f : ME) (e : Word) (load : Bool) : Bool :=
  (f.mode && decide (f.off ≠ 0)) || (load && fld e 3 2 = 2) || (!load && fld e 3 2 = 1) ||
    (fld e 3 2 ≠ 0 && fld e 0 3 = 0)

/-- A literal stands in place of a nonzero field. -/
def litOver (l : Option Word) (nonzero : Bool) : Bool := l.isSome && nonzero

/-- Registers of an A or B fragment of a format (R203). -/
def fragRegs (fmt : Nat) : Nat := if fmt = 6 then 12 else 8

/-- The combinations of an MMA, MMAG or MMAB that have no meaning, but for the A group of an MMA: a byte select without
scales, LB or an odd field on a B that is no register group, and the groups of D, C, B and the scale registers. -/
def comboMma (f : TR) (e : Word) : Bool :=
  (decide (fld e 4 3 ≤ 1) && fld e 21 4 ≠ 0) || (f.lb && fld e 25 2 ≠ 0) || (fld e 25 2 = 2 && oddPair f.b) ||
    groupWraps f.d.toNat 32 || groupWraps (fld e 7 7) 32 || (fld e 25 2 = 0 && groupWraps f.b.toNat (fragRegs (fld e 4 3))) ||
    (e.getLsbD 27 && decide (fld e 4 3 ≥ 2) && groupWraps (fld e 14 7) 2)

/-- The combinations of R78 that an instruction's own fields make.
DEDUCED, log entry 12. -/
def combo : Instr → Bool
  | .iaddScalar f l | .isubScalar f l =>
    lastBits f false false || litOver l (decide (f.b ≠ 0)) ||
      (f.m = 2#2 && (oddPair f.a || oddPair f.d || (l.isNone && oddPair f.b)))
  | .imulScalar f l | .imulhScalar f l | .iminScalar f l | .imaxScalar f l =>
    lastBits f false false || litOver l (decide (f.b ≠ 0))
  | .andScalar f l | .orScalar f l | .xorScalar f l | .shlScalar f l | .shrScalar f l =>
    lastBits f false false || litOver l (decide (f.b ≠ 0)) || f.m.getLsbD 0
  | .bitsScalar f => lastBits f false false
  | .movScalar f => lastBits f false false || (f.m = 1#2 && (oddPair f.a || oddPair f.d))
  | .iaddScalarImm f l | .andScalarImm f l | .orScalarImm f l | .xorScalarImm f l =>
    f.la || litOver l (decide (f.imm ≠ 0))
  | .shlScalarImm f | .shrScalarImm f | .iset f => f.la
  | .movScalarImm f l | .movVectorImm f l => litOver l (decide (f.imm ≠ 0))
  | .iaddVector f l | .isubVector f l | .imulVector f l | .imulhVector f l | .imad f l =>
    lastBits f true l.isNone || litOver l (decide (f.b ≠ 0))
  | .andVector f l | .orVector f l | .xorVector f l | .shlVector f l | .shrVector f l | .iminVector f l
  | .imaxVector f l | .icmp f l =>
    lastBits f true l.isNone || litOver l (decide (f.b ≠ 0)) || f.m.getLsbD 0
  | .ineg f | .cvti f | .bitsVector f | .movVector f => lastBits f true false
  | .iaddVectorImm f l | .isubVectorImm f l | .imulVectorImm f l | .andVectorImm f l | .orVectorImm f l
  | .xorVectorImm f l | .icmpImm f l => litOver l (decide (f.imm ≠ 0))
  | .movVectorBroadcast f => lastBits f false false
  | .movVectorB64 f => lastBits f false false || oddPair f.a || groupWraps f.d.toNat 2
  | .fadd f l | .fsub f l | .fmul f l | .ffma f l | .fmin f l | .fmax f l | .fcmp f l | .fscale f l
  | .hadd2 f l | .hmul2 f l | .hfma2 f l => lastBits f true l.isNone || litOver l (decide (f.b ≠ 0))
  | .fneg f | .fclass f | .frcp f | .frsq f | .fexp2 f | .flog2 f => lastBits f true false
  | .cvt _ e => fld e 8 3 ≠ 0 && exactCvt (fld e 0 4) (fld e 4 4)
  | .pack f e => (fld e 8 3 ≠ 0 && exactCvt (fld e 0 4) (fld e 4 4)) ||
      groupWraps f.a.toNat (packCount (fld e 4 4)) || groupWraps f.d.toNat (packRegs (fld e 4 4))
  | .unpack f e => fld e 8 3 ≠ 0 || groupWraps f.a.toNat (packRegs (fld e 0 4)) ||
      groupWraps f.d.toNat (packCount (fld e 0 4))
  | .laneid f => lastBits f false false
  | .shfl _ => false
  | .voteAll f | .voteAny f => lastBits f false false || predHigh f.a || predHigh f.d
  | .voteBallot f => lastBits f false false || predHigh f.a
  | .red f => lastBits f true false
  | .vreds _ => false
  | .sredw f => lastBits f false false || oddPair f.d
  | .plop f => lastBits f false false || predHigh f.a || predHigh f.b || predHigh f.d
  | .pmov f => lastBits f false false || predHigh f.a || predHigh f.d
  | .pmovNz f | .pmovBit f => lastBits f false false || predHigh f.d
  | .bra f l => litOver l (decide (f.off ≠ 0))
  | .call f l => oddPair f.d || litOver l (decide (f.imm ≠ 0))
  | .retScalar f => lastBits f false false || oddPair f.a
  | .retVector f => lastBits f true false || groupWraps f.a.toNat 2
  | .ld f | .ldws f => (f.la && f.mode) || oddPair f.a || (f.size = 3#2 && groupWraps f.d.toNat 2)
  | .st f => oddPair f.a || (f.size = 3#2 && groupWraps f.d.toNat 2)
  | .lds f | .sts f => f.size = 3#2 && groupWraps f.d.toNat 2
  | .ldc f => f.la || oddPair f.a || (f.size = 3#2 && oddPair f.d)
  | .pref f => (f.la && f.mode) || oddPair f.a
  | .ldExtended f e | .ldwsExtended f e =>
    (f.la && f.mode) || oddPair f.a || (f.size = 3#2 && groupWraps f.d.toNat 2) || comboExt f e true
  | .stExtended f e => oddPair f.a || (f.size = 3#2 && groupWraps f.d.toNat 2) || comboExt f e false
  | .ldsExtended f e => (f.size = 3#2 && groupWraps f.d.toNat 2) || comboExt f e true
  | .stsExtended f e => (f.size = 3#2 && groupWraps f.d.toNat 2) || comboExt f e false
  | .ldcExtended f e => f.la || oddPair f.a || (f.size = 3#2 && oddPair f.d) || comboExt f e true
  | .prefExtended f _ => (f.la && f.mode) || oddPair f.a || (f.mode && decide (f.off ≠ 0))
  | .ldsp f _ => oddPair f.a
  | .atom f e => oddPair f.a || groupWraps f.d.toNat (atomData f e).length
  | .atoms f e => f.lb || groupWraps f.d.toNat (atomData f e).length
  | .fence f => !f.b.getLsbD 3 && !f.b.getLsbD 4
  | .binit f => f.la
  | .binitLiteral f _ => f.la || decide (f.imm ≠ 0)
  | .barv f | .bwait f | .bexp f => lastBits f false false
  | .bexpLiteral f _ => lastBits f false false || decide (f.b ≠ 0)
  | .btest f => lastBits f false false || predHigh f.d
  | .mbw f => f.lb || (f.d.getLsbD 0 && groupWraps f.a.toNat 2)
  | .mbr f | .mbp f => lastBits f false false || (f.a.getLsbD 0 && oddPair f.d)
  | .cpsub f _ => oddPair f.a
  | .cpwpRaw f _ => oddPair f.d
  | .macz f => groupWraps f.d.toNat 32
  | .mma f e => comboMma f e || groupWraps f.a.toNat (fragRegs (fld e 4 3))
  | .mmag f e | .mmab f e => comboMma f e
  | .mdrn f e => groupWraps f.a.toNat 32 ||
      (decide (f.m ≠ 0) && groupWraps f.d.toNat (if fld e 4 3 < 2 then 16 else 8))
  | .tdef f => lastBits f false false || oddPair f.b
  | .tqry f | .binrun f | .wakeScalar f | .twakeq f _ | .tapply f _ => lastBits f false false
  | .wakeVector f => lastBits f false true
  | .susp f => lastBits f false false || predHigh f.d
  | .pkrdRec f _ | .pkrdReg f _ | .pkrdRpl f _ | .pkwrRec f _ | .pkwrReg f _ | .pkwrRpl f _ => oddPair f.a
  | .pkres f | .pkrty f | .pkkil f => oddPair f.a
  | .pkdir f e => oddPair f.a || e.getLsbD 0
  | .srdSysB64 f _ | .swrSysB64 f _ | .rdid f | .rdtime f => oddPair f.d
  | .pstop f _ | .pmset f => oddPair f.a
  | _ => false

/-- The slot number of a PC (R62). -/
def slotNo (pc : Wide) : Int := 3 * (pc.toNat / 16 : Nat) + (pc.toNat % 16 / 4 : Nat) - 1
/-- The PC of a slot number (R62). -/
def pcOfSlot (n : Int) : Wide := BitVec.ofInt 64 (16 * (n / 3) + 4 * (n % 3 + 1))
/-- The PC after an instruction of `n` slots (R61). -/
def nextPc (pc : Wide) (n : Nat) : Wide := pcOfSlot (slotNo pc + n)

/-- A literal stands in place of a nonzero B of INEG, BITS or CVTI, whose decoding leaves the literal in that field (R75,
R78, R131). -/
def comboLit (i : Instr) (is : Issue) : Bool :=
  match i with
  | .bitsScalar _ | .ineg _ | .bitsVector _ | .cvti _ => is.next = nextPc is.pc 2 && decide ((trOf is.word).b ≠ 0)
  | _ => false

/-- MODCOMBO of an issue (R78): the second slot's control field sets it whatever the guard, the other combinations when
a guard is true. -/
def comboNow (i : Instr) (is : Issue) : Bool :=
  is.secondCtl ||
    (is.members.any (fun m => decide (m.act ≠ 0)) &&
      (combo i || comboLit i is || (latency i = .variable && decide (is.sbset = 0))))

/-- Sets MODCOMBO in every group with a thread in the split where R78 says so. -/
def State.modCombo (s : State) (i : Instr) (is : Issue) : State :=
  if comboNow i is then foldS is.members s (fun s m => s.warn m.gid 1) else s

end Sys2Proof.Machine
end

