-- ==== Sys2Proof/Machine/Exec.lean ====
section
/-! DEFINITION. What every issued instruction does before and around its own effect: MODCOMBO (R78), STALLCHK (R67),
reads and their STALE, STALEREAD and POISON (R95, R308), rotated checking (R311), the pool (R96 to R98), pending
fixed-latency results (R66, R91) and their landing. -/
namespace Sys2Proof.Machine

/-! ### Early reads (R67) -/

/-- Whether a pending result's destination is among the names, scalars and predicates of a list. -/
def Dest.among (d : Dest) (names scal preds : List Nat) : Bool :=
  match d with
  | .vec n => names.contains n
  | .scal i => scal.contains i
  | .pred p => preds.contains p

/-- The pending fixed-latency results of a group. -/
def State.pendsOf (s : State) (g : Nat) : List (Nat × Pend) := s.flight.pends.filter (fun e => e.2.gid = g)

/-- The lanes that have a pending result among some destinations; a scalar concerns every lane. -/
def State.pendLanes (s : State) (g : Nat) (names scal preds : List Nat) : Mask :=
  (s.pendsOf g).foldl (fun m e =>
    if e.2.dest.among names scal preds then
      (match e.2.dest with
        | .scal _ => allLanes
        | _ => m ||| e.2.lanes)
    else m) 0

/-- The names that a member reads. -/
def State.readNames (s : State) (g : Nat) (wb : BitVec 9) (o : Opnds) : List Nat :=
  o.vs.flatMap (fun v => v.fields.map (s.fieldName g wb))
/-- The names that a member writes. -/
def State.writeNames (s : State) (g : Nat) (wb : BitVec 9) (o : Opnds) : List Nat := o.vd.map (s.fieldName g wb)
/-- The scalars that an instruction reads. -/
def Opnds.scalReads (o : Opnds) : List Nat :=
  o.ss.flatMap (fun x => if x.wide then [x.reg, x.reg + 1] else [x.reg])
/-- The predicate that a guard reads, if it reads one. -/
def guardPred (i : Issue) : List Nat := if fld i.guardField 0 3 = 7 then [] else [fld i.guardField 0 3]

/-! ### OPVAL of a lane (R269) -/

/-- The value of a vector source operand in a lane. -/
def State.srcVal (s : State) (g : Nat) (wb : BitVec 9) (l : Nat) (v : VSrc) : Wide :=
  let x (k : Nat) : Word := match v.fields[k]? with
    | some f => (s.readSrc g (s.fieldName g wb f) l).val
    | none => 0
  if v.wide then wideOf (x 1) (x 0) else wideOf 0 (x 0)

/-- OPVAL of a lane of a group at the issuing instruction. -/
def State.opval (s : State) (is : Issue) (o : Opnds) (g l : Nat) : List Wide :=
  let v (k : Nat) : Wide := match o.vs[k]? with
    | some x => s.srcVal g is.wb l x
    | none => 0
  let sc : Wide := match o.ss with
    | [] => 0
    | x :: _ => if x.wide then s.pair g x.reg else wideOf 0 (s.scalar g x.reg)
  [v 0, v 1, sc, is.opWords]

/-- The lowest lane of a mask. -/
def lowLane (m : Mask) : Nat := (lanesOf m).headD 0

/-- Lanes of a member park at the issuing instruction with its OPVAL. ADDR is 0, as the fault has no address (DEDUCED, log
entry 18). -/
def State.parkMember (s : State) (is : Issue) (o : Opnds) (g : Nat) (m : Mask) (cause : Cause) : State :=
  s.parkLanes g m cause (s.atIssue is g (s.readNames g is.wb o)) 0 (s.opval is o g (lowLane m)) (fun _ => none)

/-- Removes lanes from a member of the split being issued. -/
def Issue.drop (i : Issue) (g : Nat) (m : Mask) : Issue :=
  { i with members := i.members.map (fun x =>
      if x.gid = g then { x with lanes := x.lanes &&& ~~~m, act := x.act &&& ~~~m } else x) }

/-- Parks lanes of a member and removes them from the split. -/
def State.parkOut (s : State) (o : Opnds) (g : Nat) (m : Mask) (cause : Cause) : State :=
  if m = 0 then s
  else { s.parkMember s.iss o g m cause with issue := some (s.iss.drop g m) }

/-! ### What comes before the effect -/

/-- The lanes of a name that are live. -/
def State.nameLive (s : State) (g name : Nat) : Mask :=
  if shadowName ≤ name then allLanes
  else match tget (s.group g).map name with
    | some e => e.mask
    | none => 0

/-- The live lanes of a name that are poisoned. -/
def State.namePoison (s : State) (g name : Nat) : Mask :=
  if shadowName ≤ name then 0
  else match tget (s.group g).map name with
    | some e => e.mask &&& (s.core (s.coreOf g)).mapPoison e.map
    | none => 0

/-- The active lanes of a member whose replay takes its operands from the record, which read no register (R171). -/
def State.replayLanes (s : State) (m : Member) : Mask :=
  maskOf ((lanesOf m.act).filter (fun l => match ((s.group m.gid).thread l).replay with
    | some r => r.go && !r.fresh
    | none => false))

/-- STALLCHK of one member (R67). -/
def State.checkStall (s : State) (o : Opnds) (m : Member) : State :=
  if ¬ s.sbchk m.gid then s
  else
    let is := s.iss
    let gl := s.pendLanes m.gid [] [] (guardPred is) &&& m.lanes
    let rd := (s.pendLanes m.gid (s.readNames m.gid is.wb o) o.scalReads o.ps &&& m.act) ||| gl
    let wr := s.pendLanes m.gid (s.writeNames m.gid is.wb o) o.sd o.pd &&& m.act &&& ~~~rd
    (s.parkOut o m.gid rd (kStallchk, 1)).parkOut o m.gid wr (kStallchk, 2)

/-- A member of the split by its group. -/
def Issue.member (i : Issue) (g : Nat) : Member := (i.members.find? (fun m => m.gid = g)).getD ⟨g, 0, 0⟩

/-- The active lanes whose replay reads what their sources held when they parked, and meets a lane of them that a test
picks. -/
def State.replayReads (s : State) (o : Opnds) (m : Member) (p : LaneRead → Bool) : Mask :=
  maskOf ((lanesOf (s.replayLanes m)).filter (fun l =>
    (s.readNames m.gid s.iss.wb o).any (fun n => p (s.readSrc m.gid n l))))

/-- Dead lanes of a member's vector sources (R95). `skip` lanes read no register. -/
def State.deadLanes (s : State) (o : Opnds) (m : Member) (skip : Mask) : Mask :=
  let live := (s.readNames m.gid s.iss.wb o).foldl (fun a n => a &&& s.nameLive m.gid n) allLanes
  m.act &&& ~~~skip &&& ((~~~live &&& ~~~s.replayLanes m) ||| s.replayReads o m (fun r => !r.live))

/-- Poisoned lanes of a member's vector sources (R308). -/
def State.badLanes (s : State) (o : Opnds) (m : Member) (skip : Mask) : Mask :=
  let bad := (s.readNames m.gid s.iss.wb o).foldl (fun a n => a ||| s.namePoison m.gid n) 0
  m.act &&& ~~~skip &&& ((bad &&& ~~~s.replayLanes m) ||| s.replayReads o m (fun r => r.live && r.poison))

/-! ### The end of a set operation (R200, R214) -/

/-- An operation leaves the engine and its queue. -/
def State.leaveEngine (s : State) (id : Nat) : State :=
  { s with parts := s.parts.map (fun (e : Nat × Part) => (e.1, { e.2 with
      queue := e.2.queue.filter (· ≠ id)
      engine := e.2.engine.filter (fun x => x.1 ≠ id) })) }

/-- Registers taken for an operation's destinations go back. -/
def State.dropMatResv (s : State) (op : MatOp) : State :=
  foldS (op.members.zip op.resv) s (fun s x => s.dropResv x.1.gid x.2)

/-- Changes one operation. -/
def State.modMat (s : State) (id : Nat) (f : MatOp → MatOp) : State := { s with mats := tmod s.mats id f }

/-- The releases of a group's names that waited for an engine's read, and wait for none any more, take effect (R210). -/
def State.settleLeaving (s : State) (g : Nat) : State :=
  let due := (s.group g).leaving.filter (fun e => match tget (s.group g).map e.1 with
    | some x => !s.engineHolds g x.map
    | none => true)
  if due.isEmpty then s
  else foldS due (s.modGroup g (fun G => { G with leaving := G.leaving.filter (fun e => !due.any (fun d => decide (d.1 = e.1))) }))
    (fun s e => s.releaseName g e.1 e.2)

/-- The releases of an operation's operands wait no more: its pending reads and its claims end, and what waited for them is
released (R91, R210). -/
def State.endReads (s : State) (id : Nat) : State :=
  match tget s.mats id with
  | none => s
  | some op =>
    let s := s.modMat id (fun op => { op with
      members := op.members.map (fun (m : MatMem) => { m with holds := [], claims := [], marks := [] }) })
    let s := foldS op.members s (fun s m =>
      let core := s.coreOf m.gid
      foldS m.claims (foldS m.holds s (fun s x => s.freeMapping core m.gid x)) (fun s x => s.unclaimMapping core x))
    foldS op.members s (fun s m => s.settleLeaving m.gid)

/-- Whether a thread's MWAIT on a register may return: no operation of the register that holds a sign of its group is
incomplete (R200). -/
def State.mwaitOpen (s : State) (g k : Nat) : Bool :=
  !(s.mats.any (fun e => decide (e.2.block = (s.group g).id.block) && decide (e.2.k = k) &&
    e.2.members.any (fun m => decide (m.gid = g) && decide (m.signed ≠ 0))))

/-- An operation is over: its slots clear, the MWAITs that awaited it go on, its pending reads end, and the later
operations of its register proceed (R200, R214). One that is abandoned before the engine's read leaves the names with a
last-use bit mapped. DESIGN CHOICE, log entry 42. -/
def State.matOver (s : State) (id : Nat) : State :=
  match tget s.mats id with
  | none => s
  | some op =>
    let s := ((s.leaveEngine id).dropMatResv op).endReads id
    let s := foldS op.members s (fun s m => foldS m.slots s (fun s k => s.clearSlot m.gid k))
    let s := { s with mats := tdel s.mats id }
    let done := (s.flight.waits.filter (fun e => match e.2.kind with
      | .mwait k => s.mwaitOpen e.2.gid k
      | _ => false)).map Prod.fst
    foldS done s State.endWait

/-- Whether a record's origin is a group's: its lanes, its spill area, a set operation that it is a member of, or withdrawn
claims of which the first is its own. -/
def State.originOf (s : State) (o : Origin) (g : Nat) : Bool :=
  match o with
  | .lanes g' _ | .spill g' => decide (g' = g)
  | .tile id => (tget s.mats id).any (fun op => op.members.any (fun m => decide (m.gid = g)))
  | .claims _ ws => ws.head?.any (fun w => decide (w.gid = g))
  | _ => false

/-- The snapshot map of a containment region comes back, and registers allocated since are freed (R282). -/
def State.restoreSnapshot (s : State) (g : Nat) (c : Contain) : State :=
  let core := s.coreOf g
  let snapRegs := c.map.filterMap (fun e => match e.2.map with
    | .phys p => some p
    | _ => none)
  let now := (s.group g).map
  let s := s.modGroup g (fun G => { G with map := c.map })
  let s := foldS now s (fun (s : State) (e : Nat × MapEntry) => match e.2.map with
    | .phys p => if snapRegs.contains p then s else s.dropPhys core p
    | .unif u => if c.map.any (fun x => decide (x.2.map = .unif u)) then s else s.dropMapping core (.unif u)
    | .spilled _ _ _ _ => s)
  s.modCore core (fun k => { k with pool := k.pool.map (fun (e : Nat × PReg) =>
    if snapRegs.contains e.1 then (e.1, { e.2 with mapped := true, pinned := false }) else e) })

/-- The vector results that a group's instructions since a place in the issue sequence still have to land are discarded,
and the held stores; scalar and predicate results land (R282). -/
def State.discardResults (s : State) (g : Nat) (c : Contain) : State :=
  let core := s.coreOf g
  let mine (q : Nat) : Bool := decide (q ≥ c.openSeq)
  let heldOps := s.flight.ops.filter (fun (e : Nat × MemOp) => e.2.gid = g && c.stores.contains e.1)
  let late := s.flight.pends.filter (fun (e : Nat × Pend) => e.2.gid = g && mine e.2.seq)
  let loads := s.flight.ops.filter (fun (e : Nat × MemOp) => e.2.gid = g && mine e.2.seq)
  let s := { s with
    flight := { s.flight with
      ops := (s.flight.ops.filter (fun (e : Nat × MemOp) => !(e.2.gid = g && c.stores.contains e.1))).map
        (fun (e : Nat × MemOp) => if e.2.gid = g ∧ mine e.2.seq then (e.1, { e.2 with dests := [], resv := [] }) else e)
      pends := s.flight.pends.map (fun (e : Nat × Pend) => match e.2.dest with
        | .vec _ => if e.2.gid = g ∧ mine e.2.seq then (e.1, { e.2 with lanes := 0, reserved := none }) else e
        | _ => e) }
    mats := s.mats.map (fun (e : Nat × MatOp) => (e.1, { e.2 with
      members := e.2.members.map (fun (m : MatMem) => if m.gid = g ∧ mine m.seq.1 then { m with dead := true } else m) })) }
  let s := foldS heldOps s (fun (s : State) (e : Nat × MemOp) => s.clearSlot g e.2.slot)
  let s := foldS loads s (fun (s : State) (e : Nat × MemOp) => s.dropResv g e.2.resv)
  foldS late s (fun (s : State) (e : Nat × Pend) => match e.2.dest with
    | .vec _ => s.unreserve core e.2.reserved
    | _ => s)

/-- The lanes of a withdrawn claim that a record still holds. -/
def State.claimLanes (s : State) (id : Nat) (w : Wait) : Mask :=
  maskOf ((lanesOf w.lanes).filter (fun l =>
    let t := (s.group w.gid).thread l
    decide (t.st = .parked) && t.replay.any (fun x => decide (x.record = id))))

/-- A withdrawn claim enters its block's queue again, and its threads wait (R241). -/
def State.claimAgain (s : State) (id b : Nat) (w : Wait) : State :=
  let m := s.claimLanes id w
  if m = 0 then s
  else
    let (n, s) := s.freshId
    let s := s.modGroup w.gid (fun G => G.modThreads m (fun _ t =>
      { t with st := .waiting, replay := none, pc := w.here.next }))
    let s := { s with flight := { s.flight with waits := tput s.flight.waits n { w with lanes := m } } }
    let s := s.markSlot w.gid w.slot ⟨w.seq, false, false, none, [], [], [], 1⟩
    s.modBlock b (fun B => { B with claims := B.claims ++ [.thread n] })

/-- The unserved records that a group has raised since its region opened are killed, and their set operations abandoned
(R282). The claims of other groups that such a record has withdrawn enter the queue again. DESIGN CHOICE, log entry 54. -/
def State.killSince (s : State) (g : Nat) (c : Contain) : State :=
  let hit := s.faults.recs.filter (fun e => decide (e.2.seq ≥ c.openSeq) && decide (e.2.state ≤ 1) && s.originOf e.2.origin g)
  let s := { s with faults := { s.faults with recs := s.faults.recs.map (fun (e : Nat × FRec) =>
    if hit.any (fun x => decide (x.1 = e.1)) then (e.1, { e.2 with state := 3 }) else e) } }
  foldS hit s (fun s e => match e.2.origin with
    | .tile id => s.matOver id
    | .claims b ws => foldS (ws.filter (fun w => decide (w.gid ≠ g))) s (fun s w => s.claimAgain e.1 b w)
    | _ => s)

/-- A containment region unwinds (R282): the snapshot map comes back, registers allocated since are freed, held stores
and the group's records since are gone, every occupied lane goes to h, and the status is written. -/
def State.unwind (s : State) (g code : Nat) : State :=
  match (s.group g).contain with
  | none => s
  | some c =>
    let mine := s.flight.waits.filter (fun (e : Nat × Wait) => decide (e.2.gid = g) && decide (e.2.lanes ≠ 0))
    let s := (((s.restoreSnapshot g c).discardResults g c).killSince g c).endHolds g allLanes
    let s := { s with flight := { s.flight with
      waits := s.flight.waits.filter (fun (e : Nat × Wait) => !(decide (e.2.gid = g) && decide (e.2.lanes ≠ 0))) } }
    let s := foldS mine s (fun (s : State) (e : Nat × Wait) => s.clearSlot g e.2.slot)
    let s := s.modGroup g (fun G =>
      { (G.modThreads G.occupied (fun l t =>
          let f := c.frames.getD l (0, [])
          { t with st := .live, pc := c.handler, wb := f.1, stack := f.2, replay := none, stash := [], ready := s.clk.ac + 1 })) with
        contain := none
        fifo := G.fifo.filter (fun e => !c.stores.contains e.op) })
    s.setScalar g c.status (BitVec.ofNat 32 (code + 256 * (c.stores.length % 256)))

/-- Poisoned lanes park, or unwind an open containment region (R169, R282). -/
def State.consumePoison (s : State) (o : Opnds) (g : Nat) (m : Mask) : State :=
  if m = 0 then s
  else if (s.group g).contain.isSome then
    { s.unwind g 1 with issue := some (s.iss.drop g allLanes) }
  else s.parkOut o g m (kPoison, 1)

/-- Vector and scalar reads of a split: STALEREAD parks the whole split, STALE is a warning, poisoned lanes park, and a
poisoned scalar of any member's group parks every active thread of the split (R95, R308). `mem` says that replayed lanes read no register. -/
def State.checkReads (s : State) (o : Opnds) (mem : Bool) : State :=
  let skip (m : Member) : Mask := if mem then s.replayLanes m else 0
  let stale := s.iss.members.any (fun m => s.stalechk m.gid && decide (s.deadLanes o m (skip m) ≠ 0))
  let whole := s.iss.members.any (fun m => s.scalarsPoisoned m.gid o.scalReads && decide (m.act ≠ 0))
  if stale then foldS s.iss.members s (fun s m => s.parkOut o m.gid m.act (kStaleread, 1))
  else
    foldS s.iss.members s (fun s m =>
      let s := if s.deadLanes o m (skip m) = 0 then s else s.warn m.gid 0
      s.consumePoison o m.gid (if whole then m.act else s.badLanes o m (skip m)))

/-- Whether a handler's instruction writes a non-shadow name or scalar (R301). -/
def State.badHandlerWrite (s : State) (o : Opnds) : Bool :=
  s.inHandler s.iss.leader.gid && (o.vd.any (fun f => decide (f ≥ 16)) || o.sd.any (fun r => decide (r ≥ 8)))

/-- What an issue does before its reads: MODCOMBO, a handler's forbidden write, early reads. -/
def State.beginStall (s : State) (i : Instr) (o : Opnds) : State :=
  let s := s.modCombo i s.iss
  if s.badHandlerWrite o then
    { s.abandonHandler s.iss.leader.gid with issue := some (s.iss.drop s.iss.leader.gid allLanes) }
  else foldS s.iss.members s (fun s m => s.checkStall o (s.iss.member m.gid))

/-- Everything that an issue does before the instruction's own effect. -/
def State.begin_ (s : State) (i : Instr) (o : Opnds) : State := (s.beginStall i o).checkReads o (isMemory i)

/-! ### The pool at issue (R94, R96, R98) -/

/-- What the pool says to a write that needs `n` more registers. -/
inductive PoolSays where
  | ok | wait | fault
  deriving DecidableEq, Repr

/-- Whether a request is another's than that of an asker of a group. -/
def PoolReq.isOther (q : PoolReq) (g : Nat) (who : PoolFor) : Bool := !(decide (q.gid = g) && decide (q.asker = who))

/-- The allotment first (R96), then the pool (R97, R98): what a group has reserved for it is given although others wait. -/
def State.poolSays (s : State) (g n : Nat) (who : PoolFor) : PoolSays :=
  let core := s.coreOf g
  let c := s.core core
  if n = 0 then .ok
  else if s.regsHeld g + n > (s.group g).regs.allot then (if s.awaiting core g then .wait else .fault)
  else
    let others := (c.pwait.filter (fun q => q.isOther g who && q.granted)).map (·.count)
    let queued := c.pwait.any (fun q => q.isOther g who && !q.own)
    let mine := c.pwait.any (fun q => !q.isOther g who && q.granted)
    if s.canTake g (n + others.sum) ∧ (mine ∨ ¬ queued ∨ c.held g + n ≤ (s.group g).run.place.floor) then .ok else .wait

/-- The split has not issued: the partition's and the groups' accounts stand as before the attempt. -/
def State.unissue (s : State) : State :=
  let is := s.iss
  let s := s.modPart is.part (fun P => { P with
    last := is.before.last, owed := is.before.owed, hold := s.clk.ac, issuers := [] })
  let s := foldS is.before.groups s (fun s e => s.modGroup e.1 (fun G => { G with
    run := { G.run with served := e.2.1 }
    regs := { G.regs with issued := e.2.2.1 }
    handler := G.handler.map (fun h => { h with issues := e.2.2.2 }) }))
  { s with issue := none }

/-- The split waits for the pool: its request stands on the core's waiting list (R98), or it waits for a release of its
own (R96); nothing else happens. -/
def State.poolWait (s : State) (is : Issue) (g n : Nat) : State :=
  let core := s.coreOf g
  let who := PoolFor.split is.pc is.wb
  let own := decide (s.regsHeld g + n > (s.group g).regs.allot)
  s.unissue.modCore core (fun c => { c with
    pwait := c.pwait.filter (fun q => q.isOther g who) ++ [⟨g, n, who, own, false⟩] })

/-- The request of a group's split leaves the waiting list once it has issued. -/
def State.poolDone (s : State) (g : Nat) : State :=
  let is := s.iss
  s.modCore (s.coreOf g) (fun c => { c with pwait := c.pwait.filter (fun q => q.isOther g (.split is.pc is.wb)) })

/-- Registers are set aside for the destinations that will need one. -/
def State.reserveAll (s : State) (g : Nat) (needs : List Bool) : List (Option Nat) × State :=
  needs.foldl (fun (acc : List (Option Nat) × State) b =>
    if b then
      let (p, s) := acc.2.reserve g
      (acc.1 ++ [p], s)
    else (acc.1 ++ [none], acc.2)) ([], s)

/-- The first of some members that must wait for the pool, with the count that it asks for, when each in turn has what it
asks for set aside; `f` gives the state in which a member asks, and which of its destinations need a register. -/
def State.firstWait (who : PoolFor) (f : State → Member → State × List Bool) : List Member → State → Option (Nat × Nat)
  | [], _ => none
  | m :: r, s =>
    let x := f s m
    let n := (x.2.filter id).length
    match x.1.poolSays m.gid n who with
    | .wait => some (m.gid, n)
    | .fault => State.firstWait who f r s
    | .ok => State.firstWait who f r (x.1.reserveAll m.gid x.2).2

/-! ### Fixed-latency vector instructions -/

/-- What one lane of a vector instruction computes: destination values, predicates, exceptions. -/
structure LaneOut where
  vals : List Word
  preds : List Bool
  flags : BitVec 6
  deriving DecidableEq, Repr, Inhabited

/-- The source values of a lane, in operand order. -/
def State.laneSrcs (s : State) (g : Nat) (wb : BitVec 9) (o : Opnds) (l : Nat) : List Word :=
  o.vs.flatMap (fun v => v.fields.map (fun f => (s.readSrc g (s.fieldName g wb f) l).val))

/-- A pending result is added. -/
def State.addPend (s : State) (p : Pend) : State :=
  let (id, s) := s.freshId
  { s with flight := { s.flight with pends := tput s.flight.pends id p } }

/-- Last-use releases of a member's lanes, after the reads (R72, R92). -/
def State.releaseSrcs (s : State) (g : Nat) (wb : BitVec 9) (o : Opnds) (w : Mask) : State :=
  foldS (o.vs.filter (·.last)) s (fun s v => foldS v.fields s (fun s f =>
    let n := s.fieldName g wb f
    if shadowName ≤ n then s else s.releaseName g n w))

/-- The subcodes of ARITH that lanes raise, with their lanes (R126, R268: one record for each). -/
def trapGroups (trapen : BitVec 5) (m : Mask) (flags : Nat → BitVec 6) : List (Nat × Mask) :=
  ((List.range 32).filter (· ≠ 0)).filterMap (fun sub =>
    let ls := (lanesOf m).filter (fun l => trapSub trapen (flags l) = sub)
    if ls.isEmpty then none else some (sub, maskOf ls))

/-- How many of the comparisons of a checked piece mismatch, 2 at most: one bit of the environment's for each comparison,
the first of two where it matches (DESIGN CHOICE, log entry 25). -/
def sdcTake (sdc : Nat) : Nat := if sdc % 2 = 0 then 0 else if sdc / 2 % 2 = 0 then 1 else 2
/-- The bits that the comparisons of a piece leave. -/
def sdcRest (sdc : Nat) : Nat := if sdc % 2 = 0 then sdc / 2 else sdc / 4

/-- Whether an issue is checked: the check is in force in the group of one of its members (R303, R311). -/
def State.checkedNow (s : State) (i : Instr) (is : Issue) : Bool := isChecked i && is.members.any (fun m => s.rchk m.gid)

/-- Whether a checked issue has results to compare: those of its active lanes (R311). -/
def State.compares (s : State) (i : Instr) (is : Issue) : Bool :=
  s.checkedNow i is && is.members.any (fun m => decide (m.act ≠ 0))

/-- The rotated check (R311, R312): how many of the comparisons mismatch, as the environment says. -/
def State.rotated (s : State) (i : Instr) (is : Issue) : Nat := if s.compares i is then sdcTake s.env.sdc else 0

/-- The partition's issue slot is held for a checked issue, and a mismatch is logged (R311, R312). -/
def State.payCheck (s : State) (i : Instr) (is : Issue) : State :=
  if ¬ s.checkedNow i is then s
  else
    let n := s.rotated i is
    let s := s.modPart is.part (fun p => { p with hold := s.clk.ac + (if n = 0 then 2 else 4) })
    let core := coreOfPart is.part
    let r : BankRec := ⟨0, bankInfo tySdc 0, BitVec.ofNat 32 (s.regionOf is.leader.gid).regionId⟩
    let s := if s.compares i is then { s with env := { s.env with sdc := sdcRest s.env.sdc } } else s
    if n = 0 then s else s.logBank (coreBank core) (n = 2) r

/-- The pending results of a member: one for each destination name, then one for each destination predicate; the
exceptions go with the first (R66, R125). -/
def vecPends (i : Instr) (o : Opnds) (out : Nat → LaneOut) (g : Nat) (good : Mask) (names : List Nat)
    (resv : List (Option Nat)) (land slot q : Nat) : List Pend :=
  let flags := (lanesOf good).foldl (fun a l => a ||| (out l).flags) 0
  let base (d : Dest) (v : Lanes) (r : Option Nat) (fl : BitVec 6) : Pend := ⟨g, d, good, v, land, slot, fl, isFixed i, r, q⟩
  names.zipIdx.map (fun e => base (.vec e.1) (lanesFn (fun l => (out l).vals.getD e.2 0)) (resv.getD e.2 none)
    (if e.2 = 0 then flags else 0)) ++
  o.pd.zipIdx.map (fun e => base (.pred e.1) (lanesFn (fun l => if (out l).preds.getD e.2 false then 1 else 0)) none
    (if e.2 = 0 && o.vd.isEmpty then flags else 0))

/-- The end of a member's issue: its results become pending, its slot is marked, and its threads go on, but for the lanes
`bad` that have parked (R66, R68, R312). -/
def State.vecCommit (s : State) (i : Instr) (o : Opnds) (out : Nat → LaneOut) (is : Issue) (m : Member) (bad : Mask)
    (names : List Nat) (resv : List (Option Nat)) : State :=
  let g := m.gid
  let good := m.act &&& ~~~bad
  let extra := if s.checkedNow i is then 1 else 0
  let slot := if isFixed i then is.sbset else varSlot is
  let (q, s) := s.freshSeq
  let s := if good = 0 then s
    else (foldS (vecPends i o out g good names resv (s.clk.ac + (fixedL i + extra)) slot q) s State.addPend).markSlot g slot
      (if isFixed i then ⟨q, false, false, none, [], [], [], 1⟩ else ⟨q, false, false, none, names, [], o.pd, 1⟩)
  (s.poolDone g).advance g (m.lanes &&& ~~~bad) is.next (s.nextReady is extra)

/-- One member of a fixed-latency vector instruction: lanes with an enabled exception park, the others' results become
pending, sources are released, the slot is marked and the threads go on (R66, R68, R72, R126, R127). -/
def State.vecMember (i : Instr) (o : Opnds) (k : Nat → Nat → List Word → LaneOut) (s : State) (m : Member) : State :=
  let is := s.iss
  let g := m.gid
  let out (l : Nat) : LaneOut := k g l (s.laneSrcs g is.wb o l)
  let traps := trapGroups (s.regionOf g).trapen m.act (fun l => (out l).flags)
  let bad := traps.foldl (fun a t => a ||| t.2) 0
  let good := m.act &&& ~~~bad
  let names := s.writeNames g is.wb o
  let s1 := s.releaseSrcs g is.wb o good
  let needs := names.zipIdx.map (fun e => s1.needsPhys g e.1 good
    (s1.takesUniform (s.coreOf g) good (lanesFn (fun l => (out l).vals.getD e.2 0)) (isFixed i)))
  match s1.poolSays g (needs.filter id).length (.split is.pc is.wb) with
  | .fault => (s.parkMember is o g m.act (kIllegal, 0x0A)).advance g (m.lanes &&& ~~~m.act) is.next
      (s.nextReady is (if s.checkedNow i is then 1 else 0))
  | _ =>
    let r := (foldS traps s1 (fun s t => s.parkMember is o g t.2 (kArith, t.1))).reserveAll g needs
    r.2.vecCommit i o out is m bad names r.1

/-- A member's sources released, and which of its destinations need a register then. -/
def State.vecAsks (i : Instr) (o : Opnds) (k : Nat → Nat → List Word → LaneOut) (s : State) (m : Member) :
    State × List Bool :=
  let is := s.iss
  let g := m.gid
  let out (l : Nat) : LaneOut := k g l (s.laneSrcs g is.wb o l)
  let s1 := s.releaseSrcs g is.wb o m.act
  (s1, (s.writeNames g is.wb o).zipIdx.map (fun e => s1.needsPhys g e.1 m.act
    (s1.takesUniform (s.coreOf g) m.act (lanesFn (fun l => (out l).vals.getD e.2 0)) (isFixed i))))

/-- A fixed-latency vector instruction whose checks have been made: `k` is what each active lane computes from its
sources. A split that must wait for the pool has not issued: the state before its checks stands. -/
def State.vecRun (i : Instr) (o : Opnds) (k : Nat → Nat → List Word → LaneOut) (s0 : State) (s : State) : State :=
  let is := s.iss
  match State.firstWait (.split is.pc is.wb) (State.vecAsks i o k) is.members s with
  | some (g, n) => s0.poolWait s0.iss g n
  | none =>
    let t := if s.rotated i is = 2 then
        foldS is.members s (fun s m => (s.parkMember is o m.gid m.act (kSdcmis, 1)).advance m.gid (m.lanes &&& ~~~m.act)
          is.next (s.nextReady is 1))
      else foldS is.members s (State.vecMember i o k)
    t.payCheck i is

/-- A fixed-latency vector instruction; `k` is given the state after the checks. -/
def State.vecOp (i : Instr) (o : Opnds) (k : State → Nat → Nat → List Word → LaneOut) (s : State) : State :=
  let b := s.begin_ i o
  s.vecRun i o (k b) b

/-! ### Fixed-latency scalar instructions -/

/-- The scalar source values, in operand order; a pair gives its low word and then its high word. -/
def State.scalSrcs (s : State) (g : Nat) (o : Opnds) : List Word := o.scalReads.map (s.scalar g)

/-- Scalar results of a fixed-latency instruction of the leader become pending, and its slot is marked. -/
def State.scalLater (s : State) (i : Instr) (o : Opnds) (vals : List Word) (flags : BitVec 6) (extra : Nat) :
    State :=
  let is := s.iss
  let m := is.leader
  let (q, s) := s.freshSeq
  let land := s.clk.ac + fixedL i + extra
  let s := foldS o.sd.zipIdx s (fun s e => s.addPend
    ⟨m.gid, .scal e.1, m.act, [vals.getD e.2 0], land, is.sbset, if e.2 = 0 then flags else 0, false, none, q⟩)
  if is.sbset = 0 then s else s.markSlot m.gid is.sbset ⟨q, false, false, none, [], [], [], 1⟩

/-- A scalar instruction: it reads its sources once and writes its destinations once when a thread is active (R103,
R128). -/
def State.scalOp (i : Instr) (o : Opnds) (k : List Word → List Word × BitVec 6) (s : State) : State :=
  let s := s.begin_ i o
  let is := s.iss
  let m := is.leader
  if m.act = 0 then s.advanceAll is 0
  else
    let r := k (s.scalSrcs m.gid o)
    (s.scalLater i o r.1 r.2 0).advanceAll is 0

/-! ### Landing (R66, R91) -/

/-- Whether a member of a set operation still has a sign to come. -/
def State.signsLeft (s : State) (m : MatMem) : Bool := decide ((s.group m.gid).occupied &&& ~~~m.signed ≠ 0)

/-- A write lands in some lanes of a name: set operations that hold a sign issued before it note it (R212). A full
redefinition leaves their operands as they were once the member's last sign has issued; a partial update may or may not be
seen, element by element, and so may any write of an accumulator or a destination, and any between the member's signs
(R210 and R212 differ there). DESIGN CHOICE, log entry 43. What is written after a last use is not released by it. -/
def State.matTouch (s : State) (g name : Nat) (w : Mask) (v : Lanes) (seq : Nat) : State :=
  if ¬ s.inMatrix g name then s
  else
    let partly : Bool := match tget (s.group g).map name with
      | some e => decide (e.mask &&& ~~~w ≠ 0)
      | none => false
    let s := s.modGroup g (fun G => { G with leaving := tmod G.leaving name (· &&& ~~~w) })
    { s with mats := s.mats.map (fun (e : Nat × MatOp) => (e.1, { e.2 with
        members := e.2.members.map (fun (m : MatMem) =>
          let m := if m.gid = g ∧ m.seq.1 < seq then { m with marks := tmod m.marks name (· &&& ~~~w) } else m
          if m.gid = g ∧ m.touch.contains name ∧ m.seq.1 < seq ∧ (partly = true ∨ (tget m.alt name).isSome = true ∨ s.signsLeft m = true) then
            let old := (tget m.alt name).getD ([], 0)
            { m with alt := tput m.alt name (mergeLanes w v old.1, old.2 ||| w) }
          else m) })) }

/-- A pending fixed-latency result lands: the vector write goes through the rename rules, a scalar or predicate is
written, exceptions reach GFLAGS, and the slot clears with the instruction's last result. Lanes whose thread has left
take nothing (R145). -/
def State.landPend (s : State) (id : Nat) : State :=
  match tget s.flight.pends id with
  | none => s
  | some p =>
    let s := { s with flight := { s.flight with pends := tdel s.flight.pends id } }
    let occ := (s.group p.gid).occupied
    let s := match p.dest with
      | .vec n => (s.matTouch p.gid n (p.lanes &&& occ) p.vals p.seq).landName p.gid n (p.lanes &&& occ) p.vals p.uniform
          p.reserved
      | .scal i => if p.lanes = 0 then s else s.landScal p.gid i (laneVal p.vals 0) p.lanes p.seq
      | .pred k => s.modGroup p.gid (fun G => G.modThreads (p.lanes &&& occ) (fun l t =>
          t.setPred k (decide (laneVal p.vals l ≠ 0))))
    let s := s.orFlags p.gid p.flags
    if s.flight.pends.any (fun e => e.2.gid = p.gid && e.2.seq = p.seq) then s else s.clearSlot p.gid p.slot

end Sys2Proof.Machine
end

