-- ==== Sys2Proof/Machine/Integer.lean ====
section
/-! DEFINITION. Integer instructions and moves, scalar and vector (R130 to R134). -/
namespace Sys2Proof.Machine

/-- What a meaning answers. -/
abbrev Res := Host.Outcome State Fault Refusal

/-! ### The operations of R130 -/

/-- M[0] of a TR form: .sat. -/
def satM (m : BitVec 2) : Bool := m.getLsbD 0
/-- M[1] of a TR form. -/
def hiM (m : BitVec 2) : Bool := m.getLsbD 1

/-- An operand of IADD, ISUB, IMUL and IMAD: unsigned under .sat.n32 only (R130). -/
def readM (m : BitVec 2) (a : Word) : Int := if m = 3#2 then a.toNat else a.toInt

/-- The result of an exact value under M: wrapped, or clamped to .i32 or .n32 (R130). -/
def satOut (m : BitVec 2) (x : Int) : Word × BitVec 6 :=
  if satM m then
    let (y, f) := if hiM m then clampN32 x else clampI32 x
    (wrap32 y, f)
  else (wrap32 x, 0)

/-- IADD. -/
def aluAdd (m : BitVec 2) (a b : Word) : Word × BitVec 6 := satOut m (readM m a + readM m b)
/-- ISUB. -/
def aluSub (m : BitVec 2) (a b : Word) : Word × BitVec 6 := satOut m (readM m a - readM m b)
/-- IMUL. -/
def aluMul (m : BitVec 2) (a b : Word) : Word × BitVec 6 := satOut m (readM m a * readM m b)
/-- IMULH: M[1] makes the operands unsigned. -/
def aluMulh (m : BitVec 2) (a b : Word) : Word × BitVec 6 :=
  (wrap32 ((if hiM m then (a.toNat : Int) * b.toNat else a.toInt * b.toInt) / 4294967296), 0)
/-- IMAD: one clamp of the exact a × b + d. -/
def aluMad (m : BitVec 2) (a b d : Word) : Word × BitVec 6 := satOut m (readM m a * readM m b + readM m d)
/-- SHL. -/
def aluShl (a b : Word) : Word := if b.toNat ≥ 32 then 0 else a <<< b.toNat
/-- SHR, arithmetic or logical. -/
def aluShr (arith : Bool) (a b : Word) : Word :=
  let c := min b.toNat 32
  if arith then a.sshiftRight c else a >>> c
/-- IMIN, signed or unsigned. -/
def aluMin (uns : Bool) (a b : Word) : Word := if (if uns then b.ult a else b.slt a) then b else a
/-- IMAX, signed or unsigned. -/
def aluMax (uns : Bool) (a b : Word) : Word := if (if uns then a.ult b else a.slt b) then b else a
/-- INEG: negation, or the absolute value under M[1], where M[1] names no range; .sat clamps to .i32 (DESIGN CHOICE, log entry 53). -/
def aluNeg (m : BitVec 2) (a : Word) : Word × BitVec 6 :=
  let x : Int := if hiM m then a.toInt.natAbs else -a.toInt
  if satM m then
    let (y, f) := clampI32 x
    (wrap32 y, f)
  else (wrap32 x, 0)
/-- Number of 1 bits. -/
def popc (a : Word) : Nat := ((List.range 32).filter (fun i => a.getLsbD i)).length
/-- Leading zeros; 32 for 0. -/
def clzW (a : Word) : Nat := ((List.range 32).find? (fun i => a.getLsbD (31 - i))).getD 32
/-- Trailing zeros; 32 for 0. -/
def ctzW (a : Word) : Nat := ((List.range 32).find? (fun i => a.getLsbD i)).getD 32
/-- BITS by M. -/
def aluBits (m : BitVec 2) (a : Word) : Word :=
  match m.toNat with
  | 0 => BitVec.ofNat 32 (popc a)
  | 1 => BitVec.ofNat 32 (clzW a)
  | 2 => BitVec.ofNat 32 (ctzW a)
  | _ => a.reverse

/-- IADD and ISUB on pairs (R132). -/
def aluWide (sub : Bool) (a b : Wide) : Wide := if sub then a - b else a + b

/-- CVTI (R134): element `e` of 8 or 16 bits, extended; or the .sat clamp to that width. -/
def aluCvti (m : BitVec 2) (b : BitVec 7) (a : Word) : Word × BitVec 6 :=
  let w := if b.getLsbD 0 then 16 else 8
  let uns := b.getLsbD 2
  if m = 1#2 then
    let (lo, hi) : Int × Int := if uns then (0, 2 ^ w - 1) else (-(2 ^ (w - 1)), 2 ^ (w - 1) - 1)
    let (y, f) := clampTo lo hi (if uns then a.toNat else a.toInt)
    (wrap32 y, f)
  else
    let x := fld a (w * fld b 3 3) w
    (wrap32 (if uns then x else sextN w x), 0)

/-! ### Operand and result shapes -/

/-- The immediate of an RI form: IMM10 sign-extended, or the literal in its place (R75, R133). -/
def immOf (f : RI) (l : Option Word) : Word := l.getD (f.imm.signExtend 32)
/-- The immediate of an LU form: IMM18 sign-extended, or the literal. -/
def luImm (f : LU) (l : Option Word) : Word := l.getD (f.imm.signExtend 32)

/-- One value of a lane, with exceptions. -/
def lane1 (r : Word × BitVec 6) : LaneOut := ⟨[r.1], [], r.2⟩
/-- One value of a lane. -/
def lane1w (x : Word) : LaneOut := ⟨[x], [], 0⟩
/-- One predicate of a lane. -/
def laneP (b : Bool) : LaneOut := ⟨[], [b], 0⟩

/-- A vector instruction on sources A and B, where a literal stands for B. -/
def State.vec2 (s : State) (i : Instr) (l : Option Word) (f : Word → Word → LaneOut) : Res :=
  .next (s.vecOp i (opnds i) (fun _ _ _ v => f (v.getD 0 0) (l.getD (v.getD 1 0))))
/-- A vector instruction on A, B and the old destination. -/
def State.vec3 (s : State) (i : Instr) (l : Option Word) (f : Word → Word → Word → LaneOut) : Res :=
  .next (s.vecOp i (opnds i) (fun _ _ _ v => f (v.getD 0 0) (l.getD (v.getD 1 0)) (v.getD (if l.isSome then 1 else 2) 0)))
/-- A vector instruction on A. -/
def State.vec1 (s : State) (i : Instr) (f : Word → LaneOut) : Res :=
  .next (s.vecOp i (opnds i) (fun _ _ _ v => f (v.getD 0 0)))
/-- A scalar instruction on A and B, where a literal stands for B. -/
def State.scal2 (s : State) (i : Instr) (l : Option Word) (f : Word → Word → Word × BitVec 6) : Res :=
  .next (s.scalOp i (opnds i) (fun v =>
    let r := f (v.getD 0 0) (l.getD (v.getD 1 0))
    ([r.1], r.2)))
/-- A scalar instruction on A. -/
def State.scal1 (s : State) (i : Instr) (f : Word → Word) : Res :=
  .next (s.scalOp i (opnds i) (fun v => ([f (v.getD 0 0)], 0)))
/-- A scalar pair instruction on A and B; a literal is sign-extended (R132). -/
def State.scalPair (s : State) (i : Instr) (l : Option Word) (f : Wide → Wide → Wide) : Res :=
  .next (s.scalOp i (opnds i) (fun v =>
    let a := wideOf (v.getD 1 0) (v.getD 0 0)
    let b := match l with
      | some x => x.signExtend 64
      | none => wideOf (v.getD 3 0) (v.getD 2 0)
    let r := f a b
    ([loWord r, hiWord r], 0)))

/-! ### Scalar forms -/


/-- IADD, scalar (R130); M = 2 works on pairs (R132). -/
def execIaddScalar (f : TR) (l : Option Word) (s : State) : Res :=
  if f.m = 2#2 then s.scalPair (.iaddScalar f l) l (aluWide false) else s.scal2 (.iaddScalar f l) l (fun a b => aluAdd f.m a b)

/-- ISUB, scalar (R130); M = 2 works on pairs (R132). -/
def execIsubScalar (f : TR) (l : Option Word) (s : State) : Res :=
  if f.m = 2#2 then s.scalPair (.isubScalar f l) l (aluWide true) else s.scal2 (.isubScalar f l) l (fun a b => aluSub f.m a b)

/-- IMUL, scalar (R130). -/
def execImulScalar (f : TR) (l : Option Word) (s : State) : Res :=
  s.scal2 (.imulScalar f l) l (fun a b => aluMul f.m a b)

/-- IMULH, scalar (R130). -/
def execImulhScalar (f : TR) (l : Option Word) (s : State) : Res :=
  s.scal2 (.imulhScalar f l) l (fun a b => aluMulh f.m a b)

/-- AND, scalar (R130). -/
def execAndScalar (f : TR) (l : Option Word) (s : State) : Res :=
  s.scal2 (.andScalar f l) l (fun a b => (a &&& b, 0))

/-- OR, scalar (R130). -/
def execOrScalar (f : TR) (l : Option Word) (s : State) : Res :=
  s.scal2 (.orScalar f l) l (fun a b => (a ||| b, 0))

/-- XOR, scalar (R130). -/
def execXorScalar (f : TR) (l : Option Word) (s : State) : Res :=
  s.scal2 (.xorScalar f l) l (fun a b => (a ^^^ b, 0))

/-- SHL, scalar (R130). -/
def execShlScalar (f : TR) (l : Option Word) (s : State) : Res :=
  s.scal2 (.shlScalar f l) l (fun a b => (aluShl a b, 0))

/-- SHR, scalar (R130). -/
def execShrScalar (f : TR) (l : Option Word) (s : State) : Res :=
  s.scal2 (.shrScalar f l) l (fun a b => (aluShr (hiM f.m) a b, 0))

/-- IMIN, scalar (R130). -/
def execIminScalar (f : TR) (l : Option Word) (s : State) : Res :=
  s.scal2 (.iminScalar f l) l (fun a b => (aluMin (hiM f.m) a b, 0))

/-- IMAX, scalar (R130). -/
def execImaxScalar (f : TR) (l : Option Word) (s : State) : Res :=
  s.scal2 (.imaxScalar f l) l (fun a b => (aluMax (hiM f.m) a b, 0))

/-- BITS, scalar (R130). -/
def execBitsScalar (f : TR) (s : State) : Res :=
  s.scal1 (.bitsScalar f) (fun a => aluBits f.m a)

/-- IADD, scalar with an immediate (R133). -/
def execIaddScalarImm (f : RI) (l : Option Word) (s : State) : Res :=
  s.scal1 (.iaddScalarImm f l) (fun a => a + immOf f l)

/-- AND, scalar with an immediate (R133). -/
def execAndScalarImm (f : RI) (l : Option Word) (s : State) : Res :=
  s.scal1 (.andScalarImm f l) (fun a => a &&& immOf f l)

/-- OR, scalar with an immediate (R133). -/
def execOrScalarImm (f : RI) (l : Option Word) (s : State) : Res :=
  s.scal1 (.orScalarImm f l) (fun a => a ||| immOf f l)

/-- XOR, scalar with an immediate (R133). -/
def execXorScalarImm (f : RI) (l : Option Word) (s : State) : Res :=
  s.scal1 (.xorScalarImm f l) (fun a => a ^^^ immOf f l)

/-- SHL, scalar with an immediate count (R133). -/
def execShlScalarImm (f : RI) (s : State) : Res :=
  s.scal1 (.shlScalarImm f) (fun a => a <<< fld f.imm 0 5)

/-- SHR, scalar with an immediate count (R133). -/
def execShrScalarImm (f : RI) (s : State) : Res :=
  s.scal1 (.shrScalarImm f) (fun a => aluShr (f.imm.getLsbD 5) a (BitVec.ofNat 32 (fld f.imm 0 5)))

/-- ISET (R133). -/
def execIset (f : RI) (s : State) : Res :=
  s.scal1 (.iset f) (fun a => if isetHolds (fld f.imm 7 3) a (BitVec.ofInt 32 (sextN 7 f.imm.toNat)) then 1 else 0)

/-- MOV of an immediate, scalar (R134). -/
def execMovScalarImm (f : LU) (l : Option Word) (s : State) : Res :=
  s.scal1 (.movScalarImm f l) (fun _ => luImm f l)

/-- MOV, scalar; M = 1 copies a pair (R134). -/
def execMovScalar (f : TR) (s : State) : Res :=
  .next (s.scalOp (.movScalar f) (opnds (.movScalar f)) (fun v => (v, 0)))

/-! ### Vector forms -/

/-- IADD, vector (R130). -/
def execIaddVector (f : TR) (l : Option Word) (s : State) : Res :=
  s.vec2 (.iaddVector f l) l (fun a b => lane1 (aluAdd f.m a b))

/-- ISUB, vector (R130). -/
def execIsubVector (f : TR) (l : Option Word) (s : State) : Res :=
  s.vec2 (.isubVector f l) l (fun a b => lane1 (aluSub f.m a b))

/-- IMUL, vector (R130). -/
def execImulVector (f : TR) (l : Option Word) (s : State) : Res :=
  s.vec2 (.imulVector f l) l (fun a b => lane1 (aluMul f.m a b))

/-- IMULH, vector (R130). -/
def execImulhVector (f : TR) (l : Option Word) (s : State) : Res :=
  s.vec2 (.imulhVector f l) l (fun a b => lane1 (aluMulh f.m a b))

/-- AND, vector (R130). -/
def execAndVector (f : TR) (l : Option Word) (s : State) : Res :=
  s.vec2 (.andVector f l) l (fun a b => lane1w (a &&& b))

/-- OR, vector (R130). -/
def execOrVector (f : TR) (l : Option Word) (s : State) : Res :=
  s.vec2 (.orVector f l) l (fun a b => lane1w (a ||| b))

/-- XOR, vector (R130). -/
def execXorVector (f : TR) (l : Option Word) (s : State) : Res :=
  s.vec2 (.xorVector f l) l (fun a b => lane1w (a ^^^ b))

/-- SHL, vector (R130). -/
def execShlVector (f : TR) (l : Option Word) (s : State) : Res :=
  s.vec2 (.shlVector f l) l (fun a b => lane1w (aluShl a b))

/-- SHR, vector (R130). -/
def execShrVector (f : TR) (l : Option Word) (s : State) : Res :=
  s.vec2 (.shrVector f l) l (fun a b => lane1w (aluShr (hiM f.m) a b))

/-- IMIN, vector (R130). -/
def execIminVector (f : TR) (l : Option Word) (s : State) : Res :=
  s.vec2 (.iminVector f l) l (fun a b => lane1w (aluMin (hiM f.m) a b))

/-- IMAX, vector (R130). -/
def execImaxVector (f : TR) (l : Option Word) (s : State) : Res :=
  s.vec2 (.imaxVector f l) l (fun a b => lane1w (aluMax (hiM f.m) a b))

/-- IMAD: d is the old destination (R130). -/
def execImad (f : TR) (l : Option Word) (s : State) : Res :=
  s.vec3 (.imad f l) l (fun a b d => lane1 (aluMad f.m a b d))

/-- ICMP: the predicate of D[2:0] under the code in D[6:3] (R129). -/
def execIcmp (f : TR) (l : Option Word) (s : State) : Res :=
  s.vec2 (.icmp f l) l (fun a b => laneP (icmpHolds (fld f.d 3 4) a b))

/-- INEG (R130). -/
def execIneg (f : TR) (s : State) : Res :=
  s.vec1 (.ineg f) (fun a => lane1 (aluNeg f.m a))

/-- BITS, vector (R130). -/
def execBitsVector (f : TR) (s : State) : Res :=
  s.vec1 (.bitsVector f) (fun a => lane1w (aluBits f.m a))

/-- CVTI (R134). -/
def execCvti (f : TR) (s : State) : Res :=
  s.vec1 (.cvti f) (fun a => lane1 (aluCvti f.m f.b a))

/-- IADD, vector with an immediate (R133). -/
def execIaddVectorImm (f : RI) (l : Option Word) (s : State) : Res :=
  s.vec1 (.iaddVectorImm f l) (fun a => lane1w (a + immOf f l))

/-- ISUB, vector with an immediate (R133). -/
def execIsubVectorImm (f : RI) (l : Option Word) (s : State) : Res :=
  s.vec1 (.isubVectorImm f l) (fun a => lane1w (a - immOf f l))

/-- IMUL, vector with an immediate (R133). -/
def execImulVectorImm (f : RI) (l : Option Word) (s : State) : Res :=
  s.vec1 (.imulVectorImm f l) (fun a => lane1w (a * immOf f l))

/-- AND, vector with an immediate (R133). -/
def execAndVectorImm (f : RI) (l : Option Word) (s : State) : Res :=
  s.vec1 (.andVectorImm f l) (fun a => lane1w (a &&& immOf f l))

/-- OR, vector with an immediate (R133). -/
def execOrVectorImm (f : RI) (l : Option Word) (s : State) : Res :=
  s.vec1 (.orVectorImm f l) (fun a => lane1w (a ||| immOf f l))

/-- XOR, vector with an immediate (R133). -/
def execXorVectorImm (f : RI) (l : Option Word) (s : State) : Res :=
  s.vec1 (.xorVectorImm f l) (fun a => lane1w (a ^^^ immOf f l))

/-- SHL, vector with an immediate count (R133). -/
def execShlVectorImm (f : RI) (s : State) : Res :=
  s.vec1 (.shlVectorImm f) (fun a => lane1w (a <<< fld f.imm 0 5))

/-- SHR, vector with an immediate count (R133). -/
def execShrVectorImm (f : RI) (s : State) : Res :=
  s.vec1 (.shrVectorImm f) (fun a => lane1w (aluShr (f.imm.getLsbD 5) a (BitVec.ofNat 32 (fld f.imm 0 5))))

/-- ICMP with an immediate (R133). -/
def execIcmpImm (f : RI) (l : Option Word) (s : State) : Res :=
  s.vec1 (.icmpImm f l) (fun a => laneP (icmpHolds (fld f.d 3 4) a (immOf f l)))

/-- MOV of an immediate, vector (R134). -/
def execMovVectorImm (f : LU) (l : Option Word) (s : State) : Res :=
  s.vec1 (.movVectorImm f l) (fun _ => lane1w (luImm f l))

/-- MOV, vector to vector (R134). -/
def execMovVector (f : TR) (s : State) : Res :=
  s.vec1 (.movVector f) lane1w

/-- MOV, broadcast of a scalar of each member's home group (R134, R128). -/
def execMovVectorBroadcast (f : TR) (s : State) : Res :=
  .next (s.vecOp (.movVectorBroadcast f) (opnds (.movVectorBroadcast f)) (fun s g _ _ => lane1w (s.scalar g f.a.toNat)))

/-- MOV.b64, broadcast of a pair (R134). -/
def execMovVectorB64 (f : TR) (s : State) : Res :=
  .next (s.vecOp (.movVectorB64 f) (opnds (.movVectorB64 f)) (fun s g _ _ => ⟨[loWord (s.pair g f.a.toNat), hiWord (s.pair g f.a.toNat)], [], 0⟩))

end Sys2Proof.Machine
end

