-- ==== Sys2Proof/Machine/Float.lean ====
section
/-! DEFINITION. Vector floating-point instructions (R135 to R137) and conversions (R138 to R140). -/
namespace Sys2Proof.Machine

/-! ### Results of f32 operations -/

/-- The value of an f32 lane under FTZ. -/
def f32v (ftz : Bool) (a : Word) : FV := decodeFmt 0 ftz a.toNat
/-- An f32 result of an exact value, rounded once by RNE. -/
def f32r (ftz : Bool) (v : FV × BitVec 6) : Word × BitVec 6 :=
  let r := rne 0 ftz v
  (BitVec.ofNat 32 r.1, r.2)

/-- FADD (R135). -/
def fpAdd (ftz : Bool) (a b : Word) : Word × BitVec 6 := f32r ftz (addFV (f32v ftz a) (f32v ftz b))
/-- FSUB. -/
def fpSub (ftz : Bool) (a b : Word) : Word × BitVec 6 := f32r ftz (addFV (f32v ftz a) (f32v ftz b).neg)
/-- FMUL. -/
def fpMul (ftz : Bool) (a b : Word) : Word × BitVec 6 := f32r ftz (mulFV (f32v ftz a) (f32v ftz b))

/-- A fused multiply-add of exact values; the invalid of ∞ × 0 stands whatever d is (R135). -/
def fmaFV (a b d : FV) (negProd negAdd : Bool) : FV × BitVec 6 :=
  let p := mulFV a b
  let r := addFV (if negProd then p.1.neg else p.1) (if negAdd then d.neg else d)
  (r.1, p.2 ||| r.2)

/-- FFMA by M: 0 a×b + d, 1 a×b − d, 2 −(a×b) + d. -/
def fpFma (m : BitVec 2) (ftz : Bool) (a b d : Word) : Word × BitVec 6 :=
  f32r ftz (fmaFV (f32v ftz a) (f32v ftz b) (f32v ftz d) (m = 2#2) (m = 1#2))

/-- FMIN and FMAX (R135). -/
def fpMinMax (mx ftz : Bool) (a b : Word) : Word × BitVec 6 :=
  let x := f32v ftz a
  let y := f32v ftz b
  let fl := snanFlag x y
  let less := ltFV x y || (!ltFV y x && x.sign && !y.sign)
  let r := if x.isNan && y.isNan then FV.nan false
    else if x.isNan then y
    else if y.isNan then x
    else if less = mx then y else x
  (BitVec.ofNat 32 (encodeFmt 0 0 false ftz 0 r).1, fl)

/-- FCMP (R129, R135). -/
def fpCmp (cc : Nat) (ftz : Bool) (a b : Word) : Bool × BitVec 6 :=
  let x := f32v ftz a
  let y := f32v ftz b
  let un := x.isNan || y.isNan
  let r := match cc with
    | 0 => !un && !ltFV x y && !ltFV y x
    | 1 => un || ltFV x y || ltFV y x
    | 2 => !un && ltFV x y
    | 3 => !un && !ltFV y x
    | 4 => !un && ltFV y x
    | 5 => !un && !ltFV x y
    | 6 => un
    | _ => !un
  (r, snanFlag x y)

/-- FNEG by M: negation, absolute value, negated absolute value (R135). -/
def fpNeg (m : BitVec 2) (ftz : Bool) (a : Word) : Word × BitVec 6 :=
  let x := f32v ftz a
  if x.isNan then f32r ftz (x, 0)
  else
    let neg := match m.toNat with
      | 0 => !x.sign
      | 1 => false
      | _ => true
    let y := if x.sign = neg then x else x.neg
    (BitVec.ofNat 32 (encodeFmt 0 0 false ftz 0 y).1, 0)

/-- FSCALE: a × 2 ^ b rounded once (R135). Beyond 1,000 in either direction every b gives the same result. -/
def fpScale (ftz : Bool) (a b : Word) : Word × BitVec 6 :=
  match f32v ftz a with
  | .fin neg n e => f32r ftz (.fin neg n (e + max (-1000) (min 1000 b.toInt)), 0)
  | x => f32r ftz (x, 0)

/-- FCLASS (R135). -/
def fpClass (a : Word) : Word :=
  let neg := a.getLsbD 31
  let e := fld a 23 8
  let m := fld a 0 23
  let k := if e = 255 then (if m = 0 then (if neg then 0 else 7) else if m < 4194304 then 8 else 9)
    else if e = 0 then (if m = 0 then (if neg then 3 else 4) else if neg then 2 else 5)
    else if neg then 1 else 6
  BitVec.ofNat 32 (2 ^ k)

/-! ### R136: values between two units are given as an odd number of half units, which rounds as the exact value -/

/-- The greatest `r` with `r * r ≤ n`, by `b` binary digits from `r` on. -/
def isqrtGo : Nat → Nat → Nat → Nat
  | 0, _, r => r
  | b + 1, n, r => if (r + 2 ^ b) * (r + 2 ^ b) ≤ n then isqrtGo b n (r + 2 ^ b) else isqrtGo b n r

/-- The value `q / 2 ^ k` with a rest: exact, or strictly between two units. -/
def halfUnits (neg : Bool) (q : Nat) (exact : Bool) (k : Int) : FV := .fin neg (2 * q + if exact then 0 else 1) (-k - 1)

/-- 1 / (n 2^e). -/
def rcpFV (neg : Bool) (n : Nat) (e : Int) : FV :=
  let k := n.log2 + 64
  let q := 2 ^ k / n
  halfUnits neg q (q * n = 2 ^ k) (k + e)

/-- 1 / √(n 2^e). -/
def rsqFV (n : Nat) (e : Int) : FV :=
  let (n, e) := if e % 2 = 0 then (n, e) else (2 * n, e - 1)
  let k := 64 + n.log2
  let q := isqrtGo (k + 2) (2 ^ (2 * k) / n) 0
  halfUnits false q (q * q * n = 2 ^ (2 * k)) (k + e / 2)

/-- The fixed point of the two functions below: 200 bits after the point. -/
def fixBits : Nat := 200
/-- ⌊2^200 ln 2⌋. -/
def ln2Fix : Nat := 1113844574712631719546256151097547306333272293549090750737802

/-- Terms of the series of e^x for x < 1 in fixed point: the sum, the last term, the next divisor. -/
def expSeries : Nat → Nat → Nat → Nat → Nat → Nat
  | 0, _, _, _, sum => sum
  | f + 1, x, k, t, sum =>
    let t' := t * x / 2 ^ fixBits / k
    expSeries f x (k + 1) t' (sum + t')

/-- 2^a for a finite nonzero a = ± n 2^e. -/
def exp2FV (neg : Bool) (n : Nat) (e : Int) : FV :=
  let clamp (i : Int) : Int := max (-400) (min 400 i)
  let v : Int := if neg then -(n : Int) else n
  if e ≥ 0 then .fin false 1 (clamp (v * 2 ^ e.toNat))
  else
    let d : Nat := 2 ^ (-e).toNat
    let i : Int := v / (d : Int)
    let fr : Nat := (v % (d : Int)).toNat
    if fr = 0 then .fin false 1 (clamp i)
    else if i > 400 ∨ i < -400 then .fin false 1 (clamp i)
    else
      let x := fr * ln2Fix / d
      let lo := expSeries 60 x 1 (2 ^ fixBits) (2 ^ fixBits)
      let q := max (2 ^ 160) (min (2 ^ 161 - 1) (lo / 2 ^ (fixBits - 160)))
      halfUnits false q false (160 - i)

/-- Terms z^(2k+1) / (2k+1) of the series of the inverse hyperbolic tangent in fixed point. -/
def atanhSeries : Nat → Nat → Nat → Nat → Nat → Nat
  | 0, _, _, _, sum => sum
  | f + 1, z2, k, t, sum => atanhSeries f z2 (k + 2) (t * z2 / 2 ^ fixBits) (sum + t / k)

/-- log₂ (n 2^e) for n > 0. -/
def log2FV (n : Nat) (e : Int) : FV :=
  let t := n.log2
  if n = 2 ^ t then
    let v : Int := e + t
    .fin (decide (v < 0)) v.natAbs 0
  else
    let z := (n - 2 ^ t) * 2 ^ fixBits / (n + 2 ^ t)
    let s := 2 * atanhSeries 70 (z * z / 2 ^ fixBits) 1 z 0
    let fr : Nat := min (2 ^ 160 - 1) (s * 2 ^ 160 / ln2Fix)
    let v : Int := (e + t) * 2 ^ 160 + (fr : Int)
    .fin (decide (v < 0)) (2 * v + 1).natAbs (-161)

/-- FRCP (R136). -/
def fpRcp (ftz : Bool) (a : Word) : Word × BitVec 6 :=
  match f32v ftz a with
  | .fin s 0 _ => f32r ftz (.inf s, fDZ)
  | .fin s n e => f32r ftz (rcpFV s n e, 0)
  | .inf s => f32r ftz (.zero s, 0)
  | x => f32r ftz (x, 0)
/-- FRSQ. -/
def fpRsq (ftz : Bool) (a : Word) : Word × BitVec 6 :=
  match f32v ftz a with
  | .fin s 0 _ => f32r ftz (.inf s, 0)
  | .fin true _ _ => f32r ftz (.nan false, fNV)
  | .fin false n e => f32r ftz (rsqFV n e, 0)
  | .inf true => f32r ftz (.nan false, fNV)
  | .inf false => f32r ftz (.zero false, 0)
  | x => f32r ftz (x, 0)
/-- FEXP2. -/
def fpExp2 (ftz : Bool) (a : Word) : Word × BitVec 6 :=
  match f32v ftz a with
  | .fin _ 0 _ => f32r ftz (.fin false 1 0, 0)
  | .fin s n e => f32r ftz (exp2FV s n e, 0)
  | .inf true => f32r ftz (.zero false, 0)
  | x => f32r ftz (x, 0)
/-- FLOG2. -/
def fpLog2 (ftz : Bool) (a : Word) : Word × BitVec 6 :=
  match f32v ftz a with
  | .fin _ 0 _ => f32r ftz (.inf true, fDZ)
  | .fin true _ _ => f32r ftz (.nan false, fNV)
  | .fin false n e => f32r ftz (log2FV n e, 0)
  | .inf true => f32r ftz (.nan false, fNV)
  | x => f32r ftz (x, 0)

/-! ### R137 -/

/-- An operation on the two 16-bit elements of a lane: M = 0 .bf16, M = 1 .f16. -/
def halfOp (m : BitVec 2) (ftz : Bool) (f : FV → FV → FV → FV × BitVec 6) (a b d : Word) : Word × BitVec 6 :=
  let k := if m = 0#2 then 1 else 2
  let el (x : Word) (i : Nat) : FV := decodeFmt k ftz (fld x (16 * i) 16)
  let r (i : Nat) := rne k ftz (f (el a i) (el b i) (el d i))
  (BitVec.ofNat 32 ((r 0).1 + 65536 * (r 1).1), (r 0).2 ||| (r 1).2)

/-! ### The meanings of 0x48 to 0x53 and 0x57 to 0x5B -/

/-- FTZ in force for a group (R11, R114). -/
def State.ftz (s : State) (g : Nat) : Bool := (s.regionOf g).ftz

/-- A vector instruction on A and B under FTZ. -/
def State.fvec2 (s : State) (i : Instr) (l : Option Word) (f : Bool → Word → Word → LaneOut) : Res :=
  .next (s.vecOp i (opnds i) (fun s g _ v => f (s.ftz g) (v.getD 0 0) (l.getD (v.getD 1 0))))
/-- A vector instruction on A, B and the old destination under FTZ. -/
def State.fvec3 (s : State) (i : Instr) (l : Option Word) (f : Bool → Word → Word → Word → LaneOut) : Res :=
  .next (s.vecOp i (opnds i) (fun s g _ v =>
    f (s.ftz g) (v.getD 0 0) (l.getD (v.getD 1 0)) (v.getD (if l.isSome then 1 else 2) 0)))
/-- A vector instruction on A under FTZ. -/
def State.fvec1 (s : State) (i : Instr) (f : Bool → Word → LaneOut) : Res :=
  .next (s.vecOp i (opnds i) (fun s g _ v => f (s.ftz g) (v.getD 0 0)))

/-- FADD (R135). -/
def execFadd (f : TR) (l : Option Word) (s : State) : Res := s.fvec2 (.fadd f l) l (fun z a b => lane1 (fpAdd z a b))
/-- FSUB (R135). -/
def execFsub (f : TR) (l : Option Word) (s : State) : Res := s.fvec2 (.fsub f l) l (fun z a b => lane1 (fpSub z a b))
/-- FMUL (R135). -/
def execFmul (f : TR) (l : Option Word) (s : State) : Res := s.fvec2 (.fmul f l) l (fun z a b => lane1 (fpMul z a b))
/-- FFMA (R135). -/
def execFfma (f : TR) (l : Option Word) (s : State) : Res :=
  s.fvec3 (.ffma f l) l (fun z a b d => lane1 (fpFma f.m z a b d))
/-- FMIN (R135). -/
def execFmin (f : TR) (l : Option Word) (s : State) : Res :=
  s.fvec2 (.fmin f l) l (fun z a b => lane1 (fpMinMax false z a b))
/-- FMAX (R135). -/
def execFmax (f : TR) (l : Option Word) (s : State) : Res :=
  s.fvec2 (.fmax f l) l (fun z a b => lane1 (fpMinMax true z a b))
/-- FCMP (R129, R135). -/
def execFcmp (f : TR) (l : Option Word) (s : State) : Res :=
  s.fvec2 (.fcmp f l) l (fun z a b => ⟨[], [(fpCmp (fld f.d 3 4) z a b).1], (fpCmp (fld f.d 3 4) z a b).2⟩)
/-- FNEG (R135). -/
def execFneg (f : TR) (s : State) : Res := s.fvec1 (.fneg f) (fun z a => lane1 (fpNeg f.m z a))
/-- FSCALE (R135). -/
def execFscale (f : TR) (l : Option Word) (s : State) : Res :=
  s.fvec2 (.fscale f l) l (fun z a b => lane1 (fpScale z a b))
/-- FCLASS (R135). -/
def execFclass (f : TR) (s : State) : Res := s.fvec1 (.fclass f) (fun _ a => lane1w (fpClass a))
/-- FRCP (R136). -/
def execFrcp (f : TR) (s : State) : Res := s.fvec1 (.frcp f) (fun z a => lane1 (fpRcp z a))
/-- FRSQ (R136). -/
def execFrsq (f : TR) (s : State) : Res := s.fvec1 (.frsq f) (fun z a => lane1 (fpRsq z a))
/-- FEXP2 (R136). -/
def execFexp2 (f : TR) (s : State) : Res := s.fvec1 (.fexp2 f) (fun z a => lane1 (fpExp2 z a))
/-- FLOG2 (R136). -/
def execFlog2 (f : TR) (s : State) : Res := s.fvec1 (.flog2 f) (fun z a => lane1 (fpLog2 z a))
/-- HADD2 (R137). -/
def execHadd2 (f : TR) (l : Option Word) (s : State) : Res :=
  s.fvec2 (.hadd2 f l) l (fun z a b => lane1 (halfOp f.m z (fun x y _ => addFV x y) a b 0))
/-- HMUL2 (R137). -/
def execHmul2 (f : TR) (l : Option Word) (s : State) : Res :=
  s.fvec2 (.hmul2 f l) l (fun z a b => lane1 (halfOp f.m z (fun x y _ => mulFV x y) a b 0))
/-- HFMA2 (R137). -/
def execHfma2 (f : TR) (l : Option Word) (s : State) : Res :=
  s.fvec3 (.hfma2 f l) l (fun z a b d => lane1 (halfOp f.m z (fun x y w => fmaFV x y w false false) a b d))

/-! ### Conversions (R138 to R140) -/

/-- Bits of an element of a packed value of 32 or 96 bits (R111). -/
def elemAt (f i : Nat) (ws : List Word) : Nat :=
  let v := ws.foldr (fun w acc => w.toNat + 2 ^ 32 * acc) 0
  v / 2 ^ (elemWidth f * i) % 2 ^ elemWidth f

/-- Codes packed from element 0 upward (R111). -/
def packElems (f : Nat) (cs : List Nat) : Nat :=
  cs.foldr (fun c acc => c + 2 ^ elemWidth f * acc) 0

/-- The words of a packed value. -/
def packWords (n x : Nat) : List Word := (List.range n).map (fun i => BitVec.ofNat 32 (x / 2 ^ (32 * i)))

/-- The register word of a converted element: integers are extended, other codes zero-filled (R139). -/
def placeElem (df c : Nat) : Word :=
  match intFmt df with
  | some (w, true) => BitVec.ofInt 32 (sextN w c)
  | _ => BitVec.ofNat 32 c

/-- RND in force: an exact conversion falls back to RNE (R78, DEDUCED, log entry 19). -/
def rndOf (e : Word) : Nat := if exactCvt (fld e 0 4) (fld e 4 4) then 0 else fld e 8 3

/-- The dither phase of a lane: a replaying lane keeps the one it issued with (R117). -/
def State.phaseOf (s : State) (g l : Nat) : Nat :=
  let t := (s.group g).thread l
  if t.reissues then ((t.replay.map Replay.phase).getD 0).toNat else (s.group g).regs.phase.toNat

/-- Whether a member of a split has an active thread that does not replay the instruction: its issue is a first issue. -/
def State.firstIssue (s : State) (m : Member) : Bool :=
  (lanesOf m.act).any (fun l => !((s.group m.gid).thread l).reissues)

/-- PHASE advances once for an issue in each home group that has a thread with a true guard in the split, after the issue
has used it, and not for a replay (R117): `s` is the state in which the split issued, `t` the one after it. A split that
waits for the pool has not issued. -/
def State.bumpPhase (s t : State) : State :=
  if t.issue.isNone then t
  else foldS s.iss.members t (fun t m =>
    if s.firstIssue m then t.modRegs m.gid (fun r => { r with phase := r.phase + 1 }) else t)

/-- A conversion under .sr: the phase is used, then advanced once for the issue. -/
def State.withPhase (s : State) (e : Word) (s' : State) : State := if rndOf e = 4 then s.bumpPhase s' else s'

/-- CVT (R139). -/
def execCvt (f : TR) (e : Word) (s : State) : Res :=
  let sf := fld e 0 4
  let df := fld e 4 4
  .next (s.withPhase e (s.vecOp (.cvt f e) (opnds (.cvt f e)) (fun s g l v =>
    let r := convert sf df (rndOf e) (e.getLsbD 11) (s.ftz g) (ditherOf (l % 32) (s.phaseOf g l))
      (elemAt sf (fld e 12 3) [v.getD 0 0])
    lane1 (placeElem df r.1, r.2))))

/-- PACK (R140). -/
def execPack (f : TR) (e : Word) (s : State) : Res :=
  let sf := fld e 0 4
  let df := fld e 4 4
  let k := packCount df
  .next (s.withPhase e (s.vecOp (.pack f e) (opnds (.pack f e)) (fun s g l v =>
    let rs := (List.range k).map (fun i =>
      convert sf df (rndOf e) (e.getLsbD 11) (s.ftz g) (ditherOf ((k * l + i) % 32) (s.phaseOf g l)) (v.getD i 0).toNat)
    ⟨packWords (packRegs df) (packElems df (rs.map Prod.fst)), [], rs.foldl (fun a r => a ||| r.2) 0⟩)))

/-- UNPACK (R140); its conversions are exact, whatever RND says. -/
def execUnpack (f : TR) (e : Word) (s : State) : Res :=
  let sf := fld e 0 4
  let df := fld e 4 4
  .next (s.vecOp (.unpack f e) (opnds (.unpack f e)) (fun s g _ v =>
    let rs := (List.range (packCount sf)).map (fun i => convert sf df 0 (e.getLsbD 11) (s.ftz g) 0 (elemAt sf i v))
    ⟨rs.map (fun r => placeElem df r.1), [], rs.foldl (fun a r => a ||| r.2) 0⟩))

end Sys2Proof.Machine
end

