-- ==== Sys2Proof/Machine/Translate.lean ====
section
/-! DEFINITION. Translation (R148 to R151, R362), scratchpad ownership (R174), the nodes of the ordering machine (R220
to R226) and reads and writes of bytes with their poison (R169, R170). -/
namespace Sys2Proof.Machine

/-! ### Table walks -/

/-- What an access does (R150). -/
inductive Acc where
  | load | store | atomic | fetch | copyRead | copyWrite
  deriving DecidableEq, Repr

/-- The subcode of PAGE for an access (R264). -/
def Acc.pageSub : Acc → Nat
  | .load | .copyRead => 1
  | .store | .atomic | .copyWrite => 2
  | .fetch => 3

/-- Whether an access writes. -/
def Acc.writes : Acc → Bool
  | .store | .atomic | .copyWrite => true
  | _ => false

/-- Whether a 32-byte grain that holds an address is poisoned, or lies in a quarantined page (R169, R170). -/
def State.grainBad (s : State) (pa : Nat) : Bool := s.flight.poison.contains (pa / 32) || s.quarantined pa

/-- The cause of consuming a grain that is bad: POISON, with QUAR in a quarantined page (R150, R170). -/
def State.poisonCause (s : State) (pa : Nat) : Cause := if s.quarantined pa then (kPoison, 2) else (kPoison, 1)

/-- Whether some bank is in refresh: the windows of the 32 banks stand 2,000 ns apart (R155). -/
def State.refreshNow (s : State) : Bool := decide (s.clk.ns % 2000 < 250)

/-- Whether a read of an address waits for a refresh window of its weight-store bank (R155). -/
def State.refreshHeld (s : State) (pa : Nat) : Bool :=
  match window pa with
  | .weight _ off =>
    let b := off / 4096 % 32
    let t := s.clk.ns % 64000
    decide (2000 * b ≤ t) && decide (t < 2000 * b + 250)
  | _ => false

/-- Whether a run of bytes reaches a weight-store bank in its refresh window. -/
def State.runHeld (s : State) (pa n : Nat) : Bool :=
  inWeight pa && (s.refreshHeld pa || (List.range (n / 4096 + 1)).any (fun i =>
    decide ((pa / 4096 + 1 + i) * 4096 < pa + n) && s.refreshHeld ((pa / 4096 + 1 + i) * 4096)))

/-- The index of a virtual address at a level, and the width of a page there (R148). -/
def levelIndex (l va : Nat) : Nat :=
  match l with
  | 3 => va / 2 ^ 43 % 8192
  | 2 => va / 2 ^ 30 % 8192
  | 1 => va / 2 ^ 21 % 512
  | _ => va / 2 ^ 16 % 32
/-- R148. -/
def levelBits (l : Nat) : Nat :=
  match l with
  | 3 => 43
  | 2 => 30
  | 1 => 21
  | _ => 16

/-- One level of a walk and those below it: the leaf, or the first of the rows V, PTE of R150 that applies. An entry
that lies in a hole ends the walk with HOLE, and so does one in scratchpad or among the system registers, which hold no tables
(DESIGN CHOICE, log entry 10); a poisoned one ends it with POISON. -/
def State.walkAt (s : State) (va : Nat) : Nat → Nat → Except Cause TlbEntry
  | 0, _ => .error (kPage, 1)
  | n + 1, base =>
    let a := base + 8 * levelIndex n va
    if ¬ memRun a 8 then .error (kProt, 1)
    else if s.grainBad a then .error (s.poisonCause a)
    else
      let e := leNat (memRead s.mem a 8)
      let pad := e / 256 % 2 ^ 40 * 256
      let leaf := e / 2 % 2 = 1
      if e % 2 = 0 then .error (kPage, 1)
      else if e / 128 % 2 = 1 ∨ e / 2 ^ 48 ≠ 0 ∨ (leaf ∧ n = 3) ∨ (¬ leaf ∧ n = 0) then .error (kProt, 2)
      else if leaf then
        if pad % 2 ^ levelBits n ≠ 0 then .error (kProt, 2)
        else .ok ⟨0, va / 2 ^ levelBits n * 2 ^ levelBits n, levelBits n, pad, BitVec.ofNat 8 (e % 256)⟩
      else if n ≥ 2 ∧ pad % 4096 ≠ 0 then .error (kProt, 2)
      else s.walkAt va n pad

/-- The leaf of a virtual address (R148). -/
def State.walkLeaf (s : State) (troot va : Nat) : Except Cause TlbEntry := s.walkAt va 4 troot

/-- The words that a walk reads, as far as it goes (R148). -/
def State.walkWords (s : State) (va : Nat) : Nat → Nat → List Nat
  | 0, _ => []
  | n + 1, base =>
    let a := base + 8 * levelIndex n va
    let e := leNat (memRead s.mem a 8)
    a :: (if ¬ memRun a 8 ∨ s.grainBad a ∨ e % 2 = 0 ∨ e / 2 % 2 = 1 then [] else s.walkWords va n (e / 256 % 2 ^ 40 * 256))

/-- Whether a walk waits for a refresh window of the weight store, where one of its tables lies there (R155). -/
def State.walkHeld (s : State) (troot va : Nat) : Bool := s.refreshNow && (s.walkWords va 4 troot).any s.refreshHeld

/-- Whether the world map marks the page of a physical address S (R362). -/
def State.pageS (s : State) (pa : Nat) : Bool := s.spire.worldS.contains (pa / 65536)

/-- Whether a leaf permits an access by work of a world (R150). -/
def leafPerm (leaf : BitVec 8) (acc : Acc) : Bool :=
  match acc with
  | .load | .copyRead => leaf.getLsbD 2
  | .store | .copyWrite => leaf.getLsbD 3
  | .atomic => leaf.getLsbD 2 && leaf.getLsbD 3
  | .fetch => leaf.getLsbD 4

/-! ### Scratchpad (R153, R174) -/

/-- Bytes of a core's scratchpad that blocks may use. -/
def coreScratch : Nat := 507904

/-- The physical address of a block offset; a spread block's parts lie on the four cores in order (R153, DEDUCED, log entry
27). -/
def Block.addr (b : Block) (off : Nat) : Nat :=
  let core := b.id.cores.headD 0
  let y := b.id.base + off
  if b.id.spread then scratchAddr (core / 4 * 4 + y / coreScratch) (y % coreScratch) else scratchAddr core y

/-- Whether a block's scratchpad is in place: it is not in the stow area (R59). -/
def Block.resident (b : Block) : Bool := b.image.isNone

/-- The block offset of a physical address that a block holds. -/
def Block.offOf (b : Block) (pa : Nat) : Option Nat :=
  if pa < scratchBase then none
  else
    let o := pa - scratchBase
    let core := o / 0x400000 * 4 + o % 0x400000 / 0x80000
    let i := o % 0x80000
    let first := b.id.cores.headD 0
    if b.id.spread then
      if core / 4 = first / 4 ∧ i < coreScratch ∧ b.id.base ≤ core % 4 * coreScratch + i ∧
          core % 4 * coreScratch + i < b.id.base + b.id.t then
        some (core % 4 * coreScratch + i - b.id.base)
      else none
    else if core = first ∧ b.id.base ≤ i ∧ i < b.id.base + b.id.t then some (i - b.id.base)
    else none

/-- The resident block that holds a scratchpad address, with the block offset. -/
def State.scratchOwner (s : State) (pa : Nat) : Option (Nat × Nat) :=
  s.blocks.findSome? (fun e => if e.2.resident then (e.2.offOf pa).map (fun o => (e.1, o)) else none)

/-- Whether an address is scratchpad that a block of world S holds (R362). -/
def State.scratchS (s : State) (pa : Nat) : Bool :=
  match s.scratchOwner pa with
  | some (b, _) => (s.launch (s.block b).id.launch).region.world
  | none => false

/-! ### Translations (R150, R151) -/

/-- The rows of R150 after the walk itself. -/
def State.permit (s : State) (e : TlbEntry) (acc : Acc) (world : Bool) (va : Nat) : Except Cause Nat :=
  let pa := e.pbase + va % 2 ^ e.size
  if ¬ world ∧ (e.leaf.getLsbD 5 ∨ s.pageS pa ∨ s.scratchS pa) then .error (kProt, 3)
  else if world ∧ acc = .fetch ∧ ¬ e.leaf.getLsbD 5 then .error (kProt, 3)
  else if ¬ leafPerm e.leaf acc ∨ ((acc = .store ∨ acc = .atomic) ∧ inWeight pa) then .error (kProt, 4)
  else if e.leaf.getLsbD 6 ∨ s.quarantined pa then .error (kPoison, 2)
  else if window pa = .hole then .error (kProt, 1)
  else .ok pa

/-- PAGE takes the subcode of the access. -/
def fixPage (acc : Acc) (c : Cause) : Cause := if c.1 = kPage then (kPage, acc.pageSub) else c

/-- A whole translation by a walk (R148, R150).
DEDUCED, log entry 10. -/
def State.xlate (s : State) (troot : Nat) (acc : Acc) (world : Bool) (va : Nat) : Except Cause Nat :=
  if va ≥ 2 ^ 56 then .error (kProt, 1)
  else
    match s.walkLeaf troot va with
    | .error c => .error (fixPage acc c)
    | .ok e => s.permit e acc world va

/-- The cached leaf of a virtual address in a core's TLBs (R151). -/
def State.tlbGet (s : State) (core asid va : Nat) : Option TlbEntry :=
  ((tget s.flight.tlbs core).getD []).find? (fun e => e.asid = asid && decide (e.vbase = va / 2 ^ e.size * 2 ^ e.size))

/-- A leaf is cached. -/
def State.tlbPut (s : State) (core : Nat) (e : TlbEntry) : State :=
  { s with flight := { s.flight with tlbs := tput s.flight.tlbs core (e :: (tget s.flight.tlbs core).getD []) } }

/-- A translation of a group's own access: hit, fault, or a walk that must come first (R151). -/
inductive Xlat where
  | ok (pa : Nat)
  | bad (c : Cause)
  | miss
  deriving DecidableEq, Repr

/-- A group's translation through its core's TLBs. -/
def State.xlatGroup (s : State) (g : Nat) (acc : Acc) (va : Nat) : Xlat :=
  let r := s.regionOf g
  if va ≥ 2 ^ 56 then .bad (kProt, 1)
  else
    match s.tlbGet (s.coreOf g) r.asid va with
    | some e => match s.permit e acc r.world va with
      | .ok pa => .ok pa
      | .error c => .bad c
    | none => .miss

/-- A walk for a page of an address space is asked for, if none is under way (R151). -/
def State.startWalk (s : State) (core asid troot va : Nat) : State :=
  let page := va / 65536
  if s.flight.walks.any (fun e => e.2.tlb = core && e.2.asid = asid && e.2.page = page) then s
  else
    let (id, s) := s.freshId
    { s with flight := { s.flight with walks := tput s.flight.walks id ⟨core, asid, troot, page⟩ } }

/-- Whether a walk has one of its die's 256 walkers: the walks of a die start in the order in which they were asked for
(R151). -/
def State.walkRuns (s : State) (id : Nat) (w : Walk) : Bool :=
  decide ((s.flight.walks.filter (fun e => decide (e.1 < id) && decide (dieOfCore e.2.tlb = dieOfCore w.tlb))).length < 256)

/-- Whether a die has a walker for one more walk (R151). -/
def State.walkFree (s : State) (die : Nat) : Bool :=
  decide ((s.flight.walks.filter (fun e => decide (dieOfCore e.2.tlb = die))).length < 256)

/-- A translation by a unit of a core: from the core's TLBs, or by a walk of its own (R151). -/
def State.coreXlate (s : State) (core asid troot : Nat) (acc : Acc) (world : Bool) (va : Nat) : Except Cause Nat :=
  match s.tlbGet core asid va with
  | some e => if va ≥ 2 ^ 56 then .error (kProt, 1) else s.permit e acc world va
  | none => s.xlate troot acc world va

/-- Whether a unit of a core waits for the translation of an address that its TLBs do not hold: for a free walker, or for the
refresh window of a table word (R151, R155). -/
def State.coreWaits (s : State) (core asid troot va : Nat) : Bool :=
  (s.tlbGet core asid va).isNone && (!s.walkFree (dieOfCore core) || s.walkHeld troot va)

/-- The leaf of an address that a unit of a core has walked for is cached (R151). -/
def State.coreFill (s : State) (core asid troot va : Nat) : State :=
  if (s.tlbGet core asid va).isSome ∨ va ≥ 2 ^ 56 then s
  else match s.walkLeaf troot va with
    | .ok e => s.tlbPut core { e with asid := asid }
    | .error _ => s

/-! ### Bytes and checks of the scratchpad (R156, R174) -/

/-- The bytes of a barrier register (R156). -/
def Bar.image (b : Bar) : List Byte :=
  leBytes 2 b.expect.toNat ++ leBytes 2 b.arrived.toNat ++ leBytes 4 b.xbytes.toNat ++ leBytes 4 b.lbytes.toNat ++
    leBytes 1 b.gen.toNat ++ [if b.phase then 1 else 0] ++ [0, 0]

/-- A byte as it stands at the device or in a bank: the barrier windows show the barrier registers (R156). -/
def State.byteAt (s : State) (a : Nat) : Byte :=
  if a < scratchBase then memGet s.mem a
  else
    match s.scratchOwner a with
    | some (b, o) =>
      let B := s.block b
      if o + 256 ≥ B.id.t then
        ((B.bars.getD ((o + 256 - B.id.t) / 16) default).image).getD ((o + 256 - B.id.t) % 16) 0
      else memGet s.mem a
    | none => memGet s.mem a

/-- The check of R174 on a run of bytes for a group: the scratchpad of its own cluster, held by its own bundle; the
barrier window refuses stores. -/
def State.scratchCheck (s : State) (g pa n : Nat) (writes : Bool) : Option Cause :=
  let G := s.group g
  if (pa - scratchBase) / 0x400000 ≠ coreOfPart G.id.part / 4 then some (kProt, 5)
  else
    match s.scratchOwner pa, s.scratchOwner (pa + (n - 1)) with
    | some (b, o), some (b', o') =>
      let B := s.block b
      if b ≠ b' ∨ B.id.launch ≠ G.id.launch ∨ (B.id.keep ∧ G.run.place ≠ .keep) then some (kProt, 5)
      else if writes ∧ (o + 256 ≥ B.id.t ∨ o' + 256 ≥ B.id.t) then some (kBarstore, 0)
      else none
    | _, _ => some (kProt, 5)

/-- The physical address of a scratchpad offset as LDS, STS, ATOMS and LDSP form it (R174). -/
def State.scratchForm (s : State) (g : Nat) (o : Word) : Except Cause Nat :=
  let B := s.blockOf g
  if o.getLsbD 31 then
    if fld o 21 10 ≠ 0 then .error (kProt, 5)
    else .ok (scratchBase + coreOfPart (s.group g).id.part / 4 * 0x400000 + fld o 0 21)
  else if o.toNat < B.id.t then .ok (B.addr o.toNat)
  else .error (kProt, 5)

/-! ### Nodes (R220, R221) -/

/-- The cluster node and the die node of a core; core nodes have the core's number. -/
def clusterNode (core : Nat) : Nat := 64 + core / 4
/-- R220. -/
def dieNode (die : Nat) : Nat := 80 + die
/-- The device node. -/
def deviceNode : Nat := 84

/-- The nodes of a core's path below the device node, from the core outward (R220). -/
def pathOf (core : Nat) : List Nat := [core, clusterNode core, dieNode (dieOfCore core)]

/-- The node of a scope on a group's path (R220). -/
def State.scopeNode (s : State) (g scope : Nat) : Nat :=
  let core := s.coreOf g
  match scope with
  | 0 => core
  | 1 => if (s.blockOf g).id.spread then clusterNode core else core
  | 2 => core
  | 3 => clusterNode core
  | 4 => dieNode (dieOfCore core)
  | _ => deviceNode

/-- The nodes of a path that lie below a node, from the core outward. -/
def below (path : List Nat) (node : Nat) : List Nat := path.takeWhile (· ≠ node)

/-- The parent of a node (R222). -/
def parentNode (n : Nat) : Nat :=
  if n < 64 then 64 + n / 4 else if n < 80 then 80 + (n - 64) / 4 else deviceNode

/-- The entries of a node, oldest first. -/
def State.node (s : State) (n : Nat) : List NodeEntry := (tget s.flight.nodes n).getD []
/-- The state with a node's entries set. -/
def State.setNode (s : State) (n : Nat) (l : List NodeEntry) : State :=
  { s with flight := { s.flight with nodes := if l.isEmpty then tdel s.flight.nodes n else tput s.flight.nodes n l } }

/-- Whether two runs of bytes overlap. -/
def overlap (a n b m : Nat) : Bool := decide (a < b + m) && decide (b < a + n)

/-- Whether an entry has a byte. -/
def NodeEntry.has (e : NodeEntry) (a : Nat) : Bool := decide (e.pa ≤ a) && decide (a < e.pa + e.bytes.length)

/-- The newest value of a byte at a node. -/
def newestByte (l : List NodeEntry) (a : Nat) : Option Byte :=
  (l.reverse.find? (fun e => e.has a)).map (fun e => e.bytes.getD (a - e.pa) 0)

/-- A byte along a list of nodes and then at the device; none where the device's grain is poisoned (R224, R169). -/
def State.pathByte (s : State) (nodes : List Nat) (a : Nat) : Option Byte :=
  match nodes.findSome? (fun n => newestByte (s.node n) a) with
  | some b => some b
  | none => if s.grainBad a then none else some (s.byteAt a)

/-- The bytes of a run, or none at the first poisoned byte. -/
def State.pathBytes (s : State) (nodes : List Nat) (a n : Nat) : Option (List Byte) :=
  ((List.range n).map (fun i => s.pathByte nodes (a + i))).foldr
    (fun x acc => match x, acc with
      | some b, some l => some (b :: l)
      | _, _ => none) (some [])

/-- Grains that a write covers whole. -/
def coveredGrains (a n : Nat) : List Nat :=
  (List.range (n / 32 + 1)).filterMap (fun i =>
    let g := (a + 31) / 32 + i
    if 32 * g + 32 ≤ a + n then some g else none)

/-- A write at the device node or into a bank, within one page; a grain written whole loses its poison, and a page that is
quarantined, or whose controller is fenced, keeps its data (R169, R170, R310). -/
def State.devWrite (s : State) (a : Nat) (b : List Byte) : State :=
  let gs := coveredGrains a b.length
  if s.quarantined a then s
  else { s with
    mem := memWrite s.mem a b
    flight := { s.flight with poison := s.flight.poison.filter (fun g => !gs.contains g) } }

/-- A write of the device's own at a physical address, such as a word of a queue header, an RCB or a record. Nothing takes it
outside R146, and the weight store is written by copies alone (R154). -/
def State.ownWrite (s : State) (a : Nat) (b : List Byte) : State :=
  if memRun a b.length && !inWeight a then s.devWrite a b else s

/-- A read of the device's own at a physical address; none where a grain of it is poisoned or quarantined (R169, R170). -/
def State.ownRead (s : State) (a n : Nat) : Option (List Byte) :=
  if (List.range n).any (fun i => s.grainBad (a + i)) then none else some ((List.range n).map (fun i => s.byteAt (a + i)))

/-- An entry leaves a node for its parent, or for device memory (R222). -/
def State.pushOut (s : State) (n : Nat) (e : NodeEntry) : State :=
  let p := parentNode n
  if p = deviceNode then s.devWrite e.pa e.bytes else s.setNode p (s.node p ++ [e])

/-- The entries of a node that a push of some bytes moves, and those that stay: an entry of those bytes moves, and so
does each older one that overlaps a moving entry (R222, R224). -/
def splitPush (l : List NodeEntry) (a n : Nat) : List NodeEntry × List NodeEntry :=
  l.foldr (fun e acc =>
    if overlap e.pa e.bytes.length a n || acc.1.any (fun x => overlap x.pa x.bytes.length e.pa e.bytes.length) then
      (e :: acc.1, acc.2)
    else (acc.1, e :: acc.2)) ([], [])

/-- Every entry of the bytes below a node on a path is pushed toward it, in the order the entries entered (R224,
R226). -/
def State.pushToward (s : State) (path : List Nat) (target a n : Nat) : State :=
  foldS (below path target) s (fun s k =>
    let (moved, kept) := splitPush (s.node k) a n
    foldS moved (s.setNode k kept) (fun s e => s.pushOut k e))

/-- A grain becomes poisoned. A DRAM sector enters its controller's record of 512; a full record puts the sector's page
into the quarantine list of 256 and drops the page's sectors; a full list fences the controller (R169, R170, R310). -/
def State.poisonGrain (s : State) (pa : Nat) : State :=
  let g := pa / 32
  if s.flight.poison.contains g ∨ s.quarantined pa then s
  else
    match window pa with
    | .dram _ _ =>
      let ctl := dramController pa
      let mine := s.flight.poison.filter (fun x => decide (x < weightBase / 32) && dramController (32 * x) = ctl)
      if mine.length < 512 then { s with flight := { s.flight with poison := g :: s.flight.poison } }
      else
        let page := pa / 65536
        let d := (tget s.spire.dram ctl).getD ⟨[], false⟩
        let s := { s with flight := { s.flight with poison := s.flight.poison.filter (fun x => decide (x / 2048 ≠ page)) } }
        if d.pages.length < 256 then
          (s.modSpire (fun p => { p with dram := tput p.dram ctl { d with pages := page :: d.pages } })).logBank
            (dramBank ctl) true ⟨BitVec.ofNat 64 pa, bankInfo tyQuarantine 0, 0⟩
        else
          (s.modSpire (fun p => { p with dram := tput p.dram ctl { d with fenced := true } })).logBank
            (dramBank ctl) true ⟨BitVec.ofNat 64 pa, bankInfo tyQfull 0, 0⟩
    | _ => { s with flight := { s.flight with poison := g :: s.flight.poison } }

end Sys2Proof.Machine
end

