-- ==== Sys2Proof/Machine/Groups.lean ====
section
/-! DEFINITION. Reads and writes of an address space by the device, waiting threads (R81), and how threads, groups and
blocks end (R81, R145, R238, R248, R334, R335, R361). -/
namespace Sys2Proof.Machine

/-! ### Address spaces seen by the device -/

/-- The pieces of a run of virtual addresses that lie in one 64 KiB page each. -/
def pageRuns (va n : Nat) : List (Nat × Nat) :=
  (List.range (n / 65536 + 2)).filterMap (fun i =>
    let p := (va / 65536 + i) * 65536
    let lo := max va p
    let hi := min (va + n) (p + 65536)
    if lo < hi then some (lo, hi - lo) else none)

/-- A run of virtual addresses as physical runs, by a translation of addresses, or the first fault with its address. -/
def runsBy (xlate : Nat → Except Cause Nat) (va n : Nat) : Except (Cause × Nat) (List (Nat × Nat)) :=
  (pageRuns va n).foldr (fun r acc' =>
    match xlate r.1 with
    | .error c => .error (c, r.1)
    | .ok pa => match acc' with
      | .error e => .error e
      | .ok l => if memRun pa r.2 then .ok ((pa, r.2) :: l) else .error ((kProt, 1), r.1)) (.ok [])

/-- A run of virtual addresses as physical runs, by walks. -/
def State.xlateRuns (s : State) (troot : Nat) (acc : Acc) (world : Bool) (va n : Nat) :
    Except (Cause × Nat) (List (Nat × Nat)) := runsBy (s.xlate troot acc world) va n

/-- The runs of a unit of a core, by its TLBs (R151). -/
def State.coreRuns (s : State) (core asid troot : Nat) (acc : Acc) (world : Bool) (va n : Nat) :
    Except (Cause × Nat) (List (Nat × Nat)) := runsBy (s.coreXlate core asid troot acc world) va n

/-- Whether an access to the weight store waits for a refresh window of a bank (R155). -/
def State.runsHeld (s : State) (runs : List (Nat × Nat)) : Bool := runs.any (fun r => s.runHeld r.1 r.2)

/-- Whether a read by a unit of a core waits: for a translation, or for a bank in its refresh window (R151, R155). -/
def State.coreHeld (s : State) (core asid troot : Nat) (world : Bool) (va n : Nat) : Bool :=
  (pageRuns va n).any (fun r => s.coreWaits core asid troot r.1) ||
    (s.refreshNow && (match s.coreRuns core asid troot .load world va n with
    | .ok runs => s.runsHeld runs
    | .error _ => false))

/-- The leaves that a unit of a core has walked for are cached (R151). -/
def State.coreFills (s : State) (core asid troot va n : Nat) : State :=
  foldS (pageRuns va n) s (fun s r => s.coreFill core asid troot r.1)

/-- Whether walks for some pages wait: for a free walker of a die, or for a refresh window of a table word (R151, R155). -/
def State.walksHeld (s : State) (die troot va n : Nat) : Bool :=
  !s.walkFree die || (pageRuns va n).any (fun r => s.walkHeld troot r.1)

/-- Whether a read by walks waits for a bank in its refresh window (R155). -/
def State.vaHeld (s : State) (troot : Nat) (world : Bool) (va n : Nat) : Bool :=
  s.refreshNow && ((pageRuns va n).any (fun r => s.walkHeld troot r.1) ||
    (match s.xlateRuns troot .load world va n with
    | .ok runs => s.runsHeld runs
    | .error _ => false))

/-- The first poisoned address of physical runs read through a list of nodes. -/
def State.firstPoison (s : State) (nodes : List Nat) (runs : List (Nat × Nat)) : Option Nat :=
  runs.findSome? (fun r => (List.range r.2).findSome? (fun i =>
    if (s.pathByte nodes (r.1 + i)).isNone then some (r.1 + i) else none))

/-- The bytes of physical runs through a list of nodes; a poisoned byte reads 0 here. -/
def State.runBytes (s : State) (nodes : List Nat) (runs : List (Nat × Nat)) : List Byte :=
  runs.flatMap (fun r => (List.range r.2).map (fun i => (s.pathByte nodes (r.1 + i)).getD 0))

/-- Bytes of an address space, read through nodes: a fault with its virtual address, or the bytes. -/
def State.vread (s : State) (nodes : List Nat) (troot : Nat) (world : Bool) (va n : Nat) :
    Except (Cause × Nat) (List Byte) :=
  match s.xlateRuns troot .load world va n with
  | .error e => .error e
  | .ok runs =>
    match s.firstPoison nodes runs with
    | some a => .error (s.poisonCause a, va)
    | none => .ok (s.runBytes nodes runs)

/-- The pieces of a run of physical addresses that lie in one aligned 32-byte grain each. -/
def grainRuns (pa n : Nat) : List (Nat × Nat) :=
  (List.range (n / 32 + 2)).filterMap (fun i =>
    let p := (pa / 32 + i) * 32
    let lo := max pa p
    let hi := min (pa + n) (p + 32)
    if lo < hi then some (lo, hi - lo) else none)

/-- Bytes enter a node, one entry for each aligned 32-byte grain (R229), or are written at the device. -/
def State.nodeWrite (s : State) (node gid pa : Nat) (b : List Byte) : State :=
  if b.isEmpty then s
  else if node = deviceNode ∨ pa ≥ scratchBase then s.devWrite pa b
  else s.setNode node (s.node node ++ (grainRuns pa b.length).map (fun r => ⟨0, gid, r.1, (b.drop (r.1 - pa)).take r.2⟩))

/-- Bytes written into physical runs at a node. -/
def State.putRuns (s : State) (node gid : Nat) : List (Nat × Nat) → List Byte → State
  | [], _ => s
  | r :: rest, b => (s.nodeWrite node gid r.1 (b.take r.2)).putRuns node gid rest (b.drop r.2)

/-- The physical runs of a range of block offsets. -/
def Block.runs (b : Block) (off n : Nat) : List (Nat × Nat) :=
  if ¬ b.id.spread then (if n = 0 then [] else [(b.addr off, n)])
  else
    let y := b.id.base + off
    (List.range 4).filterMap (fun i =>
      let lo := max y (i * coreScratch)
      let hi := min (y + n) ((i + 1) * coreScratch)
      if lo < hi then some (b.addr (lo - b.id.base), hi - lo) else none)

/-- Bytes of a block's scratchpad written by a unit, wherever the block stands; a block that has ended takes nothing. -/
def State.blockPut (s : State) (b off : Nat) (bytes : List Byte) : State :=
  match tget s.blocks b with
  | none => s
  | some B =>
    match B.image with
    | some img => s.modBlock b (fun x => { x with
        image := some (img.take off ++ bytes ++ img.drop (off + bytes.length)) })
    | none => s.putRuns deviceNode 0 (B.runs off bytes.length) bytes

/-- Bytes written into an address space at a node; a fault writes nothing. -/
def State.vwrite (s : State) (node troot : Nat) (world : Bool) (va : Nat) (b : List Byte) :
    Except (Cause × Nat) State :=
  match s.xlateRuns troot .store world va b.length with
  | .error e => .error e
  | .ok runs => .ok (s.putRuns node 0 runs b)

/-! ### Waiting threads (R81) -/

/-- The active threads of the issuing member wait, and the others go on. The instruction marks its slot. -/
def State.waitFor (s : State) (is : Issue) (m : Member) (kind : WaitKind) (mark : SbSlot) (at_ extra : Nat) :
    Nat × State :=
  let (id, s) := s.freshId
  let (q, s) := s.freshSeq
  let s := s.advance m.gid m.lanes is.next (s.nextReady is extra)
  let s := s.setLanes m.gid m.act .waiting
  let w : Wait := ⟨m.gid, m.act, kind, varSlot is, is.pc, q, at_, s.atIssue is m.gid [], [0, 0, 0, is.opWords]⟩
  let s := { s with flight := { s.flight with waits := tput s.flight.waits id w } }
  (id, s.markSlot m.gid (varSlot is) { mark with op := q, count := 1 })

/-- What a record of a waiting split holds (R269). -/
def State.setOpval (s : State) (id : Nat) (v : List Wide) : State :=
  { s with flight := { s.flight with waits := tmod s.flight.waits id (fun (w : Wait) => { w with opval := v }) } }

/-- The mark of a slot with scalar destinations. -/
def scalMark (scal : List Nat) : SbSlot := ⟨0, false, false, none, [], scal, [], 1⟩
/-- The mark of a slot with no destination. -/
def plainMark : SbSlot := scalMark []

/-- A scalar result of variable latency lands; that of a stowed group goes to its landing buffer (R58). -/
def State.landScalar (s : State) (g i : Nat) (v : Word) (lanes : Mask) (seq : Nat) : State :=
  if (s.group g).run.place = .stowed then
    s.modGroup g (fun G => { G with landing := G.landing ++ [⟨i, true, lanes, [v], seq⟩] })
  else s.landScal g i v lanes seq

/-- A waiting split takes a scalar result. The threads that a match-point handler of their group does not run have their own
registers (R301). -/
def State.waitScalar (s : State) (w : Wait) (i : Nat) (v : Word) : State :=
  if (s.group w.gid).handler.any (fun h => decide (h.lanes &&& w.lanes = 0)) then s.landOwn w.gid i v w.lanes w.seq
  else s.landScalar w.gid i v w.lanes w.seq

/-- A waiting split takes a scalar pair result. -/
def State.waitPair (s : State) (w : Wait) (f : Nat) (v : Wide) : State :=
  (s.waitScalar w (evenOf f) (loWord v)).waitScalar w (evenOf f + 1) (hiWord v)

/-- A scalar pair result lands. -/
def State.landPair (s : State) (g f : Nat) (v : Wide) (lanes : Mask) (seq : Nat) : State :=
  (s.landScalar g (evenOf f) (loWord v) lanes seq).landScalar g (evenOf f + 1) (hiWord v) lanes seq

/-- A vector result of variable latency lands. A stowed group's result goes to its registers if they are still in the
pool, and else into the landing buffer (R58). -/
def State.landVec (s : State) (g name : Nat) (w : Mask) (v : Lanes) (resv : Option Nat) : State :=
  let G := s.group g
  let w := w &&& G.occupied
  if G.run.place = .stowed ∧ G.run.spilled then
    (s.modGroup g (fun G => { G with landing := G.landing ++ [⟨name, false, w, v, s.env.seq⟩] })).unreserve (s.coreOf g) resv
  else (s.matTouch g name w v s.env.seq).landName g name w v false resv

/-- The threads of a mask continue at PCs of their own. -/
def State.jumpLanes (s : State) (g : Nat) (m : Mask) (pc : Nat → Wide) (ready : Nat) : State :=
  s.modGroup g (fun G => G.modThreads m (fun l t =>
    { t with pc := pc l, ready, since := none, replay := none, noMatch := false }))

/-! ### The tile unit's state in memory (R245, R246, R361) -/

/-- Bits of a list of rows, as the bytes of a half of the row-state area. -/
def rowBits (rows : List Nat) : List Byte :=
  (List.range 128).map (fun b => BitVec.ofNat 8
    ((List.range 8).foldl (fun a i => a + if rows.contains (8 * b + i) then 2 ^ i else 0) 0))

/-- The counts of a binding as its descriptor holds them. -/
def Tile.counts (t : Tile) : List Byte := leBytes 2 t.nocc ++ leBytes 2 t.nwoken ++ leBytes 2 t.ovf

/-- The rows of a tile, lowest first. -/
def insertRow (l : List Nat) (r : Nat) : List Nat := l.filter (· < r) ++ r :: l.filter (· > r)

/-- Rows of a tile become occupied and are not woken. -/
def Tile.occupy (t : Tile) (rows : List Nat) : Tile :=
  { t with occ := rows.foldl insertRow t.occ, woken := t.woken.filter (fun r => !rows.contains r), nocc := t.nocc + rows.length }

/-- The rows among some that a wake concerns: occupied, and not woken yet (R250). -/
def Tile.asleep (t : Tile) (rows : List Nat) : List Nat :=
  rows.eraseDups.filter (fun r => t.occ.contains r && !t.woken.contains r)

/-- Occupied rows of a tile are woken; WOKEN counts each once (R250). -/
def Tile.wake (t : Tile) (rows : List Nat) : Tile :=
  { t with woken := (t.asleep rows).foldl insertRow t.woken, nwoken := t.nwoken + (t.asleep rows).length }

/-- `n` woken rows of a tile become free (R254). -/
def Tile.free (t : Tile) (rows : List Nat) (n : Nat) : Tile :=
  { t with
    occ := t.occ.filter (fun r => !rows.contains r), woken := t.woken.filter (fun r => !rows.contains r)
    nocc := t.nocc - n, nwoken := t.nwoken - n }

/-- The number of woken rows that a bin group takes: all of them and at most 128 (R254), or THRESH of them where more are woken
(R263). The choice is free: log entry 56. -/
def Tile.count (t : Tile) : Nat :=
  if t.thresh < t.nwoken ∧ t.thresh ≠ 0 ∧ Config.formByThresh t.thresh t.nwoken then min 128 t.thresh else min 128 t.nwoken

/-- The woken rows that a bin group takes: the lowest of them (R254). -/
def Tile.ready (t : Tile) : List Nat := (t.woken.filter t.occ.contains).take t.count

/-- The node through which a tile unit works on a block's tiles (R230). -/
def Block.tileNodes (b : Block) (t : Tile) : List Nat := if t.scratch then [] else [dieNode b.id.die]
/-- The node at which a tile unit writes. -/
def Block.tileNode (b : Block) (t : Tile) : Nat := if t.scratch then deviceNode else dieNode b.id.die

/-- A write-back of a binding's state: the state with it done, or the address that failed. The rows of a scratchpad tile
end with its block. -/
def State.tileBackTry (s : State) (b : Nat) (home : BlockId) (r : Region) (t : Tile) : Except (Cause × Nat) State :=
  let bits := rowBits t.occ ++ rowBits t.woken
  match s.xlateRuns r.troot .store r.world (t.va.toNat + 0x36) 6 with
  | .error e => .error e
  | .ok d =>
    let s' := s.putRuns (dieNode home.die) 0 d t.counts
    if t.scratch then .ok (if (tget s.blocks b).isSome then s'.blockPut b t.wakeBase.toNat bits else s')
    else match s.xlateRuns r.troot .store r.world t.wakeBase.toNat 256 with
      | .error e => .error e
      | .ok a => .ok (s'.putRuns (dieNode home.die) 0 a bits)

/-- A write-back for a region that has faulted is delivered as PROT FRAME from the Keep, and the state stays with the
record (R361). -/
def State.backFault (s : State) (b : Nat) (home : BlockId) (t : Tile) (a : Nat) : State :=
  let (id, s) := s.formRecord (kProt, 9) (.writeBack b home t) home.launch 0 0 (BitVec.ofNat 64 a) [BitVec.ofNat 64 a]
  { s with faults := { s.faults with recs := tmod s.faults.recs id (fun r => { r with keep := true, block := 0 }) } }

/-- A write-back of a bound tile of a block (R246, R361). -/
def State.tileBack (s : State) (b : Nat) (t : Tile) : State :=
  let home := (s.block b).id
  match s.tileBackTry b home (s.launch home.launch).region t with
  | .ok s' => s'
  | .error e => s.backFault b home t e.2

/-! ### Bin dispatches (R253) -/

/-- The key under which a block's binding of its fault-bin tile stands beside the handles 0 to 15 (R271). -/
def faultBin : Nat := 16

/-- The groups of a block that have not exited. -/
def State.blockGroups (s : State) (b : Nat) : List (Nat × Group) :=
  s.groups.filter (fun e => e.2.id.block = b && decide (e.2.run.place ≠ .gone))

/-- Whether a record is unserved (R266). -/
def FRec.unserved (r : FRec) : Bool := decide (r.state ≤ 1)

/-- Whether the work of a record still stands as it parked: no service has reached it, or one waits for the resumption of its
block (R284). -/
def FRec.stands (r : FRec) : Bool := (r.unserved && decide (r.action = 0)) || r.service.isSome

/-- Whether a formation of a handle is parked (R254). -/
def State.formHeld (s : State) (b h : Nat) : Bool :=
  s.faults.recs.any (fun e => e.2.stands && decide (e.2.origin = .formation b h))

/-- The dispatch test of one handle: a pending dispatch joins the claim queue (R240, R253). -/
def State.tileTest (s : State) (b h : Nat) : State :=
  match tget (s.block b).tiles h with
  | none => s
  | some t =>
    let last := (s.blockGroups b).isEmpty
    if t.dispatch = .none ∧ t.nwoken > 0 ∧ ¬ s.formHeld b h ∧ (t.nwoken ≥ t.thresh ∨ t.binrun ∨ last ∨ h = faultBin) then
      s.modBlock b (fun B => { B with
        tiles := tput B.tiles h { t with dispatch := .claiming }
        claims := B.claims ++ [.bin h] })
    else s


/-- A handle is unbound: its state is written back and a pending dispatch is withdrawn, with the allotment it has
taken (R248). -/
def State.unbind (s : State) (b h : Nat) : State :=
  match tget (s.block b).tiles h with
  | none => s
  | some t =>
    let s := if h = faultBin then s else s.tileBack b t
    s.modBlock b (fun B => { B with
      tiles := tdel B.tiles h
      claims := B.claims.filter (· ≠ .bin h)
      free := (match t.dispatch with
        | .item | .placed _ => B.free + t.allot
        | _ => B.free) })

/-! ### Block records (R334, R335) -/

/-- The address of a block's record. -/
def Launch.recordOf (l : Launch) (index : Nat) : Nat := l.bundle.retireRec.toNat + 64 + index * (16 + 80 * l.g)

/-- A write of a block record in the bundle's address space; one that faults counts as lost. -/
def State.recordWrite (s : State) (l : Nat) (va : Nat) (f : List Byte → List Byte) (n : Nat) : State :=
  let L := s.launch l
  let lost := s.modLaunch l (fun x => { x with lost := x.lost + 1 })
  match s.vread [] L.region.troot L.region.world va n with
  | .error _ => lost
  | .ok b => match s.vwrite deviceNode L.region.troot L.region.world va (f b) with
    | .ok s' => s'
    | .error _ => lost

/-- The header and the zeroed entries that a block's start writes (R334); nothing of the record is read. -/
def State.startRecord (s : State) (b : Nat) : State :=
  let B := s.block b
  let L := s.launch B.id.launch
  let core := B.id.cores.headD 0
  let where_ := core / 16 + 4 * (core % 16) + (if B.id.spread then 64 else 0)
  match s.vwrite deviceNode L.region.troot L.region.world (L.recordOf B.id.index)
      (leBytes 4 B.id.index ++ leBytes 4 where_ ++ leBytes 8 0 ++ List.replicate (80 * L.g) 0) with
  | .ok s' => s'
  | .error _ => s.modLaunch B.id.launch (fun x => { x with lost := x.lost + 1 })

/-- Saturating addition of a 32-bit field. -/
def satAdd32 (x y : Nat) : Nat := min (x + y) 0xFFFFFFFF

/-- What a group's exit adds to its entry (R335). -/
def exitEntry (G : Group) (b : List Byte) : List Byte :=
  ((List.range 16).flatMap (fun i => leBytes 4 (satAdd32 (leAt b (4 * i) 4) (G.regs.stalls.getD i 0)))) ++
    leBytes 4 (satAdd32 (leAt b 64 4) G.regs.issued) ++
    leBytes 4 (leAt b 68 4 ||| G.regs.gflags.toNat) ++ leBytes 4 (leAt b 72 4 ||| G.regs.gwarn.toNat) ++
    leBytes 4 (satAdd32 (leAt b 76 4) 1)

/-! ### The end of threads, groups and blocks -/

/-- DATA of a record of types 3 to 6 (R342). -/
def State.groupData (s : State) (l block group : Nat) : List Byte :=
  leBytes 8 (s.launch l).bundle.addr.toNat ++ leBytes 4 block ++ leBytes 4 group

/-- The rows of a block's scratchpad tiles that are lost with it (R248). -/
def Block.rowsLost (b : Block) : Nat := ((b.tiles.filter (fun e => e.2.scratch)).map (fun e => e.2.nocc)).sum

/-- A block ends: its handles are unbound, rows lost are counted, and its place and stow area are free (R44, R248). -/
def State.blockEnd (s : State) (b : Nat) : State :=
  let B := s.block b
  let lost := B.rowsLost
  let L := s.launch B.id.launch
  let s := foldS (B.tiles.map Prod.fst) s (fun s h => s.unbind b h)
  let s := if lost = 0 then s
    else s.recordWrite B.id.launch (L.recordOf B.id.index + 8) (fun x => leBytes 4 (satAdd32 (leAt x 0 4) lost)) 4
  { (s.modLaunch B.id.launch (fun l => { l with
      exited := l.exited + 1
      dieLast := tput l.dieLast B.id.die s.clk.ns })) with blocks := tdel s.blocks b }

/-- Whether a formation of the block is parked. -/
def State.formationParked (s : State) (b : Nat) : Bool :=
  s.faults.recs.any (fun e => e.2.stands && (match e.2.origin with
    | .formation b' _ => decide (b' = b)
    | _ => false))

/-- A block whose last group has exited ends when no bin dispatch of it is pending or possible (R248, R253). -/
def State.blockCheck (s : State) (b : Nat) : State :=
  if ¬ (s.blockGroups b).isEmpty ∨ (tget s.blocks b).isNone then s
  else
    let s := foldS ((s.block b).tiles.map Prod.fst) s (fun s h => s.tileTest b h)
    if (s.block b).tiles.any (fun e => decide (e.2.dispatch ≠ .none) || (decide (e.1 = faultBin) && !e.2.occ.isEmpty)) ∨
        s.formationParked b then s
    else s.blockEnd b

/-- An open containment region closes: the held stores may drain, and snapshot registers whose names have since been
released are unpinned and go back (R283). -/
def State.closeContain (s : State) (g : Nat) : State :=
  match (s.group g).contain with
  | none => s
  | some c =>
    let core := s.coreOf g
    let s := s.modGroup g (fun G => { G with contain := none })
    foldS c.map s (fun s e => match e.2.map with
      | .phys p =>
        let s := s.modCore core (fun k => { k with pool := tmod k.pool p (fun r => { r with pinned := false }) })
        if (s.group g).map.any (fun x => decide (x.2.map = .phys p)) then s else s.dropPhys core p
      | .unif u =>
        if (s.group g).map.any (fun x => decide (x.2.map = .unif u)) then s
        else s.dropMapping core (.unif u)
      | .spilled _ _ _ _ => s)

/-- A group exits: an open containment region closes (R283), its registers are released, the flags of its results in flight count (DEDUCED, log entry 29), its counters go to the block record, its slot is free, its allotment
goes to FREE as R238 states (R81, R145, R335). What it has issued goes on. -/
def State.groupExit (s : State) (g : Nat) : State :=
  let s := (s.closeContain g).releaseAll g allLanes
  let s := foldS (s.pendsOf g) s (fun s e => s.orFlags g e.2.flags)
  let G := s.group g
  let core := s.coreOf g
  let L := s.launch G.id.launch
  let B := s.block G.id.block
  let s := s.recordWrite G.id.launch (L.recordOf B.id.index + 16 + 80 * G.id.index) (exitEntry G) 80
  let s := s.trace1 6 (srcOfPart G.id.part) L.region.regionId (s.groupData G.id.launch B.id.index G.id.index)
  let s := foldS (s.pendsOf g) s (fun s e =>
    ({ s with flight := { s.flight with pends := tdel s.flight.pends e.1 } }).unreserve core e.2.reserved)
  let h := (s.core core).held g
  let s := s.modBlock G.id.block (fun b => { b with
    free := b.free + (G.regs.allot + G.regs.owe - h)
    ghosts := if h = 0 then b.ghosts else tput b.ghosts g h })
  let s := s.modGroup g (fun G => { G with
    run := { G.run with place := .gone }
    regs := { G.regs with allot := 0, owe := 0 } })
  let s := (s.modCore core (fun c => { c with pwait := c.pwait.filter (fun q => q.gid ≠ g) })).modPart G.id.part
    (fun p => { p with last := if p.last = some g then none else p.last })
  s.blockCheck G.id.block

/-- A group whose lanes are all vacant exits (R81). -/
def State.exitCheck (s : State) (g : Nat) : State :=
  if (s.group g).occupied = 0 ∧ (s.group g).run.place ≠ .gone then s.groupExit g else s

/-! ### When a set operation is fully signed (R199, R200) -/

/-- A convergence register of a block. -/
def State.kreg (s : State) (b k : Nat) : KReg := (s.block b).kregs.getD k default

/-- The state with a convergence register changed. -/
def State.modKreg (s : State) (b k : Nat) (f : KReg → KReg) : State :=
  s.modBlock b (fun B => { B with kregs := (List.range 16).map (fun i =>
    if i = k then f (B.kregs.getD i default) else B.kregs.getD i default) })

/-- Whether every lane of every member that is not vacant has signed. -/
def State.matFull (s : State) (op : MatOp) : Bool :=
  op.members.all (fun m => decide ((s.group m.gid).run.place = .gone) || (tget s.groups m.gid).isNone ||
    decide ((s.group m.gid).occupied &&& ~~~m.signed = 0))

/-- The signing operation of a register leaves the signing state once it is fully signed: it enters the engine queue 2
ac later (R213), and checks as member 0's group does now (R303). -/
def State.kSettle (s : State) (b k : Nat) : State :=
  match (s.kreg b k).signing with
  | none => s
  | some id =>
    match tget s.mats id with
    | none => s
    | some op =>
      if ¬ s.matFull op then s
      else
        let (q, s) := s.freshSeq
        let chk := (s.group ((op.members.map MatMem.gid).headD 0)).regs.chk
        { (s.modKreg b k (fun x => { x with signing := none })) with
          mats := tput s.mats id { op with phase := .waiting, seq := q, due := s.clk.ac + 2, checks := chk } }

/-- Every signing operation of a block that has become fully signed. -/
def State.kSettleAll (s : State) (b : Nat) : State := foldS (List.range 16) s (fun s k => s.kSettle b k)

/-- Threads leave: their lanes are released from every mask and become vacant, which counts as signed (R81, R199). -/
def State.vacate (s : State) (g : Nat) (m : Mask) : State :=
  let s := (s.endHolds g m).releaseAll g m
  (s.modGroup g (fun G => G.modThreads m (fun _ t =>
    { t with st := .vacant, replay := none, stash := [], since := none, stack := [], noMatch := false }))).kSettleAll
      (s.group g).id.block

end Sys2Proof.Machine
end

