-- ==== Sys2Proof/Machine/Lanes.lean ====
section
/-! DEFINITION. Lane, predicate and reduction instructions (R141 to R143). -/
namespace Sys2Proof.Machine

/-- LANEID. -/
def execLaneid (f : TR) (s : State) : Res :=
  .next (s.vecOp (.laneid f) (opnds (.laneid f)) (fun _ _ l _ => lane1w (BitVec.ofNat 32 l)))

/-- The source lane of SHFL for a lane and its B value (R141). -/
def shflSrc (m : BitVec 2) (l : Nat) (b : Word) : Nat :=
  match m.toNat with
  | 0 => b.toNat % 128
  | 1 => if b.toNat ≥ 128 ∨ l < b.toNat then l else l - b.toNat
  | 2 => if l + b.toNat ≥ 128 then l else l + b.toNat
  | _ => l ^^^ (b.toNat % 128)

/-- The reads of SHFL's A operand at the source lanes: STALE, STALEREAD and poison concern the lanes that read (R95,
R141). -/
def State.shflReads (s : State) (f : TR) : State :=
  let is := s.iss
  let g := is.leader.gid
  let o := opnds (.shfl f)
  let na := s.fieldName g is.wb f.a.toNat
  let nb := s.fieldName g is.wb f.b.toNat
  let src (l : Nat) : Nat := shflSrc f.m l (s.readSrc g nb l).val
  let live := s.nameLive g na
  let bad := s.namePoison g na
  let act := is.leader.act
  let dead := maskOf ((lanesOf act).filter (fun l => !live.getLsbD (src l)))
  if s.stalechk g ∧ dead ≠ 0 then s.parkOut o g act (kStaleread, 1)
  else (if dead = 0 then s else s.warn g 0).consumePoison o g
    (maskOf ((lanesOf act).filter (fun l => bad.getLsbD (src l))))

/-- The checks of SHFL: those of every instruction, with A's reads checked at the source lanes (R141). -/
def State.beginShfl (s : State) (f : TR) : State :=
  ((s.beginStall (.shfl f) (opnds (.shfl f))).checkReads { opnds (.shfl f) with vs := [v1 f.b f.lb] } false).shflReads f

/-- SHFL (R141). -/
def execShfl (f : TR) (s : State) : Res :=
  let o := opnds (.shfl f)
  let b := s.beginShfl f
  let na := b.fieldName b.iss.leader.gid b.iss.wb f.a.toNat
  .next (s.vecRun (.shfl f) o (fun g l v => lane1w (b.readSrc g na (shflSrc f.m l (v.getD 1 0))).val) b)

/-- The predicate of a lane of a group. -/
def State.predOf (s : State) (g l p : Nat) : Bool := ((s.group g).thread l).pred p

/-- The active lanes of the leader in which a predicate is true. -/
def State.predLanes (s : State) (p : BitVec 7) : Mask :=
  let m := s.iss.leader
  maskOf ((lanesOf m.act).filter (fun l => s.predOf m.gid l (pf p)))

/-- VOTE.all (R141). -/
def execVoteAll (f : TR) (s : State) : Res :=
  let b := s.begin_ (.voteAll f) (opnds (.voteAll f))
  .next (s.vecRun (.voteAll f) (opnds (.voteAll f)) (fun _ _ _ => laneP (b.predLanes f.a = b.iss.leader.act)) b)
/-- VOTE.any (R141). -/
def execVoteAny (f : TR) (s : State) : Res :=
  let b := s.begin_ (.voteAny f) (opnds (.voteAny f))
  .next (s.vecRun (.voteAny f) (opnds (.voteAny f)) (fun _ _ _ => laneP (b.predLanes f.a ≠ 0)) b)
/-- VOTE.ballot (R141). -/
def execVoteBallot (f : TR) (s : State) : Res :=
  let o := opnds (.voteBallot f)
  let b := s.begin_ (.voteBallot f) o
  let n := b.rotated (.voteBallot f) b.iss
  let extra := if b.checkedNow (.voteBallot f) b.iss then 1 else 0
  let b := b.payCheck (.voteBallot f) b.iss
  if b.iss.leader.act = 0 then .next (b.advanceAll b.iss extra)
  else
    if n = 2 then .next ((b.parkMember b.iss o b.iss.leader.gid b.iss.leader.act (kSdcmis, 1)).advance b.iss.leader.gid
      (b.iss.leader.lanes &&& ~~~b.iss.leader.act) b.iss.next (b.nextReady b.iss extra))
    else
      let m := (b.predLanes f.a).toNat
      .next ((b.scalLater (.voteBallot f) o ((List.range 4).map (fun i => BitVec.ofNat 32 (m / 2 ^ (32 * i)))) 0 extra).advanceAll
        b.iss extra)

/-- PLOP by M: AND, OR, XOR, ANDN (R141). -/
def plop (m : BitVec 2) (a b : Bool) : Bool :=
  match m.toNat with
  | 0 => a && b
  | 1 => a || b
  | 2 => a ^^ b
  | _ => a && !b

/-- PLOP (R141). -/
def execPlop (f : TR) (s : State) : Res :=
  .next (s.vecOp (.plop f) (opnds (.plop f)) (fun s g l _ =>
    laneP (plop f.m (s.predOf g l (pf f.a)) (s.predOf g l (pf f.b)))))
/-- PMOV: each thread's own predicate (R141). -/
def execPmov (f : TR) (s : State) : Res :=
  .next (s.vecOp (.pmov f) (opnds (.pmov f)) (fun s g l _ => laneP (s.predOf g l (pf f.a))))
/-- PMOV.nz (R141). -/
def execPmovNz (f : TR) (s : State) : Res :=
  .next (s.vecOp (.pmovNz f) (opnds (.pmovNz f)) (fun s g _ _ => laneP (s.scalar g f.a.toNat ≠ 0)))
/-- PMOV.bit (R141). -/
def execPmovBit (f : TR) (s : State) : Res :=
  .next (s.vecOp (.pmovBit f) (opnds (.pmovBit f)) (fun s g l _ =>
    laneP ((s.scalar g (f.a.toNat + l / 32)).getLsbD (l % 32))))

/-! ### Reductions (R142, R143) -/

/-- One level of the tree: pairs of neighbours, where an empty node gives way to the other. -/
def redLevel {α : Type} (op : α → α → α) : List (Option α) → List (Option α)
  | x :: y :: r => (match x, y with
      | some a, some b => some (op a b)
      | some a, none => some a
      | none, z => z) :: redLevel op r
  | l => l

/-- The value of node(7, 0) over 128 leaves. -/
def redTree {α : Type} (op : α → α → α) (leaves : List (Option α)) : Option α :=
  ((List.range 7).foldl (fun l _ => redLevel op l) leaves).headD none

/-- The operation of a reduction: M 0 ADD, 1 MIN, 2 MAX, 3 OR; type 0 .i32, 1 .n32, 2 .f32. -/
def redOp (m ty : Nat) (ftz : Bool) (x y : Word × BitVec 6) : Word × BitVec 6 :=
  let (v, f) : Word × BitVec 6 := match m, ty with
    | 0, 2 => fpAdd ftz x.1 y.1
    | 1, 2 => fpMinMax false ftz x.1 y.1
    | 2, 2 => fpMinMax true ftz x.1 y.1
    | 0, _ => (x.1 + y.1, 0)
    | 1, t => (aluMin (t = 1) x.1 y.1, 0)
    | 2, t => (aluMax (t = 1) x.1 y.1, 0)
    | _, _ => (x.1 ||| y.1, 0)
  (v, f ||| x.2 ||| y.2)

/-- The leaves of a reduction of vA over the leader's active threads. -/
def State.redLeaves (s : State) (a : BitVec 7) : List (Option Word) :=
  let m := s.iss.leader
  let n := s.fieldName m.gid s.iss.wb a.toNat
  (List.range 128).map (fun l => if m.act.getLsbD l then some (s.readSrc m.gid n l).val else none)

/-- A leaf of an .f32 reduction: a subnormal read under FTZ is a zero of its sign (R114), and a NaN is the canonical one,
invalid where it signals (R107). -/
def redIn (ftz : Bool) (a : Word) : Word × BitVec 6 :=
  let x := f32v ftz a
  if x.isNan then (0x7FC00000#32, if x.isSnan then fNV else 0)
  else (if ftz ∧ fld a 23 8 = 0 then a &&& 0x80000000#32 else a, 0)

/-- The reduction of 32-bit types with the exceptions of its leaves and nodes. -/
def State.redValue (s : State) (f : TR) : Word × BitVec 6 :=
  let ftz := s.ftz s.iss.leader.gid
  (redTree (redOp f.m.toNat (fld f.b 0 2) ftz)
    ((s.redLeaves f.a).map (fun x => x.map (fun v => if fld f.b 0 2 = 2 then redIn ftz v else (v, 0))))).getD (0, 0)

/-- RED: every active lane has the result and the exceptions, so that an enabled one parks them all (R142). -/
def execRed (f : TR) (s : State) : Res :=
  let b := s.begin_ (.red f) (opnds (.red f))
  let r := b.redValue f
  .next (s.vecRun (.red f) (opnds (.red f)) (fun _ _ _ => lane1 r) b)

/-- The 64-bit value of VREDS: .i64 whole, .i32 sign-extended, the others zero-extended (R143). -/
def State.vredsValue (s : State) (f : TR) : Wide × BitVec 6 :=
  if fld f.b 0 2 = 3 then
    (BitVec.ofInt 64 (((s.redLeaves f.a).map (fun x => match x with
      | some v => v.toInt
      | none => 0)).sum), 0)
  else
    let r := s.redValue f
    (if fld f.b 0 2 = 0 then r.1.signExtend 64 else r.1.setWidth 64, r.2)

/-- VREDS: the group's next stamp is given at issue; RRES is written 8 ac later (R143). -/
def execVreds (f : TR) (s : State) : Res :=
  let i : Instr := .vreds f
  let o := opnds i
  let s := s.begin_ i o
  let is := s.iss
  let m := is.leader
  let n := s.rotated i is
  let extra := if s.checkedNow i is then 1 else 0
  let s := s.payCheck i is
  if m.act = 0 then .next (s.advanceAll is extra)
  else
    let r := s.vredsValue f
    let sub := trapSub (s.regionOf m.gid).trapen r.2
    let park (c : Cause) : Res := .next ((s.parkMember is o m.gid m.act c).advance m.gid (m.lanes &&& ~~~m.act) is.next
      (s.nextReady is extra))
    if n = 2 then park (kSdcmis, 1)
    else if sub ≠ 0 then park (kArith, sub)
    else
      let stamp := (s.group m.gid).regs.rres.stamp + 1
      let s := s.releaseSrcs m.gid is.wb o m.act
      let s := s.modRegs m.gid (fun x => { x with rres := { x.rres with stamp } })
      let none_ : Member := { m with act := 0 }
      .next (s.waitFor is none_ (.vreds r.1 stamp r.2) plainMark (s.clk.ac + 8 + extra) extra).2

/-- The oldest wait of a group that a test accepts. -/
def State.oldestWait (s : State) (p : Wait → Bool) : Option (Nat × Wait) :=
  (s.flight.waits.filter (fun e => p e.2)).foldl (fun best e => match best with
    | none => some e
    | some b => if e.2.seq < b.2.seq then some e else some b) none

/-- Whether a wait is a VREDS of a group. -/
def Wait.isVreds (w : Wait) (g : Nat) : Bool := w.gid = g && (match w.kind with
  | .vreds _ _ _ => true
  | _ => false)

/-- VREDS_COMPLETE: the oldest VREDS of a group that is due writes RRES (R143). -/
def execVredsComplete (group : Nat) (s : State) : Res :=
  match s.oldestWait (fun w => w.isVreds group) with
  | some (id, w) =>
    match w.kind with
    | .vreds v stamp fl =>
      if s.clk.ac < w.at_ then .next s
      else
        let s := s.modRegs group (fun x => { x with rres := { x.rres with value := v, seq := stamp, valid := true } })
        .next ((s.orFlags group fl).endWait id)
    | _ => .next s
  | none => .next s

/-- SREDW: its threads wait for the stamp (R143). Rotated checking compares the stamp that both of its runs wait for (R311). -/
def execSredw (f : TR) (s : State) : Res :=
  let i : Instr := .sredw f
  let o := opnds i
  let s := s.begin_ i o
  let is := s.iss
  let m := is.leader
  let n := s.rotated i is
  let extra := if s.checkedNow i is then 1 else 0
  let s := s.payCheck i is
  if m.act = 0 then .next (s.advanceAll is extra)
  else if n = 2 then .next ((s.parkMember is o m.gid m.act (kSdcmis, 1)).advance m.gid (m.lanes &&& ~~~m.act) is.next
    (s.nextReady is extra))
  else
    let stamp : BitVec 16 := (s.scalar m.gid f.a.toNat).extractLsb' 0 16
    .next (s.waitFor is m (.sredw f.d.toNat stamp) (scalMark o.sd) s.clk.ac extra).2

/-- SREDW_RETURN: the stamp stands in RRES (R143). -/
def execSredwReturn (wait : Nat) (s : State) : Res :=
  match tget s.flight.waits wait with
  | some w => match w.kind with
    | .sredw d stamp =>
      let r := (s.group w.gid).regs.rres
      if r.valid ∧ r.seq = stamp ∧ (s.group w.gid).run.place ≠ .stowed then
        .next ((s.waitPair w d r.value).endWait wait)
      else .next s
    | _ => .next s
  | none => .next s

end Sys2Proof.Machine
end

