-- ==== Sys2Proof/Machine/Control.lean ====
section
/-! DEFINITION. Branches, calls, loop frames and EXIT (R61, R62, R89, R144, R145). -/
namespace Sys2Proof.Machine

/-- A relative target (R62, R75). -/
def relTarget (pc : Wide) (off : Int) : Wide := pcOfSlot (slotNo pc + off)

/-- A PC register value: bits [63:56] are ignored (R144). -/
def retPc (x : Wide) : Wide := (x.setWidth 56).setWidth 64

/-- NOP. -/
def execNop (s : State) : Res :=
  let s := s.begin_ .nop Opnds.none
  .next (s.advanceAll s.iss 0)

/-- Active threads of every member take a target and the others go on. -/
def State.branchAll (s : State) (is : Issue) (target : Wide) : State :=
  foldS is.members s (fun s m =>
    (s.advance m.gid (m.lanes &&& ~~~m.act) is.next (s.nextReady is 0)).jumpLanes m.gid m.act (fun _ => target)
      (s.nextReady is 0))

/-- BRA (R144). -/
def execBra (f : BR) (l : Option Word) (s : State) : Res :=
  let s := s.begin_ (.bra f l) (opnds (.bra f l))
  .next (s.branchAll s.iss (relTarget s.iss.pc ((l.map BitVec.toInt).getD f.off.toInt)))

/-- CALL: the return PC goes to the pair once per split (R144). -/
def execCall (f : LU) (l : Option Word) (s : State) : Res :=
  let i : Instr := .call f l
  let s := s.begin_ i (opnds i)
  let is := s.iss
  let target := relTarget is.pc ((l.map BitVec.toInt).getD f.imm.toInt)
  let s := if is.leader.act = 0 then s else s.scalLater i (opnds i) [loWord is.next, hiWord is.next] 0 0
  .next (s.branchAll is target)

/-- RET through a scalar pair (R144). -/
def execRetScalar (f : TR) (s : State) : Res :=
  let s := s.begin_ (.retScalar f) (opnds (.retScalar f))
  .next (s.branchAll s.iss (retPc (s.pair s.iss.leader.gid f.a.toNat)))

/-- RET through each thread's own lane pair (R144). -/
def execRetVector (f : TR) (s : State) : Res :=
  let o := opnds (.retVector f)
  let s := s.begin_ (.retVector f) o
  let is := s.iss
  let m := is.leader
  let target (l : Nat) : Wide := match s.laneSrcs m.gid is.wb o l with
    | lo :: hi :: _ => retPc (wideOf hi lo)
    | _ => 0
  let s := s.releaseSrcs m.gid is.wb o m.act
  .next ((s.advance m.gid (m.lanes &&& ~~~m.act) is.next (s.nextReady is 0)).jumpLanes m.gid m.act target
    (s.nextReady is 0))

/-- The lanes of a mask whose thread meets a condition. -/
def State.lanesWhere (s : State) (g : Nat) (m : Mask) (p : Thread → Bool) : Mask :=
  maskOf ((lanesOf m).filter (fun l => p ((s.group g).thread l)))

/-- A change of WB by the active threads: those at a bad loop depth park with LOOPDEPTH, those whose new WB breaks the
limit with WINDOW, the others change WB and stack (R89, R17). -/
def State.changeWb (s : State) (o : Opnds) (badDepth : Thread → Bool) (new : Thread → Nat)
    (stack : Thread → List (BitVec 9)) : State :=
  let is := s.iss
  let m := is.leader
  let g := m.gid
  let stride := (s.group g).id.stride
  let deep := s.lanesWhere g m.act badDepth
  let wide := s.lanesWhere g (m.act &&& ~~~deep) (fun t => decide (new t > 384) || decide (new t > stride))
  let good := m.act &&& ~~~deep &&& ~~~wide
  let s := (s.parkMember is o g wide (kIllegal, 6)).parkMember is o g deep (kIllegal, 7)
  let s := s.advance g (m.lanes &&& ~~~deep &&& ~~~wide) is.next (s.nextReady is 0)
  s.modGroup g (fun G => G.modThreads good (fun _ t => { t with wb := BitVec.ofNat 9 (new t), stack := stack t }))

/-- LOOP (R89). -/
def execLoop (f : RI) (s : State) : Res :=
  let s := s.begin_ (.loop f) Opnds.none
  .next (s.changeWb Opnds.none (fun t => decide (t.stack.length ≥ 8)) (fun t => t.wb.toNat + f.imm.toNat)
    (fun t => t.wb :: t.stack))

/-- ENDL (R89). -/
def execEndl (s : State) : Res :=
  let s := s.begin_ .endl Opnds.none
  .next (s.changeWb Opnds.none (fun t => t.stack.isEmpty) (fun t => (t.stack.headD 0).toNat) (fun t => t.stack.tail))

/-- WBASE (R89). -/
def execWbase (f : RI) (s : State) : Res :=
  let s := s.begin_ (.wbase f) Opnds.none
  .next (s.changeWb Opnds.none (fun _ => false) (fun _ => f.imm.toNat) (fun t => t.stack))

/-- EXIT (R145). The last live lane closes an open containment region (R283). -/
def execExit (s : State) : Res :=
  let s := s.begin_ .exit Opnds.none
  let is := s.iss
  let m := is.leader
  let s := s.advance m.gid (m.lanes &&& ~~~m.act) is.next (s.nextReady is 0)
  let s := s.vacate m.gid m.act
  let s := if m.act ≠ 0 ∧ (s.group m.gid).lanesIn .live = 0 then s.closeContain m.gid else s
  .next (if m.act = 0 then s else s.exitCheck m.gid)

end Sys2Proof.Machine
end

