-- ==== Sys2Proof/Machine/SysRegs.lean ====
section
/-! DEFINITION. Checksums (R166), and the system register space as it reads and what may be accessed (R295, and the
rules that define each register). -/
namespace Sys2Proof.Machine

/-! ### Checksums (R166) -/

/-- One step of the reflected CRC with polynomial 0x82F63B78. -/
def crcBit (x : Nat) : Nat := if x % 2 = 1 then (x / 2) ^^^ 0x82F63B78 else x / 2
/-- A byte into the CRC-32C register. -/
def crcByte (x : Nat) (b : Byte) : Nat := (List.range 8).foldl (fun a _ => crcBit a) (x ^^^ b.toNat)
/-- Bytes into the CRC-32C register. -/
def crcRun (x : Nat) (b : List Byte) : Nat := b.foldl crcByte x
/-- The CRC-32C of bytes from the standard seed. -/
def crc32c (b : List Byte) : Nat := crcRun 0xFFFFFFFF b ^^^ 0xFFFFFFFF

/-- ADD32 over bytes: little-endian words, the last one padded with zero bytes. -/
def add32 : Nat → List Byte → Nat
  | x, b0 :: b1 :: b2 :: b3 :: r => add32 ((x + leNat [b0, b1, b2, b3]) % 2 ^ 32) r
  | x, r => (x + leNat r) % 2 ^ 32

/-! ### Blocks of R295 -/

/-- The blocks of the system register space (R295). -/
inductive SysBlock where
  | qreg | refresh | campanile | chipId | timesync | tlbinv | channels | banks | margin | fused | field | trace
  | mailbox
  deriving DecidableEq, Repr

/-- The block of an offset. -/
def sysBlock (off : Nat) : Option SysBlock :=
  if off < 0x10000 then some .qreg
  else if off < 0x10008 then some .refresh
  else if off < 0x10010 then some .campanile
  else if off < 0x10018 then some .chipId
  else if off < 0x10020 then some .timesync
  else if 0x10100 ≤ off ∧ off < 0x10108 then some .tlbinv
  else if 0x20000 ≤ off ∧ off < 0x30000 then some .channels
  else if 0x100000 ≤ off ∧ off < 0x200000 then some .banks
  else if 0x200000 ≤ off ∧ off < 0x300000 then some .margin
  else if 0x300000 ≤ off ∧ off < 0x301000 then some .fused
  else if 0x301000 ≤ off ∧ off < 0x302000 then some .field
  else if 0x400000 ≤ off ∧ off < 0x410000 then some .trace
  else if 0x500000 ≤ off ∧ off < 0x501000 then some .mailbox
  else none

/-- A 64-bit register image with what a write of some bytes at an offset gives. -/
def mergeWord (old off size val : Nat) : Nat :=
  if size = 8 then val % 2 ^ 64
  else
    let lo := 8 * (off % 8)
    let hi := lo + 8 * size
    old % 2 ^ lo + val % 2 ^ (8 * size) * 2 ^ lo + old / 2 ^ hi * 2 ^ hi

/-- Whether a TLBINV value is one that an N group may not write (R295). -/
def tlbinvBad (val : Wide) (asid : Nat) : Bool := val.getLsbD 16 || decide (fld val 0 16 ≠ asid)

/-- The fault of an access to a system register, if any (R293, R295, R313). -/
def sysCheck (off size : Nat) (writes : Bool) (val : Wide) (world : Bool) (asid : Nat) : Option Cause :=
  match sysBlock off with
  | none => some (kProt, 1)
  | some b =>
    match b with
    | .margin | .trace | .mailbox => if world then none else some (kProt, 3)
    | .qreg => none
    | .tlbinv =>
      if writes ∧ ¬ world ∧ tlbinvBad (BitVec.ofNat 64 (mergeWord 0 off size val.toNat)) asid then some (kProt, 3) else none
    | .banks =>
      if ¬ bankExists ((off - 0x100000) / 64) then some (kProt, 1)
      else if writes ∧ ¬ world then some (kProt, 4) else none
    | .refresh | .campanile | .chipId | .timesync | .channels | .fused | .field =>
      if writes then some (kProt, 4) else none

/-- Whether a write covers all 64 bits of its register. -/
def SysWrite.wide (w : SysWrite) : Bool := decide (w.size = 8)

/-! ### What registers read as -/

/-- An entry of sys.QREG as 128 bits (R29). -/
def QEntry.image (q : QEntry) : Nat :=
  q.header.toNat + 2 ^ 64 * ((if q.valid then 1 else 0) + (if q.world then 2 else 0) + (if q.err then 4 else 0))

/-- sys.WSREFRESH (R155). -/
def wsRefreshWord : Nat := 64 + 2 ^ 16 * 2000 + 2 ^ 32 * 250 + 2 ^ 48 * 31

/-- sys.TIMESYNC (R324). -/
def TimeSync.image (t : TimeSync) : Nat :=
  t.state % 4 + 2 ^ 8 * (t.port % 16) + 2 ^ 32 * (t.offset % (2 ^ 32 : Nat)).toNat

/-- STATUS of an error bank (R314). -/
def Bank.status (b : Bank) : Nat :=
  b.state % 4 + (if b.ovf then 4 else 0) + (if b.seen then 8 else 0) + 2 ^ 8 * b.ueovf + 2 ^ 16 * b.cecount

/-- An error bank as 64 bytes (R314). -/
def Bank.image (b : Bank) : List Byte :=
  leBytes 8 b.status ++ leBytes 8 b.addr.toNat ++ leBytes 4 b.info.toNat ++ leBytes 4 b.origin.toNat ++
    leBytes 8 b.time.toNat ++ List.replicate 32 0

/-- A rail's register (R348). -/
def Rail.image (r : Rail) : Nat :=
  r.step.toNat + (if r.busy then 2 ^ 8 else 0) + (if r.err then 2 ^ 9 else 0) + 2 ^ 32 * r.mv.toNat

/-- A lane's two words (R349). -/
def LaneReg.image (r : LaneReg) : Nat :=
  r.taps.toNat + 2 ^ 64 * ((if r.done then 2 else 0) + (if r.err then 4 else 0) + 2 ^ 8 * r.phase.toNat +
    2 ^ 16 * r.volt.toNat + 2 ^ 32 * r.errcnt.toNat)

/-- A die's entry of a defect map (R350). -/
def DefectDie.image (d : DefectDie) : List Byte :=
  leBytes 2 d.cores.toNat ++ leBytes 1 d.fenced.toNat ++ List.replicate 5 0 ++ leBytes 8 d.parts.toNat ++
    (List.range 16).map (fun i => d.lanesp.getD i 0) ++
    (List.range 16).flatMap (fun i => leBytes 4 ((tget d.sprep i).getD 0).toNat) ++
    leBytes 4 d.wsrep.toNat ++ leBytes 4 d.dramRows.toNat ++ leBytes 8 d.failTime.toNat ++ List.replicate 896 0

/-- A defect map as 4 KiB (R350). SERIAL is 0 (DESIGN CHOICE, log entry 4). -/
def defectImage (t : Tab DefectDie) : List Byte :=
  let body := (List.range 4).flatMap (fun d => (tgetD t d).image)
  leBytes 4 1 ++ leBytes 8 0 ++ leBytes 4 (crc32c body) ++ List.replicate 48 0 ++ body

/-- TRCTL and the other words of the trace control block (R341). -/
def Trace.word (t : Trace) (o : Nat) : Nat :=
  match o / 8 with
  | 0 => (if t.en then 1 else 0) + (if t.stopFull then 2 else 0) + (if t.err then 4 else 0) + 2 ^ 16 * t.types.toNat
  | 1 => t.base
  | 2 => t.size
  | 3 => t.wptr
  | 4 => t.lost
  | 5 => t.sample.toNat
  | _ => 0

/-- BOOTSTATE of the mailbox (R347): the last unit released is one below the count of released units. -/
def Boot.word (b : Boot) : Nat :=
  (b.released - 1) % 32 + (if b.slotB then 32 else 0) + (if b.failed then 64 else 0)

/-- The 4 KiB of the Spire mailbox (R347). -/
def State.mailByte (s : State) (o : Nat) : Byte :=
  let m := s.spire.mail
  if o = 0 then m.cmd
  else if o = 1 then m.status
  else if 4 ≤ o ∧ o < 8 then (leBytes 4 s.spire.boot.word).getD (o - 4) 0
  else if 0x40 ≤ o ∧ o < 0x100 then (tget m.arg (o - 0x40)).getD 0
  else if 0x100 ≤ o ∧ o < 0x300 then m.resp.getD (o - 0x100) 0
  else 0

/-- A channel's context block (R163, R295). -/
def State.chanWord (s : State) (o : Nat) : Nat :=
  let ch := (tget s.copies.chans (16 * (o / 0x4000) + o % 0x4000 / 0x400)).getD default
  let i := o % 0x400
  if i < 64 then (tgetD ch.ctxs (i / 8)).wptr.toNat
  else if i / 8 = 32 then ch.warn.toNat
  else 0

/-- The aligned 8 bytes of the system register space that hold an offset, as a number. -/
def State.sysWord (s : State) (off : Nat) : Nat :=
  match sysBlock off with
  | none => 0
  | some b =>
    match b with
    | .qreg => (tgetD s.belfry.qreg (off / 16)).image / 2 ^ (off % 16 / 8 * 64) % 2 ^ 64
    | .refresh => wsRefreshWord
    | .campanile => s.clk.ns
    | .chipId => Config.chipId
    | .timesync => s.spire.sync.image
    | .tlbinv => 0
    | .channels => s.chanWord (off - 0x20000)
    | .banks => leAt (tgetD s.spire.banks ((off - 0x100000) / 64)).image (off % 64 / 8 * 8) 8
    | .margin =>
      let o := off - 0x200000
      if o ≥ 0x1000 then
        (tgetD s.spire.lanes ((o - 0x1000) / 16)).image / 2 ^ (o % 16 / 8 * 64) % 2 ^ 64
      else (tgetD s.spire.rails (o / 8)).image
    | .fused => leAt (defectImage s.spire.fused) ((off - 0x300000) / 8 * 8) 8
    | .field => leAt (defectImage s.spire.field) ((off - 0x301000) / 8 * 8) 8
    | .trace => s.trace.word (off - 0x400000)
    | .mailbox => leNat ((List.range 8).map (fun i => s.mailByte ((off - 0x500000) / 8 * 8 + i)))

/-- A read of `n` bytes at an offset. -/
def State.sysValue (s : State) (off n : Nat) : Wide :=
  BitVec.ofNat 64 (s.sysWord off / 2 ^ (8 * (off % 8)) % 2 ^ (8 * n))

/-- SEEN is set by a world-S read of STATUS (R314, R315). -/
def State.seeBank (s : State) (i : Nat) (world : Bool) : State :=
  if world then s.modSpire (fun p => { p with banks := tupd p.banks i (fun b => { b with seen := true }) }) else s

/-- What a read of a system register does besides giving its value. -/
def State.sysReadEffect (s : State) (off : Nat) (world : Bool) : State :=
  match sysBlock off with
  | some .banks => if off % 64 < 8 then s.seeBank ((off - 0x100000) / 64) world else s
  | _ => s

end Sys2Proof.Machine
end

