-- ==== Sys2Proof/Machine/Memory.lean ====
section
/-! DEFINITION. Loads, stores, atomics and LDSP of kernels, and the steps of the ordering machine that perform them
(R171 to R184, R220 to R226). -/
namespace Sys2Proof.Machine

/-! ### Addresses, scopes and orders (R76, R78, R173) -/

/-- What a memory instruction asks for. -/
structure MemReq where
  kind : OpKind
  opcode : Nat
  scratch : Bool
  size : Nat
  scope : Nat
  acq : Bool
  rel : Bool
  deriving DecidableEq, Repr

/-- DISP of a memory extension word (R76). -/
def extDisp (e : Option Word) : Int :=
  match e with
  | some w => sextN 24 (fld w 8 24)
  | none => 0
/-- SCOPE of an access: an order at scope .grp takes .blk (R78). -/
def extScope (e : Option Word) : Nat :=
  match e with
  | some w => if fld w 3 2 ≠ 0 ∧ fld w 0 3 = 0 then 1 else fld w 0 3
  | none => 0
/-- Whether an access carries an order; on a load it is an acquire, on a store a release (R78). -/
def extOrder (e : Option Word) : Bool :=
  match e with
  | some w => fld w 3 2 ≠ 0
  | none => false

/-- The displacement of MODE 1; an extension word governs instead of OFF7 (R76, R78, R173). -/
def off7 (f : ME) (e : Option Word) : Int := if e.isSome then 0 else f.off.toInt * szOf f.size

/-- The address of LD, ST, LDWS and PREF in a lane (R173). -/
def State.addrGlobal (s : State) (f : ME) (e : Option Word) (g l : Nat) : Wide :=
  let base := s.pair g f.a.toNat
  let off : Int := if f.mode then off7 f e
    else (s.readName g (s.fieldName g s.iss.wb f.off.toNat) l).val.toNat
  base + BitVec.ofInt 64 (off + extDisp e)

/-- The address of LDC (R173). -/
def State.addrScalar (s : State) (f : ME) (e : Option Word) (g : Nat) : Wide :=
  let off : Int := if f.mode then off7 f e else (s.scalar g f.off.toNat).toNat
  s.pair g f.a.toNat + BitVec.ofInt 64 (off + extDisp e)

/-- The offset of LDS and STS in a lane (R173). -/
def State.addrScratch (s : State) (f : ME) (e : Option Word) (g l : Nat) : Wide :=
  let a := (s.readName g (s.fieldName g s.iss.wb f.a.toNat) l).val
  let off : Int := if f.mode then off7 f e else (s.scalar g f.off.toNat).toNat
  (a + BitVec.ofInt 32 (off + extDisp e)).setWidth 64

/-- The address of ATOM in a lane (R183). -/
def State.addrAtom (s : State) (f : TR) (e : Word) (g l : Nat) : Wide :=
  s.pair g f.a.toNat + BitVec.ofInt 64
    ((s.readName g (s.fieldName g s.iss.wb f.b.toNat) l).val.toNat + sextN 16 (fld e 16 16))

/-- The offset of ATOMS in a lane (R183). -/
def State.addrAtoms (s : State) (f : TR) (e : Word) (g l : Nat) : Wide :=
  ((s.readName g (s.fieldName g s.iss.wb f.a.toNat) l).val +
    BitVec.ofInt 32 ((s.scalar g f.b.toNat).toNat + sextN 16 (fld e 16 16))).setWidth 64

/-! ### The checks of one lane -/

/-- The access class of an operation. -/
def MemReq.acc (r : MemReq) : Acc :=
  match r.kind with
  | .load => .load
  | .store => .store
  | .atomic _ _ => .atomic

/-- What follows a translation: the weight store for LDWS (R179), scratchpad and system registers reached through it
(R174, R293). -/
def State.afterXlat (s : State) (r : MemReq) (g : Nat) (data : Wide) (pa : Nat) : Option Cause :=
  let reg := s.regionOf g
  if r.opcode = 0x6D ∧ ¬ inWeight pa then some (kProt, 4)
  else
    match window pa with
    | .scratch _ _ => s.scratchCheck g pa r.size r.acc.writes
    | .sys off =>
      if r.acc = .atomic then some (kProt, 4) else sysCheck off r.size r.acc.writes data reg.world reg.asid
    | _ => none

/-- LDWS reads only the weight store: where its address translates into a hole, PERM takes the place of HOLE (R179). -/
def MemReq.fix (r : MemReq) (c : Cause) : Cause := if r.opcode = 0x6D ∧ c = (kProt, 1) then (kProt, 4) else c

/-- The address checks of one lane: its physical address, a fault, or a miss (R150, R173, R174). SRD.sys and SWR.sys
(opcode 0x12) name an offset of the system register space, with no translation (R293).
DEDUCED, log entry 30. -/
def State.laneCheck (s : State) (r : MemReq) (g : Nat) (addr data : Wide) : Xlat :=
  if r.opcode = 0x12 then
    match sysCheck addr.toNat r.size r.acc.writes data (s.regionOf g).world (s.regionOf g).asid with
    | some c => .bad c
    | none => .ok (sysBase + addr.toNat)
  else if r.scratch then
    let o : Word := addr.setWidth 32
    if o.toNat % r.size ≠ 0 then .bad (kProt, 6)
    else
      match s.scratchForm g o with
      | .error c => .bad c
      | .ok pa => match s.scratchCheck g pa r.size r.acc.writes with
        | some c => .bad c
        | none => .ok pa
  else if addr.toNat ≥ 2 ^ 56 then .bad (kProt, 1)
  else if addr.toNat % r.size ≠ 0 then .bad (kProt, 6)
  else
    match s.xlatGroup g r.acc addr.toNat with
    | .ok pa => match s.afterXlat r g data pa with
      | some c => .bad c
      | none => .ok pa
    | .bad c => .bad (r.fix c)
    | .miss => .miss

/-- The 64-bit value of data words. -/
def dataWide (d : List Word) : Wide := wideOf (d.getD 1 0) (d.getD 0 0)

/-! ### Parking the lanes of an operation (R171, R268) -/

/-- The causes met by the lanes of an operation, in ascending order of kind and subcode. -/
def MemOp.causes (m : MemOp) : List Cause :=
  (m.lanes.filterMap (fun x => if x.parked then none else x.cause)).foldl (fun acc c =>
    if acc.contains c then acc
    else acc.takeWhile (fun d => decide (d.1 < c.1) || (decide (d.1 = c.1) && decide (d.2 < c.2))) ++ c ::
      acc.dropWhile (fun d => decide (d.1 < c.1) || (decide (d.1 = c.1) && decide (d.2 < c.2)))) []

/-- Where an operation's instruction stands, for its lanes that park; its replay reads no register (R171). -/
def MemOp.at_ (m : MemOp) : At := ⟨m.pc, m.next, m.wb, m.phase, m.seq, [], true⟩

/-- The threads that a lane of an operation stands for: an operation that acts once stands for every active thread. -/
def MemOp.threads (m : MemOp) (x : LaneOp) : Mask := if m.lanes.length ≤ 1 then m.mask else laneBit x.lane

/-- The lanes of an operation that met a cause park with one record; an operation that acts once parks every active
thread (R171). Poison in an open containment region unwinds it instead (R282). -/
def State.parkCause (s : State) (id : Nat) (c : Cause) : State :=
  match tget s.flight.ops id with
  | none => s
  | some m =>
    let hit := m.lanes.filter (fun x => !x.parked && x.cause = some c)
    let first := hit.headD default
    let mask := if m.lanes.length ≤ 1 then m.mask else maskOf (hit.map LaneOp.lane)
    let find (l : Nat) : LaneOp := (m.lanes.find? (fun x => x.lane = l)).getD first
    let s := { s with flight := { s.flight with ops := tput s.flight.ops id { m with
      lanes := m.lanes.map (fun (x : LaneOp) => if !x.parked && x.cause = some c then { x with parked := true } else x) } } }
    if c.1 = kPoison ∧ (s.group m.gid).contain.isSome then s.unwind m.gid 1
    else
      s.parkLanes m.gid (mask &&& (s.group m.gid).occupied) c m.at_ first.addr first.opval
        (fun l => some ((find l).addr, (find l).data))

/-- Every cause met is parked. -/
def State.parkCauses (s : State) (id : Nat) : State :=
  match tget s.flight.ops id with
  | none => s
  | some m => foldS m.causes s (fun s c => s.parkCause id c)

/-! ### Completion (R68, R172) -/

/-- A lane of an operation is over: performed, or parked. -/
def LaneOp.over (x : LaneOp) : Bool := x.done || x.parked

/-- The lanes of an operation that have been performed. -/
def MemOp.doneMask (m : MemOp) : Mask := maskOf ((m.lanes.filter (fun x => x.done && !x.parked)).map LaneOp.lane)

/-- The value that a lane of an operation brings to its j-th destination. -/
def MemOp.valAt (m : MemOp) (j l : Nat) : Word :=
  match m.lanes.find? (fun x => x.lane = l) with
  | some x => if j = 0 then loWord x.value else hiWord x.value
  | none => 0

/-- A load or atomic whose lanes are all over lands its results, parks what it has met, and clears its slot. -/
def State.finishOp (s : State) (id : Nat) : State :=
  match tget s.flight.ops id with
  | none => s
  | some m =>
    if m.kind = .store ∨ ¬ m.lanes.all (fun x => x.over || x.cause.isSome) then s
    else
      let s := s.parkCauses id
      let m := (tget s.flight.ops id).getD m
      let s := { s with flight := { s.flight with ops := tdel s.flight.ops id } }
      let w := m.doneMask
      let s := match m.sdest with
        | some d =>
          if m.lanes.any (fun x => x.done && !x.parked) then
            let v := (m.lanes.headD default).value
            if m.size = 8 then s.landPair m.gid d v m.mask m.seq else s.landScalar m.gid d (loWord v) m.mask m.seq
          else s
        | none => foldS m.dests.zipIdx s (fun s e =>
            s.landVec m.gid e.1 w (lanesFn (m.valAt e.2)) (m.resv.getD e.2 none))
      (s.dropResv m.gid (m.resv.drop (if m.sdest.isSome then 0 else m.dests.length))).clearSlot m.gid m.slot

/-- Whether a store has an entry in its group's FIFO, at a node below the node of its scope, or on its way to a system
register. -/
def State.storePending (s : State) (id : Nat) (m : MemOp) : Bool :=
  (s.group m.gid).fifo.any (fun e => e.op = id) ||
    (below (pathOf (s.coreOf m.gid)) (s.scopeNode m.gid m.scope)).any (fun n => (s.node n).any (fun e => e.op = id)) ||
    s.flight.sysw.any (fun e => e.2.op = id)

/-- Stores that have reached the coherence points of their scopes clear their slots (R172). -/
def State.settle (s : State) : State :=
  foldS (s.flight.ops.map Prod.fst) s (fun s id =>
    match tget s.flight.ops id with
    | none => s
    | some m =>
      if m.kind = .store ∧ m.lanes.all (fun x => x.pa.isSome || x.parked) ∧ ¬ s.storePending id m then
        ({ s with flight := { s.flight with ops := tdel s.flight.ops id } }).clearSlot m.gid m.slot
      else s)

/-- Once every lane of an operation has its translation or its fault, the faults park, waiting lanes go on and their
last-use names are released, and parked store lanes leave the FIFO (R151, R177, R268). -/
def State.resolveOp (s : State) (id : Nat) : State :=
  match tget s.flight.ops id with
  | none => s
  | some m =>
    if ¬ m.lanes.all (fun x => x.pa.isSome || x.cause.isSome || x.parked) then s
    else
      let bad := maskOf ((m.lanes.filter (fun x => x.cause.isSome)).map LaneOp.lane)
      let back := m.mask &&& (s.group m.gid).lanesIn .waiting
      let s := s.modGroup m.gid (fun G => { (G.modThreads back (fun _ t => { t with st := .live, since := none })) with
        fifo := G.fifo.filter (fun e => !(e.op = id && bad.getLsbD e.lane)) })
      let s := foldS m.late s (fun s n => s.releaseName m.gid n (back &&& ~~~bad))
      let s := s.parkCauses id
      if m.kind = .store then s.settle else s.finishOp id

/-! ### Issue -/

/-- The replay operands of a lane that takes them from its record (R171). -/
def State.replayOf (s : State) (g l : Nat) : Option Replay :=
  match ((s.group g).thread l).replay with
  | some r => if r.go && !r.fresh && r.known then some r else none
  | none => none

/-- One lane of an operation at issue. -/
def State.laneOpAt (s : State) (r : MemReq) (o : Opnds) (g l : Nat) (addr : Wide) (data : List Word) : LaneOp :=
  let (addr, data) := match s.replayOf g l with
    | some x => (x.addr, x.data)
    | none => (addr, data)
  let base : LaneOp := ⟨l, addr, none, false, false, none, data, 0, s.opval s.iss o g l⟩
  match s.laneCheck r g addr (dataWide data) with
  | .ok pa => { base with pa := some pa }
  | .bad c => { base with cause := some c }
  | .miss => base

/-- The bytes that a store lane writes. -/
def storeBytes (size : Nat) (data : List Word) : List Byte := leBytes size (dataWide data).toNat

/-- The operation that a member's instruction puts in flight; `phase` is PHASE at its issue. -/
def memOpOf (r : MemReq) (o : Opnds) (is : Issue) (m : Member) (phase : BitVec 5) (names late : List Nat)
    (lanes : List LaneOp) (resv : List (Option Nat)) : MemOp :=
  { gid := m.gid, phase, kind := r.kind, mask := m.act, late, opcode := r.opcode
    scratch := r.scratch, size := r.size, scope := r.scope, acq := r.acq, rel := r.rel
    dests := names, sdest := o.sd.head?, slot := varSlot is, pc := is.pc, next := is.next, wb := is.wb
    seq := is.seq
    lanes, resv }

/-- The lanes of a store enter the group's FIFO in the given order; an open containment region holds those of a store to
device memory (R221, R282). -/
def State.memEnqueue (s : State) (r : MemReq) (g id : Nat) (lanes : List LaneOp) : State :=
  let q := s.iss.seq
  if r.kind = .store then
    s.modGroup g (fun G => { G with
      fifo := G.fifo ++ (lanes.filter (fun x => x.cause.isNone)).map (fun x =>
        ⟨q, id, x.lane, x.addr, x.pa, storeBytes r.size x.data, r.scope, r.rel⟩)
      contain := if r.scratch ∨ r.opcode = 0x12 then G.contain
        else G.contain.map (fun c => { c with stores := c.stores ++ [id] }) })
  else s

/-- An operation enters the machine: walks start for misses, whose lanes wait, the threads go on, and the slot is
marked (R68, R151, R172). -/
def State.memEnter (s : State) (r : MemReq) (o : Opnds) (is : Issue) (m : Member) (once : Bool) (names late : List Nat)
    (lanes : List LaneOp) (resv : List (Option Nat)) : State :=
  let g := m.gid
  let s := s.poolDone g
  let (id, s) := s.freshId
  let missing := lanes.filter (fun x => x.pa.isNone && x.cause.isNone)
  let s := foldS missing s (fun s x =>
    s.startWalk (s.coreOf g) (s.regionOf g).asid (s.regionOf g).troot x.addr.toNat)
  let s := s.advance g m.lanes is.next (s.nextReady is 0)
  let s := s.setLanes g (if once then (if missing.isEmpty then 0 else m.act) else maskOf (missing.map LaneOp.lane)) .waiting
  let op := memOpOf r o is m (s.group g).regs.phase names (if missing.isEmpty then [] else late) lanes resv
  let s := { s with flight := { s.flight with ops := tput s.flight.ops id op } }
  ((s.memEnqueue r g id lanes).markSlot g (varSlot is)
    { op := id, mem := decide (0x68 ≤ r.opcode) && decide (r.opcode ≤ 0x73), ldws := r.opcode = 0x6D, set := none, names
      scalars := o.sd, preds := [], count := 1 }).resolveOp id

/-- Threads of a memory instruction that park before it executes keep the address and the data that it would have for the replay
(R171, R268). -/
def State.keepMemory (once : Bool) (addr : State → Nat → Nat → Wide) (data : State → Nat → Nat → List Word) (ms : List Member)
    (s : State) : State :=
  foldS ms s (fun s m =>
    let hit := (lanesOf m.lanes).filter (fun l =>
      let t := (s.group m.gid).thread l
      decide (t.st = .parked) && t.replay.any (fun r => !r.known))
    if hit.isEmpty then s
    else
      let low := hit.headD 0
      s.modGroup m.gid (fun G => G.modThreads (maskOf hit) (fun l t =>
        let at_ := if once then low else l
        { t with replay := t.replay.map (fun r => { r with addr := addr s m.gid at_, data := data s m.gid at_, known := true }) })))

/-- A memory instruction starts: its reads are checked, and the threads that park keep its address and data. -/
def State.memBegin (i : Instr) (o : Opnds) (once : Bool) (addr : State → Nat → Nat → Wide)
    (data : State → Nat → Nat → List Word) (s : State) : State :=
  (s.begin_ i o).keepMemory once addr data s.iss.members

/-- A memory operation of one member: its lanes are checked, last-use names are released in lanes with a translation,
registers are set aside, and it enters the machine (R68, R96, R177). -/
def State.memMember (r : MemReq) (o : Opnds) (once : Bool) (addr : State → Nat → Nat → Wide)
    (data : State → Nat → Nat → List Word) (s : State) (m : Member) : State :=
  let is := s.iss
  let g := m.gid
  if m.act = 0 then s.advance g m.lanes is.next (s.nextReady is 0)
  else
    let lanes := (if once then [lowLane m.act] else lanesOf m.act).map (fun l =>
      s.laneOpAt r o g l (addr s g l) (data s g l))
    let names := s.writeNames g is.wb o
    let good := maskOf ((lanes.filter (fun x => x.pa.isSome)).map LaneOp.lane)
    let late := ((o.vs.filter (·.last)).flatMap (fun v => v.fields.map (s.fieldName g is.wb))).filter (· < shadowName)
    let s1 := s.releaseSrcs g is.wb o good
    let needs := names.map (fun n => s1.needsPhys g n m.act false)
    match s1.poolSays g (needs.filter id).length (.split is.pc is.wb) with
    | .fault => ((s.parkMember is o g m.act (kIllegal, 0x0A)).keepMemory once addr data [m]).advance g (m.lanes &&& ~~~m.act) is.next
        (s.nextReady is 0)
    | _ => (s1.reserveAll g needs).2.memEnter r o is m once names late lanes (s1.reserveAll g needs).1

/-- A member's sources released, and which of its destinations need a register then. -/
def State.memAsks (o : Opnds) (s : State) (m : Member) : State × List Bool :=
  let s1 := s.releaseSrcs m.gid s.iss.wb o m.act
  (s1, (s.writeNames m.gid s.iss.wb o).map (fun x => s1.needsPhys m.gid x m.act false))

/-- A memory instruction whose reads have been checked.
DEDUCED, log entry 13. -/
def State.memRunOp (r : MemReq) (o : Opnds) (once : Bool) (addr : State → Nat → Nat → Wide)
    (data : State → Nat → Nat → List Word) (s0 : State) (s : State) : State :=
  match State.firstWait (.split s.iss.pc s.iss.wb) (State.memAsks o) s.iss.members s with
  | some (g, n) => s0.poolWait s0.iss g n
  | none => foldS s.iss.members s (State.memMember r o once addr data)

/-- Whether a group's next held store instruction would be the 33rd of its open region (R282). -/
def State.containFull (s : State) (g : Nat) : Bool :=
  match (s.group g).contain with
  | some c => decide (c.stores.length ≥ 32)
  | none => false

/-- An instruction that an open containment region does not allow unwinds it with a code (R282). -/
def State.unwindOut (s : State) (g code : Nat) : State := { s.unwind g code with issue := some (s.iss.drop g allLanes) }

/-- The members that a test names unwind their regions. -/
def State.unwindWhere (s : State) (code : Nat) (p : State → Nat → Bool) : State :=
  foldS s.iss.members s (fun s m => if m.act ≠ 0 ∧ p s m.gid then s.unwindOut m.gid code else s)

/-- Whether a group has an open region. -/
def State.inContain (s : State) (g : Nat) : Bool := (s.group g).contain.isSome

/-- The request of an ME instruction. -/
def meReq (f : ME) (e : Option Word) (kind : OpKind) (opcode : Nat) (scratch : Bool) : MemReq :=
  { kind, opcode, scratch, size := szOf f.size, scope := extScope e
    acq := decide (kind = .load) && extOrder e, rel := decide (kind = .store) && extOrder e }

/-- The data words of a store's D operand in a lane. -/
def State.wordsAt (s : State) (g l : Nat) (fields : List Nat) : List Word :=
  fields.map (fun f => (s.readName g (s.fieldName g s.iss.wb f) l).val)

/-- A vector load. -/
def State.loadOp (i : Instr) (f : ME) (e : Option Word) (opcode : Nat) (scratch : Bool) (s : State) : State :=
  let addr (s : State) (g l : Nat) : Wide := if scratch then s.addrScratch f e g l else s.addrGlobal f e g l
  s.memRunOp (meReq f e .load opcode scratch) (opnds i) false addr (fun _ _ _ => [])
    (s.memBegin i (opnds i) false addr (fun _ _ _ => []))

/-- A vector store; the 33rd of an open containment region unwinds it first (R282). -/
def State.storeOp (i : Instr) (f : ME) (e : Option Word) (opcode : Nat) (scratch : Bool) (s : State) : State :=
  let addr (s : State) (g l : Nat) : Wide := if scratch then s.addrScratch f e g l else s.addrGlobal f e g l
  let data (s : State) (g l : Nat) : List Word := s.wordsAt g l (meData f)
  let b := s.memBegin i (opnds i) false addr data
  let b := if scratch then b else b.unwindWhere 2 State.containFull
  s.memRunOp (meReq f e .store opcode scratch) (opnds i) false addr data b

/-- A scalar load (R178). -/
def State.ldcOp (i : Instr) (f : ME) (e : Option Word) (s : State) : State :=
  let addr (s : State) (g _ : Nat) : Wide := s.addrScalar f e g
  s.memRunOp (meReq f e .load 0x6C false) (opnds i) true addr (fun _ _ _ => [])
    (s.memBegin i (opnds i) true addr (fun _ _ _ => []))

/-- A hint to L2: its operands are read and it has no other effect (R180). -/
def State.prefOp (i : Instr) (s : State) : State :=
  let s := s.begin_ i (opnds i)
  let is := s.iss
  (s.releaseSrcs is.leader.gid is.wb (opnds i) is.leader.act).advanceAll is 0

/-- LD (R176). -/
def execLd (f : ME) (s : State) : Res := .next (s.loadOp (.ld f) f none 0x68 false)
/-- LD with an extension word. -/
def execLdExtended (f : ME) (e : Word) (s : State) : Res := .next (s.loadOp (.ldExtended f e) f (some e) 0x68 false)
/-- ST (R177). -/
def execSt (f : ME) (s : State) : Res := .next (s.storeOp (.st f) f none 0x69 false)
/-- ST with an extension word. -/
def execStExtended (f : ME) (e : Word) (s : State) : Res := .next (s.storeOp (.stExtended f e) f (some e) 0x69 false)
/-- LDS (R176). -/
def execLds (f : ME) (s : State) : Res := .next (s.loadOp (.lds f) f none 0x6A true)
/-- LDS with an extension word. -/
def execLdsExtended (f : ME) (e : Word) (s : State) : Res := .next (s.loadOp (.ldsExtended f e) f (some e) 0x6A true)
/-- STS (R177). -/
def execSts (f : ME) (s : State) : Res := .next (s.storeOp (.sts f) f none 0x6B true)
/-- STS with an extension word. -/
def execStsExtended (f : ME) (e : Word) (s : State) : Res := .next (s.storeOp (.stsExtended f e) f (some e) 0x6B true)
/-- LDC (R178). -/
def execLdc (f : ME) (s : State) : Res := .next (s.ldcOp (.ldc f) f none)
/-- LDC with an extension word. -/
def execLdcExtended (f : ME) (e : Word) (s : State) : Res := .next (s.ldcOp (.ldcExtended f e) f (some e))
/-- LDWS (R179). -/
def execLdws (f : ME) (s : State) : Res := .next (s.loadOp (.ldws f) f none 0x6D false)
/-- LDWS with an extension word. -/
def execLdwsExtended (f : ME) (e : Word) (s : State) : Res :=
  .next (s.loadOp (.ldwsExtended f e) f (some e) 0x6D false)
/-- PREF (R180). -/
def execPref (f : ME) (s : State) : Res := .next (s.prefOp (.pref f))
/-- PREF with an extension word. -/
def execPrefExtended (f : ME) (e : Word) (s : State) : Res := .next (s.prefOp (.prefExtended f e))

/-! ### Atomics (R183, R184) -/

/-- The request of an atomic; an order at scope .grp keeps it, as R78 speaks of non-atomic accesses. -/
def atomReq (e : Word) (opcode : Nat) (scratch : Bool) : MemReq :=
  { kind := .atomic (fld e 0 4) (e.getLsbD 11), opcode, scratch, size := if fld e 4 2 = 1 then 8 else 4
    scope := fld e 6 3, acq := e.getLsbD 9, rel := e.getLsbD 10 }

/-- An atomic instruction; an open containment region unwinds with ILL (R184). -/
def State.atomOp (i : Instr) (f : TR) (e : Word) (opcode : Nat) (scratch : Bool) (s : State) : State :=
  let addr (s : State) (g l : Nat) : Wide := if scratch then s.addrAtoms f e g l else s.addrAtom f e g l
  let data (s : State) (g l : Nat) : List Word := s.wordsAt g l (atomData f e)
  s.memRunOp (atomReq e opcode scratch) (opnds i) false addr data
    ((s.memBegin i (opnds i) false addr data).unwindWhere 3 State.inContain)

/-- ATOM (R184). -/
def execAtom (f : TR) (e : Word) (s : State) : Res := .next (s.atomOp (.atom f e) f e 0x70 false)
/-- ATOMS (R184). -/
def execAtoms (f : TR) (e : Word) (s : State) : Res := .next (s.atomOp (.atoms f e) f e 0x71 true)

/-- The new value of an atomic of width `w` bits, with the exceptions of .fadd (R184). -/
def atomNew (ftz : Bool) (aop w : Nat) (old b cmp new : Nat) : Nat × BitVec 6 :=
  let m := 2 ^ w
  let lt := decide (sextN w b < sextN w old)
  match aop with
  | 0 => ((old + b) % m, 0)
  | 1 => ((old + (m - b % m)) % m, 0)
  | 2 => (if lt then b else old, 0)
  | 3 => (if lt then old else b, 0)
  | 4 => (min old b, 0)
  | 5 => (max old b, 0)
  | 6 => (old &&& b, 0)
  | 7 => (old ||| b, 0)
  | 8 => (old ^^^ b, 0)
  | 9 => (b, 0)
  | 10 => (if old = cmp then new else old, 0)
  | _ =>
    let r := fpAdd ftz (BitVec.ofNat 32 old) (BitVec.ofNat 32 b)
    (r.1.toNat, r.2)

/-! ### Performing (R223 to R226) -/

/-- Whether an earlier load or atomic of one of some threads, not yet performed, overlaps some bytes (R223). -/
def State.earlierOverlap (s : State) (g id : Nat) (threads : Mask) (pa n : Nat) : Bool :=
  s.flight.ops.any (fun e => decide (e.1 < id) && e.2.gid = g && decide (e.2.kind ≠ .store) &&
    e.2.lanes.any (fun x => decide (e.2.threads x &&& threads ≠ 0) && !x.over && x.cause.isNone && (match x.pa with
      | some p => overlap p e.2.size pa n
      | none => true)))

/-- The byte of a load: the newest earlier entry of its group's FIFO, else the bank, or the path (R224); none where it
is poisoned. -/
def State.loadByte (s : State) (g id a : Nat) : Option Byte :=
  let own := ((s.group g).fifo.filter (fun e => decide (e.op < id))).reverse.findSome? (fun e =>
    match e.pa with
    | some p => if p ≤ a ∧ a < p + e.bytes.length then some (e.bytes.getD (a - p) 0) else none
    | none => none)
  match own with
  | some b => some b
  | none => s.pathByte (if a ≥ scratchBase then [] else pathOf (s.coreOf g)) a

/-- Updates one lane of an operation. -/
def State.modLane (s : State) (id lane : Nat) (f : LaneOp → LaneOp) : State :=
  { s with flight := { s.flight with ops := tmod s.flight.ops id (fun m => { m with
    lanes := m.lanes.map (fun x => if x.lane = lane then f x else x) }) } }

/-- A lane of an operation that is still to be performed, with its address. -/
def MemOp.todo (m : MemOp) (lane : Nat) : Option (LaneOp × Nat) :=
  match m.lanes.find? (fun x => x.lane = lane) with
  | some x => if x.over || x.cause.isSome then none else x.pa.map (fun p => (x, p))
  | none => none

/-- Whether a load lane may be performed now (R155, R223). -/
def State.loadReady (s : State) (id : Nat) (m : MemOp) (x : LaneOp) (pa : Nat) : Bool :=
  !s.earlierOverlap m.gid id (m.threads x) pa m.size && !s.refreshHeld pa &&
    !((s.group m.gid).fifo.any (fun e => decide (e.op < id) && e.pa.isNone))

/-- LOAD_PERFORM: one lane of a load reads its bytes (R224), or a system register (R293). -/
def execLoadPerform (op lane : Nat) (s : State) : Res :=
  match tget s.flight.ops op with
  | none => .next s
  | some m =>
    match m.todo lane with
    | none => .next s
    | some (x, pa) =>
      if m.kind ≠ .load ∨ ¬ s.loadReady op m x pa then .next s
      else if pa ≥ sysBase then
        let off := pa - sysBase
        let v := s.sysValue off m.size
        .next (((s.sysReadEffect off (s.regionOf m.gid).world).modLane op lane
          (fun x => { x with done := true, value := v })).finishOp op)
      else
        let s := if m.scope > 1 ∧ pa < scratchBase then
            (s.pushToward (pathOf (s.coreOf m.gid)) (s.scopeNode m.gid m.scope) pa m.size).settle
          else s
        let bytes := (List.range m.size).map (fun i => s.loadByte m.gid op (pa + i))
        let s := if bytes.any Option.isNone then s.modLane op lane (fun x => { x with cause := some (s.poisonCause pa) })
          else s.modLane op lane (fun x => { x with
            done := true, value := BitVec.ofNat 64 (leNat (bytes.map (fun b => b.getD 0))) })
        .next (s.finishOp op)

/-- The conditions of a release at a scope (R181, R225, R231): earlier loads and atomics of the threads are over, and
earlier stores of the group have entered the node of the scope or one beyond. -/
def State.releaseOk (s : State) (g id : Nat) (lanes : Mask) (scope : Nat) : Bool :=
  !(s.flight.ops.any (fun e => decide (e.1 < id) && e.2.gid = g && decide (e.2.kind ≠ .store) &&
      decide (e.2.mask &&& lanes ≠ 0))) &&
    !((s.group g).fifo.any (fun e => decide (e.op < id))) &&
    !((below (pathOf (s.coreOf g)) (s.scopeNode g scope)).any (fun n =>
      (s.node n).any (fun e => e.gid = g && decide (e.op < id) && decide (e.op ≠ 0)))) &&
    !(s.flight.sysw.any (fun e => e.2.gid = g && decide (e.2.op < id)))

/-- Whether an atomic lane may be performed now: R223, R226, ascending lanes of equal address (R184), a release. -/
def State.atomReady (s : State) (id : Nat) (m : MemOp) (x : LaneOp) (pa : Nat) : Bool :=
  !s.earlierOverlap m.gid id (m.threads x) pa m.size &&
    m.lanes.all (fun y => y.lane ≥ x.lane || y.over || y.cause.isSome || (match y.pa with
      | some p => !overlap p m.size pa m.size
      | none => false)) &&
    !((s.group m.gid).fifo.any (fun e => decide (e.op < id) && (match e.pa with
      | some p => overlap p e.bytes.length pa m.size
      | none => true))) &&
    (!m.rel || s.releaseOk m.gid id m.mask m.scope)

/-- ATOMIC_PERFORM: one lane of an atomic reads and writes at the node of its scope, or at its bank (R184, R226). -/
def execAtomicPerform (op lane : Nat) (s : State) : Res :=
  match tget s.flight.ops op with
  | none => .next s
  | some m =>
    match m.todo lane, m.kind with
    | some (x, pa), .atomic aop _ =>
      if ¬ s.atomReady op m x pa then .next s
      else
        let path := pathOf (s.coreOf m.gid)
        let bank := pa ≥ scratchBase
        let target := if bank then deviceNode else s.scopeNode m.gid m.scope
        let s := if bank then s else (s.pushToward path target pa m.size).settle
        let bytes := (List.range m.size).map (fun i =>
          s.pathByte (if bank then [] else path.dropWhile (· ≠ target)) (pa + i))
        if bytes.any Option.isNone then
          .next ((s.modLane op lane (fun x => { x with cause := some (s.poisonCause pa) })).finishOp op)
        else
          let old := leNat (bytes.map (fun b => b.getD 0))
          let d (k : Nat) : Nat :=
            if m.size = 8 then (wideOf (x.data.getD (2 * k + 1) 0) (x.data.getD (2 * k) 0)).toNat
            else (x.data.getD k 0).toNat
          let (v, fl) := atomNew (s.ftz m.gid) aop (8 * m.size) old (d 0) (d 0) (d 1)
          let sub := trapSub (s.regionOf m.gid).trapen fl
          if sub ≠ 0 then
            .next ((s.modLane op lane (fun x => { x with cause := some (kArith, sub) })).finishOp op)
          else
            let s := (s.nodeWrite target m.gid pa (leBytes m.size v)).orFlags m.gid fl
            .next ((s.modLane op lane (fun x => { x with done := true, value := BitVec.ofNat 64 old })).finishOp op)
    | _, _ => .next s

/-- Whether an operation is an acquire: by its order, or because it reads a system register (R181, R293). -/
def MemOp.acquires (m : MemOp) : Bool :=
  m.acq || (decide (m.kind = .load) && m.lanes.any (fun x => (x.pa.map (fun p => decide (p ≥ sysBase))).getD false))

/-- Whether a group's open containment region holds a FIFO entry (R225, R282). -/
def Group.holds (G : Group) (e : StoreEntry) : Bool := (G.contain.map (fun c => c.stores.contains e.op)).getD false

/-- The entry that leaves a group's FIFO next: its head, unless an open containment region holds it (R225). Entries leave
in order, so a held head holds what stands behind it, and whatever waits for that. DEDUCED, log entry 31. -/
def Group.fifoHead (G : Group) : Option StoreEntry := G.fifo.head?.filter (fun e => !G.holds e)

/-- Whether a store is a release: by its order, or because it writes a system register (R225, R293). -/
def StoreEntry.releases (e : StoreEntry) : Bool := e.rel || (e.pa.map (fun p => decide (p ≥ sysBase))).getD false

/-- The scope of a release; that of a system register is .sys (R293). -/
def StoreEntry.relScope (e : StoreEntry) : Nat := if (e.pa.map (fun p => decide (p ≥ sysBase))).getD false then 6 else e.scope

/-- Whether a FIFO entry may leave (R225). The lanes of a release are those of its operation. -/
def State.drainReady (s : State) (g : Nat) (e : StoreEntry) : Bool :=
  e.pa.isSome && (!e.releases || s.releaseOk g e.op (((tget s.flight.ops e.op).map MemOp.mask).getD allLanes) e.relScope)

/-- STORE_DRAIN: the head entry enters the core node, writes its bank, or goes to its system register (R225, R293). -/
def execStoreDrain (group : Nat) (s : State) : Res :=
  match (s.group group).fifoHead with
  | none => .next s
  | some e =>
    if ¬ s.drainReady group e then .next s
    else
      let pa := e.pa.getD 0
      let s := s.modGroup group (fun G => { G with fifo := G.fifo.erase e })
      let s := if pa ≥ sysBase then
          let (id, s) := s.freshId
          let r := s.regionOf group
          let w : SysWrite := ⟨pa - sysBase, e.bytes.length, BitVec.ofNat 64 (leNat e.bytes), r.world, r.asid,
            e.op, group⟩
          { s with flight := { s.flight with sysw := tput s.flight.sysw id w } }
        else if pa ≥ scratchBase then s.devWrite pa e.bytes
        else
          let n := s.coreOf group
          s.setNode n (s.node n ++ [⟨e.op, group, pa, e.bytes⟩])
      .next s.settle

/-- STORE_PUSH: an entry that no older one overlaps moves to the parent node (R222).
DEDUCED, log entry 23. -/
def execStorePush (node entry : Nat) (s : State) : Res :=
  let l := s.node node
  match l[entry]? with
  | none => .next s
  | some e =>
    if node ≥ deviceNode ∨ (l.take entry).any (fun x => overlap x.pa x.bytes.length e.pa e.bytes.length) then .next s
    else .next (((s.setNode node (l.eraseIdx entry)).pushOut node e).settle)

/-! ### Walks (R151) -/

/-- TLB_WALK_DONE: a walk that has a walker ends, its leaf is cached, and the lanes that wait for it have an address or a fault. -/
def execTlbWalkDone (walk : Nat) (s : State) : Res :=
  match tget s.flight.walks walk with
  | none => .next s
  | some w =>
    if ¬ s.walkRuns walk w ∨ s.walkHeld w.troot (w.page * 65536) then .next s
    else
    let s := { s with flight := { s.flight with walks := tdel s.flight.walks walk } }
    let leaf := s.walkLeaf w.troot (w.page * 65536)
    let s := match leaf with
      | .ok e => s.tlbPut w.tlb { e with asid := w.asid }
      | .error _ => s
    let mine := s.flight.ops.filter (fun e => s.coreOf e.2.gid = w.tlb && (s.regionOf e.2.gid).asid = w.asid)
    .next (foldS mine s (fun (s : State) (e : Nat × MemOp) =>
      let m := e.2
      let req : MemReq := ⟨m.kind, m.opcode, m.scratch, m.size, m.scope, m.acq, m.rel⟩
      let fix (x : LaneOp) : LaneOp :=
        if x.pa.isSome ∨ x.cause.isSome ∨ x.parked ∨ x.addr.toNat / 65536 ≠ w.page then x
        else
          match leaf with
          | .error c => { x with cause := some (fixPage req.acc c) }
          | .ok t =>
            match s.permit t req.acc (s.regionOf m.gid).world x.addr.toNat with
            | .error c => { x with cause := some (req.fix c) }
            | .ok pa => match s.afterXlat req m.gid (dataWide x.data) pa with
              | some c => { x with cause := some c }
              | none => { x with pa := some pa }
      let m' : MemOp := { m with lanes := m.lanes.map fix }
      if m' = m then s
      else
        let s := { s with flight := { s.flight with ops := tput s.flight.ops e.1 m' } }
        let s := s.modGroup m.gid (fun G => { G with fifo := G.fifo.map (fun (x : StoreEntry) =>
          if x.op = e.1 ∧ x.pa.isNone then
            { x with pa := ((m'.lanes.find? (fun y => y.lane = x.lane)).bind LaneOp.pa) }
          else x) })
        s.resolveOp e.1))

/-- WS_REFRESH_WINDOW_END: the reads that waited at a weight-store bank go on (R155). -/
def execWsRefreshWindowEnd (die bank : Nat) (s : State) : Res :=
  let held := s.flight.ops.flatMap (fun e => e.2.lanes.filterMap (fun x =>
    match x.pa with
    | some p => match window p with
      | .weight d off =>
        if d = die ∧ off / 4096 % 32 = bank ∧ e.2.kind = .load ∧ ¬ x.over then some (e.1, x.lane) else none
      | _ => none
    | none => none))
  .next (foldS held s (fun s p => match execLoadPerform p.1 p.2 s with
    | .next t => t
    | _ => s))

end Sys2Proof.Machine
end

