-- ==== Sys2Proof/Machine/Sync.lean ====
section
/-! DEFINITION. LDSP and its transfers (R182), PHPOST (R243), fences (R185, R227) and scoreboard waits (R186). -/
namespace Sys2Proof.Machine

/-! ### Bytes into a block's scratchpad -/

/-- A split has not issued: its threads try again in the next cycle, and the issue slot was not used. -/
def State.notIssued (s : State) : State :=
  foldS s.iss.members s.unissue (fun s m => s.modGroup m.gid (fun G => G.modThreads m.lanes (fun _ t =>
    { t with ready := s.clk.ac + 1 })))

/-- An engine arrival is on its way (R157). -/
def State.addArrival (s : State) (a : Arrival) : State :=
  let (id, s) := s.freshId
  { s with flight := { s.flight with arrivals := tput s.flight.arrivals id a } }

/-! ### LDSP (R182) -/

/-- The block and the block offset of LDSP's destination, when [o, o + n) lies within one permitted range of R174 and
meets no barrier window. An empty range lies within every range. -/
def State.ldspTarget (s : State) (g : Nat) (o : Word) (n : Nat) : Option (Nat × Nat) :=
  if n = 0 then some ((s.group g).id.block, 0)
  else if ¬ o.getLsbD 31 then
    if o.toNat + n + 256 ≤ (s.blockOf g).id.t then some ((s.group g).id.block, o.toNat) else none
  else
    match s.scratchForm g o with
    | .error _ => none
    | .ok pa =>
      match s.scratchOwner pa with
      | none => none
      | some (b, off) =>
        let B := s.block b
        if B.id.launch = (s.group g).id.launch ∧ ¬ (B.id.keep ∧ (s.group g).run.place ≠ .keep) ∧
            off + n + 256 ≤ B.id.t ∧ s.scratchOwner (pa + (n - 1)) = some (b, off + n - 1) then
          some (b, off)
        else none

/-- GEN of a barrier as LDSP and CPSUB read it: at the bank, right after the group's last operation that is still on its way there
(R189). -/
def State.genAt (s : State) (g b : Nat) : Gen :=
  let B := s.blockOf g
  match (B.bank.filter (fun x => decide (x.gid = g))).getLast? with
  | none => .value (B.bars.getD b default).gen
  | some x => .behind x.seq

/-- The check that LDSP fails, with the address that its record holds. -/
def State.ldspCheck (s : State) (g : Nat) (o : Word) (src : Wide) (n : Nat) : Except (Cause × Wide) (Nat × Nat) :=
  if src.toNat % 4 ≠ 0 then .error ((kProt, 6), src)
  else if o.toNat % 4 ≠ 0 ∨ n % 4 ≠ 0 then .error ((kProt, 6), o.setWidth 64)
  else if n > 0x200000 then .error ((kProt, 5), o.setWidth 64)
  else match s.ldspTarget g o n with
    | none => .error ((kProt, 5), o.setWidth 64)
    | some t => .ok t

/-- The operands of LDSP: the scratchpad offset, the source address and the count, as the lowest active lane's replay keeps
them, or as the registers hold them (R171, R182). The source is the replay's address, the offset and the count its data.
DEDUCED, log entry 13. -/
def State.ldspArgs (s : State) (f : TR) (g l : Nat) : Word × Wide × Word :=
  match s.replayOf g l with
  | some r => (r.data.getD 0 0, r.addr, r.data.getD 1 0)
  | none => (s.scalar g f.d.toNat, s.pair g f.a.toNat, s.scalar g f.b.toNat)

/-- Whether an LDSP of some active threads has no entry of the transfer unit to take (R182). -/
def State.ldspFull (s : State) (f : TR) (g : Nat) (act : Mask) : Bool :=
  let (off, src, count) := s.ldspArgs f g (lowLane act)
  decide (act ≠ 0) && decide (count ≠ 0) && decide (tfree (s.core (s.coreOf g)).xfer ≥ 16) &&
    (match s.ldspCheck g off src count.toNat with
      | .ok _ => true
      | .error _ => false)

/-- LDSP: a transfer is queued, bound to the barrier's generation; a full transfer unit holds the split back. In an open
containment region it unwinds with ILL (R282). -/
def execLdsp (f : TR) (e : Word) (s : State) : Res :=
  let i : Instr := .ldsp f e
  let o := opnds i
  let b := (s.begin_ i o).unwindWhere 3 State.inContain
  let is := b.iss
  let m := is.leader
  let g := m.gid
  if m.act = 0 then .next (b.advanceAll is 0)
  else
    let (off, src, count) := b.ldspArgs f g (lowLane m.act)
    let n := count.toNat
    match b.ldspCheck g off src n with
    | .error (c, addr) =>
      .next ((b.parkLanes g m.act c (b.atIssue is g []) addr (b.opval is o g (lowLane m.act)) (fun _ => some (src, [off, count]))).advance
        g (m.lanes &&& ~~~m.act) is.next (b.nextReady is 0))
    | .ok (blk, dst) =>
      let core := b.coreOf g
      let bar := fld e 0 4
      let entry := tfree (b.core core).xfer
      if n = 0 then
        .next ((b.addArrival ⟨some (b.group g).id.block, bar, b.genAt g bar, 0, g, none⟩).finish is)
      else if entry ≥ 16 then .next s.notIssued
      else
        let (id, b) := b.freshId
        let t : Transfer :=
          { id, gid := g, block := blk, launch := (b.group g).id.launch, src, dst, n, bar, gen := b.genAt g bar
            seq := id, done := [], parked := [], again := [], killed := false }
        .next ((b.modCore core (fun c => { c with xfer := tput c.xfer entry t })).finish is)

/-! ### Transfers -/

/-- A transfer by its identity, with its core and entry. -/
def State.findXfer (s : State) (id : Nat) : Option (Nat × Nat × Transfer) :=
  s.cores.findSome? (fun c => (c.2.xfer.find? (fun e => e.2.id = id)).map (fun e => (c.1, e.1, e.2)))

/-- Offset and size of a segment of a transfer: the pieces of the source between multiples of 4 KiB. -/
def Transfer.range (t : Transfer) (seg : Nat) : Option (Nat × Nat) :=
  let p := (t.src.toNat / 4096 + seg) * 4096
  let lo := max t.src.toNat p
  let hi := min (t.src.toNat + t.n) (p + 4096)
  if lo < hi then some (lo - t.src.toNat, hi - lo) else none

/-- The number of segments of a transfer. -/
def Transfer.count (t : Transfer) : Nat :=
  if t.n = 0 then 0 else (t.src.toNat + t.n - 1) / 4096 - t.src.toNat / 4096 + 1

/-- Where a segment of a transfer moves now: the source, the destination and the number of bytes, from an offset in the segment
on. -/
def Transfer.plan (t : Transfer) (seg : Nat) : Option (Nat × Nat × Nat × Nat) :=
  (t.range seg).map (fun r =>
    let a := (tget t.again seg).getD (0, t.src.toNat + r.1, t.dst + r.1)
    (a.2.1 + a.1, a.2.2 + a.1, r.2 - a.1, a.1))

/-- The physical runs of a transfer's source, as far as it translates, and the fault that it meets with its offset. -/
def State.xferRuns (s : State) (core : Nat) (t : Transfer) (va n : Nat) : List (Nat × Nat) × Option (Cause × Nat) :=
  let r := (s.launch t.launch).region
  match s.coreRuns core r.asid r.troot .load r.world va n with
  | .ok l => (l, none)
  | .error (c, a) => match s.coreRuns core r.asid r.troot .load r.world va (a - va) with
    | .ok l => (l, some (c, a - va))
    | .error _ => ([], some (c, 0))

/-- Moves `n` bytes of a transfer from a virtual address to a block offset: the state, and where it stopped (R162). -/
def State.xferMove (s : State) (core : Nat) (t : Transfer) (va dst n : Nat) : State × Option (Cause × Nat) :=
  let p := s.xferRuns core t va n
  if p.1.any (fun r => decide (r.1 ≥ scratchBase) && (s.scratchCheck t.gid r.1 r.2 false).isSome) then (s, some ((kProt, 5), 0))
  else
    let pas := p.1.flatMap (fun r => (List.range r.2).map (fun i => r.1 + i))
    let read (a : Nat) : Option Byte := s.pathByte (if a ≥ scratchBase then [] else pathOf core) a
    match pas.findIdx? (fun a => (read a).isNone) with
    | none => (s.blockPut t.block dst (pas.map (fun a => (read a).getD 0)), p.2)
    | some k =>
      let a := pas.getD k 0
      let stop := k - min k (a % 32)
      (s.blockPut t.block dst ((pas.take stop).map (fun a => (read a).getD 0)), some (s.poisonCause a, stop))

/-- OPVAL of a transfer's segment (R269): the addresses are those of the segment's first byte (R289). -/
def Transfer.opval (t : Transfer) (core entry seg off : Nat) : List Wide :=
  let first := ((t.range seg).map Prod.fst).getD 0
  let a := (tget t.again seg).getD (0, t.src.toNat + first, t.dst + first)
  [BitVec.ofNat 64 (core / 16 + 4 * (core % 16) + 64 * entry + 2 ^ 15 + 2 ^ 16 * seg), BitVec.ofNat 64 (first + off),
   BitVec.ofNat 64 a.2.1, BitVec.ofNat 64 a.2.2]

/-- A transfer whose every segment is done makes its arrival and leaves its entry. -/
def State.xferDone (s : State) (core entry : Nat) : State :=
  match tget (s.core core).xfer entry with
  | none => s
  | some t =>
    if t.done.length < t.count then s
    else
      let s := s.modCore core (fun c => { c with xfer := tdel c.xfer entry })
      s.addArrival ⟨some (s.group t.gid).id.block, t.bar, t.gen, t.n, t.gid, none⟩

/-- A segment of a transfer is done. -/
def State.xferSegDone (s : State) (core entry seg : Nat) : State :=
  (s.modCore core (fun c => { c with xfer := tmod c.xfer entry (fun t =>
    { t with done := seg :: t.done, parked := t.parked.filter (fun x => x.1 ≠ seg) }) })).xferDone core entry

/-- A segment of a transfer parks at an offset in it; the faulting address is that of the source there. -/
def State.xferPark (s : State) (core entry seg off : Nat) (c : Cause) : State :=
  match tget (s.core core).xfer entry with
  | none => s
  | some t =>
    let (id, s) := s.formRecord c (.transfer core entry seg) t.launch (s.group t.gid).id.index 0
      ((t.opval core entry seg off).getD 2 0 + BitVec.ofNat 64 off) (t.opval core entry seg off)
    s.modCore core (fun k => { k with xfer := tmod k.xfer entry (fun t => { t with
      parked := (seg, id) :: t.parked, again := tdel t.again seg }) })

/-- Whether a segment may move: it is there and untouched, and every store that the group issued before the LDSP has
drained (R230). -/
def State.xferReady (s : State) (t : Transfer) (seg : Nat) : Bool :=
  (t.range seg).isSome && !t.done.contains seg && !t.parked.any (fun x => x.1 = seg) && !t.killed &&
    !((s.group t.gid).fifo.any (fun e => decide (e.op < t.id)))

/-- Whether the source of a segment waits for a walker, or for a refresh window (R151, R155). -/
def State.xferHeld (s : State) (core : Nat) (t : Transfer) (va n : Nat) : Bool :=
  let r := (s.launch t.launch).region
  s.coreHeld core r.asid r.troot r.world va n

/-- Whether a service has sent a segment out of its block's scratchpad, which LDSP checks at issue (R182, R290). -/
def State.xferAstray (s : State) (t : Transfer) (seg dst n : Nat) : Bool :=
  (tget t.again seg).isSome && decide (dst + n + 256 > (s.block t.block).id.t)

/-- TRANSFER_SEGMENT: one segment moves, or parks.
A source in a weight-store bank's refresh window waits (R155). DEDUCED, log entry 32. -/
def execTransferSegment (transfer segment : Nat) (s : State) : Res :=
  match s.findXfer transfer with
  | none => .next s
  | some (core, entry, t) =>
    match t.plan segment with
    | none => .next s
    | some (va, dst, n, start) =>
      if ¬ s.xferReady t segment ∨ s.xferHeld core t va n then .next s
      else if s.xferAstray t segment dst n then .next (s.xferPark core entry segment start (kProt, 5))
      else
        let r := (s.launch t.launch).region
        match (s.coreFills core r.asid r.troot va n).xferMove core t va dst n with
        | (s, none) => .next (s.xferSegDone core entry segment)
        | (s, some (c, k)) => .next (s.xferPark core entry segment (start + k) c)

/-! ### PHPOST (R243) -/

/-- The phase result word of PHPOST, low word first. -/
def phaseResult (value sel : Word) : List Word := [BitVec.ofNat 32 (fld sel 16 16 * 65536 + fld sel 0 2), value]

/-- PHPOST: an 8-byte store-release at .dev of the phase result word; nothing when PHASEWORD is 0. -/
def execPhpost (f : TR) (s : State) : Res :=
  let i : Instr := .phpost f
  let o := opnds i
  let b := s.begin_ i o
  let addr (s : State) (g : Nat) : Wide := (s.launch (s.group g).id.launch).bundle.phaseWord
  if addr b b.iss.leader.gid = 0 then .next (b.finish b.iss)
  else
    let b := b.unwindWhere 2 State.containFull
    .next (s.memRunOp
    { kind := .store, opcode := 0x16, scratch := false, size := 8, scope := 5, acq := false, rel := true } o true
    (fun s g _ => addr s g) (fun s g _ => phaseResult (s.scalar g f.d.toNat) (s.scalar g f.a.toNat)) b)

/-! ### FENCE and WAITSB -/

/-- FENCE: its threads wait; a fence with neither bit is full (R78, R185). -/
def execFence (f : TR) (s : State) : Res :=
  let s := s.begin_ (.fence f) Opnds.none
  let is := s.iss
  let full := !f.b.getLsbD 3 && !f.b.getLsbD 4
  if is.leader.act = 0 then .next (s.advanceAll is 0)
  else .next (s.waitFor is is.leader (.fence (full || f.b.getLsbD 3) (full || f.b.getLsbD 4) (fld f.b 0 3))
    { plainMark with mem := true } s.clk.ac 0).2

/-- The acquire part of a fence: the loads and atomics that its threads issued before it are over. -/
def State.earlierLoadsOver (s : State) (g id : Nat) (lanes : Mask) : Bool :=
  !(s.flight.ops.any (fun e => decide (e.1 < id) && e.2.gid = g && decide (e.2.kind ≠ .store) &&
    decide (e.2.mask &&& lanes ≠ 0)))

/-- The release part: every store that the group issued before it has entered the node of the scope or one beyond.
DEDUCED, log entry 31. -/
def State.earlierStoresOut (s : State) (g id scope : Nat) : Bool :=
  !((s.group g).fifo.any (fun e => decide (e.op < id))) &&
    !((below (pathOf (s.coreOf g)) (s.scopeNode g scope)).any (fun n =>
      (s.node n).any (fun e => e.gid = g && decide (e.op < id) && decide (e.op ≠ 0)))) &&
    !(s.flight.sysw.any (fun e => e.2.gid = g && decide (e.2.op < id)))

/-- FENCE_COMPLETE: the conditions hold, and the threads go on (R227). -/
def execFenceComplete (wait : Nat) (s : State) : Res :=
  match tget s.flight.waits wait with
  | some ⟨g, lanes, .fence acq rel scope, _, _, _, _, _, _⟩ =>
    if (¬ acq ∨ s.earlierLoadsOver g wait lanes) ∧ (¬ rel ∨ s.earlierStoresOut g wait scope) then
      .next (s.endWait wait)
    else .next s
  | _ => .next s

/-- WAITSB: its threads wait for the named slots; its own mark is excluded (R186). -/
def execWaitsb (f : LU) (s : State) : Res :=
  let s := s.begin_ (.waitsb f) Opnds.none
  let is := s.iss
  let slots : BitVec 8 := f.imm.setWidth 8
  if is.leader.act = 0 then .next (s.advanceAll is 0)
  else .next (s.waitFor is is.leader (.waitsb slots) { plainMark with mem := true } s.clk.ac 0).2

/-- WAITSB_RETURN: the named slots are clear. -/
def execWaitsbReturn (wait : Nat) (s : State) : Res :=
  match tget s.flight.waits wait with
  | some ⟨g, _, .waitsb slots, own, _, _, _, _, _⟩ =>
    if (List.range 8).all (fun k => k = own || !slots.getLsbD k || (tget (s.group g).sb k).isNone) then
      .next (s.endWait wait)
    else .next s
  | _ => .next s

end Sys2Proof.Machine
end

