-- ==== Sys2Proof/Machine/Barrier.lean ====
section
/-! DEFINITION. Barriers (R156, R157, R187 to R189) and mailboxes (R105, R190). -/
namespace Sys2Proof.Machine

/-! ### The barrier operations of R157 -/

/-- check(b). -/
def Bar.check (b : Bar) : Bar :=
  if b.expect ≠ 0 ∧ b.arrived.toNat ≥ b.expect.toNat ∧ b.lbytes.toNat ≥ b.xbytes.toNat then
    { b with phase := !b.phase, arrived := 0, xbytes := 0, lbytes := 0 }
  else b

/-- init, expect and group_arrive. -/
def Bar.apply (b : Bar) : BankKind → Bar
  | .init n => { b with expect := n, arrived := 0, xbytes := 0, lbytes := 0, gen := b.gen + 1 }
  | .expect x => { b with xbytes := b.xbytes + x }.check
  | .arrive => { b with arrived := b.arrived + 1 }.check

/-- engine_arrive where the generation matches. -/
def Bar.engine (b : Bar) (n : Nat) : Bar :=
  { b with arrived := b.arrived + 1, lbytes := b.lbytes + BitVec.ofNat 32 n }.check

/-- A barrier register of a block. -/
def Block.bar (b : Block) (i : Nat) : Bar := b.bars.getD i default

/-- The state with a barrier register of a block changed. -/
def State.modBar (s : State) (b i : Nat) (f : Bar → Bar) : State :=
  s.modBlock b (fun B => { B with bars := (List.range 16).map (fun k => if k = i then f (B.bar k) else B.bar k) })

/-! ### Instructions -/

/-- The barrier that an A or D field names (R71). -/
def barOf (f : BitVec 7) : Nat := f.toNat % 16

/-- A barrier operation of the leader is sent to the bank, once per split when a thread is active (R128, R189). -/
def State.bankIssue (s : State) (bar : Nat) (kind : BankKind) : State :=
  let is := s.iss
  let g := is.leader.gid
  if is.leader.act = 0 then s.advanceAll is 0
  else
    let (id, s) := s.freshId
    let s := s.modBlock (s.group g).id.block (fun B => { B with bank := B.bank ++ [⟨g, bar, kind, is.sbset, id⟩] })
    (s.markSlot g is.sbset { plainMark with op := id }).finish is

/-- BINIT. -/
def execBinit (f : RI) (s : State) : Res :=
  .next ((s.begin_ (.binit f) Opnds.none).bankIssue (barOf f.d) (.init (f.imm.setWidth 16)))
/-- BINIT with a literal count. -/
def execBinitLiteral (f : RI) (e : Word) (s : State) : Res :=
  .next ((s.begin_ (.binitLiteral f e) Opnds.none).bankIssue (barOf f.d) (.init (e.setWidth 16)))
/-- BARV. -/
def execBarv (f : TR) (s : State) : Res :=
  .next ((s.begin_ (.barv f) Opnds.none).bankIssue (barOf f.a) .arrive)
/-- BEXP. -/
def execBexp (f : TR) (s : State) : Res :=
  let s := s.begin_ (.bexp f) (opnds (.bexp f))
  .next (s.bankIssue (barOf f.a) (.expect (s.scalar s.iss.leader.gid f.b.toNat)))
/-- BEXP with a literal. -/
def execBexpLiteral (f : TR) (e : Word) (s : State) : Res :=
  .next ((s.begin_ (.bexpLiteral f e) Opnds.none).bankIssue (barOf f.a) (.expect e))

/-- The first queued operation that may be applied: no earlier one of its group is queued, and an arrival is a release
at .blk (R189, R231). -/
def State.bankNext (s : State) (l : List BankOp) : Option BankOp :=
  l.zipIdx.findSome? (fun e =>
    if (l.take e.2).any (fun x => x.gid = e.1.gid) then none
    else match e.1.kind with
      | .arrive => if s.releaseOk e.1.gid e.1.seq allLanes 1 then some e.1 else none
      | _ => some e.1)

/-- The BWAITs of a group on a barrier, in issue order, with whether they are over. -/
def State.bwaits (s : State) (g bar : Nat) : List (Nat × Bool) :=
  s.flight.waits.filterMap (fun e => match e.2.kind with
    | .bwait b passed => if e.2.gid = g ∧ b = bar then some (e.1, passed) else none
    | _ => none)

/-- Whether a barrier's PHASE differs from the group's parity bit (R188). -/
def State.phasePassed (s : State) (g bar : Nat) : Bool :=
  ((s.blockOf g).bar bar).phase != (s.group g).regs.lp.getLsbD bar

/-- A phase of a barrier has completed: of each group of the block, the first BWAIT that is not over is, if the parity that
it will find differs from PHASE: each one before it toggles LP (R188). -/
def State.phaseOver (s : State) (block bar : Nat) : State :=
  foldS ((s.groups.filter (fun e => decide (e.2.id.block = block))).map Prod.fst) s (fun s g =>
    let ws := s.bwaits g bar
    let n := (ws.filter Prod.snd).length
    match ws.find? (fun w => !w.2) with
    | none => s
    | some w =>
      if s.phasePassed g bar == decide (n % 2 = 1) then s
      else { s with flight := { s.flight with waits := tmod s.flight.waits w.1 (fun x => { x with kind := .bwait bar true }) } })

/-- A barrier register changes, and the BWAITs whose phase that completes are over. -/
def State.barStep (s : State) (block bar : Nat) (f : Bar → Bar) : State :=
  let old := ((s.block block).bar bar).phase
  let s := s.modBar block bar f
  if ((s.block block).bar bar).phase = old then s else s.phaseOver block bar

/-- A generation that waited for an operation of the bank, once that has been applied. -/
def Gen.after (g : Gen) (op : Nat) (v : BitVec 8) : Gen := if g = .behind op then .value v else g

/-- The GEN reads that come next after an operation in its group's order (R189). -/
def State.readGens (s : State) (block op : Nat) : State :=
  let v (bar : Nat) := ((s.block block).bar bar).gen
  { s with
    cores := s.cores.map (fun e => (e.1, { e.2 with
      xfer := e.2.xfer.map (fun x => (x.1, { x.2 with gen := x.2.gen.after op (v x.2.bar) })) }))
    copies := { s.copies with copies := s.copies.copies.map (fun e => (e.1, { e.2 with
      img := { e.2.img with gen := e.2.img.gen.after op (v e.2.img.bar) } })) }
    flight := { s.flight with
      arrivals := s.flight.arrivals.map (fun e => (e.1, { e.2 with gen := e.2.gen.after op (v e.2.bar) }))
      waits := s.flight.waits.map (fun e => (e.1, { e.2 with kind := (match e.2.kind with
        | .cpsub d image ext gen at_ => .cpsub d image ext (gen.after op (v (fld ext 23 4))) at_
        | k => k) })) } }

/-- BARRIER_BANK_OP (R157). -/
def execBarrierBankOp (block : Nat) (s : State) : Res :=
  match s.bankNext (s.block block).bank with
  | none => .next s
  | some x =>
    let s := s.modBlock block (fun B => { B with bank := B.bank.erase x })
    .next (((s.barStep block x.bar (fun b => b.apply x.kind)).readGens block x.seq).clearSlot x.gid x.slot)

/-- STALEARRIVE in the issuing group's GWARN or in the channel's word (R79). -/
def State.staleArrive (s : State) (a : Arrival) : State :=
  match a.chan with
  | some c => { s with copies := { s.copies with chans := tmod s.copies.chans c (fun x =>
      { x with warn := x.warn ||| 4 }) } }
  | none => s.warn a.gid 2

/-- Whether an arrival must wait for the read of its generation, which follows an operation that is not yet at the bank (R189). -/
def State.genOpen (s : State) (a : Arrival) : Bool :=
  match a.gen with
  | .value _ => false
  | .behind op => a.block.any (fun b => (s.block b).bank.any (fun x => decide (x.seq = op)))

/-- ENGINE_ARRIVE: applied, discarded or dropped (R157), once its generation has been read (R189). -/
def execEngineArrive (arrival : Nat) (s : State) : Res :=
  match tget s.flight.arrivals arrival with
  | none => .next s
  | some a =>
    if s.genOpen a then .next s
    else
      let s := { s with flight := { s.flight with arrivals := tdel s.flight.arrivals arrival } }
      match a.block.bind (fun b => (tget s.blocks b).map (fun B => (b, B))) with
      | none => .next (if a.chan.isSome then s.staleArrive a else s)
      | some (b, B) =>
        if .value (B.bar a.bar).gen ≠ a.gen then .next (s.staleArrive a)
        else .next (s.barStep b a.bar (fun x => x.engine a.n))

/-- LP[N] toggles. -/
def State.toggleLp (s : State) (g bar : Nat) : State :=
  s.modRegs g (fun r => { r with lp := r.lp ^^^ (1#16 <<< bar) })

/-- BWAIT: its threads wait (R188). -/
def execBwait (f : TR) (s : State) : Res :=
  let s := s.begin_ (.bwait f) Opnds.none
  let is := s.iss
  if is.leader.act = 0 then .next (s.advanceAll is 0)
  else .next (s.waitFor is is.leader (.bwait (barOf f.a) false) plainMark s.clk.ac 0).2

/-- BWAIT_RETURN: the phase has completed, or did before the BWAIT; the BWAITs of a group end in their order, and one of a
stowed group at its resumption (R188). -/
def execBwaitReturn (wait : Nat) (s : State) : Res :=
  match tget s.flight.waits wait with
  | some ⟨g, _, .bwait b passed, _, _, _, _, _, _⟩ =>
    if (s.bwaits g b).head?.map Prod.fst = some wait ∧ (passed ∨ s.phasePassed g b) ∧ (s.group g).run.place ≠ .stowed then
      .next ((s.toggleLp g b).endWait wait)
    else .next s
  | _ => .next s

/-- A predicate of every active thread of the leader is written. -/
def State.setPreds (s : State) (m : Member) (p : Nat) (v : Bool) : State :=
  s.modGroup m.gid (fun G => G.modThreads m.act (fun _ t => t.setPred p v))

/-- BTEST (R188). -/
def execBtest (f : TR) (s : State) : Res :=
  let s := s.begin_ (.btest f) (opnds (.btest f))
  let is := s.iss
  let m := is.leader
  if m.act = 0 then .next (s.advanceAll is 0)
  else
    let t := s.phasePassed m.gid (barOf f.a)
    let s := s.setPreds m (pf f.d) t
    .next ((if t then s.toggleLp m.gid (barOf f.a) else s).finish is)

/-! ### Mailboxes -/

/-- The mailbox that a B field names. -/
def mbOf (f : BitVec 7) : Nat := f.toNat % 16

/-- A mailbox of a block. -/
def Block.mbox (b : Block) (m : Nat) : Mbox := b.mboxes.getD m default

/-- The state with a mailbox changed. -/
def State.setMbox (s : State) (b m : Nat) (x : Mbox) : State :=
  s.modBlock b (fun B => { B with mboxes := (List.range 16).map (fun k => if k = m then x else B.mbox k) })

/-- The reads of an instruction that reads its lowest active lane only: a dead lane sets STALE or raises STALEREAD, a
poisoned one parks every active thread (R95, R171, R190). -/
def State.readLow (s : State) (o : Opnds) : State :=
  let m := s.iss.leader
  let low : Member := { m with act := laneBit (lowLane m.act) }
  if m.act = 0 then s
  else if s.deadLanes o low 0 ≠ 0 ∧ s.stalechk m.gid then s.parkOut o m.gid m.act (kStaleread, 1)
  else
    let s := if s.deadLanes o low 0 = 0 then s else s.warn m.gid 0
    if s.badLanes o low 0 = 0 then s else s.consumePoison o m.gid m.act

/-- MBW: the value is captured at issue, and its threads wait for the mailbox to be empty (R190). -/
def execMbw (f : TR) (s : State) : Res :=
  let i : Instr := .mbw f
  let o := opnds i
  let s := (s.beginStall i o).readLow o
  let is := s.iss
  let m := is.leader
  if m.act = 0 then .next (s.advanceAll is 0)
  else
    let v := s.laneSrcs m.gid is.wb o (lowLane m.act)
    let s := s.releaseSrcs m.gid is.wb o m.act
    .next (s.waitFor is m (.mbw (mbOf f.b) (wideOf (v.getD 1 0) (v.getD 0 0)) false) plainMark s.clk.ac 0).2

/-- MBR and MBP: the threads wait for the mailbox to be full. -/
def State.mbRead (s : State) (i : Instr) (f : TR) (take : Bool) : State :=
  let o := opnds i
  let s := s.begin_ i o
  let is := s.iss
  if is.leader.act = 0 then s.advanceAll is 0
  else (s.waitFor is is.leader (.mbr (mbOf f.b) take (f.a.getLsbD 0) f.d.toNat) (scalMark o.sd) s.clk.ac 0).2

/-- MBR. -/
def execMbr (f : TR) (s : State) : Res := .next (s.mbRead (.mbr f) f true)
/-- MBP. -/
def execMbp (f : TR) (s : State) : Res := .next (s.mbRead (.mbp f) f false)

/-- Whether an earlier wait of the same block and queue stands before one (R105). -/
def State.queuedBehind (s : State) (w : Wait) (same : WaitKind → Bool) : Bool :=
  s.flight.waits.any (fun e => (s.group e.2.gid).id.block = (s.group w.gid).id.block && same e.2.kind &&
    decide (e.2.seq < w.seq))

/-- Whether a waiting kind is a write of a mailbox. -/
def WaitKind.writes (k : WaitKind) (m : Nat) : Bool :=
  match k with
  | .mbw m' _ _ => decide (m' = m)
  | _ => false
/-- Whether a waiting kind is a read or peek of a mailbox. -/
def WaitKind.reads (k : WaitKind) (m : Nat) : Bool :=
  match k with
  | .mbr m' _ _ _ => decide (m' = m)
  | _ => false

/-- MAILBOX_FILL: the head of the write queue, as a release at .blk, finds the mailbox empty. -/
def execMailboxFill (wait : Nat) (s : State) : Res :=
  match tget s.flight.waits wait with
  | some w =>
    match w.kind with
    | .mbw m v bad =>
      let b := (s.group w.gid).id.block
      if s.queuedBehind w (fun k => k.writes m) ∨ ((s.block b).mbox m).full ∨ ¬ s.releaseOk w.gid wait w.lanes 1 then
        .next s
      else .next ((s.setMbox b m ⟨v, true, bad⟩).endWait wait)
    | _ => .next s
  | none => .next s

/-- The threads of a wait park at its instruction with a record that is formed already, and with the address of its replay. -/
def State.parkWait (s : State) (id record : Nat) (addr : Wide) : State :=
  match tget s.flight.waits id with
  | none => s
  | some w =>
    let s := { s with flight := { s.flight with waits := tdel s.flight.waits id } }
    let m := w.lanes &&& (s.group w.gid).lanesIn .waiting
    (s.modGroup w.gid (fun G => G.modThreads m (fun _ t => { t with
      st := .parked, since := none, pc := w.pc, wb := w.here.wb
      replay := some ⟨addr, [], true, w.here.phase, [], [], false, false, none, record, true⟩ }))).clearSlot w.gid w.slot

/-- The threads of a wait park at its instruction for a cause. -/
def State.waitFault (s : State) (id : Nat) (w : Wait) (c : Cause) (addr : Wide) : State :=
  let G := s.group w.gid
  let (r, s) := s.formRecord c (.lanes w.gid (w.lanes &&& G.occupied)) G.id.launch G.id.index w.pc addr w.opval
  let s := { s with faults := { s.faults with recs := tmod s.faults.recs r (fun x => { x with iseq := w.here.seq }) } }
  s.parkWait id r addr

/-- The threads of a wait meet poison: they park, or an open containment region unwinds (R282, R308). -/
def State.waitPoison (s : State) (id : Nat) (w : Wait) : State :=
  if (s.group w.gid).contain.isSome then (s.endWait id).unwind w.gid 1 else s.waitFault id w (kPoison, 1) 0

/-- MAILBOX_TAKE: the head of the read queue finds the mailbox full. A poisoned mailbox stays as it is. -/
def execMailboxTake (wait : Nat) (s : State) : Res :=
  match tget s.flight.waits wait with
  | some w =>
    match w.kind with
    | .mbr m take wide d =>
      let b := (s.group w.gid).id.block
      let x := (s.block b).mbox m
      if s.queuedBehind w (fun k => k.reads m) ∨ ¬ x.full then .next s
      else if x.poison then .next (s.waitPoison wait w)
      else
        let s := if wide then s.waitPair w d x.val else s.waitScalar w d (loWord x.val)
        let s := if take then s.setMbox b m { x with full := false } else s
        .next (s.endWait wait)
    | _ => .next s
  | none => .next s

end Sys2Proof.Machine
end

