-- ==== Sys2Proof/Machine/Allot.lean ====
section
/-! DEFINITION. The block's allotment: REGGIVE, REGCLAIM, ROLE and the claim queue (R238 to R242). -/
namespace Sys2Proof.Machine

/-- ILLEGAL ALLOT, the subcode (R96). -/
def cAllot : Cause := (kIllegal, 0x0A)
/-- ILLEGAL ROLE (R237). -/
def cRole : Cause := (kIllegal, 0x0D)

/-- A give of `n` registers by a group (R239). -/
def State.give (s : State) (g n : Nat) : State :=
  let h := (s.core (s.coreOf g)).held g
  let allot := (s.group g).regs.allot - n
  let owe := min n (h - allot)
  (s.modRegs g (fun r => { r with allot, owe := r.owe + owe })).modBlock (s.group g).id.block
    (fun b => { b with free := b.free + (n - owe) })

/-- The leader's active threads park with a cause and the others go on. -/
def State.parkLeader (s : State) (o : Opnds) (c : Cause) : State :=
  let is := s.iss
  let m := is.leader
  (s.parkMember is o m.gid m.act c).advance m.gid (m.lanes &&& ~~~m.act) is.next (s.nextReady is 0)

/-- REGGIVE of a count (R239): it completes 2 ac after issue, when a slot that it marks clears. -/
def State.giveOp (s : State) (o : Opnds) (n : Nat) : State :=
  let is := s.iss
  let m := is.leader
  if m.act = 0 then s.advanceAll is 0
  else if n ≠ 0 ∧ (s.group m.gid).regs.allot < n + 16 then s.parkLeader o cAllot
  else
    let s := if n = 0 then s else s.give m.gid n
    let s := if is.sbset = 0 then s
      else
        let (q, s) := s.freshSeq
        (s.addPend ⟨m.gid, .pred 7, 0, [], s.clk.ac + 2, is.sbset, 0, false, none, q⟩).markSlot m.gid is.sbset plainMark
    s.finish is

/-- REGGIVE. -/
def execReggive (f : TR) (s : State) : Res :=
  let o := opnds (.reggive f)
  let s := s.begin_ (.reggive f) o
  .next (s.giveOp o (s.scalar s.iss.leader.gid f.a.toNat).toNat)
/-- REGGIVE with a literal. -/
def execReggiveLiteral (f : TR) (e : Word) (s : State) : Res :=
  .next ((s.begin_ (.reggiveLiteral f e) Opnds.none).giveOp Opnds.none e.toNat)

/-- A thread claim joins its block's queue, and its threads wait. -/
def State.claim (s : State) (kind : WaitKind) : State :=
  let is := s.iss
  let m := is.leader
  let b := (s.group m.gid).id.block
  let (id, s) := s.waitFor is m kind plainMark s.clk.ac 0
  s.modBlock b (fun B => { B with claims := B.claims ++ [.thread id] })

/-- REGCLAIM of a count (R239). -/
def State.claimOp (s : State) (o : Opnds) (n : Nat) : State :=
  let is := s.iss
  let m := is.leader
  if m.act = 0 ∨ n = 0 then s.advanceAll is 0
  else if (s.group m.gid).regs.allot + n > 512 then s.parkLeader o cAllot
  else s.claim (.claim n)

/-- REGCLAIM. -/
def execRegclaim (f : TR) (s : State) : Res :=
  let o := opnds (.regclaim f)
  let s := s.begin_ (.regclaim f) o
  .next (s.claimOp o (s.scalar s.iss.leader.gid f.a.toNat).toNat)
/-- REGCLAIM with a literal. -/
def execRegclaimLiteral (f : TR) (e : Word) (s : State) : Res :=
  .next ((s.begin_ (.regclaimLiteral f e) Opnds.none).claimOp Opnds.none e.toNat)

/-- The allotment of a sub-launch; 0 stands for DEFALLOT (R16). -/
def Launch.allotOf (l : Launch) (k : Nat) : Nat :=
  let a := (l.bundle.subs.getD k default).allot
  if a = 0 then l.region.defAllot else a

/-- The current class of a bundle (R47, R242). -/
def Launch.current (l : Launch) : Nat := if l.demoted ∨ l.low then 0 else l.cls
/-- The class at which the groups of a block run: that of its bundle, or 7 in a Keep slot (R51, R277). -/
def State.blockClass (s : State) (b : Nat) : Nat :=
  if (s.block b).id.keep then 7 else (s.launch (s.block b).id.launch).current

/-- A group takes the role of a sub-launch (R242). -/
def State.roleMove (s : State) (g : Nat) (lanes : Mask) (k : Nat) (keep : Bool) (cls : Nat) : State :=
  let sub := (s.launch (s.group g).id.launch).bundle.subs.getD k default
  s.modGroup g (fun G =>
    { (G.modThreads lanes (fun _ t => { t with pc := sub.entry, wb := 0, stack := [] })) with
      id := { G.id with sub := some k, role := sub.role, stride := sub.stride, cls := if keep then G.id.cls else cls } })

/-- ROLE. -/
def execRole (f : TR) (s : State) : Res :=
  let s := (s.begin_ (.role f) Opnds.none).unwindWhere 3 State.inContain
  let is := s.iss
  let m := is.leader
  let g := m.gid
  let L := s.launch (s.group g).id.launch
  let k := f.d.toNat % 4
  let keep := f.a.getLsbD 3
  let cls := fld f.a 0 3
  let have_ := (s.group g).regs.allot
  let want := L.allotOf k
  if m.act = 0 then .next (s.advanceAll is 0)
  else if m.act ≠ (s.group g).occupied ∨ k ≥ L.bundle.subs.length ∨ (¬ keep ∧ cls > L.current) then
    .next (s.parkLeader Opnds.none cRole)
  else if want < have_ ∧ want < 16 ∨ want > have_ ∧ want > 512 then .next (s.parkLeader Opnds.none cAllot)
  else if want > have_ then .next (s.claim (.role (want - have_) k keep cls))
  else
    let s := if want < have_ then s.give g (have_ - want) else s
    .next ((s.finish is).roleMove g m.act k keep cls)

/-! ### The claim queue (R240, R241) -/

/-- What a claim asks for. -/
def State.claimSize (s : State) (b : Nat) : Claim → Nat
  | .thread w => match tget s.flight.waits w with
    | some ⟨_, _, .claim n, _, _, _, _, _, _⟩ => n
    | some ⟨_, _, .role n _ _ _, _, _, _, _, _, _⟩ => n
    | _ => 0
  | .bin h => (tgetD (s.block b).tiles h).allot

/-- The waits of the thread claims of a block, in queue order. -/
def Block.threadClaims (b : Block) : List Nat := b.claims.filterMap (fun c => match c with
  | .thread w => some w
  | .bin _ => none)

/-- Whether every thread of a block that is not vacant waits in a claim. -/
def State.allClaiming (s : State) (b : Nat) : Bool :=
  let cl := (s.block b).threadClaims
  (s.blockGroups b).all (fun e =>
    let mine := cl.foldl (fun m w => match tget s.flight.waits w with
      | some x => if x.gid = e.1 then m ||| x.lanes else m
      | none => m) (0 : Mask)
    decide (e.2.occupied &&& ~~~(mine &&& e.2.lanesIn .waiting) = 0))

/-- Claim deadlock (R241). -/
def State.claimDead (s : State) (b : Nat) : Bool :=
  let B := s.block b
  match B.claims with
  | [] => false
  | c :: _ =>
    !B.threadClaims.isEmpty && decide (s.claimSize b c > B.free) && s.allClaiming b &&
      s.groups.all (fun e => decide (e.2.id.block ≠ b) || !s.awaiting (coreOfPart e.2.id.part) e.1) &&
      B.tiles.all (fun t => t.2.woken.isEmpty || B.claims.contains (.bin t.1))

/-- The record of a claim deadlock, and its threads parked with it. -/
def State.claimWithdraw (s : State) (b : Nat) : State :=
  let B := s.block b
  let ws := B.threadClaims.filterMap (fun w => (tget s.flight.waits w).map (fun x => (w, x)))
  match ws with
  | [] => s
  | (_, w) :: _ =>
    let entry (i : Nat) : Nat := match ws[i]? with
      | some (id, x) => (s.group x.gid).id.index % 64 + 65536 * s.claimSize b (.thread id)
      | none => 0
    let opval := (List.range 4).map (fun i => BitVec.ofNat 64 (entry (2 * i) + 2 ^ 32 * entry (2 * i + 1)))
    let (r, s) := s.formRecord (kRegdead, 0) (.claims b (ws.map Prod.snd)) B.id.launch (s.group w.gid).id.index w.pc
      (BitVec.ofNat 64 (B.free + 2 ^ 32 * ws.length)) opval
    let s := foldS ws s (fun s e => s.parkWait e.1 r 0)
    s.modBlock b (fun B => { B with claims := B.claims.filter (fun c => match c with
      | .thread _ => false
      | .bin _ => true) })

/-- Whether CLAIM_SERVE has something to do. -/
def State.claimReady (s : State) (b : Nat) : Bool :=
  let B := s.block b
  match B.claims with
  | [] => false
  | c :: _ => decide (B.run = .running) && (decide (s.claimSize b c ≤ B.free) || s.claimDead b)

/-- CLAIM_SERVE: the head of the queue is served when FREE covers it, and a claim deadlock withdraws the thread
claims. -/
def execClaimServe (block : Nat) (s : State) : Res :=
  let B := s.block block
  match B.claims with
  | [] => .next s
  | c :: rest =>
    if ¬ s.claimReady block then .next s
    else if s.claimSize block c > B.free then .next (s.claimWithdraw block)
    else
      let n := s.claimSize block c
      let s := s.modBlock block (fun b => { b with claims := rest, free := b.free - n })
      match c with
      | .bin h => .next (s.modBlock block (fun b => { b with
          tiles := tmod b.tiles h (fun (t : Tile) => { t with dispatch := .item }) }))
      | .thread w =>
        match tget s.flight.waits w with
        | none => .next s
        | some x =>
          let s := s.modRegs x.gid (fun r => { r with allot := r.allot + n })
          let s := match x.kind with
            | .role _ k keep cls => s.roleMove x.gid x.lanes k keep cls
            | _ => s
          .next (s.endWait w)

end Sys2Proof.Machine
end

