-- ==== Sys2Proof/Machine/System.lean ====
section
/-! DEFINITION. System instructions: group and system registers (R293, R294), identity and time (R296, R297), TRAP
(R298), checks (R303), containment (R281, R283, R292) and match points (R300, R301). -/
namespace Sys2Proof.Machine

/-! ### Group registers (R294) -/

/-- The class that a group counts for: its own, and never above the current class of its block (R51, R242). -/
def State.groupClass (s : State) (g : Nat) : Nat := min (s.group g).id.cls (s.blockClass (s.group g).id.block)

/-- GSTATUS. -/
def State.gstatus (s : State) (g : Nat) : Word :=
  let G := s.group g
  let L := s.launch G.id.launch
  BitVec.ofNat 32 (G.id.role % 4 + 4 * (s.groupClass g % 8) + (if L.region.world then 2 ^ 5 else 0) +
    (if G.run.place = .keep then 2 ^ 6 else 0) + (if L.fault.isSome then 2 ^ 7 else 0) + 2 ^ 8 * (G.id.part % 4) +
    2 ^ 10 * (G.id.index % 64) + 2 ^ 16 * (match L.fault with
      | some f => f.depth % 8
      | none => 0))

/-- GALLOT (R238). -/
def State.gallot (s : State) (g : Nat) : Word :=
  let r := (s.group g).regs
  BitVec.ofNat 32 (r.allot % 1024 + 2 ^ 10 * ((s.core (s.coreOf g)).held g % 1024) + 2 ^ 20 * (r.owe % 1024))

/-- A group register by its index. -/
def State.groupReg (s : State) (g idx : Nat) : Word :=
  let r := (s.group g).regs
  match idx with
  | 0 => r.gwarn.setWidth 32
  | 1 => r.gflags.setWidth 32
  | 2 => r.phase.setWidth 32
  | 3 => s.gstatus g
  | 4 => s.gallot g
  | 5 => r.chk.setWidth 32
  | 8 => loWord r.rres.value
  | 9 => hiWord r.rres.value
  | 10 => BitVec.ofNat 32 (r.rres.seq.toNat + if r.rres.valid then 2 ^ 16 else 0)
  | n => if n < 16 then 0 else BitVec.ofNat 32 (r.stalls.getD (n - 16) 0)

/-- A group register written under its access code; what is read-only keeps its value. -/
def State.setGroupReg (s : State) (g idx : Nat) (v : Word) : State :=
  s.modRegs g (fun r => match idx with
    | 0 => { r with gwarn := r.gwarn &&& ~~~(v.setWidth 4) }
    | 1 => { r with gflags := r.gflags &&& ~~~(v.setWidth 6) }
    | 2 => { r with phase := v.setWidth 5 }
    | _ => r)

/-- Whether a waiting instruction still has a result to write. -/
def WaitKind.owes : WaitKind → Bool
  | .mbr _ _ _ _ | .cpsub _ _ _ _ _ | .cpwait _ _ | .sredw _ _ | .vreds _ _ _ | .ftest _ _ _
  | .dump _ | .pk _ _ _ => true
  | .claim _ | .role _ _ _ _ | .fence _ _ _ | .waitsb _ | .bwait _ _ | .mbw _ _ _ | .kdef _ _ | .mwait _ | .sysStore _ => false

/-- Whether every instruction that a group has issued has written back. -/
def State.writtenBack (s : State) (g : Nat) : Bool :=
  (s.pendsOf g).isEmpty && !(s.flight.ops.any (fun e => e.2.gid = g && decide (e.2.kind ≠ .store))) &&
    !(s.flight.waits.any (fun e => decide (e.2.gid = g) && e.2.kind.owes))

/-- SRD.grp. A read of GWARN or GFLAGS does not issue before the group's earlier instructions have written back. -/
def execSrdGrp (f : TR) (e : Word) (s : State) : Res :=
  let b := s.begin_ (.srdGrp f e) (opnds (.srdGrp f e))
  let g := b.iss.leader.gid
  if b.iss.leader.act = 0 then .next (b.advanceAll b.iss 0)
  else if e.toNat ≤ 1 ∧ ¬ b.writtenBack g then .next s.notIssued
  else .next ((b.issueScalar g f.d.toNat (b.groupReg g e.toNat)).finish b.iss)

/-- SWR.grp. -/
def execSwrGrp (f : TR) (e : Word) (s : State) : Res :=
  let b := s.begin_ (.swrGrp f e) (opnds (.swrGrp f e))
  let g := b.iss.leader.gid
  if b.iss.leader.act = 0 then .next (b.advanceAll b.iss 0)
  else .next ((b.setGroupReg g e.toNat (b.scalar g f.d.toNat)).finish b.iss)

/-! ### System registers (R293) -/

/-- A load-acquire or store-release at .sys of a system register. -/
def sysReq (kind : OpKind) (size : Nat) : MemReq :=
  { kind, opcode := 0x12, scratch := false, size, scope := 6, acq := decide (kind = .load), rel := decide (kind = .store) }

/-- SRD.sys and SWR.sys through the memory machine. -/
def State.sysOp (i : Instr) (f : TR) (e : Word) (kind : OpKind) (size : Nat) (s : State) : State :=
  s.memRunOp (sysReq kind size) (opnds i) true (fun _ _ _ => e.setWidth 64)
    (fun s g _ => if kind = .load then []
      else if size = 8 then [s.scalar g (evenOf f.d.toNat), s.scalar g (evenOf f.d.toNat + 1)]
      else [s.scalar g f.d.toNat])
    (s.begin_ i (opnds i))

/-- SRD.sys. -/
def execSrdSys (f : TR) (e : Word) (s : State) : Res := .next (s.sysOp (.srdSys f e) f e .load 4)
/-- SWR.sys. -/
def execSwrSys (f : TR) (e : Word) (s : State) : Res := .next (s.sysOp (.swrSys f e) f e .store 4)
/-- SRD.sys.b64. -/
def execSrdSysB64 (f : TR) (e : Word) (s : State) : Res := .next (s.sysOp (.srdSysB64 f e) f e .load 8)
/-- SWR.sys.b64. -/
def execSwrSysB64 (f : TR) (e : Word) (s : State) : Res := .next (s.sysOp (.swrSysB64 f e) f e .store 8)

/-! ### Identity and time -/

/-- RDID's value (R296). -/
def State.identity (s : State) (g : Nat) : Wide :=
  let G := s.group g
  let p := G.id.part
  BitVec.ofNat 64 (Config.chipId + 2 ^ 16 * (p / 64 % 4) + 2 ^ 18 * (p / 4 % 16) + 2 ^ 22 * (p % 4) +
    2 ^ 24 * (G.id.index % 64) + 2 ^ 32 * (G.id.bindex % 2 ^ 24) +
    2 ^ 56 * (if G.run.place = .keep then 24 else G.id.slot % 256))

/-- RDID. -/
def execRdid (f : TR) (s : State) : Res :=
  let s := s.begin_ (.rdid f) (opnds (.rdid f))
  let g := s.iss.leader.gid
  if s.iss.leader.act = 0 then .next (s.advanceAll s.iss 0)
  else .next ((s.issuePair g f.d.toNat (s.identity g)).finish s.iss)

/-- RDTIME: the campanile value of the issue cycle (R297). -/
def execRdtime (f : TR) (s : State) : Res :=
  let s := s.begin_ (.rdtime f) (opnds (.rdtime f))
  let g := s.iss.leader.gid
  if s.iss.leader.act = 0 then .next (s.advanceAll s.iss 0)
  else .next ((s.issuePair g f.d.toNat s.time).finish s.iss)

/-! ### TRAP and checks -/

/-- The code of TRAP (R298). -/
def trapCode (f : TR) : Nat := f.d.toNat + 128 * (f.a.toNat % 2)

/-- TRAP: the active threads park. -/
def execTrap (f : TR) (s : State) : Res :=
  .next ((s.begin_ (.trap f) Opnds.none).parkLeader Opnds.none (kTrap, trapCode f))

/-- CHKSET: checks are added (R303). -/
def execChkset (f : TR) (s : State) : Res :=
  let s := s.begin_ (.chkset f) (opnds (.chkset f))
  let g := s.iss.leader.gid
  let v := s.scalar g f.a.toNat
  if s.iss.leader.act = 0 then .next (s.advanceAll s.iss 0)
  else .next ((s.modRegs g (fun r => { r with chk := r.chk ||| v.setWidth 3 })).finish s.iss)

/-- CHKSET with M = 1: the region's checks are restored. -/
def execChksetRestore (f : TR) (s : State) : Res :=
  let s := s.begin_ (.chksetRestore f) (opnds (.chksetRestore f))
  let g := s.iss.leader.gid
  if s.iss.leader.act = 0 then .next (s.advanceAll s.iss 0)
  else .next ((s.modRegs g (fun r => { r with chk := (s.regionOf g).chk })).finish s.iss)

/-! ### Containment (R281, R283, R292) -/

/-- ILLEGAL CONTAIN (R282). -/
def cContain : Cause := (kIllegal, 0x0E)

/-- A region opens for a group: the snapshot is taken and its registers are pinned. -/
def State.openContain (s : State) (g : Nat) (handler : Wide) (status : Nat) : State :=
  let G := s.group g
  let (q, s) := s.freshSeq
  let c : Contain := ⟨G.map, G.threads.map (fun t => (t.wb, t.stack)), handler, status, [], [], q⟩
  let s := s.modGroup g (fun G => { G with contain := some c })
  s.modCore (s.coreOf g) (fun c => { c with pool := c.pool.map (fun e =>
    if G.map.any (fun x => decide (x.2.map = .phys e.1)) then (e.1, { e.2 with pinned := true }) else e) })

/-- CTOPEN. -/
def execCtopen (f : TR) (e : Word) (s : State) : Res :=
  let o := opnds (.ctopen f e)
  let s := (s.begin_ (.ctopen f e) o).unwindWhere 3 State.inContain
  let is := s.iss
  let m := is.leader
  if m.act = 0 then .next (s.advanceAll is 0)
  else if m.act ≠ (s.group m.gid).occupied then .next (s.parkLeader o cContain)
  else .next (((s.openContain m.gid (relTarget is.pc e.toInt) f.d.toNat).issueScalar m.gid f.d.toNat 0).finish is)

/-- CTCLOSE. -/
def execCtclose (s : State) : Res :=
  let s := s.begin_ .ctclose Opnds.none
  let is := s.iss
  let m := is.leader
  if m.act = 0 then .next (s.advanceAll is 0)
  else if ¬ s.inContain m.gid then .next (s.parkLeader Opnds.none cContain)
  else .next ((s.closeContain m.gid).finish is)

/-! ### Memory read once by an instruction -/

/-- Bytes that an instruction of a group reads once from its address space: where they lie and what they are, or the
fault. Its own earlier stores are seen. -/
def State.readOwn (s : State) (g : Nat) (va : Wide) (n : Nat) : Except Cause (Nat × List Byte) :=
  let r := s.regionOf g
  match s.xlate r.troot .load r.world va.toNat with
  | .error c => .error c
  | .ok pa =>
    if ¬ memRun pa n then .error (kProt, 1)
    else
      match (if pa ≥ scratchBase then s.scratchCheck g pa n false else none) with
      | some c => .error c
      | none =>
        let b := (List.range n).map (fun i => s.loadByte g s.env.nextId (pa + i))
        if b.any Option.isNone then .error (kPoison, 1) else .ok (pa, b.map (fun x => x.getD 0))

/-- The leader's active threads meet a fault of such a read: they park at its address, or an open region unwinds
(R282, R308). -/
def State.readFault (s : State) (o : Opnds) (c : Cause) (addr : Wide) : State :=
  let is := s.iss
  let m := is.leader
  if c = (kPoison, 1) ∧ s.inContain m.gid then s.unwind m.gid 1
  else (s.parkSplit is m.gid m.act c addr (s.opval is o m.gid (lowLane m.act))).advance m.gid (m.lanes &&& ~~~m.act)
    is.next (s.nextReady is 0)

/-! ### Match points (R300, R301) -/

/-- Whether a value is a slot PC (R61, R300). -/
def slotPc (x : Nat) : Bool := decide (x % 16 = 4) || decide (x % 16 = 8) || decide (x % 16 = 12)

/-- PMSET. -/
def execPmset (f : TR) (s : State) : Res :=
  let o := opnds (.pmset f)
  let s := s.begin_ (.pmset f) o
  let is := s.iss
  let m := is.leader
  let g := m.gid
  let addr := s.pair g f.a.toNat
  let r := s.regionOf g
  let n := f.d.toNat % 32
  if m.act = 0 then .next (s.advanceAll is 0)
  else if addr.toNat % 16 ≠ 0 then .next (s.readFault o (kProt, 6) addr)
  else
    match s.readOwn g addr 16 with
    | .error c => .next (s.readFault o c addr)
    | .ok (pa, b) =>
      let w := leAt b 0 8
      let h := leAt b 8 8
      let held := match tget (s.core (s.coreOf g)).points n with
        | some p => decide (p.holder ≠ r.rcb)
        | none => false
      if ¬ slotPc w ∨ w / 2 ^ 56 % 128 ≠ 0 ∨ ¬ slotPc h ∨ h / 2 ^ 56 ≠ 0 ∨ (held && !r.world) then
        .next (s.readFault o (kProt, 4) addr)
      else
        let p : MatchPoint :=
          ⟨BitVec.ofNat 64 (w % 2 ^ 56), BitVec.ofNat 64 h, r.rcb, r.world, pa⟩
        .next ((s.modCore (s.coreOf g) (fun c => { c with
          points := if w / 2 ^ 63 = 1 then tput c.points n p else tdel c.points n })).finish is)

/-- PMRET: the threads go back to MATCHPC with their own predicates and windows; the handler ends with its last thread.
Outside a handler: ILLEGAL SUBOP. -/
def execPmret (s : State) : Res :=
  let s := s.begin_ .pmret Opnds.none
  let is := s.iss
  let m := is.leader
  match (s.group m.gid).handler with
  | none => .next (s.parkLeader Opnds.none (kIllegal, 3))
  | some h =>
    let back := m.act &&& h.lanes
    let s := s.advance m.gid (m.lanes &&& ~~~m.act) is.next (s.nextReady is 0)
    .next (s.modGroup m.gid (fun G => { (G.modThreads back (fun l t =>
      match h.saved.getD l (h.ret, h.wb, [], 0) with
      | (pc, wb, stk, ps) => { t with pc := pc, wb := wb, stack := stk, preds := ps, noMatch := true
                                      ready := s.nextReady is 0 })) with
      handler := if h.lanes &&& ~~~back = 0 then none else some { h with lanes := h.lanes &&& ~~~back } }))

/-- MATCH_HANDLER_ABANDON: 64 issues without PMRET. -/
def execMatchHandlerAbandon (group : Nat) (s : State) : Res :=
  match (s.group group).handler with
  | some h => .next (if h.issues ≥ Config.handlerIssues then s.endHandler group else s)
  | none => .next s

end Sys2Proof.Machine
end

