-- ==== Sys2Proof/Machine/Matrix.lean ====
section
/-! DEFINITION. Convergence sets, matrix operations and the engines (R196 to R217, R118 to R121). -/
namespace Sys2Proof.Machine

/-! ### The operations by their fields (R201, R203, R209) -/

/-- Where A comes from. -/
inductive ASource where
  | regs | gather | latch
  deriving DecidableEq, Repr

/-- A set operation's fields. `drain` is MDRN. -/
structure SetOp where
  drain : Bool
  src : ASource
  k : Nat
  fmt : Nat
  la : Bool
  lb : Bool
  m : Nat
  d : Nat
  a : Nat
  b : Nat
  c : Nat
  s : Nat
  selA : Nat
  selB : Nat
  bsrc : Nat
  sc : Bool
  gx : Nat
  sr : Bool
  sat : Bool
  adj : Int
  latch : Nat
  deriving DecidableEq, Repr

/-- The fields of an MMA, MMAG or MMAB. -/
def mmaFields (src : ASource) (f : TR) (e : Word) : SetOp :=
  { drain := false, src, k := fld e 0 4, fmt := fld e 4 3, la := f.la, lb := f.lb, m := 0, d := f.d.toNat, a := f.a.toNat
    b := f.b.toNat, c := fld e 7 7, s := fld e 14 7, selA := fld e 21 2, selB := fld e 23 2, bsrc := fld e 25 2
    sc := e.getLsbD 27, gx := fld e 28 4, sr := false, sat := false, adj := 0, latch := f.a.toNat % 4 }

/-- The fields of an MDRN. -/
def mdrnFields (f : TR) (e : Word) : SetOp :=
  { drain := true, src := .regs, k := fld e 0 4, fmt := fld e 4 3, la := f.la, lb := false, m := f.m.toNat
    d := f.d.toNat, a := f.a.toNat, b := 0, c := 0, s := 0, selA := 0, selB := 0, bsrc := 0, sc := false, gx := 0
    sr := e.getLsbD 7, sat := e.getLsbD 8, adj := sextN 8 (fld e 9 8), latch := fld e 17 2 }

/-- The fields of a set operation. -/
def setOpOf (i : Instr) : Option SetOp :=
  match i with
  | .mma f e => some (mmaFields .regs f e)
  | .mmag f e => some (mmaFields .gather f e)
  | .mmab f e => some (mmaFields .latch f e)
  | .mdrn f e => some (mdrnFields f e)
  | _ => none

/-- The format code of R138 that an FMT names. -/
def mmaElem (fmt : Nat) : Nat :=
  match fmt with
  | 0 => 1
  | 1 => 2
  | 2 => 3
  | 3 => 4
  | 4 => 12
  | 5 => 5
  | _ => 6
/-- K of an FMT. -/
def mmaK (fmt : Nat) : Nat := if fmt ≤ 1 then 32 else if fmt ≤ 4 then 64 else 128
/-- Registers of an A or B fragment. -/
def mmaRegs (fmt : Nat) : Nat := if fmt = 6 then 12 else 8
/-- Bytes of a row. -/
def mmaRow (fmt : Nat) : Nat := if fmt = 6 then 96 else 64
/-- Whether a format takes scales, and a set operation uses them. -/
def SetOp.scaled (o : SetOp) : Bool := o.sc && decide (o.fmt ≥ 2)

/-- Fields of the A operand, or of the index register. -/
def SetOp.aFields (o : SetOp) : List Nat :=
  if o.drain then groupFields o.a 32
  else match o.src with
    | .regs => groupFields o.a (mmaRegs o.fmt)
    | .gather => [o.a]
    | .latch => []
/-- Fields of the B operand; only member 0's are read (R204). -/
def SetOp.bFields (o : SetOp) (first : Bool) : List Nat :=
  if first && !o.drain && o.bsrc = 0 then groupFields o.b (mmaRegs o.fmt) else []
/-- Fields of C. -/
def SetOp.cFields (o : SetOp) : List Nat := if o.drain then [] else groupFields o.c 32
/-- Fields of the scale registers. -/
def SetOp.sFields (o : SetOp) (first : Bool) : List Nat :=
  if o.drain || !o.scaled then [] else if first then groupFields o.s 2 else [o.s]
/-- Fields of the destination. -/
def SetOp.dFields (o : SetOp) : List Nat :=
  if !o.drain then groupFields o.d 32
  else if o.m = 0 then [] else groupFields o.d (if o.fmt < 2 then 16 else 8)

/-- The operands of a set operation as the scoreboard and early reads see them (R67, R68). -/
def SetOp.opnds (o : SetOp) (first : Bool) : Opnds :=
  { Opnds.none with
    vs := ([o.aFields, o.bFields first, o.cFields, o.sFields first].filter (fun l => !l.isEmpty)).map (fun l => ⟨l, false, false⟩)
    vd := o.dFields
    ss := (if first && !o.drain && o.bsrc = 1 then [⟨o.b, false⟩]
      else if first && !o.drain && o.bsrc = 2 then [⟨evenOf o.b, true⟩] else []) ++
      (if o.src = .gather then [⟨2 * o.gx, true⟩] else []) }

/-- The C fields that are the destination's at the same position, which are used in place where a register is mapped
(R211). -/
def SetOp.inPlace (o : SetOp) : List Nat :=
  (o.cFields.zip o.dFields).filterMap (fun p => if p.1 = p.2 then some p.1 else none)

/-- The fields whose registers have a pending read from the sign until the engine's read (R91, R211). -/
def SetOp.held (o : SetOp) (first : Bool) : List Nat :=
  ((o.aFields ++ o.bFields first ++ o.sFields first) ++ o.cFields.filter (fun f => !o.inPlace.contains f)).eraseDups

/-- The accumulators that an earlier operation of the register may still have to write, and which are read after it has
(R218). -/
def SetOp.chained (o : SetOp) : List Nat := if o.drain then o.aFields else o.inPlace

/-- The fields whose last-use bit is set (R8, R203, R209). -/
def SetOp.lastUses (o : SetOp) (first : Bool) : List Nat :=
  (if o.la then o.aFields else []) ++ (if o.lb then o.bFields first else [])

/-! ### Signing (R199, R210) -/

/-- ILLEGAL KSET (R196). -/
def cKset : Cause := (kIllegal, 0x0B)

/-- Fully signed operations of a register that are not complete (R197). -/
def State.queuedOn (s : State) (b k : Nat) : Nat :=
  (s.mats.filter (fun e => e.2.block = b && e.2.k = k && decide (e.2.phase ≠ .signing))).length

/-- The group of a block with an index that has not exited. -/
def State.groupAt (s : State) (b idx : Nat) : Option (Nat × Group) :=
  s.groups.find? (fun e => e.2.id.block = b && e.2.id.index = idx && decide (e.2.run.place ≠ .gone))

/-- The group of a block with an index, also one that has exited (R200, R209). -/
def State.memberAt (s : State) (b idx : Nat) : Nat :=
  ((s.groupAt b idx).map Prod.fst).getD
    (((s.groups.filter (fun e => e.2.id.block = b && e.2.id.index = idx)).getLast?.map Prod.fst).getD 0)

/-- The values of a name as the map stands. -/
def State.nameVals (s : State) (g name : Nat) : Lanes :=
  lanesFn (fun l => ((s.core (s.coreOf g)).readEntry (tget (s.group g).map name) l).val)

/-- What a name of a group holds now, as an operand. -/
def State.opVal (s : State) (g name : Nat) : OpVal :=
  ⟨s.nameVals g name, s.nameLive g name, s.namePoison g name, (tget (s.group g).map name).map MapEntry.map⟩

/-- An operand at a later sign: what the map holds now, but threads that have left since they signed keep what they had
(R210). -/
def OpVal.renew (old new : OpVal) (signed : Mask) : OpVal :=
  let keep := old.live &&& ~~~new.live &&& signed
  ⟨mergeLanes keep old.vals new.vals, new.live ||| keep, (new.poison &&& ~~~keep) ||| (old.poison &&& keep), new.map⟩

/-- The name of a member's field. -/
def MatMem.name (M : MatMem) (f : Nat) : Nat := nameOf (M.wb.getD 0) f

/-- A new operation of a convergence register, with no sign yet. -/
def State.newMat (s : State) (b k : Nat) (i : Instr) (words : Word × Word) : Nat × State :=
  let (id, s) := s.freshId
  let K := s.kreg b k
  let mem (j : Nat) : MatMem :=
    { gid := s.memberAt b (K.base + j), signed := 0, wb := none, vals := [], alt := [], holds := []
      claims := [], late := [], marks := [], seq := (0, 0), phase := 0, desc := 0, slots := [], scalB := 0
      scalBad := false, dead := false, touch := [] }
  let op : MatOp :=
    { block := b, k, ordinal := K.ordinal, seq := 0, instr := i, words, members := (List.range K.n).map mem
      phase := .signing, lastPc := 0, checks := 0, bsrc := none, gdesc := none, out := [], latchOut := [], resv := []
      flags := 0, fault := none, due := 0, readAt := none, cuts := [] }
  (id, { (s.modKreg b k (fun x => { x with signing := some id, ordinal := x.ordinal + 1 })) with
    mats := tput s.mats id op })

/-- The member of an operation that a group is, with its position. -/
def MatOp.memberOf (op : MatOp) (g : Nat) : Option (Nat × MatMem) :=
  (op.members.zipIdx.find? (fun e => e.1.gid = g)).map (fun e => (e.2, e.1))

/-- The D names of the earlier operations of a register that a group is a member of (R218). -/
def State.earlierDests (s : State) (op : MatOp) (g : Nat) : List Nat :=
  s.mats.flatMap (fun e =>
    if e.2.block = op.block ∧ e.2.k = op.k ∧ e.2.ordinal < op.ordinal then
      match op.memberOf g, setOpOf e.2.instr with
      | some _, some o => (e.2.members.filter (fun (m : MatMem) => m.gid = g)).flatMap (fun m => o.dFields.map m.name)
      | _, _ => []
    else [])

/-- A member of an operation after a sign of some of its threads. Its first sign fixes WB, the dither phase, the gather
descriptor and the place among the writes that R212 speaks of; every sign takes the operands as the map stands (R199,
R206, R209, R210). An operand that has been written between two signs may be read as it was before. -/
def State.signed (s : State) (op : MatOp) (o : SetOp) (first : Bool) (is : Issue) (m : Member) (id : Nat) (M : MatMem) :
    MatMem :=
  let g := m.gid
  let isFirst := M.wb.isNone
  let M1 := { M with wb := some (M.wb.getD is.wb) }
  let all := o.opnds first
  let dests := o.dFields.map M1.name
  let read := (all.vs.flatMap VSrc.fields).eraseDups.map M1.name
  let cd := (o.cFields.map M1.name ++ dests).eraseDups
  let G := s.group g
  let held := G.mappings ((o.held first).map M1.name)
  let slot := varSlot is
  { M1 with
    signed := M.signed ||| m.act
    vals := read.map (fun n =>
      let new := s.opVal g n
      (n, ((tget M.vals n).map (fun old => old.renew new M.signed)).getD new))
    alt := if isFirst then cd.map (fun n => (n, ([], 0)))
      else M.alt.map (fun e => (e.1, (((tget M.vals e.1).map OpVal.vals).getD [], e.2.2)))
    holds := M.holds ++ held.filter (fun x => !M.holds.any (Mapping.same x))
    claims := G.mappings (o.inPlace.map M1.name)
    late := (s.earlierDests op g).filter (fun n => (o.chained.map M1.name).contains n)
    marks := (o.lastUses first).foldl (fun t f => tupd t (M1.name f) (m.act ||| ·)) M.marks
    seq := (if isFirst then is.seq else M.seq.1, id)
    phase := if isFirst then BitVec.ofNat 5 (s.phaseOf g (lowLane m.act)) else M.phase
    desc := if isFirst then s.pair g (2 * o.gx) else M.desc
    slots := if M.slots.contains slot then M.slots else slot :: M.slots
    scalB := if o.bsrc = 2 then s.pair g o.b else if o.bsrc = 1 then wideOf 0 (s.scalar g o.b) else 0
    scalBad := M.scalBad || s.scalarsPoisoned g all.scalReads
    touch := (read ++ dests).eraseDups }

/-- The leader's active threads sign an operation, and its operands' pending reads begin (R199, R210). -/
def State.sign (s : State) (id : Nat) (o : SetOp) : State :=
  let is := s.iss
  let m := is.leader
  let g := m.gid
  match tget s.mats id with
  | none => s
  | some op =>
    match op.memberOf g with
    | none => s
    | some (j, M) =>
      let isFirst := M.wb.isNone
      let (q, s) := s.freshId
      let M' := s.signed op o (decide (j = 0)) is m q M
      let core := s.coreOf g
      let s := foldS (M'.holds.drop M.holds.length) s (fun s x => s.holdMapping core x)
      let s := foldS M'.claims (foldS M.claims s (fun s x => s.unclaimMapping core x)) (fun s x => s.claimMapping core x)
      let op' : MatOp := { op with
        members := op.members.map (fun (x : MatMem) => if x.gid = g then M' else x)
        lastPc := is.pc }
      let s := { s with mats := tput s.mats id op' }
      let s := if isFirst && o.drain && o.sr then s.modRegs g (fun r => { r with phase := r.phase + 1 }) else s
      let s := s.markSlot g (varSlot is) ⟨id, false, false, some id, o.dFields.map M'.name, [], [], 1⟩
      (s.advanceAll is 0).kSettle op.block op.k

/-- The threads of a mask that must wait before they sign: those that have signed the signing operation, or all of them
where a first sign would queue a fifth operation (R199). -/
def State.signHeld (s : State) (g : Nat) (o : SetOp) (act : Mask) : Mask :=
  let b := (s.group g).id.block
  let K := s.kreg b o.k
  let idx := (s.group g).id.index
  if K.n = 0 ∨ idx < K.base ∨ idx ≥ K.base + K.n then 0
  else match K.signing.bind (fun id => tget s.mats id) with
    | some op => act &&& (((op.memberOf g).map (fun M => M.2.signed)).getD 0)
    | none => if s.queuedOn b o.k ≥ 4 then act else 0

/-- Threads leave the split and stay where they are. -/
def State.holdOut (s : State) (g : Nat) (w : Mask) : State :=
  if w = 0 then s else { s with issue := some (s.iss.drop g w) }

/-- Whether the issuing group is member 0 of a set operation's register, whose B operand and scales are read (R204). -/
def State.isFirst (s : State) (o : SetOp) : Bool :=
  let G := s.group s.iss.leader.gid
  let K := s.kreg G.id.block o.k
  decide (K.n ≠ 0) && decide (K.base = G.id.index)

/-- A set operation issues: its active threads sign, wait, or raise ILLEGAL KSET (R199). -/
def State.setOp (i : Instr) (words : Word × Word) (o : SetOp) (s0 : State) : State :=
  let ops := o.opnds (s0.isFirst o)
  let s := s0.beginStall i ops
  let is := s.iss
  let m := is.leader
  let g := m.gid
  if m.act = 0 then s.advanceAll is 0
  else
    let b := (s.group g).id.block
    let s := s.kSettle b o.k
    let K := s.kreg b o.k
    let idx := (s.group g).id.index
    let held := s.signHeld g o m.act
    if K.n = 0 ∨ idx < K.base ∨ idx ≥ K.base + K.n then s.parkLeader ops cKset
    else if m.act &&& ~~~held = 0 then s0.notIssued
    else
      let s := s.holdOut g held
      match K.signing.bind (fun id => (tget s.mats id).map (fun op => (id, op))) with
      | none =>
        let (id, s) := s.newMat b o.k i words
        s.sign id o
      | some (id, op) =>
        let M := ((op.memberOf g).map Prod.snd).getD default
        if op.words ≠ words ∨ (M.wb.isSome ∧ M.wb ≠ some is.wb) then s.parkLeader ops cKset
        else s.sign id o

/-- The words of a set operation, without slot control. -/
def wordsOf (i : Instr) : Word × Word :=
  match encode i with
  | some (w, e) => (w, e.getD 0)
  | none => (0, 0)

/-- MMA (R204). -/
def execMma (f : TR) (e : Word) (s : State) : Res := .next (s.setOp (.mma f e) (wordsOf (.mma f e)) (mmaFields .regs f e))
/-- MMAG (R206). -/
def execMmag (f : TR) (e : Word) (s : State) : Res :=
  .next (s.setOp (.mmag f e) (wordsOf (.mmag f e)) (mmaFields .gather f e))
/-- MMAB (R207). -/
def execMmab (f : TR) (e : Word) (s : State) : Res :=
  .next (s.setOp (.mmab f e) (wordsOf (.mmab f e)) (mmaFields .latch f e))
/-- MDRN (R209). -/
def execMdrn (f : TR) (e : Word) (s : State) : Res := .next (s.setOp (.mdrn f e) (wordsOf (.mdrn f e)) (mdrnFields f e))

/-! ### KDEF, MACZ, MWAIT -/

/-- Whether a set of groups from a base stands whole on one core. -/
def State.setResident (s : State) (b base n : Nat) : Bool :=
  let gs := (List.range n).map (fun j => s.groupAt b (base + j))
  let core := ((gs.headD none).map (fun e => coreOfPart e.2.id.part))
  decide (base + n ≤ (s.block b).id.g) && gs.all (fun x => match x with
    | some (_, G) => decide (some (coreOfPart G.id.part) = core) && decide (G.run.place ≠ .stowed)
    | none => false)

/-- Whether a register is idle: no operation signs, waits, runs or is parked (R198). -/
def State.kIdle (s : State) (b k : Nat) : Bool := !(s.mats.any (fun e => e.2.block = b && e.2.k = k))

/-- KDEF (R198). -/
def execKdef (f : TR) (s : State) : Res :=
  let s := s.begin_ (.kdef f) Opnds.none
  let is := s.iss
  let m := is.leader
  let b := (s.group m.gid).id.block
  let k := f.d.toNat % 16
  let n := f.b.toNat
  let idx := (s.group m.gid).id.index
  let base := idx - idx % n
  if m.act = 0 then .next (s.advanceAll is 0)
  else if ¬ s.setResident b base n then .next (s.parkLeader Opnds.none cKset)
  else if (s.kreg b k).base = base ∧ (s.kreg b k).n = n then .next (s.finish is)
  else .next (s.waitFor is m (.kdef k n) plainMark s.clk.ac 0).2

/-- KDEF_COMPLETE. -/
def execKdefComplete (wait : Nat) (s : State) : Res :=
  match tget s.flight.waits wait with
  | some ⟨g, _, .kdef k n, _, _, _, _, _, _⟩ =>
    let b := (s.group g).id.block
    let idx := (s.group g).id.index
    let s1 := s.kSettle b k
    if ((s1.kreg b k).base = idx - idx % n ∧ (s1.kreg b k).n = n) ∨ s1.kIdle b k then
      .next ((s1.modKreg b k (fun x => { x with base := idx - idx % n, n })).endWait wait)
    else .next s
  | _ => .next s

/-- MACZ (R208). -/
def execMacz (f : TR) (s : State) : Res :=
  .next (s.vecOp (.macz f) (opnds (.macz f)) (fun _ _ _ _ => ⟨List.replicate 32 0, [], 0⟩))

/-- MWAIT: its threads wait for the operations of the register that hold a sign of the group (R200). -/
def execMwait (f : TR) (s : State) : Res :=
  let s := s.begin_ (.mwait f) Opnds.none
  let is := s.iss
  let m := is.leader
  let k := f.d.toNat % 16
  if m.act = 0 ∨ s.mwaitOpen m.gid k then .next (s.advanceAll is 0)
  else .next (s.waitFor is m (.mwait k) plainMark s.clk.ac 0).2

/-! ### Element positions (R202) -/

/-- The place of element k of a row in a fragment: half, register, element within the register. -/
def fragPos (fmt k : Nat) : Nat × Nat × Nat :=
  let per := if fmt = 6 then 16 else 32 / elemWidth (mmaElem fmt)
  let half := mmaK fmt / 2
  (k / half, k % half / per, k % half % per)

/-- An element of a fragment whose register i in lane l is `r i l`. -/
def fragElem (fmt : Nat) (r : Nat → Nat → Word) (row k : Nat) : Nat :=
  let (h, i, e) := fragPos fmt k
  let l := row + 64 * h
  if fmt = 6 then elemAt 6 e [r (3 * i) l, r (3 * i + 1) l, r (3 * i + 2) l] else elemAt (mmaElem fmt) e [r i l]

/-- An element of a row held as bytes (R111). -/
def rowElem (fmt : Nat) (row : List Byte) (k : Nat) : Nat :=
  leNat row / 2 ^ (elemWidth (mmaElem fmt) * k) % 2 ^ elemWidth (mmaElem fmt)

/-- The scale byte of a row and a block (R119). -/
def scaleByte (fmt sel : Nat) (r : Nat → Word) (row kb : Nat) : Nat :=
  if fmt ≤ 4 then fld (r (row + 64 * kb)) (8 * sel) 8
  else fld (r (row + 64 * (kb / 2))) (8 * (2 * sel + kb % 2)) 8

/-! ### Products and sums (R120, R121) -/

/-- A product of two elements by their codes; ∞ × 0 is the one invalid product. FTZ leaves the elements as they are, and a
zero product of integers has no sign (R114, R120, R121). -/
def mmaProd (fmt : Nat) (a b : Nat) : FV × BitVec 6 :=
  if fmt = 6 then
    let s := decide (a / 32 % 2 ≠ b / 32 % 2)
    if a % 32 = 0 ∨ b % 32 = 0 then (.zero s, 0)
    else
      let (n, e) := lgMag ((a % 32 : Nat) + (b % 32 : Nat) - 32)
      (.fin s n e, 0)
  else if fmt = 4 ∧ (a = 0 ∨ b = 0) then (.zero false, 0)
  else
    let x := decodeFmt (mmaElem fmt) false a
    let y := decodeFmt (mmaElem fmt) false b
    if x.isNan || y.isNan then (.nan false, 0) else mulFV x y

/-- An addition inside the sums: a NaN operand raises nothing. -/
def sumFV (a b : FV × BitVec 6) : FV × BitVec 6 :=
  if a.1.isNan || b.1.isNan then (.nan false, a.2 ||| b.2)
  else
    let r := addFV a.1 b.1
    (r.1, r.2 ||| a.2 ||| b.2)

/-- The sum of a block's products, which has no order: an infinity of each sign among them is invalid whatever else stands
beside them (R120). -/
def blockSum (ps : List (FV × BitVec 6)) : FV × BitVec 6 :=
  if ps.any (fun p => p.1 = .inf false) && ps.any (fun p => p.1 = .inf true) then
    (.nan false, ps.foldl (fun fl p => fl ||| p.2) fNV)
  else ps.tail.foldl sumFV (ps.headD (.zero false, 0))

/-- A value times a power of two given by an E8M0 code; 0xFF makes a NaN. -/
def scaleFV (x : Nat) (v : FV × BitVec 6) : FV × BitVec 6 :=
  if x = 255 then (.nan false, v.2)
  else match v.1 with
    | .fin s n e => (.fin s n (e + (x : Int) - 127), v.2)
    | _ => v

/-- One output element (R120): the blocks in ascending order, one rounding each. -/
def mmaElement (fmt : Nat) (ftz : Bool) (c : Word) (a b sa sb : Nat → Nat) : Word × BitVec 6 :=
  let start : Word := BitVec.ofNat 32 (encodeFmt 0 0 false ftz 0 (f32v ftz c)).1
  (List.range (mmaK fmt / 32)).foldl (fun (acc : Word × BitVec 6) kb =>
    let ps := (List.range 32).map (fun i => mmaProd fmt (a (32 * kb + i)) (b (32 * kb + i)))
    let s := scaleFV (sb kb) (scaleFV (sa kb) (blockSum ps))
    let r := sumFV (f32v ftz acc.1, 0) s
    let x := rne 0 ftz r
    (BitVec.ofNat 32 x.1, acc.2 ||| x.2)) (start, 0)

/-! ### What the engine reads -/

/-- Whether a range of a cluster window lies in scratchpad of blocks of a group's bundle, one after the other (R174); `fuel` bounds
their number. -/
def State.bundleScratch (s : State) (g pa n : Nat) : Nat → Bool
  | 0 => decide (n = 0)
  | fuel + 1 =>
    if n = 0 then true
    else match s.scratchOwner pa with
      | none => false
      | some (b, off) =>
        let X := s.block b
        let here := min n (X.id.t - off)
        decide (here > 0) && decide (X.id.launch = (s.group g).id.launch) && !(X.id.keep && decide ((s.group g).run.place ≠ .keep)) &&
          s.bundleScratch g (pa + here) (n - here) fuel

/-- The scratchpad runs of a range that a group's instruction names by an offset, under the read rules of R174. -/
def State.scratchRuns (s : State) (g : Nat) (o : Word) (n : Nat) : Except Cause (List (Nat × Nat)) :=
  let B := s.blockOf g
  if ¬ o.getLsbD 31 then
    if o.toNat + n ≤ B.id.t then .ok (B.runs o.toNat n) else .error (kProt, 5)
  else
    match s.scratchForm g o with
    | .error c => .error c
    | .ok pa => if s.bundleScratch g pa n n then .ok [(pa, n)] else .error (kProt, 5)

/-- A lane of an operand name of member j, as the engine reads it: as the member's last sign met it, or as a write has left
it since (R210, R212). -/
def MatMem.read (M : MatMem) (ctr j name l : Nat) : LaneRead :=
  let v := (tget M.vals name).getD default
  let was : LaneRead := if v.live.getLsbD l then ⟨laneVal v.vals l, true, v.poison.getLsbD l⟩ else ⟨0, false, false⟩
  match tget M.alt name with
  | some (x, w) => if w.getLsbD l ∧ Config.freeChoice ctr (65536 * j + 128 * name + l) then ⟨laneVal x l, true, false⟩ else was
  | none => was

/-- What stops an operation, or what it computes. -/
structure MatEval where
  cause : Option Cause
  addr : Nat
  row : Nat × Nat
  flags : BitVec 6
  out : List (List Lanes)
  latchOut : List (List Byte)
  stale : List Nat
  deriving Repr, Inhabited

/-- An evaluation that stops. -/
def MatEval.stop (c : Cause) (addr : Nat) (row : Nat × Nat) (stale : List Nat) : MatEval :=
  { cause := some c, addr, row, flags := 0, out := [], latchOut := [], stale }

/-- The B image in memory: its words, or the fault with its address (R205). -/
def State.bImage (s : State) (o : SetOp) (g : Nat) (src : Wide) : Except (Cause × Nat) (List Byte) :=
  let n := 512 * mmaRegs o.fmt
  if o.bsrc = 1 then
    if src.toNat % 4 ≠ 0 then .error ((kProt, 6), src.toNat)
    else match s.scratchRuns g (src.setWidth 32) n with
      | .error c => .error (c, src.toNat)
      | .ok runs =>
        match s.firstPoison [] runs with
        | some a => .error (s.poisonCause a, a)
        | none => .ok (s.runBytes [] runs)
  else
    let r := s.regionOf g
    if src.toNat % 512 ≠ 0 then .error ((kProt, 6), src.toNat)
    else match s.coreRuns (s.coreOf g) r.asid r.troot .load r.world src.toNat n with
      | .error e => .error e
      | .ok runs =>
        if ¬ runs.all (fun x => inWeight x.1) then .error ((kProt, 4), src.toNat)
        else match s.firstPoison [] runs with
          | some a => .error (s.poisonCause a, src.toNat)
          | none => .ok (s.runBytes [] runs)

/-- The gathered rows of a member: bytes for each row, or the first failing row (R206). -/
def State.gatherRows (s : State) (o : SetOp) (g : Nat) (desc : Wide) (idx : Nat → Word) :
    Except (Cause × Nat × Nat × Nat) (List (List Byte)) :=
  (List.range 64).foldr (fun r acc =>
    let i := idx r
    let off : Word := BitVec.ofNat 32 (fld desc 0 32 + i.toNat * fld desc 48 16)
    if i.toNat ≥ fld desc 32 16 then .error ((kProt, 7), off.toNat, r, i.toNat)
    else if off.toNat % 4 ≠ 0 then .error ((kProt, 6), off.toNat, r, i.toNat)
    else match s.scratchRuns g off (mmaRow o.fmt) with
      | .error c => .error (c, off.toNat, r, i.toNat)
      | .ok runs =>
        if (s.firstPoison [] runs).isSome then .error ((kPoison, 1), off.toNat, r, i.toNat)
        else match acc with
          | .error e => .error e
          | .ok l => .ok (s.runBytes [] runs :: l)) (.ok [])

/-- The A-latch of a partition. -/
def State.latchOf (s : State) (p l : Nat) : Latch := (tget (s.part p).latches l).getD ⟨none, [], false⟩

/-- The first failure among a list of results, or all of them. -/
def allOk {ε α : Type} (l : List (Except ε α)) : Except ε (List α) :=
  l.foldr (fun x acc => match x, acc with
    | .ok a, .ok r => .ok (a :: r)
    | .error e, _ => .error e
    | _, .error e => .error e) (.ok [])

/-- Whether any of the first `n` lanes of a list of names of a member satisfies a test. -/
def anyLane (n : Nat) (rd : Nat → Nat → LaneRead) (names : List Nat) (p : LaneRead → Bool) : Bool :=
  names.any (fun x => (List.range n).any (fun l => p (rd x l)))

/-- Whether any lane that an operation reads of a member satisfies a test: lanes 0 to 63 of an index register, every lane of
the others (R206). -/
def SetOp.anyRead (o : SetOp) (ctr : Nat) (e : MatMem × Nat) (p : LaneRead → Bool) : Bool :=
  let rd (f l : Nat) : LaneRead := e.1.read ctr e.2 (e.1.name f) l
  anyLane (if o.src = .gather then 64 else 128) rd o.aFields p ||
    anyLane 128 rd (o.bFields (e.2 = 0) ++ o.cFields ++ o.sFields (e.2 = 0)) p

/-- A of every member: an element by row and k, whether a latch was not the block's own, and the first failure. -/
def State.matA (s : State) (ctr : Nat) (op : MatOp) (o : SetOp) :
    Except (Cause × Nat × Nat × Nat) (List ((Nat → Nat → Nat) × Bool)) :=
  allOk (op.members.zipIdx.map (fun e =>
    let M := e.1
    let rd (f l : Nat) : LaneRead := M.read ctr e.2 (M.name f) l
    match o.src with
    | .regs => .ok (fragElem o.fmt (fun i l => (rd (groupField o.a i) l).val), false)
    | .gather =>
      match s.gatherRows o M.gid (op.gdesc.getD M.desc) (fun r => (rd o.a r).val) with
      | .error x => .error x
      | .ok rows => .ok (fun r k => rowElem o.fmt (rows.getD r []) k, false)
    | .latch =>
      let x := s.latchOf (s.group M.gid).id.part o.latch
      if x.owner ≠ some op.block then .ok (fun _ _ => 0, true)
      else if x.poison then .error ((kPoison, 1), 0, 0, 0)
      else .ok (fun r k => rowElem o.fmt ((x.bytes.drop (64 * r)).take 64) k, false)))

/-- The evaluation of an MMA, MMAG or MMAB (R204). -/
def State.matMul (s : State) (ctr : Nat) (op : MatOp) (o : SetOp) : MatEval :=
  let M0 := op.members.headD default
  let present := op.members.zipIdx
  let poisoned := present.any (fun e => e.1.scalBad || o.anyRead ctr e (fun r => r.live && r.poison))
  let dead := (present.filter (fun e => o.anyRead ctr e (fun r => !r.live))).map (fun e => e.1.gid)
  let deadIdx := o.src = .gather && present.any (fun e => anyLane 64 (fun f l => e.1.read ctr e.2 (e.1.name f) l) o.aFields
    (fun r => !r.live))
  let img := if o.bsrc = 0 then .ok [] else s.bImage o M0.gid (op.bsrc.getD M0.scalB)
  if poisoned then .stop (kPoison, 1) 0 (0, 0) []
  else if op.checks.getLsbD 2 && deadIdx then .stop (kStaleread, 1) 0 (0, 0) []
  else
    match img with
    | .error (c, a) => .stop c a (0, 0) []
    | .ok bytes =>
      match s.matA ctr op o with
      | .error (c, a, r, i) => .stop c a (r, i) dead
      | .ok as =>
        let foreign := (present.zip as).filterMap (fun x => if x.2.2 then some x.1.1.gid else none)
        if op.checks.getLsbD 2 && !foreign.isEmpty then .stop (kStaleread, 2) 0 (0, 0) []
        else
          let rd0 (f l : Nat) : Word := (M0.read ctr 0 (M0.name f) l).val
          let bElem : Nat → Nat → Nat := if o.bsrc = 0 then fragElem o.fmt (fun i l => rd0 (groupField o.b i) l)
            else fragElem o.fmt (fun i l => BitVec.ofNat 32 (leAt bytes (512 * i + 4 * l) 4))
          let sbOf (c kb : Nat) : Nat :=
            if o.scaled then scaleByte o.fmt o.selB (rd0 (groupField o.s 1)) c kb else 127
          let one (x : (MatMem × Nat) × ((Nat → Nat → Nat) × Bool)) : List Lanes × BitVec 6 :=
            let M := x.1.1
            let rd (f l : Nat) : Word := (M.read ctr x.1.2 (M.name f) l).val
            let saOf (r kb : Nat) : Nat := if o.scaled then scaleByte o.fmt o.selA (rd o.s) r kb else 127
            let cell (i l : Nat) : Word × BitVec 6 :=
              let r := l % 64
              let c := 32 * (l / 64) + i
              mmaElement o.fmt (s.ftz M0.gid) (rd (groupField o.c i) l) (x.2.1 r) (bElem c) (saOf r) (sbOf c)
            ((List.range 32).map (fun i => lanesFn (fun l => (cell i l).1)),
             ((List.range 32).flatMap (fun i => (List.range 128).map (fun l => (cell i l).2))).foldl (· ||| ·) 0)
          let res := (present.zip as).map one
          { cause := none, addr := 0, row := (0, 0), flags := (res.map Prod.snd).foldl (· ||| ·) 0
            out := res.map Prod.fst, latchOut := [], stale := dead ++ foreign }

/-- The evaluation of an MDRN (R209). -/
def State.matDrain (s : State) (ctr : Nat) (op : MatOp) (o : SetOp) : MatEval :=
  let present := op.members.zipIdx
  let df := [1, 2, 3, 4].getD o.fmt 3
  let rdOf (e : MatMem × Nat) (f l : Nat) : LaneRead := e.1.read ctr e.2 (e.1.name f) l
  let parts := present.map (fun e => (s.group e.1.gid).id.part)
  if o.m ≠ 1 ∧ ¬ parts.Nodup then .stop cKset 0 (0, 0) []
  else if present.any (fun e => o.anyRead ctr e (fun r => r.live && r.poison)) then .stop (kPoison, 1) 0 (0, 0) []
  else
    let dead := (present.filter (fun e => o.anyRead ctr e (fun r => !r.live))).map (fun e => e.1.gid)
    let ftz := s.ftz ((op.members.headD default).gid)
    let conv (e : MatMem × Nat) (i l : Nat) : Nat × BitVec 6 :=
      let v := match f32v ftz (rdOf e (groupField o.a i) l).val with
        | .fin sg n x => FV.fin sg n (x + o.adj)
        | x => x
      encodeFmt df (if o.sr then 4 else 0) o.sat ftz (ditherOf i e.1.phase.toNat) v
    let one (e : MatMem × Nat) : List Lanes × List Byte × BitVec 6 :=
      let regs := if o.m = 0 then [] else (List.range o.dFields.length).map (fun q => lanesFn (fun l =>
        let per := 32 / elemWidth df
        BitVec.ofNat 32 (packElems df ((List.range per).map (fun x => (conv e (per * q + x) l).1)))))
      let bytes := if o.m = 1 then [] else (List.range 4096).map (fun x =>
        let r := x / 64
        let k := x % 64
        BitVec.ofNat 8 (conv e (k % 32) (r + 64 * (k / 32))).1)
      (regs, bytes, ((List.range 32).flatMap (fun i => (List.range 128).map (fun l => (conv e i l).2))).foldl (· ||| ·) 0)
    let res := present.map one
    { cause := none, addr := 0, row := (0, 0), flags := (res.map (fun x => x.2.2)).foldl (· ||| ·) 0
      out := res.map Prod.fst, latchOut := res.map (fun x => x.2.1), stale := dead }

/-! ### The engine (R200, R211, R213, R214) -/

/-- The partition of an operation's member 0. -/
def State.matPart (s : State) (op : MatOp) : Nat := (s.group ((op.members.headD default).gid)).id.part

/-- Whether an operation may enter the queue: it is due, its block runs, and no earlier operation of its register is
incomplete (R200). -/
def State.matEnters (s : State) (op : MatOp) : Bool :=
  decide (op.phase = .waiting) && decide (op.due ≤ s.clk.ac) && decide ((s.block op.block).run = BlockRun.running) &&
    !(s.mats.any (fun e => e.2.block = op.block && e.2.k = op.k && decide (e.2.ordinal < op.ordinal)))

/-- The fully signed operations of a partition enter its queue of four in the order in which they became so. -/
def State.enqueueOps (s : State) (p : Nat) : State :=
  let mine := s.mats.filter (fun e => s.matPart e.2 = p && s.matEnters e.2)
  let next := mine.foldl (fun (best : Option (Nat × MatOp)) e => match best with
    | none => some e
    | some b => if e.2.seq < b.2.seq then some e else some b) none
  match next with
  | some (id, op) =>
    if (s.part p).queue.length ≥ 4 then s
    else (({ s with mats := tput s.mats id { op with phase := .queued } } : State)).modPart p
      (fun x => { x with queue := x.queue ++ [id] })
  | none => s

/-- OPVAL of a tile task (R269). -/
def MatOp.opval (op : MatOp) (b : Wide) (row : Nat × Nat) : List Wide :=
  [BitVec.ofNat 64 (op.k + 2 ^ 8 * (op.ordinal % 2 ^ 24)), BitVec.ofNat 64 (row.1 + 2 ^ 32 * row.2), b,
   wideOf op.words.2 op.words.1]

/-- An operation parks as a tile task (R214); poison in an open containment region of a member unwinds that region
instead, and the operation is abandoned (R282). -/
def State.matPark (s : State) (id : Nat) (c : Cause) (addr : Nat) (row : Nat × Nat) : State :=
  match tget s.mats id with
  | none => s
  | some op =>
    let held := op.members.filter (fun m => s.inContain m.gid)
    if c.1 = kPoison ∧ ¬ held.isEmpty then (foldS held s (fun s m => s.unwind m.gid 1)).matOver id
    else
      let M0 := op.members.headD default
      let s := (s.leaveEngine id).dropMatResv op
      let s := { s with mats := tput s.mats id { op with phase := .parked, resv := [], out := [], latchOut := [], readAt := none, cuts := [] } }
      let (r, s) := s.formRecord c (.tile id) (s.block op.block).id.launch (s.group M0.gid).id.index op.lastPc
        (BitVec.ofNat 64 addr) (op.opval (op.bsrc.getD M0.scalB) row)
      { s with faults := { s.faults with recs := tmod s.faults.recs r (fun x => { x with iseq := op.seq }) } }

/-- Whether a destination of a member is used in place: its field is C's at the same position, and its name maps a physical
register that no open snapshot pins (R211, R281). -/
def State.landsInPlace (s : State) (o : SetOp) (M : MatMem) (f : Nat) : Bool :=
  o.inPlace.contains f && (match (tget (s.group M.gid).map (M.name f)).map MapEntry.map with
    | some (.phys p) => !(tgetD (s.core (s.coreOf M.gid)).pool p).pinned
    | _ => false)

/-- Whether a member's group is there to take results. -/
def State.memberThere (s : State) (M : MatMem) : Bool :=
  !M.dead && (tget s.groups M.gid).isSome && decide ((s.group M.gid).run.place ≠ .gone)

/-- The destinations of a member that need a register when the operation reaches the head of its queue (R211). -/
def State.matNeeds (s : State) (o : SetOp) (M : MatMem) : List Bool :=
  if s.memberThere M then
    o.dFields.map (fun f => !s.landsInPlace o M f && s.needsPhys M.gid (M.name f) (s.group M.gid).occupied false)
  else []

/-- What the pool says to a member's request of an operation. What awaits only the operation's own read is no release that
it could wait for (R96, R211). -/
def State.matSays (s : State) (id g n : Nat) : PoolSays :=
  if n ≠ 0 ∧ s.regsHeld g + n > (s.group g).regs.allot ∧ ¬ (s.endReads id).awaiting (s.coreOf g) g then .fault
  else s.poolSays g n (.op id)

/-- A member's request of an operation stands on its core's waiting list (R98, R211). -/
def State.matAsk (s : State) (id g n : Nat) : State :=
  let core := s.coreOf g
  let own := decide (s.regsHeld g + n > (s.group g).regs.allot)
  if (s.core core).pwait.any (fun q => !q.isOther g (.op id)) then
    s.modCore core (fun c => { c with pwait := c.pwait.map (fun q => if q.isOther g (.op id) then q else { q with count := n, own := own }) })
  else s.modCore core (fun c => { c with pwait := c.pwait ++ [⟨g, n, .op id, own, false⟩] })

/-- A member's request of an operation leaves the waiting list. -/
def State.matGot (s : State) (id g : Nat) : State :=
  s.modCore (s.coreOf g) (fun c => { c with pwait := c.pwait.filter (fun q => q.isOther g (.op id)) })

/-- The requests of an operation leave the waiting lists. -/
def State.matServed (s : State) (id : Nat) : State :=
  { s with cores := s.cores.map (fun (e : Nat × Core) => (e.1, { e.2 with
    pwait := e.2.pwait.filter (fun (q : PoolReq) => decide (q.asker ≠ .op id)) })) }

/-- The members of an operation at the head of its queue take the registers for their destinations, each those that it has not yet
and can have; the others' requests wait (R98, R211). The answer says whether one exceeds its allotment. -/
def State.matTake (o : SetOp) (id : Nat) : List (MatMem × Nat) → State → Bool × State
  | [], s => (false, s)
  | (M, j) :: r, s =>
    let have_ := ((tget s.mats id).map MatOp.resv).getD []
    if have_.getD j [] ≠ [] then State.matTake o id r s
    else
      let needs := s.matNeeds o M
      let n := (needs.filter (· = true)).length
      match s.matSays id M.gid n with
      | .fault => (true, s)
      | .wait => State.matTake o id r (s.matAsk id M.gid n)
      | .ok =>
        let x := s.reserveAll M.gid needs
        State.matTake o id r ((x.2.matGot id M.gid).modMat id (fun op => { op with
          resv := (List.range op.members.length).map (fun i => if i = j then x.1 else op.resv.getD i []) }))

/-- Whether a member's request of an operation still waits. -/
def State.matWaits (s : State) (id : Nat) : Bool := s.cores.any (fun e => e.2.pwait.any (fun q => decide (q.asker = .op id)))

/-- The time in which the members' rows are gathered: for each member the largest number of distinct words of any one
bank of a core's scratchpad (R153, R213). -/
def State.gatherTime (s : State) (ctr : Nat) (op : MatOp) (o : SetOp) : Nat :=
  if o.src = .gather then
    (op.members.zipIdx.map (fun e =>
      let M := e.1
      let desc := op.gdesc.getD M.desc
      let idx (r : Nat) : Word := (M.read ctr e.2 (M.name o.a) r).val
      let offs : List Word := ((List.range 64).map (fun r =>
        BitVec.ofNat 32 (fld desc 0 32 + (idx r).toNat * fld desc 48 16))).eraseDups
      let words : List Nat := offs.flatMap (fun off => match s.scratchRuns M.gid off (mmaRow o.fmt) with
        | .error _ => []
        | .ok runs => runs.flatMap (fun x => (List.range (x.2 / 4)).map (fun k => x.1 / 4 + k)))
      let banks := (words.map (fun w => (w / 131072, w % 32))).eraseDups
      (banks.map (fun b =>
        (words.filter (fun w => decide ((w / 131072, w % 32) = b))).eraseDups.length)).foldl max 0)).sum
  else 0

/-- Reading the operands (R213): 4 ac from registers, beside which an MMAB's latch takes no time; the read of a weight-store
image has only an upper bound (DESIGN CHOICE, log entry 26). -/
def State.matReadTime (s : State) (ctr : Nat) (op : MatOp) (o : SetOp) : Nat :=
  if o.drain then 4
  else max (max 4 (s.gatherTime ctr op o)) (if o.bsrc = 1 then (if o.fmt = 6 then 48 else 32) else 0)

/-- One member's piece of an execution (R213, R215). -/
def matPiece (op : MatOp) (o : SetOp) : Nat := (if o.drain then 8 else 32) * (if op.checks.getLsbD 0 then 2 else 1)

/-- The checked pieces of an operation by the mismatches to come: for each piece how many of its comparisons mismatch, up to
the first piece whose second one does, and the mismatches left (R215). -/
def sdcPieces : Nat → Nat → List Nat × Nat
  | 0, x => ([], x)
  | n + 1, x => if sdcTake x = 2 then ([2], sdcRest x) else
      let r := sdcPieces n (sdcRest x)
      (sdcTake x :: r.1, r.2)

/-- The mismatches of each piece of an operation; one that is not checked has none. -/
def State.matSdc (s : State) (op : MatOp) : List Nat × Nat :=
  if op.checks.getLsbD 0 then sdcPieces op.members.length s.env.sdc else (op.members.map (fun _ => 0), s.env.sdc)

/-- The cycle in which an operation that starts now has read its operands (R213). An operation that follows another without
a pause has read them while the other executed, and executes from the end of the other's execution: the other's write-back
of 4 ac is over now. DEDUCED, DESIGN CHOICE, log entry 26. -/
def State.matStart (s : State) (part ctr : Nat) (op : MatOp) (o : SetOp) : Nat :=
  let read := s.matReadTime ctr op o
  if (s.part part).engineEnd.1 = s.clk.ac then max (op.due + read) (s.part part).engineEnd.2 else s.clk.ac + read

/-- The cycles at which the pieces of an execution end; a piece that mismatches once runs again (R215). -/
def matEnds (piece start : Nat) : List Nat → List Nat
  | [] => []
  | n :: r =>
    let e := start + piece * (if n = 0 then 1 else 2)
    e :: matEnds piece e r

/-- The cycle in which an operation that starts now has executed. -/
def State.matDone (s : State) (part ctr : Nat) (op : MatOp) (o : SetOp) : Nat :=
  (matEnds (matPiece op o) (s.matStart part ctr op o) (s.matSdc op).1).getLastD 0

/-- The cycle in which an operation that starts now has written its results (R213). -/
def State.matUntil (s : State) (part ctr : Nat) (op : MatOp) (o : SetOp) : Nat := s.matDone part ctr op o + 4

/-- The mismatches of an operation's pieces are logged, the second of one as uncorrectable (R215, R311). -/
def State.logPieces (s : State) (part : Nat) (region : Nat) (l : List Nat) : State :=
  foldS (l.filter (· ≠ 0)) s (fun s n => s.logBank (coreBank (coreOfPart part)) (n = 2)
    ⟨0, bankInfo tySdc 0, BitVec.ofNat 32 region⟩)

/-- The engine has read an operation's operands: its pending reads end, and its last uses and the releases that waited for it
take effect on the names that still map what it has read (R8, R92, R210). -/
def State.readOver (s : State) (id : Nat) : State :=
  match tget s.mats id with
  | none => s
  | some op =>
    let marked : List (Nat × Nat × Mask) := op.members.flatMap (fun m => m.marks.filterMap (fun n =>
      match tget (s.group m.gid).map n.1 with
      | some e => if m.holds.any (Mapping.same e.map) then some (m.gid, n.1, n.2) else none
      | none => none))
    foldS marked ((s.endReads id).modMat id (fun op => { op with readAt := none })) (fun s x => s.releaseName x.1 x.2.1 x.2.2)

/-- Whether the release at .blk that the members' signs make is complete: every store that a member's group issued before
its last sign has entered its node (R217, R231). -/
def State.signsReleased (s : State) (op : MatOp) : Bool :=
  op.members.all (fun M => s.earlierStoresOut M.gid M.seq.2 1)

/-- Where the B image of an operation lies in an address space: the group that reads it, the address and the bytes (R205). -/
def MatOp.image (op : MatOp) (o : SetOp) : Option (Nat × Nat × Nat) :=
  let M0 := op.members.headD default
  if o.drain ∨ o.bsrc ≠ 2 then none else some (M0.gid, (op.bsrc.getD M0.scalB).toNat, 512 * mmaRegs o.fmt)

/-- Whether the read of a B image waits: for a walker, or for a refresh window of the weight store (R151, R155, R205). -/
def State.imageHeld (s : State) (op : MatOp) (o : SetOp) : Bool :=
  match op.image o with
  | none => false
  | some (g, va, n) => s.coreHeld (s.coreOf g) (s.regionOf g).asid (s.regionOf g).troot (s.regionOf g).world va n

/-- The leaves of a B image are cached (R151). -/
def State.cacheImage (s : State) (op : MatOp) (o : SetOp) : State :=
  match op.image o with
  | none => s
  | some (g, va, n) => s.coreFills (s.coreOf g) (s.regionOf g).asid (s.regionOf g).troot va n

/-- What a mapping of an operand holds now: in the spill area, what the group's table has for the same register. -/
def State.mapNow (s : State) (g : Nat) (x : Mapping) : Lanes × Mask :=
  let c := s.core (s.coreOf g)
  let now := match x with
    | .spilled _ _ _ _ => ((s.group g).map.find? (fun e => x.same e.2.map)).map (fun e => e.2.map) |>.getD x
    | _ => x
  (c.mapVals now, c.mapPoison now)

/-- A member's operands as the registers behind the mappings of its last sign hold them now (R210, R218): lanes that a thread has
written since its first sign aside, where the engine may see either value (R212). -/
def State.renewed (s : State) (M : MatMem) : MatMem :=
  { M with vals := M.vals.map (fun (e : Nat × OpVal) => match e.2.map with
    | some x =>
      if (M.holds ++ M.claims).any (Mapping.same x) then
        let w := e.2.live &&& ~~~((tget M.alt e.1).map Prod.snd |>.getD 0)
        let now := s.mapNow M.gid x
        (e.1, { e.2 with vals := mergeLanes w now.1 e.2.vals, poison := (e.2.poison &&& ~~~w) ||| (now.2 &&& w) })
      else e
    | none => e) }

/-- The operand values of an operation are read from the registers (R210). -/
def State.readValues (s : State) (op : MatOp) : MatOp := { op with members := op.members.map s.renewed }

/-- An operation that has its destinations reads its operands and runs, or parks. -/
def State.startOp (s : State) (part id : Nat) (op : MatOp) (o : SetOp) : State :=
  let (ctr, s) := s.freshFree
  let op := s.readValues op
  let start := s.matStart part ctr op o
  let done := s.matDone part ctr op o
  let pieces := s.matSdc op
  let region := (s.launch (s.block op.block).id.launch).region
  let ev := if o.drain then s.matDrain ctr op o else s.matMul ctr op o
  let s := ((foldS ev.stale s (fun s g => s.warn g 0)).cacheImage op o).matServed id
  match ev.cause with
  | some c => s.matPark id c ev.addr ev.row
  | none =>
    let s := { s with env := { s.env with sdc := pieces.2 } }
    let s := s.logPieces part region.regionId pieces.1
    let sub := trapSub region.trapen ev.flags
    let fault : Option Cause := if pieces.1.contains 2 then some (kSdcmis, 2) else if sub ≠ 0 then some (kArith, sub) else none
    let until_ := if fault.isSome then done else done + 4
    let op' : MatOp := { op with
      phase := .running until_, out := ev.out, latchOut := ev.latchOut, flags := ev.flags, fault := fault
      readAt := if fault.isSome then none else some start
      cuts := start :: (if op.checks.getLsbD 0 then (matEnds (matPiece op o) start pieces.1).dropLast else []) }
    ({ s with mats := tput s.mats id op' }).modPart part (fun x => { x with engine := some (id, until_) })

/-- Whether an operation lets a halt complete now: the engine does not execute it, or stands between two checked pieces; one
whose operands are still being read is not executing (R57, R215). -/
def State.haltsAt (s : State) (op : MatOp) : Bool :=
  match op.phase with
  | .running _ => op.cuts.head?.any (fun t => decide (s.clk.ac < t)) || op.cuts.tail.contains s.clk.ac
  | _ => true

/-- An operation that the engine has not completed is retracted, with what it has read and computed: it will enter a queue
again (R57, R215). -/
def State.retract (s : State) (id : Nat) : State :=
  match tget s.mats id with
  | none => s
  | some op =>
    match op.phase with
    | .queued | .allocating | .running _ =>
      (((s.leaveEngine id).dropMatResv op).matServed id).modMat id (fun op => { op with
        phase := .waiting, out := [], latchOut := [], resv := [], flags := 0, fault := none, readAt := none, cuts := [] })
    | _ => s

/-- A running operation: a halt of its partition retracts it where it may, else the releases that wait for its read take effect
when that is over (R8, R57). -/
def State.runOp (s : State) (part id : Nat) : State :=
  match tget s.mats id with
  | none => s
  | some op =>
    if s.partHalted part && s.haltsAt op then s.retract id
    else if op.readAt.any (fun t => decide (t ≤ s.clk.ac)) then s.readOver id
    else s

/-- ENGINE_OP_START: the head of an idle engine's queue takes its destinations, and once it has them reads its operands, or parks;
a running operation goes on (R8, R57, R211, R213). An operation of a spilled group starts as any other, on what the spill area keeps
(DESIGN CHOICE, log entry 16). -/
def execEngineOpStart (part : Nat) (s : State) : Res :=
  let s := s.enqueueOps part
  match (s.part part).engine, (s.part part).queue with
  | some (id, _), _ => .next (s.runOp part id)
  | none, id :: _ =>
    match tget s.mats id with
    | none => .next (s.leaveEngine id)
    | some op =>
      match setOpOf op.instr with
      | none => .next (s.leaveEngine id)
      | some o =>
        if (s.block op.block).run ≠ BlockRun.running ∨ (s.part part).frozen.isSome ∨ s.partHalted part then .next s
        else
          let x := State.matTake o id op.members.zipIdx s
          let op := (tget x.2.mats id).getD op
          if x.1 then .next ((x.2.matServed id).matPark id cAllot 0 (0, 0))
          else if x.2.matWaits id then .next (x.2.modMat id (fun x => { x with phase := .allocating }))
          else if ¬ s.signsReleased op ∨ s.imageHeld op o then .next (x.2.modMat id (fun x => { x with phase := .queued }))
          else .next (x.2.startOp part id op o)
  | none, [] => .next s

/-- A latch of a partition whose owner is stowed goes to that block's stow area before another block's contents come
(R216). -/
def State.saveLatch (s : State) (p l owner : Nat) : State :=
  let old := s.latchOf p l
  match old.owner with
  | some b =>
    if b ≠ owner ∧ (s.block b).run = BlockRun.stowed then
      s.modBlock b (fun B => { B with stowLatches := (p, l, old) :: B.stowLatches.filter (fun x => x.1 ≠ p || x.2.1 ≠ l) })
    else s
  | none => s

/-- A latch of a partition filled for a block (R207, R216). -/
def State.fillLatch (s : State) (p l owner : Nat) (bytes : List Byte) (poison : Bool) : State :=
  (s.saveLatch p l owner).modPart p (fun x => { x with latches := tput x.latches l ⟨some owner, bytes, poison⟩ })

/-- A register of a member's results lands in the lanes `w`: an accumulator used in place is written in place whoever reads
it, any other by R91 (R211); a stowed group's by R58. -/
def State.landResult (s : State) (o : SetOp) (M : MatMem) (f : Nat) (w : Mask) (v : Lanes) (resv : Option Nat) : State :=
  let g := M.gid
  let n := M.name f
  let core := s.coreOf g
  if (s.group g).run.place = .stowed ∧ (s.group g).run.spilled then
    (s.modGroup g (fun G => { G with landing := G.landing ++ [⟨n, false, w, v, s.env.seq⟩] })).unreserve core resv
  else
    match tget (s.group g).map n, s.landsInPlace o M f with
    | some ⟨.phys p, m⟩, true =>
      ((s.modCore core (fun c => { c with pool := tmod c.pool p (fun r =>
        { r with vals := mergeLanes w v r.vals, poison := r.poison &&& ~~~w }) })).setEntry g n
          (some ⟨.phys p, m ||| w⟩)).unreserve core resv
    | _, _ => s.landName g n w v false resv

/-- What an operation has written reaches the later operations of the register that work on from it (R218). -/
def State.forward (s : State) (op : MatOp) (g name : Nat) (w : Mask) (v : Lanes) : State :=
  { s with mats := s.mats.map (fun (e : Nat × MatOp) =>
    if e.2.block = op.block ∧ e.2.k = op.k ∧ op.ordinal < e.2.ordinal then (e.1, { e.2 with
      members := e.2.members.map (fun (m : MatMem) =>
        if m.gid = g ∧ m.late.contains name then
          let x := (tget m.vals name).getD default
          { m with vals := tput m.vals name ⟨mergeLanes w v x.vals, x.live ||| w, x.poison &&& ~~~w, x.map⟩ }
        else m) })
    else e) }

/-- A member's register as it is written: where the thread has written the name since its sign, its value or the engine's
(R212). -/
def MatMem.either (M : MatMem) (ctr j name : Nat) (v : Lanes) : Lanes :=
  match tget M.alt name with
  | some (x, w) => if w = 0 then v
      else lanesFn (fun l => if w.getLsbD l ∧ Config.freeChoice ctr (65536 * j + 128 * name + l) then laneVal x l else laneVal v l)
  | none => v

/-- The results of an operation are written: registers in the lanes that are not vacant, latches, flags (R209, R211). The latch of a
member that has exited is filled all the same. -/
def State.matWrite (s : State) (op : MatOp) (o : SetOp) : State :=
  let (ctr, s) := s.freshFree
  foldS op.members.zipIdx s (fun s e =>
    let M := e.1
    let G := s.group M.gid
    let latch (s : State) : State :=
      if o.drain ∧ o.m ≠ 1 ∧ !M.dead ∧ (tget s.groups M.gid).isSome then
        s.fillLatch G.id.part o.latch op.block (op.latchOut.getD e.2 []) false
      else s
    if ¬ s.memberThere M then latch s
    else
      let w := G.occupied
      let regs := op.out.getD e.2 []
      let resv := op.resv.getD e.2 []
      let s := foldS o.dFields.zipIdx s (fun s f =>
        let v := M.either ctr e.2 (M.name f.1) (regs.getD f.2 [])
        (s.landResult o M f.1 w v (resv.getD f.2 none)).forward op M.gid (M.name f.1) w v)
      (latch s).orFlags M.gid op.flags)

/-- ENGINE_OP_COMPLETE: the results are written and the operation is over, or it parks. -/
def execEngineOpComplete (part : Nat) (s : State) : Res :=
  match (s.part part).engine with
  | none => .next s
  | some (id, until_) =>
    match tget s.mats id with
    | none => .next (s.leaveEngine id)
    | some op =>
      match setOpOf op.instr with
      | none => .next (s.leaveEngine id)
      | some o =>
        if s.clk.ac < until_ then .next s
        else
          match op.fault with
          | some c => .next ((s.modPart part (fun x => { x with engineEnd := (s.clk.ac, s.clk.ac) })).matPark id c 0 (0, 0))
          | none =>
            let s := ((s.modPart part (fun x => { x with engineEnd := (s.clk.ac, s.clk.ac - 4) })).readOver id).matWrite op o
            .next ((s.modMat id (fun x => { x with resv := [] })).matOver id)

end Sys2Proof.Machine
end

