-- ==== Sys2Proof/Machine/Tile.lean ====
section
/-! DEFINITION. Frame tiles: binding, suspending, waking, transforming, queries (R245 to R252, R255). -/
namespace Sys2Proof.Machine

/-- ILLEGAL TILE (R237). -/
def cTile : Cause := (kIllegal, 0x0C)

/-- Whether the release at .blk that a tile instruction makes is complete: every store that its group issued before it has
entered its node (R231, R247). The instruction issues only then, so that the unit's queue holds no operation that it could
not apply (DESIGN CHOICE, log entry 44). -/
def State.tileReady (s : State) (g : Nat) : Bool := s.earlierStoresOut g s.env.nextId 1

/-! ### Reads and writes of the tile unit (R230) -/

/-- Bytes of a tile's space: block offsets, or virtual addresses through the die node's path. -/
def State.tileRead (s : State) (b : Nat) (t : Tile) (a n : Nat) : Except (Cause × Nat) (List Byte) :=
  let B := s.block b
  if t.scratch then
    let runs := B.runs a n
    match s.firstPoison [] runs with
    | some x => .error ((kPoison, 1), x)
    | none => .ok (s.runBytes [] runs)
  else
    let r := (s.launch B.id.launch).region
    s.vread [dieNode B.id.die] r.troot r.world a n

/-- Bytes written into a tile's space. -/
def State.tileWrite (s : State) (b : Nat) (t : Tile) (a : Nat) (bytes : List Byte) : Except (Cause × Nat) State :=
  let B := s.block b
  if t.scratch then .ok (s.blockPut b a bytes)
  else
    let r := (s.launch B.id.launch).region
    s.vwrite (dieNode B.id.die) r.troot r.world a bytes

/-- Bytes of an overflow chunk, which lies in the region's address space whatever the tile's space. -/
def State.ovfRead (s : State) (b a n : Nat) : Except (Cause × Nat) (List Byte) :=
  let B := s.block b
  let r := (s.launch B.id.launch).region
  s.vread [dieNode B.id.die] r.troot r.world a n

/-- Bytes written into an overflow chunk. -/
def State.ovfWrite (s : State) (b a : Nat) (bytes : List Byte) : Except (Cause × Nat) State :=
  let B := s.block b
  let r := (s.launch B.id.launch).region
  s.vwrite (dieNode B.id.die) r.troot r.world a bytes

/-- Size of an overflow row. -/
def Tile.ovfSize (t : Tile) : Nat := 4 + 4 * t.names.length

/-- The address of overflow row `o`, by the chain from a chunk; none past its end (R246). -/
def State.ovfAddr (s : State) (b : Nat) (t : Tile) : Nat → Nat → Nat → Except (Cause × Nat) (Option Nat)
  | 0, _, _ => .ok none
  | fuel + 1, chunk, o =>
    if chunk = 0 then .ok none
    else match s.ovfRead b chunk 16 with
      | .error e => .error e
      | .ok h =>
        let cap := leAt h 8 4
        if o < cap then .ok (some (chunk + 64 + o * t.ovfSize)) else s.ovfAddr b t fuel (leAt h 0 8) (o - cap)

/-- The address of an overflow row of a tile; a chain holds at most 65,535 rows. -/
def State.ovfRow (s : State) (b : Nat) (t : Tile) (o : Nat) : Except (Cause × Nat) (Option Nat) :=
  if o ≥ 65535 then .ok none else s.ovfAddr b t 65536 t.overflow.toNat o

/-- The address of a tile row, and of one of its columns. -/
def Tile.rowAddr (t : Tile) (r : Nat) : Nat := t.base.toNat + 4 * t.names.length * r

/-- The lowest row that is not occupied. -/
def Tile.freeRow (t : Tile) : Option Nat := (List.range t.rows).find? (fun r => !t.occ.contains r)

/-- A bound tile changed. -/
def State.modTile (s : State) (b h : Nat) (f : Tile → Tile) : State :=
  s.modBlock b (fun B => { B with tiles := tmod B.tiles h f })

/-- The physical runs of a row of a tile's space. -/
def State.rowRuns (s : State) (b : Nat) (t : Tile) (a n : Nat) : Except (Cause × Nat) (List (Nat × Nat)) :=
  let B := s.block b
  let r := (s.launch B.id.launch).region
  if t.scratch then .ok (B.runs a n) else s.xlateRuns r.troot .store r.world a n

/-- A poisoned overflow row as it moves: its bytes, with none where it is poisoned or cannot be read (R169, R255). -/
def State.ovfRaw (s : State) (b a n : Nat) : List (Option Byte) :=
  let B := s.block b
  let r := (s.launch B.id.launch).region
  match s.xlateRuns r.troot .load r.world a n with
  | .ok runs => runs.flatMap (fun x => (List.range x.2).map (fun i => s.pathByte [dieNode B.id.die] (x.1 + i)))
  | .error _ => List.replicate n none

/-- A row is written with bytes of which some are poisoned: the grains of those become poison (R169). -/
def State.tileWriteRaw (s : State) (b : Nat) (t : Tile) (a : Nat) (bytes : List (Option Byte)) : Except (Cause × Nat) State :=
  match s.rowRuns b t a bytes.length, s.tileWrite b t a (bytes.map (fun x => x.getD 0)) with
  | .error e, _ => .error e
  | _, .error e => .error e
  | .ok runs, .ok s =>
    let path := if t.scratch then [] else [dieNode (s.block b).id.die]
    let s := foldS runs s (fun s x => (s.pushToward path deviceNode x.1 x.2).settle)
    let at_ : List Nat := runs.flatMap (fun x => (List.range x.2).map (fun i => x.1 + i))
    .ok (foldS ((at_.zip bytes).filter (fun x => x.2.isNone)) s (fun s x => s.poisonGrain x.1))

/-- Overflow rows move into free tile rows, latest first (R255), or the first fault. A poisoned row moves as it is; whether it was
woken, where its state word is poisoned, is not known (DESIGN CHOICE, log entry 6). The fuel bounds the rows that can
move. -/
def State.refillTile (s : State) (b h : Nat) : Nat → Except (Cause × Nat) State
  | 0 => .ok s
  | fuel + 1 =>
    match tget (s.block b).tiles h with
    | none => .ok s
    | some t =>
      match t.freeRow with
      | none => .ok s
      | some row =>
        if t.ovf = 0 ∨ t.nocc ≥ t.rows then .ok s
        else match s.ovfRow b t (t.ovf - 1) with
          | .error e => .error e
          | .ok none => .ok s
          | .ok (some a) =>
            let move (s' : Except (Cause × Nat) State) (woken : Bool) : Except (Cause × Nat) State := match s' with
              | .error e => .error e
              | .ok s =>
                (s.modTile b h (fun t =>
                  let t := { t.occupy [row] with ovf := t.ovf - 1 }
                  if woken then t.wake [row] else t)).refillTile b h fuel
            match s.ovfRead b a t.ovfSize with
            | .ok bytes => move (s.tileWrite b t (t.rowAddr row) (bytes.drop 4)) (decide (leAt bytes 0 4 % 2 = 1))
            | .error e =>
              if e.1.1 ≠ kPoison then .error e
              else
                let (ctr, s) := s.freshFree
                let raw := s.ovfRaw b a t.ovfSize
                let woken := match raw.headD none with
                  | some x => x.getLsbD 0
                  | none => Config.freeChoice ctr row
                move (s.tileWriteRaw b t (t.rowAddr row) (raw.drop 4)) woken

/-! ### Descriptors (R245) -/

/-- The names of CMAP, run by run. -/
def cmapNames (d : List Byte) : List Nat :=
  (List.range 8).flatMap (fun i =>
    let w := leAt d (0x20 + 2 * i) 2
    (List.range (w / 512 % 64)).map (fun k => w % 512 + k))

/-- The binding that a descriptor describes. -/
def tileOf (va pa : Nat) (d area : List Byte) : Tile :=
  let rows := leAt d 0x30 2
  let rowsIn (o : Nat) : List Nat := (List.range rows).filter (fun r => leAt area (o + r / 8) 1 / 2 ^ (r % 8) % 2 = 1)
  let th := leAt d 0x34 2
  { va := BitVec.ofNat 64 va, pa, base := BitVec.ofNat 64 (leAt d 0 8), resume := BitVec.ofNat 64 (leAt d 8 8)
    wakeBase := BitVec.ofNat 64 (leAt d 0x10 8), overflow := BitVec.ofNat 64 (leAt d 0x18 8), names := cmapNames d, rows
    scratch := leAt d 0x33 1 % 2 = 1, thresh := if th = 0 then 128 else th, allot := leAt d 0x3C 2, role := leAt d 0x3E 1
    occ := rowsIn 0, woken := rowsIn 128, nocc := leAt d 0x36 2, nwoken := leAt d 0x38 2, ovf := leAt d 0x3A 2, binrun := false, dispatch := .none }

/-- The smallest ALLOT of a bundle's sub-launches (R248). -/
def Launch.minAllot (l : Launch) : Nat :=
  ((List.range l.bundle.subs.length).map l.allotOf).foldl min 512

/-- The fields of a descriptor in range (R245, R248). -/
def tileFieldsOk (d : List Byte) : Bool :=
  let runs := (List.range 8).map (fun i => leAt d (0x20 + 2 * i) 2)
  let names := cmapNames d
  let rows := leAt d 0x30 2
  let cols := leAt d 0x32 1
  let allot := leAt d 0x3C 2
  let space := leAt d 0x33 1 % 2
  decide (leAt d 0 8 % 4 = 0) && slotPc (leAt d 8 8) && decide (leAt d 0x10 8 % 256 = 0) && decide (leAt d 0x18 8 % 64 = 0) &&
    runs.all (fun w => decide (w / 512 % 64 ≤ 32) && decide (w < 2 ^ 15) && decide (w % 512 + w / 512 % 64 ≤ 512)) &&
    decide (1 ≤ rows) && decide (rows ≤ 1024) && decide (1 ≤ cols) && decide (cols ≤ 32) && decide (cols = names.length) &&
    decide names.Nodup && decide (leAt d 0x33 1 < 2) && decide (leAt d 0x34 2 ≤ 128) && decide (16 ≤ allot) &&
    decide (allot ≤ 512) && decide (cols ≤ allot) && decide (leAt d 0x3E 1 ≤ 3) && decide (leAt d 0x3F 1 = 0) &&
    (decide (space = 0) || (decide (leAt d 0 8 < 2 ^ 32) && decide (leAt d 0x10 8 < 2 ^ 32)))

/-- Rows and state area of a scratchpad tile below the barrier window (R248). -/
def Block.tileFits (B : Block) (t : Tile) : Bool :=
  !t.scratch || (decide (t.base.toNat + 4 * t.names.length * t.rows + 256 ≤ B.id.t) &&
    decide (t.wakeBase.toNat + 512 ≤ B.id.t))

/-- Whether some handle of the package, or a fault bin, is bound to a physical descriptor address. -/
def State.boundTo (s : State) (pa : Nat) : Bool :=
  s.blocks.any (fun e => e.2.tiles.any (fun t => t.2.pa = pa))

/-- Whether a write-back of a descriptor is parked (R361). -/
def State.backParked (s : State) (pa : Nat) : Bool :=
  s.faults.recs.any (fun e => e.2.unserved && (match e.2.origin with
    | .writeBack _ _ t => decide (t.pa = pa)
    | _ => false))

/-- The descriptor at an address, bound for a block: its tile, or the fault (R248). Both reads come before the checks, but
that a scratchpad tile that does not lie in the block's scratchpad has no area to read. -/
def State.readTile (s : State) (b va : Nat) : Except (Cause × Nat) (Option Tile) :=
  let B := s.block b
  let L := s.launch B.id.launch
  let r := L.region
  match s.xlate r.troot .load r.world va with
  | .error c => .error (c, va)
  | .ok pa =>
    match s.ovfRead b va 64 with
    | .error e => .error e
    | .ok d =>
      let t0 := tileOf va pa d []
      if ¬ B.tileFits t0 then .ok none
      else match s.tileRead b t0 t0.wakeBase.toNat 256 with
        | .error e => .error e
        | .ok area =>
          if ¬ tileFieldsOk d ∨ L.minAllot < t0.allot ∨ s.boundTo pa then .ok none else .ok (some (tileOf va pa d area))

/-- The handle that an A field names. -/
def handleOf (f : BitVec 7) : Nat := f.toNat % 16

/-- TDEF (R248). -/
def execTdef (f : TR) (s : State) : Res :=
  let o := opnds (.tdef f)
  let c := s.begin_ (.tdef f) o
  let is := c.iss
  let m := is.leader
  let g := m.gid
  let b := (c.group g).id.block
  let h := handleOf f.a
  let va := c.pair g f.b.toNat
  let r := c.regionOf g
  if m.act = 0 then .next (c.advanceAll is 0)
  else if ¬ c.tileReady g then .next s.notIssued
  else
    let c := c.unbind b h
    if va = 0 then .next (c.finish is)
    else if va.toNat % 64 ≠ 0 then .next (c.parkLeader o cTile)
    else if (match c.xlate r.troot .load r.world va.toNat with
        | .ok pa => c.backParked pa
        | .error _ => false) then .next c.notIssued
    else match c.readTile b va.toNat with
      | .error (e, a) => .next (c.readFault o e (BitVec.ofNat 64 a))
      | .ok none => .next (c.parkLeader o cTile)
      | .ok (some t) =>
        .next (((c.modBlock b (fun B => { B with tiles := tput B.tiles h t })).tileTest b h).finish is)

/-! ### TQRY and BINRUN (R252) -/

/-- A tile instruction on the leader's bound handle: unbound is ILLEGAL TILE, and a release comes first. -/
def State.tileOp (s : State) (i : Instr) (a : BitVec 7) (k : State → Nat → Tile → State) : State :=
  let o := opnds i
  let c := s.begin_ i o
  let is := c.iss
  let m := is.leader
  let b := (c.group m.gid).id.block
  if m.act = 0 then c.advanceAll is 0
  else match tget (c.block b).tiles (handleOf a) with
    | none => c.parkLeader o cTile
    | some t => if ¬ c.tileReady m.gid then s.notIssued else k c b t

/-- TQRY. -/
def execTqry (f : TR) (s : State) : Res :=
  .next (s.tileOp (.tqry f) f.a (fun s _ t =>
    let v := match f.b.toNat with
      | 0 => t.nocc
      | 1 => t.nwoken
      | 2 => t.ovf
      | _ => t.rows - t.nocc
    (s.issueScalar s.iss.leader.gid f.d.toNat (BitVec.ofNat 32 v)).finish s.iss))

/-- BINRUN. -/
def execBinrun (f : TR) (s : State) : Res :=
  .next (s.tileOp (.binrun f) f.a (fun s b _ =>
    ((s.modTile b (handleOf f.a) (fun t => { t with binrun := true })).tileTest b (handleOf f.a)).finish s.iss))

/-! ### WAKE and TWAKEQ (R250) -/

/-- A row woken by index: the state, with WAKEEMPTY in a group where the row is not there. -/
def State.wakeRow (s : State) (g b h row : Nat) : State :=
  match tget (s.block b).tiles h with
  | none => s
  | some t =>
    if ¬ t.occ.contains row then s.warn g 3
    else (s.modTile b h (fun t => t.wake [row])).tileTest b h

/-- WAKE by a scalar. -/
def execWakeScalar (f : TR) (s : State) : Res :=
  .next (s.tileOp (.wakeScalar f) f.a (fun s b _ =>
    let g := s.iss.leader.gid
    (s.wakeRow g b (handleOf f.a) (s.scalar g f.b.toNat).toNat).finish s.iss))

/-- WAKE by a vector: each active lane in ascending order. -/
def execWakeVector (f : TR) (s : State) : Res :=
  let o := opnds (.wakeVector f)
  .next (s.tileOp (.wakeVector f) f.a (fun s b _ =>
    let is := s.iss
    let m := is.leader
    let rows := (lanesOf m.act).map (fun l => ((s.laneSrcs m.gid is.wb o l).getD 0 0).toNat)
    let s := s.releaseSrcs m.gid is.wb o m.act
    (foldS rows s (fun s r => s.wakeRow m.gid b (handleOf f.a) r)).finish is))

/-- The column values of the occupied rows and of the overflow rows: rows with their values, then overflow rows with
address and bytes; or the first fault. -/
def State.tileColumn (s : State) (b : Nat) (t : Tile) (col : Nat) :
    Except (Cause × Nat) (List (Nat × Word) × List (Nat × Word × Word)) :=
  match allOk (t.occ.map (fun r => match s.tileRead b t (t.rowAddr r + 4 * col) 4 with
      | .ok x => Except.ok (r, BitVec.ofNat 32 (leNat x))
      | .error e => .error e)),
    allOk ((List.range t.ovf).map (fun o => match s.ovfRow b t o with
      | .error e => Except.error e
      | .ok none => .ok (0, 0, 0)
      | .ok (some a) => match s.ovfRead b a t.ovfSize with
        | .error e => .error e
        | .ok x => .ok (a, BitVec.ofNat 32 (leAt x 0 4), BitVec.ofNat 32 (leAt x (4 + 4 * col) 4)))) with
  | .error e, _ => .error e
  | _, .error e => .error e
  | .ok x, .ok y => .ok (x, y.filter (fun z => decide (z.1 ≠ 0)))

/-- Writes in order, or the first fault of one: then none of them is made, so that a replay finds the rows as they were
(DESIGN CHOICE, log entry 44). -/
def State.writeAll {α : Type} (w : State → α → Except (Cause × Nat) State) : List α → State → Except (Cause × Nat) State
  | [], s => .ok s
  | x :: r, s => match w s x with
    | .error e => .error e
    | .ok s => State.writeAll w r s

/-- TWAKEQ. -/
def execTwakeq (f : TR) (e : Word) (s : State) : Res :=
  let h := handleOf f.a
  let col := fld e 0 5
  .next (s.tileOp (.twakeq f e) f.a (fun s b t =>
    let o := opnds (.twakeq f e)
    let v := s.scalar s.iss.leader.gid f.b.toNat
    if col ≥ t.names.length then s.parkLeader o cTile
    else match s.tileColumn b t col with
      | .error (c, a) => s.readFault o c (BitVec.ofNat 64 a)
      | .ok (rows, ovf) =>
        let hit := (rows.filter (fun r => isetHolds (fld e 5 3) r.2 v)).map Prod.fst
        let words := (ovf.filter (fun x => isetHolds (fld e 5 3) x.2.2 v)).map (fun x => (x.1, leBytes 4 (x.2.1 ||| 1#32).toNat))
        match s.writeAll (fun s x => s.ovfWrite b x.1 x.2) words with
        | .error (c, a) => s.readFault o c (BitVec.ofNat 64 a)
        | .ok s => ((s.modTile b h (fun t => t.wake hit)).tileTest b h).finish s.iss))

/-! ### TAPPLY (R251) -/

/-- The new value of a row under TAPPLY, with its exceptions. -/
def tapply (op : Nat) (ftz : Bool) (x y : Word) : Word × BitVec 6 :=
  match op with
  | 0 => (x + y, 0)
  | 1 => (x - y, 0)
  | 2 => (x &&& y, 0)
  | 3 => (x ||| y, 0)
  | 4 => (x ^^^ y, 0)
  | 5 => (aluMin false x y, 0)
  | 6 => (aluMax false x y, 0)
  | 7 => (y, 0)
  | 8 => fpAdd ftz x y
  | 9 => fpMul ftz x y
  | 10 => fpMinMax false ftz x y
  | _ => fpMinMax true ftz x y

/-- TAPPLY: every row is computed before any is written. -/
def execTapply (f : TR) (e : Word) (s : State) : Res :=
  let col := fld e 0 5
  .next (s.tileOp (.tapply f e) f.a (fun s b t =>
    let o := opnds (.tapply f e)
    let g := s.iss.leader.gid
    let y := s.scalar g f.b.toNat
    let new (x : Word) := tapply (fld e 5 4) (s.ftz g) x y
    if col ≥ t.names.length then s.parkLeader o cTile
    else match s.tileColumn b t col with
      | .error (c, a) => s.readFault o c (BitVec.ofNat 64 a)
      | .ok (rows, ovf) =>
        let fl := (rows.map (fun r => (new r.2).2) ++ ovf.map (fun r => (new r.2.2).2)).foldl (· ||| ·) 0
        let sub := trapSub (s.regionOf g).trapen fl
        if sub ≠ 0 then s.parkLeader o (kArith, sub)
        else
          match s.writeAll (fun s r => s.tileWrite b t (t.rowAddr r.1 + 4 * col) (leBytes 4 (new r.2).1.toNat)) rows with
          | .error (c, a) => s.readFault o c (BitVec.ofNat 64 a)
          | .ok s' =>
            match s'.writeAll (fun s r => s.ovfWrite b (r.1 + 4 + 4 * col) (leBytes 4 (new r.2.2).1.toNat)) ovf with
            | .error (c, a) => s.readFault o c (BitVec.ofNat 64 a)
            | .ok s' => (s'.orFlags g fl).finish s'.iss))

/-! ### SUSP (R249) -/

/-- The column values of a lane. -/
def State.columns (s : State) (g : Nat) (names : List Nat) (l : Nat) : List Byte :=
  names.flatMap (fun n => leBytes 4 ((s.readName g n l).val).toNat)

/-- Causes with their addresses, in ascending order of kind and subcode (R268). -/
def sortCauses (l : List (Cause × Nat)) : List (Cause × Nat) :=
  l.foldl (fun acc c =>
    let before (d : Cause × Nat) : Bool := decide (d.1.1 < c.1.1) || (decide (d.1.1 = c.1.1) && decide (d.1.2 ≤ c.1.2))
    acc.takeWhile before ++ c :: acc.dropWhile before) []

/-- What SUSP did with one thread. -/
inductive SuspEnd where
  | gone
  | goes
  | parks (c : Cause) (addr : Nat)
  deriving DecidableEq, Repr

/-- What one thread's SUSP does: the state, how the thread ends, and whether a column that it reads is not live. -/
structure SuspStep where
  state : State
  how : SuspEnd
  stale : Bool

/-- One active thread suspends: into the lowest free row, else into the overflow chain, else it parks with BINOVF or
goes on. Its columns are read only where it has a row; poison in them parks it, and nothing is allocated (R95, R169). -/
def State.suspOne (s : State) (g b h l : Nat) : SuspStep :=
  match tget (s.block b).tiles h with
  | none => ⟨s, .parks cTile 0, false⟩
  | some t =>
    let rd := t.names.map (fun n => s.readName g n l)
    let vals := s.columns g t.names l
    let stale := rd.any (fun r => !r.live)
    let bad := rd.any (fun r => r.live && r.poison)
    match (if t.nocc < t.rows then t.freeRow else none) with
    | some row =>
      if bad then ⟨s, .parks (kPoison, 1) 0, stale⟩
      else match s.tileWrite b t (t.rowAddr row) vals with
        | .error (c, a) => ⟨s, .parks c a, stale⟩
        | .ok s => ⟨s.modTile b h (fun t => t.occupy [row]), .gone, stale⟩
    | none =>
      if t.overflow = 0 then ⟨s, .goes, false⟩
      else match s.ovfRow b t t.ovf with
        | .error (c, a) => ⟨s, .parks c a, false⟩
        | .ok none => ⟨s, .parks (kBinovf, 0) 0, false⟩
        | .ok (some a) =>
          if bad then ⟨s, .parks (kPoison, 1) 0, stale⟩
          else match s.ovfWrite b a (leBytes 4 0 ++ vals) with
            | .error (c, x) => ⟨s, .parks c x, stale⟩
            | .ok s => ⟨s.modTile b h (fun t => { t with ovf := t.ovf + 1 }), .gone, stale⟩

/-- The active threads suspend in ascending home lane: the state, how each thread ends, and whether any has read a lane
that is not live (R249). -/
def State.suspAll (s : State) (g b h : Nat) (act : Mask) : State × List (Nat × SuspEnd) × Bool :=
  (lanesOf act).foldl (fun acc l =>
    let r := acc.1.suspOne g b h l
    (r.state, acc.2.1 ++ [(l, r.how)], acc.2.2 || r.stale)) (s, [], false)

/-- What follows from how the threads of a SUSP have ended: records, pD, and the lanes that leave. -/
def State.suspEnd (s : State) (f : TR) (o : Opnds) (is : Issue) (ends : List (Nat × SuspEnd)) : State :=
  let m := is.leader
  let g := m.gid
  let which (p : SuspEnd → Bool) : Mask := maskOf ((ends.filter (fun e => p e.2)).map Prod.fst)
  let gone := which (fun e => e = .gone)
  let goes := which (fun e => e = .goes)
  let causes := sortCauses ((ends.filterMap (fun e => match e.2 with
    | .parks c a => some (c, a)
    | _ => none)).foldl (fun acc c => if acc.any (fun (d : Cause × Nat) => d.1 = c.1) then acc else acc ++ [c]) [])
  let s := foldS causes s (fun s c =>
    let w := which (fun e => match e with
      | .parks d _ => decide (d = c.1)
      | _ => false)
    s.parkLanes g w c.1 (s.atIssue is g []) (BitVec.ofNat 64 c.2) (s.opval is o g (lowLane w))
      (fun _ => some (BitVec.ofNat 64 c.2, [])))
  let s := s.setPreds ⟨g, goes, goes⟩ (pf f.d) false
  let s := s.advance g ((m.lanes &&& ~~~m.act) ||| goes) is.next (s.nextReady is 0)
  (s.vacate g gone).exitCheck g

/-- STALLCHK of a SUSP: the columns that it reads are names with a result still to land (R7, R67). -/
def State.suspStall (s : State) (o : Opnds) (g : Nat) (names : List Nat) : State :=
  if s.sbchk g then s.parkOut o g (s.pendLanes g names [] [] &&& s.iss.leader.act) (kStallchk, 1) else s

/-- SUSP; it unwinds an open containment region with ILL (R282). -/
def execSusp (f : TR) (s : State) : Res :=
  let i : Instr := .susp f
  let o := opnds i
  let c := (s.begin_ i o).unwindWhere 3 State.inContain
  let is := c.iss
  let m := is.leader
  let g := m.gid
  let b := (c.group g).id.block
  let h := handleOf f.a
  if m.act = 0 then .next (c.advanceAll is 0)
  else match tget (c.block b).tiles h with
    | none => .next (c.parkLeader o cTile)
    | some t =>
      let busy := (c.group g).sb.any (fun e => e.2.names.any t.names.contains)
      if busy ∨ ¬ c.tileReady g then .next s.notIssued
      else
        let c := c.suspStall o g t.names
        let is := c.iss
        let m := is.leader
        let r := c.suspAll g b h m.act
        if r.2.2 ∧ c.stalechk g then .next (c.parkLeader o (kStaleread, 1))
        else .next ((if r.2.2 then r.1.warn g 0 else r.1).suspEnd f o is r.2.1)

end Sys2Proof.Machine
end

