-- ==== Sys2Proof/Machine/Pick.lean ====
section
/-! DEFINITION. Fetching (R61 to R63), the split that issues (R82 to R87), match-point hits (R301), the cycle's accounts
(R45, R336) and the clock (R1, R3). -/
namespace Sys2Proof.Machine

/-! ### Fetching -/

/-- The leaf of a bundle's address: from the core's TLB, or by a walk (R151). -/
def State.fetchLeaf (s : State) (g : Nat) (va : Nat) : Except Cause TlbEntry :=
  let r := s.regionOf g
  if va ≥ 2 ^ 56 then .error (kProt, 1)
  else
    match s.tlbGet (s.coreOf g) r.asid va with
    | some e => .ok e
    | none =>
      match s.walkLeaf r.troot va with
      | .error c => .error (fixPage .fetch c)
      | .ok e => .ok { e with asid := r.asid }

/-- The bytes of the bundle at a PC (R63), read as a load of the group's core reads them. -/
def State.fetchBytes (s : State) (g : Nat) (pc : Wide) : Except Cause (List Byte) :=
  let va := pc.toNat / 16 * 16
  match s.fetchLeaf g va with
  | .error c => .error c
  | .ok e =>
    match s.permit e .fetch (s.regionOf g).world va with
    | .error c => .error c
    | .ok pa =>
      match s.pathBytes (pathOf (s.coreOf g)) pa 16 with
      | none => .error (kPoison, 1)
      | some b => .ok b

/-- The instruction at a PC, or the fault that its threads raise there, with ADDR of the record: the bundle's address
for a fetch fault (R63), 0 for ILLEGAL (DEDUCED, log entry 18). A PC that is no slot is refused without a fetch (DESIGN
CHOICE, log entry 53). -/
def State.fetch (s : State) (g : Nat) (pc : Wide) : Except (Cause × Wide) (Instr × Slot) :=
  match slotOfPc pc.toNat with
  | none => .error ((kIllegal, 5), 0)
  | some k =>
    match s.fetchBytes g pc with
    | .error c => .error (c, BitVec.ofNat 64 (pc.toNat / 16 * 16))
    | .ok b =>
      match decodeBundle b k with
      | .error e => .error ((kIllegal, e.code), 0)
      | .ok x => .ok x

/-- Whether the fetch of a bundle waits: for a walker, or for a refresh window of the weight store (R151, R155). -/
def State.fetchHeld (s : State) (g : Nat) (pc : Wide) : Bool :=
  let va := pc.toNat / 16 * 16
  s.coreWaits (s.coreOf g) (s.regionOf g).asid (s.regionOf g).troot va || (match s.fetchLeaf g va with
  | .error _ => false
  | .ok e => match s.permit e .fetch (s.regionOf g).world va with
    | .ok pa => s.runHeld pa 16
    | .error _ => false)

/-- The words of the instruction at a PC as OPVAL +24 holds them (R269): 0 where no bundle could be fetched. -/
def State.pcWords (s : State) (g : Nat) (pc : Wide) : Wide :=
  match slotOfPc pc.toNat, s.fetchBytes g pc with
  | some k, .ok b => match slotAt b k with
    | .ok sl => wideOf (sl.ext.getD 0) sl.word
    | .error _ => BitVec.ofNat 64 (leAt b (4 * k + 4) 4)
  | _, _ => 0

/-- The leaf of a fetch is cached (R151). -/
def State.cacheFetch (s : State) (g : Nat) (pc : Wide) : State :=
  let va := pc.toNat / 16 * 16
  let core := s.coreOf g
  if (s.tlbGet core (s.regionOf g).asid va).isSome then s
  else
    match s.fetchLeaf g va with
    | .ok e => s.tlbPut core e
    | .error _ => s

/-! ### What holds an instruction back (R68, R181, R199) -/

/-- Operands as the scoreboard sees them: those of a set operation are its fields. -/
def scoreOpnds (i : Instr) (first : Bool) : Opnds :=
  match setOpOf i with
  | some o => o.opnds first
  | none => opnds i

/-- The slot that an instruction marks: SBSET, or slot 7 for a variable-latency one without SBSET (R78). -/
def slotUsed (i : Instr) (sbset : Nat) : Nat := if sbset = 0 ∧ latency i = .variable then 7 else sbset

/-- Whether a slot is marked by the operation that a set operation would sign, and so may be shared (R199). -/
def State.sharesSlot (s : State) (g : Nat) (i : Instr) (e : SbSlot) : Bool :=
  match setOpOf i with
  | some o => e.set.isSome && decide (e.set = (s.kreg (s.group g).id.block o.k).signing)
  | none => false

/-- The names of a set operation that a slot does not hold back: the accumulators that an earlier operation of the same
convergence register is still to write, which this one reads only after it has (R218). DEDUCED, log entry 45. -/
def State.chainedNames (s : State) (g : Nat) (wb : BitVec 9) (i : Instr) (e : SbSlot) : List Nat :=
  match setOpOf i, e.set.bind (fun id => tget s.mats id) with
  | some o, some op =>
    if op.block = (s.group g).id.block ∧ op.k = o.k then o.chained.map (s.fieldName g wb) else []
  | _, _ => []

/-- Whether a pending slot holds an instruction of a group's window: it is the slot that the instruction would mark, or
a destination recorded against it is read or written, but for the names to spare. -/
def State.slotHolds (s : State) (g : Nat) (wb : BitVec 9) (o : Opnds) (guard : BitVec 4) (e : Nat × SbSlot) (k : Nat)
    (spare : List Nat) : Bool :=
  let names := (s.readNames g wb o ++ s.writeNames g wb o).filter (fun n => !spare.contains n)
  let preds := o.ps ++ o.pd ++ (if fld guard 0 3 = 7 then [] else [fld guard 0 3])
  decide (e.1 = k) || names.any (fun n => e.2.names.contains n) ||
    (o.scalReads ++ o.sd).any (fun n => e.2.scalars.contains n) || preds.any (fun p => e.2.preds.contains p)

/-- The names of a tile's columns that a SUSP reads, and waits for (R249). -/
def State.columnNames (s : State) (g : Nat) (i : Instr) : List Nat :=
  match i with
  | .susp f => ((tget (s.blockOf g).tiles (handleOf f.a)).map Tile.names).getD []
  | _ => []

/-- The pending slots that hold an instruction of a group's threads, each with whether it does for a destination that it
records, and not only as the slot that the instruction would mark. -/
def State.holdingSlots (s : State) (g : Nat) (wb : BitVec 9) (i : Instr) (sl : Slot) : List (SbSlot × Bool) :=
  let first := match setOpOf i with
    | some o => decide ((s.kreg (s.group g).id.block o.k).base = (s.group g).id.index)
    | none => false
  let o := scoreOpnds i first
  let k := slotUsed i (fld sl.ctl 4 3)
  (s.group g).sb.filterMap (fun e =>
    let holds (k : Nat) : Bool := s.slotHolds g wb o (sl.ctl.extractLsb' 0 4) e k (s.chainedNames g wb i e.2) ||
      (s.columnNames g i).any e.2.names.contains
    if !s.sharesSlot g i e.2 && holds k then some (e.2, holds 8) else none)

/-- Lanes with an acquire still pending, which hold the threads' later memory instructions (R181). -/
def State.acquireLanes (s : State) (g : Nat) : Mask :=
  s.flight.ops.foldl (fun m e => if e.2.gid = g ∧ e.2.acquires then m ||| e.2.mask else m) 0

/-- The lanes of them whose acquire is a memory instruction (R86, R336), not a read of a system register. -/
def State.acquireMem (s : State) (g : Nat) : Mask :=
  s.flight.ops.foldl (fun m e => if e.2.gid = g ∧ e.2.acquires ∧ e.2.opcode ≠ 0x12 then m ||| e.2.mask else m) 0

/-- The active threads of a mask: those whose guard is true (R69). -/
def State.guardMask (s : State) (g : Nat) (m : Mask) (guard : BitVec 4) : Mask :=
  maskOf ((lanesOf m).filter (fun l =>
    (((s.group g).thread l).pred (fld guard 0 3)) != guard.getLsbD 3))

/-- The match point of a core that an instruction of a group at a PC hits (R300, R301). -/
def State.pointAt (s : State) (g : Nat) (pc : Wide) : Option Nat :=
  if s.inHandler g then none
  else
    ((s.core (s.coreOf g)).points.find? (fun e =>
      decide (e.2.pc = pc) && (e.2.all || decide (e.2.holder = (s.regionOf g).rcb)))).map Prod.fst

/-- The active threads of a split that a match point stops: those that have not come back from its handler. -/
def State.matching (s : State) (g : Nat) (act : Mask) : Mask :=
  maskOf ((lanesOf act).filter (fun l => !((s.group g).thread l).noMatch))

/-- Whether an instruction that is a release waits for its group's earlier stores before it issues: those of the tile unit (R231,
R247), of which only TDEF runs on an unbound handle, and those that serve a record (R231). -/
def State.releaseHeld (s : State) (g : Nat) (i : Instr) : Bool :=
  let bound (f : BitVec 7) : Bool := (tget (s.blockOf g).tiles (handleOf f)).isSome
  match i with
  | .tdef _ => !s.tileReady g
  | .susp f | .tqry f | .binrun f | .wakeScalar f | .wakeVector f | .twakeq f _ | .tapply f _ => bound f.a && !s.tileReady g
  | .pkres _ | .pkrty _ | .pkdir _ _ | .pkkil _ => !s.earlierStoresOut g s.env.nextId 5
  | _ => false

/-- The threads of a mask whose instruction a unit holds back: a set operation that they cannot sign yet (R199), an LDSP
without an entry (R182), a read of GWARN or GFLAGS before its group has written back (R294), a release before the stores that it
waits for, one that a match point stops and a handler's PMRET while results are still to land (R301, log entry 51). -/
def State.unitHeld (s : State) (g : Nat) (pc : Wide) (m : Mask) (i : Instr) (sl : Slot) : Mask :=
  let act := s.guardMask g m (sl.ctl.extractLsb' 0 4)
  if s.shadowBusy g ∧ ((s.pointAt g pc).isSome ∧ s.matching g act ≠ 0 ∨ i = .pmret ∧ s.inHandler g) then m
  else match i with
  | .srdGrp _ e => if e.toNat ≤ 1 ∧ act ≠ 0 ∧ ¬ s.writtenBack g then m else 0
  | .ldsp f _ => if s.ldspFull f g act then m else 0
  | _ => match setOpOf i with
    | some o => s.signHeld g o act
    | none => if act ≠ 0 ∧ s.releaseHeld g i then m else 0

/-- Whether a split's request on its core's waiting list still holds it back: it has not been granted (R98), or no release
of the group's own registers has come (R96). -/
def State.poolHeld (s : State) (g : Nat) (pc : Wide) (wb : BitVec 9) : Bool :=
  let stands (core : Nat) (q : PoolReq) : Bool := !q.granted &&
    (!q.own || (decide (s.regsHeld q.gid + q.count > (s.group q.gid).regs.allot) && s.awaiting core q.gid))
  (s.core (s.coreOf g)).pwait.any (fun q => !q.isOther g (.split pc wb) && stands (s.coreOf g) q) ||
    s.cores.any (fun c => c.2.pwait.any (fun q => decide (q.asker = .patch (some (g, pc, wb))) && stands c.1 q))

/-- The threads at a PC and window whose instruction is not held. A fault of the fetch or of decoding holds nothing. -/
def State.freeOf (s : State) (g : Nat) (pc : Wide) (wb : BitVec 9) (m : Mask) : Mask :=
  match s.fetch g pc with
  | .error _ => m
  | .ok (i, sl) =>
    if s.fetchHeld g pc ∨ ¬ (s.holdingSlots g wb i sl).isEmpty ∨ s.poolHeld g pc wb then 0
    else
      let m := m &&& ~~~(s.unitHeld g pc m i sl)
      if afterAcquire i then m &&& ~~~(s.acquireLanes g) else m

/-! ### Candidates (R82) -/

/-- A table of masks by PC and window, lowest PC first and then lowest window. -/
def addSplit (l : List (Wide × BitVec 9 × Mask)) (pc : Wide) (wb : BitVec 9) (b : Mask) : List (Wide × BitVec 9 × Mask) :=
  match l with
  | [] => [(pc, wb, b)]
  | (p, w, m) :: r =>
    if p = pc ∧ w = wb then (p, w, m ||| b) :: r
    else if pc.toNat < p.toNat ∨ pc = p ∧ wb.toNat < w.toNat then (pc, wb, b) :: (p, w, m) :: r
    else (p, w, m) :: addSplit r pc wb b

/-- The threads of a group that a test admits, by PC and window. While the group runs a match-point handler, only the
handler's threads issue. -/
def Group.splitsOf (G : Group) (p : Thread → Bool) : List (Wide × BitVec 9 × Mask) :=
  let lanes := match G.handler with
    | some h => h.lanes
    | none => allLanes
  G.threads.zipIdx.foldl (fun l e =>
    if lanes.getLsbD e.2 && p e.1 then addSplit l e.1.pc e.1.wb (laneBit e.2) else l) []

/-- Whether a record of a group's spill area waits to be served (R102): the group stays frozen. -/
def State.spillStuck (s : State) (g : Nat) : Bool :=
  s.faults.recs.any (fun e => e.2.stands && decide (e.2.origin = .spill g))

/-- Whether a group may issue at all: it is in the active set, its block runs, its partition is neither frozen nor halted, and its
registers are in the pool (R56, R86, R99, R100, R299); a group that has entered the active set can issue from the second cycle
on. -/
def State.groupOpen (s : State) (g : Nat) : Bool :=
  let G := s.group g
  (decide (G.run.place = .active) || decide (G.run.place = .keep)) && !G.run.spilled && !s.spillStuck g && decide (G.run.openAt ≤ s.clk.ac) &&
    (s.part G.id.part).frozen.isNone && decide ((s.block G.id.block).run = BlockRun.running) && !s.partHalted G.id.part

/-- The splits of a group whose threads' stall counts have expired and whose instructions are not held (R82), whatever
stands in the way of the group as a whole. -/
def State.splits (s : State) (g : Nat) : List (Wide × BitVec 9 × Mask) :=
  ((s.group g).splitsOf (fun t => decide (t.st = .live) && decide (t.ready ≤ s.clk.ac))).filterMap (fun e =>
    let m := s.freeOf g e.1 e.2.1 e.2.2
    if m = 0 then none else some (e.1, e.2.1, m))

/-- The candidate splits of a group that may issue, lowest first. -/
def State.candidates (s : State) (g : Nat) : List (Wide × BitVec 9 × Mask) :=
  if s.groupOpen g then s.splits g else []

/-! ### The scheduler (R83 to R87) -/

/-- The order of ages: earlier start, then lower arrival sequence, then lower index (R87), and last the order in which the
groups were made. DESIGN CHOICE, log entry 53. -/
def State.older (s : State) (a b : Nat × Group) : Bool :=
  let key (e : Nat × Group) : Nat × Nat × Nat := (e.2.id.start, (s.launch e.2.id.launch).seq, e.2.id.index)
  let x := key a
  let y := key b
  decide (x.1 < y.1) || (decide (x.1 = y.1) && (decide (x.2.1 < y.2.1) ||
    (decide (x.2.1 = y.2.1) && (decide (x.2.2 < y.2.2) || (decide (x.2.2 = y.2.2) && decide (a.1 < b.1))))))

/-- The first of a list of groups in an order. -/
def firstBy {α : Type} (lt : α → α → Bool) : List α → Option α
  | [] => none
  | a :: r => match firstBy lt r with
    | none => some a
    | some b => if lt b a then some b else some a

/-- A list in an order. -/
def insertBy {α : Type} (lt : α → α → Bool) (a : α) : List α → List α
  | [] => [a]
  | b :: r => if lt a b then a :: b :: r else b :: insertBy lt a r

/-- A list sorted by an order; equal elements keep their places. -/
def sortBy {α : Type} (lt : α → α → Bool) (l : List α) : List α := l.foldr (insertBy lt) []

/-- The active groups of a partition, the Keep's among them, oldest first (R86, R87). -/
def State.activeOf (s : State) (p : Nat) : List (Nat × Group) :=
  sortBy s.older (s.groups.filter (fun e => decide (e.2.id.part = p) &&
    (decide (e.2.run.place = .active) || decide (e.2.run.place = .keep))))

/-- The leader and its split: one owed by the guard, the last leader's, or the oldest group's (R85, R87). -/
def State.leaderOf (s : State) (p : Nat) : Option (Nat × Wide × BitVec 9 × Mask) :=
  let P := s.part p
  let owed : Option (Nat × Wide × BitVec 9 × Mask) := P.owed.bind (fun o =>
    ((s.candidates o.1).find? (fun c => decide (c.1 = o.2.1) && decide (c.2.1 = o.2.2))).map (fun c => (o.1, c)))
  let last : Option (Nat × Wide × BitVec 9 × Mask) := P.last.bind (fun g =>
    ((s.candidates g).head?).map (fun c => (g, c)))
  match owed with
  | some x => some x
  | none =>
    match last with
    | some x => some x
    | none => (s.activeOf p).findSome? (fun e => ((s.candidates e.1).head?).map (fun c => (e.1, c)))

/-- The foreign members that join a split (R83). None joins a match-point handler's threads, and none that a match point is
still to stop passes it so (R301).
DESIGN CHOICE, log entry 17. -/
def State.joiners (s : State) (p g : Nat) (pc : Wide) (wb : BitVec 9) (m : Mask) (sbset : Nat) : List (Nat × Mask) :=
  let blk := (s.group g).id.block
  ((s.activeOf p).foldl (fun (acc : Mask × List (Nat × Mask)) e =>
    if e.1 = g ∨ e.2.id.block ≠ blk then acc
    else
      match (s.candidates e.1).head? with
      | some (pc', wb', m') =>
        let join := m' &&& ~~~acc.1
        if pc' = pc ∧ wb' = wb ∧ join ≠ 0 ∧ (tget e.2.sb sbset).isNone ∧ ¬ s.inHandler g ∧ ¬ s.inHandler e.1 ∧
            ((s.pointAt e.1 pc).isNone ∨ s.matching e.1 join = 0) then (acc.1 ||| join, acc.2 ++ [(e.1, join)])
        else acc
      | none => acc) (m, [])).2

/-- What a partition does next: issue an instruction, raise a fetch or decode fault, or enter a match-point handler. -/
inductive Pick where
  | issue (i : Instr) (is : Issue)
  | fault (g : Nat) (m : Mask) (pc : Wide) (c : Cause) (addr : Wide)
  | hit (g : Nat)
  deriving DecidableEq, Repr

/-- The issue of a split with its members. -/
def State.makeIssue (s : State) (p g : Nat) (pc : Wide) (wb : BitVec 9) (m : Mask) (i : Instr) (sl : Slot) : Issue :=
  let guard := sl.ctl.extractLsb' 0 4
  let mem (e : Nat × Mask) : Member := ⟨e.1, e.2, s.guardMask e.1 e.2 guard⟩
  let sbset := fld sl.ctl 4 3
  let others := if s.env.joins ∧ admitsForeign i then s.joiners p g pc wb m sbset else []
  { part := p, members := ((g, m) :: others).map mem, pc := pc, next := nextPc pc sl.slots, wb := wb
    stall := fld sl.ctl 7 3, sbset := sbset, guardField := guard, secondCtl := sl.secondCtl
    word := sl.word, ext := sl.ext.getD 0, seq := s.env.seq
    before :=
      { last := (s.part p).last, owed := (s.part p).owed
        groups := ((g, m) :: others).map (fun e =>
          let G := s.group e.1
          (e.1, G.run.served, G.regs.issued, (G.handler.map MatchCtx.issues).getD 0)) } }

/-- Whether a higher partition of a partition's cluster has issued in this cycle: operations of one cycle reach a block's units
in partition order (R105, R240, R247). -/
def State.passed (s : State) (p : Nat) : Bool :=
  s.parts.any (fun e => decide (p < e.1) && decide (e.1 / 16 = p / 16) && !e.2.issuers.isEmpty)

/-- What a partition does next in this cycle, if its issue slot is free (R312), its fetch has come and its turn has not
passed. -/
def State.pickPart (s : State) (p : Nat) : Option Pick :=
  if s.clk.ac < (s.part p).hold ∨ s.clk.ac < (s.part p).fetchAt ∨ s.passed p then none
  else
    match s.leaderOf p with
    | none => none
    | some (g, pc, wb, m) =>
      match s.fetch g pc with
      | .error (c, a) => some (.fault g m pc c a)
      | .ok (i, sl) =>
        let is := s.makeIssue p g pc wb m i sl
        match s.pointAt g pc with
        | some _ => if s.matching g is.leader.act ≠ 0 then some (.hit g) else some (.issue i is)
        | none => some (.issue i is)

/-- The first partition with something to do in this cycle, and what it does. -/
def State.pick (s : State) : Option (Nat × Pick) :=
  s.parts.findSome? (fun e => (s.pickPart e.1).map (fun k => (e.1, k)))

/-- The first of a partition and those below it in its cluster with something to do in this cycle. -/
def State.pickUpTo (s : State) (p : Nat) : Option (Nat × Pick) :=
  (s.parts.filter (fun e => decide (e.1 ≤ p) && decide (e.1 / 16 = p / 16))).findSome? (fun e =>
    (s.pickPart e.1).map (fun k => (e.1, k)))

/-- The split that a partition owes an issue, if it is not the one at a PC and window of some groups. -/
def Part.owedBut (P : Part) (gs : List Nat) (pc : Wide) (wb : BitVec 9) : Option (Nat × Wide × BitVec 9) :=
  P.owed.filter (fun o => !(gs.contains o.1 && decide (o.2.1 = pc) && decide (o.2.2 = wb)))

/-- The accounts of an issue: the leader, the owed split once it has its turn (R85), the slot used, ISSUED of every member
(R336), a handler's issues (R301). -/
def State.account (s : State) (is : Issue) : State :=
  let s := s.modPart is.part (fun P => { P with
    last := some is.leader.gid
    owed := P.owedBut (is.members.map Member.gid) is.pc is.wb
    hold := max P.hold (s.clk.ac + 1)
    issuers := is.members.map Member.gid })
  foldS is.members s (fun s m => s.modGroup m.gid (fun G => { G with
    run := { G.run with served := false }
    regs := { G.regs with issued := satAdd32 G.regs.issued 1 }
    handler := G.handler.map (fun h => { h with issues := h.issues + 1 }) }))

/-- The state in which an instruction issues; its free values are its own (log entry 6). -/
def State.issuing (s : State) (is : Issue) : State :=
  { ((s.cacheFetch is.leader.gid is.pc).account is).freshFree.2.freshSeq.2 with issue := some is }

/-- Threads whose instruction cannot be fetched or decoded park at its PC with one record (R63, R77).
DEDUCED, log entry 18. -/
def State.parkFetch (s : State) (g : Nat) (m : Mask) (pc : Wide) (c : Cause) (addr : Wide) : State :=
  let t := (s.group g).thread (lowLane m)
  (s.modPart (s.group g).id.part (fun P => { P with owed := P.owedBut [g] pc t.wb })).parkLanes g m c ⟨pc, pc, t.wb, (s.group g).regs.phase, s.env.seq, [], false⟩ addr [0, 0, 0, s.pcWords g pc] (fun _ => none)

/-- The first candidate split of a group that a match point stops: its PC, window and threads, the slot and the point. -/
def State.hitSplit (s : State) (g : Nat) : Option (Wide × BitVec 9 × Mask × Nat) :=
  (s.candidates g).findSome? (fun c =>
    match s.fetch g c.1, s.pointAt g c.1 with
    | .ok (_, sl), some n =>
      let act := s.matching g (s.guardMask g c.2.2 (sl.ctl.extractLsb' 0 4))
      if act = 0 then none else some (c.1, c.2.1, act, n)
    | _, _ => none)

/-- MATCH_POINT_HIT: the active threads of a split of the group run the handler (R301). -/
def execMatchPointHit (group : Nat) (s : State) : Res :=
  match s.hitSplit group with
  | none => .next s
  | some (pc, wb, act, n) =>
    match tget (s.core (s.coreOf group)).points n with
    | none => .next s
    | some p =>
      .next (s.modGroup group (fun G => { (G.modThreads act (fun _ t =>
          { t with pc := p.handler, stack := [], preds := 0, since := none })) with
        handler := some ⟨n, act, pc, wb, G.threads.map (fun t => (t.pc, t.wb, t.stack, t.preds)), 0, s.env.seq⟩ }))

/-! ### The starvation guard and fixed-latency results -/

/-- The split of a partition that has been able to issue for 64 ac: the longest wait, then the older group, then the
lower PC (R85). -/
def State.starved (s : State) (p : Nat) : Option (Nat × Wide × BitVec 9) :=
  let due := (s.activeOf p).flatMap (fun e => (s.candidates e.1).filterMap (fun c =>
    let since := (lanesOf c.2.2).foldl (fun (a : Nat) l => min a (((e.2.thread l).since).getD s.clk.ac)) s.clk.ac
    if since + 64 ≤ s.clk.ac then some (since, e.1, c.1, c.2.1) else none))
  (firstBy (fun a b => decide (a.1 < b.1)) due).map (fun x => x.2)

/-- Whether the split that a partition owes its next issue is a candidate now. -/
def State.owedNow (s : State) (part : Nat) : Bool :=
  (s.part part).owed.any (fun o => (s.candidates o.1).any (fun c => decide (c.1 = o.2.1) && decide (c.2.1 = o.2.2)))

/-- STARVATION_GUARD: the split is owed the partition's next issue (R85). -/
def execStarvationGuard (part : Nat) (s : State) : Res :=
  match s.owedNow part, s.starved part with
  | false, some o => .next (s.modPart part (fun P => { P with owed := some o }))
  | _, _ => .next s

/-- FIXED_WRITEBACK: a result lands at its cycle (R66, R91). -/
def execFixedWriteback (pend : Nat) (s : State) : Res :=
  match tget s.flight.pends pend with
  | none => .next s
  | some p => .next (if p.landAt ≤ s.clk.ac then s.landPend pend else s)

/-! ### Stall accounts (R336) -/

/-- The thread T of R336: the live or waiting thread of lowest PC, then of lowest window. -/
def Group.frontThread (G : Group) : Option (Nat × Thread) :=
  firstBy (fun a b => decide (a.2.pc.toNat < b.2.pc.toNat) || (decide (a.2.pc = b.2.pc) && decide (a.2.wb.toNat < b.2.wb.toNat)))
    ((G.threads.zipIdx.filter (fun e => decide (e.1.st = .live) || decide (e.1.st = .waiting))).map (fun e => (e.2, e.1)))

/-- The counter of an operation of a convergence register: signs, the pool, the engine (R198, R200). -/
def State.matCounter (s : State) (id : Nat) : Nat :=
  match tget s.mats id with
  | some op => match op.phase with
    | .signing => 5
    | .allocating => 7
    | _ => 6
  | none => 6

/-- The counter of a pending slot. -/
def State.slotCounter (s : State) (e : SbSlot) : Nat :=
  if e.set.isSome then 6
  else if e.ldws ∧ (s.flight.ops.any (fun o => decide (o.1 = e.op) &&
      o.2.lanes.any (fun l => !l.over && (match l.pa with
        | some pa => s.refreshHeld pa
        | none => false)))) then 11
  else if e.mem then 2
  else 0

/-- The counter of an instruction that slots hold: the first of R336's order that one of them gives. A wait for the slot that
the instruction itself would mark counts SCOREBOARD (R68). -/
def State.heldCounter (s : State) (l : List (SbSlot × Bool)) : Nat :=
  let cs := (l.filter Prod.snd).map (fun e => s.slotCounter e.1)
  if cs.contains 11 then 11 else if cs.contains 2 then 2 else if cs.contains 6 then 6 else 0

/-- The counter of an instruction that a pending acquire of its thread holds: that of the slot which the acquire has set (R336). -/
def State.acquireCounter (s : State) (g l : Nat) : Nat :=
  if (s.acquireMem g).getLsbD l then 2 else 0

/-- The oldest incomplete operation of a convergence register that holds a sign of a group. -/
def State.oldestSigned (s : State) (g k : Nat) : Option (Nat × MatOp) :=
  firstBy (fun a b => decide (a.2.ordinal < b.2.ordinal)) (s.mats.filter (fun e =>
    decide (e.2.block = (s.group g).id.block) && decide (e.2.k = k) &&
      e.2.members.any (fun m => decide (m.gid = g) && decide (m.signed ≠ 0))))

/-- The counter of a waiting thread. WAITSB counts MEMSLOT while a slot that it awaits was set by a memory instruction, and
SCOREBOARD else (R186). -/
def State.waitCounter (s : State) (w : Wait) : Nat :=
  match w.kind with
  | .bwait _ _ => 3
  | .mbw _ _ _ => 4
  | .mbr _ _ _ _ => 4
  | .claim _ => 13
  | .role _ _ _ _ => 13
  | .kdef _ _ => 5
  | .mwait k => ((s.oldestSigned w.gid k).map (fun e => s.matCounter e.1)).getD 6
  | .fence _ _ _ => 2
  | .waitsb slots =>
    if (s.group w.gid).sb.any (fun e => slots.getLsbD e.1 && decide (e.1 ≠ w.slot) && e.2.mem) then 2 else 0
  | .cpwait _ _ => 2
  | .sredw _ _ => 0
  | _ => 15

/-- Whether a set operation that a thread would sign waits for its register (R199). -/
def State.signWaits (s : State) (g l : Nat) (i : Instr) : Bool :=
  match setOpOf i with
  | none => false
  | some o =>
    let b := (s.group g).id.block
    match (s.kreg b o.k).signing.bind (fun id => tget s.mats id) with
    | some op => ((op.memberOf g).map (fun M => M.2.signed.getLsbD l)).getD false
    | none => decide (s.queuedOn b o.k ≥ 4)

/-- Whether a split of a group waits on the pool. -/
def State.poolStalled (s : State) (g : Nat) : Bool :=
  ((s.group g).splitsOf (fun t => decide (t.st = .live))).any (fun c => s.poolHeld g c.1 c.2.1)

/-- The counter of a group that did not issue in a cycle, the first that applies of R336. -/
def State.stallCounter (s : State) (g : Nat) : Nat :=
  let G := s.group g
  if G.run.place = .stowed ∨ (s.block G.id.block).run ≠ BlockRun.running ∨ s.partHalted G.id.part ∨
      (s.part G.id.part).frozen.isSome then 12
  else if G.occupied ≠ 0 ∧ G.occupied = G.lanesIn .parked then 14
  else if G.run.spilled ∨ s.spillStuck g ∨ s.poolStalled g then 7
  else if G.run.place = .pending then 8
  else if ¬ (s.candidates g).isEmpty ∧ ¬ (s.part G.id.part).issuers.isEmpty then 9
  else if ¬ (s.candidates g).isEmpty ∧ s.clk.ac < (s.part G.id.part).fetchAt then 10
  else
    match G.frontThread with
    | none => 15
    | some (l, t) =>
      if t.st = .waiting then
        match s.flight.waits.find? (fun e => decide (e.2.gid = g) && e.2.lanes.getLsbD l) with
        | some w => s.waitCounter w.2
        | none => 15
      else
        match s.fetch g t.pc with
        | .error _ => 10
        | .ok (i, sl) =>
          if s.signWaits g l i then 5
          else if s.fetchHeld g t.pc then 10
          else
            match s.holdingSlots g t.wb i sl with
            | e :: rest => s.heldCounter (e :: rest)
            | [] =>
              if afterAcquire i ∧ (s.acquireLanes g).getLsbD l then s.acquireCounter g l
              else if (match i with
                | .ldsp f _ => s.ldspFull f g (laneBit l)
                | _ => false) then 0
              else if t.ready > s.clk.ac then 1 else 15

/-! ### Charging (R45, R46) -/

/-- A charge of partition-ac and of ns to a server and its ancestors: ordinary work, or a fault task's reserve. -/
def State.chargeServers (s : State) (servers : List Nat) (fault : Bool) (ac ns : Nat) : State :=
  foldS servers s (fun s v => { s with belfry := { s.belfry with servers := tmod s.belfry.servers v (fun x =>
    if fault then { x with faultAc := x.faultAc + ac, faultNs := x.faultNs + ns }
    else { x with ordAc := x.ordAc + ac, ordNs := x.ordNs + ns }) } })

/-- The servers that a launch is charged to; a fault task's are those of the faulting region (R48). -/
def Launch.servers (l : Launch) : List Nat :=
  match l.fault with
  | some f => f.origin.servers
  | none => l.region.servers

/-- A charge of partition-ac to a launch and its servers. -/
def State.chargeLaunch (s : State) (l ac : Nat) : State :=
  let L := s.launch l
  (s.modLaunch l (fun x => { x with charge := x.charge + ac })).chargeServers L.servers L.fault.isSome ac 0

/-- The group whose item a partition's cycle is charged to: the issuer, the last leader while its checked issue holds the
slot (R312), or else the oldest of the active set, and of the resident groups where none is active; while a PSTOP holds the
partition, the group that asked for it (R45, R299).
DEDUCED, log entry 22. -/
def State.chargedGroup (s : State) (p : Nat) : Option Nat :=
  let P := s.part p
  let oldest (q : Place → Bool) : Option Nat :=
    (firstBy s.older (s.groups.filter (fun e => decide (e.2.id.part = p) && q e.2.run.place))).map Prod.fst
  let held : Option Nat := if s.clk.ac < P.hold then
      P.last.filter (fun g => decide ((s.group g).run.place ≠ .stowed) && decide ((s.group g).run.place ≠ .gone))
    else none
  match P.frozen, P.issuers, held with
  | some d, _, _ => some d.gid
  | none, g :: _, _ => some g
  | none, [], some g => some g
  | none, [], none =>
    match oldest (fun x => x = .active || x = .keep) with
    | some g => some g
    | none => oldest (fun x => x = .pending)

/-! ### The end of a cycle -/

/-- The times of R85 and R86: since when a split has been able to issue, in the active set or not, and since when a pending
group has been ready, its registers aside where they are spilled (R100). -/
def State.markReady (s : State) (g : Nat) : State :=
  let G := s.group g
  let ok := decide ((s.block G.id.block).run = BlockRun.running) && decide (G.run.place ≠ .stowed) &&
    !s.spillStuck g && (s.part G.id.part).frozen.isNone
  let able : Mask := if ok then (s.splits g).foldl (fun m c => m ||| c.2.2) 0 else 0
  let can : Mask := if G.run.spilled then 0 else able
  s.modGroup g (fun G => { (G.modThreads allLanes (fun l t =>
    { t with since := if can.getLsbD l then some (t.since.getD s.clk.ac) else none })) with
      run := { G.run with
        readySince := if G.run.place = .pending ∧ able ≠ 0 then some (G.run.readySince.getD s.clk.ac) else none } })

/-- The clock moves on by one arithmetic cycle: 5/18 ns, steered by `ppm` (R1, R3, R324). -/
def Clock.next (c : Clock) : Clock :=
  let f := c.frac + (5000000 + 5 * c.ppm).toNat
  { c with ac := c.ac + 1, ns := c.ns + f / 18000000, frac := f % 18000000 }

/-- What a partition owes an issue to, while that split is able to issue (R85). -/
def State.stillOwed (s : State) (P : Part) : Option (Nat × Wide × BitVec 9) :=
  P.owed.filter (fun o => (s.splits o.1).any (fun c => decide (c.1 = o.2.1) && decide (c.2.1 = o.2.2)))

/-- The cycle ends: charges, stall counters, ready times, and the clock.
DEDUCED, log entry 21. -/
def State.tick (s : State) : State :=
  let s := foldS (s.parts.map Prod.fst) s (fun s p => match s.chargedGroup p with
    | some g => s.chargeLaunch (s.group g).id.launch 1
    | none => s)
  let live := s.groups.filter (fun e => decide (e.2.run.place ≠ .gone))
  let idle := live.filter (fun e => !(s.part e.2.id.part).issuers.contains e.1)
  let marked := foldS live s (fun s e => s.markReady e.1)
  let s := foldS (idle.map (fun e => (e.1, s.stallCounter e.1))) marked (fun s e => s.modRegs e.1 (fun r =>
    { r with stalls := (List.range 16).map (fun i =>
      if i = e.2 then satAdd32 (r.stalls.getD i 0) 1 else r.stalls.getD i 0) }))
  { s with
    parts := s.parts.map (fun (e : Nat × Part) => (e.1, { e.2 with issuers := [], owed := s.stillOwed e.2 }))
    clk := s.clk.next }

end Sys2Proof.Machine
end

