-- ==== Sys2Proof/Machine/Pool.lean ====
section
/-! DEFINITION. The pool's waiting list, spilling and refilling (R98 to R102), and the active and pending sets (R86). -/
namespace Sys2Proof.Machine

/-! ### Spilling (R99, R102) -/

/-- A mapping as the spill area holds it (DESIGN CHOICE, log entry 16): its values leave the pool and the uniform slots. -/
def Core.toSpill (c : Core) : Mapping → Mapping
  | .phys p => .spilled (2 * p) (c.mapVals (.phys p)) (c.mapPoison (.phys p)) false
  | .unif u => .spilled (2 * u + 1) (c.mapVals (.unif u)) (c.mapPoison (.unif u)) true
  | x => x

/-- Every mapping that a group refers to, changed. -/
def State.mapMappings (s : State) (g : Nat) (f : Mapping → Mapping) : State :=
  let table (m : Tab MapEntry) : Tab MapEntry := m.map (fun e => (e.1, { e.2 with map := f e.2.map }))
  let s := s.modGroup g (fun G => { G with
    map := table G.map
    contain := G.contain.map (fun x => { x with map := table x.map })
    threads := G.threads.map (Thread.mapReplays (fun r => { r with holds := r.holds.map f })) })
  { s with mats := s.mats.map (fun (e : Nat × MatOp) => (e.1, { e.2 with
    members := e.2.members.map (fun (m : MatMem) =>
      if m.gid = g then { m with
        holds := m.holds.map f, claims := m.claims.map f
        vals := m.vals.map (fun (e : Nat × OpVal) => (e.1, { e.2 with map := e.2.map.map f })) } else m) })) }

/-- Registers that a group's instructions had set aside are set aside no more. -/
def State.forgetResv (s : State) (g : Nat) : State :=
  { s with
    flight := { s.flight with
      pends := s.flight.pends.map (fun (e : Nat × Pend) => if e.2.gid = g then (e.1, { e.2 with reserved := none }) else e)
      ops := s.flight.ops.map (fun (e : Nat × MemOp) => if e.2.gid = g then (e.1, { e.2 with resv := [] }) else e) }
    mats := s.mats.map (fun (e : Nat × MatOp) => (e.1, { e.2 with
      resv := (e.2.members.zip e.2.resv).map (fun x => if x.1.gid = g then [] else x.2) })) }

/-- A group is spilled whole: its registers return to the pool, its uniform slots are free, and it is frozen. Its own
requests are made anew after the refill.
DESIGN CHOICE, log entry 16. -/
def State.spillGroup (s : State) (g : Nat) : State :=
  let core := s.coreOf g
  let s := (s.mapMappings g (s.core core).toSpill).forgetResv g
  let s := s.modGroup g (fun G => { G with run := { G.run with spilled := true } })
  s.modCore core (fun c => { c with
    pool := c.pool.filter (fun e => decide (e.2.owner ≠ g))
    unif := c.unif.filter (fun e => decide (e.2.owner ≠ g))
    pwait := c.pwait.filter (fun q => decide (q.gid ≠ g) || (match q.asker with
      | .op _ => true
      | _ => false)) })

/-- The fault of an access to `n` registers of a group's spill area, with the address that failed (R102). Where in the
region's spill pool the area lies is not said (DESIGN CHOICE, log entry 16); the Keep's own area never faults (R278). -/
def State.spillFault (s : State) (g n : Nat) (acc : Acc) : Option (Cause × Nat) :=
  let L := s.launch (s.group g).id.launch
  let r := L.region
  let bytes := min (512 * n) r.spillSize
  if L.keepReserve.isSome ∨ bytes = 0 then none
  else match s.xlateRuns r.troot acc r.world (r.spillBase + Config.spillPlace g % (r.spillSize + 1 - bytes)) bytes with
    | .ok _ => none
    | .error e => some e

/-- PROT SPILL of a group is delivered from the Keep, and the group stays frozen as it is (R102). -/
def State.spillRecord (s : State) (g a : Nat) : State :=
  let (id, s) := s.formRecord (kProt, 8) (.spill g) (s.group g).id.launch (s.group g).id.index 0 (BitVec.ofNat 64 a)
    [BitVec.ofNat 64 a]
  { s with faults := { s.faults with recs := tmod s.faults.recs id (fun x => { x with keep := true }) } }

/-- A victim is evicted, out of the active set first; where its spill area does not translate, PROT SPILL is delivered
(R99, R102). -/
def State.evict (s : State) (g : Nat) : State :=
  let s := if (s.group g).run.place = .active then s.modGroup g (fun G => { G with run := { G.run with place := .pending } }) else s
  match s.spillFault g ((s.core (s.coreOf g)).held g) .store with
  | none => s.spillGroup g
  | some e => s.spillRecord g e.2

/-- Lower class first, then younger (R99). -/
def State.victimBefore (s : State) (a b : Nat × Group) : Bool :=
  decide (s.groupClass a.1 < s.groupClass b.1) ||
    (decide (s.groupClass a.1 = s.groupClass b.1) && s.older b a)

/-- Whether a group may be taken as a victim: it holds registers, was not served since its last issue (R100), and is not
frozen by a record. -/
def State.evictable (s : State) (core : Nat) (e : Nat × Group) : Bool :=
  decide ((s.core core).held e.1 > 0) && !e.2.run.served && !e.2.run.spilled && !s.spillStuck e.1

/-- The spill engine's next victim on a core, sparing one group (R99): there is one while any other ordinary group that was not just
served holds more than its floor (R101). -/
def State.nextVictim (s : State) (core : Nat) (spare : Option Nat) : Option (Nat × Group) :=
  let all := (s.groupsOn core).filter (fun e => s.evictable core e && decide (some e.1 ≠ spare))
  let tier (p : Place) (above : Bool) := all.filter (fun e => decide (e.2.run.place = p) &&
    (!above || decide ((s.core core).held e.1 > 16)))
  match firstBy s.victimBefore (tier .stowed false) with
  | some v => some v
  | none =>
    match firstBy s.victimBefore (tier .pending true) with
    | some v => some v
    | none => firstBy s.victimBefore (tier .active true)

/-! ### The waiting list (R98) -/

/-- The group whose split waits for a request: that of a PKWR.reg waits in the handler (R289). -/
def PoolReq.waiter (q : PoolReq) : Nat :=
  match q.asker with
  | .patch (some x) => x.1
  | _ => q.gid

/-- The order of the waiting list: class, highest first, then group age. A group that is still to form is younger than any other
(R87, R254); formations stand in the order of their blocks and handles (DESIGN CHOICE, log entry 53). -/
def State.reqBefore (s : State) (a b : PoolReq) : Bool :=
  let cls (q : PoolReq) : Nat := match q.asker with
    | .form b _ => (s.launch (s.block b).id.launch).cls
    | _ => s.groupClass q.waiter
  let forms (q : PoolReq) : Option (Nat × Nat) := match q.asker with
    | .form b h => some (b, h)
    | _ => none
  decide (cls a > cls b) || (decide (cls a = cls b) && (match forms a, forms b with
    | none, none => s.older (a.waiter, s.group a.waiter) (b.waiter, s.group b.waiter)
    | none, some _ => true
    | some _, none => false
    | some x, some y => decide (x.1 < y.1) || (decide (x.1 = y.1) && decide (x.2 < y.2))))

/-- The head of a core's waiting list: the first request to the pool that has not been granted. -/
def State.poolHead (s : State) (core : Nat) : Option PoolReq :=
  firstBy s.reqBefore ((s.core core).pwait.filter (fun q => !q.granted && !q.own))

/-- Whether nobody waits for a request any more: its split has parked or left, or its operation is over. -/
def State.staleReq (s : State) (q : PoolReq) : Bool :=
  match q.asker with
  | .split pc wb => !((s.group q.gid).threads.any (fun t => decide (t.st = .live) && decide (t.pc = pc) && decide (t.wb = wb)))
  | .patch (some (h, pc, wb)) => !((s.group h).threads.any (fun t => decide (t.st = .live) && decide (t.pc = pc) && decide (t.wb = wb)))
  | .patch none => !s.net.waiting.any (fun x => match x with
    | .pk _ => true
    | .op _ => false)
  | .op id => (tget s.mats id).isNone
  | .refill => !(s.group q.gid).run.spilled
  | .form b h => match (tget (s.block b).tiles h).map Tile.dispatch with
    | some (.placed _) => decide ((s.block b).run ≠ BlockRun.running)
    | _ => true

/-- Whether a request can be met beside those granted and not yet used. -/
def State.canServe (s : State) (core : Nat) (q : PoolReq) : Bool :=
  let others := ((s.core core).pwait.filter (fun x => x.granted)).map PoolReq.count
  match q.asker with
  | .form _ _ => decide (((q.count + others.sum : Nat) : Int) ≤ s.poolFree core)
  | _ => s.canTake q.gid (q.count + others.sum)

/-- POOL_ALLOC_SERVE: the head of a core's waiting list is served in full once free meets it (R98), and its group is no victim until it
has issued (R100), so that what is served leads to an issue (R101). -/
def execPoolAllocServe (core : Nat) (s : State) : Res :=
  let s := s.modCore core (fun c => { c with pwait := c.pwait.filter (fun q => !s.staleReq q) })
  match s.poolHead core with
  | none => .next s
  | some q =>
    if s.canServe core q then
      let s := s.modCore core (fun c => { c with pwait := c.pwait.map (fun x =>
        if x = q then { x with granted := true } else x) })
      .next (s.modGroup q.waiter (fun G => { G with run := { G.run with served := true } }))
    else .next s

/-- SPILL_EVICT: the spill engine evicts one victim while the head of the waiting list cannot be served (R99). It goes on until the
head can be, for every other ordinary group can be spilled (R101). -/
def execSpillEvict (core : Nat) (s : State) : Res :=
  match s.poolHead core with
  | none => .next s
  | some q =>
    if s.canServe core q then .next s
    else match s.nextVictim core (some q.gid) with
      | none => .next s
      | some v => .next (s.evict v.1)

/-- Room for `need` registers in a core's free count, by evicting victims; `fuel` bounds their number (R51, R254). -/
def State.makeRoom (s : State) (core need : Nat) : Nat → State
  | 0 => s
  | n + 1 =>
    if (need : Int) ≤ s.poolFree core then s
    else match s.nextVictim core none with
      | none => s
      | some v => (s.evict v.1).makeRoom core need n

/-! ### Refilling (R100) -/

/-- The registers that a spilled group asks for: one for each physical register that it held, and for what has landed
meanwhile; a value held in uniform form needs one where no slot is free. -/
def State.spilledCount (s : State) (g : Nat) : Nat :=
  let G := s.group g
  let keys := s.spilledKeys g
  let full := decide ((s.core (s.coreOf g)).unif.length + keys.length > 8192)
  (keys.filter (fun x => match x with
    | .spilled _ _ _ uni => !uni || full
    | _ => false)).length + (G.landing.filter (fun x => !x.scalar && (tget G.map x.name).isNone)).length

/-- A register or slot comes back from the spill area. -/
def State.restoreMapping (s : State) (core g : Nat) : Mapping → Mapping × State
  | .spilled _ v p uni =>
    if uni ∧ (s.core core).unif.length < 8192 then
      let u := tfree (s.core core).unif
      (.unif u, s.modCore core (fun c => { c with unif := tput c.unif u ⟨g, laneVal v 0, p, 0⟩ }))
    else
      let (q, s) := s.takePhys core g none v p
      (.phys q, s)
  | x => (x, s)

/-- What has landed for a group while it was stowed goes into its names and scalars (R58). -/
def State.landBuffer (s : State) (g : Nat) : State :=
  let l := (s.group g).landing
  let s := s.modGroup g (fun G => { G with landing := [] })
  foldS l s (fun s x => if x.scalar then s.landScal g x.name (laneVal x.vals 0) x.mask x.seq
    else s.landName g x.name (x.mask &&& (s.group g).occupied) x.vals false none)

/-- The state of a register that has come back: whether it is mapped and pinned, its pending reads and claims. -/
def State.recount (s : State) (g p : Nat) (r : PReg) : PReg :=
  let G := s.group g
  let is (x : Mapping) : Bool := x.same (.phys p)
  let ops := s.mats.flatMap (fun e => e.2.members.filter (fun m => decide (m.gid = g)))
  { r with
    mapped := G.map.any (fun e => is e.2.map)
    pinned := (G.contain.map (fun c => c.map.any (fun e => is e.2.map))).getD false
    reads := ((ops.flatMap MatMem.holds ++ G.threads.flatMap (fun t => t.replays.flatMap Replay.holds)).filter is).length
    engine := ((ops.flatMap MatMem.claims).filter is).length }

/-- The pending reads of a uniform slot that has come back. -/
def State.recountUnif (s : State) (g u : Nat) (r : Unif) : Unif :=
  let ops := s.mats.flatMap (fun e => e.2.members.filter (fun m => decide (m.gid = g)))
  { r with reads := ((ops.flatMap MatMem.holds ++ (s.group g).threads.flatMap (fun t => t.replays.flatMap Replay.holds)).filter
      (fun x => x.same (.unif u))).length }

/-- A spilled group's registers, table, snapshot, pending reads and uniform values are restored. -/
def State.restoreGroup (s : State) (g : Nat) : State :=
  let core := s.coreOf g
  let back := (s.spilledKeys g).foldl (fun (acc : List (Mapping × Mapping) × State) x =>
    let (y, s) := acc.2.restoreMapping core g x
    (acc.1 ++ [(x, y)], s)) ([], s)
  let s := back.2.mapMappings g (fun x => ((back.1.find? (fun e => x.same e.1)).map Prod.snd).getD x)
  let s := s.modCore core (fun c => { c with pool := c.pool.map (fun (e : Nat × PReg) =>
      if e.2.owner = g then (e.1, s.recount g e.1 e.2) else e) })
  let s := s.modCore core (fun c => { c with unif := c.unif.map (fun (e : Nat × Unif) =>
    if e.2.owner = g then (e.1, s.recountUnif g e.1 e.2) else e) })
  let s := s.modGroup g (fun G => { G with run := { G.run with spilled := false, served := true } })
  s.landBuffer g

/-! ### The active and pending sets (R86) -/

/-- Whether the threads of a split cannot issue for a reason of R86: a slot that a memory instruction has set, a sign, the
pool, or an acquire that is still pending. -/
def State.longHeld (s : State) (g : Nat) (pc : Wide) (wb : BitVec 9) (m : Mask) : Bool :=
  match s.fetch g pc with
  | .error _ => false
  | .ok (i, sl) =>
    let first := match setOpOf i with
      | some o => decide ((s.kreg (s.group g).id.block o.k).base = (s.group g).id.index)
      | none => false
    (s.group g).sb.any (fun e => e.2.mem && s.slotHolds g wb (scoreOpnds i first) (sl.ctl.extractLsb' 0 4) e
      (slotUsed i (fld sl.ctl 4 3)) []) || s.poolHeld g pc wb ||
    (match setOpOf i with
      | some o => decide (m &&& ~~~(s.signHeld g o (s.guardMask g m (sl.ctl.extractLsb' 0 4))) = 0)
      | none => false) ||
    (afterAcquire i && decide (m &&& ~~~(s.acquireMem g) = 0))

/-- Whether a group meets a long-latency dependence (R86). -/
def State.longStall (s : State) (g : Nat) : Bool :=
  let G := s.group g
  G.run.spilled || (G.splitsOf (fun t => decide (t.st = .live))).all (fun c => s.longHeld g c.1 c.2.1 c.2.2)

/-- The pending groups of a partition with a split that could issue if their registers were in the pool. -/
def State.pendingAble (s : State) (p : Nat) : List (Nat × Group) :=
  s.groups.filter (fun e => decide (e.2.id.part = p) && decide (e.2.run.place = .pending) &&
    decide ((s.block e.2.id.block).run = BlockRun.running) && !s.spillStuck e.1 && !(s.splits e.1).isEmpty)

/-- The pending groups of a partition that are ready: a split of theirs could issue (R86). -/
def State.pendingReady (s : State) (p : Nat) : List (Nat × Group) := (s.pendingAble p).filter (fun e => !e.2.run.spilled)

/-- A group enters the active set: it can issue from the second cycle on. -/
def State.enterActive (s : State) (g : Nat) : State :=
  s.modGroup g (fun G => { G with
    run := { G.run with place := .active, entered := s.clk.ac, openAt := s.clk.ac + 2, readySince := none } })

/-- A group goes to the pending set. -/
def State.leaveActive (s : State) (g : Nat) : State :=
  s.modGroup g (fun G => { G with run := { G.run with place := .pending, readySince := none } })

/-- The ordinary groups of a partition's active set, oldest first. -/
def State.ordinaryActive (s : State) (p : Nat) : List (Nat × Group) :=
  (s.activeOf p).filter (fun e => decide (e.2.run.place = .active))

/-- Whether a partition's active set would take a pending group now (R86). -/
def State.roomInActive (s : State) (p : Nat) : Bool :=
  decide ((s.ordinaryActive p).length < 8) || (s.ordinaryActive p).any (fun e => s.longStall e.1)

/-- Whether a pending group has been ready for 1,024 ac (R86). -/
def State.waitedLong (s : State) (G : Group) : Bool := G.run.readySince.any (fun t => decide (t + 1024 ≤ s.clk.ac))

/-- Whether R86 or R87 would let a spilled group issue: it is active with a split, or the pending group whose turn it would be,
by a place in the active set or by its age (R100). -/
def State.refillDue (s : State) (g : Nat) : Bool :=
  let G := s.group g
  let firstOf (l : List (Nat × Group)) : Bool := decide ((firstBy s.older l).map Prod.fst = some g)
  match G.run.place with
  | .pending =>
    let l := s.pendingAble G.id.part
    (firstOf l && s.roomInActive G.id.part) || firstOf (l.filter (fun e => s.waitedLong e.2))
  | .active | .keep => !(s.splits g).isEmpty
  | _ => false

/-- Whether a request is for a group's refill. -/
def PoolReq.refills (g : Nat) (q : PoolReq) : Bool := decide (q.gid = g) && decide (q.asker = .refill)

/-- A spilled group's registers come back, where its spill area translates; else PROT SPILL is delivered (R100, R102). -/
def State.refillNow (s : State) (g : Nat) : State :=
  match s.spillFault g (s.spilledCount g) .load with
  | none => (s.modCore (s.coreOf g) (fun c => { c with pwait := c.pwait.filter (fun x => !x.refills g) })).restoreGroup g
  | some e => s.spillRecord g e.2

/-- GROUP_REFILL: a spilled group that could issue asks for its whole count; once that is granted it is restored, where its
spill area translates, and issues before it can be a victim again (R100 to R102). -/
def execGroupRefill (group : Nat) (s : State) : Res :=
  let G := s.group group
  let core := s.coreOf group
  if ¬ G.run.spilled ∨ G.run.place = .stowed ∨ G.run.place = .gone ∨ s.spillStuck group ∨
      (s.block G.id.block).run ≠ BlockRun.running then .next s
  else
    let n := s.spilledCount group
    match (s.core core).pwait.find? (PoolReq.refills group) with
    | some q => if q.granted then .next (s.refillNow group) else .next s
    | none =>
      if ¬ s.refillDue group then .next s
      else if n = 0 then .next (s.refillNow group)
      else .next (s.modCore core (fun c => { c with pwait := c.pwait ++ [⟨group, n, .refill, false, false⟩] }))

/-- ACTIVE_SET_SWAP: the oldest ready pending group takes a free place, or that of a group with a long-latency
dependence (R86). -/
def execActiveSetSwap (part : Nat) (s : State) : Res :=
  match firstBy s.older (s.pendingReady part) with
  | none => .next s
  | some n =>
    let act := s.ordinaryActive part
    if (s.part part).frozen.isSome then .next s
    else if act.length < 8 then .next (s.enterActive n.1)
    else match act.find? (fun e => s.longStall e.1) with
      | some x => .next ((s.leaveActive x.1).enterActive n.1)
      | none => .next s

/-- PENDING_AGE_SWAP: a group that has been ready for 1,024 ac replaces the one that entered the active set longest ago
(R86). -/
def execPendingAgeSwap (part : Nat) (s : State) : Res :=
  let old := (s.pendingReady part).filter (fun e => s.waitedLong e.2)
  match firstBy s.older old, firstBy (fun a b => decide (a.2.run.entered < b.2.run.entered)) (s.ordinaryActive part) with
  | some n, some x => if (s.part part).frozen.isSome then .next s else .next ((s.leaveActive x.1).enterActive n.1)
  | _, _ => .next s

end Sys2Proof.Machine
end

