-- ==== Sys2Proof/Machine/Place.lean ====
section
/-! DEFINITION. Placement and pre-emption (R43, R44, R51 to R53, R56 to R59), the start of blocks and groups (R6, R22),
the formation of bin groups (R253 to R255), and the removal of work that is killed. -/
namespace Sys2Proof.Machine

/-! ### Cores, clusters and partitions that may be used (R40, R302, R326, R350) -/

/-- The entries of a die in the fused and the field map. -/
def State.defects (s : State) (die : Nat) : List DefectDie := [tgetD s.spire.fused die, tgetD s.spire.field die]

/-- Whether a cluster (die × 4 + cluster within the die) is open to placement. -/
def State.clusterOk (s : State) (c : Nat) : Bool :=
  let k := tgetD s.spire.clusters c
  !k.fenced && !k.out && k.testing.isNone && !s.spire.margin.contains (c / 4) &&
    !(s.defects (c / 4)).any (fun d => d.fenced.getLsbD (c % 4))

/-- Whether a core is enabled. -/
def State.coreOk (s : State) (core : Nat) : Bool := !(s.defects (core / 16)).any (fun d => d.cores.getLsbD (core % 16))

/-- Whether a partition is enabled. -/
def State.partOk (s : State) (p : Nat) : Bool :=
  s.coreOk (p / 4) && !(s.defects (p / 64)).any (fun d => d.parts.getLsbD (p % 64))

/-- Whether a bundle's CLMASK permits a cluster (R15). -/
def Bundle.permits (b : Bundle) (cluster : Nat) : Bool := decide (b.clmask = 0) || b.clmask.testBit cluster

/-- Whether some variant of a bundle gives a die a nonzero ratio (R40). -/
def Bundle.usesDie (b : Bundle) (die : Nat) : Bool := b.variants.any (fun v => decide (v.getD die 0 ≠ 0))

/-- The placement set of a bundle: the cores that it may run on (R40). That of a fault task is bounded by CLMASK alone
(R48). -/
def State.placeCores (s : State) (b : Bundle) (task : Bool) : List Nat :=
  (List.range 64).filter (fun c => s.coreOk c && s.clusterOk (c / 4) && b.permits (c / 4) && (task || b.usesDie (c / 16)))

/-- The placement set of a launch. -/
def State.placeSet (s : State) (L : Launch) : List Nat := s.placeCores L.bundle L.fault.isSome

/-! ### Slots and scratchpad (R18, R51) -/

/-- Whether a group takes an ordinary slot. -/
def Group.inSlot (G : Group) : Bool := decide (G.run.place = .active) || decide (G.run.place = .pending)

/-- The free ordinary slots of a partition, without the blocks of a list. -/
def State.freeSlots (s : State) (gone : List Nat) (p : Nat) : Nat :=
  if ¬ s.partOk p then 0
  else
    let used := (s.groups.filter (fun e => decide (e.2.id.part = p) && e.2.inSlot && !gone.contains e.2.id.block)).length
    let placed := (s.blocks.map (fun b => if gone.contains b.1 then 0
      else (b.2.tiles.filter (fun t => decide (t.2.dispatch = .placed p))).length)).sum
    24 - (used + placed)

/-- The partitions of cores. -/
def partsOf (cores : List Nat) : List Nat := cores.flatMap (fun c => [4 * c, 4 * c + 1, 4 * c + 2, 4 * c + 3])

/-- The lowest slot number of a partition that no group has. -/
def State.lowSlot (s : State) (p : Nat) : Nat :=
  let used := (s.groups.filter (fun e => decide (e.2.id.part = p) && e.2.inSlot)).map (fun e => e.2.id.slot)
  ((List.range 24).find? (fun k => !used.contains k)).getD 0

/-- The range of a block's scratchpad in a core, or within its cluster's window when `window` is set. -/
def Block.range (b : Block) (window : Bool) (core : Nat) : Nat × Nat :=
  let i := core % 4
  if b.id.spread then
    if window then (b.id.base, b.id.base + b.id.t)
    else (max b.id.base (i * coreScratch) - i * coreScratch, min (b.id.base + b.id.t) ((i + 1) * coreScratch) - i * coreScratch)
  else
    let o := if window then (b.id.cores.headD 0) % 4 * coreScratch else 0
    (b.id.base + o, b.id.base + b.id.t + o)

/-- The lowest place of `t` bytes below a limit that no used range touches. DESIGN CHOICE, log entry 46. -/
def lowGap (used : List (Nat × Nat)) (limit t : Nat) : Option Nat :=
  let starts := (0 :: used.map (fun r => (r.2 + 255) / 256 * 256)).filter (fun a =>
    decide (a + t ≤ limit) && used.all (fun r => decide (a + t ≤ r.1) || decide (r.2 ≤ a)))
  firstBy (fun a b => decide (a < b)) starts

/-- The ordinary blocks whose scratchpad stands on any of some cores. -/
def State.scratchOn (s : State) (cores : List Nat) : List (Nat × Block) :=
  s.blocks.filter (fun e => e.2.image.isNone && !e.2.id.keep && e.2.id.cores.any cores.contains)

/-- Whether a stowed block's scratchpad may leave for the stow area: no store or access of it is still on its way. -/
def State.mayLeave (s : State) (e : Nat × Block) : Bool :=
  let inside (pa : Nat) : Bool := (e.2.offOf pa).isSome
  decide (e.2.run = BlockRun.stowed) &&
    s.groups.all (fun g => decide (g.2.id.block ≠ e.1) || g.2.fifo.all (fun x => match x.pa with
      | some pa => !inside pa
      | none => false)) &&
    s.flight.ops.all (fun o => o.2.lanes.all (fun l => l.over || (match l.pa with
      | some pa => !inside pa
      | none => true)))

/-- The place of a block's scratchpad on a core or cluster, counting as free what the blocks of a list hold and what may
go to the stow area. -/
def State.scratchPlace (s : State) (gone : List Nat) (cores : List Nat) (spread : Bool) (t : Nat) : Option Nat :=
  let used := (s.scratchOn cores).filter (fun e => !gone.contains e.1)
  let limit := if spread then 4 * coreScratch else coreScratch
  lowGap (used.map (fun e => e.2.range spread (cores.headD 0))) limit t

/-- A poisoned grain is placed without entering a controller's record. -/
def State.addPoison (s : State) (grain : Nat) : State :=
  if s.flight.poison.contains grain then s else { s with flight := { s.flight with poison := grain :: s.flight.poison } }

/-- The scratchpad of a stowed block is written to its stow area (R59). -/
def State.stowScratch (s : State) (b : Nat) : State :=
  let B := s.block b
  if B.image.isSome then s
  else
    let pas := (List.range B.id.t).map B.addr
    let bad := (List.range (B.id.t / 32)).filter (fun i => s.grainBad (B.addr (32 * i)))
    let s := s.modBlock b (fun x => { x with image := some (pas.map (memGet s.mem)), imageBad := bad })
    { s with flight := { s.flight with poison := s.flight.poison.filter (fun g => !(pas.contains (32 * g))) } }

/-- The scratchpad of a block is written back at its place. -/
def State.unstowScratch (s : State) (b : Nat) : State :=
  let B := s.block b
  match B.image with
  | none => s
  | some img =>
    let s := s.modBlock b (fun x => { x with image := none, imageBad := [] })
    let s := s.blockPut b 0 img
    foldS B.imageBad s (fun s i => s.addPoison (B.addr (32 * i) / 32))

/-- The deadline that an item of a launch carries; at class 0 it carries none (R43, R47). -/
def Launch.itemDeadline (l : Launch) : Nat := if l.current = 0 then 0 else l.deadline

/-- The order in which pre-emption stows: lowest class first, then latest deadline, then highest arrival (R52). -/
def State.stowBefore (s : State) (a b : Nat × Block) : Bool :=
  let A := s.launch a.2.id.launch
  let B := s.launch b.2.id.launch
  decide (A.current < B.current) || (decide (A.current = B.current) &&
    (decide (A.itemDeadline > B.itemDeadline) || (decide (A.itemDeadline = B.itemDeadline) && decide (A.seq > B.seq))))

/-- Stowed blocks give up their scratchpad until a range is free, in the order in which pre-emption stows. DESIGN CHOICE,
log entry 46. -/
def State.clearScratch (s : State) (cores : List Nat) (spread : Bool) (t : Nat) : Nat → State
  | 0 => s
  | n + 1 =>
    if (s.scratchPlace [] cores spread t).isSome then s
    else match firstBy s.stowBefore ((s.scratchOn cores).filter s.mayLeave) with
      | none => s
      | some e => (s.stowScratch e.1).clearScratch cores spread t n

/-! ### Items of the run queues (R43) -/

/-- An item: a block not yet started, a stowed block, a bin dispatch. -/
inductive Item where
  | fresh (launch index : Nat)
  | stowed (block : Nat)
  | bin (block handle : Nat)
  deriving DecidableEq, Repr

/-- The order of an item: class, deadline, arrival, block index, kind. -/
structure ItemKey where
  cls : Nat
  deadline : Nat
  seq : Nat
  index : Nat
  rank : Nat
  deriving DecidableEq, Repr

/-- Whether an item stands before another. -/
def ItemKey.before (a b : ItemKey) : Bool :=
  decide (a.cls > b.cls) || (decide (a.cls = b.cls) && (decide (a.deadline < b.deadline) ||
    (decide (a.deadline = b.deadline) && (decide (a.seq < b.seq) || (decide (a.seq = b.seq) &&
      (decide (a.index < b.index) || (decide (a.index = b.index) && decide (a.rank < b.rank))))))))

/-- The launch of an item. -/
def State.itemLaunch (s : State) : Item → Nat
  | .fresh l _ => l
  | .stowed b => (s.block b).id.launch
  | .bin b _ => (s.block b).id.launch

/-- The key of an item; class 0 has no deadline. -/
def State.itemKey (s : State) (i : Item) : ItemKey :=
  let L := s.launch (s.itemLaunch i)
  let d := L.itemDeadline
  match i with
  | .fresh _ x => ⟨L.current, d, L.seq, x, 2⟩
  | .stowed b => ⟨L.current, d, L.seq, (s.block b).id.index, 0⟩
  | .bin b _ => ⟨L.current, d, L.seq, (s.block b).id.index, 1⟩

/-- Bytes that a launch of `k` blocks reserves: spill areas (R20) and stow areas (R44). -/
def Launch.areas (l : Launch) (k : Nat) : Nat :=
  ((l.bundle.subs.map (fun x => x.groups * x.allot)).sum * 512 + (l.t + 6144 * l.g)) * k

/-- Whether a launch has its spill and stow areas; a fault task may have to wait for them (R278). -/
def Launch.hasAreas (l : Launch) : Bool := l.fault.isNone || decide (l.areas 1 ≤ l.reserved) || l.keepReserve.isSome

/-- The die on which a block that waits to start is to run (R23). -/
def Launch.dieOf (l : Launch) (index : Nat) : Nat :=
  ((l.waitBlocks.find? (fun e => decide (e.2.1 ≤ index) && decide (index < e.2.2))).map Prod.fst).getD 0

/-- The block of a launch that is the next to start on a die. -/
def Launch.nextBlock (l : Launch) (die : Nat) : Option Nat :=
  if l.started - l.exited < l.k then
    match tget l.waitBlocks die with
    | some w => if w.1 < w.2 then some w.1 else none
    | none => none
  else none

/-- The items of a die's run queues that ask for a place, in order. Of the blocks of a launch that wait to start, the next
one stands for all: they ask for the same. A fault task's item has one of 256 Keep run-queue slots, also while it is stowed
or waits for its areas; tasks beyond these wait, in the order of their admission (R277, R278). -/
def State.items (s : State) (die : Nat) : List Item :=
  let fresh := s.belfry.launches.filterMap (fun e => if e.2.hasAreas then (e.2.nextBlock die).map (Item.fresh e.1) else none)
  let stowed := (s.blocks.filter (fun e => decide (e.2.id.die = die) && decide (e.2.run = BlockRun.stowed))).map
    (fun e => Item.stowed e.1)
  let bins := s.blocks.flatMap (fun e =>
    if e.2.id.die = die ∧ e.2.run = BlockRun.running ∧ (s.blockGroups e.1).length +
        (e.2.tiles.filter (fun t => match t.2.dispatch with
          | .placed _ => true
          | _ => false)).length < e.2.id.g then
      (e.2.tiles.filter (fun t => decide (t.2.dispatch = .item))).map (fun t => Item.bin e.1 t.1)
    else [])
  let queued := (stowed ++ bins).map s.itemLaunch
  let slots := ((s.belfry.launches.filter (fun e => e.2.fault.isSome && ((e.2.nextBlock die).isSome || queued.contains e.1))).map
    Prod.fst).take 256
  let has (i : Item) : Bool := (s.launch (s.itemLaunch i)).fault.isNone || slots.contains (s.itemLaunch i)
  sortBy (fun a b => (s.itemKey a).before (s.itemKey b)) ((fresh ++ stowed ++ bins).filter has)

/-! ### Where an item fits -/

/-- What an item asks of the cores that it would take: the cores it may take, whether whole clusters, and its needs. -/
structure Ask where
  places : List (List Nat)
  spread : Bool
  t : Nat
  needScratch : Bool
  groups : List (Option Nat)
  deriving DecidableEq, Repr

/-- The cores of a cluster. -/
def clusterCores (c : Nat) : List Nat := [4 * c, 4 * c + 1, 4 * c + 2, 4 * c + 3]

/-- Partitions as they lie among a block's cores, and as they lie among other cores. -/
def movePart (old new : List Nat) (p : Nat) : Nat :=
  match old.findIdx? (fun c => decide (c = p / 4)) with
  | some i => 4 * new.getD i 0 + p % 4
  | none => 4 * new.headD 0 + p % 4

/-- Whether the place that a block has left is open to placement. -/
def State.homeOk (s : State) (b : Nat) : Bool :=
  (s.block b).id.cores.all s.coreOk && s.clusterOk ((s.block b).id.cores.headD 0 / 4)

/-- Whether a stowed block may resume elsewhere: nothing of it is left on its cores, nor a store of its groups in a FIFO or in a
node of their paths, nor a row of its tiles in the node of its die, nor an access or a transfer of its groups (R233, R326).
DEDUCED, log entry 33. -/
def State.mayMove (s : State) (b : Nat) : Bool :=
  let mine (g : Nat) : Bool := decide ((s.group g).id.block = b)
  (s.block b).image.isSome &&
    (s.blockGroups b).all (fun e => (e.2.run.spilled || e.2.map.isEmpty) && e.2.fifo.isEmpty) &&
    ((s.block b).id.cores.flatMap pathOf).all (fun n => (s.node n).all (fun e => !mine e.gid && decide (e.op ≠ 0))) &&
    s.flight.ops.all (fun o => !mine o.2.gid) && s.cores.all (fun c => c.2.xfer.all (fun t => !mine t.2.gid))

/-- The clusters whose four cores a launch may run on. -/
def State.spreadSet (s : State) (L : Launch) : List Nat :=
  (List.range 16).filter (fun c => (clusterCores c).all (s.placeSet L).contains)

/-- Whether a core has a Keep slot: it lies in partition 0 (R51, R350). -/
def State.keepSlot (s : State) (core : Nat) : Bool := s.partOk (4 * core)

/-- Whether a core's Keep slot is free. -/
def State.keepFree (s : State) (core : Nat) : Bool :=
  s.keepSlot core && !(s.blocks.any (fun e => e.2.id.keep && decide (e.2.id.cores = [core])))

/-- The places of a block's placement set. -/
def State.placesOf (s : State) (b : Nat) : List (List Nat) :=
  let B := s.block b
  let L := s.launch B.id.launch
  if B.id.keep then ((s.placeSet L).filter s.keepSlot).map (fun c => [c])
  else if B.id.spread then (s.spreadSet L).map clusterCores else (s.placeSet L).map (fun c => [c])

/-- What an item asks for. A stowed block resumes in the partitions that it left (DESIGN CHOICE, log entry 26); a group list names a
partition or leaves it open. -/
def State.askOf (s : State) (i : Item) : Ask :=
  let L := s.launch (s.itemLaunch i)
  match i with
  | .fresh l x =>
    let die := L.dieOf x
    let spread := decide (L.t > coreScratch)
    { places := if spread then ((s.spreadSet L).filter (fun c => decide (c / 4 = die))).map clusterCores
        else ((s.placeSet (s.launch l)).filter (fun c => decide (c / 16 = die))).map (fun c => [c])
      spread := spread, t := L.t, needScratch := true, groups := List.replicate L.g none }
  | .stowed b =>
    let B := s.block b
    let there := if s.homeOk b then [B.id.cores] else if s.mayMove b then
        (s.placesOf b).filter (fun c => !B.id.keep || s.keepFree (c.headD 0))
      else []
    { places := there, spread := B.id.spread, t := B.id.t, needScratch := B.image.isSome && !B.id.keep
      groups := if B.id.keep then [] else (s.blockGroups b).map (fun e => some e.2.id.part) }
  | .bin b _ =>
    { places := [(s.block b).id.cores], spread := (s.block b).id.spread, t := 0, needScratch := false, groups := [none] }

/-- The block of an item that has one. -/
def Item.block? : Item → Option Nat
  | .fresh _ _ => none
  | .stowed b => some b
  | .bin b _ => some b

/-- Whether an item fits on some cores once the blocks of a list are gone and stowed blocks' scratchpads are free. -/
def State.fits (s : State) (i : Item) (a : Ask) (gone : List Nat) (cores : List Nat) : Bool :=
  let own := match i with
    | .stowed b => (s.block b).id.cores
    | _ => cores
  let leaving := (s.scratchOn cores).filter (fun e => s.mayLeave e && decide (i.block? ≠ some e.1)) |>.map Prod.fst
  let want (p : Nat) : Nat := (a.groups.filter (fun g => decide (g.map (movePart own cores) = some p))).length
  let open_ := (a.groups.filter Option.isNone).length
  let free := (partsOf cores).map (fun p => (p, s.freeSlots gone p))
  free.all (fun f => decide (want f.1 ≤ f.2)) &&
    decide (open_ ≤ ((free.map (fun f => f.2 - want f.1)).sum)) &&
    (!a.needScratch || (s.scratchPlace (gone ++ leaving) cores a.spread a.t).isSome)

/-- Free ordinary slots of some cores. -/
def State.slotsOf (s : State) (cores : List Nat) : Nat := ((partsOf cores).map (s.freeSlots [])).sum

/-- The best place among those where an item fits now: most free slots, then the lowest number (R51). -/
def State.bestPlace (s : State) (i : Item) : Option (List Nat) :=
  let a := s.askOf i
  firstBy (fun x y => decide (s.slotsOf x > s.slotsOf y)) (a.places.filter (s.fits i a []))

/-- Blocks on some cores whose halt is under way. -/
def State.halting (s : State) (cores : List Nat) : List Nat :=
  (s.blocks.filter (fun e => e.2.id.cores.any cores.contains && (match e.2.run with
    | .halting _ => true
    | _ => false))).map Prod.fst

/-- The blocks that an item may have stowed on some cores, in the order of stowing (R52); blocks of one bundle in the order
of their start. DESIGN CHOICE, log entry 46. -/
def State.stowable (s : State) (i : Item) (cores : List Nat) : List Nat :=
  let L := s.launch (s.itemLaunch i)
  (sortBy s.stowBefore (s.blocks.filter (fun e =>
    let B := s.launch e.2.id.launch
    e.2.id.cores.any cores.contains && decide (e.2.run = BlockRun.running) && !e.2.id.keep &&
      decide (i.block? ≠ some e.1) &&
      (decide (B.current < L.current) ||
        (decide (B.current = L.current) && decide (B.itemDeadline > L.itemDeadline)))))).map Prod.fst

/-- How many blocks must be stowed on some cores for an item to fit, and which. -/
def State.roomBy (s : State) (i : Item) (cores : List Nat) : Option (List Nat) :=
  let a := s.askOf i
  let base := s.halting cores
  let order := s.stowable i cores
  ((List.range (order.length + 1)).find? (fun n => s.fits i a (base ++ order.take n) cores)).map (fun n => order.take n)

/-- The pre-emption that makes room for an item: the cores and the blocks to stow, fewest first (R52). -/
def State.preemptFor (s : State) (i : Item) : Option (List Nat × List Nat) :=
  let opts := (s.askOf i).places.filterMap (fun c => (s.roomBy i c).map (fun bs => (c, bs)))
  firstBy (fun x y => decide (x.2.length < y.2.length)) opts

/-- A block is to be stowed: every partition that holds a group of it stops issuing at once, and the halt completes within
360 ac (R56, R57). -/
def State.preempt (s : State) (b : Nat) : State :=
  s.modBlock b (fun B => { B with run := if B.run = BlockRun.running then .halting (s.clk.ac + 41) else B.run })

/-- A cluster of the Spire's table. -/
def State.cluster (s : State) (c : Nat) : Cluster := tgetD s.spire.clusters c

/-- The state with a cluster changed. -/
def State.modCluster (s : State) (c : Nat) (f : Cluster → Cluster) : State :=
  s.modSpire (fun x => { x with clusters := tupd x.clusters c f })

/-- The blocks that stand on a cluster. -/
def State.blocksOn (s : State) (c : Nat) : List Nat :=
  (s.blocks.filter (fun e => e.2.id.cores.any (fun k => decide (k / 4 = c)))).map Prod.fst

/-- A test of a cluster starts: the cluster leaves placement and its blocks are stowed (R56, R302). -/
def State.startTest (s : State) (c wait : Nat) : State :=
  foldS (s.blocksOn c) (s.modCluster c (fun k => { k with testing := some wait })) State.preempt

/-! ### The start of a block (R6, R22) -/

/-- The thread that a group starts with in each lane (R80). -/
def freshThread (pc : Wide) (ready : Nat) : Thread := ⟨.live, pc, 0, [], 0, ready, none, none, [], false⟩

/-- A new group in a partition's slot: s0 to s3 as R6 states, or as R273 states for a fault task. -/
def State.newGroup (s : State) (L : Launch) (id : GroupId) (allot : Nat) (keep : Bool) (threads : List Thread)
    (bars : List Bar) : Group :=
  let a : Wide := match L.fault with
    | some f => f.handle
    | none => L.bundle.args
  let s2 : Nat := match L.fault with
    | some f => f.kind + 256 * f.sub + 65536 * f.depth
    | none => id.bindex
  let full := (s.ordinaryActive id.part).length ≥ 8
  { id := id
    run :=
      { place := if keep then .keep else if full then .pending else .active
        entered := s.clk.ac, openAt := s.clk.ac, readySince := none, spilled := false, served := false }
    threads := threads, map := [], leaving := [], scalPoison := [], scalSeq := [], sb := [], fifo := [], contain := none, landing := []
    handler := none
    scal := [(0, loWord a), (1, hiWord a), (2, BitVec.ofNat 32 s2), (3, BitVec.ofNat 32 id.index)]
    regs :=
      { allot := allot, owe := 0, gwarn := 0, gflags := 0, phase := 0, rres := default
        lp := BitVec.ofNat 16 ((List.range 16).foldl (fun x i => x + if (bars.getD i default).phase then 2 ^ i else 0) 0)
        chk := L.region.chk, stalls := List.replicate 16 0, issued := 0 } }

/-- The sub-launch of each group index of a block, with matrix-role groups first (R18, R51). -/
def Launch.groupOrder (l : Launch) : List (Nat × Nat) :=
  let all := (l.bundle.subs.zipIdx.flatMap (fun e => List.replicate e.1.groups e.2)).zipIdx.map (fun e => (e.2, e.1))
  let matrix (e : Nat × Nat) : Bool := decide ((l.bundle.subs.getD e.2 default).role = 2)
  all.filter matrix ++ all.filter (fun e => !matrix e)

/-- The partition of some cores with the most free slots (R51). -/
def State.freestPart (s : State) (cores : List Nat) : Nat :=
  (firstBy (fun x y => decide (s.freeSlots [] x > s.freeSlots [] y)) (partsOf cores)).getD 0

/-- One group of a new block is placed and stands ready to start. -/
def State.startGroup (s : State) (l b index sub : Nat) (cores : List Nat) (keep : Bool) : State :=
  let L := s.launch l
  let x := L.bundle.subs.getD sub default
  let p := if keep then 4 * cores.headD 0 else s.freestPart cores
  let B := s.block b
  let id : GroupId :=
    ⟨b, B.id.index, index, l, p, if keep then 24 else s.lowSlot p, some sub, x.role, if keep then 7 else L.cls, x.stride, s.clk.ac⟩
  let G := s.newGroup L id x.allot keep (List.replicate 128 (freshThread x.entry s.clk.ac)) B.bars
  let (g, s) := s.freshId
  ({ s with groups := tput s.groups g G } : State).modPart p (fun P => P)

/-- A cluster's suspect set takes a region; the Spire tests the cluster when that fills the set (R326). -/
def State.suspect (s : State) (cores : List Nat) (r : Region) : State :=
  let c := cores.headD 0 / 4
  let k := s.cluster c
  if k.suspects.any (fun e => e.2.rcb = r.rcb) then s
  else
    let s := if k.suspects.length ≥ 65536 then s
      else s.modCluster c (fun k => { k with suspects := k.suspects ++ [(r.regionId, r)] })
    if k.suspects.length < 65535 ∨ k.testing.isSome then s
    else
      let (id, s) := s.freshId
      s.startTest c id

/-- An unstarted block starts on some cores: its registers and scratchpad are set aside, its record is begun, and all of
its groups start together (R22, R334). -/
def State.startBlock (s : State) (l index : Nat) (cores : List Nat) (spread keep : Bool) : State :=
  let L := s.launch l
  let s := if keep then s else s.clearScratch cores spread L.t 256
  let base := if keep then coreScratch else (s.scratchPlace [] cores spread L.t).getD 0
  let die := cores.headD 0 / 16
  let (b, s) := s.freshId
  let B : Block :=
    { id := ⟨l, index, die, cores, spread, keep, base, L.t, L.g, s.clk.ac⟩
      run := .running, bars := List.replicate 16 default, mboxes := List.replicate 16 default
      kregs := List.replicate 16 default, free := 0
      total := (L.bundle.subs.map (fun x => x.groups * x.allot)).sum
      claims := [], tiles := [], bank := [], image := none, imageBad := [], stowLatches := [], ghosts := [] }
  let s := { s with blocks := tput s.blocks b B }
  let s := s.modLaunch l (fun x => { x with
    started := x.started + 1
    waitBlocks := tmod x.waitBlocks (x.dieOf index) (fun w => (w.1 + 1, w.2))
    first := some (x.first.getD s.clk.ns)
    dieFirst := if (tget x.dieFirst die).isSome then x.dieFirst else tput x.dieFirst die s.clk.ns })
  let s := s.startRecord b
  let s := foldS L.groupOrder s (fun s e => s.startGroup l b e.1 e.2 cores keep)
  let s := foldS cores s (fun s c => s.makeRoom c 0 256)
  let s := s.suspect cores L.region
  s.trace1 3 (srcOfPart (4 * cores.headD 0)) L.region.regionId (s.groupData l index 0)

/-! ### Stowing and resuming (R57 to R59, R216, R233, R256) -/

/-- The partitions that a halt of a block concerns (R56). -/
def State.haltParts (s : State) (b : Nat) : List Nat := ((s.blockGroups b).map (fun e => e.2.id.part)).eraseDups

/-- The operations that a halt of a block concerns: its own, and those of the engines of its partitions (R57). -/
def State.haltOps (s : State) (b : Nat) : List (Nat × MatOp) :=
  let parts := s.haltParts b
  s.mats.filter (fun e => decide (e.2.block = b) || parts.contains (s.matPart e.2))

/-- Whether a block's halt may complete: its time has come, every fixed-latency result of the affected partitions has landed,
and the engines have completed what they were executing (R57, R66, R215). -/
def State.haltReady (s : State) (b : Nat) : Bool :=
  match (s.block b).run with
  | .halting t =>
    let parts := s.haltParts b
    decide (t ≤ s.clk.ac) && s.flight.pends.all (fun e => !parts.contains (s.group e.2.gid).id.part) &&
      (s.haltOps b).all (fun e => s.haltsAt e.2)
  | _ => false

/-- A group gives up its slot: a handler is abandoned, stall counts are discarded, requests on the pool are withdrawn. -/
def State.stowGroup (s : State) (g : Nat) : State :=
  let s := s.endHandler g
  let p := (s.group g).id.part
  let s := s.modCore (p / 4) (fun c => { c with pwait := c.pwait.filter (fun q => decide (q.gid ≠ g) || (match q.asker with
    | .op _ => true
    | _ => false)) })
  let s := s.modPart p (fun P => { P with
    last := if P.last = some g then none else P.last
    owed := if P.owed.map (fun o => o.1) = some g then none else P.owed })
  s.modGroup g (fun G => { (G.modThreads allLanes (fun _ t => { t with ready := s.clk.ac, since := none })) with
    run := { G.run with place := .stowed, readySince := none } })

/-- The halt of a block completes: queued engine operations are retracted, tile bindings are written back, a placed bin
dispatch goes back to the run queue, and the groups are stowed. -/
def State.stowBlock (s : State) (b : Nat) : State :=
  let s := foldS ((s.haltOps b).map Prod.fst) s State.retract
  let s := foldS ((s.block b).tiles.filter (fun e => decide (e.1 ≠ faultBin))) s (fun s e => s.tileBack b e.2)
  let s := s.modBlock b (fun B => { B with
    run := .stowed
    tiles := B.tiles.map (fun (e : Nat × Tile) => (e.1, { e.2 with dispatch := match e.2.dispatch with
      | .placed _ => .item
      | x => x })) })
  let s := foldS ((s.blockGroups b).map Prod.fst) s State.stowGroup
  let B := s.block b
  s.trace1 4 (srcOfPart (4 * B.id.cores.headD 0)) (s.launch B.id.launch).region.regionId (s.groupData B.id.launch B.id.index 0)

/-- A resumed group takes its slot again; what has landed for it is written before it issues (R58). -/
def State.resumeGroup (s : State) (g : Nat) (old new : List Nat) : State :=
  let p := movePart old new (s.group g).id.part
  let full := (s.ordinaryActive p).length ≥ 8
  let slot := s.lowSlot p
  let keep := (s.blockOf g).id.keep
  let s := s.modGroup g (fun G => { G with
    id := { G.id with part := p, slot := if keep then 24 else slot }
    run := { G.run with place := if keep then .keep else if full then .pending else .active, entered := s.clk.ac, openAt := s.clk.ac, readySince := none } })
  let s := s.modPart p (fun P => P)
  if (s.group g).run.spilled then s else s.landBuffer g

/-- The latches of a block leave the partitions of its cores for its stow area (R216, R326). -/
def State.stowLatchesOf (s : State) (b : Nat) : State :=
  foldS (partsOf (s.block b).id.cores) s (fun s p =>
    let own := (s.part p).latches.filter (fun e => decide (e.2.owner = some b))
    let s := s.modBlock b (fun B => { B with
      stowLatches := own.map (fun e => (p, e.1, e.2)) ++ B.stowLatches.filter (fun x => !(own.any (fun e => x.1 = p ∧ x.2.1 = e.1))) })
    s.modPart p (fun P => { P with latches := P.latches.filter (fun e => decide (e.2.owner ≠ some b)) }))

/-- The stow that FTEST makes is complete: registers, latches and scratchpad leave the cluster (R326). -/
def State.stowWhole (s : State) (b : Nat) : State :=
  let s := foldS ((s.blockGroups b).map Prod.fst) s (fun s g => if (s.group g).run.spilled then s else s.spillGroup g)
  (s.stowScratch b).stowLatchesOf b

/-- Whether a core stands under a test, or its die under margining, which fences it as a test does (R302, R348). -/
def State.emptied (s : State) (core : Nat) : Bool :=
  (tgetD s.spire.clusters (core / 4)).testing.isSome || s.spire.margin.contains (core / 16)

/-- Whether a block that a test or margining has stowed is still to leave its cluster, and may (R326, R348). -/
def State.leavesNow (s : State) (b : Nat) : Bool :=
  let B := s.block b
  B.image.isNone && s.mayLeave (b, B) && s.emptied (B.id.cores.headD 0)

/-- PREEMPT_HALT_DONE: a block whose halt is complete is stowed; one that a test or margining has stowed leaves its cluster (R57, R326, R348). -/
def execPreemptHaltDone (block : Nat) (s : State) : Res :=
  .next (if s.haltReady block then s.stowBlock block else if s.leavesNow block then s.stowWhole block else s)

/-- A stowed block resumes on some cores: scratchpad, latches and groups come back, and what another stowed block keeps in
those latches goes to its own stow area (R53, R59, R216). -/
def State.resumeBlock (s : State) (b : Nat) (cores : List Nat) : State :=
  let s := if (s.block b).id.cores = cores then s else s.stowLatchesOf b
  let B := s.block b
  let old := B.id.cores
  let back := B.image.isSome && !B.id.keep
  let s := if back then s.clearScratch cores B.id.spread B.id.t 256 else s
  let base := if back then (s.scratchPlace [] cores B.id.spread B.id.t).getD 0 else B.id.base
  let s := s.modBlock b (fun x => { x with
    id := { x.id with cores := cores, die := cores.headD 0 / 16, base := base }, run := .running, stowLatches := [] })
  let s := s.unstowScratch b
  let s := foldS B.stowLatches s (fun s x =>
    let p := movePart old cores x.1
    (s.saveLatch p x.2.1 b).modPart p (fun P => { P with latches := tput P.latches x.2.1 x.2.2 }))
  let s := foldS ((s.blockGroups b).map Prod.fst) s (fun s g => s.resumeGroup g old cores)
  let s := foldS cores s (fun s c => s.makeRoom c 0 256)
  let L := s.launch B.id.launch
  let s := s.suspect cores L.region
  s.trace1 5 (srcOfPart (4 * cores.headD 0)) L.region.regionId (s.groupData B.id.launch B.id.index 0)

/-! ### The dispatcher (R51 to R53) -/

/-- An item is placed on some cores. -/
def State.placeItem (s : State) (i : Item) (cores : List Nat) : State :=
  match i with
  | .fresh l x => s.startBlock l x cores (decide ((s.launch l).t > coreScratch)) false
  | .stowed b => s.resumeBlock b cores
  | .bin b h => s.modBlock b (fun B => { B with tiles := tmod B.tiles h (fun (t : Tile) =>
      { t with dispatch := .placed (s.freestPart cores) }) })

/-- The core whose Keep slot takes an item: a fault task of one group and at most 16 KiB (R51). -/
def State.keepPlace (s : State) (i : Item) : Option Nat :=
  match i with
  | .fresh l x =>
    let L := s.launch l
    let die := L.dieOf x
    if L.fault.isNone ∨ L.g ≠ 1 ∨ L.t > 16384 then none
    else (s.placeSet L).find? (fun c => decide (c / 16 = die) && s.keepFree c)
  | _ => none

/-- The first item of a list that fits somewhere now, or in a Keep slot. -/
def State.backfill (s : State) : List Item → Option State
  | [] => none
  | i :: r =>
    match s.bestPlace i with
    | some c => some (s.placeItem i c)
    | none =>
      match s.keepPlace i, s.preemptFor i, i with
      | some c, none, .fresh l x => some (s.startBlock l x [c] false true)
      | _, _, _ => s.backfill r

/-- DISPATCH_PLACE: the head is placed; or room is made for it by pre-emption; or a fault task takes a Keep slot; or
items behind it are backfilled. -/
def execDispatchPlace (die : Nat) (s : State) : Res :=
  if s.spire.boot.inReset.contains (1 + die) ∨ s.spire.boot.inReset.contains 6 ∨ s.spire.boot.tempHold then .next s
  else
    match s.items die with
    | [] => .next s
    | h :: rest =>
      match s.bestPlace h with
      | some c => .next (s.placeItem h c)
      | none =>
        match s.preemptFor h with
        | some (_, bs) => .next (foldS bs s State.preempt)
        | none => match s.keepPlace h, h with
          | some c, .fresh l x => .next (s.startBlock l x [c] false true)
          | _, _ => .next ((s.backfill rest).getD s)

/-! ### Bin groups (R254, R272) -/

/-- The bytes before the columns of a tile's row: those of a fault-bin row hold its thread (R272). -/
def rowPrefix (h : Nat) : Nat := if h = faultBin then 48 else 0

/-- The address of a row of a binding. -/
def Tile.rowAt (t : Tile) (h r : Nat) : Nat := t.base.toNat + (rowPrefix h + 4 * t.names.length) * r

/-- What a formation reads of a row: its bytes, or the poison that it meets, with its cause (R169, R310). -/
abbrev RowRead := Except Cause (List Byte)

/-- Rows read for a formation: for each its bytes, or the poison in it; another fault stops it. -/
def State.readRows (s : State) (b h : Nat) (t : Tile) : List Nat → Except (Cause × Nat) (List RowRead)
  | [] => .ok []
  | r :: rest =>
    match s.readRows b h t rest with
    | .error e => .error e
    | .ok l =>
      match s.tileRead b t (t.rowAt h r) (rowPrefix h + 4 * t.names.length) with
      | .ok x => .ok (.ok x :: l)
      | .error e => if e.1.1 = kPoison then .ok (.error e.1 :: l) else .error e

/-- The thread of a row, whose columns take 4 ac each to load (R254): R9, or the row's prefix for a fault bin, whose thread then replays as its record's service
says (R272, R290). -/
def State.rowThread (s : State) (h : Nat) (t : Tile) (row : RowRead) : Thread :=
  let row := row.toOption
  let base := freshThread t.resume (s.clk.ac + 4 * t.names.length)
  match row with
  | none => base
  | some x =>
    if h ≠ faultBin then base
    else
      let handle := BitVec.ofNat 64 (leAt x 0 8)
      let ps := leAt x 8 8
      let ls := leAt x 16 8
      let rec_ := s.faults.recs.find? (fun e => decide (e.2.handle = some handle))
      let act := (rec_.map (fun e => e.2.action)).getD 0
      let trap := (rec_.map (fun e => decide (e.2.kind = kTrap))).getD false
      { base with
        pc := BitVec.ofNat 64 (ps % 2 ^ 56)
        wb := BitVec.ofNat 9 (ls / 2 ^ 40 % 32 * 16)
        stack := ((List.range (ps / 2 ^ 56 % 16)).map (fun i => BitVec.ofNat 9 (ls / 2 ^ (5 * i) % 32 * 16))).reverse
        preds := BitVec.ofNat 7 (ls / 2 ^ 45 % 128)
        replay := if act = 3 ∨ trap then none
          else some ⟨BitVec.ofNat 64 (leAt x 24 8), (List.range 4).map (fun i => BitVec.ofNat 32 (leAt x (32 + 4 * i) 4)), true,
            BitVec.ofNat 5 (ls / 2 ^ 59), [], [], decide (act = 2), true, rec_.bind (fun e => tget e.2.went (ls / 2 ^ 52 % 128)),
            (rec_.map Prod.fst).getD 0, !rec_.any (fun e => e.2.unissued)⟩ }

/-- Bits of rows are cleared in the row-state area of a fault bin, whose state stands in memory (R246, R271). -/
def State.binBits (s : State) (b : Nat) (t : Tile) (rows : List Nat) (half : Nat) (on : Bool) : State :=
  foldS rows s (fun s r =>
    let a := t.wakeBase.toNat + 128 * half + r / 8
    match s.tileRead b t a 1 with
    | .error _ => s
    | .ok x =>
      let old := (x.headD 0).toNat
      let new := if on then old ||| 2 ^ (r % 8) else old - (if old.testBit (r % 8) then 2 ^ (r % 8) else 0)
      match s.tileWrite b t a [BitVec.ofNat 8 new] with
      | .ok s' => s'
      | .error _ => s)

/-- OCC and WOKEN of a fault bin's descriptor follow its row-state area. -/
def State.binSync (s : State) (b : Nat) (t : Tile) : State :=
  match s.tileRead b t t.wakeBase.toNat 256 with
  | .error _ => s
  | .ok area =>
    let has (o r : Nat) : Bool := (leAt area (o + r / 8) 1).testBit (r % 8)
    let occ := (List.range t.rows).filter (has 0)
    let B := s.block b
    let r := (s.launch B.id.launch).region
    match s.xlateRuns r.troot .store r.world (t.va.toNat + 0x36) 4 with
    | .error _ => s
    | .ok d => s.putRuns (dieNode B.id.die) 0 d (leBytes 2 occ.length ++ leBytes 2 (occ.filter (has 128)).length)

/-- The lowest group index below G that no resident group of a block holds. -/
def State.lowIndex (s : State) (b : Nat) : Nat :=
  ((List.range (s.block b).id.g).find? (fun k => !((s.blockGroups b).any (fun e => decide (e.2.id.index = k))))).getD 0

/-- `n` rows are taken from a binding (R254, R271). -/
def State.takeRows (s : State) (b h : Nat) (t : Tile) (rows : List Nat) (n : Nat) : State :=
  let s := if h = faultBin then ((s.binBits b t rows 0 false).binBits b t rows 1 false).binSync b t else s
  s.modTile b h (fun x => x.free rows n)

/-- The rows of a formation leave a binding, and overflow rows move in; or the fault that the refill meets (R254, R255). -/
def State.freeRows (s : State) (b h : Nat) (t : Tile) : Except (Cause × Nat) State :=
  let s := s.takeRows b h t t.ready t.count
  if h = faultBin then .ok s else s.refillTile b h 1024

/-- PROT FRAME of a formation is delivered from the Keep. -/
def State.frameRecord (s : State) (b h index addr : Nat) : State :=
  let a : Wide := BitVec.ofNat 64 addr
  let (id, s) := s.formRecord (kProt, 9) (.formation b h) (s.block b).id.launch index 0 a [a]
  { s with faults := { s.faults with recs := tmod s.faults.recs id (fun x => { x with keep := true }) } }

/-- A formation that faults is abandoned: the rows stay, the allotment returns to FREE. -/
def State.formFault (s : State) (b h : Nat) (t : Tile) (index addr : Nat) : State :=
  (s.frameRecord b h index addr).modBlock b (fun B => { B with
    free := B.free + t.allot, tiles := tmod B.tiles h (fun (x : Tile) => { x with dispatch := .none }) })

/-- The columns of a formed group take physical registers: lane i holds row i, and a row that is poisoned enters none. -/
def State.loadColumns (s : State) (g h : Nat) (t : Tile) (data : List RowRead) : State :=
  let core := s.coreOf g
  let rows := data.map Except.toOption
  let m := maskOf ((List.range rows.length).filter (fun i => (rows.getD i none).isSome))
  foldS t.names.zipIdx s (fun s e =>
    let v := lanesFn (fun l => match rows.getD l none with
      | some x => BitVec.ofNat 32 (leAt x (rowPrefix h + 4 * e.2) 4)
      | none => 0)
    if m = 0 then s
    else
      let (p, s) := s.takePhys core g none v 0
      s.setEntry g e.1 (some ⟨.phys p, m⟩))

/-- The records whose binned threads have come back in a group say so. -/
def State.noteMoved (s : State) (g : Nat) (thr : List Thread) : State :=
  let ids := (thr.filterMap (fun t => t.replay.map Replay.record)).eraseDups
  let mine (id : Nat) : Mask := maskOf ((List.range thr.length).filter (fun l =>
    decide ((thr[l]?.bind (fun t => t.replay.map Replay.record)) = some id)))
  { s with faults := { s.faults with recs := s.faults.recs.map (fun (e : Nat × FRec) =>
      if ids.contains e.1 then (e.1, { e.2 with moved := e.2.moved ++ [(g, mine e.1)] }) else e) } }

/-- A bin group forms from the contents of the rows that have left a binding. -/
def State.formGroup (s : State) (b h p : Nat) (t : Tile) (data : List RowRead) : State :=
  let B := s.block b
  let L := s.launch B.id.launch
  let stride := (L.bundle.subs.map SubLaunch.stride).foldl max 0
  let id : GroupId :=
    ⟨b, B.id.index, s.lowIndex b, B.id.launch, p, s.lowSlot p, none, t.role, L.cls, stride, s.clk.ac⟩
  let thr := (List.range 128).map (fun l => match data[l]? with
    | some x => s.rowThread h t x
    | none => { freshThread 0 s.clk.ac with st := LaneState.vacant })
  let G := s.newGroup L id t.allot false thr B.bars
  let (g, s) := s.freshId
  let s := (({ s with groups := tput s.groups g G } : State).modPart p (fun P => P)).noteMoved g thr
  let s := s.loadColumns g h t data
  let s := s.modTile b h (fun x => { x with binrun := false, dispatch := .none })
  let bad (c : Cause) : Mask := maskOf ((data.zipIdx.filter (fun e => match e.1 with
    | .error x => decide (x = c)
    | .ok _ => false)).map Prod.snd)
  let park (s : State) (c : Cause) : State :=
    s.parkLanes g (bad c) c ⟨t.resume, t.resume, 0, 0, s.env.seq, [], true⟩ 0 [] (fun _ => none)
  (park (park s (kPoison, 1)) (kPoison, 2)).tileTest b h

/-- Whether a request is a formation's. -/
def PoolReq.forms (b h : Nat) (q : PoolReq) : Bool := decide (q.asker = .form b h)

/-- Whether a formation has the registers that it asks for: its request has been granted, or nobody waits and they are free
(R98, R254). -/
def State.formServed (s : State) (core b h need : Nat) : Bool :=
  let l := (s.core core).pwait
  l.any (fun q => q.forms b h && q.granted) || (!l.any (fun q => !q.forms b h && !q.own) && decide ((need : Int) ≤ s.poolFree core))

/-- A number that is no group's. -/
def noGroup : Nat := 2 ^ 60

/-- A formation's request stands on its core's waiting list, once (R98, R254). -/
def State.formAsk (s : State) (core b h need : Nat) : State :=
  if (s.core core).pwait.any (PoolReq.forms b h) then s
  else s.modCore core (fun c => { c with pwait := c.pwait ++ [⟨noGroup, need, .form b h, false, false⟩] })

/-- A formation's request leaves the waiting list. -/
def State.formTaken (s : State) (core b h : Nat) : State :=
  s.modCore core (fun c => { c with pwait := c.pwait.filter (fun q => !q.forms b h) })

/-- BIN_GROUP_FORM: a placed bin dispatch forms a group of up to 128 of the lowest woken rows, once the pool has a register
for each column; it is abandoned when a read of rows or the refill faults (R254). WOKEN without a row that it counts is
dropped. -/
def execBinGroupForm (block handle : Nat) (s : State) : Res :=
  match tget (s.block block).tiles handle with
  | none => .next s
  | some t =>
    match t.dispatch with
    | .placed p =>
      let core := p / 4
      if (s.block block).run ≠ BlockRun.running then .next s
      else if t.ready.isEmpty then
        .next ((s.modBlock block (fun B => { B with
          free := B.free + t.allot
          tiles := tmod B.tiles handle (fun (x : Tile) =>
            { x.free [] t.count with binrun := false, dispatch := .none }) })).blockCheck block)
      else
        match s.readRows block handle t t.ready, s.freeRows block handle t with
        | .error e, _ => .next (s.formFault block handle t (s.lowIndex block) e.2)
        | _, .error e => .next (s.formFault block handle t (s.lowIndex block) e.2)
        | .ok data, .ok _ =>
          let need := max 16 t.names.length
          if s.formServed core block handle need then
            let s := s.formTaken core block handle
            match s.freeRows block handle t with
            | .ok s => .next (s.formGroup block handle p t data)
            | .error e => .next (s.formFault block handle t (s.lowIndex block) e.2)
          else .next (s.formAsk core block handle need)
    | _ => .next s

/-! ### Work that is killed -/

/-- What a group waits for is dropped, with its claims (R240). -/
def State.dropWaits (s : State) (g : Nat) : State :=
  let mine := (s.flight.waits.filter (fun (e : Nat × Wait) => decide (e.2.gid = g))).map Prod.fst
  let s := s.modBlock (s.group g).id.block (fun B => { B with claims := B.claims.filter (fun c => match c with
    | .thread w => !mine.contains w
    | .bin _ => true) })
  { s with flight := { s.flight with waits := s.flight.waits.filter (fun (e : Nat × Wait) => decide (e.2.gid ≠ g)) } }

/-- A group of killed work is gone: what it waits for and what is on its way to it are dropped, its lanes become vacant,
and it exits. Its stores go on (R145). -/
def State.killGroup (s : State) (g : Nat) : State :=
  let ops := (s.mats.filter (fun e => e.2.members.any (fun m => decide (m.gid = g)))).map Prod.fst
  let s := (foldS ops s State.matOver).dropWaits g
  let s := { s with flight := { s.flight with
    ops := s.flight.ops.map (fun (e : Nat × MemOp) => if e.2.gid = g then (e.1, { e.2 with dests := [], sdest := none }) else e) } }
  let s := s.modGroup g (fun G => { G with handler := none })
  let s := s.closeContain g
  (s.vacate g allLanes).exitCheck g

/-- A block of killed work is gone. -/
def State.killBlock (s : State) (b : Nat) : State :=
  let s := match tget (s.block b).tiles faultBin with
    | some t => (s.takeRows b faultBin t t.occ t.nocc).modBlock b (fun B => { B with tiles := tdel B.tiles faultBin })
    | none => s
  let s := s.modBlock b (fun B => { B with claims := [], tiles := B.tiles.map (fun (e : Nat × Tile) =>
    (e.1, { e.2 with dispatch := .none })) })
  let s := foldS ((s.blockGroups b).map Prod.fst) s State.killGroup
  if (tget s.blocks b).isSome then s.blockEnd b else s

/-- Whether what a record parks is a block's work. -/
def State.parkedIn (s : State) (b : Nat) : Origin → Bool
  | .lanes g _ | .spill g => decide ((s.group g).id.block = b)
  | .tile op => (tget s.mats op).any (fun o => decide (o.block = b))
  | .claims x _ | .formation x _ | .writeBack x _ _ => decide (x = b)
  | .segment _ _ | .transfer _ _ _ | .region _ => false

/-- A block is killed with its parked work, and its bundle's final status is KILLED (R327, R345). -/
def State.killWhole (s : State) (b : Nat) : State :=
  let s := { s with faults := { s.faults with recs := s.faults.recs.map (fun (e : Nat × FRec) =>
    if s.parkedIn b e.2.origin ∧ e.2.state ≤ 1 then (e.1, { e.2 with state := 3, service := none }) else e) } }
  (s.killBlock b).modLaunch (s.block b).id.launch (fun l => { l with killed := true })

/-- Every part of a launch stops, and KILLED is its final status (R279, R345). Its records are served as killed. -/
def State.killLaunch (s : State) (l : Nat) : State :=
  let bs := (s.blocks.filter (fun e => decide (e.2.id.launch = l))).map Prod.fst
  let s := foldS bs s State.killBlock
  let s := { s with
    faults := { s.faults with recs := s.faults.recs.map (fun (e : Nat × FRec) =>
      if e.2.launch = some l then (e.1, { e.2 with state := if e.2.state ≤ 1 then 3 else e.2.state, service := none }) else e) }
    cores := s.cores.map (fun (e : Nat × Core) => (e.1, { e.2 with xfer := e.2.xfer.filter (fun t => decide (t.2.launch ≠ l)) })) }
  s.modLaunch l (fun x => { x with killed := true, waitBlocks := [] })

end Sys2Proof.Machine
end

