-- ==== Sys2Proof/Machine/Dump.lean ====
section
/-! DEFINITION. PSTOP and partition dumps (R285, R286, R299, R337 to R340). -/
namespace Sys2Proof.Machine

/-! ### Thread state as dumps, rows and records lay it out (R272) -/

/-- PCSTATE: PC, loop depth, and what stands in [63:60]. -/
def pcState (pc : Wide) (depth top : Nat) : Nat := pc.toNat % 2 ^ 56 + 2 ^ 56 * (depth % 16) + 2 ^ 60 * top

/-- LSTATE: loop stack with entry 0 the oldest, WB, predicates, home lane, replay phase. -/
def lState (stack : List (BitVec 9)) (wb : BitVec 9) (preds : BitVec 7) (lane : Nat) (phase : BitVec 5) : Nat :=
  ((stack.reverse.zipIdx).map (fun e => 2 ^ (5 * e.2) * (e.1.toNat / 16 % 32))).sum +
    2 ^ 40 * (wb.toNat / 16 % 32) + 2 ^ 45 * preds.toNat + 2 ^ 52 * (lane % 128) + 2 ^ 59 * phase.toNat

/-- The lane state's code (R338). -/
def LaneState.code : LaneState → Nat
  | .live => 0
  | .waiting => 1
  | .parked => 2
  | .vacant => 3

/-- The 16 bytes of a lane in a group section; a thread in a match-point handler stands at MATCHPC (R340). -/
def Group.threadImage (G : Group) (l : Nat) : List Byte :=
  let t := G.thread l
  let phase : BitVec 5 := match t.st, t.replay with
    | .parked, some r => r.phase
    | _, _ => 0
  let c : Wide × BitVec 9 × List (BitVec 9) × BitVec 7 := match G.handler with
    | some h => if h.lanes.getLsbD l then h.saved.getD l (t.pc, t.wb, t.stack, t.preds) else (t.pc, t.wb, t.stack, t.preds)
    | none => (t.pc, t.wb, t.stack, t.preds)
  let st : LaneState := if G.handler.any (fun h => h.lanes.getLsbD l) then .live else t.st
  leBytes 8 (pcState c.1 c.2.2.1.length st.code) ++ leBytes 8 (lState c.2.2.1 c.2.1 c.2.2.2 l phase)

/-! ### Sections -/

/-- A convergence register's word (R197). -/
def State.kregWord (s : State) (b i : Nat) : Nat :=
  let k := (s.block b).kregs.getD i default
  let mine := s.mats.filter (fun e => e.2.block = b && e.2.k = i && decide (e.2.phase ≠ .signing))
  k.base % 64 + 2 ^ 6 * (k.n % 8) + (if k.signing.isSome then 2 ^ 9 else 0) + 2 ^ 10 * (mine.length % 8) +
    (if mine.any (fun e => decide (e.2.phase = .parked)) then 2 ^ 13 else 0)

/-- An entry of MAP (R338). -/
def State.mapImage (s : State) (g n : Nat) : List Byte :=
  match tget (s.group g).map n with
  | none => List.replicate 24 0
  | some e =>
    let (k, u) : Nat × Word := match e.map with
      | .phys p => (1 + 4 * p, 0)
      | .unif u => (2, (tgetD (s.core (s.coreOf g)).unif u).val)
      | .spilled _ _ _ _ => (3, 0)
    leBytes 4 k ++ leBytes 4 u.toNat ++ leBytes 16 e.mask.toNat

/-- A pending write: its slot, what it writes, and the cycle in which it lands where that is known (R339). -/
structure PendingWrite where
  slot : Nat
  dest : Dest
  landAt : Option Nat
  deriving DecidableEq, Repr

/-- The name of a destination as a dump gives it. -/
def Dest.nameField : Dest → Nat
  | .vec n => n % 512
  | .scal _ | .pred _ => 0x1FF

/-- The register file of a destination. -/
def Dest.file : Dest → Nat
  | .vec _ => 0
  | .scal _ => 1
  | .pred _ => 2

/-- The 8 bytes of a pending write (R339). -/
def PendingWrite.image (w : PendingWrite) (now : Nat) : List Byte :=
  leBytes 8 (w.dest.nameField + 2 ^ 9 * w.slot + 2 ^ 12 * w.dest.file + 2 ^ 32 * (match w.landAt with
    | some t => t - now
    | none => 0xFFFFFFFF))

/-- Whether a pending write is listed before another: in slot order, and then by name. -/
def PendingWrite.before (a b : PendingWrite) : Bool :=
  decide (a.slot < b.slot) || (decide (a.slot = b.slot) && decide (a.dest.nameField < b.dest.nameField))

/-- A list of pending writes with one more in its place. -/
def insertWrite (l : List PendingWrite) (w : PendingWrite) : List PendingWrite :=
  l.takeWhile (fun x => !w.before x) ++ [w] ++ l.dropWhile (fun x => !w.before x)

/-- The destinations that a slot records. -/
def SbSlot.dests (e : SbSlot) : List Dest := e.names.map .vec ++ e.scalars.map .scal ++ e.preds.map .pred

/-- When the results of the set operation that a slot records land, where the engine executes it and it meets no fault (R213,
R339). -/
def State.setLanding (s : State) (e : SbSlot) : Option Nat :=
  match e.set.bind (fun id => tget s.mats id) with
  | some op => match op.phase with
    | .running until_ => if op.fault.isSome then none else some until_
    | _ => none
  | none => none

/-- The pending writes of a group: the results whose landing is scheduled, with their slot where one records them, and the
other destinations that the slots record (R339); the shadow context is not shown (R340). -/
def State.pendingWrites (s : State) (g : Nat) : List PendingWrite :=
  let sb := (s.group g).sb
  let own : Dest → Bool
    | .vec n => decide (n < shadowName)
    | .scal i => !s.shadowScalar g i
    | .pred k => decide (k ≠ 7) && !s.inHandler g
  let ps := s.pendsOf g
  let slotOf (p : Pend) : Nat := if (tget sb p.slot).any (fun e => e.dests.contains p.dest) then p.slot else 0
  let timed := ps.map (fun p => (⟨slotOf p.2, p.2.dest, some p.2.landAt⟩ : PendingWrite))
  let others := sb.flatMap (fun e => (e.2.dests.filter (fun d => !timed.any (fun w => decide (w.slot = e.1) && decide (w.dest = d)))).map
    (fun d => (⟨e.1, d, s.setLanding e.2⟩ : PendingWrite)))
  ((timed ++ others).filter (fun w => own w.dest)).foldl insertWrite []

/-- A group section (R338). -/
def State.groupSection (s : State) (g : Nat) : List Byte :=
  let G := s.group g
  let pend := (s.pendingWrites g).map (fun w => w.image s.clk.ac)
  let names := (G.map.filter (fun e => match e.2.map with
    | .unif _ => false
    | _ => true))
  let c := s.core (s.coreOf g)
  let contents := names.flatMap (fun e => (List.range 128).flatMap (fun l => leBytes 4 (laneVal (c.mapVals e.2.map) l).toNat))
  let len := 0x3A80 + 8 * pend.length + 512 * names.length
  leBytes 4 len ++ leBytes 4 (s.gstatus g).toNat ++ leBytes 4 G.id.bindex ++ leBytes 4 (s.gallot g).toNat ++
    leBytes 4 G.regs.gflags.toNat ++ leBytes 4 G.regs.gwarn.toNat ++ leBytes 4 G.regs.phase.toNat ++ leBytes 4 pend.length ++
    (List.range 16).flatMap (fun i => leBytes 4 (s.kregWord G.id.block i)) ++ List.replicate 32 0 ++
    (List.range 128).flatMap G.threadImage ++
    (List.range 128).flatMap (fun i => leBytes 4 ((tget G.scal i).getD 0).toNat) ++
    (List.range 512).flatMap (s.mapImage g) ++ pend.flatten ++ contents

/-- The resident groups of a partition in slot order, the Keep's last. -/
def State.partGroups (s : State) (p : Nat) : List (Nat × Group) :=
  (List.range 25).flatMap (fun k => s.groups.filter (fun e => e.2.id.part = p && e.2.id.slot = k &&
    decide (e.2.run.place ≠ .stowed) && decide (e.2.run.place ≠ .gone)))

/-- The partition section (R337). The Keep's group belongs to the active set (R86). -/
def State.partSection (s : State) (p : Nat) : List Byte :=
  let gs := s.partGroups p
  let bits (q : Group → Bool) : Nat := ((gs.filter (fun e => q e.2)).map (fun e => 2 ^ e.2.id.slot)).sum
  let latch (i : Nat) : Latch := (tget (s.part p).latches i).getD ⟨none, [], false⟩
  leBytes 4 (bits (fun g => decide (g.run.place = .active) || decide (g.run.place = .keep))) ++ leBytes 4 (bits (fun _ => true)) ++
    (List.range 4).flatMap (fun i => match (latch i).owner with
      | some b => leBytes 4 ((s.block b).id.index % 2 ^ 24)
      | none => leBytes 4 (2 ^ 31)) ++
    (List.range 4).flatMap (fun i => match (latch i).owner with
      | some b => leBytes 8 (s.launch (s.block b).id.launch).bundle.addr.toNat
      | none => leBytes 8 0) ++
    leBytes 8 0 ++ (List.range 4).flatMap (fun i => (List.range 4096).map (fun k => (latch i).bytes.getD k 0))

/-- WHERE of a partition (R285). -/
def whereOf (p : Nat) : Nat := p % 4 + 4 * (p / 4 % 16) + 64 * (p / 64)

/-- The body of a dump. -/
def State.dumpBody (s : State) (p : Nat) : List Byte :=
  s.partSection p ++ (s.partGroups p).flatMap (fun e => s.groupSection e.1)

/-- The header of a dump (R285). -/
def dumpHeader (flags need written off time region where_ size : Nat) : List Byte :=
  leBytes 4 1 ++ leBytes 4 flags ++ leBytes 8 need ++ leBytes 8 written ++ leBytes 8 off ++ leBytes 8 time ++
    leBytes 4 region ++ leBytes 4 where_ ++ leBytes 8 size ++ leBytes 8 0

/-! ### PSTOP and DUMP_WRITE -/

/-- The engine operations of a partition that a stop finds not yet executing are retracted, and issued again when the groups
go on (R57, R337). -/
def State.stopEngine (s : State) (p : Nat) : State :=
  foldS ((s.mats.filter (fun e => decide (s.matPart e.2 = p) && s.haltsAt e.2)).map Prod.fst) s State.retract

/-- PSTOP: the target partition is frozen and its dump is taken as it stands; the threads wait for it to be written
(R299). -/
def execPstop (f : TR) (e : Word) (s : State) : Res :=
  let i : Instr := .pstop f e
  let o := opnds i
  let b := s.begin_ i o
  let is := b.iss
  let m := is.leader
  let g := m.gid
  let p := if e.getLsbD 8 then is.part else partOfWhere (fld e 0 8)
  let size := fld e 9 23 * 4096
  let buf := b.pair g f.a.toNat
  if m.act = 0 then .next (b.advanceAll is 0)
  else if p ≠ is.part ∧ ¬ (b.regionOf g).world then
    .next (b.readFault o (kProt, 3) (BitVec.ofNat 64 (fld e 0 8)))
  else if buf.toNat % 64 ≠ 0 then .next (b.readFault o (kProt, 6) buf)
  else if (b.part p).frozen.isSome then .next s.notIssued
  else
    let (id, b) := b.waitFor is m (.dump f.d.toNat) (scalMark o.sd) b.clk.ac 0
    let body := b.dumpBody p
    let head := dumpHeader 0 (64 + body.length) 0 0 b.clk.ns (b.regionOf g).regionId (whereOf p) size
    let d : Dump := ⟨g, f.d.toNat, id, buf, size, head ++ body, 64 + body.length, 0⟩
    .next ((b.stopEngine p).modPart p (fun x => { x with frozen := some d }))

/-- A dump written piece by piece, a page each: the state, the bytes written, and the offset of the write that faulted. -/
def State.dumpPieces (s : State) (r : Region) (va : Nat) (img : List Byte) :
    List (Nat × Nat) → State × Nat × Option Nat
  | [] => (s, img.length, none)
  | p :: rest =>
    match s.vwrite deviceNode r.troot r.world p.1 ((img.drop (p.1 - va)).take p.2) with
    | .error _ => (s, p.1 - va, some (p.1 - va))
    | .ok s => s.dumpPieces r va img rest

/-- DUMP_WRITE: the header, the body, and last FLAGS, WRITTEN and FAULTOFF; then the groups go on and the status is
written (R286). -/
def execDumpWrite (part : Nat) (s : State) : Res :=
  match (s.part part).frozen with
  | none => .next s
  | some d =>
    let r := s.regionOf d.gid
    let va := d.buf.toNat
    let thaw (s : State) (v : Word) : State :=
      let s := s.modPart part (fun x => { x with frozen := none })
      match tget s.flight.waits d.wait with
      | some w => (s.waitScalar w d.dest v).endWait d.wait
      | none => s
    match s.vwrite deviceNode r.troot r.world va (d.image.take 64) with
    | .error _ => .next (thaw s 0x80000000)
    | .ok s =>
      let img := d.image.take (max 64 d.size)
      let (s, n, bad) := s.dumpPieces r va img ((pageRuns va img.length))
      let flags := if bad.isSome then 4 else if d.size < d.need then 2 else 1
      match s.vwrite deviceNode r.troot r.world (va + 16) (leBytes 8 n ++ leBytes 8 (bad.getD 0)) with
      | .error _ => .next (thaw s (BitVec.ofNat 32 flags))
      | .ok s => match s.vwrite deviceNode r.troot r.world (va + 4) (leBytes 4 flags) with
        | .error _ => .next (thaw s (BitVec.ofNat 32 flags))
        | .ok s => .next (thaw s (BitVec.ofNat 32 flags))

end Sys2Proof.Machine
end

