-- ==== Sys2Proof/Machine/SelfTest.lean ====
section
/-! DEFINITION. FTEST (R302, R326, R327) and records of faults that no launch raised. -/
namespace Sys2Proof.Machine

/-- A record of a fault that no work of a launch met, in a fault domain of its own (R162, R327). -/
def State.formFor (s : State) (cause : Cause) (origin : Origin) (r : Region) (depth : Nat) (dom : Domain) (parent bundle : Wide)
    (addr : Wide) (opval : List Wide) : Nat × State :=
  let (id, s) := s.freshId
  let (q, s) := s.freshSeq
  let x : FRec :=
    { kind := cause.1, sub := cause.2, depth := depth, origin := origin, region := r, dom := dom, launch := none
      bundle := bundle, block := 0, group := 0, pc := 0, addr := addr, opval := opval, time := s.clk.ns, parent := parent
      handle := none, keep := false, state := 0, action := 0, patched := false, binned := none, appended := false
      task := none, torn := false, deferred := false, seq := q, iseq := q, unissued := false, service := none, moved := [], went := [] }
  (id, { s with faults := { s.faults with recs := tput s.faults.recs id x } })

/-- The result code that FTEST has at once, if it runs no test (R302): BADARG, BUSY, SELF, FENCED (DEDUCED, log entry 33). -/
def State.ftestCode (s : State) (g : Nat) (a : Word) : Option Nat :=
  let c := 4 * dieOfCore (s.coreOf g) + fld a 0 4
  if fld a 0 4 ≥ 4 ∨ fld a 4 4 ≠ 0 ∨ fld a 9 23 ≠ 0 then some 5
  else if (s.cluster c).testing.isSome then some 2
  else if s.coreOf g / 4 = c then some 3
  else if (s.cluster c).fenced then some 4
  else none

/-- FTEST (R302); in a region of world N it parks with the cluster number (R287). -/
def execFtest (f : TR) (s : State) : Res :=
  let o := opnds (.ftest f)
  let s := s.begin_ (.ftest f) o
  let is := s.iss
  let m := is.leader
  let g := m.gid
  let a := s.scalar g f.a.toNat
  if m.act = 0 then .next (s.advanceAll is 0)
  else if ¬ (s.regionOf g).world then
    .next (s.readFault o (kProt, 3) (BitVec.ofNat 64 (4 * dieOfCore (s.coreOf g) + fld a 0 4)))
  else
    match s.ftestCode g a with
    | some n => .next ((s.issueScalar g f.d.toNat (BitVec.ofNat 32 n)).finish is)
    | none =>
      let c := 4 * dieOfCore (s.coreOf g) + fld a 0 4
      let (id, s) := s.waitFor is m (.ftest f.d.toNat c (a.getLsbD 8)) (scalMark o.sd) s.clk.ac 0
      .next (s.startTest c id)

/-- The error banks of the units that a test has found failing: cores, scratchpads, the weight store; of the first core where none
is named (R313, R350). -/
def failBanks (c : Nat) (cores sp : Nat → Bool) (ws : Bool) : List Nat :=
  let l := ((clusterCores c).filter cores).map coreBank ++ ((clusterCores c).filter sp).map scratchBank ++
    (if ws then [1024 * (c / 4) + 33] else [])
  if l.isEmpty then [coreBank (4 * c)] else l

/-- A FAIL: the cluster is fenced, the field record takes the failing units, which the test finds (DESIGN CHOICE, log entry 24), the
error is logged, blocks that can go nowhere are killed, and one SUSPECT record is formed for each region (R327). -/
def State.testFailed (s : State) (c ctr : Nat) : State :=
  let k := s.cluster c
  let units : BitVec 16 := ((Config.freeWord ctr 2).extractLsb' 0 4).zeroExtend 16 <<< (4 * (c % 4))
  let s := s.modCluster c (fun k => { k with testing := none, fenced := true })
  let s := s.modSpire (fun x => { x with field := tupd x.field (c / 4) (fun d => { d with
    fenced := d.fenced ||| BitVec.ofNat 4 (2 ^ (c % 4))
    cores := d.cores ||| units
    sprep := (clusterCores c).foldl (fun t i => tput t (i % 16) (tgetD t (i % 16) ||| Config.freeWord ctr (3 + i))) d.sprep
    wsrep := d.wsrep ||| Config.freeWord ctr 1
    failTime := s.time }) })
  let s := foldS (failBanks c (fun i => units.getLsbD (i % 16)) (fun i => decide (Config.freeWord ctr (3 + i) ≠ 0))
    (decide (Config.freeWord ctr 1 ≠ 0))) s (fun s b => s.logBank b true ⟨0, bankInfo tyTest 0, 0⟩)
  let s := foldS (s.blocksOn c) s (fun s b => if (s.placesOf b).any (fun p => decide (p.headD 0 / 4 ≠ c)) then s
    else s.killWhole b)
  foldS k.suspects s (fun s e => (s.formFor (kSuspect, 0) (.region c) e.2 1 e.2.dom 0 0 (BitVec.ofNat 64 k.pass)
    [s.time, BitVec.ofNat 64 c]).2)

/-- A PASS: the suspect set is empty, and the cluster is placed again unless KEEPFENCE says otherwise (R302, R326). -/
def State.testPassed (s : State) (c : Nat) (keep : Bool) : State :=
  s.modCluster c (fun k => { k with testing := none, out := keep, suspects := [], pass := s.clk.ns })

/-- The test of a cluster ends, once its blocks are stowed: whether it passes, the class of the failing unit and the
duration are the device's (DESIGN CHOICE, log entry 24). The result word, and the state. -/
def State.endTest (s : State) (c : Nat) (keep : Bool) : Word × State :=
  let s := foldS (s.blocksOn c) s State.stowWhole
  let (ctr, s) := s.freshFree
  let pass := Config.freeChoice ctr 0
  let word := BitVec.ofNat 32 ((if pass then 0 else 1) + 256 * fld (Config.freeWord ctr 0) 0 8 +
    65536 * (fld (Config.freeWord ctr 0) 8 16 % 5001))
  (word, if pass then s.testPassed c keep else s.testFailed c ctr)

/-- Whether every block on a cluster is stowed. -/
def State.clusterStowed (s : State) (c : Nat) : Bool :=
  (s.blocksOn c).all (fun b => decide ((s.block b).run = BlockRun.stowed))

/-- FTEST_COMPLETE: the test ends, and the FTEST that waits for it, if the Spire has not run it by itself (R326), writes
its word. -/
def execFtestComplete (wait : Nat) (s : State) : Res :=
  match tget s.flight.waits wait with
  | some w => match w.kind with
    | .ftest d c keep =>
      if (s.cluster c).testing = some wait ∧ s.clusterStowed c then
        .next (((s.endTest c keep).2.waitScalar w d (s.endTest c keep).1).endWait wait)
      else .next s
    | _ => .next s
  | none => match s.spire.clusters.find? (fun e => decide (e.2.testing = some wait)) with
    | some (c, _) => .next (if s.clusterStowed c then (s.endTest c false).2 else s)
    | none => .next s

end Sys2Proof.Machine
end

