-- ==== Sys2Proof/Machine/Admit.lean ====
section
/-! DEFINITION. Regions and their resolution (R10 to R14), bundle descriptors (R15 to R19), spill and stow areas (R20,
R44, R278), the demand test (R41) and the admission of a LAUNCH (R21, R42, R54, R55, R273). -/
namespace Sys2Proof.Machine

/-! ### What the Belfry reads for a packet (R34) -/

/-- The address space and the world in which the Belfry acts for a packet.
DEDUCED, log entry 34. -/
structure Space where
  troot : Nat
  world : Bool
  deriving DecidableEq, Repr, Inhabited

/-- The status that an access failure gives a packet: WORLD where it names S memory from an N queue, else FAULTED
(R29, R34, DEDUCED, log entry 34). -/
def failStatus (c : Cause) : Nat := if c = (kProt, 3) then 7 else 10

/-- Bytes that the Belfry reads, or the status of the failure; poison is one. DESIGN CHOICE, log entry 47. -/
def State.belfryRead (s : State) (sp : Space) (va n : Nat) : Except Nat (List Byte) :=
  match s.vread [] sp.troot sp.world va n with
  | .error e => .error (failStatus e.1)
  | .ok b => .ok b

/-- Bytes that the Belfry writes at the device node, or the status of the failure. -/
def State.belfryWrite (s : State) (sp : Space) (va : Nat) (b : List Byte) : Except Nat State :=
  match s.vwrite deviceNode sp.troot sp.world va b with
  | .error e => .error (failStatus e.1)
  | .ok s => .ok s

/-! ### Regions (R10 to R14) -/

/-- An RCB with its physical address. -/
abbrev Rcb := Nat × List Byte

/-- The chain of RCBs from the one named up to the root; a ninth gives BADDESC (R13). -/
def State.readChain (s : State) (sp : Space) : Nat → Nat → Except Nat (List Rcb)
  | 0, _ => .error 6
  | n + 1, va =>
    if va % 256 ≠ 0 then .error 6
    else match s.xlate sp.troot .load sp.world va, s.belfryRead sp va 256 with
      | .error c, _ => .error (failStatus c)
      | _, .error e => .error e
      | .ok pa, .ok b =>
        if leAt b 0 8 = 0 then .ok [(pa, b)]
        else match s.readChain sp n (leAt b 0 8) with
          | .error e => .error e
          | .ok l => .ok ((pa, b) :: l)

/-- Whether an RCB inherits the fields of a bit (R12). -/
def Rcb.inherits (r : Rcb) (bit : Nat) : Bool := (leAt r.2 8 8).testBit bit

/-- The chain from the RCB whose own copy of the fields of a bit is in force (R12). -/
def ownerOf (bit : Nat) (chain : List Rcb) : List Rcb := chain.dropWhile (fun r => r.inherits bit)

/-- A field in force (R12). -/
def effField (chain : List Rcb) (bit off n : Nat) : Nat :=
  match ownerOf bit chain with
  | r :: _ => leAt r.2 off n
  | [] => 0

/-- CTRL as its own RCB holds it (R11). -/
def Rcb.ctrl (r : Rcb) : Nat := leAt r.2 0x20 4

/-- The effective WORLD of a chain. -/
def effWorld (chain : List Rcb) : Bool := (effField chain 2 0x20 4).testBit 3

/-- Whether reserved bytes are zero. -/
def zeroBytes (b : List Byte) (o n : Nat) : Bool := ((b.drop o).take n).all (fun x => decide (x = 0))

/-- The checks of R13 on one RCB: reserved fields always, each other field where its own copy is used. Any HQCHIP passes, 0 too, which
is no chip's identifier (R320; DESIGN CHOICE, log entry 53). -/
def Rcb.ok (r : Rcb) : Bool :=
  let b := r.2
  zeroBytes b 0x26 2 && zeroBytes b 0x32 2 && zeroBytes b 0x4C 52 && zeroBytes b 0xBC 4 && zeroBytes b 0xD4 44 &&
  decide (r.ctrl < 2 ^ 13) && decide (leAt b 8 8 < 2 ^ 13) &&
  (r.inherits 0 || (decide (10000 ≤ leAt b 0x18 8) && decide (leAt b 0x18 8 ≤ 10000000000) &&
    decide (leAt b 0xB0 8 ≤ leAt b 0x10 8))) &&
  (r.inherits 1 || decide (r.ctrl % 8 ≠ 7)) &&
  (r.inherits 3 || decide (leAt b 0x28 8 % 4096 = 0)) &&
  (r.inherits 4 || (decide (16 ≤ leAt b 0x30 2) && decide (leAt b 0x30 2 ≤ 512))) &&
  (r.inherits 11 || (decide (leAt b 0x38 8 % 65536 = 0) && decide (leAt b 0x40 8 % 65536 = 0))) &&
  (r.inherits 12 || (decide (leAt b 0x80 1 ≤ 6) && decide (1 ≤ leAt b 0x81 1) && decide (leAt b 0x81 1 ≤ 4) &&
    decide (1 ≤ leAt b 0x84 4) && decide (leAt b 0x98 8 % 128 = 0) && decide (leAt b 0xA0 8 % 64 = 0) &&
    decide (leAt b 0xA8 8 ≠ 0) && decide (leAt b 0xA8 8 % 64 = 0) && decide (1000 ≤ leAt b 0xB8 4)))

/-- The checks of R13 on a chain: each RCB, a root that inherits nothing, and no S beneath an N parent. -/
def chainOk : List Rcb → Bool
  | [] => true
  | [r] => r.ok && decide (leAt r.2 8 8 = 0)
  | r :: p :: rest => r.ok && (r.inherits 2 || !r.ctrl.testBit 3 || effWorld (p :: rest)) && chainOk (p :: rest)

/-- The RCBs of a chain that have servers of their own, the serving one first (R14). -/
def serverRcbs (chain : List Rcb) : List Rcb := chain.filter (fun r => !r.inherits 0)

/-- The effective fault domain of a chain (R10, R12, R279). -/
def domainOf (chain : List Rcb) : Domain :=
  let up := ownerOf 12 chain
  let b := (up.headD (0, [])).2
  { rcb := (up.headD (0, [])).1, ftclass := leAt b 0x80 1, maxDepth := leAt b 0x81 1, hqChip := leAt b 0x82 2
    pkCount := leAt b 0x84 4, hbundle := BitVec.ofNat 64 (leAt b 0x88 8), hqueue := leAt b 0x90 8, pkArea := leAt b 0x98 8
    fbtile := BitVec.ofNat 64 (leAt b 0xA0 8), termrec := BitVec.ofNat 64 (leAt b 0xA8 8), fdeadline := leAt b 0xB8 4
    regionId := leAt b 0x48 4, asid := effField up 3 0x24 2, troot := effField up 3 0x28 8, world := effWorld up, peer := none }

/-- The effective region of a chain (R13, R14). -/
def regionOfChain (chain : List Rcb) : Region :=
  let bit (i b : Nat) : Bool := (effField chain i 0x20 4).testBit b
  { rcb := (chain.headD (0, [])).1, regionId := leAt (chain.headD (0, [])).2 0x48 4
    servers := (serverRcbs chain).map Prod.fst, cls := effField chain 1 0x20 4 % 8, world := effWorld chain
    asid := effField chain 3 0x24 2, troot := effField chain 3 0x28 8, defAllot := effField chain 4 0x30 2
    defScratch := effField chain 5 0x34 4
    chk := BitVec.ofNat 3 ((if bit 6 4 then 1 else 0) + (if bit 7 5 then 2 else 0) + (if bit 8 6 then 4 else 0))
    ftz := bit 9 7, trapen := BitVec.ofNat 5 (effField chain 10 0x20 4 / 256)
    spillBase := effField chain 11 0x38 8, spillSize := effField chain 11 0x40 8, dom := domainOf chain }

/-- A region named by a packet or a descriptor: its chain and its effective fields, or the status that refuses it
(R13). -/
def State.resolve (s : State) (sp : Space) (va : Nat) : Except Nat (List Rcb × Region) :=
  match s.readChain sp 8 va with
  | .error e => .error e
  | .ok chain =>
    if ¬ chainOk chain then .error 6
    else
      let r := regionOfChain chain
      if r.world ∧ ¬ sp.world then .error 7 else .ok (chain, r)

/-! ### Budget servers (R14, R46) -/

/-- The bundles and copies that are charged to a server (R14). A fault task is charged to the servers of the region that
it serves (R48). -/
def State.chargedTo (s : State) (server : Nat) : Bool :=
  s.belfry.launches.any (fun e => e.2.servers.contains server) ||
  s.copies.copies.any (fun e => e.2.id.region.servers.contains server)

/-- A server as an admission loads it (R14). -/
def loadServer (r : Rcb) (now : Nat) : Server :=
  { budget := leAt r.2 0x10 8, period := leAt r.2 0x18 8, freserve := leAt r.2 0xB0 8, pstart := now, ordAc := 0, ordNs := 0
    faultAc := 0, faultNs := 0, ordOut := false, faultOut := decide (leAt r.2 0xB0 8 = 0), nextWrite := now + 10000 }

/-- Core-ns of a count of partition-ac (R45). -/
def coreNs (ac : Nat) : Nat := ac * 5 / 72

/-- USED of a server (R46). -/
def Server.used (v : Server) : Nat := coreNs (v.ordAc + v.faultAc) + v.ordNs + v.faultNs

/-- The servers that an admission charges, as they stand or as this admission loads them (R14). -/
def State.serversFor (s : State) (chain : List Rcb) : List (Nat × Server) :=
  (serverRcbs chain).map (fun r => (r.1, match tget s.belfry.servers r.1 with
    | some v => if s.chargedTo r.1 then v else loadServer r s.clk.ns
    | none => loadServer r s.clk.ns))

/-- Whether a region has admitted work. -/
def State.hasWork (s : State) (rcb : Nat) : Bool :=
  s.belfry.launches.any (fun e => decide (e.2.region.rcb = rcb)) || s.copies.copies.any (fun e => decide (e.2.id.region.rcb = rcb))

/-- The device-owned words: USED and PSTART of a server go to its RCB, and with them the OVERRUNS of every region with
admitted work to its own, so that what software has stored there is lost (R10, R46). -/
def State.writeUsed (s : State) (rcb : Nat) (v : Server) : State :=
  foldS (s.belfry.overruns.filter (fun e => s.hasWork e.1)) (s.ownWrite (rcb + 0xC0) (leBytes 8 v.used ++ leBytes 8 v.pstart))
    (fun s e => s.ownWrite (e.1 + 0xD0) (leBytes 4 e.2))

/-- Some servers of an admission are loaded where R14 asks for it. -/
def State.loadServers (s : State) (rcbs : List Rcb) : State :=
  let new := rcbs.filter (fun r => (tget s.belfry.servers r.1).isNone || !s.chargedTo r.1)
  foldS new s (fun s r =>
    let v := loadServer r s.clk.ns
    ({ s with belfry := { s.belfry with servers := tput s.belfry.servers r.1 v } } : State).writeUsed r.1 v)

/-- An RCB as it stands in memory; none where a grain of it is poisoned or quarantined (R169, R170). -/
def State.rcbAt (s : State) (rcb : Nat) : Option Rcb := (s.ownRead rcb 256).map (fun b => (rcb, b))

/-- The OVERRUNS count of a region, which the Belfry holds from the first admission of its work on. -/
def State.holdOverruns (s : State) (rcb : Nat) : State :=
  if s.hasWork rcb then s
  else { s with belfry := { s.belfry with overruns := tput s.belfry.overruns rcb ((s.rcbAt rcb).elim 0 (fun r => leAt r.2 0xD0 4)) } }

/-- OVERRUNS of an RCB is incremented, saturating (R10, R47). -/
def State.countOverrun (s : State) (rcb : Nat) : State :=
  let n := satAdd32 (tgetD s.belfry.overruns rcb) 1
  ({ s with belfry := { s.belfry with overruns := tput s.belfry.overruns rcb n } } : State).ownWrite (rcb + 0xD0) (leBytes 4 n)

/-! ### The demand test (R41) -/

/-- An item of the demand test: its class, deadline, rem, and its share of the new item's placement set. -/
structure Demand where
  cls : Nat
  deadline : Nat
  rem : Int
  share : Int
  servers : List Nat
  meets : Bool
  deriving DecidableEq, Repr, Inhabited

/-- The least integer not below a quotient. -/
def ceilDiv (x : Int) (y : Nat) : Int := -((-x) / (y : Int))

/-- share(j) for a set of `p` members of which `m` are common (R41). -/
def shareOf (rem : Int) (m p : Nat) : Int := ceilDiv ((rem + 400) * m) p

/-- The admitted bundles as items; fault tasks stand in the test through FRESERVE (R48, DEDUCED, log entry 34). -/
def State.launchDemands (s : State) (place : List Nat) : List Demand :=
  (s.belfry.launches.filter (fun e => e.2.fault.isNone)).map (fun e =>
    let p := s.placeSet e.2
    let m := (p.filter place.contains).length
    let rem : Int := (e.2.budget : Int) - coreNs e.2.charge
    ⟨if e.2.demoted then 0 else e.2.cls, e.2.deadline, rem, shareOf rem m p.length, e.2.region.servers, decide (m > 0)⟩)

/-- The admitted copies as items; their channels are those of one die (R40, R161). -/
def State.copyDemands (s : State) (die : Option Nat) : List Demand :=
  s.copies.copies.map (fun e =>
    let rem : Int := (e.2.id.budget : Int) - e.2.id.charge
    ⟨if e.2.id.demoted then 0 else e.2.id.cls, e.2.id.deadline, rem, rem + 400, e.2.id.region.servers,
      decide (die = some e.2.die)⟩)

/-- The server loop of R41 for one server: whether some deadline lacks supply. An item of class 0 has no deadline, and adds to the need
at none (R43). -/
def serverShort (id : Nat) (v : Server) (items : List Demand) : Bool :=
  let b := items.filter (fun d => d.servers.contains id && decide (d.cls ≥ 1))
  b.any (fun x =>
    let need := ((b.filter (fun j => decide (j.deadline ≤ x.deadline))).map Demand.rem).sum
    let k := ceilDiv ((x.deadline : Int) - v.pstart) v.period - 1
    let base : Int := (v.budget : Int) - v.freserve
    let supply := max 0 (base - v.used) + base * k
    decide (need > supply))

/-- The class loop of R41: whether some deadline of a class lacks capacity. -/
def capacityShort (items : List Demand) (size t0 : Nat) (reserve : Nat → Int) (cls : Nat) : Bool :=
  (items.filter (fun d => decide (d.cls = cls))).any (fun x =>
    let dem := ((items.filter (fun j => decide (j.cls > cls) ||
      (decide (j.cls = cls) && decide (j.deadline ≤ x.deadline)))).map Demand.share).sum
    decide (dem > (size : Int) * ((x.deadline : Int) - t0) - reserve x.deadline))

/-- The number of admitted, unretired items (R40). -/
def State.admittedCount (s : State) : Nat := s.belfry.launches.length + s.copies.copies.length

/-- The demand test: whether an item of class `cls` is admitted (R40, R41). `size` is the size of its placement set, `die` is
given for a copy. -/
def State.demandTest (s : State) (chain : List Rcb) (cls deadline budget size : Nat) (place : List Nat)
    (die : Option Nat) : Bool :=
  if s.admittedCount ≥ 16384 then false
  else if cls = 0 then true
  else if deadline ≤ s.clk.ns then false
  else
    let servers := s.serversFor chain
    let n : Demand := ⟨cls, deadline, budget, budget + 400, servers.map Prod.fst, true⟩
    let items := n :: (s.launchDemands place ++ s.copyDemands die)
    let a := items.filter (fun d => d.meets && decide (d.cls ≥ 1))
    let serving := (a.filterMap (fun d => d.servers.head?)).eraseDups
    let reserve (d : Nat) : Int :=
      if die.isSome then 0
      else (serving.map (fun v =>
        let x := ((servers.find? (fun e => decide (e.1 = v))).map Prod.snd).getD (tgetD s.belfry.servers v)
        (x.freserve : Int) * ceilDiv ((d : Int) - s.clk.ns) x.period)).sum
    !(servers.any (fun e => serverShort e.1 e.2 items)) &&
      !((List.range cls).any (fun i => capacityShort a size s.clk.ns reserve (i + 1)))

/-! ### Bundle descriptors (R15 to R19) -/

/-- A sub-launch entry (R16); ALLOT 0 and SCRATCH 0xFFFF_FFFF take the region's defaults. -/
def subOf (b : List Byte) (r : Region) (j : Nat) : SubLaunch :=
  let o := 0x80 + 32 * j
  let allot := leAt b (o + 10) 2
  let scratch := leAt b (o + 12) 4
  { entry := BitVec.ofNat 64 (leAt b o 8), role := leAt b (o + 8) 1, groups := leAt b (o + 9) 1
    allot := if allot = 0 then r.defAllot else allot
    scratch := if scratch = 0xFFFFFFFF then r.defScratch else scratch, stride := leAt b (o + 16) 2 }

/-- The checks of R16 on a sub-launch entry. -/
def subOk (b : List Byte) (j : Nat) : Bool :=
  let o := 0x80 + 32 * j
  let allot := leAt b (o + 10) 2
  let stride := leAt b (o + 16) 2
  [4, 8, 12].contains (leAt b o 8 % 16) && decide (leAt b (o + 8) 1 ≤ 3) && decide (1 ≤ leAt b (o + 9) 1) &&
    decide (leAt b (o + 9) 1 ≤ 64) && (decide (allot = 0) || (decide (16 ≤ allot) && decide (allot ≤ 512))) &&
    decide (stride % 16 = 0) && decide (stride ≤ 384) && zeroBytes b (o + 18) 14

/-- The bundle that a descriptor describes. -/
def bundleOf (va : Nat) (b : List Byte) (r : Region) : Bundle :=
  { addr := BitVec.ofNat 64 va, rcb := BitVec.ofNat 64 (leAt b 0 8), blocks := leAt b 8 4, clmask := leAt b 14 2
    deadline := leAt b 0x10 8, budget := leAt b 0x18 8, args := BitVec.ofNat 64 (leAt b 0x20 8)
    phaseWord := BitVec.ofNat 64 (leAt b 0x28 8)
    variants := (List.range (leAt b 13 1)).map (fun v => (List.range 4).map (fun d => leAt b (0x30 + 8 * v + 2 * d) 2))
    retireRec := BitVec.ofNat 64 (leAt b 0x50 8)
    subs := (List.range (leAt b 12 1)).map (subOf b r) }

/-- G of a bundle (R18). -/
def Bundle.g (b : Bundle) : Nat := (b.subs.map (fun x => x.groups)).sum
/-- T of a bundle (R18). -/
def Bundle.t (b : Bundle) : Nat := ((b.subs.map (fun x => x.scratch)).sum + 255) / 256 * 256 + 256

/-- The checks of R19. -/
def State.bundleOk (s : State) (raw : List Byte) (b : Bundle) : Bool :=
  let nsub := leAt raw 12 1
  let nvar := leAt raw 13 1
  let die (d : Nat) : Bool := (List.range 16).any (fun i => s.coreOk (16 * d + i)) &&
    (List.range 4).any (fun c => b.permits (4 * d + c))
  decide (leAt raw 0 8 % 256 = 0) && decide (b.blocks < 2 ^ 24) && decide (1 ≤ nsub) && decide (nsub ≤ 4) && decide (1 ≤ nvar) &&
    decide (nvar ≤ 4) && decide (b.phaseWord.toNat % 8 = 0) && decide (b.retireRec.toNat % 64 = 0) && decide (b.retireRec ≠ 0) &&
    zeroBytes raw 0x58 40 && (List.range nsub).all (subOk raw) && decide (b.g ≤ 64) && decide (b.t ≤ 1984 * 1024) &&
    b.variants.all (fun v => decide (v.sum ≠ 0) && v.zipIdx.all (fun e => decide (e.1 = 0) || die e.2))

/-- C of R20: how many blocks the permitted clusters can hold at once, by their enabled partitions. -/
def State.capacity (s : State) (b : Bundle) : Nat :=
  let slots (c : Nat) : Nat := ((partsOf [c]).map (fun p => if s.partOk p then 24 else 0)).sum
  let clusters := (List.range 16).filter b.permits
  if b.t ≤ coreScratch then (clusters.map (fun k => ((clusterCores k).map (fun c => slots c / b.g)).sum)).sum
  else (clusters.map (fun k => ((clusterCores k).map slots).sum / b.g)).sum

/-- Bytes that admitted bundles hold of a region's spill pool; regions of the same base and address space have one pool.
DESIGN CHOICE, log entry 48. -/
def State.poolUsed (s : State) (r : Region) : Nat :=
  ((s.belfry.launches.filter (fun e => decide (e.2.region.spillBase = r.spillBase) && decide (e.2.region.troot = r.troot) &&
    e.2.keepReserve.isNone)).map (fun e => e.2.reserved)).sum

/-- The division of `n` blocks among the dies by a variant's ratios (R23): for each die with a block, the first index and
the end. -/
def divideBlocks (n : Nat) (ratios : List Nat) : Tab (Nat × Nat) :=
  let sum := ratios.sum
  let base := (List.range 4).map (fun d => n * ratios.getD d 0 / sum)
  let left := n - base.sum
  let users := (List.range 4).filter (fun d => decide (ratios.getD d 0 > 0))
  let count (d : Nat) : Nat := base.getD d 0 + (if (users.take left).contains d then 1 else 0)
  (List.range 4).filterMap (fun d =>
    let lo := ((List.range d).map count).sum
    if count d = 0 then none else some (d, (lo, lo + count d)))

/-- The current variant of a sequence of phases (R54). -/
def State.variantOf (s : State) (rcb : Nat) (bundle : Wide) : Nat :=
  ((s.belfry.variants.find? (fun v => decide (v.rcb = rcb) && decide (v.bundle = bundle))).map VariantRow.variant).getD 0

/-! ### Admission of a LAUNCH (R21, R42) -/

/-- What a LAUNCH packet asks for (R33): its queue and that queue's header, slot, completion word, descriptor, and its own values where they are
not 0. -/
structure LaunchAsk where
  queue : Nat
  header : Nat
  slot : Nat
  compl : Wide
  bundle : Nat
  deadline : Nat
  budget : Nat
  args : Wide
  deriving DecidableEq, Repr, Inhabited

/-- A launch enters the table of admitted work. A sequence whose current variant the descriptor, as now read, no longer has takes its
last one (DESIGN CHOICE, log entry 53). -/
def State.addLaunch (s : State) (a : LaunchAsk) (sp : Space) (r : Region) (b : Bundle) (blocks k : Nat) (fault : Option FaultTask)
    (cls deadline budget reserved : Nat) (low : Bool) (keepReserve : Option Nat) : State :=
  let v := min (s.variantOf r.rcb b.addr) (b.variants.length - 1)
  let (id, s) := (s.holdOverruns r.rcb).freshId
  let n := s.belfry.arrival + 1
  let l : Launch :=
    { seq := n, queue := a.queue, slot := a.slot, compl := a.compl, qtroot := sp.troot, qworld := sp.world, qheader := a.header, region := r
      bundle := if a.args = 0 then b else { b with args := a.args }
      cls := cls, deadline := deadline, budget := budget, t := b.t, g := b.g, k := k, variant := v
      waitBlocks := divideBlocks blocks (b.variants.getD v []), started := 0, exited := 0, charge := 0, demoted := false
      low := low, killed := false, fault := fault, admitted := s.clk.ns, first := none, dieFirst := [], dieLast := []
      recs := 0, lost := 0, reserved := reserved, keepReserve := keepReserve }
  let s := { s with belfry := { s.belfry with arrival := n, launches := tput s.belfry.launches id l } }
  s.trace1 1 srcHub r.regionId (leBytes 8 b.addr.toNat ++ leBytes 4 (1 + 256 * v + 2 ^ 31) ++ leBytes 4 0)

/-- The checks of R21 in their order: the admission status and the state. -/
def State.admitLaunch (s : State) (sp : Space) (a : LaunchAsk) : Nat × State :=
  match s.belfryRead sp a.bundle 256 with
  | .error e => (e, s)
  | .ok raw =>
    match s.resolve sp (leAt raw 0 8) with
    | .error e => (e, s)
    | .ok (chain, r) =>
      let b := bundleOf a.bundle raw r
      if ¬ s.bundleOk raw b then (6, s)
      else
        let k := min b.blocks (s.capacity b)
        let area := ((b.subs.map (fun x => x.groups * x.allot)).sum * 512 + (b.t + 6144 * b.g)) * k
        if s.poolUsed r + area > r.spillSize then (8, s)
        else
          let deadline := if a.deadline = 0 then b.deadline else a.deadline
          let budget := if a.budget = 0 then b.budget else a.budget
          let place := s.placeCores b false
          if s.admittedCount ≥ 16384 ∨ (b.blocks ≠ 0 ∧ ¬ s.demandTest chain r.cls deadline budget place.length place none) then (5, s)
          else
            let low := (s.serversFor chain).any (fun e => e.2.ordOut)
            (1, (s.loadServers (serverRcbs chain)).addLaunch a sp r b b.blocks k none r.cls deadline budget area low none)

/-- Bytes of each die's Keep area that fault tasks hold (R278). -/
def State.keepUsed (s : State) (die : Nat) : Nat :=
  ((s.belfry.launches.filter (fun e => decide (e.2.keepReserve = some die))).map (fun e => e.2.reserved)).sum

/-- The areas of a fault task (R278): what it reserves, and the die of the Keep area if they come from there. -/
def State.taskAreas (s : State) (r : Region) (area die : Nat) : Nat × Option Nat :=
  if s.poolUsed r + area ≤ r.spillSize then (area, none)
  else if s.keepUsed die + area ≤ 256 * 1024 * 1024 then (area, some die)
  else (0, none)

/-- A LAUNCH with FAULT: no demand test, one block, class, deadline and budget by R48. The servers of the faulting region
are loaded as by any admission (R14); where one of their RCBs cannot be read, the packet ends FAULTED (R34). -/
def State.admitTask (s : State) (sp : Space) (a : LaunchAsk) (f : FaultTask) (dom : Domain) : Nat × State :=
  match s.belfryRead sp a.bundle 256 with
  | .error e => (e, s)
  | .ok raw =>
    match s.resolve sp (leAt raw 0 8) with
    | .error e => (e, s)
    | .ok (_, r) =>
      let b := bundleOf a.bundle raw r
      if ¬ s.bundleOk raw b then (6, s)
      else
        let area := ((b.subs.map (fun x => x.groups * x.allot)).sum * 512 + (b.t + 6144 * b.g))
        let v := min (s.variantOf r.rcb b.addr) (b.variants.length - 1)
        let die := ((divideBlocks 1 (b.variants.getD v [])).head?.map Prod.fst).getD 0
        let (reserved, keep) := s.taskAreas r area die
        let budget := if a.budget ≠ 0 then a.budget else if b.budget ≠ 0 then b.budget else dom.fdeadline
        let rcbs := f.origin.servers.filterMap s.rcbAt
        let low (s : State) : Bool := (f.origin.servers.head?.map (fun v => (tgetD s.belfry.servers v).faultOut)).getD false
        if rcbs.length ≠ f.origin.servers.length then (10, s)
        else let s := s.loadServers rcbs
        (1, s.addLaunch a sp r b 1 1 (some f) dom.ftclass a.deadline budget reserved (low s) keep)

end Sys2Proof.Machine
end

