-- ==== Sys2Proof/Machine/Routes.lean ====
section
/-! DEFINITION. The link-state table and the routes computed from it (R322, R323). -/
namespace Sys2Proof.Machine

/-- The entry of a chip's port in the table. -/
def linkEntry (t : Tab LinkRow) (chip port : Nat) : Option LinkEntry := (tget t chip).bind (fun r => r.links[port]?)

/-- Whether the link at a chip's port is alive: that chip reports it up, and the other end does not report it dead
(R322). -/
def linkAlive (t : Tab LinkRow) (chip port : Nat) : Bool :=
  match linkEntry t chip port with
  | none => false
  | some e => e.up && (match linkEntry t e.peer e.port with
    | some o => o.up
    | none => true)

/-- The chips that a chip's links reach, each once, lowest first. -/
def linkPeers (t : Tab LinkRow) (chip : Nat) : List Nat :=
  (List.range 16).foldl (fun l p => match linkEntry t chip p with
    | some e => if linkAlive t chip p && !l.contains e.peer then l.takeWhile (· < e.peer) ++ [e.peer] ++ l.dropWhile (· < e.peer)
      else l
    | none => l) []

/-- One round of the search: chips not seen before, in the order of their least paths, each with its first hop. -/
def nextLayer (t : Tab LinkRow) (seen : List (Nat × Nat)) (layer : List (Nat × Nat)) : List (Nat × Nat) :=
  (layer.flatMap (fun e => (linkPeers t e.1).map (fun p => (p, e.2)))).foldl
    (fun l x => if decide (x.1 = Config.chipId) || seen.any (fun y => decide (y.1 = x.1)) || l.any (fun y => decide (y.1 = x.1)) then l
      else l ++ [x]) []

/-- The search by layers, of at most `fuel` of them. -/
def searchRoutes (t : Tab LinkRow) : Nat → List (Nat × Nat) → List (Nat × Nat) → List (Nat × Nat)
  | 0, seen, _ => seen
  | n + 1, seen, layer =>
    if layer.isEmpty then seen
    else
      let l := nextLayer t (seen ++ layer) layer
      searchRoutes t n (seen ++ layer) l

/-- Every chip that the table reaches, with the first hop of its route: a shortest path, and of those the one whose
chips are lowest (R323). -/
def routesOf (t : Tab LinkRow) : List (Nat × Nat) :=
  searchRoutes t (t.length + 2) [] ((linkPeers t Config.chipId).map (fun p => (p, p)))

/-- Whether the table holds a route to a chip. -/
def reaches (t : Tab LinkRow) (chip : Nat) : Bool := (routesOf t).any (fun e => decide (e.1 = chip))

/-- The ports of this chip whose links to the next hop toward a chip are alive. -/
def State.hopPorts (s : State) (chip : Nat) : List Nat :=
  match tget s.net.routes chip with
  | none => []
  | some h => (List.range 16).filter (fun p => linkAlive s.net.table Config.chipId p &&
      (match linkEntry s.net.table Config.chipId p with
      | some e => decide (e.peer = h)
      | none => false))

/-- Whether the next hop toward a chip crosses a dead element: no link of this chip to it is alive (R323). -/
def State.hopDead (s : State) (chip : Nat) : Bool := (s.hopPorts chip).isEmpty

/-- Whether a packet of a traffic class toward a chip can leave this chip: a link to its next hop is alive and does not pause the class
(R316, R323). -/
def State.canLeave (s : State) (chip cls : Nat) : Bool :=
  (s.hopPorts chip).any (fun p => !(tgetD s.net.ports p).paused.getLsbD cls)

/-- A delivery context to a chip on a traffic class is opened, where one of the package's 65,536 is free (R316). -/
def State.openContext (s : State) (chip cls : Nat) : State :=
  if s.net.contexts.contains (chip, cls) ∨ s.net.contexts.length ≥ 65536 then s
  else { s with net := { s.net with contexts := s.net.contexts ++ [(chip, cls)] } }

end Sys2Proof.Machine
end

