-- ==== Sys2Proof/Machine/Copies.lean ====
section
/-! DEFINITION. Copies: their image (R158 to R160), segments and the write pointer (R162, R163), transpose (R165),
chains and checksums (R166, R167), copies to and from another chip (R168), and completion (R164). -/
namespace Sys2Proof.Machine

/-! ### Messages to another chip (R34, R168, R323) -/

/-- Whether an identifier names this chip (R33). -/
def thisChip (chip : Nat) : Bool := decide (chip = 0xFFFF) || decide (chip = Config.chipId)

/-- Whether an operation toward a chip fails at once with LINKTO: no route, and no drain rounds (R323). -/
def State.unreachable (s : State) (chip : Nat) : Bool :=
  decide (s.net.round = 0) && ((tget s.net.routes chip).isNone || !reaches s.net.table chip)

/-- Whether a message waits on this chip: it cannot leave, or has no delivery context (R316, R323). -/
def State.msgWaits (s : State) (m : Msg) : Bool :=
  m.port.isNone && (!s.canLeave m.chip m.cls || !s.net.contexts.contains (m.chip, m.cls))

/-- A message is sent; its number. One that cannot leave stays queued on this chip (R316, R323). -/
def State.send (s : State) (m : Msg) : Nat × State :=
  let (id, s) := s.freshId
  let s := if m.port.isSome then s else s.openContext m.chip m.cls
  (id, { s with net := { s.net with msgs := tput s.net.msgs id { m with held := s.msgWaits m } } })

/-- The class at which a copy runs (R47). -/
def Copy.current (c : Copy) : Nat := if c.id.demoted ∨ c.id.low then 0 else c.id.cls

/-- The traffic class of a message (R317). -/
def State.trafficClass (s : State) : MsgKind → Nat
  | .keepalive | .linkState _ | .undeliverable _ => 7
  | .ptp _ => 6
  | .copyWrite c _ | .copyRead c _ =>
    let x := tget s.copies.copies c
    min ((x.map Copy.current).getD 0) 4
  | .belfry _ | .append _ | .pk _ _ | .status _ | .report _ _ => 5

/-- The UEC job identifier of a copy or a PK request: REGIONID[23:0] of its region (R329). -/
def State.jobOf (s : State) : MsgKind → Option Nat
  | .copyWrite c _ | .copyRead c _ => (tget s.copies.copies c).map (fun x => x.id.region.regionId % 2 ^ 24)
  | .pk w _ => (tget s.flight.waits w).map (fun x => (s.regionOf x.gid).regionId % 2 ^ 24)
  | .keepalive | .linkState _ | .ptp _ | .undeliverable _ | .belfry _ | .append _ | .status _ | .report _ _ => none

/-- The classes that a peer's port may pause: 6 and 7 are never paused (R316, R317). -/
def pausable : BitVec 8 := 0x3F

/-- An operation toward a chip is sent. -/
def State.post (s : State) (chip : Nat) (k : MsgKind) (addr : Wide) (runs : List (Nat × Nat)) (bytes : List Byte) (secure : Bool) :
    Nat × State :=
  s.send ⟨chip, none, k, addr, bytes, secure, false, false, runs, s.trafficClass k, s.jobOf k⟩

/-- A message is answered or given up. -/
def State.dropMsg (s : State) (id : Nat) : State := { s with net := { s.net with msgs := tdel s.net.msgs id } }

/-! ### The image -/

/-- The fields of a COPY image (R158 to R160). -/
def copyImage (b : List Byte) : CopyImage :=
  let src := leAt b 0x18 8
  let dst := leAt b 0x20 8
  let ctl := leAt b 0x28 8
  let sz := leAt b 0x30 4
  let bar := leAt b 0x38 8
  let f (x lo n : Nat) : Nat := x / 2 ^ lo % 2 ^ n
  let lg := f ctl 50 4
  { src := BitVec.ofNat 64 (f src 0 56), dst := BitVec.ofNat 64 (f dst 0 56), rchip := f src 56 8 + 256 * f dst 56 8
    rcb := f ctl 0 48 * 256, rside := f ctl 48 2, seg := if lg = 0 then 4096 else 256 * 2 ^ (lg - 1), ckmode := f ctl 54 2
    ckin := ctl.testBit 56, ckend := ctl.testBit 57, retry := f ctl 58 2, xw := f ctl 60 3, xcols := f sz 27 5
    size := f sz 0 27, ckval := BitVec.ofNat 32 (leAt b 0x34 4), bar := f bar 0 4, gen := .value (BitVec.ofNat 8 (f bar 4 8))
    cluster := f bar 12 4, bwin := f bar 16 13, baren := bar.testBit 29, deadline := f bar 30 22, budget := f bar 52 12 }

/-- Whether an image uses a reserved field or value (R161); a middle packet of a chain has CKVAL 0 (R167). -/
def imageReserved (b : List Byte) : Bool :=
  let ctl := leAt b 0x28 8
  let i := copyImage b
  decide (ctl / 2 ^ 50 % 16 ≥ 10) || decide (i.rside = 3) || decide (i.ckmode = 3) || ctl.testBit 63 ||
    (decide (i.ckmode ≠ 0) && i.ckin && !i.ckend && decide (i.ckval ≠ 0))

/-- Bits of a transposed element. -/
def CopyImage.width (i : CopyImage) : Nat := 2 ^ (i.xw + 1)

/-- Whether a transpose cannot be made and the bytes are copied in address order (R78, R165). -/
def CopyImage.fallsBack (i : CopyImage) : Bool :=
  decide (i.xw ≠ 0) && (decide (i.xw ≥ 5) || decide (i.xcols = 0) || decide (8 * i.size % (64 * i.xcols * i.width) ≠ 0) ||
    decide (8 * i.size / (64 * i.xcols * i.width) % 64 ≠ 0))

/-- R of a transposed copy (R165). -/
def CopyImage.rows (i : CopyImage) : Nat := 8 * i.size / (64 * i.xcols * i.width)

/-- Bytes of a segment: SEG, or a band of 64 rows (R162, R165). -/
def CopyImage.segBytes (i : CopyImage) : Nat := if i.xw = 0 then i.seg else 512 * i.xcols * i.width

/-- Number of segments. -/
def CopyImage.count (i : CopyImage) : Nat := (i.size + i.segBytes - 1) / i.segBytes

/-- Bytes that one segment holds. -/
def CopyImage.segLen (i : CopyImage) (seg : Nat) : Nat := min ((seg + 1) * i.segBytes) i.size - seg * i.segBytes

/-- Source and destination address of a segment's first byte. -/
def CopyImage.segAt (i : CopyImage) (seg : Nat) : Wide × Wide :=
  (i.src + BitVec.ofNat 64 (seg * i.segBytes),
    i.dst + BitVec.ofNat 64 (if i.xw = 0 then seg * i.segBytes else seg * 8 * i.width))

/-! ### Units: a segment from an offset on, or one transposing tile -/

/-- The source pieces of a unit, as offsets from the segment's first byte with their lengths. -/
def CopyImage.srcPieces (i : CopyImage) (seg tile start : Nat) : List (Nat × Nat) :=
  if i.xw = 0 then [(start, i.segLen seg - start)]
  else (List.range 64).map (fun r => (r * (8 * i.xcols * i.width) + tile * (8 * i.width), 8 * i.width))

/-- The destination pieces of a unit. -/
def CopyImage.dstPieces (i : CopyImage) (seg tile start : Nat) : List (Nat × Nat) :=
  if i.xw = 0 then [(start, i.segLen seg - start)]
  else (List.range 64).map (fun c => ((64 * tile + c) * (i.rows * i.width / 8), 8 * i.width))

/-- The destination pieces of a whole segment. -/
def CopyImage.dstAll (i : CopyImage) (seg : Nat) : List (Nat × Nat) :=
  if i.xw = 0 then [(0, i.segLen seg)] else (List.range i.xcols).flatMap (fun t => i.dstPieces seg t 0)

/-- Tiles of a segment; a plain segment is one unit. -/
def CopyImage.tileCount (i : CopyImage) : Nat := if i.xw = 0 then 1 else i.xcols

/-- The n-th element of a run of bytes; of two 4-bit elements the low one comes first (R111). -/
def copyElem (w : Nat) (b : List Byte) (n : Nat) : Nat :=
  if w = 4 then (b.getD (n / 2) 0).toNat / 16 ^ (n % 2) % 16 else leAt b (n * (w / 8)) (w / 8)

/-- Elements packed into bytes. -/
def copyPack (w : Nat) (n : Nat) (f : Nat → Nat) : List Byte :=
  if w = 4 then (List.range (n / 2)).map (fun k => BitVec.ofNat 8 (f (2 * k) + 16 * f (2 * k + 1)))
  else (List.range n).flatMap (fun k => leBytes (w / 8) (f k))

/-- The transpose of a tile of 64 × 64 elements (R165). -/
def transposeTile (w : Nat) (b : List Byte) : List Byte :=
  (List.range 64).flatMap (fun c => copyPack w 64 (fun r => copyElem w b (r * 64 + c)))

/-- The bytes of a unit as the destination takes them. -/
def CopyImage.landing (i : CopyImage) (b : List Byte) : List Byte := if i.xw = 0 then b else transposeTile i.width b

/-- The bytes of a band in source order, from its tiles one after another. -/
def CopyImage.inOrder (i : CopyImage) (b : List Byte) : List Byte :=
  if i.xw = 0 then b
  else (List.range 64).flatMap (fun r => (List.range i.xcols).flatMap (fun t =>
    (b.drop (t * 512 * i.width + r * 8 * i.width)).take (8 * i.width)))

/-! ### A copy and its parts -/

/-- The state with a copy changed. -/
def State.modCopy (s : State) (id : Nat) (f : Copy → Copy) : State :=
  { s with copies := { s.copies with copies := tmod s.copies.copies id f } }

/-- The key of a copy's channel. -/
def Copy.key (c : Copy) : Nat := 16 * c.die + c.chan

/-- The context of a copy. -/
def State.ctxOf (s : State) (c : Copy) : Ctx := tgetD (tgetD s.copies.chans c.key).ctxs c.ctx

/-- The state with a context changed. -/
def State.modCtx (s : State) (key ctx : Nat) (f : Ctx → Ctx) : State :=
  { s with copies := { s.copies with chans := tupd s.copies.chans key (fun ch => { ch with ctxs := tupd ch.ctxs ctx f }) } }

/-- The handle of a copy (R192). -/
def State.handleOf (s : State) (c : Copy) : Word :=
  BitVec.ofNat 32 (1 + 2 ^ 8 * c.die + 2 ^ 10 * c.chan + 2 ^ 14 * c.ctx + 2 ^ 17 * (s.ctxOf c).serial.toNat)

/-- The world of a copy's accesses. -/
def Copy.space (c : Copy) : Space := ⟨c.id.troot, c.id.region.world⟩

/-- Whether a copy has landed whole. -/
def Copy.whole (c : Copy) : Bool := decide (c.done.length ≥ c.img.count)

/-- A segment that a copy could move next, with the offset to start at and the addresses of its first byte. -/
def Copy.nextSeg (c : Copy) : Option ParkedSeg :=
  let busy (k : Nat) : Bool := c.done.contains k || c.moving.contains k || c.parked.any (fun p => decide (p.seg = k))
  let a := c.again.filter (fun p => !c.moving.contains p.seg)
  match a.head?, (List.range c.img.count).find? (fun k => !busy k && !c.again.any (fun p => decide (p.seg = k))) with
  | some p, some k => some (if p.seg ≤ k then p else ⟨k, 0, 0, (c.img.segAt k).1, (c.img.segAt k).2⟩)
  | some p, none => some p
  | none, some k => some ⟨k, 0, 0, (c.img.segAt k).1, (c.img.segAt k).2⟩
  | none, none => none

/-- The copies of a chain, in queue order. -/
def State.chainOf (s : State) (c : Copy) : List (Nat × Copy) :=
  match c.chain with
  | some k => s.copies.copies.filter (fun e => decide (e.2.chain = some k))
  | none => s.copies.copies.filter (fun e => decide (e.2.id.seq = c.id.seq))

/-- Whether the earlier packets of a copy's chain leave it its turn: each has landed or parked whole (R167). -/
def State.chainTurn (s : State) (c : Copy) : Bool :=
  (s.chainOf c).all (fun e => decide (e.2.id.seq ≥ c.id.seq) ||
    (decide (e.2.done.length + e.2.parked.length ≥ e.2.img.count)))

/-- Whether a copy of world S lacks a secured context to the other chip (R325). -/
def State.lacksSecure (s : State) (c : Copy) : Bool :=
  decide (c.img.rside ≠ 0) && !thisChip c.img.rchip && c.id.region.world && !s.net.secured.contains c.img.rchip

/-- Whether a copy has a segment to move now. -/
def State.copyReady (s : State) (c : Copy) : Bool :=
  !c.id.killed && c.nextSeg.isSome && s.chainTurn c

/-- The copy that a channel moves next (R60). -/
def State.channelHead (s : State) (key : Nat) : Option (Nat × Copy) :=
  let d (c : Copy) : Nat := if c.current = 0 then 0 else c.id.deadline
  firstBy (fun a b => decide (a.2.current > b.2.current) || (decide (a.2.current = b.2.current) &&
      (decide (d a.2 < d b.2) || (decide (d a.2 = d b.2) && decide (a.2.id.seq < b.2.id.seq)))))
    (s.copies.copies.filter (fun e => decide (e.2.key = key) && s.copyReady e.2))

/-! ### Landing and parking -/

/-- Physical runs of pieces of an address range, or the first fault with its address. -/
def State.pieceRuns (s : State) (sp : Space) (acc : Acc) (base : Wide) : List (Nat × Nat) → Except (Cause × Nat) (List (Nat × Nat))
  | [] => .ok []
  | p :: rest =>
    match s.xlateRuns sp.troot acc sp.world (base.toNat + p.1) p.2 with
    | .error e => .error e
    | .ok l => match s.pieceRuns sp acc base rest with
      | .error e => .error e
      | .ok m => .ok (l ++ m)

/-- Whether what a copy publishes is waited for on another die: its issuer or its barrier is there (R230). -/
def State.copyFar (s : State) (c : Copy) : Bool :=
  (match c.id.source with
    | .group g _ _ _ _ => decide (dieOfCore (s.coreOf g) ≠ c.die)
    | .queue _ _ _ => false) ||
  (c.img.baren && (match c.id.target.bind (tget s.blocks) with
    | some B => decide (B.id.die ≠ c.die)
    | none => false))

/-- The group whose stores a copy's entries count as: its issuer's, for the retirement of the bundle (R232). -/
def Copy.issuer (c : Copy) : Nat :=
  match c.id.source with
  | .group g _ _ _ _ => g
  | .queue _ _ _ => 0

/-- Entries of a copy's bytes are pushed on to the device node; a push at any time is allowed (R222). -/
def State.copyOut (s : State) (c : Copy) (runs : List (Nat × Nat)) : State :=
  foldS runs s (fun s r => s.pushToward [dieNode c.die] deviceNode r.1 r.2)

/-- Bytes of a copy are written at the die node of its channel, and reach the device node at once where its publication
needs that (R230). -/
def State.copyPut (s : State) (c : Copy) (runs : List (Nat × Nat)) (b : List Byte) : State :=
  let s := s.putRuns (dieNode c.die) c.issuer runs b
  if s.copyFar c then s.copyOut c runs else s

/-- The destination pieces of a segment from an offset, or from a tile, on. -/
def CopyImage.dstFrom (i : CopyImage) (seg tile off : Nat) : List (Nat × Nat) :=
  if i.xw = 0 then [(off, i.segLen seg - off)] else ((List.range i.xcols).drop tile).flatMap (fun t => i.dstPieces seg t 0)

/-- How many bytes of a grain lie in some pieces from a base on. -/
def piecesIn (base g : Nat) (l : List (Nat × Nat)) : Nat :=
  (l.map (fun x => min (base + x.1 + x.2) (32 * g + 32) - max (base + x.1) (32 * g))).sum

/-- How many bytes a copy brings to a grain of its image's destination: those of segments that go elsewhere do not come. -/
def Copy.needOwn (c : Copy) (g : Nat) : Nat :=
  piecesIn c.img.dst.toNat g [(0, c.img.size)] -
    (c.away.map (fun a => piecesIn (c.img.segAt a.seg).2.toNat g (c.img.dstFrom a.seg a.tile a.off))).sum

/-- How many bytes a segment brings to a grain of the destination that a service has given it. -/
def Copy.needAway (c : Copy) (a : Away) (g : Nat) : Nat := piecesIn a.dst.toNat g (c.img.dstFrom a.seg a.nowTile a.nowOff)

/-- Parts of a grain that stand side by side are one. -/
def joinParts (l : List (Nat × List Byte)) : List (Nat × List Byte) :=
  l.foldr (fun x acc => match acc with
    | y :: r => if x.1 + x.2.length = y.1 then (x.1, x.2 ++ y.2) :: r else x :: acc
    | [] => [x]) []

/-- The parts of a grain are written, those side by side as one entry (R229). -/
def State.putParts (s : State) (c : Copy) (l : List (Nat × List Byte)) : State :=
  foldS (joinParts l) s (fun s x => s.copyPut c [(x.1, x.2.length)] x.2)

/-- The key of grain 0 of a segment that goes elsewhere; the grains of the image's destination have their own numbers. -/
def awayKey (seg : Nat) : Nat := 2 ^ 64 * (seg + 1)

/-- Some bytes of a grain that the copy will bring whole: the grain is written once all that it needs are there, as one entry; what
comes to it again after that is written at once (R154, R229). DEDUCED, log entry 49. -/
def State.landPart (s : State) (id key need pa : Nat) (b : List Byte) : State :=
  match tget s.copies.copies id with
  | none => s
  | some c =>
    let all := sortBy (fun x y => decide (x.1 < y.1)) ((pa, b) :: ((tget c.parts key).getD []).filter (fun x => decide (x.1 ≠ pa)))
    if tget c.parts key = some [] then s.putParts c [(pa, b)]
    else if (all.map (fun x => x.2.length)).sum ≥ need then
      (s.putParts c all).modCopy id (fun c => { c with parts := tput c.parts key [] })
    else s.modCopy id (fun c => { c with parts := tput c.parts key all })

/-- The parts of grains that a test names are written as they are, for no more will come. -/
def State.flushParts (s : State) (id : Nat) (p : Nat → Bool) : State :=
  match tget s.copies.copies id with
  | none => s
  | some c =>
    let gone := c.parts.filter (fun e => p e.1)
    (foldS gone s (fun s e => s.putParts c e.2)).modCopy id (fun c => { c with parts := c.parts.filter (fun e => !p e.1) })

/-- A segment about to land elsewhere than the image says is noted: the grains that it shared at the image's destination need its bytes
no more, and one sent to yet another destination leaves what it has written at the last one. DEDUCED, log entry 49. -/
def State.sendAway (s : State) (id : Nat) (p : ParkedSeg) : State :=
  match tget s.copies.copies id with
  | none => s
  | some c =>
    let tile := tgetD c.tiles p.seg
    match c.away.find? (fun a => decide (a.seg = p.seg)) with
    | some a =>
      if a.dst = p.dst then s
      else (s.flushParts id (fun k => decide (awayKey p.seg ≤ k) && decide (k < awayKey (p.seg + 1)))).modCopy id (fun c =>
        { c with away := c.away.map (fun x => if x.seg = p.seg then { x with nowOff := p.off, nowTile := tile, dst := p.dst } else x) })
    | none =>
      if p.dst = (c.img.segAt p.seg).2 then s
      else
        let c' := { c with away := c.away ++ [⟨p.seg, p.off, tile, p.off, tile, p.dst⟩] }
        (s.modCopy id (fun _ => c')).flushParts id (fun k => decide (k < 2 ^ 64) &&
          decide ((((tget c.parts k).getD []).map (fun x => x.2.length)).sum ≥ c'.needOwn k))

/-- Whole grains of a copy are written; parts of them that had come before are there again. -/
def State.landWhole (s : State) (id key g : Nat) (pa : Nat) (b : List Byte) : State :=
  match tget s.copies.copies id with
  | none => s
  | some c =>
    let again (k : Nat) : Bool := decide (key + g ≤ k) && decide (k < key + g + b.length / 32)
    let s := s.copyPut c [(pa, b.length)] b
    if c.parts.any (fun e => again e.1) then s.modCopy id (fun c => { c with parts := c.parts.filter (fun e => !again e.1) }) else s

/-- Bytes of a copy for physical runs whose virtual addresses start at `va`: whole grains are written, the grains at the ends
wait for the rest of what the copy brings to them. -/
def State.landRuns (s : State) (id key : Nat) (need : Nat → Nat) (va : Nat) : List (Nat × Nat) → List Byte → State
  | [], _ => s
  | r :: rest, b =>
    let h := min ((32 - va % 32) % 32) r.2
    let t := min ((va + r.2) % 32) (r.2 - h)
    let m := r.2 - h - t
    let s := if h = 0 then s else s.landPart id (key + va / 32) (need (va / 32)) r.1 (b.take h)
    let s := if m = 0 then s else s.landWhole id key ((va + h) / 32) (r.1 + h) ((b.drop h).take m)
    let g := (va + h + m) / 32
    let s := if t = 0 then s else s.landPart id (key + g) (need g) (r.1 + h + m) ((b.drop (h + m)).take t)
    s.landRuns id key need (va + r.2) rest (b.drop r.2)

/-- Bytes of a unit for pieces of its segment's destination, at the addresses that they have now. -/
def State.landPieces (s : State) (id key : Nat) (need : Nat → Nat) (sp : Space) (base : Wide) : List (Nat × Nat) → List Byte → State
  | [], _ => s
  | x :: rest, b =>
    match s.xlateRuns sp.troot .copyWrite sp.world (base.toNat + x.1) x.2 with
    | .error _ => s.landPieces id key need sp base rest (b.drop x.2)
    | .ok runs => (s.landRuns id key need (base.toNat + x.1) runs (b.take x.2)).landPieces id key need sp base rest (b.drop x.2)

/-- Bytes of a segment land in pieces of its destination. -/
def State.landUnit (s : State) (id : Nat) (p : ParkedSeg) (pieces : List (Nat × Nat)) (b : List Byte) : State :=
  let s := s.sendAway id p
  match tget s.copies.copies id with
  | none => s
  | some c => match c.away.find? (fun a => decide (a.seg = p.seg)) with
    | none => s.landPieces id 0 c.needOwn c.space p.dst pieces b
    | some a => s.landPieces id (awayKey p.seg) (c.needAway a) c.space p.dst pieces b

/-- Whether every byte of a copy that has come is written. -/
def Copy.allOut (c : Copy) : Bool := c.parts.all (fun e => e.2.isEmpty)

/-- Whether a segment has landed but for grains that wait for another segment's bytes. -/
def Copy.lacksPart (c : Copy) (k : Nat) : Bool :=
  !c.allOut && (c.img.dstAll k).any (fun x => c.parts.any (fun e =>
    !e.2.isEmpty && overlap ((c.img.segAt k).2.toNat + x.1) x.2 (32 * e.1) 32))

/-- The end of the longest prefix of a copy whose bytes have landed (R163). -/
def Copy.prefixEnd (c : Copy) : Nat :=
  if c.img.xw = 0 then
    match (List.range c.img.count).find? (fun k => !c.done.contains k) with
    | some k =>
      let o := k * c.img.segBytes
      let a := c.img.dst.toNat + o
      if ((tget c.parts (a / 32)).getD []).isEmpty then o else o - min o (a % 32)
    | none => c.img.size
  else
    match (List.range c.img.count).find? (fun k => !c.done.contains k || c.lacksPart k) with
    | some k => k * c.img.segBytes
    | none => c.img.size

/-- WPTR moves to the end of the contiguous landed range, never back (R163). -/
def State.movePointer (s : State) (c : Copy) : State :=
  s.modCtx c.key c.ctx (fun x => { x with wptr := BitVec.ofNat 64 (max x.wptr.toNat (c.w0 + c.prefixEnd)) })

/-- A charge of channel time for bytes moved, at 1 TB/s: each whole ns as it fills (R45, R60). DEDUCED, log entry 22. -/
def State.chargeCopy (s : State) (id : Nat) (n : Nat) : State :=
  match tget s.copies.copies id with
  | none => s
  | some c =>
    let ns := (c.id.rest + n) / 1000
    (s.modCopy id (fun x => { x with id := { x.id with charge := x.id.charge + ns, rest := (c.id.rest + n) % 1000 } })).chargeServers
      c.id.region.servers false 0 ns

/-- Bytes of a unit have landed: a tile counts, and a segment that is complete is done. -/
def State.unitLanded (s : State) (id seg : Nat) (src : List Byte) : State :=
  let s := s.modCopy id (fun c =>
    let t := tgetD c.tiles seg + 1
    let fin := decide (t ≥ c.img.tileCount)
    { c with
      tiles := if fin then tdel c.tiles seg else tput c.tiles seg t
      done := if fin then c.done ++ [seg] else c.done
      again := if fin then c.again.filter (fun p => decide (p.seg ≠ seg)) else c.again
      moving := c.moving.filter (· ≠ seg)
      data := if c.img.ckmode = 0 then c.data else tput c.data seg ((tget c.data seg).getD [] ++ src) })
  match tget s.copies.copies id with
  | some c => s.movePointer c
  | none => s

/-- OPVAL of a parked segment (R269). -/
def Copy.opval (c : Copy) (p : ParkedSeg) : List Wide :=
  [BitVec.ofNat 64 (c.die + 4 * c.chan + 64 * c.ctx + 2 ^ 16 * p.seg), BitVec.ofNat 64 (p.seg * c.img.segBytes + p.off), p.src, p.dst]

/-- A segment parks: its record is formed in the copy's region and fault domain, and counts among the records of the bundle whose group
has issued the copy (R162, R265, R276, R333). -/
def State.copyPark (s : State) (id : Nat) (p : ParkedSeg) (cause : Cause) (addr : Wide) : State :=
  match tget s.copies.copies id with
  | none => s
  | some c =>
    let (r, s) := s.formFor cause (.segment id p.seg) c.id.region c.id.depth c.id.dom c.id.parent c.id.imageAt addr (c.opval p)
    let (b, g) := match c.id.source with
      | .group _ _ bi gi _ => (bi, gi)
      | .queue _ _ _ => (0, 0)
    let s := { s with faults := { s.faults with recs := tmod s.faults.recs r (fun x => { x with block := b, group := g }) } }
    let s := match c.id.source with
      | .group _ l _ _ _ => s.modLaunch l (fun l => { l with recs := l.recs + 1 })
      | .queue _ _ _ => s
    let s := s.modCopy id (fun c => { c with
      parked := c.parked ++ [{ p with record := r }]
      again := c.again.filter (fun q => decide (q.seg ≠ p.seg))
      moving := c.moving.filter (· ≠ p.seg) })
    match tget s.copies.copies id with
    | some c => s.movePointer c
    | none => s

/-! ### One unit of a local copy -/

/-- The bytes of physical runs before the first poisoned grain, and that grain's offset in them. -/
def State.readPieces (s : State) (nodes : List Nat) (runs : List (Nat × Nat)) : List Byte × Option Nat :=
  let all := runs.flatMap (fun r => (List.range r.2).map (fun i => s.pathByte nodes (r.1 + i)))
  let pas := runs.flatMap (fun r => (List.range r.2).map (fun i => r.1 + i))
  match all.findIdx? Option.isNone with
  | none => (all.map (fun x => x.getD 0), none)
  | some k => ((all.take (k - min k (pas.getD k 0 % 32))).map (fun x => x.getD 0), some (k - min k (pas.getD k 0 % 32)))

/-- The source offset of the n-th byte of a unit. -/
def srcOffset : List (Nat × Nat) → Nat → Nat
  | [], _ => 0
  | p :: rest, n => if n < p.2 then p.1 + n else srcOffset rest (n - p.2)

/-- Whether the translation of a segment's sides on this chip waits: for a walker of the die, or for a refresh window of a table word
(R151, R155). -/
def State.segWaits (s : State) (c : Copy) (p : ParkedSeg) : Bool :=
  (decide (c.img.rside ≠ 1) && s.walksHeld c.die c.id.troot p.src.toNat (c.img.segLen p.seg)) ||
    (decide (c.img.rside ≠ 2) && (c.img.dstAll p.seg).any (fun x => s.walksHeld c.die c.id.troot (p.dst.toNat + x.1) x.2))

/-- A unit of a copy with both sides on this chip: both ranges of the segment are translated whole before any byte
moves; poison lets the grains before it land (R162). -/
def State.moveLocal (s : State) (id : Nat) (c : Copy) (p : ParkedSeg) : State :=
  let tile := tgetD c.tiles p.seg
  let src := c.img.srcPieces p.seg tile p.off
  match s.pieceRuns c.space .copyRead p.src [(0, c.img.segLen p.seg)], s.pieceRuns c.space .copyWrite p.dst (c.img.dstAll p.seg) with
  | .error e, _ => s.copyPark id p e.1 (BitVec.ofNat 64 e.2)
  | _, .error e => s.copyPark id p e.1 (BitVec.ofNat 64 e.2)
  | .ok _, .ok _ =>
    let dst := c.img.dstPieces p.seg tile p.off
    match s.pieceRuns c.space .copyRead p.src src, s.pieceRuns c.space .copyWrite p.dst dst with
    | .ok sr, .ok dr =>
      if s.runsHeld (sr ++ dr) then s
      else
        let (b, bad) := s.readPieces [dieNode c.die] sr
        let s := s.chargeCopy id b.length
        match bad with
        | none => (s.landUnit id p dst (c.img.landing b)).unitLanded id p.seg b
        | some k =>
          let off := srcOffset src k
          let s := if c.img.xw = 0 then
              (s.landUnit id p [(p.off, k)] b).modCopy id
                (fun x => if x.img.ckmode = 0 then x
                  else { x with data := tput x.data p.seg ((tget x.data p.seg).getD [] ++ b) })
            else s
          s.copyPark id { p with off := off } (kPoison, 1) (p.src + BitVec.ofNat 64 off)
    | _, _ => s

/-! ### Remote sides (R168) -/

/-- The runs of an operation on pieces of a segment: its address, and their offsets from there (R165). -/
def opRuns (base : Wide) (pieces : List (Nat × Nat)) : Wide × List (Nat × Nat) :=
  let o := (pieces.headD (0, 0)).1
  (base + BitVec.ofNat 64 o, pieces.map (fun x => (x.1 - o, x.2)))

/-- The operation of a segment is sent. -/
def State.sendSegment (s : State) (id : Nat) (c : Copy) (p : ParkedSeg) (k : MsgKind) (base : Wide) (pieces : List (Nat × Nat))
    (b : List Byte) : State :=
  (s.post c.img.rchip k (opRuns base pieces).1 (opRuns base pieces).2 b c.id.region.world).2.modCopy id (fun x => { x with
    moving := x.moving ++ [p.seg], again := x.again.filter (fun q => decide (q.seg ≠ p.seg)) ++ [p] })

/-- The local side of a remote copy's segment is translated, and the operation is sent: a read of the remote source, or a
write of the bytes read here, row by row where the copy transposes (R165). Bytes before a poisoned grain are sent alone. A copy of world S without a secured context is
refused as R318 states (R325). -/
def State.moveRemote (s : State) (id : Nat) (c : Copy) (p : ParkedSeg) : State :=
  let tile := tgetD c.tiles p.seg
  let src := c.img.srcPieces p.seg tile p.off
  let dst := c.img.dstPieces p.seg tile p.off
  if s.lacksSecure c then s.copyPark id p (kProt, 4) (if c.img.rside = 1 then p.src else p.dst)
  else if s.unreachable c.img.rchip then
    s.copyPark id p (kLinkto, 1) (if c.img.rside = 1 then p.src else p.dst)
  else if c.img.rside = 1 then
    match s.pieceRuns c.space .copyWrite p.dst (c.img.dstAll p.seg) with
    | .error e => s.copyPark id p e.1 (BitVec.ofNat 64 e.2)
    | .ok _ => s.sendSegment id c p (.copyRead id p.seg) p.src src []
  else
    match s.pieceRuns c.space .copyRead p.src [(0, c.img.segLen p.seg)], s.pieceRuns c.space .copyRead p.src src with
    | .error e, _ => s.copyPark id p e.1 (BitVec.ofNat 64 e.2)
    | _, .error e => s.copyPark id p e.1 (BitVec.ofNat 64 e.2)
    | .ok _, .ok sr =>
      if s.runsHeld sr then s
      else
        let (b, bad) := s.readPieces [dieNode c.die] sr
        let s := s.chargeCopy id b.length
        match bad with
        | some k =>
          if k = 0 ∨ c.img.xw ≠ 0 then
            let off := srcOffset src k
            s.copyPark id { p with off := off } (kPoison, 1) (p.src + BitVec.ofNat 64 off)
          else s.sendSegment id c p (.copyWrite id p.seg) p.dst [(p.off, k)] b
        | none => s.sendSegment id c p (.copyWrite id p.seg) p.dst dst (c.img.landing b)

/-- The segment of a copy that a message moves, as it was sent. -/
def Copy.movingSeg (c : Copy) (seg : Nat) : ParkedSeg :=
  (c.again.find? (fun p => decide (p.seg = seg))).getD ⟨seg, 0, 0, (c.img.segAt seg).1, (c.img.segAt seg).2⟩

/-- A remote write of a segment is acknowledged: its bytes have landed; what followed a poisoned grain parks there
(R168). -/
def State.writeAcked (s : State) (id seg : Nat) (sent : List Byte) : State :=
  match tget s.copies.copies id with
  | none => s
  | some c =>
    let p := c.movingSeg seg
    let tile := tgetD c.tiles seg
    let src := c.img.srcPieces seg tile p.off
    let whole := (src.map (fun x => x.2)).sum
    let b := if c.img.xw = 0 then sent else transposeTile c.img.width sent
    if sent.length ≥ whole then s.unitLanded id seg b
    else
      let off := p.off + sent.length
      let s := if c.img.ckmode = 0 then s else s.modCopy id (fun x =>
        { x with data := tput x.data seg ((tget x.data seg).getD [] ++ b) })
      s.copyPark id { p with off := off } (kPoison, 1) (p.src + BitVec.ofNat 64 off)

/-- A remote operation of a segment is refused, or lost: the segment parks with that kind; ADDR is the remote address
(R168, R318). -/
def State.segRefused (s : State) (id seg : Nat) (cause : Cause) (addr : Wide) : State :=
  match tget s.copies.copies id with
  | none => s
  | some c => s.copyPark id (c.movingSeg seg) cause addr

/-- The data of a remote read of a segment arrive; those before a poisoned grain land, and the segment parks there; what a
refresh window of the weight store holds lands later (R155, R168, R309). -/
def State.readArrived (s : State) (id seg : Nat) (result : RemoteResult) : State :=
  match tget s.copies.copies id with
  | none => s
  | some c =>
    let p := c.movingSeg seg
    let tile := tgetD c.tiles seg
    let src := c.img.srcPieces seg tile p.off
    let dst := c.img.dstPieces seg tile p.off
    let n := (src.map (fun x => x.2)).sum
    let bytes := (result.bytes ++ List.replicate n 0).take n
    match s.pieceRuns c.space .copyWrite p.dst dst with
    | .error e => s.copyPark id p e.1 (BitVec.ofNat 64 e.2)
    | .ok dr =>
      if s.runsHeld dr ∨ s.segWaits c p then s.modCopy id (fun x => { x with arrived := tput x.arrived seg result })
      else
        let s := s.modCopy id (fun x => { x with arrived := tdel x.arrived seg })
        match result.poison with
        | none => ((s.chargeCopy id n).landUnit id p dst (c.img.landing bytes)).unitLanded id seg bytes
        | some k =>
          let k := min k n
          let k := k - min k ((p.src.toNat + srcOffset src k) % 32)
          let off := srcOffset src k
          let s := s.chargeCopy id k
          let s := if c.img.xw = 0 then
              (s.landUnit id p [(p.off, k)] (bytes.take k)).modCopy id (fun x => if x.img.ckmode = 0 then x
                else { x with data := tput x.data seg ((tget x.data seg).getD [] ++ bytes.take k) })
            else s
          s.copyPark id { p with off := off } (kPoison, 1) (p.src + BitVec.ofNat 64 off)

/-- COPY_SEGMENT: what has arrived for a segment lands, or the channel's next unit moves, or its segment parks (R60, R162). While the
dies are held in reset no channel moves anything (R346). -/
def execCopySegment (copy segment : Nat) (s : State) : Res :=
  match tget s.copies.copies copy with
  | none => .next s
  | some c =>
    if s.spire.boot.tempHold then .next s
    else match tget c.arrived segment with
    | some r => .next (s.readArrived copy segment r)
    | none =>
      match s.channelHead c.key, c.nextSeg with
      | some (h, _), some p =>
        if h ≠ copy ∨ p.seg ≠ segment then .next s
        else if s.segWaits c p then .next s
        else if c.img.rside = 0 ∨ thisChip c.img.rchip then .next (s.moveLocal copy c p)
        else .next (s.moveRemote copy c p)
      | _, _ => .next s

/-! ### Checksums and completion (R164, R166, R167) -/

/-- The standard seed (R167). -/
def stdSeed (mode : Nat) : Nat := if mode = 2 then 0xFFFFFFFF else 0

/-- The running value over one copy's bytes in source order. -/
def Copy.runCk (c : Copy) (x : Nat) : Nat :=
  let b := (List.range c.img.count).flatMap (fun k => c.img.inOrder ((tget c.data k).getD []))
  if c.img.ckmode = 2 then crcRun x b else add32 x b

/-- Whether a chain's checksum is the one that its closing packet expects. -/
def chainMatches (l : List Copy) : Bool :=
  match l.head?, l.getLast? with
  | some a, some z =>
    let seed := if l.length = 1 then stdSeed a.img.ckmode else a.img.ckval.toNat
    let x := l.foldl (fun x c => c.runCk x) seed
    decide ((if a.img.ckmode = 2 then Nat.xor x 0xFFFFFFFF else x) = z.img.ckval.toNat)
  | _, _ => true

/-- A chain is copied again from its start (R167). -/
def State.restartChain (s : State) (l : List (Nat × Copy)) : State :=
  foldS l s (fun s e => s.modCopy e.1 (fun c =>
    { c with done := [], tiles := [], moving := [], parked := [], again := [], data := [], parts := [], away := [], arrived := []
             tries := c.tries + 1 }))

/-- LASTERR of a queue's header (R25). -/
def State.lastErr (s : State) (header status slot : Nat) : State :=
  s.ownWrite (header + 0x30) (leBytes 8 (status + 256 * (slot % 2 ^ 56)))

/-- A completion word (R39). -/
def complWord (s : State) (status : Nat) : List Byte := leBytes 8 (status + 256 * (s.clk.ns % 2 ^ 56))

/-- A completion word is written for a slot of a queue; a write that fails goes to LASTERR of its header as FAULTED, served
or not (R39). -/
def State.complete (s : State) (header slot : Nat) (sp : Space) (compl : Wide) (status : Nat) : State :=
  match s.belfryWrite sp compl.toNat (complWord s status) with
  | .ok s => s
  | .error _ => s.lastErr header 10 slot

/-- The status of a copy reaches its completion word, if it has one (R39, R192). -/
def State.copyStatus (s : State) (c : Copy) (status : Nat) : State :=
  match c.id.source with
  | .queue _ slot compl => s.complete c.id.qheader slot ⟨c.id.troot, c.id.qworld⟩ compl status
  | .group _ _ _ _ compl =>
    if compl = 0 then s
    else match s.belfryWrite c.space compl.toNat (complWord s status) with
      | .ok s => s
      | .error _ => s

/-- Whether the final status of a copy goes to memory, by which time its bytes must have reached the device node (R230, R232). -/
def Copy.hasWord (c : Copy) : Bool :=
  match c.id.source with
  | .queue _ _ _ => true
  | .group _ _ _ _ compl => decide (compl ≠ 0)

/-- A copy ends: its bytes are out where its status needs it, the final status is written, and its context is free (R164,
R192). -/
def State.copyEnd (s : State) (c : Copy) (id : Nat) : State :=
    let status := if c.id.killed then 4 else if c.id.demoted then 3 else 2
    let s := if c.hasWord then
        s.copyOut c ((s.pieceRuns c.space .copyWrite c.img.dst [(0, c.img.size)]).toOption.getD [])
      else s
    let s := s.copyStatus c status
    let s := s.trace1 9 srcHub c.id.region.regionId (leBytes 8 (s.handleOf c).toNat ++ leBytes 4 status ++ leBytes 4 0)
    let s := s.modCtx c.key c.ctx (fun x => { x with copy := none, status := status })
    { s with copies := { s.copies with copies := tdel s.copies.copies id } }

/-- A copy that has landed, or is killed: the arrival, unless it was killed, and once that is made the end (R164, DEDUCED, log
entry 34). -/
def State.copyFinish (s : State) (id : Nat) : State :=
  match tget s.copies.copies id with
  | none => s
  | some c =>
    if c.img.baren ∧ ¬ c.id.killed ∧ c.arriving.isNone then
      let n := s.env.nextId
      (s.addArrival ⟨c.id.target, c.img.bar, c.img.gen, c.img.size, c.issuer, some c.key⟩).modCopy id
        (fun c => { c with arriving := some n })
    else if c.arriving.any (fun n => (tget s.flight.arrivals n).isSome) then s
    else s.copyEnd c id

/-- Whether a chain is closed and every packet of it has landed. -/
def chainLanded (l : List (Nat × Copy)) : Bool :=
  l.any (fun e => e.2.img.ckend) && l.all (fun e => e.2.whole && e.2.parked.isEmpty)

/-- The closing compare (R167): a match lets every packet of the chain end, a mismatch copies the chain again up to RETRY
times and then parks the closing packet's final segment. -/
def State.closeChain (s : State) (l : List (Nat × Copy)) : State :=
  match l.getLast? with
  | none => s
  | some (id, z) =>
    if chainMatches (l.map Prod.snd) then foldS l s (fun s e => s.modCopy e.1 (fun c => { c with matched := true }))
    else if z.tries < z.img.retry then s.restartChain l
    else
      let k := z.img.count - 1
      s.copyPark id ⟨k, 0, 0, (z.img.segAt k).1, (z.img.segAt k).2⟩ (kCksum, z.img.ckmode) (z.img.segAt k).1

/-- Whether a copy has nothing left to move. -/
def Copy.finishes (c : Copy) : Bool := c.whole && c.parked.isEmpty && c.moving.isEmpty && c.allOut

/-- COPY_COMPLETE: a copy whose last byte has landed makes its compare, its arrival and its final status (R164). -/
def execCopyComplete (copy : Nat) (s : State) : Res :=
  match tget s.copies.copies copy with
  | none => .next s
  | some c =>
    if c.id.killed then .next ((s.flushParts copy (fun _ => true)).copyFinish copy)
    else if ¬ c.finishes ∨ s.spire.boot.tempHold then .next s
    else match c.chain with
      | none => .next (s.copyFinish copy)
      | some _ =>
        let l := s.chainOf c
        if c.matched then .next (if (l.head?.map Prod.fst) = some copy then s.copyFinish copy else s)
        else if chainLanded l ∧ (l.getLast?.map Prod.fst) = some copy then .next (s.closeChain l)
        else .next s

/-- A copy is killed, and its chain with it; parked segments' records are served as killed (R279, R290). -/
def State.killCopy (s : State) (id : Nat) : State :=
  match tget s.copies.copies id with
  | none => s
  | some c =>
    let l := match c.chain with
      | some _ => s.chainOf c
      | none => [(id, c)]
    foldS l s (fun s e =>
      let recs := e.2.parked.map (fun p => p.record)
      let s := { s with
        faults := { s.faults with recs := s.faults.recs.map (fun (x : Nat × FRec) =>
          if recs.contains x.1 ∧ x.2.state ≤ 1 then (x.1, { x.2 with state := 3 }) else x) }
        net := { s.net with msgs := s.net.msgs.filter (fun (m : Nat × Msg) => match m.2.kind with
          | .copyWrite k _ | .copyRead k _ => decide (k ≠ e.1)
          | _ => true) } }
      s.modCopy e.1 (fun c => { c with id := { c.id with killed := true }, parked := [], moving := [], again := [], arrived := [] }))

/-- REMOTE_WRITE_ACK of a message of a copy; those of other messages are in the Belfry's and the fault path's hands
(R168, R318). -/
def State.copyAck (s : State) (message copy seg : Nat) (m : Msg) (refusal : Option (Nat × Nat)) : State :=
  let s := s.dropMsg message
  match refusal with
  | some c => s.segRefused copy seg c m.addr
  | none => s.writeAcked copy seg m.bytes

end Sys2Proof.Machine
end

