-- ==== Sys2Proof/Machine/CopyIssue.lean ====
section
/-! DEFINITION. The admission of copies (R161, R192), and CPSUB, CPWP and CPWAIT (R191 to R194). -/
namespace Sys2Proof.Machine

/-! ### Admission (R161) -/

/-- What asks for a copy: its source, the space of its addresses, its image, the campanile value that its deadline counts
from, the header of its queue, the group whose die stands in for an address that does not translate, the barrier that OWNBAR names, where its image
lies, and the fault home of its work. -/
structure CopyAsk where
  source : CopySource
  space : Space
  raw : List Byte
  img : CopyImage
  from_ : Nat
  qheader : Nat
  homeDie : Nat
  own : Option Nat
  ownRegion : Option Nat
  imageAt : Wide
  depth : Nat
  dom : Option Domain
  parent : Wide
  deriving DecidableEq, Repr

/-- Whether two sources are one queue or one group (R161, R192). -/
def CopySource.same : CopySource → CopySource → Bool
  | .queue a _ _, .queue b _ _ => decide (a = b)
  | .group a _ _ _ _, .group b _ _ _ _ => decide (a = b)
  | _, _ => false

/-- The last packet of the open chain of a source (R167). -/
def State.openChain (s : State) (src : CopySource) : Option Copy :=
  ((s.copies.copies.filter (fun e => e.2.id.source.same src && e.2.chain.isSome && !e.2.id.killed &&
    !(s.chainOf e.2).any (fun x => x.2.img.ckend))).getLast?).map Prod.snd

/-- The resident block whose barrier window BARREF names (R160, R161). -/
def State.barrierBlock (s : State) (i : CopyImage) : Option Nat :=
  let pa := scratchBase + i.cluster * 0x400000 + i.bwin * 256
  (s.blocks.find? (fun e => e.2.resident && decide (e.2.run ≠ BlockRun.stowed) && decide (e.2.addr (e.2.id.t - 256) = pa))).map
    Prod.fst

/-- The conditions under which R161 gives ILLPKT. -/
def State.copyIllegal (s : State) (a : CopyAsk) : Bool :=
  let i := a.img
  imageReserved a.raw || decide (i.deadline = 0) || decide (i.budget = 0) ||
    (i.baren && a.own.isNone && (s.barrierBlock i).isNone) ||
    (match s.openChain a.source with
    | none => i.ckin
    | some c => !i.ckin || decide (c.img.ckmode ≠ i.ckmode) || decide (c.img.retry ≠ i.retry) || decide (c.img.rside ≠ i.rside))

/-- The fault that the first byte of a local address meets, or its physical address. -/
def State.firstByte (s : State) (sp : Space) (acc : Acc) (va : Wide) : Except Cause Nat := s.xlate sp.troot acc sp.world va.toNat

/-- Whether a local address lies in S memory while the copy is N (R29). -/
def State.copyNamesS (s : State) (sp : Space) (i : CopyImage) : Bool :=
  let bad (acc : Acc) (va : Wide) : Bool := match s.firstByte sp acc va with
    | .error c => decide (c = (kProt, 3))
    | .ok _ => false
  (decide (i.rside ≠ 1) && bad .copyRead i.src) || (decide (i.rside ≠ 2) && bad .copyWrite i.dst)

/-- The local address whose first byte names the die (R161). -/
def State.localByte (s : State) (sp : Space) (i : CopyImage) : Except Cause Nat :=
  if i.rside = 2 then s.firstByte sp .copyRead i.src else s.firstByte sp .copyWrite i.dst

/-- Contexts of a channel that hold copies. -/
def State.channelLoad (s : State) (key : Nat) : Nat :=
  ((tgetD s.copies.chans key).ctxs.filter (fun e => e.2.copy.isSome)).length

/-- A channel's lowest free context. -/
def State.freeCtx (s : State) (key : Nat) : Option Nat :=
  (List.range 8).find? (fun k => (tgetD (tgetD s.copies.chans key).ctxs k).copy.isNone)

/-- The channel of a copy on a die: that of its chain, or the one with the fewest copies. -/
def State.pickChannel (s : State) (die : Nat) (chain : Option Copy) : Nat :=
  match chain with
  | some c => c.key
  | none => (firstBy (fun a b => decide (s.channelLoad a < s.channelLoad b)) ((List.range 16).map (fun k => 16 * die + k))).getD (16 * die)

/-- An admitted copy takes its context, and its handle is given (R161, R163, R192). -/
def State.addCopy (s : State) (a : CopyAsk) (i : CopyImage) (r : Region) (chain : Option Copy) (key ctx deadline : Nat) (low ws : Bool) :
    Nat × State :=
  let (id, s) := (s.holdOverruns r.rcb).freshId
  let n := s.belfry.arrival + 1
  let x := tgetD (tgetD s.copies.chans key).ctxs ctx
  let falls := i.fallsBack
  let img := if falls then { i with xw := 0 } else i
  let c : Copy :=
    { id :=
        { source := a.source, region := r, troot := a.space.troot, qworld := a.space.world, qheader := a.qheader, seq := n, cls := r.cls
          deadline := deadline, budget := 1024 * i.budget, demoted := false, low := low, killed := false, charge := 0, rest := 0
          target := if a.own.isSome then a.own else if i.baren then s.barrierBlock i else none
          imageAt := a.imageAt, ws := ws, depth := a.depth, dom := a.dom.getD r.dom, parent := a.parent }
      img := img, die := key / 16, chan := key % 16, ctx := ctx, w0 := x.wptr.toNat, done := [], tiles := [], moving := []
      parked := [], again := [], data := []
      chain := if i.ckmode = 0 then none else some ((chain.bind (fun c => c.chain)).getD id)
      tries := 0, matched := false, parts := [], away := [], arrived := [], arriving := none }
  let s := { s with
    belfry := { s.belfry with arrival := n }
    copies := { s.copies with copies := tput s.copies.copies id c } }
  let s := s.modCtx key ctx (fun x => { x with serial := x.serial + 1, copy := some id, w0 := x.wptr.toNat, status := 0 })
  let s := if falls then match a.source with
      | .queue _ _ _ => { s with copies := { s.copies with chans := tmod s.copies.chans key (fun ch => { ch with warn := ch.warn ||| 2 }) } }
      | .group g _ _ _ _ => s.warn g 1
    else s
  ((s.handleOf c).toNat, s)

/-- Whether the RCB that an image names is not that of the region which must issue it, whatever stands there (R192). -/
def State.rcbForeign (s : State) (a : CopyAsk) : Bool :=
  match a.ownRegion with
  | none => false
  | some x => match s.xlate a.space.troot .load a.space.world a.img.rcb with
    | .ok pa => decide (pa ≠ x)
    | .error _ => true

/-- The checks of R161, R13 and R29, the limits of the channels and the demand test: the handle, or a status alone, and
the state. -/
def State.admitCopy (s : State) (a : CopyAsk) : Nat × State :=
  if s.copyIllegal a then (9, s)
  else if s.rcbForeign a then (6, s)
  else
    match s.resolve a.space a.img.rcb with
    | .error e => (e, s)
    | .ok (chain, r) =>
      let sp : Space := ⟨a.space.troot, r.world⟩
      if ¬ a.space.world ∧ s.copyNamesS sp a.img then (7, s)
      else
        let head := s.openChain a.source
        let at_ := s.localByte sp a.img
        let die := match head with
          | some c => c.die
          | none => match at_ with
            | .ok pa => dieOf pa
            | .error _ => a.homeDie
        let key := s.pickChannel die head
        match s.freeCtx key with
        | none => (5, s)
        | some ctx =>
          let deadline := a.from_ + 256 * a.img.deadline
          if ¬ s.demandTest chain r.cls deadline (1024 * a.img.budget) 16 [] (some die) then (5, s)
          else
            let ws := decide (a.img.rside ≠ 2) && (match at_ with
              | .ok pa => inWeight pa
              | .error _ => false)
            let low := (s.serversFor chain).any (fun e => e.2.ordOut)
            (s.loadServers (serverRcbs chain)).addCopy a a.img r head key ctx deadline low ws

/-! ### CPSUB (R192) -/

/-- The address of the image of a CPSUB: that of the lowest active lane's replay, or the pair's (R171). -/
def State.imageAddr (s : State) (f : TR) (g l : Nat) : Wide :=
  match s.replayOf g l with
  | some r => r.addr
  | none => s.pair g f.a.toNat

/-- CPSUB: its threads wait for the image to be read and for admission, as at a waiting instruction, though R81 and R195 do not name it
among those (DESIGN CHOICE, log entry 53). In an open containment region it unwinds with ILL (R192, R282). -/
def execCpsub (f : TR) (e : Word) (s : State) : Res :=
  let i : Instr := .cpsub f e
  let o := opnds i
  let b := (s.begin_ i o).unwindWhere 3 State.inContain
  let is := b.iss
  let m := is.leader
  let g := m.gid
  if m.act = 0 then .next (b.advanceAll is 0)
  else
    let a := b.imageAddr f g (lowLane m.act)
    if a.toNat % 64 ≠ 0 then
      .next ((b.parkSplit is g m.act (kProt, 6) a (b.opval is o g (lowLane m.act))).advance g (m.lanes &&& ~~~m.act) is.next
        (b.nextReady is 0))
    else
      let (id, b) := b.waitFor is m (.cpsub f.d.toNat none e (b.genAt g (fld e 23 4)) a) (scalMark o.sd) b.clk.ns 0
      .next (b.setOpval id (b.opval is o g (lowLane m.act)))

/-- What a CPSUB asks for, from the image it has read and its extension word. -/
def State.kernelAsk (s : State) (w : Wait) (image : List Byte) (e : Word) (gen : Gen) (at_ : Wide) : CopyAsk :=
  let G := s.group w.gid
  let L := s.launch G.id.launch
  let i := copyImage image
  let i := if fld e 0 22 = 0 then i else { i with deadline := fld e 0 22 }
  let own := e.getLsbD 22
  let i := if own then { i with bar := fld e 23 4, gen := gen, baren := true } else i
  { source := .group w.gid G.id.launch G.id.bindex G.id.index (BitVec.ofNat 64 (leAt image 0x10 8))
    space := ⟨L.region.troot, L.region.world⟩, raw := image, img := i, from_ := w.at_, qheader := 0, homeDie := dieOfCore (s.coreOf w.gid)
    own := if own then some G.id.block else none, ownRegion := some L.region.rcb, imageAt := at_
    depth := L.faultHome.1, dom := L.fault.map (fun f => f.origin.dom)
    parent := (match L.fault with
      | some f => f.handle
      | none => 0) }

/-- Whether the packet header of a COPY image is legal: its TYPE, its reserved fields, COMPL's alignment, and FLAGS
(R31, R32, R192). -/
def imageHeaderOk (b : List Byte) : Bool :=
  decide (leAt b 8 1 = 7) && decide (leAt b 9 1 ≤ 1) && zeroBytes b 10 6 && decide (leAt b 0x10 8 % 8 = 0)

/-- Whether the queue rules hold a group's copy back: BARRIER, or a copy into the weight store, waits until every earlier
copy of the group has its final status; and while such a copy runs no later one is acted on (R31, R154, R192). -/
def State.groupHeld (s : State) (w : Nat × Wait) (image : List Byte) (intoWs : Bool) : Bool :=
  let mine := s.copies.copies.filter (fun e => match e.2.id.source with
    | .group g _ _ _ _ => decide (g = w.2.gid)
    | _ => false)
  mine.any (fun e => e.2.id.ws) || ((image.getD 9 0).getLsbD 0 || intoWs) && !mine.isEmpty ||
    s.flight.waits.any (fun e => decide (e.2.gid = w.2.gid) && decide (e.2.seq < w.2.seq) && (match e.2.kind with
      | .cpsub _ _ _ _ _ => true
      | _ => false))

/-- Whether the local destination of an image lies in the weight store. -/
def State.intoWeight (s : State) (sp : Space) (i : CopyImage) : Bool :=
  decide (i.rside ≠ 2) && (match s.firstByte sp .copyWrite i.dst with
    | .ok pa => inWeight pa
    | .error _ => false)

/-- The admission status of a kernel's copy also goes to its COMPL, where it has one (R39, R192). -/
def State.copyAdmitted (s : State) (a : CopyAsk) (h : Nat) : State :=
  match a.source with
  | .group _ _ _ _ compl =>
    if compl = 0 ∨ compl.toNat % 8 ≠ 0 then s
    else match s.belfryWrite a.space compl.toNat (complWord s (h % 256)) with
      | .ok s => s
      | .error _ => s
  | .queue _ _ _ => s

/-- The image of a CPSUB is read once, after its release at .die and any refresh window of its bank, or its threads park (R155, R192,
R230). -/
def State.readImage (s : State) (wait : Nat) (w : Wait) (at_ : Wide) (k : List Byte → WaitKind) : State :=
  let r := s.regionOf w.gid
  match s.vread (pathOf (s.coreOf w.gid)) r.troot r.world at_.toNat 64 with
  | .error e => s.waitFault wait w e.1 (BitVec.ofNat 64 e.2)
  | .ok image => if s.vaHeld r.troot r.world at_.toNat 64 then s else { s with flight := { s.flight with waits := tput s.flight.waits wait { w with kind := k image } } }

/-- CPSUB_ADMIT: once the group's earlier stores are out at .die the image is read; admission is decided, and the handle lands
(R192, R230). -/
def execCpsubAdmit (wait : Nat) (s : State) : Res :=
  match tget s.flight.waits wait with
  | none => .next s
  | some w =>
    match w.kind with
    | .cpsub d none e gen imageAt =>
      if ¬ s.earlierStoresOut w.gid wait 4 then .next s
      else .next (s.readImage wait w imageAt (fun b => .cpsub d (some b) e gen imageAt))
    | .cpsub d (some image) e gen imageAt =>
      let a := s.kernelAsk w image e gen imageAt
      if s.groupHeld (wait, w) image (s.intoWeight a.space a.img) then .next s
      else
        let (h, s) := if imageHeaderOk image then s.admitCopy a else (9, s)
        let s := s.copyAdmitted a h
        .next ((s.waitScalar w d (BitVec.ofNat 32 h)).endWait wait)
    | _ => .next s

/-! ### CPWP and CPWAIT (R193, R194) -/

/-- The context that a handle or a CPWP.raw selector names. -/
def State.ctxAt (s : State) (die chan ctx : Nat) : Ctx := tgetD (tgetD s.copies.chans (16 * die + chan)).ctxs ctx

/-- The context of a handle. -/
def State.handleCtx (s : State) (h : Word) : Ctx := s.ctxAt (fld h 8 2) (fld h 10 4) (fld h 14 3)

/-- What CPWP returns for a handle. -/
def State.progress (s : State) (h : Word) : Word :=
  let x := s.handleCtx h
  if fld h 0 8 ≠ 1 then BitVec.ofNat 32 (0x80000000 + fld h 0 8)
  else if x.serial.toNat ≠ fld h 17 15 then 0x80000000
  else if x.copy.isNone then
    if x.status = 2 ∨ x.status = 3 then 0xFFFFFFFF else BitVec.ofNat 32 (0x80000000 + x.status)
  else BitVec.ofNat 32 (x.wptr.toNat - x.w0)

/-- CPWP (R193). -/
def execCpwp (f : TR) (e : Word) (s : State) : Res :=
  let i : Instr := .cpwp f e
  let s := s.begin_ i (opnds i)
  let is := s.iss
  let m := is.leader
  if m.act = 0 then .next (s.advanceAll is 0)
  else .next ((s.issueScalar m.gid f.d.toNat (s.progress (s.scalar m.gid f.a.toNat))).finish is)

/-- CPWP.raw (R191, R193). -/
def execCpwpRaw (f : TR) (e : Word) (s : State) : Res :=
  let i : Instr := .cpwpRaw f e
  let s := s.begin_ i (opnds i)
  let is := s.iss
  let m := is.leader
  if m.act = 0 then .next (s.advanceAll is 0)
  else
    let a := s.scalar m.gid f.a.toNat
    let v : Wide := if fld a 9 23 ≠ 0 then BitVec.allOnes 64
      else (s.ctxAt (fld a 0 2) (fld a 2 4) (fld a 6 3)).wptr
    .next ((s.issuePair m.gid f.d.toNat v).finish is)

/-- The status that CPWAIT returns for a handle, once there is one (R194). -/
def State.waitedStatus (s : State) (h : Word) : Option Nat :=
  let x := s.handleCtx h
  if fld h 0 8 ≠ 1 then some (fld h 0 8)
  else if x.serial.toNat ≠ fld h 17 15 then some 0
  else if x.copy.isSome then none
  else some x.status

/-- CPWAIT: a status that is known is returned at once, or its threads wait (R194). -/
def execCpwait (f : TR) (e : Word) (s : State) : Res :=
  let i : Instr := .cpwait f e
  let o := opnds i
  let s := s.begin_ i o
  let is := s.iss
  let m := is.leader
  if m.act = 0 then .next (s.advanceAll is 0)
  else
    let h := s.scalar m.gid f.a.toNat
    match s.waitedStatus h with
    | some n => .next ((s.issueScalar m.gid f.d.toNat (BitVec.ofNat 32 n)).finish is)
    | none => .next (s.waitFor is m (.cpwait f.d.toNat h) (scalMark o.sd) s.clk.ac 0).2

/-- CPWAIT_RETURN (R194). -/
def execCpwaitReturn (wait : Nat) (s : State) : Res :=
  match tget s.flight.waits wait with
  | none => .next s
  | some w =>
    match w.kind with
    | .cpwait d h =>
      if (s.group w.gid).run.place = .stowed then .next s
      else match s.waitedStatus h with
        | none => .next s
        | some n => .next ((s.waitScalar w d (BitVec.ofNat 32 n)).endWait wait)
    | _ => .next s

end Sys2Proof.Machine
end

