-- ==== Sys2Proof/Machine/Records.lean ====
section
/-! DEFINITION. The parked record as it stands in memory (R265, R266). -/
namespace Sys2Proof.Machine

/-- A record of the fault path. -/
def State.modRec (s : State) (id : Nat) (f : FRec → FRec) : State :=
  { s with faults := { s.faults with recs := tmod s.faults.recs id f } }

/-- OTYPE of an origin (R265). -/
def Origin.otype : Origin → Nat
  | .lanes _ _ => 0
  | .tile _ => 1
  | .segment _ _ => 2
  | .transfer _ _ _ => 2
  | .claims _ _ => 3
  | .region _ => 4
  | .spill _ => 5
  | .formation _ _ => 6
  | .writeBack _ _ _ => 6

/-- LANEMASK of a record (R265). -/
def State.laneMaskOf (s : State) : Origin → Mask
  | .lanes _ m => m
  | .spill g => (s.group g).occupied
  | .tile op => match tget s.mats op with
    | some m => BitVec.ofNat 128 (2 ^ m.members.length - 1)
    | none => 0
  | .claims _ ws => (ws.head?.map (fun w => w.lanes)).getD 0
  | _ => 0

/-- STATUS (R266). -/
def FRec.status (r : FRec) : Nat :=
  r.state % 4 + (if r.patched then 4 else 0) + (if r.keep then 8 else 0) + (if r.binned.isSome then 16 else 0) + 256 * (r.action % 8)

/-- The 128 bytes of a record as the device first writes them (R265). -/
def State.recBytes (s : State) (r : FRec) : List Byte :=
  [BitVec.ofNat 8 r.kind, BitVec.ofNat 8 r.sub, BitVec.ofNat 8 r.depth, BitVec.ofNat 8 r.origin.otype] ++ leBytes 4 r.status ++
  leBytes 8 0 ++ leBytes 8 r.bundle.toNat ++ leBytes 4 r.region.regionId ++ leBytes 4 (r.block % 2 ^ 24 + 2 ^ 24 * (r.group % 256)) ++
  leBytes 16 (s.laneMaskOf r.origin).toNat ++ leBytes 8 r.pc.toNat ++ leBytes 8 r.addr.toNat ++
  ((r.opval.flatMap (fun (v : Wide) => leBytes 8 v.toNat)) ++ List.replicate 32 0).take 32 ++
  leBytes 8 (r.binned.getD (2 ^ 64 - 1)) ++ leBytes 8 r.time ++ leBytes 8 (r.time + r.dom.fdeadline) ++ leBytes 8 r.parent.toNat

/-- The physical address of a record that has been written. -/
def FRec.addrOf (r : FRec) : Option Nat := r.handle.map (fun h => h.toNat % 2 ^ 48)

/-- Bytes of a record in memory are written at the device. -/
def State.recPut (s : State) (id off : Nat) (b : List Byte) : State :=
  match (tget s.faults.recs id).bind FRec.addrOf with
  | some a => s.ownWrite (a + off) b
  | none => s

/-- STATUS is brought up to date in memory. -/
def State.putStatus (s : State) (id : Nat) : State :=
  match tget s.faults.recs id with
  | some r => s.recPut id 4 (leBytes 4 r.status)
  | none => s

/-- A record's fields and its STATUS in memory change. -/
def State.setRec (s : State) (id : Nat) (f : FRec → FRec) : State := (s.modRec id f).putStatus id

/-- The record that a handle names on this chip (R267, R289). -/
def State.recOf (s : State) (h : Wide) : Option (Nat × FRec) :=
  s.faults.recs.find? (fun e => decide (e.2.handle = some h))

/-- The record's word `w` as it stands in memory, whatever the state of its page. -/
def State.recWord (s : State) (r : FRec) (w : Nat) : Word :=
  match r.addrOf with
  | some a => BitVec.ofNat 32 (leNat ((List.range 4).map (fun i => s.byteAt (a + 4 * w + i))))
  | none => 0

/-- The chip that a handle names (R267). -/
def handleChip (h : Wide) : Nat := h.toNat / 2 ^ 48

/-- Whether the fault task of a record is over: none was appended, its launch has retired here, or the chip that ran it
has written a final status into the record (R267, R280, R39). -/
def State.taskOver (s : State) (r : FRec) : Bool :=
  if ¬ r.appended then true
  else match r.task with
    | some l => (tget s.belfry.launches l).isNone
    | none => !thisChip r.dom.hqChip && [2, 3, 4].contains ((s.recWord r 2).toNat % 256)

/-- Served records whose fault tasks are over leave their slots (R267). -/
def State.freeRecords (s : State) : State :=
  { s with faults := { s.faults with recs := s.faults.recs.filter (fun (e : Nat × FRec) =>
    !(decide (e.2.state ≥ 2) && e.2.handle.isSome && e.2.service.isNone && s.taskOver e.2)) } }

/-- STATUS of every record is brought up to date in memory. -/
def State.syncRecs (s : State) : State := foldS (s.faults.recs.map Prod.fst) s State.putStatus

end Sys2Proof.Machine
end

