-- ==== Sys2Proof/Machine/Queue.lean ====
section
/-! DEFINITION. User-mode queues (R25 to R30), their packets (R31 to R36), the Belfry's processors (R37, R38), and the
action on each packet. -/
namespace Sys2Proof.Machine

/-! ### Queues -/

/-- A served queue. -/
def State.queue (s : State) (q : Nat) : Queue := tgetD s.belfry.queues q

/-- The state with a queue changed. -/
def State.modQueue (s : State) (q : Nat) (f : Queue → Queue) : State :=
  { s with belfry := { s.belfry with queues := tmod s.belfry.queues q f } }

/-- The address space in which the Belfry acts for a queue (R25, R34). -/
def Queue.space (Q : Queue) : Space := ⟨Q.troot, Q.world⟩

/-- The address of slot i (R25). -/
def Queue.slotVa (Q : Queue) (i : Nat) : Nat := Q.slotBase.toNat + 64 * (i % Q.nslots)

/-- Whether a header may be served: its reserved fields, ranges and alignments, and its worlds (R25, R26, R29). -/
def State.headerOk (s : State) (e : QEntry) (b : List Byte) : Bool :=
  let n := leAt b 0x10 4
  decide (e.header.toNat % 64 = 0) && decide ((leAt b 0x14 4).testBit 0 = e.world) && decide (s.pageS e.header.toNat = e.world) &&
    decide (leAt b 0x14 4 < 4) && decide (64 ≤ n) && decide (n ≤ 65536) && (List.range 17).any (fun k => decide (n = 2 ^ k)) &&
    decide (leAt b 0x18 8 % 64 = 0) && zeroBytes b 0x22 2 && zeroBytes b 0x24 4 && decide (leAt b 0x28 8 % 4096 = 0) && zeroBytes b 0x38 8

/-- A queue is registered: the header is read, and served or refused with ERR (R29), a poisoned one too. DESIGN CHOICE, log
entry 47. -/
def State.registerQueue (s : State) (q : Nat) : State :=
  let e := tgetD s.belfry.qreg q
  let h := e.header.toNat
  let refuse : State := { s with belfry := { s.belfry with
    qreg := tmod s.belfry.qreg q (fun e => { e with err := true }), queues := tdel s.belfry.queues q } }
  if ¬ memRun h 64 ∨ h ≥ scratchBase ∨ (s.firstPoison [] [(h, 64)]).isSome then refuse
  else
    let b := s.runBytes [] [(h, 64)]
    if ¬ s.headerOk e b then refuse
    else
      let Q : Queue :=
        { header := h, nslots := leAt b 0x10 4, slotBase := BitVec.ofNat 64 (leAt b 0x18 8), asid := leAt b 0x20 2
          troot := leAt b 0x28 8, world := e.world, watch := (leAt b 0x14 4).testBit 1, rd := leAt b 8 8, packet := none
          skips := 0, awake := true, checkAt := s.clk.ns + 10000, stopping := false, devSlots := [], line := 0, seen := [] }
      { s with belfry := { s.belfry with queues := tput s.belfry.queues q Q } }

/-- A ticket access failed: the Belfry stops fetching from the queue, sets ERR and writes LASTERR (R34). -/
def State.stopQueue (s : State) (q slot : Nat) : State :=
  let s := { s with belfry := { s.belfry with qreg := tmod s.belfry.qreg q (fun e => { e with err := true }) } }
  (s.modQueue q (fun Q => { Q with stopping := true, skips := 0 })).lastErr (s.queue q).header 10 slot

/-- The ticket of the slot at the read index. -/
def State.ticketAt (s : State) (Q : Queue) : Except Nat Nat :=
  match s.belfryRead Q.space (Q.slotVa Q.rd) 8 with
  | .error e => .error e
  | .ok b => .ok (leNat b)

/-- Whether the slot at the read index is published (R28). -/
def State.published (s : State) (Q : Queue) : Bool :=
  match s.ticketAt Q with
  | .ok t => decide (t = (Q.rd + 1) % 2 ^ 64)
  | .error _ => false

/-- A queue's processor (R37). -/
def procOf (q : Nat) : Nat := q % 8

/-- What a watched queue waits on: WRIDX, and the line that holds the ticket (R30). -/
def State.watched (s : State) (Q : Queue) (line : Nat) : List Byte := s.runBytes [] [(Q.header, 8), (line, 64)]

/-- A queue that is empty or held gives up its slice: its processor goes on after it in the round, and it has a new slice when its
turn comes again (R38). -/
def State.giveUp (s : State) (q : Nat) : State :=
  { s with belfry := { s.belfry with procs := tmod s.belfry.procs (procOf q) (fun P =>
    if P.current = some q then { P with sliceEnd := 0 } else P) } }

/-- A queue whose slot at the read index is not published waits for a write, or for its next poll (R30). -/
def State.sleepQueue (s : State) (q : Nat) : State :=
  let s := s.giveUp q
  let Q := s.queue q
  let line := match s.xlate Q.troot .load Q.world (Q.slotVa Q.rd) with
    | .ok pa => pa / 64 * 64
    | .error _ => 0
  s.modQueue q (fun Q => { Q with awake := false, checkAt := s.clk.ns + 10000, line := line, seen := s.watched Q line })

/-- Whether the write of the ticket that frees the slot at the read index succeeds. -/
def State.consumes (s : State) (Q : Queue) : Bool :=
  match s.belfryWrite Q.space (Q.slotVa Q.rd) (leBytes 8 ((Q.rd + Q.nslots) % 2 ^ 64)) with
  | .error _ => false
  | .ok _ => true

/-- The slot at the read index is freed, and RDIDX advances (R28). -/
def State.consume (s : State) (q : Nat) : State :=
  let Q := s.queue q
  match s.belfryWrite Q.space (Q.slotVa Q.rd) (leBytes 8 ((Q.rd + Q.nslots) % 2 ^ 64)) with
  | .error _ => s.stopQueue q Q.rd
  | .ok s =>
    let rd := (Q.rd + 1) % 2 ^ 64
    (s.ownWrite (Q.header + 8) (leBytes 8 rd)).modQueue q (fun Q => { Q with rd := rd })

/-! ### Processors and slices (R37, R38) -/

/-- Whether a packet's first step has been performed and its last has not (R38). -/
def Packet.midway (p : Packet) : Bool := decide (p.step > 0)

/-- Whether a queue has something that its processor can do: it is not empty and not held. One whose JUMP skips and finds
the next slot unpublished is empty; one whose BRANCH has read its result is midway through its packet (R38). DESIGN CHOICE, log entry 47. -/
def State.queueReady (_s : State) (Q : Queue) : Bool :=
  match Q.packet with
  | some p => !p.held && (decide (Q.skips = 0) || Q.awake)
  | none => Q.awake && !Q.stopping

/-- The next ready queue of a processor after a queue, in round-robin order. -/
def State.nextQueue (s : State) (p : Nat) (after : Option Nat) : Option Nat :=
  let r := (s.belfry.queues.filter (fun e => decide (procOf e.1 = p) && s.queueReady e.2)).map Prod.fst
  match after with
  | none => r.head?
  | some c => ((r.filter (fun q => decide (q > c))) ++ (r.filter (fun q => decide (q ≤ c)))).head?

/-- The queue that a processor serves now: the current one while it is midway through a packet, or ready and has not given up its
slice; else the next ready one. -/
def State.servedBy (s : State) (p : Nat) : Option Nat :=
  let P := tgetD s.belfry.procs p
  match P.current with
  | none => s.nextQueue p none
  | some c =>
    let Q := s.queue c
    if (tget s.belfry.queues c).isSome ∧ ((s.queueReady Q ∧ P.sliceEnd ≠ 0) ∨ (Q.packet.any Packet.midway)) then some c
    else s.nextQueue p (some c)

/-- Whether the Belfry serves its queues: it runs, and the boot has ended (R344). -/
def State.belfryUp (s : State) : Bool := !s.spire.boot.inReset.contains 0 && decide (s.spire.boot.released ≥ 7)

/-- TYPE of a packet; bytes 0 to 7 of `bytes` are its ticket. -/
def Packet.type (p : Packet) : Nat := leAt p.bytes 8 1
/-- A field of a packet. -/
def Packet.field (p : Packet) (o n : Nat) : Nat := leAt p.bytes o n

/-- The address of the claimed slot of a WRSIG's target, from the header that it read (R25, R36). -/
def Packet.targetSlot (p : Packet) : Nat := leAt p.info 0x18 8 + 64 * (p.val.toNat % max 1 (leAt p.info 0x10 4))

/-- Whether the RCBs of a chain wait for a refresh window. -/
def State.chainHeld (s : State) (sp : Space) (va : Nat) : Bool :=
  s.vaHeld sp.troot sp.world va 256 || (match s.readChain sp 8 va with
    | .ok chain => chain.any (fun r => s.runHeld r.1 256)
    | .error _ => false)

/-- What the Belfry reads next for a queue (R34). -/
def State.nextReads (s : State) (Q : Queue) : List (Nat × Nat) :=
  match Q.packet with
  | none => [(Q.slotVa Q.rd, 64)]
  | some p =>
    if Q.skips > 0 then [(Q.slotVa Q.rd, 8)]
    else match p.type with
      | 1 => [(p.field 0x18 8, 256)]
      | 2 => [(p.field 0x18 8, 8)]
      | 4 =>
        if p.field 0x3C 1 = 0 then [(p.field 0x28 8, 8)]
        else
          let h := s.belfryRead Q.space (p.field 0x28 8) 64
          let p' := match h with
            | .ok b => { p with val := BitVec.ofNat 64 (leAt b 0 8), info := b }
            | .error _ => p
          [(p.field 0x28 8, 64), (p'.targetSlot, 8), (p.field 0x30 8, 64)]
      | 5 => if p.field 0x18 8 = 0 then [] else [(p.field 0x18 8, 8)]
      | _ => []

/-- Whether what the Belfry reads next for a queue waits for a refresh window of the weight store (R155). -/
def State.belfryHeld (s : State) (Q : Queue) : Bool :=
  s.refreshNow && ((s.nextReads Q).any (fun x => s.vaHeld Q.troot Q.world x.1 x.2) || (match Q.packet with
    | none => false
    | some p => match p.type with
      | 1 => (match s.belfryRead Q.space (p.field 0x18 8) 8 with
        | .ok b => s.chainHeld Q.space (leNat b)
        | .error _ => false)
      | 7 => s.chainHeld Q.space (copyImage p.bytes).rcb
      | _ => false))

/-- Whether it is a queue's turn at its processor, and what is read for it waits for no refresh window (R155). -/
def State.turn (s : State) (q : Nat) : Bool :=
  s.belfryUp && decide (s.servedBy (procOf q) = some q) && !s.belfryHeld (s.queue q)

/-- Whether a processor is between packets. -/
def State.between (s : State) (p : Nat) : Bool :=
  match (tgetD s.belfry.procs p).current with
  | none => true
  | some c => !((s.queue c).packet.any Packet.midway)

/-- A queue becomes the one that its processor serves; a new slice starts when it was not. -/
def State.serve (s : State) (q : Nat) : State :=
  { s with belfry := { s.belfry with procs := tupd s.belfry.procs (procOf q) (fun P =>
    if P.current = some q ∧ P.sliceEnd ≠ 0 then P else ⟨some q, s.clk.ns + 2000⟩) } }

/-- QUEUE_SLICE_EXPIRE: between packets, the processor moves to the next ready queue (R38). -/
def execQueueSliceExpire (proc : Nat) (s : State) : Res :=
  let P := tgetD s.belfry.procs proc
  if ¬ s.belfryUp ∨ P.current.isNone ∨ P.sliceEnd = 0 ∨ P.sliceEnd > s.clk.ns ∨ ¬ s.between proc then .next s
  else .next { s with belfry := { s.belfry with procs := tput s.belfry.procs proc ⟨s.nextQueue proc P.current, s.clk.ns + 2000⟩ } }

/-- Whether a queue waits for a slot to be published: to fetch it, unless VALID has been written 0, or to skip it for its packet in
progress (R29). -/
def Queue.asleep (Q : Queue) : Bool := !Q.awake && ((Q.packet.isNone && !Q.stopping) || decide (Q.skips > 0))

/-- BELFRY_WAKE: a write to WRIDX or to the awaited ticket's line of a watched queue makes the Belfry read the slot again
(R30). A write that leaves what stood there goes unseen (DEDUCED, log entry 14). -/
def execBelfryWake (queue : Nat) (s : State) : Res :=
  match tget s.belfry.queues queue with
  | none => .next s
  | some Q =>
    if s.belfryUp ∧ Q.watch ∧ Q.asleep ∧ s.watched Q Q.line ≠ Q.seen then
      .next (s.modQueue queue (fun Q => { Q with awake := true }))
    else .next s

/-- QUEUE_POLL: an unwatched queue is looked at again (R30). -/
def execQueuePoll (queue : Nat) (s : State) : Res :=
  match tget s.belfry.queues queue with
  | none => .next s
  | some Q =>
    if s.belfryUp ∧ ¬ Q.watch ∧ Q.asleep ∧ (s.published Q ∨ Q.checkAt ≤ s.clk.ns) then
      .next (s.modQueue queue (fun Q => { Q with awake := true }))
    else .next s

/-! ### What makes a packet legal (R31 to R33) -/

/-- COMPL. -/
def Packet.compl (p : Packet) : Wide := BitVec.ofNat 64 (leAt p.bytes 0x10 8)
/-- The BARRIER flag. -/
def Packet.barrier (p : Packet) : Bool := (leAt p.bytes 9 1).testBit 0
/-- The FAULT flag (R273). -/
def Packet.isTask (p : Packet) : Bool := (leAt p.bytes 9 1).testBit 1

/-- The body's fields: ranges, alignments and unlisted bytes (R33); 0 is no chip identifier (R320). -/
def bodyOk (b : List Byte) (nslots : Nat) : Bool :=
  let skips := [leAt b 0x20 2, leAt b 0x22 2, leAt b 0x24 2, leAt b 0x26 2]
  let compl := leAt b 0x10 8
  match leAt b 8 1 with
  | 1 => decide (leAt b 0x18 8 % 256 = 0) && zeroBytes b 0x38 8 && decide (compl ≠ 0)
  | 2 => decide (leAt b 0x18 8 % 8 = 0) && decide (leAt b 0x30 1 ≤ 5) && zeroBytes b 0x31 15
  | 3 =>
    let n := leAt b 0x2A 1
    (decide (n = 4) || decide (n = 8)) && decide (leAt b 0x18 8 % n = 0) && decide (leAt b 0x28 2 ≠ 0) && zeroBytes b 0x2B 21
  | 4 =>
    let k := leAt b 0x3C 1
    decide (k ≤ 1) && decide (leAt b 0x18 8 % 8 = 0) && decide (leAt b 0x38 2 ≠ 0) && decide (leAt b 0x3A 2 ≠ 0) && zeroBytes b 0x3D 3 &&
      (if k = 0 then decide (leAt b 0x28 8 % 8 = 0) else decide (leAt b 0x28 8 % 64 = 0) && decide (leAt b 0x30 8 % 64 = 0))
  | 5 => decide (leAt b 0x18 8 % 8 = 0) && decide (1 ≤ leAt b 0x28 1) && decide (leAt b 0x28 1 ≤ 4) &&
      skips.all (fun n => decide (n < nslots)) && zeroBytes b 0x29 23
  | 6 => decide (leAt b 0x18 2 < nslots) && zeroBytes b 0x1A 38
  | 7 => decide (compl ≠ 0)
  | 8 => decide (4 ≤ leAt b 0x18 1) && decide (leAt b 0x18 1 ≤ 6) && zeroBytes b 0x19 39
  | 9 => decide (leAt b 0x18 8 % 8 = 0) && decide (leAt b 0x20 2 ≠ 0) && zeroBytes b 0x22 30
  | 10 => zeroBytes b 0x18 40
  | _ => false

/-- Whether a fetched packet is legal. FAULT may stand only in a LAUNCH that the device or another chip has appended
(R273, DEDUCED, log entry 35). -/
def Queue.legal (Q : Queue) (p : Packet) : Bool :=
  let flags := leAt p.bytes 9 1
  (decide (flags ≤ 1) || (decide (flags ≤ 3) && decide (p.type = 1) && Q.devSlots.contains p.slot)) && zeroBytes p.bytes 10 6 &&
    decide (p.compl.toNat % 8 = 0) && bodyOk p.bytes Q.nslots

/-- The queue is done with its packet: a status goes to its completion word, or an error to LASTERR (R32, R34). -/
def State.endPacket (s : State) (q status : Nat) : State :=
  let Q := s.queue q
  match Q.packet with
  | none => s
  | some p =>
    let s := (s.serve q).modQueue q (fun Q => { Q with packet := none, devSlots := Q.devSlots.filter (· ≠ p.slot) })
    if p.compl ≠ 0 ∧ p.compl.toNat % 8 = 0 then s.complete Q.header p.slot Q.space p.compl status
    else if status ≥ 5 then s.lastErr Q.header status p.slot
    else s

/-- A packet's step has been performed. -/
def State.packetStep (s : State) (q : Nat) (f : Packet → Packet) : State :=
  (s.serve q).modQueue q (fun Q => { Q with packet := Q.packet.map (fun p => { f p with step := p.step + 1 }) })

/-- A packet's fields change between steps. -/
def State.modPacket (s : State) (q : Nat) (f : Packet → Packet) : State :=
  s.modQueue q (fun Q => { Q with packet := Q.packet.map f })

/-- PACKET_FETCH: the slot at the read index is copied, its ticket freed and RDIDX advanced; a packet that is not legal
completes at once, and one whose body cannot be read with FAULTED (R28, R32, R34). An empty queue gives up its slice.
DESIGN CHOICE, log entry 47. -/
def execPacketFetch (queue : Nat) (s : State) : Res :=
  match tget s.belfry.queues queue with
  | none => .next s
  | some Q =>
    if ¬ s.turn queue ∨ Q.packet.isSome ∨ Q.skips > 0 ∨ Q.stopping then .next s
    else match s.ticketAt Q with
      | .error _ => .next (s.stopQueue queue Q.rd)
      | .ok t =>
        if t ≠ (Q.rd + 1) % 2 ^ 64 then .next (s.sleepQueue queue)
        else
          let (b, whole) := match s.belfryRead Q.space (Q.slotVa Q.rd) 64, s.belfryRead Q.space (Q.slotVa Q.rd) 32 with
            | .ok b, _ => (b, true)
            | .error _, .ok b => (b ++ List.replicate 32 0, false)
            | .error _, .error _ => (List.replicate 64 0, false)
          let p : Packet := ⟨Q.rd, b, 0, s.clk.ns, false, none, 0, []⟩
          let s := (s.serve queue).consume queue
          if (s.queue queue).stopping then .next s
          else
            let s := s.modQueue queue (fun Q => { Q with packet := some p })
            if ¬ whole then .next (s.endPacket queue 10)
            else if Q.legal p then .next s else .next (s.endPacket queue 9)

/-! ### When a packet may be acted on (R31, R34, R154) -/

/-- Whether a queue has a LAUNCH or COPY without its final status; those of a former queue of the same index count with the
same header. DESIGN CHOICE, log entry 47. -/
def State.queueBusy (s : State) (q : Nat) : Bool :=
  let h := (s.queue q).header
  s.belfry.launches.any (fun e => decide (e.2.queue = q) && decide (e.2.qheader = h)) ||
  s.copies.copies.any (fun e => match e.2.id.source with
    | .queue k _ _ => decide (k = q) && decide (e.2.id.qheader = h)
    | .group _ _ _ _ _ => false)

/-- Whether a copy into the weight store holds the queue (R154). -/
def State.storeCopy (s : State) (q : Nat) : Bool :=
  s.copies.copies.any (fun e => e.2.id.ws && (match e.2.id.source with
    | .queue k _ _ => decide (k = q)
    | .group _ _ _ _ _ => false))

/-- Whether a packet must wait for earlier LAUNCHes and COPYs: its BARRIER flag, a BRANCH, a FENCE, or a COPY into the
weight store; and whatever follows such a COPY. -/
def State.heldBack (s : State) (q : Nat) (Q : Queue) (p : Packet) : Bool :=
  s.storeCopy q ||
  ((p.barrier || decide (p.type = 5) || decide (p.type = 8) ||
    (decide (p.type = 7) && s.intoWeight Q.space (copyImage p.bytes))) && s.queueBusy q)

/-- A queue's packet of a type, when it may be acted on now. -/
def State.actable (s : State) (q ty : Nat) : Option (Queue × Packet) :=
  match tget s.belfry.queues q with
  | none => none
  | some Q => match Q.packet with
    | none => none
    | some p =>
      if p.type = ty ∧ s.turn q ∧ p.msg.isNone ∧ ¬ p.held ∧ ¬ (p.step = 0 ∧ s.heldBack q Q p) then some (Q, p) else none

/-! ### Local and remote steps -/

/-- A store-release of a packet, here or on another chip: a failed access completes the packet; a remote one waits for
its acknowledgement (R34). -/
def State.packetStore (s : State) (q : Nat) (Q : Queue) (chip va : Nat) (b : List Byte) : State :=
  if thisChip chip then
    match s.belfryWrite Q.space va b with
    | .error e => s.endPacket q e
    | .ok s => s.packetStep q id
  else if s.unreachable chip then s.endPacket q 11
  else
    let (m, s) := s.post chip (.belfry q) (BitVec.ofNat 64 va) [(0, b.length)] b Q.world
    (s.packetStep q id).modPacket q (fun p => { p with msg := some m })

/-- A remote operation of a packet is sent whose answer the next step needs. -/
def State.packetAsk (s : State) (q : Nat) (Q : Queue) (chip va : Nat) (b : List Byte) : State :=
  if s.unreachable chip then s.endPacket q 11
  else
    let (m, s) := s.post chip (.belfry q) (BitVec.ofNat 64 va) [] b Q.world
    (s.packetStep q id).modPacket q (fun p => { p with msg := some m })

/-- A remote step of a packet is answered: a refusal completes it with FAULTED (R318). -/
def State.packetAnswer (s : State) (q message : Nat) (bytes : List Byte) (failed : Bool) : State :=
  let s := s.dropMsg message
  match (s.queue q).packet with
  | none => s
  | some p =>
    if p.msg ≠ some message then s
    else
      let s := s.modPacket q (fun p => { p with msg := none, val := BitVec.ofNat 64 (leNat (bytes.take 8)), info := if bytes.length ≥ 64 then bytes else p.info })
      if failed then s.endPacket q 10 else s

/-- A remote step of a packet is lost (R34, R323). -/
def State.packetLost (s : State) (q message : Nat) : State :=
  let s := s.dropMsg message
  match (s.queue q).packet with
  | none => s
  | some p => if p.msg = some message then (s.modPacket q (fun p => { p with msg := none })).endPacket q 11 else s

/-! ### LAUNCH and COPY (R34, R42, R161) -/

/-- What a LAUNCH packet asks for. -/
def Packet.ask (p : Packet) (q header : Nat) : LaunchAsk :=
  { queue := q, header := header, slot := p.slot, compl := p.compl, bundle := p.field 0x18 8, deadline := p.field 0x20 8, budget := p.field 0x28 8
    args := BitVec.ofNat 64 (p.field 0x30 8) }

/-- LAUNCH: its admission status ends the packet (R34, R42). -/
def execLaunchPacket (queue : Nat) (s : State) : Res :=
  match s.actable queue 1 with
  | none => .next s
  | some (Q, p) =>
    if p.isTask then .next s
    else
      let (st, s) := s.admitLaunch Q.space (p.ask queue Q.header)
      .next (s.endPacket queue st)

/-- The status of a fault task's LAUNCH goes to the parked record that its ARGS names, here or on the chip of the handle
(R39). -/
def State.taskStatus (s : State) (handle : Wide) (status : Nat) : State :=
  if thisChip (handleChip handle) then s.ownWrite (handle.toNat % 2 ^ 48 + 8) (complWord s status)
  else (s.post (handleChip handle) (.status handle) (BitVec.ofNat 64 (handle.toNat % 2 ^ 48 + 8)) [(0, 8)] (complWord s status) false).2

/-- The end of a fault task's packet. -/
def State.endTaskPacket (s : State) (q : Nat) (handle : Wide) (status : Nat) : State :=
  ((s.serve q).modQueue q (fun Q => { Q with
    devSlots := Q.devSlots.filter (fun k => decide (Q.packet.map (fun p => p.slot) ≠ some k)), packet := none })).taskStatus handle status

/-- The fault domain of a record of another chip, as its handler's chip knows it: tasks go to the queue and the bundle by which this one
has come, records to Keep slots, and a terminal record would be lost; the rest is that chip's, free values (R276, R280, DEDUCED, log
entry 35). -/
def State.peerDomain (s : State) (handle : Wide) (header bundle : Nat) (world : Bool) : Domain :=
  let v (i : Nat) : Nat := (Config.freeWord s.env.freeCtr i).toNat
  { rcb := 2 ^ 64 * (handleChip handle + 1) + Config.peerRcb handle, ftclass := v 3 % 7, maxDepth := 1 + v 5 % 4
    hqChip := Config.chipId, pkCount := 0, hbundle := BitVec.ofNat 64 bundle, hqueue := header, pkArea := 0, fbtile := 0, termrec := 0
    fdeadline := 1000 + v 4, regionId := v 6, asid := 0, troot := sysBase, world := world, peer := some handle }

/-- What a fault task is told of its record and of its fault domain: this chip's record, or for another chip's what that chip
answers, a free value (R48, R273, DEDUCED, log entry 35). A fault of the task goes to the domain of its record (R276). -/
def State.taskOf (s : State) (handle : Wide) (r : Region) (header bundle : Nat) : Nat × FaultTask × Domain :=
  match s.recOf handle with
  | some (id, x) => (id, ⟨handle, some id, x.kind, x.sub, x.depth, { x.region with dom := x.dom }⟩, x.dom)
  | none =>
    let v (i : Nat) : Nat := (Config.freeWord s.env.freeCtr i).toNat % 256
    let dom := s.peerDomain handle header bundle r.world
    (0, ⟨handle, none, v 0, v 1, 1 + v 2 % 4, { r with servers := [], dom := dom }⟩, dom)

/-- FAULT_LAUNCH: a LAUNCH with FAULT set is admitted without the demand test (R273); while the table of admitted items is full
it waits (R40, DESIGN CHOICE, log entry 47). That of a record which a teardown has killed ends with KILLED (R279).
DEDUCED, log entry 35. -/
def execFaultLaunch (queue : Nat) (s : State) : Res :=
  match s.actable queue 1 with
  | none => .next s
  | some (Q, p) =>
    let handle : Wide := BitVec.ofNat 64 (p.field 0x30 8)
    if ¬ p.isTask ∨ s.admittedCount ≥ 16384 then .next s
    else if thisChip (handleChip handle) ∧ ¬ (s.recOf handle).any (fun e => e.2.appended && e.2.task.isNone) then
      .next (s.endPacket queue 9)
    else if (s.recOf handle).any (fun e => e.2.torn) then
      let s := s.endTaskPacket queue handle 4
      .next ((match s.recOf handle with
        | some (id, _) => s.modRec id (fun r => { r with appended := false })
        | none => s).freeRecords)
    else
      let home := match s.belfryRead Q.space (p.field 0x18 8) 8 with
        | .ok b => match s.resolve Q.space (leNat b) with
          | .ok (_, r) => r
          | .error _ => default
        | .error _ => default
      let (id, f, dom) := s.taskOf handle home Q.header (p.field 0x18 8)
      let s := if f.record.isNone then s.freshFree.2 else s
      let (st, s) := s.admitTask Q.space (p.ask queue Q.header) f dom
      let s := if st ≠ 1 ∨ f.record.isNone then s
        else s.setRec id (fun r => { r with state := max r.state 1, task := (s.belfry.launches.getLast?).map Prod.fst })
      .next (s.endTaskPacket queue handle st)

/-- COPY: its admission status ends the packet (R34, R161). -/
def execCopyPacket (queue : Nat) (s : State) : Res :=
  match s.actable queue 7 with
  | none => .next s
  | some (Q, p) =>
    let (h, s) := s.admitCopy
      { source := .queue queue p.slot p.compl, space := Q.space, raw := p.bytes, img := copyImage p.bytes, from_ := p.fetched
        qheader := Q.header, homeDie := 0, own := none, ownRegion := none, imageAt := BitVec.ofNat 64 (Q.slotVa p.slot), depth := 1, dom := none
        parent := 0 }
    .next (s.endPacket queue (h % 256))

/-! ### WAIT (R35) -/

/-- The condition of a WAIT. -/
def waitHolds (cmp : Nat) (x v : Wide) : Bool :=
  match cmp with
  | 0 => decide (x = v)
  | 1 => decide (x ≠ v)
  | 2 => decide (x.toNat ≥ v.toNat)
  | 3 => decide (x.toNat < v.toNat)
  | 4 => decide (x.toInt ≥ v.toInt)
  | _ => decide (x.toInt < v.toInt)

/-- What a WAIT finds: whether its condition holds, or the status of a failed read. -/
def State.waitRead (s : State) (Q : Queue) (p : Packet) : Except Nat Bool :=
  match s.belfryRead Q.space (p.field 0x18 8) 8 with
  | .error e => .error e
  | .ok b => .ok (waitHolds (p.field 0x30 1) (BitVec.ofNat 64 (leNat b) &&& BitVec.ofNat 64 (p.field 0x28 8)) (BitVec.ofNat 64 (p.field 0x20 8)))

/-- WAIT: the read of its word that satisfies it, and then DONE.
DESIGN CHOICE, log entry 14. -/
def execWaitPacket (queue : Nat) (s : State) : Res :=
  match s.actable queue 2 with
  | none => .next s
  | some (Q, p) =>
    if p.step > 0 then .next (s.endPacket queue 2)
    else if p.val ≠ 0 then .next (s.packetStep queue id)
    else match s.waitRead Q p with
      | .error e => .next (s.endPacket queue e)
      | .ok true => .next (s.packetStep queue id)
      | .ok false => .next (((s.giveUp queue).modPacket queue (fun p => { p with held := true })).modQueue queue (fun Q =>
          { Q with checkAt := s.clk.ns + 1000 }))

/-- WAIT_RECHECK: the word is read again when its line has been written, or after 1 µs; the processor must be between
packets. A satisfied WAIT is ready, and goes on in its queue's turn (R35, R38). -/
def execWaitRecheck (queue : Nat) (s : State) : Res :=
  match tget s.belfry.queues queue with
  | none => .next s
  | some Q => match Q.packet with
    | none => .next s
    | some p =>
      if p.type ≠ 2 ∨ ¬ p.held ∨ ¬ s.belfryUp ∨ ¬ s.between (procOf queue) ∨ s.belfryHeld Q then .next s
      else match s.waitRead Q p with
        | .error _ => .next (s.modPacket queue (fun p => { p with held := false }))
        | .ok true => .next (s.modPacket queue (fun p => { p with held := false, val := 1 }))
        | .ok false =>
          if Q.checkAt ≤ s.clk.ns then .next (s.modQueue queue (fun Q => { Q with checkAt := s.clk.ns + 1000 })) else .next s

/-! ### WRITE, WRSIG, STAMP (R34, R36) -/

/-- WRITE: the store, and then DONE. -/
def execWritePacket (queue : Nat) (s : State) : Res :=
  match s.actable queue 3 with
  | none => .next s
  | some (Q, p) =>
    if p.step > 0 then .next (s.endPacket queue 2)
    else .next (s.packetStore queue Q (p.field 0x28 2) (p.field 0x18 8) ((leBytes 8 (p.field 0x20 8)).take (p.field 0x2A 1)))

/-- WRSIG of kind 0: the store, the atomic add, and then DONE. -/
def execWrsigAdd (queue : Nat) (s : State) : Res :=
  match s.actable queue 4 with
  | none => .next s
  | some (Q, p) =>
    if p.field 0x3C 1 ≠ 0 then .next s
    else match p.step with
      | 0 => .next (s.packetStore queue Q (p.field 0x38 2) (p.field 0x18 8) (leBytes 8 (p.field 0x20 8)))
      | 1 =>
        let va := p.field 0x28 8
        if thisChip (p.field 0x3A 2) then
          match s.belfryRead Q.space va 8 with
          | .error e => .next (s.endPacket queue e)
          | .ok b => match s.belfryWrite Q.space va (leBytes 8 ((leNat b + p.field 0x30 8) % 2 ^ 64)) with
            | .error e => .next (s.endPacket queue e)
            | .ok s => .next (s.packetStep queue id)
        else .next (s.packetAsk queue Q (p.field 0x3A 2) va (leBytes 8 (p.field 0x30 8)))
      | _ => .next (s.endPacket queue 2)

/-- The claim of a target slot on this chip: none where the target is full or the swap fails (R36). -/
def State.claimSlot (s : State) (Q : Queue) (p : Packet) : Except Nat (Option (State × Packet)) :=
  let hdr := p.field 0x28 8
  match s.belfryRead Q.space hdr 64 with
  | .error e => .error e
  | .ok b =>
    let p := { p with val := BitVec.ofNat 64 (leAt b 0 8), info := b }
    match s.belfryRead Q.space p.targetSlot 8 with
    | .error e => .error e
    | .ok t =>
      if leNat t ≠ p.val.toNat then .ok none
      else match s.belfryWrite Q.space hdr (leBytes 8 ((p.val.toNat + 1) % 2 ^ 64)) with
        | .error e => .error e
        | .ok s => .ok (some (s, p))

/-- A WRSIG of kind 1 is held as a waiting WAIT (R36). -/
def State.holdPacket (s : State) (q : Nat) : State :=
  ((s.giveUp q).modPacket q (fun p => { p with held := true, step := 0, msg := none })).modQueue q (fun Q => { Q with checkAt := s.clk.ns + 1000 })

/-- The first steps of a WRSIG of kind 1: WRIDX, the ticket and the compare-and-swap, which nothing comes between on this
chip; on another chip each is a remote operation. -/
def State.appendClaim (s : State) (q : Nat) (Q : Queue) (p : Packet) : State :=
  let chip := p.field 0x3A 2
  if thisChip chip then
    match s.claimSlot Q p with
    | .error e => s.endPacket q e
    | .ok none => s.holdPacket q
    | .ok (some (s, p')) => (s.serve q).modPacket q (fun _ => { p' with step := 3 })
  else match p.step with
    | 0 => s.packetAsk q Q chip (p.field 0x28 8) []
    | 1 => s.packetAsk q Q chip p.targetSlot []
    | _ => s

/-- WRSIG of kind 1 (R36). -/
def execWrsigAppend (queue : Nat) (s : State) : Res :=
  match s.actable queue 4 with
  | none => .next s
  | some (Q, p) =>
    if p.field 0x3C 1 ≠ 1 then .next s
    else
      let chip := p.field 0x3A 2
      let w := leAt p.info 0 8
      let slot := leAt p.info 0x18 8 + 64 * (w % max 1 (leAt p.info 0x10 4))
      match p.step with
      | 0 => .next (s.appendClaim queue Q p)
      | 1 => .next (s.appendClaim queue Q p)
      | 2 =>
        if p.val.toNat ≠ w then .next (s.holdPacket queue)
        else .next (s.packetAsk queue Q chip (p.field 0x28 8) (leBytes 8 w ++ leBytes 8 ((w + 1) % 2 ^ 64)))
      | 3 =>
        if p.val.toNat ≠ w then .next (s.holdPacket queue)
        else .next (s.packetStore queue Q (p.field 0x38 2) (p.field 0x18 8) (leBytes 8 (p.field 0x20 8)))
      | 4 => match s.belfryRead Q.space (p.field 0x30 8) 64 with
        | .error e => .next (s.endPacket queue e)
        | .ok image => .next (s.packetStore queue Q chip (slot + 8) (image.drop 8))
      | 5 => .next (s.packetStore queue Q chip slot (leBytes 8 ((w + 1) % 2 ^ 64)))
      | _ => .next (s.endPacket queue 2)

/-- WRSIG_RETRY: a WRSIG that found its target full or contended tries again, as a waiting WAIT, after 1 µs (R35, R36). DESIGN
CHOICE, log entry 47. -/
def execWrsigRetry (queue : Nat) (s : State) : Res :=
  match tget s.belfry.queues queue with
  | none => .next s
  | some Q => match Q.packet with
    | none => .next s
    | some p =>
      if p.type ≠ 4 ∨ ¬ p.held ∨ ¬ s.belfryUp ∨ ¬ s.between (procOf queue) ∨ Q.checkAt > s.clk.ns then .next s
      else .next (s.modPacket queue (fun p => { p with held := false, step := 0 }))

/-- STAMP: the store of the campanile value sampled now, and then DONE. -/
def execStamp (queue : Nat) (s : State) : Res :=
  match s.actable queue 9 with
  | none => .next s
  | some (Q, p) =>
    if p.step > 0 then .next (s.endPacket queue 2)
    else .next (s.packetStore queue Q (p.field 0x20 2) (p.field 0x18 8) (leBytes 8 s.clk.ns))

/-! ### BRANCH, JUMP and skips (R34) -/

/-- BRANCH: the result word is read, which is its first step, T(s) slots are skipped, and then DONE. With a RESULT of 0 nothing is read,
and it is not midway while it skips (R38). -/
def execBranchPacket (queue : Nat) (s : State) : Res :=
  match s.actable queue 5 with
  | none => .next s
  | some (Q, p) =>
    if p.val ≠ 0 then
      if Q.skips > 0 then .next s else .next (s.endPacket queue 2)
    else
      let go (s : State) (k : Nat) : State :=
        let k := if k ≥ p.field 0x28 1 then 0 else k
        ((s.serve queue).modPacket queue (fun p => { p with val := 1 })).modQueue queue (fun Q =>
          { Q with skips := p.field (0x20 + 2 * k) 2, awake := true })
      if p.field 0x18 8 = 0 then .next (go s 0)
      else match s.belfryRead Q.space (p.field 0x18 8) 8 with
        | .error e => .next (s.endPacket queue e)
        | .ok b => .next (go (s.packetStep queue id) (leNat b % 4))

/-- JUMP: its slots are skipped, and then DONE. -/
def execJumpPacket (queue : Nat) (s : State) : Res :=
  match s.actable queue 6 with
  | none => .next s
  | some (Q, p) =>
    if p.val ≠ 0 then
      if Q.skips > 0 then .next s else .next (s.endPacket queue 2)
    else .next (((s.serve queue).modPacket queue (fun p => { p with val := 1 })).modQueue queue (fun Q => { Q with skips := p.field 0x18 2, awake := true }))

/-- SKIP_SLOT: one published slot is consumed without action. An unpublished one is waited for, also once VALID has been written 0,
as that lets the packet finish; a ticket that fails stops the queue, and its packet completes FAULTED (R29, R34). DESIGN CHOICE, log
entry 47. -/
def execSkipSlot (queue : Nat) (s : State) : Res :=
  match tget s.belfry.queues queue with
  | none => .next s
  | some Q =>
    if Q.skips = 0 ∨ ¬ s.turn queue then .next s
    else match s.ticketAt Q with
      | .error _ => .next ((s.stopQueue queue Q.rd).endPacket queue 10)
      | .ok t =>
        if t ≠ (Q.rd + 1) % 2 ^ 64 then .next (s.sleepQueue queue)
        else if s.consumes Q then .next ((s.consume queue).modQueue queue (fun Q => { Q with skips := Q.skips - 1 }))
        else .next ((s.consume queue).endPacket queue 10)

/-! ### FENCE and NOP -/

/-- FENCE: its condition holds already when it is acted on, and then DONE; final statuses follow the device node (R34,
R232). -/
def execFencePacket (queue : Nat) (s : State) : Res :=
  match s.actable queue 8 with
  | none => .next s
  | some (_, p) => if p.step > 0 then .next (s.endPacket queue 2) else .next (s.packetStep queue id)

/-- NOP: DONE. -/
def execNopPacket (queue : Nat) (s : State) : Res :=
  match s.actable queue 10 with
  | none => .next s
  | some _ => .next (s.endPacket queue 2)

end Sys2Proof.Machine
end

