-- ==== Sys2Proof/Machine/Retire.lean ====
section
/-! DEFINITION. Budget enforcement and replenishment (R46, R47), the schedule selector (R54, R55), and the retirement of
bundles (R22, R232, R333). -/
namespace Sys2Proof.Machine

/-! ### Budgets (R46, R47) -/

/-- Whether a launch runs at class 0 for the sake of its servers (R47, R50). -/
def State.launchLow (s : State) (l : Launch) : Bool :=
  if l.fault.isSome then (l.servers.head?.map (fun v => (tgetD s.belfry.servers v).faultOut)).getD false
  else l.servers.any (fun v => (tgetD s.belfry.servers v).ordOut)

/-- Every item takes the class that its servers leave it. -/
def State.setLow (s : State) : State :=
  { s with
    belfry := { s.belfry with launches := s.belfry.launches.map (fun (e : Nat × Launch) => (e.1, { e.2 with low := s.launchLow e.2 })) }
    copies := { s.copies with copies := s.copies.copies.map (fun (e : Nat × Copy) => (e.1, { e.2 with id := { e.2.id with
      low := e.2.id.region.servers.any (fun v => (tgetD s.belfry.servers v).ordOut) } })) } }

/-- What a tick finds of a server (R47). -/
def Server.tick (v : Server) : Server :=
  { v with
    ordOut := v.ordOut || decide (coreNs v.ordAc + v.ordNs ≥ v.budget - v.freserve)
    faultOut := v.faultOut || decide (v.freserve = 0) || decide (coreNs v.faultAc + v.faultNs ≥ v.freserve) }

/-- Bundles and copies whose charge has reached their budget are demoted for good (R47). -/
def State.demote (s : State) : State :=
  let ls := s.belfry.launches.filter (fun e => !e.2.demoted && decide (coreNs e.2.charge ≥ e.2.budget))
  let s := foldS ls s (fun s e => (s.modLaunch e.1 (fun l => { l with demoted := true })).countOverrun e.2.region.rcb)
  let cs := s.copies.copies.filter (fun e => !e.2.id.demoted && decide (e.2.id.charge ≥ e.2.id.budget))
  foldS cs s (fun s e => (s.modCopy e.1 (fun c => { c with id := { c.id with demoted := true } })).countOverrun e.2.id.region.rcb)

/-- BUDGET_TICK (R47). -/
def execBudgetTick (s : State) : Res :=
  if s.clk.ns < s.belfry.nextTick then .next s
  else
    let s := { s with belfry := { s.belfry with
      nextTick := s.clk.ns / 100 * 100 + 100
      servers := s.belfry.servers.map (fun (e : Nat × Server) => (e.1, e.2.tick)) } }
    .next s.demote.setLow

/-- SERVER_REPLENISH (R46). -/
def execServerReplenish (server : Nat) (s : State) : Res :=
  match tget s.belfry.servers server with
  | none => .next s
  | some v =>
    if s.clk.ns < v.pstart + v.period ∨ v.period = 0 then .next s
    else
      let v := { v with
        pstart := v.pstart + (s.clk.ns - v.pstart) / v.period * v.period, ordAc := 0, ordNs := 0, faultAc := 0, faultNs := 0
        ordOut := false, faultOut := decide (v.freserve = 0), nextWrite := s.clk.ns + 10000 }
      let s := { s with belfry := { s.belfry with servers := tput s.belfry.servers server v } }
      .next (s.setLow.writeUsed server v)

/-- USED_WRITEBACK (R46). -/
def execUsedWriteback (server : Nat) (s : State) : Res :=
  match tget s.belfry.servers server with
  | none => .next s
  | some v =>
    if s.clk.ns < v.nextWrite then .next s
    else
      let s := { s with belfry := { s.belfry with servers := tmod s.belfry.servers server (fun v => { v with nextWrite := s.clk.ns + 10000 }) } }
      .next (s.writeUsed server v)

/-! ### The selector (R54) -/

/-- Whether a fraction is less than another. -/
def fracLt (a b : Nat × Nat) : Bool := decide (a.1 * b.2 < b.1 * a.2)

/-- t_d of a die in a phase: from the start of its first block to the exit of its last. -/
def Launch.dieTime (l : Launch) (d : Nat) : Option Nat :=
  match tget l.dieFirst d, tget l.dieLast d with
  | some a, some b => some (b - a)
  | _, _ => none

/-- The time of one unit share on a die, as a fraction: from its own t_d, where the current variant gave it a share. -/
def Launch.unitTime (l : Launch) (d : Nat) : Option (Nat × Nat) :=
  let c := l.bundle.variants.getD l.variant []
  match l.dieTime d with
  | some t => if c.getD d 0 > 0 then some (t * c.sum, c.getD d 0) else none
  | none => none

/-- rate: the smallest unit time. -/
def Launch.rate (l : Launch) : Option (Nat × Nat) := firstBy fracLt ((List.range 4).filterMap l.unitTime)

/-- worst(v). -/
def Launch.worst (l : Launch) (rate : Nat × Nat) (v : List Nat) : Nat × Nat :=
  ((List.range 4).map (fun d =>
    if v.getD d 0 = 0 then (0, 1)
    else
      let u := (l.unitTime d).getD rate
      (u.1 * v.getD d 0, u.2 * v.sum))).foldl (fun x y => if fracLt x y then y else x) (0, 1)

/-- The variant that the selector chooses for the next phase; a killed phase and one that ran no block choose none (R54). -/
def Launch.nextVariant (l : Launch) : Option Nat :=
  match l.rate with
  | none => none
  | some r =>
    if l.killed then none
    else
      let w := l.bundle.variants.map (l.worst r)
      (List.range w.length).find? (fun v => w.all (fun x => !fracLt x (w.getD v (0, 1))))

/-- The variant that the retire record reports for the next phase: the one chosen, for a killed phase its own (R333), else
the one that its sequence has. -/
def State.reportedVariant (s : State) (l : Launch) : Nat :=
  l.nextVariant.getD (if l.killed then l.variant else s.variantOf l.region.rcb l.bundle.addr)

/-! ### Retirement (R22, R232, R333) -/

/-- The final status of a launch (R39). -/
def Launch.final (l : Launch) : Nat := if l.killed then 4 else if l.demoted then 3 else 2

/-- Whether every block of a launch has started and exited. -/
def Launch.blocksOver (l : Launch) : Bool :=
  l.waitBlocks.all (fun e => decide (e.2.1 ≥ e.2.2)) && decide (l.exited ≥ l.started)

/-- Whether what a launch's groups have stored has reached the device node, and its copies and transfers have published
(R232). -/
def State.launchDrained (s : State) (l : Nat) : Bool :=
  let mine (g : Nat) : Bool := decide ((s.group g).id.launch = l) && (tget s.groups g).isSome
  s.groups.all (fun e => decide (e.2.id.launch ≠ l) || e.2.fifo.isEmpty) &&
  s.flight.nodes.all (fun n => n.2.all (fun e => !mine e.gid)) &&
  s.flight.ops.all (fun e => !mine e.2.gid) && s.flight.sysw.all (fun e => !mine e.2.gid) &&
  s.copies.copies.all (fun e => match e.2.id.source with
    | .group _ k _ _ _ => decide (k ≠ l)
    | .queue _ _ _ => true) &&
  s.cores.all (fun c => c.2.xfer.all (fun t => decide (t.2.launch ≠ l)))

/-- Whether a group of a launch has issued in this cycle, which is still to be charged (R45). -/
def State.issuesNow (s : State) (l : Nat) : Bool :=
  s.parts.any (fun e => e.2.issuers.any (fun g => decide ((s.group g).id.launch = l) && (tget s.groups g).isSome))

/-- Whether a launch may retire: its blocks are over, its last cycle is charged, no record of it is unserved, and its outputs
are out. -/
def State.mayRetire (s : State) (id : Nat) (l : Launch) : Bool :=
  l.blocksOver && !s.issuesNow id && s.faults.recs.all (fun e => decide (e.2.launch ≠ some id) || !e.2.unserved) && s.launchDrained id

/-- STATUS of the retire record (R333). -/
def Launch.retireStatus (l : Launch) (next : Nat) : Nat := l.final + 2 ^ 8 * (l.variant % 4) + 2 ^ 10 * (next % 4) + 2 ^ 31

/-- The retire record after its STATUS word (R333), which has no field for a role (DESIGN CHOICE, log entry 48). -/
def State.retireBytes (s : State) (l : Launch) : List Byte :=
  leBytes 4 l.region.regionId ++ leBytes 8 l.admitted ++ leBytes 8 (l.first.getD l.admitted) ++ leBytes 8 s.clk.ns ++
  leBytes 8 (coreNs l.charge) ++
  (List.range 4).flatMap (fun d => leBytes 4 (match l.dieTime d with
    | some t => min t 0xFFFFFFFE
    | none => 0xFFFFFFFF)) ++
  leBytes 4 l.started ++ leBytes 2 (min l.recs 65535) ++ leBytes 2 (min l.lost 65535)

/-- The retire record is written in the region's address space, STATUS last; a write that faults loses it (R333). -/
def State.writeRetire (s : State) (l : Launch) (next : Nat) : State :=
  let sp : Space := ⟨l.region.troot, l.region.world⟩
  let a := l.bundle.retireRec.toNat
  match s.belfryWrite sp (a + 4) (s.retireBytes l) with
  | .error _ => s
  | .ok s => match s.belfryWrite sp a (leBytes 4 (l.retireStatus next)) with
    | .error _ => s
    | .ok s => s

/-- The table of sequences takes the variant chosen for the next phase, if one is; it holds the 4,096 most recently retired
(R54). -/
def State.recordVariant (s : State) (l : Launch) : State :=
  let next := l.nextVariant.getD (s.variantOf l.region.rcb l.bundle.addr)
  let rest := s.belfry.variants.filter (fun v => !(decide (v.rcb = l.region.rcb) && decide (v.bundle = l.bundle.addr)))
  { s with belfry := { s.belfry with variants := (⟨l.region.rcb, l.bundle.addr, next⟩ :: rest).take 4096 } }

/-- Fault tasks that wait for their areas take them, in order (R278). -/
def State.grantAreas (s : State) : State :=
  foldS ((s.belfry.launches.filter (fun e => !e.2.hasAreas)).map Prod.fst) s (fun s id =>
    let l := s.launch id
    let die := (l.waitBlocks.head?.map Prod.fst).getD 0
    let (n, keep) := s.taskAreas l.region (l.areas 1) die
    s.modLaunch id (fun l => { l with reserved := n, keepReserve := keep }))

/-- The final status of a launch reaches its completion word, or the parked record of a fault task (R39). -/
def State.finalStatus (s : State) (l : Launch) : State :=
  match l.fault with
  | some f => s.taskStatus f.handle l.final
  | none => s.complete l.qheader l.slot ⟨l.qtroot, l.qworld⟩ l.compl l.final

/-- This chip's Belfry reports what another chip's fault task was charged here (R48). -/
def State.reportCharge (s : State) (l : Launch) : State :=
  match l.fault with
  | some f =>
    if thisChip (handleChip f.handle) then s
    else (s.post (handleChip f.handle) (.report f.handle (coreNs l.charge)) f.handle [] (leBytes 8 (coreNs l.charge)) l.region.world).2
  | none => s

/-- BUNDLE_RETIRE (R22, R232, R333). -/
def execBundleRetire (launch : Nat) (s : State) : Res :=
  match tget s.belfry.launches launch with
  | none => .next s
  | some l =>
    if ¬ s.mayRetire launch l then .next s
    else
      let next := s.reportedVariant l
      let s := (s.writeRetire l next).recordVariant l
      let s := (s.reportCharge l).finalStatus l
      let s := s.trace1 2 srcHub l.region.regionId (leBytes 8 l.bundle.addr.toNat ++ leBytes 4 (l.retireStatus next) ++ leBytes 4 0)
      let s := { s with
        belfry := { s.belfry with launches := tdel s.belfry.launches launch }
        groups := s.groups.filter (fun (e : Nat × Group) => decide (e.2.id.launch ≠ launch)) }
      .next s.freeRecords.grantAreas

end Sys2Proof.Machine
end

