-- ==== Sys2Proof/Machine/Faults.lean ====
section
/-! DEFINITION. The fault path: teardown (R276, R279), record slots and the order of records (R267, R274, R275), fault bins
(R271, R272), and when a service's work is done (R291). -/
namespace Sys2Proof.Machine

/-! ### Kinds that only a terminal record reports -/

/-- R264. -/
def kNestmax : Nat := 0x10
/-- R264. -/
def kHqfail : Nat := 0x11

/-! ### Teardown (R279) -/

/-- Whether a launch is killed with a fault domain: its region takes its domain from that RCB, or it is a fault task of
that domain. -/
def Launch.inDomain (l : Launch) (rcb : Nat) : Bool :=
  decide (l.region.dom.rcb = rcb) || (match l.fault with
    | some f => decide (f.origin.dom.rcb = rcb)
    | none => false)

/-- The terminal record's first 56 bytes (R279). -/
def terminalBytes (s : State) (kind depth : Nat) (dom : Domain) (r : FRec) (bundles copies records : Nat) : List Byte :=
  [BitVec.ofNat 8 kind, BitVec.ofNat 8 depth, 0, 0] ++ leBytes 4 dom.regionId ++ leBytes 8 s.clk.ns ++
  [BitVec.ofNat 8 r.kind, BitVec.ofNat 8 r.sub, 0, 0, 0, 0, 0, 0] ++ leBytes 8 r.pc.toNat ++ leBytes 8 r.addr.toNat ++
  leBytes 4 bundles ++ leBytes 4 copies ++ leBytes 4 records ++ leBytes 4 0

/-- Whether some part of a launch still runs or has yet to start. -/
def State.launchRuns (s : State) (id : Nat) (l : Launch) : Bool :=
  l.waitBlocks.any (fun e => decide (e.2.1 < e.2.2)) || s.blocks.any (fun e => decide (e.2.id.launch = id)) ||
    s.cores.any (fun c => c.2.xfer.any (fun t => decide (t.2.launch = id)))

/-- The domain of a record is torn down: its bundles, copies, records and fault tasks are killed, those that a PKKIL has
marked and that still run among them, and the terminal record is written (R279). -/
def State.teardown (s : State) (kind depth : Nat) (r : FRec) : State :=
  let rcb := r.dom.rcb
  let ls := (s.belfry.launches.filter (fun e => e.2.inDomain rcb && (!e.2.killed || s.launchRuns e.1 e.2))).map Prod.fst
  let cs := (s.copies.copies.filter (fun e => decide (e.2.id.region.dom.rcb = rcb) && !e.2.id.killed)).map Prod.fst
  let rs := (s.faults.recs.filter (fun e => decide (e.2.dom.rcb = rcb) && e.2.unserved && e.2.handle.isSome)).map Prod.fst
  let s := { s with faults := { s.faults with recs := (s.faults.recs.filter (fun (e : Nat × FRec) =>
      !(decide (e.2.dom.rcb = rcb) && e.2.unserved && e.2.handle.isNone))).map (fun (e : Nat × FRec) =>
        if rs.contains e.1 then (e.1, { e.2 with state := 3, torn := true, service := none }) else e) } }
  let s := foldS ls s State.killLaunch
  let s := (foldS cs s State.killCopy).syncRecs
  let sp : Space := ⟨r.dom.troot, r.dom.world⟩
  let a := r.dom.termrec.toNat
  match s.belfryWrite sp a (terminalBytes s kind depth r.dom r ls.length cs.length rs.length) with
  | .error _ => s
  | .ok s => match s.belfryWrite sp (a + 56) (leBytes 8 1) with
    | .error _ => s
    | .ok s => s

/-! ### Record slots (R267) -/

/-- The die of a record's origin. -/
def State.originDie (s : State) : Origin → Nat
  | .lanes g _ => dieOfCore (s.coreOf g)
  | .spill g => dieOfCore (s.coreOf g)
  | .tile op => match tget s.mats op with
    | some m => (s.block m.block).id.die
    | none => 0
  | .segment c _ => match tget s.copies.copies c with
    | some x => x.die
    | none => 0
  | .transfer core _ _ => dieOfCore core
  | .claims b _ => (s.block b).id.die
  | .formation b _ => (s.block b).id.die
  | .writeBack _ home _ => home.die
  | .region c => c / 4

/-- Whether a slot holds a record. -/
def State.slotTaken (s : State) (a : Nat) : Bool := s.faults.recs.any (fun e => decide (e.2.addrOf = some a))

/-- The lowest free slot of a run of slots. -/
def State.freeSlot (s : State) (base n : Nat) : Option Nat :=
  ((List.range n).find? (fun i => !s.slotTaken (base + 128 * i))).map (fun i => base + 128 * i)

/-- Where a record goes: the domain's PKAREA, or a Keep slot of its die when every slot is in use, when the write would
fault, or when the record is one that the Keep delivers; none defers it. -/
def State.slotFor (s : State) (r : FRec) : Option (Nat × Bool) :=
  let keepSlot := (s.freeSlot (keepBase (s.originDie r.origin)) 4096).map (fun a => (a, true))
  if r.keep then keepSlot
  else match s.freeSlot r.dom.pkArea r.dom.pkCount with
    | none => keepSlot
    | some a =>
      if ¬ memRun a 128 ∨ (¬ r.region.world ∧ s.pageS a) then keepSlot else some (a, false)

/-! ### The order of records (R268, R274) -/

/-- What R274 orders records by: those of one group, of one convergence register, of one copy. -/
def State.sameOrigin (s : State) (a b : Origin) : Bool :=
  match a, b with
  | .lanes g _, .lanes h _ => decide (g = h)
  | .tile x, .tile y => match tget s.mats x, tget s.mats y with
    | some m, some n => decide (m.block = n.block) && decide (m.k = n.k)
    | _, _ => false
  | .segment x _, .segment y _ => decide (x = y)
  | _, _ => false

/-- The place of a record among those of its origin: the faulting instruction's place in the issue sequence, then kind code;
for a copy the segment (R268, R274). -/
def FRec.rank (r : FRec) : Nat × Nat :=
  match r.origin with
  | .segment _ k => (k, 0)
  | _ => (r.iseq, r.kind)

/-- Whether a record stands before another of the same origin; of those that R274 does not tell apart, the one met first. -/
def State.recBefore (s : State) (a b : Nat × FRec) : Bool :=
  let x := a.2.rank
  let y := b.2.rank
  s.sameOrigin a.2.origin b.2.origin && (decide (x.1 < y.1) || (decide (x.1 = y.1) &&
    (decide (x.2 < y.2) || (decide (x.2 = y.2) && decide (a.1 < b.1)))))

/-- Whether a memory instruction that has issued may still meet a fault. -/
def MemOp.mayFault (m : MemOp) : Bool :=
  match m.kind with
  | .store => m.lanes.any (fun x => x.pa.isNone && x.cause.isNone && !x.parked)
  | _ => m.lanes.any (fun x => !x.over && x.cause.isNone)

/-- Whether a waiting instruction may still meet a fault of a translation or an access: a CPSUB before its image is read, and an
access to parked state whose answer is under way (R192, R325). -/
def WaitKind.mayFault : WaitKind → Bool
  | .cpsub _ none _ _ _ | .pk _ _ _ => true
  | _ => false

/-- Whether work of a record's origin that comes before it in the order of R274 may still fault: a memory instruction or a wait of
the group that issued earlier, or lanes of the same one that have no translation yet; an earlier segment of the copy that is
under way. DEDUCED, log entry 50. -/
def State.earlierOpen (s : State) (r : FRec) : Bool :=
  match r.origin with
  | .lanes g _ => s.flight.ops.any (fun e => decide (e.2.gid = g) &&
      ((decide (e.2.seq < r.iseq) && e.2.mayFault) ||
        (decide (e.2.seq = r.iseq) && e.2.lanes.any (fun x => x.pa.isNone && x.cause.isNone && !x.parked)))) ||
    s.flight.waits.any (fun e => decide (e.2.gid = g) && decide (e.2.here.seq < r.iseq) && e.2.kind.mayFault)
  | .segment c k => match tget s.copies.copies c with
    | some x => x.moving.any (fun j => decide (j < k))
    | none => false
  | _ => false

/-- Whether a record must wait for another of its origin to be written first (R274). -/
def State.earlierUnwritten (s : State) (id : Nat) (r : FRec) : Bool :=
  s.earlierOpen r || s.faults.recs.any (fun e => e.2.handle.isNone && e.2.unserved && s.recBefore e (id, r))

/-- Whether a record's task must wait for another of its origin to be appended first (R49, R274). -/
def State.earlierUnsent (s : State) (id : Nat) (r : FRec) : Bool :=
  s.faults.recs.any (fun e => !e.2.appended && decide (e.2.state = 0) && !e.2.torn && s.recBefore e (id, r))

/-- SRC of a record of the fault path (R342). -/
def State.originSrc (s : State) : Origin → Nat
  | .lanes g _ => srcOfPart (s.group g).id.part
  | .spill g => srcOfPart (s.group g).id.part
  | .tile op => match tget s.mats op with
    | some m => srcOfPart (4 * (s.block m.block).id.cores.headD 0)
    | none => srcHub
  | .transfer core _ _ => srcOfPart (4 * core)
  | .claims b _ => srcOfPart (4 * (s.block b).id.cores.headD 0)
  | .formation b _ => srcOfPart (4 * (s.block b).id.cores.headD 0)
  | .writeBack _ home _ => srcOfPart (4 * home.cores.headD 0)
  | _ => srcHub

/-- DATA of a record of types 7 and 8 (R342). -/
def FRec.traceData (r : FRec) : List Byte :=
  leBytes 8 (r.handle.getD 0).toNat ++ [BitVec.ofNat 8 r.kind, BitVec.ofNat 8 r.sub, BitVec.ofNat 8 r.action]

/-- A record is formed in a slot: its bytes are written and its handle is known. -/
def State.writeRecord (s : State) (id a : Nat) (keep : Bool) : State :=
  let s := s.modRec id (fun r => { r with
    handle := some (BitVec.ofNat 64 (2 ^ 48 * Config.chipId + a)), keep := keep, deferred := false })
  match tget s.faults.recs id with
  | none => s
  | some r => (s.recPut id 0 (s.recBytes r)).trace1 7 (s.originSrc r.origin) r.region.regionId r.traceData

/-! ### Fault bins (R271, R272) -/

/-- The binding of a group's fault-bin tile, as memory holds it now; none where there is none or it cannot be read. -/
def State.faultTile (s : State) (b va : Nat) : Option Tile :=
  let r := (s.launch (s.block b).id.launch).region
  match s.xlate r.troot .load r.world va, s.ovfRead b va 64 with
  | .ok pa, .ok d =>
    let t0 := tileOf va pa d []
    if ¬ tileFieldsOk d then none
    else match s.tileRead b t0 t0.wakeBase.toNat 256 with
      | .error _ => none
      | .ok area => some (tileOf va pa d area)
  | _, _ => none

/-- The prefix of a fault-bin row (R272). -/
def State.rowPrefixOf (s : State) (l : Nat) (t : Thread) (r : Replay) : List Byte :=
  let handle := match tget s.faults.recs r.record with
    | some x => (x.handle.getD 0).toNat
    | none => 0
  let n := t.stack.length
  let stack := (t.stack.reverse.zipIdx.map (fun (e : BitVec 9 × Nat) => e.1.toNat / 16 % 32 * 2 ^ (5 * e.2))).sum
  leBytes 8 handle ++ leBytes 8 (t.pc.toNat % 2 ^ 56 + 2 ^ 56 * (n % 16)) ++
  leBytes 8 (stack + 2 ^ 40 * (t.wb.toNat / 16 % 32) + 2 ^ 45 * t.preds.toNat + 2 ^ 52 * (l % 128) + 2 ^ 59 * r.phase.toNat) ++
  leBytes 8 r.addr.toNat ++ ((r.data.flatMap (fun (w : Word) => leBytes 4 w.toNat)) ++ List.replicate 16 0).take 16

/-- Whether every lane of a group that is not vacant is parked with a written record that no service has reached. -/
def State.wholeParked (s : State) (g : Nat) : Bool :=
  let G := s.group g
  decide (G.occupied ≠ 0) && decide (G.occupied = G.lanesIn .parked) &&
    (lanesOf G.occupied).all (fun l => match (G.thread l).replay with
      | some r => !r.go && (G.thread l).stash.isEmpty && (match tget s.faults.recs r.record with
        | some x => x.handle.isSome && decide (x.action = 0)
        | none => false)
      | none => false)

/-- Rows of a tile are written for the lanes of a group, in ascending lane; none where a write faults. -/
def State.binRows (s : State) (g b : Nat) (t : Tile) : List (Nat × Nat) → Option State
  | [] => some s
  | (l, row) :: rest =>
    match ((s.group g).thread l).replay with
    | none => none
    | some r =>
      match s.tileWrite b t (t.rowAt faultBin row) (s.rowPrefixOf l ((s.group g).thread l) r ++ s.columns g t.names l) with
      | .error _ => none
      | .ok s => s.binRows g b t rest

/-- Whether a result is still to come for a name of a group among some, as SUSP waits for it (R249). -/
def State.resultDue (s : State) (g : Nat) (names : List Nat) : Bool :=
  (s.group g).sb.any (fun e => e.2.names.any names.contains) || (s.pendsOf g).any (fun e => e.2.dest.among names [] [])

/-- Records learn of lanes that have gone to a fault bin: the row of the first, and where those that had run on go back to.
DEDUCED, log entry 36. -/
def State.noteBinned (s : State) (G : Group) (pairs : List (Nat × Nat)) : State :=
  foldS pairs s (fun s (e : Nat × Nat) => match (G.thread e.1).replay with
    | none => s
    | some r => s.modRec r.record (fun x => { x with
        binned := some (x.binned.getD e.2)
        went := match r.after with
          | some a => tput x.went (e.1 % 128) a
          | none => x.went }))

/-- The parked lanes of a group go to the fault-bin tile, where it has room and lists every name that they map, once no
result is to come for those names (R249, R271). -/
def State.binGroup (s : State) (g : Nat) : State :=
  let G := s.group g
  let b := G.id.block
  let dom := (s.launch G.id.launch).faultHome.2
  if dom.fbtile = 0 ∨ G.run.place = .stowed ∨ G.run.place = .gone ∨ ¬ s.wholeParked g then s
  else
    match s.faultTile b dom.fbtile.toNat with
    | none => s
    | some t =>
      let lanes := lanesOf G.occupied
      let free := (List.range t.rows).filter (fun r => !t.occ.contains r)
      let listed := G.map.all (fun e => decide (e.2.mask &&& G.occupied = 0) || t.names.contains e.1)
      if free.length < lanes.length ∨ ¬ listed ∨ ¬ ((s.block b).tileFits t) ∨ s.resultDue g t.names then s
      else
        let pairs := lanes.zip free
        match s.binRows g b t pairs with
        | none => s
        | some s =>
          let rows := pairs.map Prod.snd
          let s := (s.binBits b t rows 0 true).binSync b t
          let mine := match tget (s.block b).tiles faultBin with
            | some old => old.occupy rows
            | none => ({ t with occ := [], woken := [], nocc := 0, nwoken := 0, ovf := 0, dispatch := .none, binrun := false } : Tile).occupy rows
          let s := s.modBlock b (fun B => { B with tiles := tput B.tiles faultBin mine })
          let s := s.noteBinned G pairs
          let recs := (lanes.filterMap (fun l => (G.thread l).replay.map (fun r => r.record))).eraseDups
          let s := foldS recs s (fun s id => match tget s.faults.recs id with
            | some x => (s.putStatus id).recPut id 0x60 (leBytes 8 (x.binned.getD 0))
            | none => s)
          (s.vacate g G.occupied).exitCheck g

/-! ### Whether a service's work is done (R291) -/

/-- Whether some thread still has the replay of a record to make, in a group or in a row of a fault bin. -/
def State.replayLeft (s : State) (id : Nat) (r : FRec) : Bool :=
  s.groups.any (fun e => e.2.threads.any (fun t => t.replays.any (fun x => decide (x.record = id)))) ||
  s.blocks.any (fun e => match tget e.2.tiles faultBin with
    | none => false
    | some t => t.occ.any (fun row => match s.tileRead e.1 t (t.rowAt faultBin row) 8 with
      | .ok b => decide (some (BitVec.ofNat 64 (leNat b)) = r.handle)
      | .error _ => false))

/-- Whether the instruction at a PC is still in progress for some lanes of a group: a memory operation, or a wait. -/
def State.stillRuns (s : State) (g : Nat) (m : Mask) (pc : Wide) : Bool :=
  s.flight.ops.any (fun e => decide (e.2.gid = g) && decide (e.2.pc = pc) && decide (e.2.mask &&& m ≠ 0)) ||
    s.flight.waits.any (fun e => decide (e.2.gid = g) && decide (e.2.pc = pc) && decide (e.2.lanes &&& m ≠ 0))

/-- Whether the work that a service resumed has executed, or has parked anew. -/
def State.resumedDone (s : State) (id : Nat) (r : FRec) : Bool :=
  let back := r.moved.all (fun e => !s.stillRuns e.1 e.2 r.pc)
  match r.origin with
  | .lanes g m => !s.replayLeft id r && !s.stillRuns g m r.pc && back
  | .claims _ ws => !s.replayLeft id r && ws.all (fun w => !s.stillRuns w.gid w.lanes w.pc) && back
  | .formation b h => match tget (s.block b).tiles h with
    | some t => decide (t.dispatch = .none)
    | none => true
  | .spill g => !(s.group g).run.spilled || s.faults.recs.any (fun e => decide (e.2.origin = .spill g) && decide (e.2.seq > r.seq))
  | .tile op => match tget s.mats op with
    | some m => decide (m.phase = .parked)
    | none => true
  | .segment c k => match tget s.copies.copies c with
    | some x => x.done.contains k || x.parked.any (fun p => decide (p.seg = k))
    | none => true
  | .transfer core e k => match tget (s.core core).xfer e with
    | some t => t.done.contains k || t.parked.any (fun p => decide (p.1 = k))
    | none => true
  | _ => true

end Sys2Proof.Machine
end

