-- ==== Sys2Proof/Machine/Handler.lean ====
section
/-! DEFINITION. Reading, patching and serving parked work: PKRD, PKWR, PKRES, PKRTY, PKDIR and PKKIL (R284, R287 to R291),
and the requests of a peer's handler (R280). -/
namespace Sys2Proof.Machine

/-! ### Permission (R287, R289) -/

/-- What refuses access to a record: none held by the handle, a requester of another fault domain (`dom` is the RCB of the
domain of the record that it serves, where this chip holds that one), or an S origin for N work. -/
def State.pkCheck (s : State) (h : Wide) (dom : Option Nat) (world : Bool) : Except Cause (Nat × FRec) :=
  match s.recOf h with
  | none => .error (kProt, 4)
  | some (id, r) =>
    if dom ≠ some r.dom.rcb then .error (kProt, 4)
    else if r.region.world ∧ ¬ world then .error (kProt, 3)
    else .ok (id, r)

/-! ### Selectors (R288) -/

/-- ILLEGAL FIELD (R77). -/
def cField : Cause := (kIllegal, 9)

/-- The selector of PKRD and PKWR: L, or the scalar that it names. -/
def State.pkSelector (s : State) (g m : Nat) (e : Word) : Option Word :=
  if e.getLsbD 31 then
    let x := s.scalar g (fld e 0 7)
    if ¬ x.getLsbD 31 ∧ fieldSel m x then some x else none
  else some e

/-! ### Rows of binned lanes (R272) -/

/-- The block of a record's lanes. -/
def State.binOf (s : State) (r : FRec) : Nat :=
  match r.origin with
  | .lanes g _ => (s.group g).id.block
  | .claims b _ => b
  | _ => 0

/-- The fault-bin rows of a record, with the home lane of each. -/
def State.rowsOf (s : State) (r : FRec) : List (Nat × Nat) :=
  let b := s.binOf r
  match tget (s.block b).tiles faultBin with
  | none => []
  | some t => t.occ.filterMap (fun row => match s.tileRead b t (t.rowAt faultBin row) 24 with
    | .error _ => none
    | .ok x => if some (BitVec.ofNat 64 (leAt x 0 8)) = r.handle then some (row, leAt x 16 8 / 2 ^ 52 % 128) else none)

/-- The row of a record's lane. -/
def State.rowOf (s : State) (r : FRec) (lane : Nat) : Option Nat :=
  ((s.rowsOf r).find? (fun e => decide (e.2 = lane))).map Prod.fst

/-- Four bytes of a fault-bin row. -/
def State.rowWord (s : State) (r : FRec) (row off : Nat) : Except Cause Word :=
  let b := s.binOf r
  match tget (s.block b).tiles faultBin with
  | none => .error (kProt, 4)
  | some t => match s.tileRead b t (t.rowAt faultBin row + off) 4 with
    | .error e => .error e.1
    | .ok x => .ok (BitVec.ofNat 32 (leNat x))

/-- Bytes of a fault-bin row are written. -/
def State.putRow (s : State) (r : FRec) (row off : Nat) (x : List Byte) : Except Cause State :=
  let b := s.binOf r
  match tget (s.block b).tiles faultBin with
  | none => .error (kProt, 4)
  | some t => match s.tileWrite b t (t.rowAt faultBin row + off) x with
    | .error e => .error e.1
    | .ok s => .ok s

/-- The column of a name in a record's fault-bin tile. -/
def State.binColumn (s : State) (r : FRec) (name : Nat) : Option Nat :=
  match tget (s.block (s.binOf r)).tiles faultBin with
  | none => none
  | some t => (t.names.findIdx? (fun n => decide (n = name)))

/-! ### PKRD and PKWR (R289) -/

/-- The group whose register a selector of M 1 names, where it is allowed. -/
def State.pkGroup (s : State) (r : FRec) (sel : Nat) : Option Nat :=
  let lane := sel / 512 % 128
  match r.origin with
  | .lanes g m => if m.getLsbD lane then some g else none
  | .tile op => match tget s.mats op with
    | none => none
    | some o => (o.members[sel / 65536 % 4]?).map (fun m => m.gid)
  | _ => none

/-- A register lane of a group, resident, stowed or spilled. -/
def State.pkReg (s : State) (g name lane : Nat) : LaneRead := (s.core (s.coreOf g)).readEntry (tget (s.group g).map name) lane

/-- A read of M 1. One of a poisoned lane consumes the poison, and parks the handler's threads (R287, R308). -/
def State.readParked (s : State) (r : FRec) (sel : Nat) : Except Cause Word :=
  let name := sel % 512
  let lane := sel / 512 % 128
  match s.pkGroup r sel with
  | none => .error (kProt, 4)
  | some g =>
    if r.binned.isSome then
      match s.rowOf r lane, s.binColumn r name with
      | some row, some c => s.rowWord r row (48 + 4 * c)
      | _, _ => .error (kProt, 4)
    else
      let x := s.pkReg g name lane
      if x.live && x.poison then .error (kPoison, 1) else .ok x.val

/-- Whether a lane of a record is parked with it. -/
def State.parkedLane (s : State) (id : Nat) (r : FRec) (lane : Nat) : Option (Nat × Replay) :=
  match r.origin with
  | .lanes g m =>
    let t := (s.group g).thread lane
    let here (x : Replay) : Bool := decide (x.record = id)
    if ¬ m.getLsbD lane then none
    else if t.st = .parked ∧ t.replay.any here then t.replay.map (fun x => (g, x))
    else (t.stash.find? here).map (fun x => (g, x))
  | _ => none

/-- A replay word: address low and high, then the data words. -/
def Replay.word (x : Replay) (w : Nat) : Word :=
  match w with
  | 0 => loWord x.addr
  | 1 => hiWord x.addr
  | n + 2 => x.data.getD n 0

/-- A replay with one word changed. -/
def Replay.setWord (x : Replay) (w : Nat) (v : Word) : Replay :=
  match w with
  | 0 => { x with addr := wideOf (hiWord x.addr) v }
  | 1 => { x with addr := wideOf v (loWord x.addr) }
  | n + 2 => { x with data := (x.data ++ List.replicate 4 0).take 4 |>.set n v }

/-- A read of M 2. -/
def State.readReplay (s : State) (id : Nat) (r : FRec) (sel : Nat) : Except Cause Word :=
  let lane := sel / 512 % 128
  if r.binned.isSome then
    match s.rowOf r lane with
    | some row => s.rowWord r row (24 + 4 * (sel % 8))
    | none => .error (kProt, 4)
  else match s.parkedLane id r lane with
    | some (_, x) => .ok (x.word (sel % 8))
    | none => .error (kProt, 4)

/-- PATCHED is set. -/
def State.patched (s : State) (id : Nat) : State := s.setRec id (fun r => { r with patched := true })

/-- A write of M 0: words 20 and 21 of a tile task, 20 to 23 of a segment. -/
def State.writeRec (s : State) (id : Nat) (r : FRec) (w : Nat) (v : Word) : Except Cause State :=
  let allowed : Bool := match r.origin.otype with
    | 1 => decide (w = 20) || decide (w = 21)
    | 2 => decide (20 ≤ w) && decide (w ≤ 23)
    | _ => false
  if ¬ allowed then .error (kProt, 4)
  else
    let k := 2 + (w - 20) / 2
    let old := r.opval.getD k 0
    let new := if w % 2 = 0 then wideOf (hiWord old) v else wideOf v (loWord old)
    let opval := ((r.opval ++ List.replicate 4 0).take 4).set k new
    .ok (((s.modRec id (fun r => { r with opval := opval })).recPut id (4 * w) (leBytes 4 v.toNat)).patched id)

/-- Whether a write of some lanes of a spilled group's name needs a register more than its spill area holds for it (R91, R94). -/
def State.spilledNew (s : State) (g name : Nat) (w : Mask) : Bool :=
  match tget (s.group g).map name with
  | some ⟨.spilled k _ _ uni, m⟩ => uni || s.keyPinned g k || (decide (m &&& ~~~w = 0) && s.keyHeld g k)
  | _ => true

/-- A request of a writer for one register of a group stands on its core's waiting list, or it waits for a release of the group's
own (R96, R98, R289). -/
def State.askPatch (s : State) (g : Nat) (who : PoolFor) : State :=
  let q : PoolReq := ⟨g, 1, who, decide (s.regsHeld g + 1 > (s.group g).regs.allot), false⟩
  if (s.core (s.coreOf g)).pwait.contains q then s
  else s.modCore (s.coreOf g) (fun c => { c with pwait := c.pwait.filter (fun x => x.isOther g who) ++ [q] })

/-- A write of one register lane of a group: a partial update of one lane, in the pool or in the spill area. The pool may
make it wait. -/
def State.writeLane (s : State) (g name lane : Nat) (v : Word) (who : PoolFor) : Except Cause (Option State) :=
  let vals := lanesFn (fun l => if l = lane then v else 0)
  if (s.group g).run.spilled then
    if s.spilledNew g name (laneBit lane) ∧ s.spilledHeld g + 1 > (s.group g).regs.allot then .error cAllot
    else .ok (some (s.landName g name (laneBit lane) vals false none))
  else if s.needsPhys g name (laneBit lane) false then
    match s.poolSays g 1 who with
    | .fault => .error cAllot
    | .wait => .ok none
    | .ok =>
      let s := s.modCore (s.coreOf g) (fun c => { c with pwait := c.pwait.filter (fun x => x.isOther g who) })
      .ok (some (s.landName g name (laneBit lane) vals false none))
  else .ok (some (s.landName g name (laneBit lane) vals false none))

/-- What parked work keeps of a register lane follows a write of it: the operands of the lane's replay, and those of a set
operation's member (R171, R214). -/
def State.patchKept (s : State) (id : Nat) (r : FRec) (j name lane : Nat) (v : Word) : State :=
  match r.origin with
  | .lanes g _ => s.modGroup g (fun G => G.modThreads (laneBit lane) (fun _ t => t.mapReplays (fun x => if x.record = id then { x with srcs := tdel x.srcs name } else x)))
  | .tile op => s.modMat op (fun o => { o with members := o.members.zipIdx.map (fun (e : MatMem × Nat) =>
      if e.2 ≠ j then e.1
      else { e.1 with
        vals := tmod e.1.vals name (fun (x : OpVal) => ⟨mergeLanes (laneBit lane) (lanesFn (fun l => if l = lane then v else 0)) x.vals,
          x.live ||| laneBit lane, x.poison &&& ~~~laneBit lane, x.map⟩)
        alt := tmod e.1.alt name (fun (x : Lanes × Mask) => (x.1, x.2 &&& ~~~laneBit lane)) }) })
  | _ => s

/-- A write of M 1. -/
def State.writeParked (s : State) (id : Nat) (r : FRec) (sel : Nat) (v : Word) (who : PoolFor) : Except Cause (Option State) :=
  let name := sel % 512
  let lane := sel / 512 % 128
  match s.pkGroup r sel with
  | none => .error (kProt, 4)
  | some g =>
    if r.binned.isSome then
      match s.rowOf r lane, s.binColumn r name with
      | some row, some c => match s.putRow r row (48 + 4 * c) (leBytes 4 v.toNat) with
        | .error e => .error e
        | .ok s => .ok (some (s.patched id))
      | _, _ => .error (kProt, 4)
    else match s.writeLane g name lane v who with
      | .error e => .error e
      | .ok none => .ok none
      | .ok (some s) => .ok (some ((s.patchKept id r (sel / 65536 % 4) name lane v).patched id))

/-- A write of M 2. -/
def State.writeReplay (s : State) (id : Nat) (r : FRec) (sel : Nat) (v : Word) : Except Cause State :=
  let lane := sel / 512 % 128
  if r.binned.isSome then
    match s.rowOf r lane with
    | some row => match s.putRow r row (24 + 4 * (sel % 8)) (leBytes 4 v.toNat) with
      | .error e => .error e
      | .ok s => .ok (s.patched id)
    | none => .error (kProt, 4)
  else match s.parkedLane id r lane with
    | some (g, x) => .ok ((s.modGroup g (fun G => G.modThreads (laneBit lane) (fun _ t =>
        t.mapReplays (fun y => if y.record = id then x.setWord (sel % 8) v else y)))).patched id)
    | none => .error (kProt, 4)

/-- A read of a record by what M selects. -/
def State.pkRead (s : State) (id : Nat) (r : FRec) (m sel : Nat) : Except Cause Word :=
  match m with
  | 0 => .ok (s.recWord r (sel % 32))
  | 1 => s.readParked r sel
  | _ => s.readReplay id r sel

/-- A write of a record by what M selects; none where the pool makes it wait. After a service, PROT PERM. -/
def State.pkWrite (s : State) (id : Nat) (r : FRec) (m sel : Nat) (v : Word) (who : PoolFor) : Except Cause (Option State) :=
  if r.action ≠ 0 then .error (kProt, 4)
  else match m with
    | 0 => (s.writeRec id r (sel % 32) v).map some
    | 1 => s.writeParked id r sel v who
    | _ => (s.writeReplay id r sel v).map some

/-! ### Services (R290, R291) -/

/-- Which service: PKRES 1, PKRTY 2, PKDIR 3 with its target, PKKIL 4. -/
structure Service where
  action : Nat
  target : Nat
  value : Wide
  deriving DecidableEq, Repr

/-- The launch of a record takes final status KILLED (R290). -/
def State.killedLaunch (s : State) (r : FRec) : State :=
  match r.launch with
  | some l => s.modLaunch l (fun l => { l with killed := true })
  | none => s

/-- The PC after the instruction at a PC of a group. -/
def State.pcAfter (s : State) (g : Nat) (pc : Wide) : Wide :=
  match s.fetch g pc with
  | .ok (_, sl) => nextPc pc sl.slots
  | .error _ => nextPc pc 1

/-- Rows of a record in its fault-bin tile are woken, and the dispatch test follows (R272). -/
def State.wakeRows (s : State) (r : FRec) : State :=
  let b := s.binOf r
  let rows := (s.rowsOf r).map Prod.fst
  match tget (s.block b).tiles faultBin with
  | none => s
  | some t =>
    let s := (s.binBits b t rows 1 true).binSync b t
    (s.modTile b faultBin (fun t => t.wake rows)).tileTest b faultBin

/-- The PCs of a record's rows become another (PKDIR). -/
def State.directRows (s : State) (r : FRec) (pc : Wide) : State :=
  foldS (s.rowsOf r) s (fun s e =>
    match s.rowWord r e.1 12 with
    | .error _ => s
    | .ok hi => match s.putRow r e.1 8 (leBytes 8 (pc.toNat % 2 ^ 56 + 2 ^ 32 * (hi.toNat / 2 ^ 24 * 2 ^ 24))) with
      | .ok s => s
      | .error _ => s)

/-- The binned threads of a record go on, at another PC where one is given. -/
def State.goRows (s : State) (r : FRec) (pc : Option Wide) : State :=
  (match pc with
    | some pc => s.directRows r pc
    | none => s).wakeRows r

/-- The rows of a record leave its fault-bin tile, and their threads are gone (R272). -/
def State.killRows (s : State) (r : FRec) : State :=
  let b := s.binOf r
  let rows := (s.rowsOf r).map Prod.fst
  match tget (s.block b).tiles faultBin with
  | some t => (s.takeRows b faultBin t rows rows.length).blockCheck b
  | none => s

/-- A record's service makes a thread replay; one that replays an earlier instruction first comes back to it. -/
def Thread.resume (t : Thread) (id ready : Nat) (fresh : Bool) : Thread :=
  let go (x : Replay) : Replay := if x.record = id then { x with go := true, fresh } else x
  if t.replay.any (fun x => decide (x.record = id)) then { t.mapReplays go with st := .live, since := none, ready, noMatch := false }
  else t.mapReplays go

/-- The last of the replays of a list comes back to another PC. -/
def redirectLast (pc : Wide) : List Replay → List Replay
  | [] => []
  | [x] => [{ x with after := x.after.map (fun a => (pc, a.2)) }]
  | x :: r => x :: redirectLast pc r

/-- A record's service sends a thread to another PC; what it was to replay after that record's instruction is given up (DESIGN
CHOICE, log entry 55). -/
def Thread.redirect (t : Thread) (id ready : Nat) (pc : Wide) : Thread :=
  if t.replay.any (fun x => decide (x.record = id)) then
    { t with st := .live, pc := pc, replay := none, stash := [], since := none, ready, noMatch := false }
  else
    let keep := redirectLast pc (t.replay.toList ++ t.stash.takeWhile (fun x => decide (x.record ≠ id)))
    { t with replay := keep.head?, stash := keep.tail }

/-- The reads that replays of some lanes keep pending end, from a record's on (R91). -/
def State.endHoldsFrom (s : State) (id g : Nat) (m : Mask) : State :=
  let from_ (t : Thread) : List Replay := t.replays.dropWhile (fun x => decide (x.record ≠ id))
  let held := (lanesOf m).flatMap (fun l => (from_ ((s.group g).thread l)).flatMap Replay.holds)
  let s := s.modGroup g (fun G => G.modThreads m (fun _ t =>
    let ids := (from_ t).map Replay.record
    t.mapReplays (fun x => if ids.contains x.record then { x with holds := [] } else x)))
  foldS held s (fun s x => s.freeMapping (s.coreOf g) g x)

/-- A service of parked lanes: the replay, the new PC, or the end of the threads. -/
def State.serveLanes (s : State) (id : Nat) (r : FRec) (g : Nat) (m : Mask) (v : Service) : State :=
  let G := s.group g
  let mine := maskOf ((lanesOf m).filter (fun l => (s.parkedLane id r l).isSome))
  let next := if r.kind = kTrap ∧ v.action = 1 then some (s.pcAfter g r.pc) else if v.action = 3 then some v.value else none
  let resident := (if next.isSome then s.endHoldsFrom id g mine else s).modGroup g (fun G => G.modThreads mine (fun _ t => match next with
    | some pc => t.redirect id (s.clk.ac + 1) pc
    | none => t.resume id (s.clk.ac + 1) (decide (v.action = 2))))
  if v.action = 4 then
    (if r.binned.isSome then s.killRows r
      else if G.run.place = .gone then s
      else (s.vacate g mine).exitCheck g).killedLaunch r
  else if r.binned.isSome then s.goRows r next
  else resident

/-- A service of a tile task: the operation waits for the engine again, or is abandoned. -/
def State.serveTile (s : State) (r : FRec) (op : Nat) (v : Service) : State :=
  if v.action = 4 then (s.matOver op).killedLaunch r
  else { s with mats := tmod s.mats op (fun o => { o with
    phase := .waiting, due := s.clk.ac, fault := none
    bsrc := match v.action with
      | 1 => some (r.opval.getD 2 0)
      | 2 => none
      | _ => if v.target = 0 then some v.value else some (r.opval.getD 2 0)
    gdesc := if v.action = 3 ∧ v.target = 1 then some v.value else if v.action = 2 then none else o.gdesc }) }

/-- A service of a copy's segment. A final segment parked for CKSUM has landed: PKDIR moves it again, and the compare follows. -/
def State.serveSegment (s : State) (r : FRec) (copy seg : Nat) (v : Service) : State :=
  match tget s.copies.copies copy with
  | none => s
  | some c =>
    let p := (c.parked.find? (fun p => decide (p.seg = seg))).getD default
    let gone := s.modCopy copy (fun c => { c with parked := c.parked.filter (fun p => decide (p.seg ≠ seg)) })
    if v.action = 4 then s.killCopy copy
    else if r.kind = kCksum ∧ v.action ≠ 3 then
      if v.action = 2 then s.restartChain (s.chainOf c)
      else foldS (gone.chainOf c) gone (fun s e => s.modCopy e.1 (fun c => { c with matched := true }))
    else
      let src := r.opval.getD 2 0
      let dst := r.opval.getD 3 0
      let q : ParkedSeg := if v.action = 2 then ⟨seg, 0, 0, (c.img.segAt seg).1, (c.img.segAt seg).2⟩ else ⟨seg, p.off, 0, src, dst⟩
      gone.modCopy copy (fun c => { c with
        again := c.again ++ [q], done := c.done.filter (fun k => decide (k ≠ seg))
        tiles := if v.action = 2 then tdel c.tiles seg else c.tiles
        data := if v.action = 2 ∨ r.kind = kCksum then tdel c.data seg else c.data })

/-- A service of an LDSP segment: it moves again, or counts as done with its bytes as they were. -/
def State.serveTransfer (s : State) (r : FRec) (core entry seg : Nat) (v : Service) : State :=
  match tget (s.core core).xfer entry with
  | none => s
  | some t =>
    if v.action = 4 then (s.xferSegDone core entry seg).killedLaunch r
    else
      match t.range seg with
      | none => s
      | some (off, n) =>
        let plan := if v.action = 2 then (0, t.src.toNat + off, t.dst + off)
          else (min n ((r.opval.getD 1 0).toNat - off), (r.opval.getD 2 0).toNat, (r.opval.getD 3 0).toNat)
        s.modCore core (fun k => { k with xfer := tmod k.xfer entry (fun t => { t with
          parked := t.parked.filter (fun x => decide (x.1 ≠ seg)), again := tput t.again seg plan }) })

/-- The address that PKDIR gives a segment replaces its word of the record (R290). -/
def State.directSegment (s : State) (id : Nat) (r : FRec) (v : Service) : FRec × State :=
  if v.action ≠ 3 ∨ r.origin.otype ≠ 2 then (r, s)
  else
    let k := 2 + v.target % 2
    let opval := ((r.opval ++ List.replicate 4 0).take 4).set k v.value
    ({ r with opval }, (s.modRec id (fun r => { r with opval })).recPut id (64 + 8 * k) (leBytes 8 v.value.toNat))

/-- A service of withdrawn claims: they enter the queue again in their order, or their threads go on elsewhere or end
(R241). Those whose threads have gone to a fault bin issue again from there (R272). -/
def State.serveClaims (s : State) (id : Nat) (r : FRec) (b : Nat) (ws : List Wait) (v : Service) : State :=
  let held (s : State) (w : Wait) : Mask := maskOf ((lanesOf w.lanes).filter (fun l =>
    let t := (s.group w.gid).thread l
    decide (t.st = .parked) && (match t.replay with
      | some x => decide (x.record = id)
      | none => false)))
  let binned := (s.rowsOf r).map Prod.fst
  let s := if binned.isEmpty then s
    else if v.action = 4 then s.killRows r
    else s.goRows r (if v.action = 3 then some v.value else none)
  match v.action with
  | 3 => foldS ws s (fun s w => s.modGroup w.gid (fun G => G.modThreads (held s w) (fun _ t =>
      { t with st := .live, pc := v.value, replay := none, ready := s.clk.ac + 1, noMatch := false })))
  | 4 => (foldS ws s (fun s w => (s.vacate w.gid (held s w)).exitCheck w.gid)).killedLaunch r
  | _ => foldS ws s (fun s w =>
      let m := held s w
      if m = 0 then s else
      let (n, s) := s.freshId
      let next := s.pcAfter w.gid w.pc
      let s := s.modGroup w.gid (fun G => G.modThreads m (fun _ t => { t with st := .waiting, replay := none, pc := next }))
      let s := { s with flight := { s.flight with waits := tput s.flight.waits n { w with lanes := m } } }
      let s := s.markSlot w.gid w.slot { plainMark with op := w.seq }
      s.modBlock b (fun B => { B with claims := B.claims ++ [.thread n] }))

/-- Whether a service is one that the origin does not support (R290). -/
def Service.unsup (v : Service) (o : Origin) : Bool :=
  decide (v.action = 3) && (match o.otype with
    | 0 => decide (v.target = 1)
    | 1 => false
    | 2 => false
    | 3 => decide (v.target = 1)
    | _ => true)

/-- A service of the other origins: a region, a spill, a formation, a write-back. -/
def State.serveOther (s : State) (r : FRec) (v : Service) : State :=
  match r.origin with
  | .region _ =>
    if v.action ≠ 4 then s
    else
      let s := foldS ((s.belfry.launches.filter (fun e => decide (e.2.region.rcb = r.region.rcb))).map Prod.fst) s State.killLaunch
      foldS ((s.copies.copies.filter (fun e => decide (e.2.id.region.rcb = r.region.rcb))).map Prod.fst) s State.killCopy
  | .spill g =>
    if v.action = 4 then (((s.dropWaits g).vacate g allLanes).exitCheck g).killedLaunch r
    else if ¬ (s.group g).run.spilled then s.evict g
    else if (s.core (s.coreOf g)).pwait.any (fun q => q.refills g && q.granted) ∨ s.spilledCount g = 0 then s.refillNow g
    else s
  | .formation b h =>
    match tget (s.block b).tiles h with
    | none => if v.action = 4 then s.killedLaunch r else s
    | some t =>
      if v.action ≠ 4 then (s.modTile b h (fun t => { t with binrun := true })).tileTest b h
      else match s.freeRows b h t with
        | .ok s => ((s.tileTest b h).blockCheck b).killedLaunch r
        | .error e =>
          ((s.takeRows b h t t.ready t.count).frameRecord b h r.group e.2).killedLaunch r
  | .writeBack b home t =>
    if v.action = 4 then s.killedLaunch r
    else match s.tileBackTry b home r.region t with
      | .ok s => s
      | .error e => s.backFault b home t e.2
  | _ => s

/-- The block whose parked work a record describes. -/
def State.originBlock (s : State) (o : Origin) : Option Nat :=
  match o with
  | .lanes g _ | .spill g => some (s.group g).id.block
  | .tile op => (tget s.mats op).map MatOp.block
  | .transfer core e _ => (tget (s.core core).xfer e).map Transfer.block
  | .claims b _ | .formation b _ => some b
  | .segment _ _ | .region _ | .writeBack _ _ _ => none

/-- Whether a record's origin is stowed, so that a service takes effect at its resumption (R284). -/
def State.originStowed (s : State) (o : Origin) : Bool :=
  match s.originBlock o with
  | some b => decide ((s.block b).run = BlockRun.stowed)
  | none => false

/-- Whether the work that a service resumes is over with the service, which has made a state of another: an acknowledgement, a write-back
that has been tried again, and a spill or a refill that has; a refill that must wait for the pool is not (R290, R291). -/
def State.doneAtOnce (old s : State) (o : Origin) : Bool :=
  match o with
  | .region _ | .writeBack _ _ _ => true
  | .spill g => !((old.group g).run.spilled && (s.group g).run.spilled && decide (s.faults.recs.length = old.faults.recs.length))
  | _ => false

/-- A service takes effect (R290). -/
def State.pkApply (s : State) (id : Nat) (r : FRec) (v : Service) : State :=
  let (r, s) := s.directSegment id r v
  let s := s.modRec id (fun x => { x with service := none })
  let served (t : State) : State := t.modRec id (fun x => { x with state := if x.state ≤ 1 ∧ s.doneAtOnce t r.origin then 2 else x.state })
  served <| match r.origin with
  | .lanes g m => s.serveLanes id r g m v
  | .tile op => s.serveTile r op v
  | .segment c k => s.serveSegment r c k v
  | .transfer core e k => s.serveTransfer r core e k v
  | .claims b ws => s.serveClaims id r b ws v
  | _ => s.serveOther r v

/-- A service of a record: its result code (R291) and the state. It takes effect now, or when the origin's block is resumed
(R284). -/
def State.pkServe (s : State) (id : Nat) (r : FRec) (v : Service) : Nat × State :=
  if r.action ≠ 0 ∨ r.state ≥ 2 then (1, s)
  else if v.unsup r.origin then (2, s)
  else
    let later := s.originStowed r.origin
    let s := s.modRec id (fun r => { r with
      action := v.action, state := if v.action = 4 then 3 else r.state
      service := if later then some (v.action, v.target, v.value) else none })
    let s := (if later then s else s.pkApply id r v).syncRecs
    (0, s.trace1 8 (s.originSrc r.origin) r.region.regionId ({ r with action := v.action } : FRec).traceData)

/-! ### Issue -/

/-- The active threads of a handler's split park with a cause; ADDR is the handle (R287). -/
def State.pkPark (s : State) (o : Opnds) (c : Cause) (h : Wide) : State :=
  let is := s.iss
  let m := is.leader
  (s.parkSplit is m.gid m.act c h (s.opval is o m.gid (lowLane m.act))).advance m.gid (m.lanes &&& ~~~m.act) is.next
    (s.nextReady is 0)

/-- Where a group runs a fault task: the RCB of the fault domain of its record, the handle by which another chip knows that domain, and
the group's world (R276, R287). -/
def State.handlerOf (s : State) (g : Nat) : Option (Nat × Wide × Bool) :=
  let L := s.launch (s.group g).id.launch
  L.fault.map (fun f => (f.origin.dom.rcb, f.origin.dom.peer.getD f.handle, L.region.world))

/-- The RCB of the fault domain of a record of this chip. -/
def State.domOf (s : State) (h : Wide) : Option Nat := (s.recOf h).map (fun e => e.2.dom.rcb)

/-- A request to the chip that a handle names: its threads wait for the answer; with no route a service answers LINKTO,
and a read has a free value (R280, R291, log entry 6). -/
def State.pkSend (s : State) (o : Opnds) (own : Wide) (h : Wide) (action : PkAction) (sel : Nat) (value : Wide)
    (d : Nat) (isService : Bool) (sd : List Nat) : State :=
  let is := s.iss
  let m := is.leader
  let g := m.gid
  let world := (s.regionOf g).world
  if world ∧ ¬ s.net.secured.contains (handleChip h) then s.pkPark { Opnds.none with sd := sd } (kProt, 4) h
  else if s.unreachable (handleChip h) then
    if isService then (s.issueScalar g d 3).finish is
    else if sd.isEmpty then s.finish is
    else (((s.freshFree).2).issueScalar g d (Config.freeWord s.env.freeCtr 0)).finish is
  else
    let req : PkRequest := ⟨action, h, sel, value, own, Config.chipId, world, (s.regionOf g).regionId % 2 ^ 24⟩
    let next := s.env.nextId + 1
    let opval := s.opval is o g (lowLane m.act)
    let (w, s) := s.waitFor is m (.pk d next isService) (scalMark sd) s.clk.ac 0
    ((s.setOpval w opval).post (handleChip h) (.pk w req) h [] [] world).2

/-- PKRD by what M selects. -/
def State.pkrdOp (s : State) (i : Instr) (f : TR) (e : Word) (m : Nat) (action : PkAction) : State :=
  let o := opnds i
  let b := s.begin_ i o
  let is := b.iss
  let g := is.leader.gid
  if is.leader.act = 0 then b.advanceAll is 0
  else
    let h := b.pair g f.a.toNat
    match b.pkSelector g m e, b.handlerOf g with
    | none, _ => b.pkPark o cField 0
    | _, none => b.pkPark o (kProt, 4) h
    | some sel, some (dom, own, world) =>
      if ¬ thisChip (handleChip h) then b.pkSend o own h action sel.toNat 0 f.d.toNat false o.sd
      else match b.pkCheck h (some dom) world with
        | .error c => b.pkPark o c h
        | .ok (id, r) => match b.pkRead id r m sel.toNat with
          | .error c => b.pkPark o c h
          | .ok v => (b.issueScalar g f.d.toNat v).finish is

/-- PKWR by what M selects. Where it needs a register that the pool or the allotment does not give yet, its split waits with reason POOL
(R96, R98, R289). -/
def State.pkwrOp (s : State) (i : Instr) (f : TR) (e : Word) (m : Nat) (action : PkAction) : State :=
  let o := opnds i
  let b := s.begin_ i o
  let is := b.iss
  let g := is.leader.gid
  if is.leader.act = 0 then b.advanceAll is 0
  else
    let h := b.pair g f.a.toNat
    let v := b.scalar g f.d.toNat
    match b.pkSelector g m e, b.handlerOf g with
    | none, _ => b.pkPark o cField 0
    | _, none => b.pkPark o (kProt, 4) h
    | some sel, some (dom, own, world) =>
      if ¬ thisChip (handleChip h) then b.pkSend o own h action sel.toNat (wideOf 0 v) 0 false []
      else match b.pkCheck h (some dom) world with
        | .error c => b.pkPark o c h
        | .ok (id, r) =>
          let who : PoolFor := .patch (some (g, is.pc, is.wb))
          match b.pkWrite id r m sel.toNat v who with
          | .error c => b.pkPark o c h
          | .ok none => s.unissue.askPatch ((b.pkGroup r sel.toNat).getD 0) who
          | .ok (some b) => b.finish is

/-- A service instruction. It is a release at .dev for its group: it issues once the group's earlier stores are out
(R231). -/
def State.pkServiceOp (s : State) (i : Instr) (f : TR) (v : State → Nat → Service) (action : PkAction) : State :=
  let o := opnds i
  let b := s.begin_ i o
  let is := b.iss
  let g := is.leader.gid
  if is.leader.act = 0 then b.advanceAll is 0
  else if ¬ b.earlierStoresOut g b.env.nextId 5 then s.notIssued
  else
    let h := b.pair g f.a.toNat
    match b.handlerOf g with
    | none => b.pkPark o (kProt, 4) h
    | some (dom, own, world) =>
      if ¬ thisChip (handleChip h) then b.pkSend o own h action 0 (v b g).value f.d.toNat true o.sd
      else match b.pkCheck h (some dom) world with
        | .error c => b.pkPark o c h
        | .ok (id, r) =>
          let (code, b) := b.pkServe id r (v b g)
          if (tget b.groups g).isNone ∨ (b.group g).run.place = .gone then b
          else (b.issueScalar g f.d.toNat (BitVec.ofNat 32 code)).finish is

/-- PKRD.rec (R288, R289). -/
def execPkrdRec (f : TR) (e : Word) (s : State) : Res := .next (s.pkrdOp (.pkrdRec f e) f e 0 .readRec)
/-- PKRD.reg. -/
def execPkrdReg (f : TR) (e : Word) (s : State) : Res := .next (s.pkrdOp (.pkrdReg f e) f e 1 .readReg)
/-- PKRD.rpl. -/
def execPkrdRpl (f : TR) (e : Word) (s : State) : Res := .next (s.pkrdOp (.pkrdRpl f e) f e 2 .readRpl)
/-- PKWR.rec (R288, R289). -/
def execPkwrRec (f : TR) (e : Word) (s : State) : Res := .next (s.pkwrOp (.pkwrRec f e) f e 0 .writeRec)
/-- PKWR.reg. -/
def execPkwrReg (f : TR) (e : Word) (s : State) : Res := .next (s.pkwrOp (.pkwrReg f e) f e 1 .writeReg)
/-- PKWR.rpl. -/
def execPkwrRpl (f : TR) (e : Word) (s : State) : Res := .next (s.pkwrOp (.pkwrRpl f e) f e 2 .writeRpl)
/-- PKRES (R290). -/
def execPkres (f : TR) (s : State) : Res := .next (s.pkServiceOp (.pkres f) f (fun _ _ => ⟨1, 0, 0⟩) .res)
/-- PKRTY (R290). -/
def execPkrty (f : TR) (s : State) : Res := .next (s.pkServiceOp (.pkrty f) f (fun _ _ => ⟨2, 0, 0⟩) .rty)
/-- PKDIR (R290): M is the target, the literal names the pair of the new value. -/
def execPkdir (f : TR) (e : Word) (s : State) : Res :=
  .next (s.pkServiceOp (.pkdir f e) f (fun b g => ⟨3, f.m.toNat, b.pair g (fld e 0 7)⟩) (.dir f.m.toNat))
/-- PKKIL (R290). -/
def execPkkil (f : TR) (s : State) : Res := .next (s.pkServiceOp (.pkkil f) f (fun _ _ => ⟨4, 0, 0⟩) .kil)

/-! ### Requests of a peer's handler (R280) -/

/-- The grant entry of a job (R318). -/
def State.grantOf (s : State) (job : Nat) : Option Grant :=
  (s.net.grants.find? (fun e => e.2.ctrl.getLsbD 0 && decide (e.2.job = job))).map Prod.snd

/-- The world of an entry. -/
def Grant.world (g : Grant) : Bool := g.ctrl.getLsbD 4

/-- What refuses a request: no grant entry for its job, an S entry without transport security, and then what refuses a handler of this
chip, as work of the entry's world (R287, R318, R325, R329). -/
def State.pkAllowed (s : State) (q : PkRequest) : Except Cause (Nat × FRec) :=
  match s.grantOf q.job with
  | none => .error (kProt, 4)
  | some g => if g.world ∧ ¬ q.secure then .error (kProt, 4) else s.pkCheck q.handle (s.domOf q.own) g.world

/-- What a request asks of a record: the answer's bytes, or a refusal, and the state; none where the pool makes it wait. -/
def State.pkAnswer (s : State) (q : PkRequest) : Option (RemoteResult × State) :=
  let bad (c : Cause) : Option (RemoteResult × State) := some (⟨[], none, some c⟩, s)
  let rd (id : Nat) (r : FRec) (m : Nat) : Option (RemoteResult × State) := match s.pkRead id r m q.selector with
    | .error c => bad c
    | .ok v => some (⟨leBytes 4 v.toNat, none, none⟩, s)
  let wr (id : Nat) (r : FRec) (m : Nat) : Option (RemoteResult × State) := match s.pkWrite id r m q.selector (loWord q.value) (.patch none) with
    | .error c => bad c
    | .ok none => none
    | .ok (some s) => some (⟨[], none, none⟩, s)
  let sv (id : Nat) (r : FRec) (v : Service) : Option (RemoteResult × State) :=
    let (code, s) := s.pkServe id r v
    some (⟨leBytes 4 code, none, none⟩, s)
  match s.pkAllowed q with
  | .error c => bad c
  | .ok (id, r) =>
    match q.action with
    | .readRec => rd id r 0
    | .readReg => rd id r 1
    | .readRpl => rd id r 2
    | .writeRec => wr id r 0
    | .writeReg => wr id r 1
    | .writeRpl => wr id r 2
    | .res => sv id r ⟨1, 0, 0⟩
    | .rty => sv id r ⟨2, 0, 0⟩
    | .dir t => sv id r ⟨3, t, q.value⟩
    | .kil => sv id r ⟨4, 0, 0⟩

/-- The job whose source an arrival comes from: what one source sends is performed in its order (R230, R289). DEDUCED, log entry 38. -/
def Inbound.job : Inbound → Nat
  | .op o => o.job
  | .pk q => q.job

/-- Whether an arrival waits behind another of its source. -/
def State.inLine (s : State) (x : Inbound) : Bool := s.net.waiting.any (fun y => decide (y.job = x.job))

/-- Whether an arrival that waits here is the first of its source. -/
def State.firstInLine (s : State) (x : Inbound) : Bool :=
  decide (s.net.waiting.find? (fun y => decide (y.job = x.job)) = some x)

/-- An arrival waits here. -/
def State.keepInbound (s : State) (x : Inbound) : State := { s with net := { s.net with waiting := s.net.waiting ++ [x] } }

/-- An arrival waits here no more. -/
def State.dropInbound (s : State) (x : Inbound) : State := { s with net := { s.net with waiting := s.net.waiting.erase x } }

/-- An answer goes back. -/
def State.reply (s : State) (port : Nat) (a : RemoteResult) : State := { s with net := { s.net with replies := s.net.replies ++ [(port, a)] } }

/-- The register that a request waits for is asked for. -/
def State.pkAsk (s : State) (q : PkRequest) : State :=
  match s.recOf q.handle with
  | some (_, r) => s.askPatch ((s.pkGroup r q.selector).getD 0) (.patch none)
  | none => s

/-- PK_REQUEST_RECEIVE: the request takes effect in the order of arrival, and its answer goes back (R280). One that waits for the pool
waits here, with what comes after it from the same source (R98, R289). -/
def execPkRequestReceive (request : PkRequest) (s : State) : Res :=
  let x : Inbound := .pk request
  if s.firstInLine x then
    match s.pkAnswer request with
    | none => .next (s.pkAsk request)
    | some (a, s) => .next ((s.dropInbound x).reply request.peer a)
  else if s.inLine x then .next (s.keepInbound x)
  else match s.pkAnswer request with
    | none => .next ((s.keepInbound x).pkAsk request)
    | some (a, s) => .next (s.reply request.peer a)

/-- The answer to a request of this chip's handler: a value or code lands, or its threads park (R289, R291). -/
def State.pkAnswered (s : State) (wait : Nat) (h : Wide) (a : RemoteResult) : State :=
  match tget s.flight.waits wait with
  | none => s
  | some w =>
    match w.kind with
    | .pk d _ _ =>
      match a.refusal with
      | some c => s.waitFault wait w c h
      | none =>
        let s := if a.bytes.isEmpty then s else s.waitScalar w d (BitVec.ofNat 32 (leNat (a.bytes.take 4)))
        s.endWait wait
    | _ => s

/-- A request of this chip's handler is lost: a service returns LINKTO (R291). -/
def State.pkLost (s : State) (wait : Nat) : State :=
  match tget s.flight.waits wait with
  | none => s
  | some w => match w.kind with
    | .pk d _ isService =>
      if isService then (s.waitScalar w d 3).endWait wait
      else
        let v := Config.freeWord s.env.freeCtr 0
        let s := s.freshFree.2
        (if (tgetD (s.group w.gid).sb w.slot).scalars.isEmpty then s else s.waitScalar w d v).endWait wait
    | _ => s

end Sys2Proof.Machine
end

