-- ==== Sys2Proof/Machine/Deliver.lean ====
section
/-! DEFINITION. The delivery of parked records and of their fault tasks (R267, R273, R274, R280, R284, R291). -/
namespace Sys2Proof.Machine

/-! ### Delivery -/

/-- Whether a service waits that takes effect now, for the block of its origin has been resumed (R284). -/
def State.serviceDue (s : State) (r : FRec) : Bool := r.service.isSome && !s.originStowed r.origin

/-- A service that has waited takes effect. -/
def State.applyService (s : State) (id : Nat) (r : FRec) : State :=
  match r.service with
  | some (action, target, value) => (s.pkApply id r ⟨action, target, value⟩).syncRecs
  | none => s

/-- The groups whose lanes a record has parked. -/
def FRec.binGids (r : FRec) : List Nat :=
  match r.origin with
  | .lanes g _ => [g]
  | .claims _ ws => (ws.map Wait.gid).eraseDups
  | _ => []

/-- The launch among whose records one counts: that of its work, or of the group that has issued its copy (R333). -/
def State.countedIn (s : State) (r : FRec) : Option Nat :=
  match r.launch, r.origin with
  | some l, _ => some l
  | none, .segment c _ => match (tget s.copies.copies c).map (fun x => x.id.source) with
    | some (CopySource.group _ l _ _ _) => some l
    | _ => none
  | none, _ => none

/-- Whether STATUS of a record is to be brought up to date in memory; a quarantined page keeps its data (R310). -/
def State.statusOld (s : State) (r : FRec) : Bool :=
  decide ((s.recWord r 1).toNat ≠ r.status) && !s.quarantined (r.addrOf.getD 0)

/-- PARKED_RECORD_WRITE: the record is written to PKAREA or a Keep slot, or deferred; a fault nested too deep tears the
domain down; a service whose block has been resumed takes effect; a wholly parked group goes to its fault bin; and a record
whose resumed work has executed becomes DONE (R267, R271, R276, R284, R291). -/
def execParkedRecordWrite (record : Nat) (s : State) : Res :=
  match tget s.faults.recs record with
  | none => .next s
  | some r =>
    match r.handle with
    | none =>
      if r.state ≥ 2 then .next { s with faults := { s.faults with recs := tdel s.faults.recs record } }
      else if s.earlierUnwritten record r ∨ r.deferred then .next s
      else if r.depth > r.dom.maxDepth then
        let s := { s with faults := { s.faults with recs := tdel s.faults.recs record } }
        let s := match s.countedIn r with
          | some l => s.modLaunch l (fun l => { l with recs := l.recs - 1 })
          | none => s
        .next (s.teardown kNestmax r.depth r)
      else match s.slotFor r with
        | none => .next (s.modRec record (fun r => { r with deferred := true }))
        | some (a, keep) => .next (s.writeRecord record a keep)
    | some _ =>
      if s.statusOld r then .next (s.putStatus record)
      else if s.serviceDue r then .next (s.applyService record r)
      else if r.state ≤ 1 ∧ r.action ≠ 0 ∧ r.service = none ∧ s.resumedDone record r then .next (s.setRec record (fun r => { r with state := 2 })).freeRecords
      else if r.state ≥ 2 ∧ s.taskOver r ∧ r.service = none then .next s.freeRecords
      else if r.action = 0 ∧ r.state ≤ 1 then .next (foldS r.binGids s State.binGroup)
      else .next s

/-- DEFERRED_RECORD_FORM: a slot has become free for a deferred record (R267). -/
def execDeferredRecordForm (record : Nat) (s : State) : Res :=
  match tget s.faults.recs record with
  | none => .next s
  | some r =>
    if r.handle.isSome ∨ ¬ r.deferred ∨ r.state ≥ 2 ∨ s.earlierUnwritten record r then .next s
    else match s.slotFor r with
      | none => .next s
      | some (a, keep) => .next (s.writeRecord record a keep)

/-! ### The fault task's append (R273, R280) -/

/-- Bytes 8 to 63 of a fault task's LAUNCH packet (R273). -/
def FRec.packet (r : FRec) (budget : Nat) : List Byte :=
  [1, 2, 0, 0, 0, 0, 0, 0] ++ leBytes 8 (r.addrOf.getD 0 + 8) ++ leBytes 8 r.dom.hbundle.toNat ++ leBytes 8 (r.time + r.dom.fdeadline) ++
  leBytes 8 budget ++ leBytes 8 (r.handle.getD 0).toNat ++ leBytes 8 0

/-- The served queue whose registered header a domain names (R29, R273). -/
def State.handlerQueue (s : State) (header : Nat) : Option (Nat × Queue) :=
  match s.belfry.qreg.find? (fun e => e.2.valid && decide (e.2.header.toNat = header)) with
  | none => none
  | some e => (tget s.belfry.queues e.1).map (fun Q => (e.1, Q))

/-- The budget of a fault task's packet: the handler bundle's, or FDEADLINE where that is 0 (R48), or cannot be read (DESIGN
CHOICE, log entry 35). -/
def State.taskBudget (s : State) (Q : Queue) (dom : Domain) : Nat :=
  match s.belfryRead Q.space (dom.hbundle.toNat + 0x18) 8 with
  | .error _ => dom.fdeadline
  | .ok b => if leNat b = 0 then dom.fdeadline else leNat b

/-- What an append to a local queue does: it retries while the queue is full, and fails where an access fails. -/
inductive AppendSays where
  | retry | failed
  | done (s : State)

/-- The append of a fault task's packet to a queue of this chip, claiming the slot without waiting; a read that a refresh window
holds is made later (R36, R155, R273). -/
def State.appendLocal (s : State) (r : FRec) : AppendSays :=
  match s.handlerQueue r.dom.hqueue with
  | none => .failed
  | some (q, Q) =>
    if s.runHeld Q.header 8 ∨ s.vaHeld Q.troot Q.world (r.dom.hbundle.toNat + 0x18) 8 ∨
        s.vaHeld Q.troot Q.world (Q.slotVa (leNat (s.runBytes [] [(Q.header, 8)]))) 8 then .retry
    else
    match (s.ownRead Q.header 8).map leNat with
    | none => .failed
    | some w =>
    match s.belfryRead Q.space (Q.slotVa w) 8 with
    | .error _ => .failed
    | .ok t =>
      if leNat t ≠ w then .retry
      else match (s.ownWrite Q.header (leBytes 8 ((w + 1) % 2 ^ 64))).belfryWrite Q.space (Q.slotVa w + 8) (r.packet (s.taskBudget Q r.dom)) with
        | .error _ => .failed
        | .ok s => match s.belfryWrite Q.space (Q.slotVa w) (leBytes 8 ((w + 1) % 2 ^ 64)) with
          | .error _ => .failed
          | .ok s => .done (s.modQueue q (fun Q => { Q with devSlots := Q.devSlots ++ [w] }))

/-- A record whose handler's route is dead: its parked work is killed as PKKIL would, without a teardown (R280). -/
def State.killRecord (s : State) (id : Nat) : State :=
  match tget s.faults.recs id with
  | none => s
  | some r => ((s.pkServe id r ⟨4, 0, 0⟩).2.setRec id (fun r => { r with appended := false })).freeRecords

/-- The packet goes to the handler queue of another chip. How this chip knows the budget of a handler bundle there is not said: it
is a free value (R48, DEDUCED, log entry 35). -/
def State.appendRemote (s : State) (id : Nat) (r : FRec) : State :=
  let b := wideOf (Config.freeWord s.env.freeCtr 1) (Config.freeWord s.env.freeCtr 0)
  (s.freshFree.2.post r.dom.hqChip (.append id) (BitVec.ofNat 64 r.dom.hqueue) [] (leBytes 8 0 ++ r.packet b.toNat) r.dom.world).2

/-- FAULT_TASK_APPEND: the fault task's LAUNCH is published in HQUEUE; a full queue is retried, a failure tears the domain
down (R273, R279, R280, R325). -/
def execFaultTaskAppend (record : Nat) (s : State) : Res :=
  match tget s.faults.recs record with
  | none => .next s
  | some r =>
    if r.handle.isNone ∨ r.appended ∨ r.torn ∨ r.state ≥ 2 ∨ s.earlierUnsent record r then .next s
    else if thisChip r.dom.hqChip then
      match s.appendLocal r with
      | .retry => .next s
      | .failed => .next (s.teardown kHqfail r.depth r)
      | .done s => .next (s.modRec record (fun r => { r with appended := true }))
    else if r.dom.world ∧ ¬ s.net.secured.contains r.dom.hqChip then .next s
    else if s.unreachable r.dom.hqChip then .next (s.killRecord record)
    else .next ((s.appendRemote record r).modRec record (fun r => { r with appended := true }))

end Sys2Proof.Machine
end

