-- ==== Sys2Proof/Machine/Margin.lean ====
section
/-! DEFINITION. What writes do to the registers of the Spire's blocks: the error banks (R314), the margining block (R348,
R349) and trace control (R341), and the samples of trace (R342). -/
namespace Sys2Proof.Machine

/-! ### Error banks (R314, R315) -/

/-- A write to STATUS: OVF, UEOVF and CECOUNT are cleared by ones, CLR empties the record. -/
def Bank.w1c (b : Bank) (v : Wide) : Bank :=
  let b := { b with
    ovf := b.ovf && !v.getLsbD 2
    ueovf := if fld v 8 8 ≠ 0 then 0 else b.ueovf
    cecount := if fld v 16 16 ≠ 0 then 0 else b.cecount }
  if v.getLsbD 32 then { b with state := 0, seen := false, addr := 0, info := 0, origin := 0, time := 0 } else b

/-- A bank of the Spire's table changes. -/
def State.modBank (s : State) (i : Nat) (f : Bank → Bank) : State :=
  s.modSpire (fun p => { p with banks := tupd p.banks i f })

/-- ERRBANK_STATUS_READ: a read of STATUS by world S sets SEEN; one by world N does not (R314, R315). -/
def execErrbankStatusRead (bank : Nat) (world : Bool) (s : State) : Res :=
  .next (if bankExists bank then s.seeBank bank world else s)

/-- ERRBANK_STATUS_WRITE: a world-S write of STATUS (R314). -/
def execErrbankStatusWrite (bank : Nat) (value : Wide) (s : State) : Res :=
  .next (if bankExists bank then s.modBank bank (fun b => b.w1c value) else s)

/-! ### Rails (R348) -/

/-- The die of a rail; the hub rail belongs to die number 4, which MARGIN names so (DEDUCED, log entry 37). -/
def railDie (rail : Nat) : Nat := if rail = 32 then 4 else rail / 8

/-- Whether a number names a rail: 8 d + k, or 32 for the hub. -/
def railExists (rail : Nat) : Bool := (decide (rail < 32) && decide (rail % 8 < 3)) || decide (rail = 32)

/-- The state with a rail changed. -/
def State.modRail (s : State) (rail : Nat) (f : Rail → Rail) : State :=
  s.modSpire (fun p => { p with rails := tupd p.rails rail f })

/-- Where a rail stands at a campanile value, in thousandths of a step: at its step, or on its way there. -/
def Rail.position (r : Rail) (ns : Nat) : Int :=
  let goal := 1000 * sextN 7 r.step.toNat
  let left : Int := if r.busy then (r.doneAt - ns : Nat) else 0
  if r.origin ≤ goal then goal - left else goal + left

/-- A rail is set to a step: from where it stands it slews at 5 mV, one step, a microsecond. -/
def State.setStep (s : State) (rail : Nat) (step : BitVec 7) : State :=
  s.modRail rail (fun r =>
    let at_ := r.position s.clk.ns
    let far := (1000 * sextN 7 step.toNat - at_).natAbs
    { r with step, origin := at_, busy := r.busy || decide (far ≠ 0), doneAt := s.clk.ns + far })

/-- A write to a rail's register. -/
def State.writeRail (s : State) (rail : Nat) (v : Wide) : State :=
  if ¬ railExists rail then s
  else if ¬ s.spire.margin.contains (railDie rail) then s.modRail rail (fun r => { r with err := true })
  else
    let n := sextN 7 (fld v 0 7)
    let s := if v.getLsbD 9 then s.modRail rail (fun r => { r with err := false }) else s
    if n < -20 ∨ n > 20 then s.modRail rail (fun r => { r with err := true })
    else s.setStep rail (BitVec.ofNat 7 (fld v 0 7))

/-- RAIL_STEP_WRITE (R348). -/
def execRailStepWrite (rail : Nat) (value : Wide) (s : State) : Res := .next (s.writeRail rail value)

/-- RAIL_SLEW_DONE: BUSY clears; the measured voltage is a free value (log entry 6). -/
def execRailSlewDone (rail : Nat) (s : State) : Res :=
  let r := tgetD s.spire.rails rail
  if ¬ r.busy ∨ s.clk.ns < r.doneAt then .next s
  else
    let mv := (Config.freeWord s.env.freeCtr 0).setWidth 16
    .next ((s.freshFree.2).modRail rail (fun r => { r with busy := false, mv }))

/-! ### Lanes of the ports (R349) -/

/-- Whether a number names a lane: 16 p + l. -/
def laneExists (lane : Nat) : Bool := decide (lane < 256) && decide (lane % 16 < 8)

/-- The state with a lane changed. -/
def State.modLaneReg (s : State) (lane : Nat) (f : LaneReg → LaneReg) : State :=
  s.modSpire (fun p => { p with lanes := tupd p.lanes lane f })

/-- Whether the link of a lane's port is down, so that its registers may be written. -/
def State.laneOpen (s : State) (lane : Nat) : Bool := !(tgetD s.net.ports (lane / 16)).up

/-- A write to a lane's first word: the taps. -/
def State.writeTaps (s : State) (lane : Nat) (v : Wide) : State :=
  if ¬ laneExists lane then s
  else if ¬ s.laneOpen lane then s.modLaneReg lane (fun r => { r with err := true })
  else s.modLaneReg lane (fun r => { r with taps := loWord v })

/-- A write to a lane's second word: the offsets, ERR, and START. -/
def State.writeScan (s : State) (lane : Nat) (v : Wide) : State :=
  if ¬ laneExists lane then s
  else if ¬ s.laneOpen lane then s.modLaneReg lane (fun r => { r with err := true })
  else s.modLaneReg lane (fun r => { r with
    err := r.err && !v.getLsbD 2
    phase := BitVec.ofNat 8 (fld v 8 8)
    volt := BitVec.ofNat 8 (fld v 16 8)
    scanning := r.scanning || v.getLsbD 0
    done := r.done && !v.getLsbD 0 })

/-- LANE_TAP_WRITE (R349). -/
def execLaneTapWrite (lane : Nat) (value : Wide) (s : State) : Res := .next (s.writeTaps lane value)

/-- EYE_SCAN_START: a write of the second word that sets START (R349). -/
def execEyeScanStart (lane : Nat) (value : Wide) (s : State) : Res := .next (s.writeScan lane (value ||| 1))

/-- EYE_SCAN_DONE: the scan that runs has counted its errors (R349). -/
def execEyeScanDone (lane : Nat) (errors : Word) (s : State) : Res :=
  .next (if (tgetD s.spire.lanes lane).scanning then
    s.modLaneReg lane (fun r => { r with scanning := false, done := true, errcnt := errors }) else s)

/-! ### Trace control (R341, R342) -/

/-- A write to a word of the trace control block. -/
def State.writeTrace (s : State) (o size val : Nat) : State :=
  let t := s.trace
  let v := mergeWord (t.word o) o size val
  let given := mergeWord 0 o size val
  match o / 8 with
  | 0 =>
    let on := v.testBit 0
    { s with trace := { t with
      en := on, stopFull := v.testBit 1, err := t.err && !given.testBit 2
      types := BitVec.ofNat 16 (v / 2 ^ 16)
      wptr := if on ∧ ¬ t.en then 0 else t.wptr } }
  | 1 => if t.en then s else { s with trace := { t with base := v / 4096 * 4096 } }
  | 2 => if t.en then s else { s with trace := { t with size := v / 4096 * 4096 } }
  | 5 => { s with trace := { t with
      sample := BitVec.ofNat 32 (v % 2 ^ 24), nextSample := s.clk.ac + 64 * (v % 2 ^ 16) } }
  | _ => s

/-- The group that a sample shows: the leader of the partition's last issue, or its oldest resident group. -/
def State.sampled (s : State) (p : Nat) : Option (Nat × Group) :=
  let here := s.groups.filter (fun e => decide (e.2.id.part = p) && (decide (e.2.run.place = .active) ||
    decide (e.2.run.place = .pending) || decide (e.2.run.place = .keep)))
  match (s.part p).last.bind (fun g => here.find? (fun e => decide (e.1 = g))) with
  | some e => some e
  | none => firstBy s.older here

/-- DATA of a SAMPLE record: PCSTATE of the lowest live thread, the slot, the counter of a stall now. -/
def State.sampleData (s : State) (g : Nat) (G : Group) : List Byte :=
  let t := (G.threads.find? (fun t => decide (t.st = .live))).getD default
  leBytes 8 (pcState t.pc t.stack.length 0) ++ leBytes 4 G.id.slot ++ leBytes 4 (s.stallCounter g)

/-- TRACE_SAMPLE: at each period a SAMPLE record of the named partition is written, if it holds a group (R342). -/
def execTraceSample (s : State) : Res :=
  let t := s.trace
  let period := 64 * fld t.sample 0 16
  let p := partOfWhere (fld t.sample 16 8)
  if ¬ t.en ∨ period = 0 ∨ s.clk.ac < t.nextSample then .next s
  else
    let n := { s with trace := { t with nextSample := s.clk.ac + period } }
    match n.sampled p with
    | none => .next n
    | some (g, G) => .next (n.trace1 10 (srcOfPart p) (n.regionOf g).regionId (n.sampleData g G))

end Sys2Proof.Machine
end

