-- ==== Sys2Proof/Machine/SysWrite.lean ====
section
/-! DEFINITION. Writes that have reached the system registers take effect (R29, R293, R295, R341, R347). -/
namespace Sys2Proof.Machine

/-! ### sys.QREG (R29) -/

/-- VALID of an entry goes from 1 to 0: the packet in progress finishes, with the slots that it skips, and nothing more is
fetched (R29). -/
def State.deregister (s : State) (q : Nat) : State :=
  match tget s.belfry.queues q with
  | none => s
  | some Q =>
    if Q.packet.isNone then { s with belfry := { s.belfry with queues := tdel s.belfry.queues q } }
    else s.modQueue q (fun Q => { Q with stopping := true, awake := true })

/-- Whether a write must wait: it would register a queue whose former packet is still in progress, or whose header waits for a
refresh window (R155). -/
def State.qregWaits (s : State) (w : SysWrite) : Bool :=
  let e := tgetD s.belfry.qreg (w.off / 16)
  decide (w.off % 16 = 8) && !e.valid && w.val.getLsbD 0 &&
    ((tget s.belfry.queues (w.off / 16)).any (fun Q => Q.packet.isSome) || s.runHeld e.header.toNat 64)

/-- A write to an entry of sys.QREG. An N-world write changes nothing in an entry of world S, and never WORLD. -/
def State.writeQreg (s : State) (w : SysWrite) : State :=
  let q := w.off / 16
  let e := tgetD s.belfry.qreg q
  let put (e : QEntry) : State := { s with belfry := { s.belfry with qreg := tput s.belfry.qreg q e } }
  if e.world ∧ ¬ w.world then s
  else if w.off % 16 < 8 then put { e with header := BitVec.ofNat 64 (mergeWord e.header.toNat w.off w.size w.val.toNat) }
  else if w.off % 16 ≠ 8 then s
  else
    let v := w.val.getLsbD 0
    let e' := { e with valid := v, world := if w.world then w.val.getLsbD 1 else e.world, err := if v ∧ ¬ e.valid then false else e.err }
    if v ∧ ¬ e.valid then (put e').registerQueue q
    else if e.valid ∧ ¬ v then (put e').deregister q
    else put e'

/-! ### sys.TLBINV (R295) -/

/-- Entries that an invalidation drops. -/
def tlbDropped (v : Wide) (e : TlbEntry) : Bool :=
  (v.getLsbD 16 || decide (e.asid = fld v 0 16)) &&
    (v.getLsbD 17 || (decide (e.vbase ≤ fld v 24 40 * 65536) && decide (fld v 24 40 * 65536 < e.vbase + 2 ^ e.size)))

/-- Every TLB drops the matching entries. -/
def State.invalidate (s : State) (v : Wide) : State :=
  { s with flight := { s.flight with tlbs := s.flight.tlbs.map (fun (c : Nat × List TlbEntry) =>
    (c.1, c.2.filter (fun e => !tlbDropped v e))) } }

/-! ### The mailbox (R347) -/

/-- One byte of the mailbox is written: a command while none is under way, or an argument. -/
def Mailbox.put (m : Mailbox) (o : Nat) (b : Byte) : Mailbox :=
  if o = 0 then (if m.status = 1 then m else { m with cmd := b, status := 1 })
  else if 0x40 ≤ o ∧ o < 0x100 then { m with arg := tput m.arg (o - 0x40) b }
  else m

/-- A write to the mailbox. -/
def State.writeMail (s : State) (o : Nat) (b : List Byte) : State :=
  s.modSpire (fun p => { p with mail := b.zipIdx.foldl (fun m x => m.put (o + x.2) x.1) p.mail })

/-! ### Any register -/

/-- A write to the margining block: what it leaves out of a register stays, and is no 1 for a bit that a 1 clears. -/
def State.writeMargin (s : State) (o size : Nat) (v : Wide) : State :=
  let given (old : Nat) : Wide := BitVec.ofNat 64 (mergeWord old o size v.toNat)
  if o < 0x1000 then s.writeRail (o / 8) (given { tgetD s.spire.rails (o / 8) with err := false }.image)
  else
    let k := (o - 0x1000) / 16
    let old := { tgetD s.spire.lanes k with err := false }.image
    if o % 16 < 8 then s.writeTaps k (given (old % 2 ^ 64)) else s.writeScan k (given (old / 2 ^ 64))

/-- A write takes effect at its register: only writable fields change (R3, R293). -/
def State.applySys (s : State) (w : SysWrite) : State :=
  match sysBlock w.off with
  | none => s
  | some b =>
    match b with
    | .qreg => s.writeQreg w
    | .tlbinv => s.invalidate (BitVec.ofNat 64 (mergeWord 0 w.off w.size w.val.toNat))
    | .banks =>
      let i := (w.off - 0x100000) / 64
      if w.off % 64 < 8 then s.modBank i (fun b => b.w1c (BitVec.ofNat 64 (mergeWord 0 w.off w.size w.val.toNat))) else s
    | .margin => s.writeMargin (w.off - 0x200000) w.size w.val
    | .trace => s.writeTrace (w.off - 0x400000) w.size w.val.toNat
    | .mailbox => s.writeMail (w.off - 0x500000) (leBytes w.size w.val.toNat)
    | .refresh | .campanile | .chipId | .timesync | .channels | .fused | .field => s

/-- A write on its way takes effect, and its slot may clear (R293). -/
def State.landSys (s : State) (id : Nat) (w : SysWrite) : State :=
  { (s.applySys w) with flight := { (s.applySys w).flight with sysw := tdel (s.applySys w).flight.sysw id } }.settle

/-- The write of a number, where it goes to a block of a kind. -/
def State.sysAt (s : State) (id : Nat) (p : SysBlock → Bool) : Option SysWrite :=
  (tget s.flight.sysw id).bind (fun w => if (sysBlock w.off).any p then some w else none)

/-- TRCTL_WRITE (R341). -/
def execTrctlWrite (write : Nat) (s : State) : Res :=
  match s.sysAt write (· = .trace) with
  | some w => .next (s.landSys write w)
  | none => .next s

/-- QREG_WRITE (R29). -/
def execQregWrite (write : Nat) (s : State) : Res :=
  match s.sysAt write (· = .qreg) with
  | some w => .next (if s.qregWaits w then s else s.landSys write w)
  | none => .next s

/-- TLBINV_WRITE (R295). Permission was checked where the write was made. -/
def execTlbinvWrite (write : Nat) (s : State) : Res :=
  match s.sysAt write (· = .tlbinv) with
  | some w => .next (s.landSys write w)
  | none => .next s

/-- SYSTEM_REGISTER_WRITE (R293). -/
def execSystemRegisterWrite (write : Nat) (s : State) : Res :=
  match s.sysAt write (fun b => b ≠ .trace ∧ b ≠ .qreg ∧ b ≠ .tlbinv) with
  | some w => .next (s.landSys write w)
  | none => .next s

end Sys2Proof.Machine
end

