-- ==== Sys2Proof/Machine/Links.lean ====
section
/-! DEFINITION. Ultra Ethernet and the links: frames (R316), remote operations that arrive here and the answers to those
of this chip (R168, R309, R318, R319), Kloeri link state (R320 to R323), time (R324) and secured contexts (R325). -/
namespace Sys2Proof.Machine

/-! ### Link state (R320 to R323) -/

/-- A port. -/
def State.port (s : State) (p : Nat) : Port := tgetD s.net.ports p

/-- The state with a port changed. -/
def State.modPort (s : State) (p : Nat) (f : Port → Port) : State :=
  { s with net := { s.net with ports := tupd s.net.ports p f } }

/-- Ports are 0 to 15. -/
def portExists (p : Nat) : Bool := decide (p < 16)

/-- The first multiple of `n` after a time, and the first not before it. -/
def nextMultiple (n t : Nat) : Nat := (t / n + 1) * n
/-- The first multiple of `n` not before a time. -/
def ceilMultiple (n t : Nat) : Nat := (t + n - 1) / n * n

/-- This chip's row of the link-state table. -/
def State.ownRow (s : State) : LinkRow :=
  ⟨s.net.seq, (List.range 16).map (fun p => ⟨(s.port p).peer, (s.port p).peerPort, (s.port p).up⟩)⟩

/-- The table's row of this chip follows its ports. -/
def State.setOwnRow (s : State) : State :=
  { s with net := { s.net with table := tput s.net.table Config.chipId s.ownRow } }

/-- A message on a port. -/
def State.sendOn (s : State) (p : Nat) (k : MsgKind) : State :=
  (s.send ⟨(s.port p).peer, some p, k, 0, [], false, false, false, [], s.trafficClass k, s.jobOf k⟩).2

/-- A link-state update goes out on every up link but one (R321, R322). -/
def State.flood (s : State) (u : LinkUpdate) (but : Option Nat) : State :=
  foldS ((List.range 16).filter (fun p => (s.port p).up && decide (but ≠ some p))) s (fun s p => s.sendOn p (.linkState u))

/-- This chip increments its sequence number and sends its own state (R321). -/
def State.announce (s : State) : State :=
  let s := { s with net := { s.net with seq := s.net.seq + 1 } }.setOwnRow
  s.flood ⟨Config.chipId, s.net.seq, s.time, s.ownRow.links⟩ none

/-- The drain rounds are due: at the first multiple of 20,000 ns at least 1,000 ns from now, or again at the next boundary
while they run. An update that comes less than 1,000 ns before they start makes them start again at the boundary after that
(R323, DEDUCED, log entry 38). -/
def State.startRounds (s : State) : State :=
  let at_ := ceilMultiple 20000 (s.clk.ns + 1000)
  if s.net.round = 0 then
    match s.net.roundAt with
    | none => { s with net := { s.net with roundAt := some at_ } }
    | some t => { s with net := { s.net with restart := s.net.restart || decide (t < at_) } }
  else { s with net := { s.net with round := 4, roundAt := some (nextMultiple 20000 s.clk.ns) } }

/-- A recomputation without rounds is due at the next boundary (R323). -/
def State.recomputeSoon (s : State) : State :=
  { s with net := { s.net with recompute := some (nextMultiple 20000 s.clk.ns) } }

/-- Whether a table has lost, or gained, a live link against an older one. -/
def linksLost (old new : Tab LinkRow) : Bool :=
  old.any (fun r => (List.range 16).any (fun p => linkAlive old r.1 p && !linkAlive new r.1 p))

/-- A link is declared dead; the rounds follow where that makes a link dead that the table has alive: one that the other end's update has
already shown dead starts none. The port must pass training before it counts keepalives again (R321, R323, R328). -/
def State.declareDead (s : State) (p : Nat) : State :=
  let t := s.modPort p (fun x => { x with up := false, phys := false, missed := 0, got := 0, replays := 0, paused := 0 })
  if (s.port p).up then
    let t := t.announce
    if linksLost s.net.table t.net.table then t.startRounds else t
  else t

/-- A link is declared up (R321). -/
def State.declareUp (s : State) (p : Nat) : State :=
  ((s.modPort p (fun x => { x with up := true, missed := 0, got := 0 })).announce).recomputeSoon

/-- KEEPALIVE_SEND: at each multiple of 10,000 ns a keepalive goes out on a link whose physical layer is up (R320, DEDUCED, log
entry 38). -/
def execKeepaliveSend (port : Nat) (s : State) : Res :=
  let x := s.port port
  if ¬ portExists port ∨ ¬ x.phys ∨ s.clk.ns < x.nextSend then .next s
  else
    let old := s.net.msgs.filter (fun (m : Nat × Msg) => !(decide (m.2.kind = .keepalive) && decide (m.2.port = some port)))
    .next (({ s with net := { s.net with msgs := old } }.sendOn port .keepalive).modPort port
      (fun x => { x with nextSend := nextMultiple 10000 s.clk.ns }))

/-- KEEPALIVE_RECEIVE: the keepalive that is expected has come; three in a row bring a link up (R320, R321). One that comes
after it was counted as missed does not count (DEDUCED, log entry 38). -/
def execKeepaliveReceive (port : Nat) (s : State) : Res :=
  let x := s.port port
  if ¬ portExists port ∨ ¬ x.phys ∨ s.clk.ns + 5000 < x.expect then .next s
  else
    let s := s.modPort port (fun x => { x with missed := 0, got := if x.up then 0 else x.got + 1, expect := x.expect + 10000 })
    .next (if ¬ x.up ∧ x.got + 1 ≥ 3 then s.declareUp port else s)

/-- KEEPALIVE_MISS: the expected keepalive has not come within 2,000 ns; the third miss in a row makes the link dead (R320,
R321). -/
def execKeepaliveMiss (port : Nat) (s : State) : Res :=
  let x := s.port port
  if ¬ portExists port ∨ ¬ x.phys ∨ s.clk.ns < x.expect + 2000 then .next s
  else
    let s := s.modPort port (fun x => { x with missed := x.missed + 1, got := 0, expect := x.expect + 10000 })
    .next (if x.up ∧ x.missed + 1 ≥ 3 then s.declareDead port else s)

/-- PHYSICAL_LINK_LOSS (R321). -/
def execPhysicalLinkLoss (port : Nat) (s : State) : Res :=
  if ¬ portExists port ∨ ¬ (s.port port).phys then .next s
  else .next (s.declareDead port)

/-- PHYSICAL_LINK_UP: the port has passed training and begins to count keepalives (R321). -/
def execPhysicalLinkUp (port : Nat) (s : State) : Res :=
  if ¬ portExists port ∨ (s.port port).phys ∨ s.spire.boot.inReset.contains 5 then .next s
  else
    let t := nextMultiple 10000 s.clk.ns
    .next (s.modPort port (fun x => { x with phys := true, missed := 0, got := 0, replays := 0, nextSend := t, expect := t }))

/-- Whether an update is newer than what the table holds for its origin (R322). -/
def State.newer (s : State) (u : LinkUpdate) : Bool :=
  match tget s.net.table u.origin with
  | none => true
  | some r =>
    let d := (u.seq - r.seq).toNat
    decide (1 ≤ d) && decide (d ≤ 2 ^ 31 - 1)

/-- The ports of this chip that an update names learn their peers (DEDUCED, log entry 38). -/
def State.learnPeers (s : State) (u : LinkUpdate) : State :=
  let s := foldS u.links.zipIdx s (fun s (e : LinkEntry × Nat) =>
    if e.1.peer = Config.chipId ∧ portExists e.1.port then s.modPort e.1.port (fun x => { x with peer := u.origin, peerPort := e.2 })
    else s)
  s.setOwnRow

/-- LINK_STATE_UPDATE: a newer update is accepted and forwarded, and its effect is due (R322, R323). -/
def execLinkStateUpdate (port : Nat) (update : LinkUpdate) (s : State) : Res :=
  if ¬ portExists port ∨ ¬ (s.port port).phys ∨ ¬ s.newer update then .next s
  else
    let old := s.net.table
    let s := { s with net := { s.net with table := tput s.net.table update.origin ⟨update.seq, update.links⟩ } }
    let s := (s.learnPeers update).flood update (some port)
    let s := if linksLost old s.net.table then s.startRounds else s
    .next (if linksLost s.net.table old then s.recomputeSoon else s)

/-! ### Drain rounds (R323) -/

/-- What is queued on this chip and can leave it goes out. DEDUCED, log entry 38. -/
def State.letGo (s : State) : State :=
  let s := foldS s.net.msgs s (fun s e => if e.2.held ∧ e.2.port.isNone then s.openContext e.2.chip e.2.cls else s)
  { s with net := { s.net with
    msgs := s.net.msgs.map (fun (e : Nat × Msg) => (e.1, { e.2 with held := e.2.held && (e.2.returned || s.msgWaits e.2) }))
    transit := s.net.transit.filter (fun x => !s.canLeave x.dst x.cls) } }

/-- An operation of this chip fails with LINKTO (R34, R168, R280, R291). -/
def State.failMsg (s : State) (id : Nat) (m : Msg) : State :=
  match m.kind with
  | .copyWrite c k => (s.dropMsg id).segRefused c k (kLinkto, 1) m.addr
  | .copyRead c k => (s.dropMsg id).segRefused c k (kLinkto, 1) m.addr
  | .belfry q => s.packetLost q id
  | .append r => (s.dropMsg id).killRecord r
  | .pk w _ => (s.dropMsg id).pkLost w
  | .keepalive | .linkState _ | .ptp _ | .undeliverable _ | .status _ | .report _ _ => s.dropMsg id

/-- Whether a message is an operation toward a chip, and not one of a link's own. -/
def Msg.isOp (m : Msg) : Bool := m.port.isNone

/-- Messages that a test names fail. -/
def State.failWhere (s : State) (p : Msg → Bool) : State :=
  foldS (s.net.msgs.filter (fun e => e.2.isOp && p e.2)) s (fun s e => if (tget s.net.msgs e.1).isSome then s.failMsg e.1 e.2 else s)

/-- Whether the rounds in progress found a chip reachable. -/
def State.inReach (s : State) (chip : Nat) : Bool := s.net.reach.contains chip

/-- The time of the next round has come. -/
def State.roundDue (s : State) : Bool := s.net.roundAt.any (fun t => decide (t ≤ s.clk.ns))

/-- The next round starts, 20,000 ns after the one before; where the rounds are to start again, that is round 1 once more. -/
def State.toRound (s : State) (n : Nat) : State :=
  { s with net := { s.net with
    round := if s.net.restart then 4 else n, restart := false, roundAt := s.net.roundAt.map (· + 20000) } }

/-- Packets of others that are queued here and whose next hop crosses a dead element are returned to their sources. -/
def State.returnTransit (s : State) : State :=
  let dead := s.net.transit.filter (fun x => s.hopDead x.dst)
  let s := { s with net := { s.net with transit := s.net.transit.filter (fun x => !s.hopDead x.dst) } }
  foldS dead s (fun s x => (s.post x.src (.undeliverable x.message) 0 [] [] false).2)

/-- DRAIN_ROUND_1: packets queued on this chip whose next hop crosses a dead element are returned to their sources. -/
def execDrainRound1 (s : State) : Res :=
  if ¬ s.roundDue ∨ (s.net.round ≠ 0 ∧ s.net.round ≠ 4) then .next s
  else
    let msgs := s.net.msgs.map (fun (e : Nat × Msg) =>
      if e.2.isOp ∧ e.2.held ∧ s.hopDead e.2.chip then (e.1, { e.2 with returned := true }) else e)
    .next (({ s with net := { s.net with msgs := msgs, reach := (routesOf s.net.table).map Prod.fst } }.returnTransit).toRound 1)

/-- DRAIN_ROUND_2: returned operations to unreachable chips fail, those to reachable ones are held, and delivery contexts
to unreachable chips close. -/
def execDrainRound2 (s : State) : Res :=
  if ¬ s.roundDue ∨ s.net.round ≠ 1 then .next s
  else
    let s := s.toRound 2
    let s := { s with net := { s.net with
      secured := s.net.secured.filter (fun c => s.inReach c), contexts := s.net.contexts.filter (fun c => s.inReach c.1) } }
    .next (s.failWhere (fun m => m.returned && !s.inReach m.chip))

/-- Fault tasks appended at an unreachable chip whose records no service has reached: their work is killed (R280). -/
def State.killUnserved (s : State) : State :=
  foldS (s.faults.recs.filter (fun e => e.2.appended && decide (e.2.state ≤ 1) && !thisChip e.2.dom.hqChip && !s.inReach e.2.dom.hqChip))
    s (fun s e => s.killRecord e.1)

/-- DRAIN_ROUND_3: every operation still unacknowledged toward an unreachable chip fails. -/
def execDrainRound3 (s : State) : Res :=
  if ¬ s.roundDue ∨ s.net.round ≠ 2 then .next s
  else
    let s := s.toRound 3
    .next (s.failWhere (fun m => !s.inReach m.chip)).killUnserved

/-- The routes follow the table. -/
def State.setRoutes (s : State) : State :=
  { s with net := { s.net with routes := (routesOf s.net.table).foldl (fun (t : Tab Nat) e => tput t e.1 e.2) [] } }

/-- Held operations are sent again, in the order in which they were issued, which a ROD context keeps; those that still cannot leave stay
queued (R323). -/
def State.resend (s : State) : State :=
  { s with net := { s.net with msgs := s.net.msgs.map (fun (e : Nat × Msg) => (e.1, { e.2 with returned := false })) } }.letGo

/-- ROUTE_RECOMPUTE: at the end of round 3, when what is left toward unreachable chips fails and held operations go out
again; or at the boundary after an update that made a link up. -/
def execRouteRecompute (s : State) : Res :=
  if s.roundDue ∧ s.net.round = 3 then
    let s := s.failWhere (fun m => !s.inReach m.chip)
    let s := s.setRoutes.resend
    .next { s with net := { s.net with round := 0, roundAt := none, reach := [], recompute := none } }
  else if s.net.recompute.any (fun t => decide (t ≤ s.clk.ns)) then
    let s := { s.setRoutes with net := { s.setRoutes.net with recompute := none } }
    .next (if s.net.round = 0 then s.resend else s)
  else .next s

/-! ### Frames (R316) -/

/-- A CE of TYPE LINK of a port; the lane and the traffic class are the device's, a free value (R314, log entry 6). -/
def State.linkCe (s : State) (p : Nat) : State :=
  let w := Config.freeWord s.env.freeCtr 0
  let a := BitVec.ofNat 64 (fld w 0 4 % 8 + 16 * (fld w 4 3))
  (s.freshFree.2).logBank (portBank p) false ⟨a, bankInfo tyLink 0, 0⟩

/-- Whether a chip implements what a frame requires: its size, its delivery mode, its semantic operation, and no receiver credit (R316). -/
def frameSupported (f : Frame) : Bool :=
  decide (f.bytes ≤ 9216) && decide (f.payload ≤ 4096) && (match f.kind with
    | .pause _ | .undeliverable _ | .control => true
    | .transport d op credit _ _ _ => (decide (d = .rud) || decide (d = .rod)) && !credit && (match op with
      | .write | .read | .answer => true
      | .atomic n aligned => aligned && (decide (n = 4) || decide (n = 8))
      | .other => false)
    | .other => false)

/-- What a frame does here: a pause holds the classes that may be paused, and what it lets go on leaves; a packet between two other chips
goes on, or is queued until it can; an operation of this chip learns that it was not delivered (R316, R317, R323). A packet for this
chip is an event of its own. -/
def State.takeFrame (s : State) (p : Nat) (f : Frame) : State :=
  match f.kind with
  | .pause c => (s.modPort p (fun x => { x with paused := c &&& pausable })).letGo
  | .transport _ _ _ src dst m =>
    if thisChip dst ∨ s.canLeave dst f.cls then s
    else { s with net := { s.net with transit := s.net.transit ++ [⟨src, dst, f.cls, m⟩] } }
  | .undeliverable m => { s with net := { s.net with
      msgs := tmod s.net.msgs m (fun x => { x with held := true, returned := true }) } }
  | .control | .other => s

/-- FRAME_RECEIVE: a frame that FEC cannot correct is replayed, and the eighth failed replay in a row takes the link down; a
frame that needs what is not implemented is discarded. -/
def execFrameReceive (port : Nat) (fecOk : Bool) (frame : Frame) (s : State) : Res :=
  if ¬ portExists port ∨ ¬ (s.port port).phys then .next s
  else if fecOk then
    let s := s.modPort port (fun x => { x with replays := 0 })
    .next (if frameSupported frame then s.takeFrame port frame else s.linkCe port)
  else
    let s := (s.modPort port (fun x => { x with replays := x.replays + 1 })).linkCe port
    .next (if (s.port port).replays > 8 then s.declareDead port else s)

/-! ### Remote operations that arrive here (R309, R318, R319) -/

/-- Whether an entry gives the rights that an operation needs. -/
def Grant.permits (g : Grant) (k : RemoteKind) : Bool :=
  match k with
  | .read => g.ctrl.getLsbD 1
  | .write => g.ctrl.getLsbD 2
  | _ => g.ctrl.getLsbD 1 && g.ctrl.getLsbD 2 && g.ctrl.getLsbD 3

/-- What an operation does to memory. -/
def remoteAcc (k : RemoteKind) : Acc :=
  match k with
  | .read => .load
  | .write => .store
  | _ => .atomic

/-- Whether the semantic sublayer has an operation: atomics of 32 and 64 bits, aligned (R316). -/
def remoteKnown (o : RemoteOp) : Bool :=
  match o.kind with
  | .read => decide (o.size ≥ 1)
  | .write => decide (o.data.length ≥ 1)
  | .report => decide (o.data.length = 8)
  | _ => (decide (o.size = 4) || decide (o.size = 8)) && decide (o.va.toNat % o.size = 0)

/-- The bytes that an operation touches. -/
def remoteSpan (o : RemoteOp) : Nat :=
  match o.kind with
  | .write => o.data.length
  | _ => o.size

/-- A refusal. -/
def refusedOp (c : Cause) : RemoteResult := ⟨[], none, some c⟩

/-- A queue slot that a remote write publishes is one that another chip has appended (R273, DEDUCED, log entry 35). -/
def State.noteSlots (s : State) (pa : Nat) (b : List Byte) : State :=
  let v := leNat (b.take 8)
  if b.length < 8 ∨ v = 0 then s
  else foldS s.belfry.queues s (fun s e =>
    match s.xlate e.2.troot .load e.2.world (e.2.slotVa (v - 1)) with
    | .ok x => if x = pa then s.modQueue e.1 (fun Q => { Q with devSlots := Q.devSlots ++ [v - 1] }) else s
    | .error _ => s)

/-- The aligned 8-byte words of runs, with what is written there. -/
def runWords : List (Nat × Nat) → List Byte → List (Nat × List Byte)
  | [], _ => []
  | r :: rest, b =>
    ((List.range (r.2 / 8 + 1)).filterMap (fun i =>
      let a := (r.1 + 7) / 8 * 8 + 8 * i
      if a + 8 ≤ r.1 + r.2 then some (a, (b.drop (a - r.1)).take 8) else none)) ++ runWords rest (b.drop r.2)

/-- The physical address of the n-th byte of runs. -/
def runAddr : List (Nat × Nat) → Nat → Nat
  | [], _ => 0
  | r :: rest, n => if n < r.2 then r.1 + n else runAddr rest (n - r.2)

/-- A remote write: at the device node; a poisoned flit of 32 bytes poisons each grain that it covers bytes of, and the port's bank logs POISONIN with the traffic
class and the lane, which is the device's, a free value (R309, R314, log entry 6). -/
def State.remoteWrite (s : State) (o : RemoteOp) (runs : List (Nat × Nat)) : State :=
  let s := s.putRuns deviceNode 0 runs o.data
  let s := foldS (runWords runs o.data) s (fun s w => s.noteSlots w.1 w.2)
  if o.poison.isEmpty then s
  else
    let hit (k : Nat) : List Nat := (List.range 32).map (fun i => runAddr runs (min (32 * k + i) (o.data.length - 1)))
    let s := foldS (o.poison.flatMap hit) s State.poisonGrain
    let lane := fld (Config.freeWord s.env.freeCtr 0) 0 4 % 8
    (s.freshFree.2).logBank (portBank o.port) true ⟨BitVec.ofNat 64 (lane + 16 * (o.cls % 8)), bankInfo tyPoisonIn 0, 0⟩

/-- A remote read: bytes, with the offset of the first poisoned grain; a host that is not a K4 then receives an error and no
data (R309). -/
def State.remoteRead (s : State) (host : Bool) (runs : List (Nat × Nat)) : RemoteResult :=
  let pas := runs.flatMap (fun r => (List.range r.2).map (fun i => r.1 + i))
  let bad := pas.findIdx? (fun a => s.grainBad a)
  if host ∧ bad.isSome then refusedOp (kPoison, 1) else ⟨s.runBytes [] runs, bad, none⟩

/-- A remote atomic (R316): its old value, and the state. -/
def State.remoteAtomic (s : State) (o : RemoteOp) (runs : List (Nat × Nat)) : RemoteResult × State :=
  if (s.firstPoison [] runs).isSome then (refusedOp (kPoison, 1), s)
  else
    let old := leNat (s.runBytes [] runs)
    let v := leNat (o.data.take o.size)
    let new := match o.kind with
      | .fetchAdd => (old + v) % 2 ^ (8 * o.size)
      | .swap => v
      | _ => if old = o.compare.toNat % 2 ^ (8 * o.size) then v else old
    (⟨leBytes o.size old, none, none⟩, s.putRuns deviceNode 0 runs (leBytes o.size new))

/-- An operation on a system register, by the rules of the map (R293, R295). Atomics have no access there (DEDUCED, log entry 30). -/
def State.remoteSys (s : State) (g : Grant) (o : RemoteOp) (pa : Nat) : RemoteResult × State :=
  let off := pa - sysBase
  let n := (remoteSpan o)
  let v := BitVec.ofNat 64 (leNat (o.data.take 8))
  if (n ≠ 4 ∧ n ≠ 8) ∨ off % n ≠ 0 then (refusedOp (kProt, 4), s)
  else match o.kind with
    | .read => match sysCheck off n false 0 g.world g.asid with
      | some c => (refusedOp c, s)
      | none => (⟨leBytes n (s.sysValue off n).toNat, none, none⟩, s.sysReadEffect off g.world)
    | .write => match sysCheck off n true v g.world g.asid with
      | some c => (refusedOp c, s)
      | none => (⟨[], none, none⟩, s.applySys ⟨off, n, v, g.world, g.asid, 0, 0⟩)
    | _ => (refusedOp (kProt, 4), s)

/-- The operation of a job, once its grant is found (R318). -/
def State.remoteDo (s : State) (g : Grant) (o : RemoteOp) : RemoteResult × State :=
  match s.xlate g.troot (remoteAcc o.kind) g.world o.va.toNat with
  | .error c => (refusedOp c, s)
  | .ok pa =>
    if sysBase ≤ pa then s.remoteSys g o pa
    else match s.xlateRuns g.troot (remoteAcc o.kind) g.world o.va.toNat (remoteSpan o) with
      | .error e => (refusedOp e.1, s)
      | .ok runs => match o.kind with
        | .write => (⟨[], none, none⟩, s.remoteWrite o runs)
        | .read => (s.remoteRead o.host runs, s)
        | _ => s.remoteAtomic o runs

/-- What becomes of an operation: refused without a valid entry, without transport security where the entry is S, or
without the rights. -/
def State.remoteCheck (s : State) (o : RemoteOp) : RemoteResult × State :=
  match s.grantOf o.job with
  | none => (refusedOp (kProt, 4), s)
  | some g =>
    if (g.world ∧ ¬ o.secure) ∨ ¬ g.permits o.kind then (refusedOp (kProt, 4), s) else s.remoteDo g o

/-- A peer's Belfry reports the charge of a fault task, which the faulting region's reserve takes (R48). -/
def State.reportReceived (s : State) (o : RemoteOp) : State :=
  match s.recOf o.va with
  | some (_, r) => s.chargeServers r.region.servers true 0 (leNat (o.data.take 8))
  | none => s

/-- Whether an operation that is granted must wait: a read or an atomic for a refresh window of the weight store, or a write that
registers a queue (R29, R155). -/
def State.remoteWaits (s : State) (o : RemoteOp) : Bool :=
  match s.grantOf o.job with
  | none => false
  | some g => match o.kind with
    | .write => match s.xlate g.troot .store g.world o.va.toNat with
      | .ok pa => decide (sysBase ≤ pa) && decide (sysBlock (pa - sysBase) = some .qreg) &&
          s.qregWaits ⟨pa - sysBase, o.data.length, BitVec.ofNat 64 (leNat (o.data.take 8)), g.world, g.asid, 0, 0⟩
      | .error _ => false
    | .report => false
    | _ => s.vaHeld g.troot g.world o.va.toNat (remoteSpan o)

/-- An operation is performed or refused, and its answer goes back through its port. -/
def State.performOp (s : State) (o : RemoteOp) : State :=
  let (a, s) := s.remoteCheck o
  s.reply o.port a

/-- REMOTE_OP_RECEIVE: the operation is performed or refused, and its answer goes back through its port. One that must wait is kept, and
what comes after it from its source waits behind it, so that a release is applied after every earlier operation (R155, R230). An
operation that is not implemented is discarded (R316). -/
def execRemoteOpReceive (op : RemoteOp) (s : State) : Res :=
  let x : Inbound := .op op
  if s.firstInLine x ∧ ¬ s.remoteWaits op then .next ((s.dropInbound x).performOp op)
  else if ¬ portExists op.port ∨ ¬ (s.port op.port).phys then .next s
  else if ¬ remoteKnown op then .next (s.linkCe op.port)
  else if op.kind = .report then .next (s.reportReceived op)
  else if s.inLine x ∨ s.remoteWaits op then .next (s.keepInbound x)
  else .next (s.performOp op)

/-! ### Answers to this chip's operations (R168, R309) -/

/-- REMOTE_WRITE_ACK: a remote write of this chip that has left it is acknowledged or refused (R168, R273, R318). -/
def execRemoteWriteAck (message : Nat) (refusal : Option (Nat × Nat)) (s : State) : Res :=
  match tget s.net.msgs message with
  | none => .next s
  | some m =>
    if m.held then .next s
    else match m.kind with
    | .copyWrite c k => .next (s.copyAck message c k m refusal)
    | .belfry q => .next (s.packetAnswer q message [] refusal.isSome)
    | .append r =>
      let s := s.dropMsg message
      match refusal, tget s.faults.recs r with
      | some _, some x => .next (s.teardown kHqfail x.depth x)
      | _, _ => .next s
    | .status _ | .report _ _ | .keepalive | .linkState _ | .ptp _ | .undeliverable _ => .next (s.dropMsg message)
    | .copyRead _ _ | .pk _ _ => .next s

/-- REMOTE_READ_RESPONSE: the answer to a remote read or request of this chip that has left it (R309, R318, R280). -/
def execRemoteReadResponse (message : Nat) (result : RemoteResult) (s : State) : Res :=
  match tget s.net.msgs message with
  | none => .next s
  | some m =>
    if m.held then .next s
    else match m.kind with
    | .copyRead c k =>
      let s := s.dropMsg message
      match result.refusal with
      | some r => .next (s.segRefused c k r m.addr)
      | none => .next (s.readArrived c k result)
    | .belfry q => .next (s.packetAnswer q message result.bytes (result.refusal.isSome || result.poison.isSome))
    | .pk w _ => .next ((s.dropMsg message).pkAnswered w m.addr result)
    | .copyWrite _ _ | .append _ | .keepalive | .linkState _ | .ptp _ | .undeliverable _ | .status _ | .report _ _ => .next s

/-! ### Time (R324) and secured contexts (R325) -/

/-- A rate of at most 200 ppm against an offset. -/
def steer (offset : Int) : Int := max (-200) (min 200 (-offset))

/-- An offset from the parent has been measured. The first lock before the core control stores are
released removes it by one step; later the rate alone does, by as many ppm as the offset has ns (DEDUCED, log entry 39). -/
def State.offsetMeasured (s : State) (port : Nat) (offset : Int) : State :=
  let first := s.spire.sync.state = 0 ∧ s.spire.boot.inReset.contains 6
  let s := if first then { s with clk := { s.clk with ns := ((s.clk.ns : Int) - offset).toNat } }
    else { s with clk := { s.clk with ppm := steer offset } }
  s.modSpire (fun p => { p with sync := ⟨1, port, offset, none⟩, boot := { p.boot with lockWait := none } })

/-- An IEEE 1588 message goes out on a port, on traffic class 6; one that it replaces is gone (R317, R324). -/
def State.sendPtp (s : State) (port : Nat) (m : PtpMsg) : State :=
  let old := s.net.msgs.filter (fun (e : Nat × Msg) => !(decide (e.2.port = some port) && (match e.2.kind with
    | .ptp _ => true
    | _ => false)))
  { s with net := { s.net with msgs := old } }.sendOn port (.ptp m)

/-- The measurement of the offset in progress changes. -/
def State.setExchange (s : State) (x : Option PtpExchange) : State := s.modSpire (fun p => { p with sync := { p.sync with exchange := x } })

/-- The time of a parent's Sync is known: the Delay_Req goes out, and its time is taken. -/
def State.askDelay (s : State) (x : PtpExchange) : State :=
  (s.sendPtp x.port (.delayReq x.seq)).setExchange (some { x with sent := some s.clk.ns })

/-- A boundary clock hands the time on: its own Sync goes out on every other link that is up (R324, DEDUCED, log entry 39). -/
def State.handOn (s : State) (port seq : Nat) : State :=
  if s.spire.sync.state = 0 then s
  else foldS ((List.range 16).filter (fun p => decide (p ≠ port) && (s.port p).up)) s (fun s p => s.sendPtp p (.sync seq (some s.clk.ns)))

/-- The offset that an exchange has measured: half the difference of the two one-way times (R324). -/
def PtpExchange.offset (x : PtpExchange) (origin sent received : Nat) : Int :=
  (((x.arrived : Int) - origin) - ((received : Int) - sent)) / 2

/-- PTP_EVENT_MESSAGE: a message of the delay request-response mechanism, by one-step and two-step masters. Its arrival and the going out of
a Delay_Req are timed by the campanile. A Delay_Req is answered by a chip that has locked, as a boundary clock does (R324, DEDUCED, log
entry 39). -/
def execPtpEventMessage (port : Nat) (message : PtpMsg) (s : State) : Res :=
  if ¬ portExists port ∨ ¬ (s.port port).phys ∨ s.spire.boot.inReset.contains 5 then .next s
  else match message with
  | .sync q (some t) => .next (((s.handOn port q)).askDelay ⟨port, q, some t, s.clk.ns, none⟩)
  | .sync q none => .next ((s.handOn port q).setExchange (some ⟨port, q, none, s.clk.ns, none⟩))
  | .followUp q t => match s.spire.sync.exchange with
    | some x => .next (if x.port = port ∧ x.seq = q ∧ x.origin.isNone then s.askDelay { x with origin := some t } else s)
    | none => .next s
  | .delayReq q => .next (if s.spire.sync.state ≠ 0 ∧ s.spire.sync.port ≠ port then s.sendPtp port (.delayResp q s.clk.ns) else s)
  | .delayResp q t4 => match s.spire.sync.exchange with
    | none => .next s
    | some x => match x.origin, x.sent with
      | some t1, some t3 => .next (if x.port = port ∧ x.seq = q then s.offsetMeasured port (x.offset t1 t3 t4) else s)
      | _, _ => .next s

/-- PTP_HOLDOVER: the parent is lost; the rate stays within 2 ppm (R324). -/
def execPtpHoldover (s : State) : Res :=
  if s.spire.sync.state ≠ 1 then .next s
  else
    let s := { s with clk := { s.clk with ppm := max (-2) (min 2 s.clk.ppm) } }
    .next (s.modSpire (fun p => { p with sync := { p.sync with state := 2 } }))

/-- SECURED_CONTEXT_OPEN (R325). -/
def execSecuredContextOpen (chip : Nat) (s : State) : Res :=
  if s.net.secured.contains chip then .next s
  else .next { s with net := { s.net with secured := s.net.secured ++ [chip] } }

end Sys2Proof.Machine
end

