-- ==== Sys2Proof/Machine/Digest.lean ====
section
/-! DEFINITION. SHA-384, which R344 and R347 name and the spec does not define: it is written out from FIPS 180-4 (PRESUMED, log
entry 8). -/
namespace Sys2Proof.Machine

/-- The eight words of the hash value at the start of a message. -/
def shaStart : List Wide := [
  0xCBBB9D5DC1059ED8, 0x629A292A367CD507, 0x9159015A3070DD17, 0x152FECD8F70E5939,
  0x67332667FFC00B31, 0x8EB44A8768581511, 0xDB0C2E0D64F98FA7, 0x47B5481DBEFA4FA4]

/-- Constants of rounds 0 to 15. -/
def shaK0 : List Wide := [
  0x428A2F98D728AE22, 0x7137449123EF65CD, 0xB5C0FBCFEC4D3B2F, 0xE9B5DBA58189DBBC,
  0x3956C25BF348B538, 0x59F111F1B605D019, 0x923F82A4AF194F9B, 0xAB1C5ED5DA6D8118,
  0xD807AA98A3030242, 0x12835B0145706FBE, 0x243185BE4EE4B28C, 0x550C7DC3D5FFB4E2,
  0x72BE5D74F27B896F, 0x80DEB1FE3B1696B1, 0x9BDC06A725C71235, 0xC19BF174CF692694]
/-- Constants of rounds 16 to 31. -/
def shaK1 : List Wide := [
  0xE49B69C19EF14AD2, 0xEFBE4786384F25E3, 0x0FC19DC68B8CD5B5, 0x240CA1CC77AC9C65,
  0x2DE92C6F592B0275, 0x4A7484AA6EA6E483, 0x5CB0A9DCBD41FBD4, 0x76F988DA831153B5,
  0x983E5152EE66DFAB, 0xA831C66D2DB43210, 0xB00327C898FB213F, 0xBF597FC7BEEF0EE4,
  0xC6E00BF33DA88FC2, 0xD5A79147930AA725, 0x06CA6351E003826F, 0x142929670A0E6E70]
/-- Constants of rounds 32 to 47. -/
def shaK2 : List Wide := [
  0x27B70A8546D22FFC, 0x2E1B21385C26C926, 0x4D2C6DFC5AC42AED, 0x53380D139D95B3DF,
  0x650A73548BAF63DE, 0x766A0ABB3C77B2A8, 0x81C2C92E47EDAEE6, 0x92722C851482353B,
  0xA2BFE8A14CF10364, 0xA81A664BBC423001, 0xC24B8B70D0F89791, 0xC76C51A30654BE30,
  0xD192E819D6EF5218, 0xD69906245565A910, 0xF40E35855771202A, 0x106AA07032BBD1B8]
/-- Constants of rounds 48 to 63. -/
def shaK3 : List Wide := [
  0x19A4C116B8D2D0C8, 0x1E376C085141AB53, 0x2748774CDF8EEB99, 0x34B0BCB5E19B48A8,
  0x391C0CB3C5C95A63, 0x4ED8AA4AE3418ACB, 0x5B9CCA4F7763E373, 0x682E6FF3D6B2B8A3,
  0x748F82EE5DEFB2FC, 0x78A5636F43172F60, 0x84C87814A1F0AB72, 0x8CC702081A6439EC,
  0x90BEFFFA23631E28, 0xA4506CEBDE82BDE9, 0xBEF9A3F7B2C67915, 0xC67178F2E372532B]
/-- Constants of rounds 64 to 79. -/
def shaK4 : List Wide := [
  0xCA273ECEEA26619C, 0xD186B8C721C0C207, 0xEADA7DD6CDE0EB1E, 0xF57D4F7FEE6ED178,
  0x06F067AA72176FBA, 0x0A637DC5A2C898A6, 0x113F9804BEF90DAE, 0x1B710B35131C471B,
  0x28DB77F523047D84, 0x32CAAB7B40C72493, 0x3C9EBE0A15C9BEBC, 0x431D67C49C100D4C,
  0x4CC5D4BECB3E42B6, 0x597F299CFC657E2A, 0x5FCB6FAB3AD6FAEC, 0x6C44198C4A475817]
/-- The constants of the 80 rounds. -/
def shaK : List Wide := shaK0 ++ shaK1 ++ shaK2 ++ shaK3 ++ shaK4

/-- The function of the message schedule on the word 15 before. -/
def shaSmall0 (x : Wide) : Wide := x.rotateRight 1 ^^^ x.rotateRight 8 ^^^ x >>> 7
/-- The function of the message schedule on the word 2 before. -/
def shaSmall1 (x : Wide) : Wide := x.rotateRight 19 ^^^ x.rotateRight 61 ^^^ x >>> 6
/-- The function of a round on its word `a`. -/
def shaBig0 (x : Wide) : Wide := x.rotateRight 28 ^^^ x.rotateRight 34 ^^^ x.rotateRight 39
/-- The function of a round on its word `e`. -/
def shaBig1 (x : Wide) : Wide := x.rotateRight 14 ^^^ x.rotateRight 18 ^^^ x.rotateRight 41
/-- Of each bit of `x`, the bit of `y` where it is 1 and of `z` where it is 0. -/
def shaChoose (x y z : Wide) : Wide := (x &&& y) ^^^ (~~~x &&& z)
/-- Of each bit, the value that two of the three have. -/
def shaMajority (x y z : Wide) : Wide := (x &&& y) ^^^ (x &&& z) ^^^ (y &&& z)

/-- A round with its constant and its word of the schedule. -/
def shaRound (h : List Wide) (kw : Wide × Wide) : List Wide :=
  match h with
  | [a, b, c, d, e, f, g, i] =>
    let t := i + shaBig1 e + shaChoose e f g + kw.1 + kw.2
    [t + (shaBig0 a + shaMajority a b c), a, b, c, d + t, e, f, g]
  | h => h

/-- The message schedule grows by `n` words; the latest stands first. -/
def shaSchedule : Nat → List Wide → List Wide
  | 0, w => w
  | n + 1, w =>
    shaSchedule n ((shaSmall1 (w.getD 1 0) + w.getD 6 0 + shaSmall0 (w.getD 14 0) + w.getD 15 0) :: w)

/-- The big-endian 64-bit words of bytes. -/
def beWords : List Byte → List Wide
  | a :: b :: c :: d :: e :: f :: g :: h :: r => BitVec.ofNat 64 (leNat [h, g, f, e, d, c, b, a]) :: beWords r
  | _ => []

/-- The hash value after a block of sixteen words. -/
def shaBlock (h block : List Wide) : List Wide :=
  let w := (shaSchedule 64 block.reverse).reverse
  List.zipWith (· + ·) h ((shaK.zip w).foldl shaRound h)

/-- The hash value after `n` blocks. -/
def shaBlocks : Nat → List Wide → List Wide → List Wide
  | 0, h, _ => h
  | n + 1, h, w => shaBlocks n (shaBlock h (w.take 16)) (w.drop 16)

/-- A message with its padding: a 1, zeros, and the number of its bits, to a multiple of 128 bytes. -/
def shaPad (b : List Byte) : List Byte :=
  b ++ 0x80 :: List.replicate ((239 - b.length % 128) % 128) 0 ++ (leBytes 16 (8 * b.length)).reverse

/-- SHA-384 of bytes: the digest's 48 bytes, the first in the least significant place. -/
def sha384 (b : List Byte) : BitVec 384 :=
  let m := shaPad b
  BitVec.ofNat 384 (leNat (((shaBlocks (m.length / 128) shaStart (beWords m)).take 6).flatMap (fun w => (leBytes 8 w.toNat).reverse)))

end Sys2Proof.Machine
end

