-- ==== Sys2Proof/Machine/Spire.lean ====
section
/-! DEFINITION. The Spire: boot (R344), resets, watchdog and limits (R345, R346), the mailbox commands (R347, R348, R362),
errors found in arrays (R308) and the bank scan (R315). -/
namespace Sys2Proof.Machine

/-- The state with the boot state changed. -/
def State.modBoot (s : State) (f : Boot → Boot) : State := s.modSpire (fun p => { p with boot := f p.boot })

/-- The bytes of a digest. -/
def digestBytes (d : BitVec 384) : List Byte := leBytes 48 d.toNat

/-! ### Boot (R344) -/

/-- A unit is released after its image has been measured. -/
def Boot.release (b : Boot) (unit : Nat) (image : List Byte) (slotB : Bool) : Boot :=
  let d := sha384 image
  { b with
    m := sha384 (digestBytes b.m ++ digestBytes d)
    log := b.log ++ [d]
    released := unit + 1
    slotB := b.slotB || slotB
    inReset := b.inReset.filter (· ≠ unit) }

/-- A unit is brought up from slot A or else slot B; if both fail, it and every later unit stay in reset. -/
def Boot.bringUp (b : Boot) (unit : Nat) (images : List Byte × List Byte) : Boot :=
  if b.failed then b
  else if Config.imageValid images.1 then b.release unit images.1 false
  else if Config.imageValid images.2 then b.release unit images.2 true
  else { b with failed := true }

/-- The self-test of a cluster at boot: a pass counts as PASSTIME; a cluster that fails is not released (DESIGN CHOICE, log entry 24). -/
def State.bootTest (s : State) (c : Nat) : State :=
  let ok := Config.freeChoice s.env.freeCtr 0
  (s.freshFree.2).modCluster c (fun k => if ok then { k with pass := s.clk.ns } else { k with fenced := true })

/-- POWER_ON_BOOT: steps 1 and 2 bring up the Belfry, the dispatchers and the firmware, and step 3 begins; once step 3 has
ended, step 4 brings up the core control stores. `images` are the two slots of each unit in the order of bring-up.
The images' validity is free: log entry 8. -/
def execPowerOnBoot (images : List (List Byte × List Byte)) (s : State) : Res :=
  let b := s.spire.boot
  if b.failed ∨ b.tempHold then .next s
  else if b.released = 0 then
    let b := (List.range 6).foldl (fun b u => b.bringUp u (images.getD u ([], []))) b
    .next (s.modBoot (fun _ => if b.failed then b else { b with lockWait := some (s.clk.ns + 2000000000) }))
  else if b.released = 6 ∧ b.lockWait.isNone then
    let s := s.modBoot (fun b => b.bringUp 6 (images.getD 6 ([], [])))
    .next (if s.spire.boot.failed then s else foldS (List.range 16) s State.bootTest)
  else .next s

/-- BOOT_LOCK_TIMEOUT: no lock has come within 2 s (R344). -/
def execBootLockTimeout (s : State) : Res :=
  match s.spire.boot.lockWait with
  | some t => if t ≤ s.clk.ns then .next (s.modBoot (fun b => { b with lockWait := none })) else .next s
  | none => .next s

/-! ### Resets (R345, R346) -/

/-- A die is reset: every block on it is killed, and their bundles and its copies complete KILLED. -/
def State.resetDie (s : State) (die : Nat) : State :=
  let bs := (s.blocks.filter (fun e => decide (e.2.id.die = die))).map Prod.fst
  let cs := (s.copies.copies.filter (fun e => decide (e.2.die = die))).map Prod.fst
  (foldS cs (foldS bs s State.killWhole) State.killCopy).syncRecs

/-- The Belfry is reset: every admitted item of the package is killed, and fetch resumes at each queue's RDIDX. -/
def State.resetBelfry (s : State) : State :=
  let s := foldS (s.belfry.launches.map Prod.fst) s State.killLaunch
  let s := foldS (s.copies.copies.map Prod.fst) s State.killCopy
  { s with
    belfry := { s.belfry with
      procs := []
      queues := s.belfry.queues.map (fun (e : Nat × Queue) => (e.1, { e.2 with packet := none, skips := 0, awake := true })) }
    net := { s.net with msgs := s.net.msgs.filter (fun (m : Nat × Msg) => match m.2.kind with
      | .belfry _ => false
      | _ => true) } }.syncRecs

/-- The Ultra Ethernet firmware is reset: every port goes down, and its link is dead at once. -/
def State.resetFirmware (s : State) : State :=
  foldS (List.range 16) s (fun s p => if (s.port p).phys then (s.modPort p (fun x => { x with phys := false })).declareDead p
    else s.declareDead p)

/-- A unit is reset. Units: 0 the Belfry, 1 to 4 the dispatchers, 5 the firmware, 6 to 9 the core control stores of dies 0
to 3. The reset of a dispatcher has no stated effect on work (DESIGN CHOICE, log entry 40). -/
def State.resetUnit (s : State) (unit : Nat) : State :=
  let s := s.modBoot (fun b => { b with beats := tdel b.beats unit })
  if unit = 0 then s.resetBelfry
  else if unit = 5 then s.resetFirmware
  else if 6 ≤ unit then s.resetDie (unit - 6)
  else s

/-- Whether a unit has been released and so sends heartbeats. -/
def State.unitBeats (s : State) (unit : Nat) : Bool := decide (unit ≤ 9) && !s.spire.boot.inReset.contains (min unit 6)

/-- HEARTBEAT_MISS: the unit's heartbeat of this millisecond is missed; the second in a row resets the unit (R345). -/
def execHeartbeatMiss (unit : Nat) (s : State) : Res :=
  let ms := s.clk.ns / 1000000
  if ¬ s.unitBeats unit ∨ tget s.spire.boot.beats unit = some ms then .next s
  else if ms ≠ 0 ∧ tget s.spire.boot.beats unit = some (ms - 1) then .next (s.resetUnit unit)
  else .next (s.modBoot (fun b => { b with beats := tput b.beats unit ms }))

/-- POWER_THERMAL_FAULT: every die is reset and held (R346). -/
def execPowerThermalFault (s : State) : Res :=
  .next ((foldS (List.range 4) s State.resetDie).modBoot (fun b => { b with tempHold := true }))

/-- POWER_THERMAL_RECOVER: the dies leave reset (R346). -/
def execPowerThermalRecover (s : State) : Res := .next (s.modBoot (fun b => { b with tempHold := false }))

/-! ### Mailbox commands (R347; the places of their arguments are log entry 40) -/

/-- Whether a command is under way. -/
def State.cmdIs (s : State) (n : Nat) : Bool := decide (s.spire.mail.status = 1) && decide (s.spire.mail.cmd.toNat = n)

/-- Bytes of ARG. -/
def State.argBytes (s : State) (o n : Nat) : List Byte := (List.range n).map (fun i => (tget s.spire.mail.arg (o + i)).getD 0)
/-- The argument at the n-th 8 bytes of ARG. -/
def State.argAt (s : State) (n : Nat) : Nat := leNat (s.argBytes (8 * n) 8)

/-- The state with the mailbox changed. -/
def State.modMail (s : State) (f : Mailbox → Mailbox) : State := s.modSpire (fun p => { p with mail := f p.mail })

/-- A command ends with a status. -/
def State.endCmd (s : State) (status : Nat) : State := s.modMail (fun m => { m with status := BitVec.ofNat 8 status })

/-- A response is written from the start of RESP. -/
def State.respond (s : State) (b : List Byte) : State := s.modMail (fun m => { m with resp := b ++ m.resp.drop b.length })

/-- QUOTE: M, the log length, and the signature over SHA-384(nonce ‖ M ‖ log length ‖ CHIPID).
DESIGN CHOICE, log entry 40. -/
def execQuote (s : State) : Res :=
  if ¬ s.cmdIs 1 then .next s
  else
    let b := s.spire.boot
    let len := leBytes 8 b.log.length
    let d := sha384 (s.argBytes 0 48 ++ digestBytes b.m ++ len ++ leBytes 8 Config.chipId)
    .next ((s.respond (digestBytes b.m ++ len ++ leBytes 384 (Config.quoteSign d).toNat)).endCmd 2)

/-- LOGREAD: eight digests of the measurement log, as far as it goes. -/
def execLogread (s : State) : Res :=
  if ¬ s.cmdIs 2 then .next s
  else .next ((s.respond (((s.spire.boot.log.drop (s.argAt 0)).take 8).flatMap digestBytes)).endCmd 2)

/-- GRANT: one grant entry is written (R318). -/
def execGrantCommand (s : State) : Res :=
  if ¬ s.cmdIs 3 then .next s
  else if s.argAt 0 ≥ 256 then .next (s.endCmd 4)
  else
    let b := s.argBytes 8 16
    let g : Grant := ⟨leAt b 0 4 % 2 ^ 24, BitVec.ofNat 16 (leAt b 4 2 % 32), leAt b 6 2, leAt b 8 8 / 4096 * 4096⟩
    .next ({ s with net := { s.net with grants := tput s.net.grants (s.argAt 0) g } }.endCmd 2)

/-- The RESET command of a die also clears its field record and lifts its fences (R350, DESIGN CHOICE, log entry 40). -/
def State.clearField (s : State) (die : Nat) : State :=
  let s := s.modSpire (fun p => { p with field := tdel p.field die })
  foldS (List.range 4) s (fun s k => s.modCluster (4 * die + k) (fun c => { c with fenced := false }))

/-- RESET: a die (codes 0 to 3) or a unit (codes 16 on) is reset. -/
def execResetCommand (s : State) : Res :=
  if ¬ s.cmdIs 4 then .next s
  else
    let c := s.argAt 0
    if c < 4 then .next (((s.resetDie c).clearField c).endCmd 2)
    else if 16 ≤ c ∧ c ≤ 25 then .next ((s.resetUnit (c - 16)).endCmd 2)
    else .next (s.endCmd 4)

/-- QCLEAR: one quarantine entry goes, or a fenced controller is reset with its record and list (R170, R310). -/
def execQclear (s : State) : Res :=
  if ¬ s.cmdIs 5 then .next s
  else
    let c := s.argAt 0
    if c ≥ 64 then .next (s.endCmd 4)
    else
      let d := (tget s.spire.dram c).getD ⟨[], false⟩
      if d.fenced then
        let mine (g : Nat) : Bool := decide (g < weightBase / 32) && decide (dramController (32 * g) = c)
        let s := { s with flight := { s.flight with poison := s.flight.poison.filter (fun g => !mine g) } }
        .next ((s.modSpire (fun p => { p with dram := tdel p.dram c })).endCmd 2)
      else
        .next ((s.modSpire (fun p => { p with dram := tput p.dram c { d with pages := d.pages.filter (· ≠ s.argAt 1 / 65536) } })).endCmd 2)

/-- A die is fenced for margining: its blocks are stowed, and nothing is placed on it (R302, R348). -/
def State.marginOn (s : State) (die : Nat) : State :=
  if s.spire.margin.contains die then s
  else
    let bs := (s.blocks.filter (fun e => e.2.id.cores.any (fun c => decide (c / 16 = die)))).map Prod.fst
    foldS bs (s.modSpire (fun p => { p with margin := p.margin ++ [die] })) State.preempt

/-- A die leaves margining: its rails go back to 0. -/
def State.marginOff (s : State) (die : Nat) : State :=
  let rails := (List.range 33).filter (fun r => railExists r && decide (railDie r = die))
  foldS rails (s.modSpire (fun p => { p with margin := p.margin.filter (· ≠ die) })) (fun s r =>
    if (tget s.spire.rails r).isSome then s.setStep r 0 else s)

/-- MARGIN. -/
def execMargin (s : State) : Res :=
  if ¬ s.cmdIs 6 then .next s
  else if s.argAt 0 > 4 ∨ s.argAt 1 > 1 then .next (s.endCmd 4)
  else .next ((if s.argAt 1 = 1 then s.marginOn (s.argAt 0) else s.marginOff (s.argAt 0)).endCmd 2)

/-- Whether a page may stand in the world map. -/
def mapPage (page : Nat) : Bool :=
  match window (65536 * page) with
  | .dram _ _ | .weight _ _ => true
  | _ => false

/-- WMAP: the world of a run of pages (R362). -/
def execWmap (s : State) : Res :=
  if ¬ s.cmdIs 7 then .next s
  else
    let a := s.argAt 0
    let n := s.argAt 1
    if a % 65536 ≠ 0 ∨ n > 2 ^ 24 ∨ ¬ (List.range n).all (fun i => mapPage (a / 65536 + i)) then .next (s.endCmd 4)
    else
      let rest := s.spire.worldS.filter (fun p => !(decide (a / 65536 ≤ p) && decide (p < a / 65536 + n)))
      let now := if s.argAt 2 % 2 = 1 then rest ++ (List.range n).map (fun i => a / 65536 + i) else rest
      .next ((s.modSpire (fun p => { p with worldS := now })).endCmd 2)

/-- MAILBOX_COMMAND_REFUSED: a command that the Spire does not know ends with status 3. -/
def execMailboxCommandRefused (s : State) : Res :=
  if s.spire.mail.status = 1 ∧ ¬ (1 ≤ s.spire.mail.cmd.toNat ∧ s.spire.mail.cmd.toNat ≤ 7) then .next (s.endCmd 3) else .next s

/-! ### Errors in arrays (R308) and the scan of the banks (R315) -/

/-- What a bank records of an error in an array: the failing unit's address is the device's, a free value, except that of a
memory grain (log entry 6). -/
def State.eccRec (s : State) (addr : Option Nat) (detail : Byte) : BankRec × State :=
  match addr with
  | some a => (⟨BitVec.ofNat 64 a, bankInfo tyArray detail.toNat, 0⟩, s)
  | none => (⟨wideOf (Config.freeWord s.env.freeCtr 0) (Config.freeWord s.env.freeCtr 1), bankInfo tyArray detail.toNat, 0⟩, s.freshFree.2)

/-- ECC_CORRECTED: nothing visible changes; a CE is logged (R308, R313). -/
def execEccCorrected (bank : Nat) (detail : Byte) (s : State) : Res :=
  if ¬ bankExists bank then .next s
  else
    let (r, s) := s.eccRec none detail
    .next (s.logBank bank false r)

/-- The unit in which an uncorrectable error was found is poisoned. -/
def State.poisonSite (s : State) : EccSite → State
  | .regLane core p l => s.modCore core (fun c => { c with pool := tmod c.pool p (fun x => { x with poison := x.poison ||| laneBit l }) })
  | .uniformLane core u l => s.modCore core (fun c => { c with unif := tmod c.unif u (fun x => { x with poison := x.poison ||| laneBit l }) })
  | .scalar g i => s.modGroup g (fun G => if G.scalPoison.contains i then G else { G with scalPoison := i :: G.scalPoison })
  | .latch p l => s.modPart p (fun P => { P with latches := tmod P.latches l (fun x => { x with poison := true }) })
  | .mailbox b m => s.modBlock b (fun B => { B with mboxes := B.mboxes.modify m (fun x => { x with poison := true }) })
  | .grain _ a => s.poisonGrain a

/-- The bank of a unit. -/
def State.siteBank (s : State) : EccSite → Nat
  | .regLane core _ _ => coreBank core
  | .uniformLane core _ _ => coreBank core
  | .scalar g _ => coreBank (s.coreOf g)
  | .latch p _ => coreBank (p / 4)
  | .mailbox b _ => coreBank ((s.block b).id.cores.headD 0)
  | .grain bank _ => bank

/-- The address of a unit that has one. -/
def siteAddr : EccSite → Option Nat
  | .grain _ a => some a
  | _ => none

/-- ECC_UNCORRECTABLE: the unit is poisoned, and a UE is logged (R308). -/
def execEccUncorrectable (site : EccSite) (detail : Byte) (s : State) : Res :=
  if ¬ bankExists (s.siteBank site) then .next s
  else
    let (r, s) := s.eccRec (siteAddr site) detail
    .next ((s.logBank (s.siteBank site) true r).poisonSite site)

/-- SPIRE_BANK_SCAN: every 10 ms the Spire reads each bank whose STATE is UE, which sets SEEN (R315). -/
def execSpireBankScan (s : State) : Res :=
  if s.clk.ns < s.spire.scanAt then .next s
  else .next (s.modSpire (fun p => { p with
    scanAt := p.scanAt + 10000000
    banks := p.banks.map (fun (e : Nat × Bank) => if e.2.state = 2 then (e.1, { e.2 with seen := true }) else e) }))

/-- DRAM_TEMPERATURE_THRESHOLD: a die's refresh runs at 1, 2 or 4 times its base rate (R152). -/
def execDramTemperatureThreshold (die rate : Nat) (s : State) : Res :=
  if die < 4 ∧ (rate = 1 ∨ rate = 2 ∨ rate = 4) then .next (s.modSpire (fun p => { p with refresh := tput p.refresh die rate })) else .next s

end Sys2Proof.Machine
end

