-- ==== Sys2Proof/Machine/Dispatch.lean ====
section
/-! DEFINITION. One arm for each constructor of Instr: each is one direct call of that instruction's meaning. -/
namespace Sys2Proof.Machine

/-- The effect of an instruction, or of a step of another agent. -/
def exec (i : Instr) (s : State) : Host.Outcome State Fault Refusal :=
  match i with
  | .nop => Sys2Proof.Machine.execNop s
  | .bra f l => Sys2Proof.Machine.execBra f l s
  | .call f l => Sys2Proof.Machine.execCall f l s
  | .retScalar f => Sys2Proof.Machine.execRetScalar f s
  | .retVector f => Sys2Proof.Machine.execRetVector f s
  | .loop f => Sys2Proof.Machine.execLoop f s
  | .endl => Sys2Proof.Machine.execEndl s
  | .wbase f => Sys2Proof.Machine.execWbase f s
  | .exit => Sys2Proof.Machine.execExit s
  | .pkrdRec f e => Sys2Proof.Machine.execPkrdRec f e s
  | .pkrdReg f e => Sys2Proof.Machine.execPkrdReg f e s
  | .pkrdRpl f e => Sys2Proof.Machine.execPkrdRpl f e s
  | .pkwrRec f e => Sys2Proof.Machine.execPkwrRec f e s
  | .pkwrReg f e => Sys2Proof.Machine.execPkwrReg f e s
  | .pkwrRpl f e => Sys2Proof.Machine.execPkwrRpl f e s
  | .pkres f => Sys2Proof.Machine.execPkres f s
  | .pkrty f => Sys2Proof.Machine.execPkrty f s
  | .pkdir f e => Sys2Proof.Machine.execPkdir f e s
  | .pkkil f => Sys2Proof.Machine.execPkkil f s
  | .ctopen f e => Sys2Proof.Machine.execCtopen f e s
  | .ctclose => Sys2Proof.Machine.execCtclose s
  | .srdGrp f e => Sys2Proof.Machine.execSrdGrp f e s
  | .swrGrp f e => Sys2Proof.Machine.execSwrGrp f e s
  | .srdSys f e => Sys2Proof.Machine.execSrdSys f e s
  | .swrSys f e => Sys2Proof.Machine.execSwrSys f e s
  | .srdSysB64 f e => Sys2Proof.Machine.execSrdSysB64 f e s
  | .swrSysB64 f e => Sys2Proof.Machine.execSwrSysB64 f e s
  | .rdid f => Sys2Proof.Machine.execRdid f s
  | .rdtime f => Sys2Proof.Machine.execRdtime f s
  | .trap f => Sys2Proof.Machine.execTrap f s
  | .pstop f e => Sys2Proof.Machine.execPstop f e s
  | .dumpWrite part => Sys2Proof.Machine.execDumpWrite part s
  | .pmset f => Sys2Proof.Machine.execPmset f s
  | .pmret => Sys2Proof.Machine.execPmret s
  | .matchHandlerAbandon group => Sys2Proof.Machine.execMatchHandlerAbandon group s
  | .ftest f => Sys2Proof.Machine.execFtest f s
  | .ftestComplete wait => Sys2Proof.Machine.execFtestComplete wait s
  | .chkset f => Sys2Proof.Machine.execChkset f s
  | .chksetRestore f => Sys2Proof.Machine.execChksetRestore f s
  | .reggive f => Sys2Proof.Machine.execReggive f s
  | .reggiveLiteral f e => Sys2Proof.Machine.execReggiveLiteral f e s
  | .regclaim f => Sys2Proof.Machine.execRegclaim f s
  | .regclaimLiteral f e => Sys2Proof.Machine.execRegclaimLiteral f e s
  | .claimServe block => Sys2Proof.Machine.execClaimServe block s
  | .role f => Sys2Proof.Machine.execRole f s
  | .phpost f => Sys2Proof.Machine.execPhpost f s
  | .iaddScalar f l => Sys2Proof.Machine.execIaddScalar f l s
  | .isubScalar f l => Sys2Proof.Machine.execIsubScalar f l s
  | .imulScalar f l => Sys2Proof.Machine.execImulScalar f l s
  | .imulhScalar f l => Sys2Proof.Machine.execImulhScalar f l s
  | .andScalar f l => Sys2Proof.Machine.execAndScalar f l s
  | .orScalar f l => Sys2Proof.Machine.execOrScalar f l s
  | .xorScalar f l => Sys2Proof.Machine.execXorScalar f l s
  | .shlScalar f l => Sys2Proof.Machine.execShlScalar f l s
  | .shrScalar f l => Sys2Proof.Machine.execShrScalar f l s
  | .iminScalar f l => Sys2Proof.Machine.execIminScalar f l s
  | .imaxScalar f l => Sys2Proof.Machine.execImaxScalar f l s
  | .bitsScalar f => Sys2Proof.Machine.execBitsScalar f s
  | .iaddScalarImm f l => Sys2Proof.Machine.execIaddScalarImm f l s
  | .andScalarImm f l => Sys2Proof.Machine.execAndScalarImm f l s
  | .orScalarImm f l => Sys2Proof.Machine.execOrScalarImm f l s
  | .xorScalarImm f l => Sys2Proof.Machine.execXorScalarImm f l s
  | .shlScalarImm f => Sys2Proof.Machine.execShlScalarImm f s
  | .shrScalarImm f => Sys2Proof.Machine.execShrScalarImm f s
  | .iset f => Sys2Proof.Machine.execIset f s
  | .movScalarImm f l => Sys2Proof.Machine.execMovScalarImm f l s
  | .movScalar f => Sys2Proof.Machine.execMovScalar f s
  | .iaddVector f l => Sys2Proof.Machine.execIaddVector f l s
  | .isubVector f l => Sys2Proof.Machine.execIsubVector f l s
  | .imulVector f l => Sys2Proof.Machine.execImulVector f l s
  | .imulhVector f l => Sys2Proof.Machine.execImulhVector f l s
  | .imad f l => Sys2Proof.Machine.execImad f l s
  | .andVector f l => Sys2Proof.Machine.execAndVector f l s
  | .orVector f l => Sys2Proof.Machine.execOrVector f l s
  | .xorVector f l => Sys2Proof.Machine.execXorVector f l s
  | .shlVector f l => Sys2Proof.Machine.execShlVector f l s
  | .shrVector f l => Sys2Proof.Machine.execShrVector f l s
  | .iminVector f l => Sys2Proof.Machine.execIminVector f l s
  | .imaxVector f l => Sys2Proof.Machine.execImaxVector f l s
  | .icmp f l => Sys2Proof.Machine.execIcmp f l s
  | .ineg f => Sys2Proof.Machine.execIneg f s
  | .bitsVector f => Sys2Proof.Machine.execBitsVector f s
  | .cvti f => Sys2Proof.Machine.execCvti f s
  | .iaddVectorImm f l => Sys2Proof.Machine.execIaddVectorImm f l s
  | .andVectorImm f l => Sys2Proof.Machine.execAndVectorImm f l s
  | .orVectorImm f l => Sys2Proof.Machine.execOrVectorImm f l s
  | .xorVectorImm f l => Sys2Proof.Machine.execXorVectorImm f l s
  | .shlVectorImm f => Sys2Proof.Machine.execShlVectorImm f s
  | .shrVectorImm f => Sys2Proof.Machine.execShrVectorImm f s
  | .icmpImm f l => Sys2Proof.Machine.execIcmpImm f l s
  | .isubVectorImm f l => Sys2Proof.Machine.execIsubVectorImm f l s
  | .imulVectorImm f l => Sys2Proof.Machine.execImulVectorImm f l s
  | .movVectorImm f l => Sys2Proof.Machine.execMovVectorImm f l s
  | .movVector f => Sys2Proof.Machine.execMovVector f s
  | .movVectorBroadcast f => Sys2Proof.Machine.execMovVectorBroadcast f s
  | .movVectorB64 f => Sys2Proof.Machine.execMovVectorB64 f s
  | .fadd f l => Sys2Proof.Machine.execFadd f l s
  | .fsub f l => Sys2Proof.Machine.execFsub f l s
  | .fmul f l => Sys2Proof.Machine.execFmul f l s
  | .ffma f l => Sys2Proof.Machine.execFfma f l s
  | .fmin f l => Sys2Proof.Machine.execFmin f l s
  | .fmax f l => Sys2Proof.Machine.execFmax f l s
  | .fcmp f l => Sys2Proof.Machine.execFcmp f l s
  | .fneg f => Sys2Proof.Machine.execFneg f s
  | .frcp f => Sys2Proof.Machine.execFrcp f s
  | .frsq f => Sys2Proof.Machine.execFrsq f s
  | .fexp2 f => Sys2Proof.Machine.execFexp2 f s
  | .flog2 f => Sys2Proof.Machine.execFlog2 f s
  | .cvt f e => Sys2Proof.Machine.execCvt f e s
  | .pack f e => Sys2Proof.Machine.execPack f e s
  | .unpack f e => Sys2Proof.Machine.execUnpack f e s
  | .fscale f l => Sys2Proof.Machine.execFscale f l s
  | .hadd2 f l => Sys2Proof.Machine.execHadd2 f l s
  | .hmul2 f l => Sys2Proof.Machine.execHmul2 f l s
  | .hfma2 f l => Sys2Proof.Machine.execHfma2 f l s
  | .fclass f => Sys2Proof.Machine.execFclass f s
  | .laneid f => Sys2Proof.Machine.execLaneid f s
  | .shfl f => Sys2Proof.Machine.execShfl f s
  | .voteAll f => Sys2Proof.Machine.execVoteAll f s
  | .voteAny f => Sys2Proof.Machine.execVoteAny f s
  | .voteBallot f => Sys2Proof.Machine.execVoteBallot f s
  | .red f => Sys2Proof.Machine.execRed f s
  | .vreds f => Sys2Proof.Machine.execVreds f s
  | .vredsComplete group => Sys2Proof.Machine.execVredsComplete group s
  | .plop f => Sys2Proof.Machine.execPlop f s
  | .pmov f => Sys2Proof.Machine.execPmov f s
  | .pmovNz f => Sys2Proof.Machine.execPmovNz f s
  | .pmovBit f => Sys2Proof.Machine.execPmovBit f s
  | .sredw f => Sys2Proof.Machine.execSredw f s
  | .sredwReturn wait => Sys2Proof.Machine.execSredwReturn wait s
  | .ld f => Sys2Proof.Machine.execLd f s
  | .ldExtended f e => Sys2Proof.Machine.execLdExtended f e s
  | .st f => Sys2Proof.Machine.execSt f s
  | .stExtended f e => Sys2Proof.Machine.execStExtended f e s
  | .lds f => Sys2Proof.Machine.execLds f s
  | .ldsExtended f e => Sys2Proof.Machine.execLdsExtended f e s
  | .sts f => Sys2Proof.Machine.execSts f s
  | .stsExtended f e => Sys2Proof.Machine.execStsExtended f e s
  | .ldc f => Sys2Proof.Machine.execLdc f s
  | .ldcExtended f e => Sys2Proof.Machine.execLdcExtended f e s
  | .ldws f => Sys2Proof.Machine.execLdws f s
  | .ldwsExtended f e => Sys2Proof.Machine.execLdwsExtended f e s
  | .pref f => Sys2Proof.Machine.execPref f s
  | .prefExtended f e => Sys2Proof.Machine.execPrefExtended f e s
  | .ldsp f e => Sys2Proof.Machine.execLdsp f e s
  | .atom f e => Sys2Proof.Machine.execAtom f e s
  | .atoms f e => Sys2Proof.Machine.execAtoms f e s
  | .fence f => Sys2Proof.Machine.execFence f s
  | .fenceComplete wait => Sys2Proof.Machine.execFenceComplete wait s
  | .waitsb f => Sys2Proof.Machine.execWaitsb f s
  | .waitsbReturn wait => Sys2Proof.Machine.execWaitsbReturn wait s
  | .binit f => Sys2Proof.Machine.execBinit f s
  | .binitLiteral f e => Sys2Proof.Machine.execBinitLiteral f e s
  | .barv f => Sys2Proof.Machine.execBarv f s
  | .bexp f => Sys2Proof.Machine.execBexp f s
  | .bexpLiteral f e => Sys2Proof.Machine.execBexpLiteral f e s
  | .bwait f => Sys2Proof.Machine.execBwait f s
  | .bwaitReturn wait => Sys2Proof.Machine.execBwaitReturn wait s
  | .btest f => Sys2Proof.Machine.execBtest f s
  | .barrierBankOp block => Sys2Proof.Machine.execBarrierBankOp block s
  | .engineArrive arrival => Sys2Proof.Machine.execEngineArrive arrival s
  | .mbw f => Sys2Proof.Machine.execMbw f s
  | .mbr f => Sys2Proof.Machine.execMbr f s
  | .mbp f => Sys2Proof.Machine.execMbp f s
  | .mailboxFill wait => Sys2Proof.Machine.execMailboxFill wait s
  | .mailboxTake wait => Sys2Proof.Machine.execMailboxTake wait s
  | .cpsub f e => Sys2Proof.Machine.execCpsub f e s
  | .cpsubAdmit wait => Sys2Proof.Machine.execCpsubAdmit wait s
  | .cpwp f e => Sys2Proof.Machine.execCpwp f e s
  | .cpwpRaw f e => Sys2Proof.Machine.execCpwpRaw f e s
  | .cpwait f e => Sys2Proof.Machine.execCpwait f e s
  | .cpwaitReturn wait => Sys2Proof.Machine.execCpwaitReturn wait s
  | .mma f e => Sys2Proof.Machine.execMma f e s
  | .mmag f e => Sys2Proof.Machine.execMmag f e s
  | .mmab f e => Sys2Proof.Machine.execMmab f e s
  | .mdrn f e => Sys2Proof.Machine.execMdrn f e s
  | .kdef f => Sys2Proof.Machine.execKdef f s
  | .kdefComplete wait => Sys2Proof.Machine.execKdefComplete wait s
  | .macz f => Sys2Proof.Machine.execMacz f s
  | .mwait f => Sys2Proof.Machine.execMwait f s
  | .engineOpStart part => Sys2Proof.Machine.execEngineOpStart part s
  | .engineOpComplete part => Sys2Proof.Machine.execEngineOpComplete part s
  | .tdef f => Sys2Proof.Machine.execTdef f s
  | .tqry f => Sys2Proof.Machine.execTqry f s
  | .binrun f => Sys2Proof.Machine.execBinrun f s
  | .susp f => Sys2Proof.Machine.execSusp f s
  | .wakeScalar f => Sys2Proof.Machine.execWakeScalar f s
  | .wakeVector f => Sys2Proof.Machine.execWakeVector f s
  | .twakeq f e => Sys2Proof.Machine.execTwakeq f e s
  | .tapply f e => Sys2Proof.Machine.execTapply f e s
  | .binGroupForm block handle => Sys2Proof.Machine.execBinGroupForm block handle s
  | .fixedWriteback pend => Sys2Proof.Machine.execFixedWriteback pend s
  | .starvationGuard part => Sys2Proof.Machine.execStarvationGuard part s
  | .activeSetSwap part => Sys2Proof.Machine.execActiveSetSwap part s
  | .pendingAgeSwap part => Sys2Proof.Machine.execPendingAgeSwap part s
  | .poolAllocServe core => Sys2Proof.Machine.execPoolAllocServe core s
  | .spillEvict core => Sys2Proof.Machine.execSpillEvict core s
  | .groupRefill group => Sys2Proof.Machine.execGroupRefill group s
  | .loadPerform op lane => Sys2Proof.Machine.execLoadPerform op lane s
  | .storeDrain group => Sys2Proof.Machine.execStoreDrain group s
  | .storePush node entry => Sys2Proof.Machine.execStorePush node entry s
  | .atomicPerform op lane => Sys2Proof.Machine.execAtomicPerform op lane s
  | .tlbWalkDone walk => Sys2Proof.Machine.execTlbWalkDone walk s
  | .transferSegment transfer segment => Sys2Proof.Machine.execTransferSegment transfer segment s
  | .copySegment copy segment => Sys2Proof.Machine.execCopySegment copy segment s
  | .copyComplete copy => Sys2Proof.Machine.execCopyComplete copy s
  | .belfryWake queue => Sys2Proof.Machine.execBelfryWake queue s
  | .queuePoll queue => Sys2Proof.Machine.execQueuePoll queue s
  | .packetFetch queue => Sys2Proof.Machine.execPacketFetch queue s
  | .queueSliceExpire proc => Sys2Proof.Machine.execQueueSliceExpire proc s
  | .launchPacket queue => Sys2Proof.Machine.execLaunchPacket queue s
  | .faultLaunch queue => Sys2Proof.Machine.execFaultLaunch queue s
  | .waitPacket queue => Sys2Proof.Machine.execWaitPacket queue s
  | .waitRecheck queue => Sys2Proof.Machine.execWaitRecheck queue s
  | .writePacket queue => Sys2Proof.Machine.execWritePacket queue s
  | .wrsigAdd queue => Sys2Proof.Machine.execWrsigAdd queue s
  | .wrsigAppend queue => Sys2Proof.Machine.execWrsigAppend queue s
  | .wrsigRetry queue => Sys2Proof.Machine.execWrsigRetry queue s
  | .branchPacket queue => Sys2Proof.Machine.execBranchPacket queue s
  | .jumpPacket queue => Sys2Proof.Machine.execJumpPacket queue s
  | .skipSlot queue => Sys2Proof.Machine.execSkipSlot queue s
  | .copyPacket queue => Sys2Proof.Machine.execCopyPacket queue s
  | .fencePacket queue => Sys2Proof.Machine.execFencePacket queue s
  | .stamp queue => Sys2Proof.Machine.execStamp queue s
  | .nopPacket queue => Sys2Proof.Machine.execNopPacket queue s
  | .bundleRetire launch => Sys2Proof.Machine.execBundleRetire launch s
  | .dispatchPlace die => Sys2Proof.Machine.execDispatchPlace die s
  | .preemptHaltDone block => Sys2Proof.Machine.execPreemptHaltDone block s
  | .serverReplenish server => Sys2Proof.Machine.execServerReplenish server s
  | .usedWriteback server => Sys2Proof.Machine.execUsedWriteback server s
  | .parkedRecordWrite record => Sys2Proof.Machine.execParkedRecordWrite record s
  | .deferredRecordForm record => Sys2Proof.Machine.execDeferredRecordForm record s
  | .faultTaskAppend record => Sys2Proof.Machine.execFaultTaskAppend record s
  | .trctlWrite write => Sys2Proof.Machine.execTrctlWrite write s
  | .qregWrite write => Sys2Proof.Machine.execQregWrite write s
  | .tlbinvWrite write => Sys2Proof.Machine.execTlbinvWrite write s
  | .systemRegisterWrite write => Sys2Proof.Machine.execSystemRegisterWrite write s
  | .keepaliveSend port => Sys2Proof.Machine.execKeepaliveSend port s
  | .keepaliveMiss port => Sys2Proof.Machine.execKeepaliveMiss port s
  | .railSlewDone rail => Sys2Proof.Machine.execRailSlewDone rail s
  | .matchPointHit group => Sys2Proof.Machine.execMatchPointHit group s
  | .wsRefreshWindowEnd die bank => Sys2Proof.Machine.execWsRefreshWindowEnd die bank s
  | .budgetTick => Sys2Proof.Machine.execBudgetTick s
  | .pkRequestReceive request => Sys2Proof.Machine.execPkRequestReceive request s
  | .traceSample => Sys2Proof.Machine.execTraceSample s
  | .eccCorrected bank detail => Sys2Proof.Machine.execEccCorrected bank detail s
  | .eccUncorrectable site detail => Sys2Proof.Machine.execEccUncorrectable site detail s
  | .errbankStatusRead bank world => Sys2Proof.Machine.execErrbankStatusRead bank world s
  | .errbankStatusWrite bank value => Sys2Proof.Machine.execErrbankStatusWrite bank value s
  | .spireBankScan => Sys2Proof.Machine.execSpireBankScan s
  | .frameReceive port fecOk supported => Sys2Proof.Machine.execFrameReceive port fecOk supported s
  | .remoteOpReceive op => Sys2Proof.Machine.execRemoteOpReceive op s
  | .keepaliveReceive port => Sys2Proof.Machine.execKeepaliveReceive port s
  | .physicalLinkLoss port => Sys2Proof.Machine.execPhysicalLinkLoss port s
  | .linkStateUpdate port update => Sys2Proof.Machine.execLinkStateUpdate port update s
  | .drainRound1 => Sys2Proof.Machine.execDrainRound1 s
  | .drainRound2 => Sys2Proof.Machine.execDrainRound2 s
  | .drainRound3 => Sys2Proof.Machine.execDrainRound3 s
  | .routeRecompute => Sys2Proof.Machine.execRouteRecompute s
  | .ptpEventMessage port offset => Sys2Proof.Machine.execPtpEventMessage port offset s
  | .bootLockTimeout => Sys2Proof.Machine.execBootLockTimeout s
  | .heartbeatMiss unit => Sys2Proof.Machine.execHeartbeatMiss unit s
  | .powerThermalFault => Sys2Proof.Machine.execPowerThermalFault s
  | .powerThermalRecover => Sys2Proof.Machine.execPowerThermalRecover s
  | .quote => Sys2Proof.Machine.execQuote s
  | .logread => Sys2Proof.Machine.execLogread s
  | .grantCommand => Sys2Proof.Machine.execGrantCommand s
  | .resetCommand => Sys2Proof.Machine.execResetCommand s
  | .qclear => Sys2Proof.Machine.execQclear s
  | .margin => Sys2Proof.Machine.execMargin s
  | .wmap => Sys2Proof.Machine.execWmap s
  | .mailboxCommandRefused => Sys2Proof.Machine.execMailboxCommandRefused s
  | .railStepWrite rail value => Sys2Proof.Machine.execRailStepWrite rail value s
  | .laneTapWrite lane value => Sys2Proof.Machine.execLaneTapWrite lane value s
  | .eyeScanStart lane value => Sys2Proof.Machine.execEyeScanStart lane value s
  | .eyeScanDone lane errors => Sys2Proof.Machine.execEyeScanDone lane errors s
  | .physicalLinkUp port => Sys2Proof.Machine.execPhysicalLinkUp port s
  | .ptpHoldover => Sys2Proof.Machine.execPtpHoldover s
  | .dramTemperatureThreshold die rate => Sys2Proof.Machine.execDramTemperatureThreshold die rate s
  | .remoteReadResponse message result => Sys2Proof.Machine.execRemoteReadResponse message result s
  | .securedContextOpen chip => Sys2Proof.Machine.execSecuredContextOpen chip s
  | .remoteWriteAck message refusal => Sys2Proof.Machine.execRemoteWriteAck message refusal s
  | .powerOnBoot images => Sys2Proof.Machine.execPowerOnBoot images s

end Sys2Proof.Machine
end

