-- ==== Sys2Proof/Machine/Agenda.lean ====
section
/-! DEFINITION. The order in which the agents act (log entry 1), one step of the machine, and the state that runs a given
instruction next (log entry 2). -/
namespace Sys2Proof.Machine

/-! ### What is due -/

/-- The keys of a table whose entries pass a test, as events. -/
def dueOf {α : Type} (t : Tab α) (p : α → Bool) (f : Nat → Instr) : List Instr :=
  t.filterMap (fun e => if p e.2 then some (f e.1) else none)

/-- The event that ends a wait, or moves it on. -/
def Wait.event (id : Nat) (w : Wait) : List Instr :=
  match w.kind with
  | .fence _ _ _ => [.fenceComplete id]
  | .waitsb _ => [.waitsbReturn id]
  | .bwait _ _ => [.bwaitReturn id]
  | .mbw _ _ _ => [.mailboxFill id]
  | .mbr _ _ _ _ => [.mailboxTake id]
  | .kdef _ _ => [.kdefComplete id]
  | .cpsub _ _ _ _ _ => [.cpsubAdmit id]
  | .cpwait _ _ => [.cpwaitReturn id]
  | .sredw _ _ => [.sredwReturn id]
  | .vreds _ _ _ => [.vredsComplete w.gid]
  | .ftest _ _ _ => [.ftestComplete id]
  | .mwait _ | .claim _ | .role _ _ _ _ | .dump _ | .pk _ _ _ | .sysStore _ => []

/-- The event of a write on its way to a system register. -/
def SysWrite.event (id : Nat) (w : SysWrite) : Instr :=
  match sysBlock w.off with
  | some .qreg => .qregWrite id
  | some .tlbinv => .tlbinvWrite id
  | some .trace => .trctlWrite id
  | _ => .systemRegisterWrite id

/-- The lanes of a memory operation that may still be performed. -/
def MemOp.events (id : Nat) (m : MemOp) : List Instr :=
  m.lanes.filterMap (fun x =>
    if x.over ∨ x.pa.isNone then none
    else match m.kind with
      | .load => some (.loadPerform id x.lane)
      | .atomic _ _ => some (.atomicPerform id x.lane)
      | .store => none)

/-- Events of the cores' own units: results that land, the ordering machine, waits, barriers and tiles. -/
def State.coreEvents (s : State) : List Instr :=
  let f := s.flight
  dueOf f.pends (fun p => decide (p.landAt ≤ s.clk.ac)) .fixedWriteback ++
  dueOf f.walks (fun _ => true) .tlbWalkDone ++
  f.ops.flatMap (fun e => e.2.events e.1) ++
  dueOf s.groups (fun G => !G.fifo.isEmpty) .storeDrain ++
  f.nodes.filterMap (fun e => if e.1 < deviceNode ∧ !e.2.isEmpty then some (.storePush e.1 0) else none) ++
  f.sysw.map (fun e => e.2.event e.1) ++
  dueOf f.arrivals (fun a => !s.genOpen a) .engineArrive ++
  dueOf s.blocks (fun B => !B.bank.isEmpty) .barrierBankOp ++
  f.waits.flatMap (fun e => e.2.event e.1) ++
  dueOf s.blocks (fun B => !B.claims.isEmpty) .claimServe ++
  s.blocks.flatMap (fun e => dueOf e.2.tiles (fun t => match t.dispatch with
    | .placed _ => true
    | _ => false) (.binGroupForm e.1)) ++
  s.cores.flatMap (fun e => e.2.xfer.flatMap (fun t =>
    (List.range ((t.2.src.toNat % 4096 + t.2.n + 4095) / 4096)).map (.transferSegment t.2.id)))

/-- Events of the active sets: the swaps and the starvation guard (R85, R86). -/
def State.setEvents (s : State) : List Instr :=
  (if s.groups.any (fun e => decide (e.2.run.place = .pending)) then
    dueOf s.parts (fun _ => true) .activeSetSwap ++ dueOf s.parts (fun _ => true) .pendingAgeSwap else []) ++
  (if s.clk.ac < 64 then [] else dueOf s.parts (fun _ => true) .starvationGuard)

/-- Events whose time the spec fixes: results that land, the engines, a halt, the active sets, the Belfry's periods. Neither an issue nor the end
of a cycle that is chosen from outside goes before one of them. -/
def State.timedEvents (s : State) : List Instr :=
  dueOf s.flight.pends (fun p => decide (p.landAt ≤ s.clk.ac)) .fixedWriteback ++
  dueOf s.parts (fun P => P.engine.isSome) .engineOpComplete ++
  (if s.mats.isEmpty then [] else dueOf s.parts (fun _ => true) .engineOpStart) ++
  dueOf s.blocks (fun B => match B.run with
    | .halting t => decide (t ≤ s.clk.ac)
    | _ => false) .preemptHaltDone ++
  s.setEvents ++
  (if s.clk.ns < s.belfry.nextTick then [] else [.budgetTick]) ++
  dueOf s.belfry.servers (fun v => decide (v.period ≠ 0) && decide (v.pstart + v.period ≤ s.clk.ns)) .serverReplenish ++
  dueOf s.belfry.servers (fun v => decide (v.nextWrite ≤ s.clk.ns)) .usedWriteback

/-- Events of the pools, the active sets, the engines and the dumps. -/
def State.unitEvents (s : State) : List Instr :=
  dueOf s.cores (fun c => !c.pwait.isEmpty) .poolAllocServe ++
  dueOf s.cores (fun c => !c.pwait.isEmpty) .spillEvict ++
  dueOf s.groups (fun G => G.run.spilled) .groupRefill ++
  dueOf s.groups (fun G => G.handler.any (fun h => decide (h.issues ≥ Config.handlerIssues))) .matchHandlerAbandon ++
  dueOf s.parts (fun P => P.frozen.isSome) .dumpWrite ++
  s.spire.clusters.filterMap (fun e => e.2.testing.bind (fun w => if (tget s.flight.waits w).isSome then none else some (.ftestComplete w))) ++
  dueOf s.parts (fun P => P.engine.isSome) .engineOpComplete ++
  (if s.mats.isEmpty then [] else dueOf s.parts (fun _ => true) .engineOpStart) ++
  s.setEvents ++
  dueOf s.blocks (fun B => match B.run with
    | .halting t => decide (t ≤ s.clk.ac)
    | .stowed => B.image.isNone && s.emptied (B.id.cores.headD 0)
    | _ => false) .preemptHaltDone

/-- Events of the copies and of the fault path. -/
def State.faultEvents (s : State) : List Instr :=
  s.copies.copies.flatMap (fun e => e.2.arrived.map (fun x => Instr.copySegment e.1 x.1)) ++
  s.copies.chans.filterMap (fun e => (s.channelHead e.1).bind (fun h => h.2.nextSeg.map (fun p => .copySegment h.1 p.seg))) ++
  dueOf s.copies.copies (fun c => c.id.killed || c.finishes) .copyComplete ++
  dueOf s.faults.recs (fun r => r.handle.isSome || !r.deferred) .parkedRecordWrite ++
  dueOf s.faults.recs (fun r => r.handle.isNone && r.deferred) .deferredRecordForm ++
  dueOf s.faults.recs (fun r => r.handle.isSome && !r.appended && !r.torn && decide (r.state ≤ 1)) .faultTaskAppend

/-- What a queue's processor does next for it. -/
def Queue.events (q : Nat) (Q : Queue) : List Instr :=
  if Q.skips > 0 then (if Q.awake then [.skipSlot q] else [.belfryWake q, .queuePoll q])
  else match Q.packet with
  | none => if Q.awake then [.packetFetch q] else [.belfryWake q, .queuePoll q]
  | some p =>
    match p.type with
    | 1 => if p.isTask then [.faultLaunch q] else [.launchPacket q]
    | 2 => if p.held then [.waitRecheck q] else [.waitPacket q]
    | 3 => [.writePacket q]
    | 4 => if p.held then [.wrsigRetry q] else [.wrsigAdd q, .wrsigAppend q]
    | 5 => [.branchPacket q]
    | 6 => [.jumpPacket q]
    | 7 => [.copyPacket q]
    | 8 => [.fencePacket q]
    | 9 => [.stamp q]
    | _ => [.nopPacket q]

/-- Events of the Belfry and the dispatchers. -/
def State.hubEvents (s : State) : List Instr :=
  (if s.clk.ns < s.belfry.nextTick then [] else [.budgetTick]) ++
  dueOf s.belfry.servers (fun v => decide (v.period ≠ 0) && decide (v.pstart + v.period ≤ s.clk.ns)) .serverReplenish ++
  dueOf s.belfry.servers (fun v => decide (v.nextWrite ≤ s.clk.ns)) .usedWriteback ++
  dueOf s.belfry.procs (fun P => P.current.isSome && decide (P.sliceEnd ≤ s.clk.ns)) .queueSliceExpire ++
  (if s.belfryUp then s.belfry.queues.flatMap (fun e => e.2.events e.1) else []) ++
  s.belfry.launches.filterMap (fun e => if s.mayRetire e.1 e.2 then some (.bundleRetire e.1) else none) ++
  (List.range 4).filterMap (fun d => if (s.items d).isEmpty then none else some (.dispatchPlace d))

/-- The mailbox command under way. -/
def State.mailEvents (s : State) : List Instr :=
  if s.spire.mail.status ≠ 1 then []
  else match s.spire.mail.cmd.toNat with
    | 1 => [.quote]
    | 2 => [.logread]
    | 3 => [.grantCommand]
    | 4 => [.resetCommand]
    | 5 => [.qclear]
    | 6 => [.margin]
    | 7 => [.wmap]
    | _ => [.mailboxCommandRefused]

/-- Events of the links and of the Spire. -/
def State.outerEvents (s : State) : List Instr :=
  s.mailEvents ++
  dueOf s.net.ports (fun x => x.phys && decide (x.nextSend ≤ s.clk.ns)) .keepaliveSend ++
  dueOf s.net.ports (fun x => x.phys && decide (x.expect + 2000 ≤ s.clk.ns)) .keepaliveMiss ++
  (if s.roundDue then [.drainRound1, .drainRound2, .drainRound3, .routeRecompute] else []) ++
  (if s.net.recompute.any (fun t => decide (t ≤ s.clk.ns)) then [.routeRecompute] else []) ++
  (if s.spire.boot.lockWait.any (fun t => decide (t ≤ s.clk.ns)) then [.bootLockTimeout] else []) ++
  dueOf s.spire.rails (fun r => r.busy && decide (r.doneAt ≤ s.clk.ns)) .railSlewDone ++
  (if s.clk.ns < s.spire.scanAt then [] else [.spireBankScan]) ++
  (if s.trace.en then [.traceSample] else [])

/-- The events that may be due, in the order in which the model takes them.
DESIGN CHOICE, log entry 1.
DESIGN CHOICE, log entry 26. -/
def State.agenda (s : State) : List Instr :=
  s.coreEvents ++ s.unitEvents ++ s.faultEvents ++ s.hubEvents ++ s.outerEvents

/-- The first event of a list that changes the state, and the state that it makes. -/
def State.firstOf (s : State) : List Instr → Option State
  | [] => none
  | i :: rest =>
    match exec i s with
    | .next t => if t = s then s.firstOf rest else some t
    | _ => s.firstOf rest

/-- An arrival that waits here is looked at again. -/
def State.lookAgain (s : State) : Inbound → Res
  | .op o => if s.remoteWaits o then .next s else execRemoteOpReceive o s
  | .pk q => execPkRequestReceive q s

/-- The state that the first arrival makes which waits here no longer. -/
def State.firstWaiting (s : State) : List Inbound → Option State
  | [] => none
  | x :: rest =>
    if s.firstInLine x then
      match s.lookAgain x with
      | .next t => if t = s then s.firstWaiting rest else some t
      | _ => s.firstWaiting rest
    else s.firstWaiting rest

/-- The state that the first thing makes which is due and changes the state: an event, else an arrival that waits here. -/
def State.nextDue (s : State) : Option State :=
  match s.firstOf s.agenda with
  | some t => some t
  | none => s.firstWaiting s.net.waiting

/-! ### A step -/

/-- The reads that a lane's replay kept pending end once it has issued, which `old` had not (R91). -/
def State.endReplay (old s : State) (g l : Nat) : State :=
  match ((old.group g).thread l).replays with
  | r :: rest => if ((s.group g).thread l).replays.length ≤ rest.length then foldS r.holds s (fun s x => s.freeMapping (s.coreOf g) g x)
      else s
  | [] => s

/-- The reads that the replays of a split's threads kept pending end once they have issued. -/
def State.endReplays (old : State) (is : Issue) (s : State) : State :=
  foldS is.members s (fun s m =>
    if (lanesOf m.lanes).all (fun l => (((old.group m.gid).thread l).replay).isNone) then s
    else foldS (lanesOf m.lanes) s (fun s l => old.endReplay s m.gid l))

/-- What a partition picked is done. -/
def State.doPick (s : State) : Pick → Host.Outcome State Fault Refusal
  | .issue i is => match exec i (s.issuing is) with
    | .next t => .next (s.endReplays is t)
    | x => x
  | .fault g m pc c a => .next (s.parkFetch g m pc c a)
  | .hit g => execMatchPointHit g s

/-- A step with nothing scheduled from outside: an event that is due, else an instruction that issues, else the cycle
ends. -/
def State.runInner (s : State) : Host.Outcome State Fault Refusal :=
  match s.nextDue with
  | some t => .next t
  | none => match s.pick with
    | some (_, k) => s.doPick k
    | none => .next s.tick

/-- The rest of the schedule. -/
def State.unschedule (s : State) : State := { s with env := { s.env with sched := s.env.sched.tail } }

/-- A step chosen from outside: an event of the table, not an instruction of a program; an issue of one partition, once those below it in its cluster have issued; a
fetch that takes one more cycle; the end of the cycle, once no partition can issue. An issue and the end of the cycle come
after what has a fixed time, for which the choice stands. -/
def State.chosen (s : State) : Choice → Host.Outcome State Fault Refusal
  | .event i => if (encode i).isNone then exec i s.unschedule else .next s.unschedule
  | .issue p => match s.firstOf s.timedEvents, s.pickUpTo p with
    | some t, _ => .next t
    | none, some (q, k) => (if q = p then s.unschedule else s).doPick k
    | none, none => .next s.unschedule
  | .miss p => .next (s.unschedule.modPart p (fun P => { P with fetchAt := s.clk.ac + 1 }))
  | .cycle => match s.firstOf s.timedEvents, s.pick with
    | some t, _ => .next t
    | none, some (_, k) => s.doPick k
    | none, none => .next s.unschedule.tick

/-- One step: the head of the schedule, or the machine's own next step. -/
def State.runStep (s : State) : Host.Outcome State Fault Refusal :=
  let s := { s with issue := none }
  match s.env.sched with
  | c :: _ => s.chosen c
  | [] => s.runInner

/-! ### A state that runs one given instruction -/

/-- The region of the placed instruction: world N, and the translation root at 0x4000. -/
def probeRegion : Region := { (default : Region) with rcb := 0x100, asid := 1, troot := 0x4000, defAllot := 256 }

/-- Its bundle: one block of one group of 128 threads, which start at 0x10004. -/
def probeLaunch : Launch :=
  { (default : Launch) with
    region := probeRegion, cls := 1, deadline := 2 ^ 40, budget := 2 ^ 40, t := 16384, g := 1, k := 1
    waitBlocks := [(0, (0, 1))]
    bundle := { (default : Bundle) with
      blocks := 1, deadline := 2 ^ 40, budget := 2 ^ 40, subs := [⟨0x10004, 0, 1, 256, 16384, 384⟩] } }

/-- Tables that map the first 2 MiB of an address space onto themselves, readable, writable and executable (R148). -/
def probeTables (m : List Host.Cell) : List Host.Cell :=
  let m := memWrite m 0x4000 (leBytes 8 0x5001)
  let m := memWrite m 0x5000 (leBytes 8 0x6001)
  memWrite m 0x6000 (leBytes 8 0x1F)

/-- The state with a bundle's bytes at 0x10000 and one group that stands ready to issue from there. -/
def State.placeBytes (s : State) (b : List Byte) : State :=
  let s := { s with
    issue := none
    env := { s.env with sched := [] }
    mem := memWrite (probeTables s.mem) 0x10000 b
    flight := ⟨[], [], [], [], [], [], [], [], []⟩
    groups := [], blocks := [], cores := [], parts := [], mats := []
    belfry := { s.belfry with launches := [(0, probeLaunch)], queues := [], servers := [], procs := [] }
    faults := ⟨[]⟩, copies := ⟨[], []⟩
    spire := { s.spire with boot := { s.spire.boot with released := 7, failed := false, lockWait := none, inReset := [], tempHold := false } } }
  s.startBlock 0 0 [0] false false

/-- The state whose next step fetches and runs a table word. -/
def State.placeWord (s : State) (nbits w : Nat) : State := s.placeBytes (tableBundle nbits w)

end Sys2Proof.Machine
end

