-- ==== Sys2Proof/Safety.lean ====
section
/-! DEFINITION. The terms in which claims are made: what counts as a safe run, what an issue finds, and what a step may
change and leaves as it was. -/
namespace Sys2Proof.Machine

/-! ### Safe runs -/

/-- The invariants of a run: memory is in canonical form, the part of a nanosecond gained is below one, and the steering
of the campanile stays within 200 parts per million (R324). -/
structure Inv (s : State) : Prop where
  mem : memWf s.mem = true
  frac : s.clk.frac < 18000000
  low : -200 ≤ s.clk.ppm
  high : s.clk.ppm ≤ 200

/-- The machine does not stop within `n` steps: no step faults and none is refused. -/
def RunsFor (n : Nat) (s : State) : Prop := ∃ t, core.run n s = .next t

/-! ### What an issue finds -/

/-- The split of one group that is left after the checks of an issue (R67, R95, R308) stands in state `s` to execute its
instruction: its active threads are threads of it, and none of its threads replays. -/
structure Issues (s : State) (is : Issue) (m : Member) : Prop where
  issue : s.issue = some is
  alone : is.members = [m]
  there : (tget s.groups m.gid).isSome = true
  inside : m.act &&& ~~~m.lanes = 0
  fresh : ∀ l, m.lanes.getLsbD l = true → ((s.group m.gid).thread l).replay = none

/-- The allotment and the pool give the split the registers that its destinations need (R96, R98). -/
def PoolGives (i : Instr) (s : State) (is : Issue) (m : Member) : Prop :=
  ∀ n, n ≤ (opnds i).vd.length → (s.releaseSrcs m.gid is.wb (opnds i) m.act).poolSays m.gid n (.split is.pc is.wb) = .ok

/-- A fixed-latency vector instruction of one group runs: the pool gives registers, no mismatch is to come (R311), and no
lane raises an enabled exception (R126). `out` is what each lane computes. -/
structure VecRuns (i : Instr) (s : State) (is : Issue) (m : Member) (out : Nat → LaneOut) : Prop where
  issues : Issues s is m
  pool : PoolGives i s is m
  match_ : s.env.sdc = 0
  calm : ∀ l, m.act.getLsbD l = true → trapSub (s.regionOf m.gid).trapen (out l).flags = 0

/-- A split of several groups that is left after the checks of an issue (R82, R84): each group once, its active threads are
threads of it, and none of its threads replays. -/
structure JoinedIssues (s : State) (is : Issue) : Prop where
  issue : s.issue = some is
  apart : (is.members.map Member.gid).Nodup
  there : ∀ m, m ∈ is.members → (tget s.groups m.gid).isSome = true
  inside : ∀ m, m ∈ is.members → m.act &&& ~~~m.lanes = 0
  fresh : ∀ m l, m ∈ is.members → m.lanes.getLsbD l = true → ((s.group m.gid).thread l).replay = none

/-! ### What a step leaves as it was -/

/-- A group without its rename table, the releases that an engine holds back and its debt of releases (R90, R210, R239). -/
def Group.bare (G : Group) : Group := { G with map := [], leaving := [], regs := { G.regs with owe := 0 } }
/-- A block without its accounts of registers (R238). -/
def Block.bare (b : Block) : Block := { b with free := 0, ghosts := [] }
/-- A core without its pools (R90, R93, R98). -/
def Core.bare (c : Core) : Core := { c with pool := [], unif := [], pwait := [] }
/-- A partition without the hold of its issue slot (R312). -/
def Part.bare (p : Part) : Part := { p with hold := 0 }
/-- The mapping of a name, its live lanes aside (R90). -/
def Group.mappingOf (G : Group) (n : Nat) : Option Mapping := (tget G.map n).map MapEntry.map

/-- The names whose last-use bit an instruction sets (R72). -/
def releasedNames (s : State) (i : Instr) (g : Nat) (wb : BitVec 9) : List Nat :=
  ((opnds i).vs.filter (·.last)).flatMap (fun v => v.fields.map (s.fieldName g wb))

/-- What lies outside the cores' registers and the groups is as it was. -/
structure Outside (s t : State) : Prop where
  clk : t.clk = s.clk
  mem : t.mem = s.mem
  mats : t.mats = s.mats
  belfry : t.belfry = s.belfry
  copies : t.copies = s.copies
  faults : t.faults = s.faults
  net : t.net = s.net
  spire : t.spire = s.spire
  trace : t.trace = s.trace
  blocks : ∀ b, (tget t.blocks b).map Block.bare = (tget s.blocks b).map Block.bare
  cores : ∀ c, (t.core c).bare = (s.core c).bare
  parts : ∀ p, (t.part p).bare = (s.part p).bare

/-- The active lanes of the split leave the masks of the names whose last-use bit its instruction sets, and a name whose mask
is empty maps nothing any more (R72, R92). A name that an engine is still to read keeps them until then (R210). -/
def FreesSources (i : Instr) (s t : State) (is : Issue) (m : Member) : Prop :=
  ∀ n e, n ∈ releasedNames s i m.gid is.wb → n < shadowName → tget (s.group m.gid).map n = some e →
    s.engineHolds m.gid e.map = false →
    tget (t.group m.gid).map n = (if e.mask &&& ~~~m.act = 0 then none else some { e with mask := e.mask &&& ~~~m.act })

/-- A group without what an operation in flight keeps in it besides: the scoreboard (R68). -/
def Group.still (G : Group) : Group := { G.bare with sb := [] }

/-- The frame of an instruction of group `g` that releases the names `rel` and puts an operation in flight: memory, the
other groups' registers and threads, the group's scalars, predicates, windows, loop stacks and group registers, and every
name but those released and those that share a register with one of them, are as they were. -/
structure GroupFrame (g : Nat) (rel : List Nat) (s t : State) : Prop where
  outside : Outside s t
  others : ∀ h, h ≠ g → (tget t.groups h).map Group.still = (tget s.groups h).map Group.still
  otherMaps : ∀ h, h ≠ g → (t.group h).map = (s.group h).map
  scalars : ∀ r, t.scalar g r = s.scalar g r
  scalPoison : (t.group g).scalPoison = (s.group g).scalPoison
  preds : ∀ l, l < 128 → ((t.group g).thread l).preds = ((s.group g).thread l).preds
  window : ∀ l, l < 128 → ((t.group g).thread l).wb = ((s.group g).thread l).wb
  stack : ∀ l, l < 128 → ((t.group g).thread l).stack = ((s.group g).thread l).stack
  regs : { (t.group g).regs with owe := 0 } = { (s.group g).regs with owe := 0 }
  names : ∀ n l, n ∉ rel →
    (∀ n', n' ∈ rel → (s.group g).mappingOf n' = none ∨ (s.group g).mappingOf n ≠ (s.group g).mappingOf n') →
    t.readName g n l = s.readName g n l

/-- The frame of a register instruction of group `g` that releases the names `rel`: memory, the other groups, the group's
scalars, predicates, windows, loop stacks and group registers, and every name but those released and those that share a
register with one of them, are as they were; what was pending is still pending. -/
structure RegFrame (g : Nat) (rel : List Nat) (s t : State) : Prop where
  outside : Outside s t
  flight : t.flight = { s.flight with pends := t.flight.pends }
  pending : ∀ id, id < s.env.nextId → tget t.flight.pends id = tget s.flight.pends id
  others : ∀ h, h ≠ g → (tget t.groups h).map Group.bare = (tget s.groups h).map Group.bare
  otherMaps : ∀ h, h ≠ g → (t.group h).map = (s.group h).map
  scalars : ∀ r, t.scalar g r = s.scalar g r
  scalPoison : (t.group g).scalPoison = (s.group g).scalPoison
  preds : ∀ l, l < 128 → ((t.group g).thread l).preds = ((s.group g).thread l).preds
  window : ∀ l, l < 128 → ((t.group g).thread l).wb = ((s.group g).thread l).wb
  stack : ∀ l, l < 128 → ((t.group g).thread l).stack = ((s.group g).thread l).stack
  lane : ∀ l, l < 128 → ((t.group g).thread l).st = ((s.group g).thread l).st
  regs : { (t.group g).regs with owe := 0 } = { (s.group g).regs with owe := 0 }
  fifo : (t.group g).fifo = (s.group g).fifo
  names : ∀ n l, n ∉ rel →
    (∀ n', n' ∈ rel → (s.group g).mappingOf n' = none ∨ (s.group g).mappingOf n ≠ (s.group g).mappingOf n') →
    t.readName g n l = s.readName g n l

/-- The threads of a split go on at the next instruction once its stall has passed (R61, R66, R312). -/
def GoesOn (s t : State) (is : Issue) (m : Member) (extra : Nat) : Prop :=
  ∀ l, l < 128 → m.lanes.getLsbD l = true →
    ((t.group m.gid).thread l).pc = is.next ∧ ((t.group m.gid).thread l).ready = s.clk.ac + 1 + is.stall + extra

/-- A result of the split is pending: for the lanes of its active threads it lands `l` cycles after the issue (R66), and
with it the exceptions `flags` (R125). -/
def Pending (s t : State) (m : Member) (d : Dest) (l : Nat) (val : Nat → Word) (flags : BitVec 6) : Prop :=
  ∃ id p, tget t.flight.pends id = some p ∧ p.gid = m.gid ∧ p.dest = d ∧ p.lanes = m.act ∧
    p.landAt = s.clk.ac + l ∧ p.flags = flags ∧ ∀ k, k < 128 → m.act.getLsbD k = true → laneVal p.vals k = val k

/-- The extra cycle of a checked issue (R312). -/
def checkExtra (s : State) (i : Instr) (is : Issue) : Nat := if s.checkedNow i is then 1 else 0

/-- A scalar result of the split is pending: it lands `l` cycles after the issue (R66), and with it the exceptions
`flags` (R125). -/
def PendingScalar (s t : State) (m : Member) (r l : Nat) (val : Word) (flags : BitVec 6) : Prop :=
  ∃ id p, tget t.flight.pends id = some p ∧ p.gid = m.gid ∧ p.dest = .scal r ∧ p.landAt = s.clk.ac + l ∧
    p.flags = flags ∧ laneVal p.vals 0 = val

/-- The exceptions that the lanes of a mask raise. -/
def lanesFlags (act : Mask) (out : Nat → LaneOut) : BitVec 6 := (lanesOf act).foldl (fun a l => a ||| (out l).flags) 0

/-- The meaning of a fixed-latency scalar instruction of latency `lat`: where a thread is active, destination register `j`
takes value `j` of `k`, which is given the source values in operand order (a pair gives two words, the low one first), and
the exceptions go with the first; where none is, the threads only go on (R103, R128). -/
def ScalMeaning (i : Instr) (lat : Nat) (k : List Word → List Word × BitVec 6) : Prop :=
  ∀ s₀ s is m, s₀.begin_ i (opnds i) = s → Issues s is m →
    ∃ t, exec i s₀ = .next t ∧
      (m.act ≠ 0 → ∀ j r, (opnds i).sd[j]? = some r →
        PendingScalar s t m r lat ((k (s.scalSrcs m.gid (opnds i))).1.getD j 0)
          (if j = 0 then (k (s.scalSrcs m.gid (opnds i))).2 else 0)) ∧
      (m.act = 0 → t.flight.pends = s.flight.pends) ∧
      GoesOn s t is m 0 ∧ RegFrame m.gid [] s t

/-- What a fixed-latency vector instruction of latency `lat` does. -/
structure VecDone (i : Instr) (lat : Nat) (out : Nat → LaneOut) (s t : State) (is : Issue) (m : Member) : Prop where
  vec : m.act ≠ 0 → ∀ j f, (opnds i).vd[j]? = some f →
    Pending s t m (.vec (s.fieldName m.gid is.wb f)) (lat + checkExtra s i is) (fun l => (out l).vals.getD j 0)
      (if j = 0 then lanesFlags m.act out else 0)
  pred : m.act ≠ 0 → ∀ j p, (opnds i).pd[j]? = some p →
    Pending s t m (.pred p) (lat + checkExtra s i is) (fun l => if (out l).preds.getD j false then 1 else 0)
      (if j = 0 && (opnds i).vd.isEmpty then lanesFlags m.act out else 0)
  goesOn : GoesOn s t is m (checkExtra s i is)
  frees : FreesSources i s t is m
  frame : RegFrame m.gid (releasedNames s i m.gid is.wb) s t

/-- The meaning of a fixed-latency vector instruction: from the source values `v` of each active lane, in operand order,
lane `l` of group `g` computes `k g l v`. -/
def VecMeaning (i : Instr) (lat : Nat) (k : State → Nat → Nat → List Word → LaneOut) : Prop :=
  ∀ s₀ s is m, s₀.begin_ i (opnds i) = s → VecRuns i s is m (fun l => k s m.gid l (s.laneSrcs m.gid is.wb (opnds i) l)) →
    ∃ t, exec i s₀ = .next t ∧ VecDone i lat (fun l => k s m.gid l (s.laneSrcs m.gid is.wb (opnds i) l)) s t is m

/-- The meaning of a fixed-latency vector instruction that a split of several groups issues, without last-use bits and where every
destination is written in place: each group's results are computed from its own names and scalars, and its threads go on (R82, R84). -/
def JoinedMeaning (i : Instr) (lat : Nat) (k : State → Nat → Nat → List Word → LaneOut) : Prop :=
  ∀ s₀ s is out, s₀.begin_ i (opnds i) = s → JoinedIssues s is → s.env.sdc = 0 → (∀ v, v ∈ (opnds i).vs → v.last = false) →
    out = (fun (m : Member) l => k s m.gid l (s.laneSrcs m.gid is.wb (opnds i) l)) →
    (∀ m n, m ∈ is.members → n ∈ s.writeNames m.gid is.wb (opnds i) → s.needsPhys m.gid n m.act false = false) →
    (∀ m l, m ∈ is.members → m.act.getLsbD l = true → trapSub (s.regionOf m.gid).trapen (out m l).flags = 0) →
    ∃ t, exec i s₀ = .next t ∧ t.mem = s.mem ∧
      (∀ h, (∀ m, m ∈ is.members → m.gid ≠ h) → tget t.groups h = tget s.groups h) ∧
      ∀ m, m ∈ is.members → GoesOn s t is m (checkExtra s i is) ∧
        (m.act ≠ 0 → ∀ j f, (opnds i).vd[j]? = some f →
          Pending s t m (.vec (s.fieldName m.gid is.wb f)) (lat + checkExtra s i is) (fun l => (out m l).vals.getD j 0)
            (if j = 0 then lanesFlags m.act (out m) else 0)) ∧
        (m.act ≠ 0 → ∀ j p, (opnds i).pd[j]? = some p →
          Pending s t m (.pred p) (lat + checkExtra s i is) (fun l => if (out m l).preds.getD j false then 1 else 0)
            (if j = 0 && (opnds i).vd.isEmpty then lanesFlags m.act (out m) else 0))

/-- A joined vector instruction on A and B, for which a literal `l` stands. -/
def JoinedOn2 (i : Instr) (lat : Nat) (l : Option Word) (f : Bool → Word → Word → LaneOut) : Prop :=
  JoinedMeaning i lat (fun s g _ v => f (s.ftz g) (v.getD 0 0) (l.getD (v.getD 1 0)))
/-- A joined vector instruction on A, B and the old destination. -/
def JoinedOn3 (i : Instr) (lat : Nat) (l : Option Word) (f : Bool → Word → Word → Word → LaneOut) : Prop :=
  JoinedMeaning i lat (fun s g _ v => f (s.ftz g) (v.getD 0 0) (l.getD (v.getD 1 0)) (v.getD (if l.isSome then 1 else 2) 0))

/-- A scalar instruction on its first source and its second, for which a literal `l` stands (R75, R131). -/
def ScalOn2 (i : Instr) (lat : Nat) (l : Option Word) (f : Word → Word → Word × BitVec 6) : Prop :=
  ScalMeaning i lat (fun v => ([(f (v.getD 0 0) (l.getD (v.getD 1 0))).1], (f (v.getD 0 0) (l.getD (v.getD 1 0))).2))
/-- A scalar instruction on its one source, which raises nothing. -/
def ScalOn1 (i : Instr) (lat : Nat) (f : Word → Word) : Prop := ScalMeaning i lat (fun v => ([f (v.getD 0 0)], 0))
/-- A scalar instruction on two pairs, for the second of which a literal, sign-extended, stands (R132). -/
def ScalOnPairs (i : Instr) (lat : Nat) (l : Option Word) (f : Wide → Wide → Wide) : Prop :=
  ScalMeaning i lat (fun v =>
    let r := f (wideOf (v.getD 1 0) (v.getD 0 0)) ((l.map (BitVec.signExtend 64)).getD (wideOf (v.getD 3 0) (v.getD 2 0)))
    ([loWord r, hiWord r], 0))
/-- A vector instruction on A and B, for which a literal `l` stands; `z` is the FTZ of the group's region. -/
def VecOn2 (i : Instr) (lat : Nat) (l : Option Word) (f : Bool → Word → Word → LaneOut) : Prop :=
  VecMeaning i lat (fun s g _ v => f (s.ftz g) (v.getD 0 0) (l.getD (v.getD 1 0)))
/-- A vector instruction on A, B and the old destination. -/
def VecOn3 (i : Instr) (lat : Nat) (l : Option Word) (f : Bool → Word → Word → Word → LaneOut) : Prop :=
  VecMeaning i lat (fun s g _ v => f (s.ftz g) (v.getD 0 0) (l.getD (v.getD 1 0)) (v.getD (if l.isSome then 1 else 2) 0))
/-- A vector instruction on A. -/
def VecOn1 (i : Instr) (lat : Nat) (f : Bool → Word → LaneOut) : Prop :=
  VecMeaning i lat (fun s g _ v => f (s.ftz g) (v.getD 0 0))

/-! ### Waiting instructions -/

/-- The active threads of the split wait at an instruction of kind `k`, in its scoreboard slot (R68, R81), and its threads
stand at the next instruction. -/
structure WaitDone (k : WaitKind) (extra : Nat) (s t : State) (is : Issue) (m : Member) : Prop where
  wait : ∃ id w, tget t.flight.waits id = some w ∧ w.gid = m.gid ∧ w.lanes = m.act ∧ w.kind = k ∧ w.slot = varSlot is ∧
    w.pc = is.pc
  waiting : ∀ l, l < 128 → m.act.getLsbD l = true → ((t.group m.gid).thread l).st = .waiting
  goesOn : GoesOn s t is m extra
  frame : GroupFrame m.gid [] s t

/-! ### Instructions whose effect is at once -/

/-- Nothing but group `g` and its partition's shadow registers (R301) differs. -/
def OnlyGroup (g : Nat) (s t : State) : Prop :=
  t = { s with groups := t.groups, parts := t.parts } ∧ ∀ h, h ≠ g → tget t.groups h = tget s.groups h

/-- The active threads of the split go on at a target, each at its own, and the others at the next instruction (R144). -/
def Branched (s t : State) (is : Issue) (m : Member) (target : Nat → Wide) : Prop :=
  ∀ l, l < 128 → m.lanes.getLsbD l = true →
    ((t.group m.gid).thread l).pc = (if m.act.getLsbD l then target l else is.next) ∧
    ((t.group m.gid).thread l).ready = s.clk.ac + 1 + is.stall

/-- The active threads of the split take a new window and loop stack, every thread of it goes on at the next instruction,
and no other thread, register or byte changes (R89). -/
structure Rewindowed (s t : State) (is : Issue) (m : Member) (wb : Thread → Nat) (stack : Thread → List (BitVec 9)) :
    Prop where
  goesOn : GoesOn s t is m 0
  only : OnlyGroup m.gid s t
  window : ∀ l, l < 128 → m.act.getLsbD l = true →
    ((t.group m.gid).thread l).wb.toNat = wb ((s.group m.gid).thread l) ∧
    ((t.group m.gid).thread l).stack = stack ((s.group m.gid).thread l)
  others : ∀ l, l < 128 → m.act.getLsbD l = false →
    ((t.group m.gid).thread l).wb = ((s.group m.gid).thread l).wb ∧
    ((t.group m.gid).thread l).stack = ((s.group m.gid).thread l).stack
  regs : (t.group m.gid).regs = (s.group m.gid).regs
  map : (t.group m.gid).map = (s.group m.gid).map
  scal : (t.group m.gid).scal = (s.group m.gid).scal

/-- An instruction writes the scalars `set` at once and its threads go on (R103, R128); every other scalar, the predicates,
windows, names and group registers, the other groups and all else are as they were. -/
structure SetsScalars (set : List (Nat × Word)) (s t : State) (is : Issue) (m : Member) : Prop where
  goesOn : GoesOn s t is m 0
  only : OnlyGroup m.gid s t
  written : ∀ e, e ∈ set → t.scalar m.gid e.1 = e.2
  kept : ∀ r, r < 128 → r ∉ set.map Prod.fst → t.scalar m.gid r = s.scalar m.gid r
  regs : (t.group m.gid).regs = (s.group m.gid).regs
  map : (t.group m.gid).map = (s.group m.gid).map
  preds : ∀ l, l < 128 → ((t.group m.gid).thread l).preds = ((s.group m.gid).thread l).preds
  window : ∀ l, l < 128 → ((t.group m.gid).thread l).wb = ((s.group m.gid).thread l).wb

/-- An instruction changes group registers only (R294), and its threads go on. -/
structure SetsRegs (f : GroupRegs → GroupRegs) (s t : State) (is : Issue) (m : Member) : Prop where
  goesOn : GoesOn s t is m 0
  only : OnlyGroup m.gid s t
  regs : (t.group m.gid).regs = f (s.group m.gid).regs
  map : (t.group m.gid).map = (s.group m.gid).map
  scal : (t.group m.gid).scal = (s.group m.gid).scal
  preds : ∀ l, l < 128 → ((t.group m.gid).thread l).preds = ((s.group m.gid).thread l).preds

/-- The active threads of the split park at the instruction with one record of a cause (R81, R268): it names the
group's launch, its index, the PC, and the lanes; the other threads go on. Memory is as it was. -/
structure ParksWith (c : Cause) (s t : State) (is : Issue) (m : Member) : Prop where
  record : ∃ id r, tget t.faults.recs id = some r ∧ r.kind = c.1 ∧ r.sub = c.2 ∧
    r.pc = is.pc ∧ r.origin = .lanes m.gid m.act ∧ r.launch = some (s.group m.gid).id.launch ∧
    r.group = (s.group m.gid).id.index ∧ r.state = 0 ∧ r.time = s.clk.ns ∧
    ∀ l, l < 128 → m.act.getLsbD l = true →
      ((t.group m.gid).thread l).st = .parked ∧ ((t.group m.gid).thread l).pc = is.pc ∧
      (((t.group m.gid).thread l).replay.map Replay.record) = some id
  on : ∀ l, l < 128 → m.lanes.getLsbD l = true → m.act.getLsbD l = false → ((t.group m.gid).thread l).pc = is.next
  mem : t.mem = s.mem
  others : ∀ h, h ≠ m.gid → tget t.groups h = tget s.groups h

/-- A wait is over: its instruction is no longer in flight, its threads are live and its slot is clear (R81). -/
structure WaitOver (id : Nat) (w : Wait) (s t : State) : Prop where
  gone : tget t.flight.waits id = none
  kept : ∀ k, k ≠ id → tget t.flight.waits k = tget s.flight.waits k
  live : ∀ l, l < 128 → w.lanes.getLsbD l = true → ((s.group w.gid).thread l).st = .waiting →
    ((t.group w.gid).thread l).st = .live
  slot : w.slot ≠ 0 → tget (t.group w.gid).sb w.slot = none
  mem : t.mem = s.mem
  others : ∀ h, h ≠ w.gid → tget t.groups h = tget s.groups h

/-- A name can take a write: it is no shadow name, the group's registers are in the pool, no matrix operation holds the
name, and its register is another than the one set aside for the write (R90, R91, R94). -/
def WritableName (s : State) (g n : Nat) (resv : Option Nat) : Prop :=
  n < shadowName ∧ (s.group g).run.spilled = false ∧ s.inMatrix g n = false ∧
  ∀ e q, tget (s.group g).map n = some e → e.map = .phys q →
    (tget (s.core (s.coreOf g)).pool q).isSome = true ∧ resv ≠ some q

/-- The bytes of memory that a write of `b` at `a` leaves, and those that it gives (R229): the bytes are these, and every
other byte is as it was. -/
def Stored (s t : State) (a : Nat) (b : List Byte) : Prop :=
  (memWf s.mem = true → ∀ i, i < b.length → memGet t.mem (a + i) = b.getD i 0) ∧
  ∀ c, c < a ∨ a + b.length ≤ c → memGet t.mem c = memGet s.mem c

/-- A write of the device's own at a physical address changes the bytes there: they are memory, outside the weight store, on a page
that is not quarantined (R146, R154, R170). -/
structure TakesOwn (s : State) (a n : Nat) : Prop where
  there : memRun a n = true
  plain : inWeight a = false
  sound : s.quarantined a = false

/-- The bytes of an RCB's OVERRUNS field (R10). -/
def inOverruns (rcb a : Nat) : Prop := rcb + 0xD0 ≤ a ∧ a < rcb + 0xD4

/-- The device-owned words are written back: USED and PSTART of a server, and the OVERRUNS of every region with admitted work;
every other byte is as it was (R10, R46). A word that takes no write of the device's own keeps its bytes (R170). -/
structure UsedStored (rcb used pstart : Nat) (s t : State) : Prop where
  used : memWf s.mem = true → TakesOwn s (rcb + 0xC0) 16 → ∀ i, i < 16 → (∀ e, e ∈ s.belfry.overruns → ¬ inOverruns e.1 (rcb + 0xC0 + i)) →
    memGet t.mem (rcb + 0xC0 + i) = (leBytes 8 used ++ leBytes 8 pstart).getD i 0
  overruns : memWf s.mem = true → ∀ e, e ∈ s.belfry.overruns → s.hasWork e.1 = true → TakesOwn s (e.1 + 0xD0) 4 →
    (∀ x i, x ∈ s.belfry.overruns → x ≠ e → i < 4 → ¬ inOverruns x.1 (e.1 + 0xD0 + i)) →
    ∀ i, i < 4 → memGet t.mem (e.1 + 0xD0 + i) = (leBytes 4 e.2).getD i 0
  rest : ∀ c, c < rcb + 0xC0 ∨ rcb + 0xD0 ≤ c → (∀ e, e ∈ s.belfry.overruns → ¬ inOverruns e.1 c) →
    memGet t.mem c = memGet s.mem c

/-! ### Memory instructions -/

/-- The lanes that a memory instruction acts for: each active one, or the lowest for one that acts once (R178). -/
def actLanes (once : Bool) (m : Member) : List Nat := if once then [lowLane m.act] else lanesOf m.act

/-- A memory instruction of one group runs, and every lane it acts for has its translation and passes its checks (R150,
R173, R174): `addr`, `data` and `pa` are the lanes' addresses, data words and physical addresses. -/
structure MemRuns (i : Instr) (r : MemReq) (once : Bool) (addr : Nat → Wide) (data : Nat → List Word) (pa : Nat → Nat)
    (s : State) (is : Issue) (m : Member) : Prop where
  issues : Issues s is m
  some_ : m.act ≠ 0
  pool : ∀ w n, n ≤ (opnds i).vd.length → (s.releaseSrcs m.gid is.wb (opnds i) w).poolSays m.gid n (.split is.pc is.wb) = .ok
  hits : ∀ l, l ∈ actLanes once m → s.laneCheck r m.gid (addr l) (dataWide (data l)) = .ok (pa l)

/-- What a memory instruction does whose lanes all have their translation: an operation with these lanes is in flight, the
lanes of a store stand at the end of the group's FIFO in ascending order (R172, R221), the threads go on. -/
structure MemDone (i : Instr) (r : MemReq) (once : Bool) (addr : Nat → Wide) (data : Nat → List Word) (pa : Nat → Nat)
    (s t : State) (is : Issue) (m : Member) : Prop where
  op : ∃ id x, tget t.flight.ops id = some x ∧ x.gid = m.gid ∧ x.kind = r.kind ∧ x.mask = m.act ∧ x.size = r.size ∧
    x.scope = r.scope ∧ x.acq = r.acq ∧ x.rel = r.rel ∧ x.slot = varSlot is ∧
    x.dests = s.writeNames m.gid is.wb (opnds i) ∧ x.sdest = (opnds i).sd.head? ∧
    ∀ l, l ∈ actLanes once m → ∃ y, y ∈ x.lanes ∧ y.lane = l ∧ y.addr = addr l ∧ y.pa = some (pa l) ∧ y.data = data l ∧
      y.done = false ∧ y.parked = false ∧ y.cause = none
  fifo : ∃ id q, (t.group m.gid).fifo = (s.group m.gid).fifo ++
    (if r.kind = .store then (actLanes once m).map (fun l =>
      ⟨q, id, l, addr l, some (pa l), storeBytes r.size (data l), r.scope, r.rel⟩) else [])
  goesOn : GoesOn s t is m 0
  frees : once = false → FreesSources i s t is m
  frame : GroupFrame m.gid (releasedNames s i m.gid is.wb) s t

/-- The meaning of an instruction that issues a memory operation, from the state that its start makes of the one it meets. -/
def IssuesOp (start : State → State) (i : Instr) (r : MemReq) (once : Bool) (may : State → Nat → Prop)
    (addr : State → Nat → Nat → Wide) (data : State → Nat → Nat → List Word) : Prop :=
  ∀ s₀ s is m pa, start s₀ = s → may s m.gid → MemRuns i r once (addr s m.gid) (data s m.gid) pa s is m →
    ∃ t, exec i s₀ = .next t ∧ MemDone i r once (addr s m.gid) (data s m.gid) pa s t is m

/-- The meaning of a memory instruction, whose threads that park at its start keep its address and data (R171). -/
def MemMeaning (i : Instr) (r : MemReq) (once : Bool) (may : State → Nat → Prop) (addr : State → Nat → Nat → Wide)
    (data : State → Nat → Nat → List Word) : Prop :=
  IssuesOp (fun s₀ => s₀.memBegin i (opnds i) once addr data) i r once may addr data

/-- The meaning of an instruction that issues a memory operation for its split. -/
def SplitMeaning (i : Instr) (r : MemReq) (may : State → Nat → Prop) (addr : State → Nat → Nat → Wide)
    (data : State → Nat → Nat → List Word) : Prop :=
  IssuesOp (fun s₀ => s₀.begin_ i (opnds i)) i r true may addr data

/-! ### Queue packets -/

/-- The packet of a queue is done with a status (R32, R34, R39): the queue has no packet, the status goes to the completion
word where there is one, and no other queue changes. -/
structure PacketEnded (q st : Nat) (Q : Queue) (p : Packet) (s t : State) : Prop where
  gone : (t.queue q).packet = none
  silent : p.compl = 0 → st < 5 → t.mem = s.mem
  told : ∀ u, p.compl ≠ 0 → p.compl.toNat % 8 = 0 → s.belfryWrite Q.space p.compl.toNat (complWord s st) = .ok u →
    t.mem = u.mem
  others : ∀ k, k ≠ q → tget t.belfry.queues k = tget s.belfry.queues k

/-- The packet of a queue becomes `p` (R38), and no byte of memory and no other queue changes. -/
structure PacketIs (q : Nat) (p : Packet) (s t : State) : Prop where
  packet : (t.queue q).packet = some p
  mem : t.mem = s.mem
  others : ∀ k, k ≠ q → tget t.belfry.queues k = tget s.belfry.queues k

/-- A store of a packet's step: the bytes stand in the queue's address space as `u` has them, and the packet is at its
next step (R34, R38). -/
structure PacketStored (q : Nat) (p : Packet) (u s t : State) : Prop where
  packet : (t.queue q).packet = some { p with step := p.step + 1 }
  mem : t.mem = u.mem
  others : ∀ k, k ≠ q → tget t.belfry.queues k = tget s.belfry.queues k

end Sys2Proof.Machine
end

