-- ==== Sys2Proof/WellFormed.lean ====
section
/-! DEFINITION. Which terms of Instr stand for words of the spec: the fields that select the row hold the row's values,
and every check of the entry passes (R74, R77). -/
namespace Sys2Proof

/-- The fields that select an instruction's row among those of its opcode hold the row's values (R74 and the entries). -/
def selOk : Instr → Bool
  | .retScalar f => f.m = 0#2
  | .retVector f => f.m = 1#2
  | .pkrdRec f _ => f.b = 0#7 && f.m = 0#2
  | .pkrdReg f _ => f.b = 0#7 && f.m = 1#2
  | .pkrdRpl f _ => f.b = 0#7 && f.m = 2#2
  | .pkwrRec f _ => f.b = 1#7 && f.m = 0#2
  | .pkwrReg f _ => f.b = 1#7 && f.m = 1#2
  | .pkwrRpl f _ => f.b = 1#7 && f.m = 2#2
  | .pkres f => f.b = 2#7
  | .pkrty f => f.b = 3#7
  | .pkdir f _ => f.b = 4#7
  | .pkkil f => f.b = 5#7
  | .ctopen f _ => f.b = 0#7
  | .srdGrp f _ => f.b = 0#7 && f.m = 0#2
  | .swrGrp f _ => f.b = 1#7 && f.m = 0#2
  | .srdSys f _ => f.b = 0#7 && f.m = 1#2
  | .swrSys f _ => f.b = 1#7 && f.m = 1#2
  | .srdSysB64 f _ => f.b = 0#7 && f.m = 2#2
  | .swrSysB64 f _ => f.b = 1#7 && f.m = 2#2
  | .rdid f => f.b = 2#7
  | .rdtime f => f.b = 3#7
  | .trap f => f.b = 0#7
  | .pstop f _ => f.b = 0#7
  | .pmset f => f.b = 1#7
  | .ftest f => f.b = 0#7
  | .chkset f => f.b = 1#7 && f.m = 0#2
  | .chksetRestore f => f.b = 1#7 && f.m = 1#2
  | .reggive f => f.b = 0#7
  | .reggiveLiteral f _ => f.b = 0#7
  | .regclaim f => f.b = 1#7
  | .regclaimLiteral f _ => f.b = 1#7
  | .role f => f.b = 2#7
  | .phpost f => f.b = 3#7
  | .iminScalar f _ => f.m.getLsbD 0 = false
  | .imaxScalar f _ => f.m.getLsbD 0 = true
  | .movVector f => f.m = 0#2
  | .movVectorBroadcast f => f.m = 1#2
  | .movVectorB64 f => f.m = 2#2
  | .voteAll f => f.m = 0#2
  | .voteAny f => f.m = 1#2
  | .voteBallot f => f.m = 2#2
  | .pmov f => f.m = 0#2
  | .pmovNz f => f.m = 1#2
  | .pmovBit f => f.m = 2#2
  | .barv f => f.m = 0#2
  | .bexp f => f.m = 1#2
  | .bexpLiteral f _ => f.m = 1#2
  | .bwait f => f.m = 2#2
  | .btest f => f.m = 3#2
  | .mbw f => f.m = 0#2
  | .mbr f => f.m = 1#2
  | .mbp f => f.m = 2#2
  | .cpsub f _ => f.m = 0#2
  | .cpwp f _ => f.m = 1#2
  | .cpwpRaw f _ => f.m = 3#2
  | .cpwait f _ => f.m = 2#2
  | .mma f _ => f.m = 0#2
  | .mmag f _ => f.m = 0#2
  | .mmab f _ => f.m = 1#2
  | .kdef f => f.m = 0#2
  | .macz f => f.m = 1#2
  | .mwait f => f.m = 2#2
  | .tdef f => f.m = 0#2
  | .tqry f => f.m = 1#2
  | .binrun f => f.m = 2#2
  | .susp f => f.m = 0#2
  | .wakeScalar f => f.m = 1#2
  | .wakeVector f => f.m = 2#2
  | .twakeq f _ => f.m = 0#2
  | .tapply f _ => f.m = 1#2
  | _ => true

/-- A term that stands for words of the spec. Rows that are steps have no words and are never well formed. -/
def Instr.wf (i : Instr) : Bool := (encode i).isSome && selOk i && (check i true).isNone

/-- A well-formed instruction. -/
abbrev WellFormed (i : Instr) : Prop := i.wf = true

end Sys2Proof
end

