-- ==== Sys2Proof/Certificates/Slice0/Obligations.lean ====
section
/-! DEFINITION. The statements made of the model, each from the rules that it names. -/
open Sys2Proof Sys2Proof.Machine

/-- Words written out in the spec decode to their instructions. The words that the spec writes out decode to the
instructions they stand for: the branch of R62 (0x03FFFFFC, offset -4), the move with a literal and the add of the
worked bundle after R76 (0x8A140000 with 0x12345678, 0x590182F3), NOP as the zero word, EXIT, and the whole worked
bundle with its control word 0x40700107, whose slot 0 is the move at two slots and whose slot 2 is the add; an opcode
that R73 shows as a dash and the reserved KIND are refused by name. (R62, R64, R70, R73, R75, R76, R144) -/
def Obligations.DecodesSpecWords : Prop :=
  decodeWord 0x03FFFFFC#32 none = .ok (.bra ⟨0x1FFFFFC#25⟩ none) ∧
  decodeWord 0x8A140000#32 (some 0x12345678#32) = .ok (.movVectorImm ⟨5#7, 0#18⟩ (some 0x12345678#32)) ∧
  decodeWord 0x590182F3#32 none = .ok (.iaddVector ⟨true, false, 0#2, 6#7, 5#7, 0x73#7⟩ none) ∧
  decodeWord 0#32 none = .ok .nop ∧
  decodeWord 0x0E000000#32 none = .ok .exit ∧
  (decodeBundle (leBytes 4 0x40700107 ++ leBytes 4 0x8A140000 ++ leBytes 4 0x12345678 ++ leBytes 4 0x590182F3) 0).map
    (fun x => (x.1, x.2.slots)) = .ok (.movVectorImm ⟨5#7, 0#18⟩ (some 0x12345678#32), 2) ∧
  (decodeBundle (leBytes 4 0x40700107 ++ leBytes 4 0x8A140000 ++ leBytes 4 0x12345678 ++ leBytes 4 0x590182F3) 2).map
    (fun x => (x.1, x.2.slots)) = .ok (.iaddVector ⟨true, false, 0#2, 6#7, 5#7, 0x73#7⟩ none, 1) ∧
  decodeBundle (leBytes 4 0x40700107 ++ leBytes 4 0x8A140000 ++ leBytes 4 0x12345678 ++ leBytes 4 0x590182F3) 1 =
    .error .target ∧
  decodeWord 0x10000000#32 none = .error .opcode ∧
  decodeBundle (leBytes 4 0xC0000007 ++ List.replicate 12 0) 0 = .error .kind

/-- Decoding the encoding of a well-formed instruction gives it back. For every well-formed instruction that has an
encoding, of every row of the opcode table, and with every operand at every value that the encoding admits, decoding
the encoded word (and its second word, where it has one) gives the instruction back. (R70, R73, R74, R75, R76) -/
def Obligations.EncodedInstructionDecodes : Prop :=
  ∀ i w l, i.wf = true → encode i = some (w, l) → decodeWord w l = .ok i

/-- A word that decodes is the encoding of what it decodes to. Every word (with or without a second word) that decodes to
an instruction is that instruction's encoding, bit for bit, and the instruction is well-formed: no bit of a word is
dropped and two words never share an instruction, but for a literal beside INEG, BITS and CVTI, which R131 lets stand
in a wide pair. Beside INEG it has no effect, and the word decodes as it does without it; beside BITS and CVTI it
stands for the field B, and the word decodes as the one does that has the literal there (the reading of log entry 11).
(R70, R73, R74, R75, R76, R77, R131) -/
def Obligations.DecodedInstructionEncodes : Prop :=
  ∀ w l i, decodeWord w l = .ok i → i.wf = true ∧
    (l = none ∨ opOf w ≠ 0x39#7 ∧ opOf w ≠ 0x22#7 ∧ opOf w ≠ 0x3A#7 ∧ opOf w ≠ 0x3B#7 → encode i = some (w, l)) ∧
    (∀ v, l = some v → opOf w = 0x39#7 → decodeWord w none = .ok i ∧ encode i = some (w, none)) ∧
    (∀ v, l = some v → opOf w = 0x22#7 ∨ opOf w = 0x3A#7 ∨ opOf w = 0x3B#7 → v.toNat < 128 ∧
      decodeWord (trWord (opOf w) { trOf w with b := v.setWidth 7 }) none = .ok i ∧
      encode i = some (trWord (opOf w) { trOf w with b := v.setWidth 7 }, none))

/-- A step runs the instruction that the bytes at the leader's PC decode to. With nothing scheduled from outside and
nothing due (log entry 1), let p be the first partition, in order, with something to do, let its issue slot be free,
its fetch have come and its turn among the partitions of its cluster not have passed, and let its leader's split stand
at a PC whose sixteen bytes, read by translation with execute permission, decode to i in that slot. If no match point
holds the PC, the step is exec of i at the state that accounts the issue, with the split's members, the PC, the next
PC, the window, STALL and SBSET as the slot's control field gives them; where a thread of the split replays, the step
also ends the reads that its record held back (R91). If the bytes do not decode, or cannot be fetched, the step parks
the split with the fault that R63 and R77 name. (R61, R63, R82, R85, R87, R91) -/
def Obligations.StepRunsDecodedInstruction : Prop :=
  ∀ (s : State) (pre post : Tab Part) (p : Nat) (P : Part) (g : Nat) (pc : Wide) (wb : BitVec 9) (m : Mask) (k : Nat),
    s.issue = none → s.env.sched = [] → s.nextDue = none →
    s.parts = pre ++ (p, P) :: post → (∀ e, e ∈ pre → s.pickPart e.1 = none) →
    (s.part p).hold ≤ s.clk.ac → (s.part p).fetchAt ≤ s.clk.ac → s.passed p = false → s.leaderOf p = some (g, pc, wb, m) → slotOfPc pc.toNat = some k →
    (∀ b i sl, s.fetchBytes g pc = .ok b → decodeBundle b k = .ok (i, sl) → s.pointAt g pc = none →
      ((∀ x, x ∈ (s.makeIssue p g pc wb m i sl).members → ∀ l, l < 128 → x.lanes.getLsbD l = true →
          ((s.group x.gid).thread l).replay = none) →
        step s = exec i (s.issuing (s.makeIssue p g pc wb m i sl))) ∧
      (∀ t, exec i (s.issuing (s.makeIssue p g pc wb m i sl)) = .next t →
        step s = .next (s.endReplays (s.makeIssue p g pc wb m i sl) t)) ∧
      (s.makeIssue p g pc wb m i sl).pc = pc ∧
        (s.makeIssue p g pc wb m i sl).next = nextPc pc sl.slots ∧
        (s.makeIssue p g pc wb m i sl).stall = fld sl.ctl 7 3 ∧ (s.makeIssue p g pc wb m i sl).sbset = fld sl.ctl 4 3 ∧
        (s.makeIssue p g pc wb m i sl).leader = ⟨g, m, s.guardMask g m (sl.ctl.extractLsb' 0 4)⟩) ∧
    (∀ b e, s.fetchBytes g pc = .ok b → decodeBundle b k = .error e →
      step s = .next (s.parkFetch g m pc (kIllegal, e.code) 0)) ∧
    (∀ c, s.fetchBytes g pc = .error c →
      step s = .next (s.parkFetch g m pc c (BitVec.ofNat 64 (pc.toNat / 16 * 16))))

/-- What a step does when an event is scheduled or due, or when nothing is. The model's order of its agents (log entry 1,
a DESIGN CHOICE): an event at the head of the schedule is taken first; an instruction of a program there is dropped,
since only its partition issues one; a choice of a partition's issue, or of the end of the cycle, is taken once no
event of a fixed time is left, though other events be due. The choice of an issue stands while a lower partition of
its cluster has something to do, which then comes first, and is dropped where neither has; the choice of the end of
the cycle stands while any partition has something to do, which then comes first. A choice may let a partition's fetch
come one cycle later. With an empty schedule the first thing due that changes the state is taken, an event of the
agenda or an arrival that waits; when there is none and no partition has anything to do, the arithmetic cycle ends:
the cycle count goes up by one and the time in ns by the whole ns that have been gained, at the rate of log entry 21
(DEDUCED). (R1, R3, R83) -/
def Obligations.StepTakesScheduledEvent : Prop :=
  (∀ (s : State) i rest, s.env.sched = .event i :: rest → encode i = none →
    step s = exec i { s with issue := none, env := { s.env with sched := rest } }) ∧
  (∀ (s : State) i rest, s.env.sched = .event i :: rest → (encode i).isSome = true →
    step s = .next { s with issue := none, env := { s.env with sched := rest } }) ∧
  (∀ (s u : State) p rest, s.issue = none → s.env.sched = .issue p :: rest → u = { s with env := { s.env with sched := rest } } →
    (∀ t, s.firstOf s.timedEvents = some t → step s = .next t) ∧
    (s.firstOf s.timedEvents = none → s.pickUpTo p = none → step s = .next u) ∧
    (∀ q i is t, s.firstOf s.timedEvents = none → s.pickUpTo p = some (q, .issue i is) → q ≠ p →
      exec i (s.issuing is) = .next t → step s = .next (s.endReplays is t)) ∧
    (∀ i is t, s.firstOf s.timedEvents = none → s.pickUpTo p = some (p, .issue i is) → exec i (u.issuing is) = .next t →
      step s = .next (u.endReplays is t))) ∧
  (∀ (s : State) p rest, s.issue = none → s.env.sched = .miss p :: rest → ∃ t, step s = .next t ∧
    (t.part p).fetchAt = s.clk.ac + 1 ∧ t.env.sched = rest ∧ t.clk = s.clk ∧ t.groups = s.groups ∧ t.mem = s.mem) ∧
  (∀ (s u : State) rest, s.issue = none → s.env.sched = .cycle :: rest → u = { s with env := { s.env with sched := rest } } →
    (∀ t, s.firstOf s.timedEvents = some t → step s = .next t) ∧
    (∀ q i is t, s.firstOf s.timedEvents = none → s.pick = some (q, .issue i is) → exec i (s.issuing is) = .next t →
      step s = .next (s.endReplays is t)) ∧
    (s.firstOf s.timedEvents = none → s.pick = none → step s = .next u.tick)) ∧
  (∀ (s t : State), s.issue = none → s.env.sched = [] → s.nextDue = some t → step s = .next t) ∧
  (∀ (s : State), s.nextDue = (match s.firstOf s.agenda with
    | some t => some t
    | none => s.firstWaiting s.net.waiting)) ∧
  (∀ (s : State), s.issue = none → s.env.sched = [] → s.nextDue = none → s.pick = none →
    step s = .next s.tick ∧ s.tick.clk.ac = s.clk.ac + 1 ∧
      s.tick.clk.ns = s.clk.ns + (s.clk.frac + (5000000 + 5 * s.clk.ppm).toNat) / 18000000)

/-- No step of the machine ends in a fault or a refusal. Whatever the state, the step gives a next state: every fault that
the spec names parks work and is delivered as a record, and no instruction or event stops the machine. (R77, R78,
R265) -/
def Obligations.StepNeverStops : Prop := ∀ s, ∃ t, step s = .next t

/-- What reset leaves. At reset no unit is released and every unit is in reset; no queue of sys.QREG is valid and its
entries read 0; error banks read 0; TRCTL reads 0, and so do the other words of the trace control block, for which the
spec gives no reset value (log entry 4, DESIGN CHOICE); sys.WSREFRESH reads its four values; M is 0 and its log empty;
no group, block, launch, copy or record is live. Memory lists nothing (a byte nothing has written reads 0: log entry
3, DESIGN CHOICE), and the cycle and the time start at 0 (log entry 4, DESIGN CHOICE). (R29, R155, R313, R341, R344,
R347) -/
def Obligations.ResetState : Prop :=
  State.reset.spire.boot.released = 0 ∧ State.reset.spire.boot.inReset = [0, 1, 2, 3, 4, 5, 6] ∧
  State.reset.spire.boot.m = 0 ∧ State.reset.spire.boot.log = [] ∧
  (∀ o, o < 0x10000 → State.reset.sysWord o = 0) ∧
  (∀ o, 0x100000 ≤ o → o < 0x200000 → State.reset.sysWord o = 0) ∧
  (∀ o, 0x400000 ≤ o → o < 0x410000 → State.reset.sysWord o = 0) ∧
  State.reset.sysWord 0x10000 = 64 + 2 ^ 16 * 2000 + 2 ^ 32 * 250 + 2 ^ 48 * 31 ∧
  State.reset.groups = [] ∧ State.reset.blocks = [] ∧ State.reset.mats = [] ∧ State.reset.faults.recs = [] ∧
  State.reset.copies.copies = [] ∧ State.reset.belfry.launches = [] ∧ State.reset.belfry.qreg = [] ∧
  State.reset.mem = [] ∧ State.reset.clk = ⟨0, 0, 0, 0⟩

/-- The invariants hold at reset. At reset, memory is in its canonical form, and the campanile's steering and its part of
a ns are within their bounds. (R146, R324) -/
def Obligations.InvariantAtReset : Prop := Machine.Inv State.reset

/-- Every step keeps the canonical form of memory and the campanile's bounds. From every state with the invariants,
whatever is scheduled, a step that gives a next state gives one with the invariants: memory stays a list of rising
addresses without an entry equal to what an unlisted address reads as, the steering of the campanile stays within 200
parts per million (R324), and the part of a ns gained stays below one. (R146, R3, R324) -/
def Obligations.InvariantKept : Prop := ∀ s t, Machine.Inv s → step s = .next t → Machine.Inv t

/-- A byte reads as it was last written, and a write leaves every other byte alone. In a memory of canonical form, after a
list of bytes is written at an address each of them reads at its own address, every address outside them reads as
before, and the form is kept. A little-endian number of n bytes written and read back is the number modulo 256^n.
(R146, R229) -/
def Obligations.MemoryReadsWhatWasWritten : Prop :=
  ∀ (m : List Host.Cell) (a : Nat) (b : List Byte), memWf m = true →
    memWf (memWrite m a b) = true ∧
    (∀ j, j < b.length → memGet (memWrite m a b) (a + j) = b.getD j 0) ∧
    (∀ c, c < a ∨ a + b.length ≤ c → memGet (memWrite m a b) c = memGet m c) ∧
    (∀ n x, leNat ((List.range n).map (fun j => memGet (memWrite m a (leBytes n x)) (a + j))) = x % 256 ^ n)

/-- Integer results: wrapped or clamped exact values, shifts, extremes, bit counts. IADD, ISUB and IMUL give the exact
signed sum, difference and product modulo 2^32; with .sat, M = 1 clamps to .i32 and M = 3 reads unsigned and clamps to
.n32, and SAT is raised exactly when the clamp changes the value; IMAD clamps the exact a x b + d once; IMULH gives
the floor of the product over 2^32, signed or (M[1]) unsigned. A pair sum or difference is modulo 2^64. A shift by 32
or more gives 0, or the sign's word for an arithmetic right shift; IMIN and IMAX give the lesser and the greater
operand by their reading. INEG negates, and its absolute value of the least .i32 is clamped under .sat with SAT (to
.i32: the reading of log entry 53, DESIGN CHOICE). CLZ and CTZ of 0 are 32, and CLZ of x > 0 is 31 - log2 x. CVTI
extends the chosen 8- or 16-bit element, or clamps. (R110, R123, R130, R132, R134) -/
def Obligations.IntegerArithmeticIsExact : Prop :=
  (∀ a b, (aluAdd 0 a b).1 = a + b ∧ (aluSub 0 a b).1 = a - b ∧ (aluMul 0 a b).1 = a * b ∧ (aluAdd 0 a b).2 = 0) ∧
  (∀ a b, (aluAdd 1 a b).1.toInt = max (-2 ^ 31) (min (2 ^ 31 - 1) (a.toInt + b.toInt)) ∧
    ((aluAdd 1 a b).2 = if -2 ^ 31 ≤ a.toInt + b.toInt ∧ a.toInt + b.toInt < 2 ^ 31 then 0 else fSAT) ∧
    (aluSub 1 a b).1.toInt = max (-2 ^ 31) (min (2 ^ 31 - 1) (a.toInt - b.toInt)) ∧
    (aluMul 1 a b).1.toInt = max (-2 ^ 31) (min (2 ^ 31 - 1) (a.toInt * b.toInt))) ∧
  (∀ a b, ((aluAdd 3 a b).1.toNat : Int) = min (2 ^ 32 - 1) (a.toNat + b.toNat) ∧
    (aluSub 3 a b).1.toNat = a.toNat - b.toNat ∧
    ((aluSub 3 a b).2 = if b.toNat ≤ a.toNat then 0 else fSAT) ∧
    ((aluMul 3 a b).1.toNat : Int) = min (2 ^ 32 - 1) (a.toNat * b.toNat)) ∧
  (∀ a b d, (aluMad 0 a b d).1 = a * b + d ∧
    (aluMad 1 a b d).1.toInt = max (-2 ^ 31) (min (2 ^ 31 - 1) (a.toInt * b.toInt + d.toInt))) ∧
  (∀ a b, (aluMulh 0 a b).1.toInt = (a.toInt * b.toInt) / 2 ^ 32 ∧
    ((aluMulh 2 a b).1.toNat : Int) = (a.toNat * b.toNat) / 2 ^ 32) ∧
  (∀ a b : Wide, (aluWide false a b).toNat = (a.toNat + b.toNat) % 2 ^ 64 ∧
    (aluWide true a b).toNat = (2 ^ 64 + a.toNat - b.toNat) % 2 ^ 64) ∧
  (∀ a b : Word, (aluShl a b).toNat = a.toNat * 2 ^ b.toNat % 2 ^ 32 ∧
    (aluShr false a b).toNat = a.toNat / 2 ^ b.toNat ∧ (aluShr true a b).toInt = a.toInt / 2 ^ b.toNat) ∧
  (∀ a b : Word, (aluMin false a b).toInt = min a.toInt b.toInt ∧ (aluMax false a b).toInt = max a.toInt b.toInt ∧
    (aluMin true a b).toNat = min a.toNat b.toNat ∧ (aluMax true a b).toNat = max a.toNat b.toNat) ∧
  (∀ a, (aluNeg 0 a).1 = -a) ∧ aluNeg 3 0x80000000 = (0x7FFFFFFF, fSAT) ∧ (aluNeg 2 0x80000000).1 = 0x80000000 ∧
  (∀ a : Word, a ≠ 0 → (aluBits 1 a).toNat = 31 - a.toNat.log2 ∧ a.getLsbD (aluBits 2 a).toNat = true) ∧
  aluBits 1 0 = 32 ∧ aluBits 2 0 = 32 ∧ (∀ a k, k < 32 → (aluBits 3 a).getLsbD k = a.getLsbD (31 - k)) ∧
  (∀ (b : BitVec 7) (a : Word), b.getLsbD 0 = false → b.getLsbD 2 = false →
    (aluCvti 0 b a).1.toInt = sextN 8 (fld a (8 * fld b 3 3) 8) ∧
    (aluCvti 1 b a).1.toInt = max (-128) (min 127 a.toInt)) ∧
  (∀ (b : BitVec 7) (a : Word), b.getLsbD 0 = true → b.getLsbD 2 = true →
    (aluCvti 0 b a).1.toNat = fld a (16 * fld b 3 3) 16 ∧ (aluCvti 1 b a).1.toNat = min 65535 a.toNat)

/-- Integer arithmetic wraps, clamps with SAT under .sat, and never traps. Each integer operation without .sat (M[0] = 0)
gives its exact result modulo 2^w and raises nothing; with .sat (M[0] = 1) it gives the exact result clamped to the
range of its destination type, and raises SAT when the clamp changes the value and no other flag: IADD, ISUB, IMUL,
IMAD, INEG and CVTI. Whatever TRAPEN is, none of these flags traps. (R123) -/
def Obligations.IntegerOverflowNeverTraps : Prop :=
  ∀ (op : Int → Int → Int → Int) (f : BitVec 2 → Word → Word → Word → Word × BitVec 6),
    (op = (fun a b _ => a + b) ∧ f = (fun m a b _ => aluAdd m a b) ∨
      op = (fun a b _ => a - b) ∧ f = (fun m a b _ => aluSub m a b) ∨
      op = (fun a b _ => a * b) ∧ f = (fun m a b _ => aluMul m a b) ∨
      op = (fun a b d => a * b + d) ∧ f = aluMad) →
    ∀ a b d : Word,
      let x := op a.toInt b.toInt d.toInt
      let u := op a.toNat b.toNat d.toNat
      f 0 a b d = (BitVec.ofInt 32 x, 0) ∧ f 2 a b d = (BitVec.ofInt 32 x, 0) ∧
      f 1 a b d = (BitVec.ofInt 32 (max (-2147483648) (min 2147483647 x)),
        if -2147483648 ≤ x ∧ x ≤ 2147483647 then 0 else fSAT) ∧
      f 3 a b d = (BitVec.ofInt 32 (max 0 (min 4294967295 u)), if 0 ≤ u ∧ u ≤ 4294967295 then 0 else fSAT) ∧
      (∀ m trapen, trapSub trapen (f m a b d).2 = 0) ∧
      (aluNeg 0 a = (BitVec.ofInt 32 (-a.toInt), 0) ∧
        aluNeg 1 a = (BitVec.ofInt 32 (max (-2147483648) (min 2147483647 (-a.toInt))),
          if -a.toInt ≤ 2147483647 then 0 else fSAT) ∧
        aluNeg 2 a = (BitVec.ofInt 32 (a.toInt.natAbs : Int), 0)) ∧
      (∀ m, m ≠ 1#2 → ∀ e, (aluCvti m e a).2 = 0) ∧
      (∀ (e : BitVec 7) (lo hi y : Int), y = (if e.getLsbD 2 then (a.toNat : Int) else a.toInt) →
        lo = (if e.getLsbD 2 then 0 else if e.getLsbD 0 then -32768 else -128) →
        hi = (if e.getLsbD 0 then (if e.getLsbD 2 then 65535 else 32767) else if e.getLsbD 2 then 255 else 127) →
        aluCvti 1 e a = (BitVec.ofInt 32 (max lo (min hi y)), if lo ≤ y ∧ y ≤ hi then 0 else fSAT)) ∧
      (∀ m trapen, trapSub trapen (aluNeg m a).2 = 0) ∧ (∀ m e trapen, trapSub trapen (aluCvti m e a).2 = 0)

/-- Scalar integer instructions and moves complete with their results 2 ac later. Each scalar integer instruction and
move, in every form, with or without a literal, issues: where a thread is active, its destination takes its result 2
ac after the issue, computed once from the scalars read at issue (a literal or the sign-extended immediate in B's
place); where none is, nothing is written. The threads go on at the next instruction after STALL, and every other
register, flag, predicate, window, group and byte of memory is as it was. (R66, R103, R128, R130, R131, R132, R133) -/
def Obligations.ScalarIntegerResults : Prop :=
  (∀ f l, f.m ≠ 2#2 → ScalOn2 (.iaddScalar f l) 2 l (aluAdd f.m) ∧ ScalOn2 (.isubScalar f l) 2 l (aluSub f.m)) ∧
  (∀ f l, f.m = 2#2 →
    ScalOnPairs (.iaddScalar f l) 2 l (aluWide false) ∧ ScalOnPairs (.isubScalar f l) 2 l (aluWide true)) ∧
  (∀ f l, ScalOn2 (.imulScalar f l) 2 l (aluMul f.m) ∧ ScalOn2 (.imulhScalar f l) 2 l (aluMulh f.m)) ∧
  (∀ f l, ScalOn2 (.andScalar f l) 2 l (fun a b => (a &&& b, 0)) ∧ ScalOn2 (.orScalar f l) 2 l (fun a b => (a ||| b, 0)) ∧
    ScalOn2 (.xorScalar f l) 2 l (fun a b => (a ^^^ b, 0))) ∧
  (∀ f l, ScalOn2 (.shlScalar f l) 2 l (fun a b => (aluShl a b, 0)) ∧
    ScalOn2 (.shrScalar f l) 2 l (fun a b => (aluShr (hiM f.m) a b, 0))) ∧
  (∀ f l, ScalOn2 (.iminScalar f l) 2 l (fun a b => (aluMin (hiM f.m) a b, 0)) ∧
    ScalOn2 (.imaxScalar f l) 2 l (fun a b => (aluMax (hiM f.m) a b, 0))) ∧
  (∀ f, ScalOn1 (.bitsScalar f) 2 (aluBits f.m)) ∧ (∀ f, ScalMeaning (.movScalar f) 2 (fun v => (v, 0))) ∧
  (∀ f l, ScalOn1 (.iaddScalarImm f l) 2 (fun a => a + immOf f l) ∧ ScalOn1 (.andScalarImm f l) 2 (fun a => a &&& immOf f l) ∧
    ScalOn1 (.orScalarImm f l) 2 (fun a => a ||| immOf f l) ∧ ScalOn1 (.xorScalarImm f l) 2 (fun a => a ^^^ immOf f l)) ∧
  (∀ f, ScalOn1 (.shlScalarImm f) 2 (fun a => a <<< fld f.imm 0 5) ∧
    ScalOn1 (.shrScalarImm f) 2 (fun a => aluShr (f.imm.getLsbD 5) a (BitVec.ofNat 32 (fld f.imm 0 5))) ∧
    ScalOn1 (.iset f) 2 (fun a => if isetHolds (fld f.imm 7 3) a (BitVec.ofInt 32 (sextN 7 f.imm.toNat)) then 1 else 0)) ∧
  (∀ f l, ScalOn1 (.movScalarImm f l) 2 (fun _ => l.getD (f.imm.signExtend 32)))

/-- Vector integer instructions and moves complete with their results at L. Each vector integer instruction and move, in
every form, issues: each active lane's result is computed from that lane's sources (a literal or the immediate
broadcast in B's place), lands L ac after the issue (5 for multiplies, 6 for CVTI, else 3; one later where the issue
is checked) in the destination name or the destination predicate, with its exceptions; last-use sources are released;
the threads go on after STALL; and memory, the other groups, scalars, predicates, windows and every name not released
are as they were. A split of several groups (IADD, ISUB, IMUL, IMAD, AND, ICMP, MOV of a broadcast scalar) gives each
group the results of its own sources. (R66, R72, R82, R84, R91, R95, R129, R130, R131, R133, R134, R312) -/
def Obligations.VectorIntegerResults : Prop :=
  (∀ f l, VecOn2 (.iaddVector f l) 3 l (fun _ a b => lane1 (aluAdd f.m a b)) ∧
    VecOn2 (.isubVector f l) 3 l (fun _ a b => lane1 (aluSub f.m a b)) ∧
    VecOn2 (.imulVector f l) 5 l (fun _ a b => lane1 (aluMul f.m a b)) ∧
    VecOn2 (.imulhVector f l) 5 l (fun _ a b => lane1 (aluMulh f.m a b)) ∧
    VecOn3 (.imad f l) 5 l (fun _ a b d => lane1 (aluMad f.m a b d))) ∧
  (∀ f l, VecOn2 (.andVector f l) 3 l (fun _ a b => lane1w (a &&& b)) ∧
    VecOn2 (.orVector f l) 3 l (fun _ a b => lane1w (a ||| b)) ∧
    VecOn2 (.xorVector f l) 3 l (fun _ a b => lane1w (a ^^^ b)) ∧
    VecOn2 (.shlVector f l) 3 l (fun _ a b => lane1w (aluShl a b)) ∧
    VecOn2 (.shrVector f l) 3 l (fun _ a b => lane1w (aluShr (hiM f.m) a b)) ∧
    VecOn2 (.iminVector f l) 3 l (fun _ a b => lane1w (aluMin (hiM f.m) a b)) ∧
    VecOn2 (.imaxVector f l) 3 l (fun _ a b => lane1w (aluMax (hiM f.m) a b))) ∧
  (∀ f l, VecOn2 (.icmp f l) 3 l (fun _ a b => laneP (icmpHolds (fld f.d 3 4) a b)) ∧ (opnds (.icmp f l)).pd = [f.d.toNat % 8]) ∧
  (∀ f, VecOn1 (.ineg f) 3 (fun _ a => lane1 (aluNeg f.m a)) ∧
    VecOn1 (.bitsVector f) 3 (fun _ a => lane1w (aluBits f.m a)) ∧
    VecOn1 (.cvti f) 6 (fun _ a => lane1 (aluCvti f.m f.b a))) ∧
  (∀ f l, VecOn1 (.iaddVectorImm f l) 3 (fun _ a => lane1w (a + immOf f l)) ∧
    VecOn1 (.isubVectorImm f l) 3 (fun _ a => lane1w (a - immOf f l)) ∧
    VecOn1 (.imulVectorImm f l) 5 (fun _ a => lane1w (a * immOf f l)) ∧
    VecOn1 (.andVectorImm f l) 3 (fun _ a => lane1w (a &&& immOf f l)) ∧
    VecOn1 (.orVectorImm f l) 3 (fun _ a => lane1w (a ||| immOf f l)) ∧
    VecOn1 (.xorVectorImm f l) 3 (fun _ a => lane1w (a ^^^ immOf f l)) ∧
    VecOn1 (.icmpImm f l) 3 (fun _ a => laneP (icmpHolds (fld f.d 3 4) a (immOf f l)))) ∧
  (∀ f, VecOn1 (.shlVectorImm f) 3 (fun _ a => lane1w (a <<< fld f.imm 0 5)) ∧
    VecOn1 (.shrVectorImm f) 3 (fun _ a => lane1w (aluShr (f.imm.getLsbD 5) a (BitVec.ofNat 32 (fld f.imm 0 5))))) ∧
  (∀ f l, VecOn1 (.movVectorImm f l) 3 (fun _ _ => lane1w (l.getD (f.imm.signExtend 32)))) ∧
  (∀ f, VecOn1 (.movVector f) 3 (fun _ a => lane1w a) ∧
    VecMeaning (.movVectorBroadcast f) 3 (fun s g _ _ => lane1w (s.scalar g f.a.toNat)) ∧
    VecMeaning (.movVectorB64 f) 3 (fun s g _ _ =>
      ⟨[loWord (s.pair g f.a.toNat), hiWord (s.pair g f.a.toNat)], [], 0⟩)) ∧
  (∀ f l, JoinedOn2 (.iaddVector f l) 3 l (fun _ a b => lane1 (aluAdd f.m a b)) ∧
    JoinedOn2 (.isubVector f l) 3 l (fun _ a b => lane1 (aluSub f.m a b)) ∧
    JoinedOn2 (.imulVector f l) 5 l (fun _ a b => lane1 (aluMul f.m a b)) ∧
    JoinedOn3 (.imad f l) 5 l (fun _ a b d => lane1 (aluMad f.m a b d)) ∧
    JoinedOn2 (.andVector f l) 3 l (fun _ a b => lane1w (a &&& b)) ∧
    JoinedOn2 (.icmp f l) 3 l (fun _ a b => laneP (icmpHolds (fld f.d 3 4) a b))) ∧
  (∀ f, JoinedMeaning (.movVectorBroadcast f) 3 (fun s g _ _ => lane1w (s.scalar g f.a.toNat)))

/-- The scale format .e8 stands for powers of two and one NaN. Each 8-bit code X from 0 to 254 of .e8 stands for the
positive value 2^(X - 127), with no sign, 0xFF is NaN, and so no code stands for zero. (R109) -/
def Obligations.ScaleFormatValues : Prop :=
  ∀ z x, x < 256 →
    (x ≤ 254 → decodeFmt 7 z x = .fin false 1 ((x : Int) - 127)) ∧ (x = 255 → (decodeFmt 7 z x).isNan = true) ∧
    (∀ neg e, decodeFmt 7 z x ≠ .fin neg 0 e)

/-- Encoding the value of a code gives the code back and raises nothing. In every format of R138, whatever the rounding
mode and the dither, a code that stands for a value (not a NaN) converts to its own format unchanged, without an
exception. A conversion of a NaN to an integer format, to .e2m1 or to .lg6 gives 0 and raises Invalid; to every other
format it gives that format's canonical NaN. (R107, R108, R109, R110, R112, R113) -/
def Obligations.ConversionsKeepExactValues : Prop :=
  (∀ f rnd dith x, f < 14 → x < 2 ^ elemWidth f → (decodeFmt f false x).isNan = false →
    convert f f rnd false false dith x = (x, 0)) ∧
  (∀ sf df rnd sat z dith x, df < 14 → (decodeFmt sf z x).isNan = true →
    convert sf df rnd sat z dith x =
      if 8 ≤ df ∨ df = 5 ∨ df = 6 then (0, fNV)
      else (nanCode df, if (decodeFmt sf z x).isSnan then fNV else 0))

/-- Laws of the f32 operations. FADD and FMUL do not depend on the order of their operands; FSUB adds the operand (no NaN)
with its sign turned; FNEG by M turns, clears or sets the sign of a value that is no NaN (without FTZ) and raises
nothing; FCMP's conditions eq, lt, gt and uo are exclusive and one of them holds, and the others are their unions,
complements and uo's complement. (R107, R114, R129, R135) -/
def Obligations.FloatOperationsAgree : Prop :=
  (∀ z a b, fpAdd z a b = fpAdd z b a ∧ fpMul z a b = fpMul z b a) ∧
  (∀ z a b, (f32v z b).isNan = false → fpSub z a b = fpAdd z a (b ^^^ 0x80000000)) ∧
  (∀ a, (f32v false a).isNan = false → fpNeg 0 false a = (a ^^^ 0x80000000, 0) ∧ fpNeg 1 false a = (a &&& 0x7FFFFFFF, 0) ∧
    fpNeg 2 false a = (a ||| 0x80000000, 0)) ∧
  (∀ z a b, [0, 2, 4, 6].countP (fun c => (fpCmp c z a b).1) = 1 ∧
    (fpCmp 1 z a b).1 = !(fpCmp 0 z a b).1 ∧ (fpCmp 3 z a b).1 = ((fpCmp 2 z a b).1 || (fpCmp 0 z a b).1) ∧
    (fpCmp 5 z a b).1 = ((fpCmp 4 z a b).1 || (fpCmp 0 z a b).1) ∧ (fpCmp 7 z a b).1 = !(fpCmp 6 z a b).1)

/-- Floating-point instructions complete with each lane's result rounded once. FADD, FSUB, FMUL, FFMA, FMIN, FMAX, FCMP,
FNEG, FSCALE, FCLASS (5 ac), FRCP, FRSQ, FEXP2, FLOG2 (8 ac), HADD2, HMUL2 and HFMA2 (6 ac), in every form and with a
literal where one stands for B, issue where no active lane raises an enabled exception: each active lane's result is
the operation of R135 to R137 on that lane's sources under the region's FTZ, and lands with its exceptions at L;
last-use sources are released, the threads go on after STALL, and everything else is as it was. A split of several
groups (FADD, FMUL, FFMA, FCMP) gives each group the results of its own sources. (R66, R82, R84, R91, R95, R112, R114,
R125, R126, R135, R136, R137) -/
def Obligations.FloatResults : Prop :=
  (∀ f l, VecOn2 (.fadd f l) 5 l (fun z a b => lane1 (fpAdd z a b)) ∧
    VecOn2 (.fsub f l) 5 l (fun z a b => lane1 (fpSub z a b)) ∧
    VecOn2 (.fmul f l) 5 l (fun z a b => lane1 (fpMul z a b)) ∧
    VecOn3 (.ffma f l) 5 l (fun z a b d => lane1 (fpFma f.m z a b d)) ∧
    VecOn2 (.fmin f l) 5 l (fun z a b => lane1 (fpMinMax false z a b)) ∧
    VecOn2 (.fmax f l) 5 l (fun z a b => lane1 (fpMinMax true z a b)) ∧
    VecOn2 (.fscale f l) 5 l (fun z a b => lane1 (fpScale z a b)) ∧
    VecOn2 (.fcmp f l) 5 l (fun z a b => ⟨[], [(fpCmp (fld f.d 3 4) z a b).1], (fpCmp (fld f.d 3 4) z a b).2⟩)) ∧
  (∀ f, VecOn1 (.fneg f) 5 (fun z a => lane1 (fpNeg f.m z a)) ∧ VecOn1 (.fclass f) 5 (fun _ a => lane1w (fpClass a)) ∧
    VecOn1 (.frcp f) 8 (fun z a => lane1 (fpRcp z a)) ∧ VecOn1 (.frsq f) 8 (fun z a => lane1 (fpRsq z a)) ∧
    VecOn1 (.fexp2 f) 8 (fun z a => lane1 (fpExp2 z a)) ∧ VecOn1 (.flog2 f) 8 (fun z a => lane1 (fpLog2 z a))) ∧
  (∀ f l, VecOn2 (.hadd2 f l) 6 l (fun z a b => lane1 (halfOp f.m z (fun x y _ => addFV x y) a b 0)) ∧
    VecOn2 (.hmul2 f l) 6 l (fun z a b => lane1 (halfOp f.m z (fun x y _ => mulFV x y) a b 0)) ∧
    VecOn3 (.hfma2 f l) 6 l (fun z a b d => lane1 (halfOp f.m z (fun x y w => fmaFV x y w false false) a b d))) ∧
  (∀ f l, JoinedOn2 (.fadd f l) 5 l (fun z a b => lane1 (fpAdd z a b)) ∧
    JoinedOn2 (.fmul f l) 5 l (fun z a b => lane1 (fpMul z a b)) ∧
    JoinedOn3 (.ffma f l) 5 l (fun z a b d => lane1 (fpFma f.m z a b d)) ∧
    JoinedOn2 (.fcmp f l) 5 l (fun z a b => ⟨[], [(fpCmp (fld f.d 3 4) z a b).1], (fpCmp (fld f.d 3 4) z a b).2⟩))

/-- CVT, PACK and UNPACK complete; PHASE advances once for a dithered issue. CVT converts the chosen element of each
active lane from the source to the destination format, PACK k sources into packed words, and UNPACK each element of
packed words, with the rounding, saturation and dither position that the extension word and R116 give; the results
land 6 ac after the issue. A dithered CVT or PACK (RND 4) of a split that has an active thread advances the group's
PHASE by one after using it; any other leaves it, one too whose formats make it exact, which takes no dither (log
entry 19, DEDUCED). (R66, R111, R115, R116, R117, R138, R139, R140) -/
def Obligations.ConversionResults : Prop :=
  (∀ f e s₀ s is m, s₀.begin_ (.cvt f e) (opnds (.cvt f e)) = s → ∀ out : Nat → LaneOut,
    (out = fun l =>
      let r := convert (fld e 0 4) (fld e 4 4) (rndOf e) (e.getLsbD 11) (s.ftz m.gid) (ditherOf (l % 32) (s.phaseOf m.gid l))
        (elemAt (fld e 0 4) (fld e 12 3) [(s.laneSrcs m.gid is.wb (opnds (.cvt f e)) l).getD 0 0])
      lane1 (placeElem (fld e 4 4) r.1, r.2)) →
    VecRuns (.cvt f e) s is m out →
    ∃ t u, exec (.cvt f e) s₀ = .next t ∧ VecDone (.cvt f e) 6 out s u is m ∧ (rndOf e ≠ 4 → t = u) ∧
      (rndOf e = 4 → s₀.issue = some is → m.act ≠ 0 → t = u.modRegs m.gid (fun r => { r with phase := r.phase + 1 }))) ∧
  (∀ f e s₀ s is m, s₀.begin_ (.pack f e) (opnds (.pack f e)) = s → ∀ out : Nat → LaneOut,
    (out = fun l =>
      let k := packCount (fld e 4 4)
      let rs := (List.range k).map (fun i => convert (fld e 0 4) (fld e 4 4) (rndOf e) (e.getLsbD 11) (s.ftz m.gid)
        (ditherOf ((k * l + i) % 32) (s.phaseOf m.gid l)) ((s.laneSrcs m.gid is.wb (opnds (.pack f e)) l).getD i 0).toNat)
      ⟨packWords (packRegs (fld e 4 4)) (packElems (fld e 4 4) (rs.map Prod.fst)), [], rs.foldl (fun a r => a ||| r.2) 0⟩) →
    VecRuns (.pack f e) s is m out →
    ∃ t u, exec (.pack f e) s₀ = .next t ∧ VecDone (.pack f e) 6 out s u is m ∧ (rndOf e ≠ 4 → t = u) ∧
      (rndOf e = 4 → s₀.issue = some is → m.act ≠ 0 → t = u.modRegs m.gid (fun r => { r with phase := r.phase + 1 }))) ∧
  (∀ f e, VecMeaning (.unpack f e) 6 (fun s g _ v =>
    let rs := (List.range (packCount (fld e 0 4))).map (fun i =>
      convert (fld e 0 4) (fld e 4 4) 0 (e.getLsbD 11) (s.ftz g) 0 (elemAt (fld e 0 4) i v))
    ⟨rs.map (fun r => placeElem (fld e 4 4) r.1), [], rs.foldl (fun a r => a ||| r.2) 0⟩))

/-- Lane, vote, shuffle, predicate and reduction instructions complete. LANEID gives each lane its index; SHFL reads the
source lane that its mode names, whether or not that lane is active; VOTE.all and .any give every active lane the AND
and the OR of pA over the active threads; PLOP, PMOV, PMOV.nz and PMOV.bit compute each lane's predicate; RED gives
every active lane the reduction over the active lanes. VOTE.ballot writes the active lanes' bits to four scalars.
Results land at L (3, or 8 for SHFL, VOTE and RED), the threads go on, and the rest is as it was. (R66, R69, R95,
R141, R142) -/
def Obligations.LaneAndPredicateResults : Prop :=
  (∀ f, VecMeaning (.laneid f) 3 (fun _ _ l _ => lane1w (BitVec.ofNat 32 l))) ∧
  (∀ f s₀ s is m, s₀.beginShfl f = s → ∀ out : Nat → LaneOut,
    (out = fun l => lane1w (s.readName m.gid (s.fieldName m.gid is.wb f.a.toNat)
      (shflSrc f.m l ((s.laneSrcs m.gid is.wb (opnds (.shfl f)) l).getD 1 0))).val) →
    VecRuns (.shfl f) s is m out → ∃ t, exec (.shfl f) s₀ = .next t ∧ VecDone (.shfl f) 8 out s t is m) ∧
  (∀ f, VecMeaning (.voteAll f) 8 (fun s _ _ _ =>
    laneP ((lanesOf s.iss.leader.act).all (fun l => s.predOf s.iss.leader.gid l (pf f.a))))) ∧
  (∀ f, VecMeaning (.voteAny f) 8 (fun s _ _ _ =>
    laneP ((lanesOf s.iss.leader.act).any (fun l => s.predOf s.iss.leader.gid l (pf f.a))))) ∧
  (∀ f, VecMeaning (.plop f) 3 (fun s g l _ => laneP (plop f.m (s.predOf g l (pf f.a)) (s.predOf g l (pf f.b))))) ∧
  (∀ f, VecMeaning (.pmov f) 3 (fun s g l _ => laneP (s.predOf g l (pf f.a)))) ∧
  (∀ f, VecMeaning (.pmovNz f) 3 (fun s g _ _ => laneP (decide (s.scalar g f.a.toNat ≠ 0)))) ∧
  (∀ f, VecMeaning (.pmovBit f) 3 (fun s g l _ => laneP ((s.scalar g (f.a.toNat + l / 32)).getLsbD (l % 32)))) ∧
  (∀ f, VecMeaning (.red f) 8 (fun s _ _ _ => lane1 (s.redValue f))) ∧
  (∀ f s₀ s is m, s₀.begin_ (.voteBallot f) (opnds (.voteBallot f)) = s → Issues s is m → s.env.sdc = 0 → m.act ≠ 0 →
    ∃ t, exec (.voteBallot f) s₀ = .next t ∧ GoesOn s t is m (checkExtra s (.voteBallot f) is) ∧ RegFrame m.gid [] s t ∧
      ∀ j, j < 4 → ∃ v, PendingScalar s t m (f.d.toNat + j) (8 + checkExtra s (.voteBallot f) is) v 0 ∧
        ∀ b, b < 32 → v.getLsbD b = (m.act.getLsbD (32 * j + b) && s.predOf m.gid (32 * j + b) (pf f.a)))

/-- What reductions, shuffles and predicate operations compute. An integer REDADD over 128 lanes is the sum of the active
lanes' words modulo 2^32, REDOR their bitwise or, and the empty lanes do not count; a float reduction combines
neighbours pairwise, so that the sum of 2^24, 1, 1, 1 and 124 zeros is 16,777,218 as the spec works it out. SHFL .up
and .down keep a lane whose source would lie outside the group. PLOP's M selects AND, OR, XOR and AND NOT. (R129,
R141, R142, R143) -/
def Obligations.ReductionsAreTrees : Prop :=
  (∀ leaves : List (Option Word), leaves.length = 128 →
    (redTree (fun a b => a + b) leaves).getD 0 = (leaves.filterMap id).foldl (fun a b => a + b) 0 ∧
    (redTree (fun a b => a ||| b) leaves).getD 0 = (leaves.filterMap id).foldl (fun a b => a ||| b) 0) ∧
  redTree (redOp 0 2 false) (some (0x4B800000#32, 0) :: (List.replicate 3 (some (0x3F800000#32, 0)) ++
    List.replicate 124 (some (0#32, 0)))) = some (0x4B800001#32, fNX) ∧
  (∀ l b, l < 128 → shflSrc 0 l b = b.toNat % 128 ∧
    shflSrc 1 l b = (if b.toNat ≤ l then l - b.toNat else l) ∧
    shflSrc 2 l b = (if l + b.toNat < 128 then l + b.toNat else l) ∧ shflSrc 3 l b < 128) ∧
  (∀ a b, plop 0 a b = (a && b) ∧ plop 1 a b = (a || b) ∧ plop 2 a b = (a != b) ∧ plop 3 a b = (a && !b))

/-- VREDS gives RRES 8 ac after issue, SREDW waits for its stamp. VREDS with an active thread, and no enabled exception,
takes the group's next stamp at issue, releases its source and waits for 8 ac in its scoreboard slot while its threads
go on; when it is due, VREDS_COMPLETE writes VALUE, SEQ and VALID of RRES, ORs its exceptions into GFLAGS and clears
its slot. SREDW makes its active threads wait for the stamp in sA[15:0]; once RRES holds that stamp, SREDW_RETURN
writes VALUE to the scalar pair, low half first (where no split that issued later has written it already), the threads
are live again and the wait is over. (R81, R106, R143, R172) -/
def Obligations.GroupReductions : Prop :=
  (∀ f s₀ s is m, s₀.begin_ (.vreds f) (opnds (.vreds f)) = s → Issues s is m → s.env.sdc = 0 → m.act ≠ 0 →
    trapSub (s.regionOf m.gid).trapen (s.vredsValue f).2 = 0 →
    ∃ t, exec (.vreds f) s₀ = .next t ∧ t.mem = s.mem ∧ GoesOn s t is m (checkExtra s (.vreds f) is) ∧
      (t.group m.gid).regs.rres = { (s.group m.gid).regs.rres with stamp := (s.group m.gid).regs.rres.stamp + 1 } ∧
      (∀ r, t.scalar m.gid r = s.scalar m.gid r) ∧ FreesSources (.vreds f) s t is m ∧
      ∃ id w, tget t.flight.waits id = some w ∧ w.gid = m.gid ∧ w.lanes = 0 ∧ w.slot = varSlot is ∧
        w.at_ = s.clk.ac + 8 + checkExtra s (.vreds f) is ∧
        w.kind = .vreds (s.vredsValue f).1 ((s.group m.gid).regs.rres.stamp + 1) (s.vredsValue f).2) ∧
  (∀ s g id w v stamp fl, (tget s.groups g).isSome = true → s.oldestWait (fun w => w.isVreds g) = some (id, w) →
    tget s.flight.waits id = some w → w.kind = .vreds v stamp fl → w.at_ ≤ s.clk.ac →
    ∃ t, exec (.vredsComplete g) s = .next t ∧ tget t.flight.waits id = none ∧ t.mem = s.mem ∧
      (t.group g).regs = { (s.group g).regs with
        rres := { (s.group g).regs.rres with value := v, seq := stamp, valid := true }
        gflags := (s.group g).regs.gflags ||| fl } ∧
      (w.slot ≠ 0 → tget (t.group g).sb w.slot = none) ∧ (∀ h, h ≠ g → t.group h = s.group h)) ∧
  (∀ f s₀ s is m, s₀.begin_ (.sredw f) (opnds (.sredw f)) = s → Issues s is m → s.env.sdc = 0 → m.act ≠ 0 →
    ∃ t, exec (.sredw f) s₀ = .next t ∧
      WaitDone (.sredw f.d.toNat ((s.scalar m.gid f.a.toNat).extractLsb' 0 16)) (checkExtra s (.sredw f) is) s t is m) ∧
  (∀ s id w d stamp, tget s.flight.waits id = some w → w.kind = .sredw d stamp → (tget s.groups w.gid).isSome = true →
    (s.group w.gid).regs.rres.valid = true → (s.group w.gid).regs.rres.seq = stamp → d < 128 →
    (s.group w.gid).run.place ≠ .stowed → (∀ n, s.shadowScalar w.gid n = false) →
    (∀ n, s.scalarTaken w.gid n w.lanes w.seq = false) →
    ∃ t, exec (.sredwReturn id) s = .next t ∧ tget t.flight.waits id = none ∧
      t.pair w.gid d = (s.group w.gid).regs.rres.value ∧
      (∀ r, r < 128 → r ≠ evenOf d → r ≠ evenOf d + 1 → t.scalar w.gid r = s.scalar w.gid r) ∧
      (∀ l, l < 128 → w.lanes.getLsbD l = true → ((s.group w.gid).thread l).st = .waiting →
        ((t.group w.gid).thread l).st = .live) ∧ t.mem = s.mem ∧ (∀ h, h ≠ w.gid → t.group h = s.group h))

/-- A pending result lands at its cycle, in the lanes that are still there. When a pending result is due, FIXED_WRITEBACK
writes it and it is no longer pending: a scalar takes its word, but where a split that issued later has written it
already (R103); a predicate p0 to p6 of each lane that has not left takes its bit, and p7 stays true; a vector name
(of a group whose registers are in the pool, and which no matrix operation holds) reads, in each lane that has not
left, as the value computed for it, and live; the result's exceptions are ORed into GFLAGS. A result that is not due
stays. Memory and the other groups are as they were. (R66, R91, R103, R104, R125, R145) -/
def Obligations.ResultsLand : Prop :=
  (∀ s id p, tget s.flight.pends id = some p → s.clk.ac < p.landAt → exec (.fixedWriteback id) s = .next s) ∧
  (∀ s id p, tget s.flight.pends id = some p → p.landAt ≤ s.clk.ac → (tget s.groups p.gid).isSome = true →
    ∃ t, exec (.fixedWriteback id) s = .next t ∧ tget t.flight.pends id = none ∧ t.mem = s.mem ∧
      (∀ h, h ≠ p.gid → t.group h = s.group h) ∧
      (t.group p.gid).regs.gflags = (s.group p.gid).regs.gflags ||| p.flags ∧
      (∀ r, p.dest = .scal r → r < 128 → s.shadowScalar p.gid r = false → p.lanes ≠ 0 →
        t.scalar p.gid r = if s.scalarTaken p.gid r p.lanes p.seq then s.scalar p.gid r else laneVal p.vals 0) ∧
      (∀ k l, p.dest = .pred k → k < 7 → l < 128 → p.lanes.getLsbD l = true →
        (s.group p.gid).occupied.getLsbD l = true →
        t.predOf p.gid l k = decide (laneVal p.vals l ≠ 0) ∧ t.predOf p.gid l 7 = true) ∧
      (∀ n l, p.dest = .vec n → WritableName s p.gid n p.reserved →
        l < 128 → p.lanes.getLsbD l = true → (s.group p.gid).occupied.getLsbD l = true →
        (t.readName p.gid n l).val = laneVal p.vals l ∧ (t.readName p.gid n l).live = true))

/-- NOP, BRA, CALL and RET complete: where the threads go on. For a PC in the three slot positions, PC and slot number are
inverse and the next PC lies past the instruction's one or two slots. NOP only goes on. BRA and CALL send the active
threads to PC(n(B) + OFF), the offset being the signed field or the literal, and the others to the next instruction;
CALL's return pair takes the next PC, low half first, 2 ac later. RET through a scalar pair sends them to bits [55:0]
of the pair, and RET through a lane pair each to bits [55:0] of its own lane's two words. Every register, predicate,
window and byte is as it was but for CALL's pair and the released sources. A BRA of a split of several groups sends
each group's active threads to the target. (R61, R62, R66, R69, R82, R84, R144) -/
def Obligations.BranchesTakeTheirTargets : Prop :=
  (∀ s₀ s is m, s₀.begin_ .nop Opnds.none = s → Issues s is m →
    ∃ t, exec .nop s₀ = .next t ∧ GoesOn s t is m 0 ∧ RegFrame m.gid [] s t ∧ t.flight = s.flight) ∧
  (∀ f l s₀ s is m, s₀.begin_ (.bra f l) (opnds (.bra f l)) = s → Issues s is m →
    ∃ t, exec (.bra f l) s₀ = .next t ∧ RegFrame m.gid [] s t ∧
      Branched s t is m (fun _ => relTarget is.pc ((l.map BitVec.toInt).getD f.off.toInt))) ∧
  (∀ f l s₀ s is, s₀.begin_ (.bra f l) (opnds (.bra f l)) = s → JoinedIssues s is →
    ∃ t, exec (.bra f l) s₀ = .next t ∧ t.mem = s.mem ∧ t.flight = s.flight ∧
      (∀ h, (∀ m, m ∈ is.members → m.gid ≠ h) → tget t.groups h = tget s.groups h) ∧
      ∀ m, m ∈ is.members → Branched s t is m (fun _ => relTarget is.pc ((l.map BitVec.toInt).getD f.off.toInt))) ∧
  (∀ f l s₀ s is m, s₀.begin_ (.call f l) (opnds (.call f l)) = s → Issues s is m →
    ∃ t, exec (.call f l) s₀ = .next t ∧ RegFrame m.gid [] s t ∧
      Branched s t is m (fun _ => relTarget is.pc ((l.map BitVec.toInt).getD f.imm.toInt)) ∧
      (m.act ≠ 0 → PendingScalar s t m (evenOf f.d.toNat) 2 (loWord is.next) 0 ∧
        PendingScalar s t m (evenOf f.d.toNat + 1) 2 (hiWord is.next) 0)) ∧
  (∀ f s₀ s is m, s₀.begin_ (.retScalar f) (opnds (.retScalar f)) = s → Issues s is m →
    ∃ t, exec (.retScalar f) s₀ = .next t ∧ RegFrame m.gid [] s t ∧
      Branched s t is m (fun _ => BitVec.ofNat 64 ((s.pair m.gid f.a.toNat).toNat % 2 ^ 56))) ∧
  (∀ f s₀ s is m, s₀.begin_ (.retVector f) (opnds (.retVector f)) = s → Issues s is m →
    ∃ t, exec (.retVector f) s₀ = .next t ∧ RegFrame m.gid (releasedNames s (.retVector f) m.gid is.wb) s t ∧
      FreesSources (.retVector f) s t is m ∧
      Branched s t is m (fun l => BitVec.ofNat 64 ((wideOf ((s.laneSrcs m.gid is.wb (opnds (.retVector f)) l).getD 1 0)
        ((s.laneSrcs m.gid is.wb (opnds (.retVector f)) l).getD 0 0)).toNat % 2 ^ 56))) ∧
  (∀ pc : Wide, pc.toNat < 2 ^ 62 → (pc.toNat % 16 = 4 ∨ pc.toNat % 16 = 8 ∨ pc.toNat % 16 = 12) →
    pcOfSlot (slotNo pc) = pc ∧ relTarget pc 0 = pc ∧
    (pc.toNat % 16 = 4 → nextPc pc 1 = pc + 4 ∧ nextPc pc 2 = pc + 8) ∧
    (pc.toNat % 16 = 8 → nextPc pc 1 = pc + 4 ∧ nextPc pc 2 = pc + 12) ∧
    (pc.toNat % 16 = 12 → nextPc pc 1 = pc + 8))

/-- LOOP, ENDL and WBASE complete: window and loop stack. Where every active thread's loop depth and new window are within
their limits (depth below 8 for LOOP and above 0 for ENDL, the new WB at most 384 and at most the sub-launch's
WSTRIDE), LOOP pushes WB and adds its field, ENDL pops WB, and WBASE sets WB; the threads go on at the next
instruction; inactive threads, names, registers and memory are as they were. (R17, R80, R89) -/
def Obligations.LoopsMoveTheWindow : Prop :=
  (∀ f s₀ s is m, s₀.begin_ (.loop f) Opnds.none = s → Issues s is m →
    (∀ l, m.act.getLsbD l = true → ((s.group m.gid).thread l).stack.length < 8 ∧
      ((s.group m.gid).thread l).wb.toNat + f.imm.toNat ≤ min 384 (s.group m.gid).id.stride) →
    ∃ t, exec (.loop f) s₀ = .next t ∧
      Rewindowed s t is m (fun x => x.wb.toNat + f.imm.toNat) (fun x => x.wb :: x.stack)) ∧
  (∀ s₀ s is m, s₀.begin_ .endl Opnds.none = s → Issues s is m →
    (∀ l, m.act.getLsbD l = true → ((s.group m.gid).thread l).stack ≠ [] ∧
      (((s.group m.gid).thread l).stack.headD 0).toNat ≤ min 384 (s.group m.gid).id.stride) →
    ∃ t, exec .endl s₀ = .next t ∧ Rewindowed s t is m (fun x => (x.stack.headD 0).toNat) (fun x => x.stack.tail)) ∧
  (∀ f s₀ s is m, s₀.begin_ (.wbase f) Opnds.none = s → Issues s is m →
    (m.act ≠ 0 → f.imm.toNat ≤ min 384 (s.group m.gid).id.stride) →
    ∃ t, exec (.wbase f) s₀ = .next t ∧ Rewindowed s t is m (fun _ => f.imm.toNat) Thread.stack)

/-- LOOP, ENDL and WBASE beyond their limits, and TRAP, park their threads with a record. A LOOP all of whose active
threads stand at depth 8 parks them with ILLEGAL LOOPDEPTH, and so does an ENDL at depth 0; a LOOP, an ENDL at a depth
that it may have, or a WBASE whose new WB is beyond 384 or the WSTRIDE parks them with ILLEGAL WINDOW; their WB keeps
its old value. TRAP n parks its active threads with kind TRAP and subcode n = D + 128 x A[0]. Each time one record is
formed that names the group's launch, its index, the PC and the lanes; the other threads go on. (Outside a match-point
handler.) (R17, R77, R89, R265, R268, R298) -/
def Obligations.BadWindowsPark : Prop :=
  (∀ f s₀ s is m, s₀.begin_ (.loop f) Opnds.none = s → Issues s is m → m.act ≠ 0 → s.inHandler m.gid = false →
    (∀ l, m.act.getLsbD l = true → ((s.group m.gid).thread l).stack.length ≥ 8) →
    ∃ t, exec (.loop f) s₀ = .next t ∧ ParksWith (kIllegal, 7) s t is m ∧
      ∀ l, l < 128 → ((t.group m.gid).thread l).wb = ((s.group m.gid).thread l).wb) ∧
  (∀ s₀ s is m, s₀.begin_ .endl Opnds.none = s → Issues s is m → m.act ≠ 0 → s.inHandler m.gid = false →
    (∀ l, m.act.getLsbD l = true → ((s.group m.gid).thread l).stack = []) →
    ∃ t, exec .endl s₀ = .next t ∧ ParksWith (kIllegal, 7) s t is m ∧
      ∀ l, l < 128 → ((t.group m.gid).thread l).wb = ((s.group m.gid).thread l).wb) ∧
  (∀ f s₀ s is m, s₀.begin_ (.loop f) Opnds.none = s → Issues s is m → m.act ≠ 0 → s.inHandler m.gid = false →
    (∀ l, m.act.getLsbD l = true → ((s.group m.gid).thread l).stack.length < 8 ∧
      ((s.group m.gid).thread l).wb.toNat + f.imm.toNat > min 384 (s.group m.gid).id.stride) →
    ∃ t, exec (.loop f) s₀ = .next t ∧ ParksWith (kIllegal, 6) s t is m ∧
      ∀ l, l < 128 → ((t.group m.gid).thread l).wb = ((s.group m.gid).thread l).wb ∧
        ((t.group m.gid).thread l).stack = ((s.group m.gid).thread l).stack) ∧
  (∀ s₀ s is m, s₀.begin_ .endl Opnds.none = s → Issues s is m → m.act ≠ 0 → s.inHandler m.gid = false →
    (∀ l, m.act.getLsbD l = true → ((s.group m.gid).thread l).stack ≠ [] ∧
      (((s.group m.gid).thread l).stack.headD 0).toNat > min 384 (s.group m.gid).id.stride) →
    ∃ t, exec .endl s₀ = .next t ∧ ParksWith (kIllegal, 6) s t is m ∧
      ∀ l, l < 128 → ((t.group m.gid).thread l).wb = ((s.group m.gid).thread l).wb ∧
        ((t.group m.gid).thread l).stack = ((s.group m.gid).thread l).stack) ∧
  (∀ f s₀ s is m, s₀.begin_ (.wbase f) Opnds.none = s → Issues s is m → m.act ≠ 0 → s.inHandler m.gid = false →
    f.imm.toNat > min 384 (s.group m.gid).id.stride →
    ∃ t, exec (.wbase f) s₀ = .next t ∧ ParksWith (kIllegal, 6) s t is m ∧
      ∀ l, l < 128 → ((t.group m.gid).thread l).wb = ((s.group m.gid).thread l).wb) ∧
  (∀ f s₀ s is m, s₀.begin_ (.trap f) Opnds.none = s → Issues s is m → m.act ≠ 0 → s.inHandler m.gid = false →
    ∃ t, exec (.trap f) s₀ = .next t ∧ ParksWith (kTrap, f.d.toNat + 128 * (f.a.toNat % 2)) s t is m) ∧
  (∀ f s₀ s is m, s₀.begin_ (.trap f) Opnds.none = s → Issues s is m → m.act = 0 →
    ∃ t, exec (.trap f) s₀ = .next t ∧ GoesOn s t is m 0 ∧ t.faults = s.faults)

/-- EXIT makes its active threads vacant, and the last one ends the group. Where lanes of the group stay behind, the
active threads of an EXIT become vacant and leave the live mask of every name, a name whose mask is then empty maps
nothing any more (one that an engine is still to read keeps them until then), the others of the split go on, and the
group stays as it is placed; memory is as it was. Where none stays behind, the group has exited: it is placed nowhere,
holds no allotment, and an open containment region is closed. (R81, R92, R145, R283) -/
def Obligations.ExitVacatesLanes : Prop :=
  (∀ s₀ s is m, s₀.begin_ .exit Opnds.none = s → Issues s is m → (s.group m.gid).occupied &&& ~~~m.act ≠ 0 →
    ∃ t, exec .exit s₀ = .next t ∧ t.mem = s.mem ∧ (t.group m.gid).run = (s.group m.gid).run ∧
      (∀ n e, tget (s.group m.gid).map n = some e → s.engineHolds m.gid e.map = false → tget (t.group m.gid).map n =
        if e.mask &&& ~~~m.act = 0 then none else some { e with mask := e.mask &&& ~~~m.act }) ∧
      (∀ l, l < 128 → m.act.getLsbD l = true → ((t.group m.gid).thread l).st = .vacant) ∧
      (∀ l, l < 128 → m.act.getLsbD l = false → ((t.group m.gid).thread l).st = ((s.group m.gid).thread l).st) ∧
      (∀ l, l < 128 → m.act.getLsbD l = false → m.lanes.getLsbD l = true → ((t.group m.gid).thread l).pc = is.next)) ∧
  (∀ s₀ s is m, s₀.begin_ .exit Opnds.none = s → Issues s is m → m.act ≠ 0 → (s.group m.gid).occupied &&& ~~~m.act = 0 →
    (s.group m.gid).run.place ≠ .gone →
    ∃ t, exec .exit s₀ = .next t ∧ (t.group m.gid).run.place = .gone ∧ (t.group m.gid).regs.allot = 0 ∧
      (t.group m.gid).contain = none)

/-- LD, LDS, LDC and LDWS complete their issue with the addresses of R173. A load whose lanes all have their translation
and pass their checks issues: an operation is in flight that holds each active lane's address (the scalar pair or lane
word plus the register or scaled displacement and DISP of R173), physical address, size, scope and order, and the
names or scalars that it will write; LDC acts once for the split. Last-use sources are released, the threads go on
after STALL, and memory, scalars, predicates, and every name not released are as they were. (R72, R76, R151, R171,
R173, R174, R176, R178, R179, R221) -/
def Obligations.LoadsIssue : Prop :=
  (∀ f, MemMeaning (.ld f) (meReq f none .load 0x68 false) false (fun _ _ => True)
    (fun s g l => s.addrGlobal f none g l) (fun _ _ _ => [])) ∧
  (∀ f e, MemMeaning (.ldExtended f e) (meReq f (some e) .load 0x68 false) false (fun _ _ => True)
    (fun s g l => s.addrGlobal f (some e) g l) (fun _ _ _ => [])) ∧
  (∀ f, MemMeaning (.lds f) (meReq f none .load 0x6A true) false (fun _ _ => True)
    (fun s g l => s.addrScratch f none g l) (fun _ _ _ => [])) ∧
  (∀ f e, MemMeaning (.ldsExtended f e) (meReq f (some e) .load 0x6A true) false (fun _ _ => True)
    (fun s g l => s.addrScratch f (some e) g l) (fun _ _ _ => [])) ∧
  (∀ f, MemMeaning (.ldws f) (meReq f none .load 0x6D false) false (fun _ _ => True)
    (fun s g l => s.addrGlobal f none g l) (fun _ _ _ => [])) ∧
  (∀ f e, MemMeaning (.ldwsExtended f e) (meReq f (some e) .load 0x6D false) false (fun _ _ => True)
    (fun s g l => s.addrGlobal f (some e) g l) (fun _ _ _ => [])) ∧
  (∀ f, MemMeaning (.ldc f) (meReq f none .load 0x6C false) true (fun _ _ => True)
    (fun s g _ => s.addrScalar f none g) (fun _ _ _ => [])) ∧
  (∀ f e, MemMeaning (.ldcExtended f e) (meReq f (some e) .load 0x6C false) true (fun _ _ => True)
    (fun s g _ => s.addrScalar f (some e) g) (fun _ _ _ => []))

/-- ST, STS and PHPOST put each lane's bytes into the group's FIFO in ascending lane order. A store whose lanes all have
their translation and pass their checks issues (outside an open containment region that already holds 32 store
instructions): one FIFO entry for each active lane, in ascending order, with the lane's address by R173, its physical
address, and the first SIZE bytes, low first, of its data words as they are at issue (log entry 13, DEDUCED). PHPOST
stores its result word at PHASEWORD once for the split, as a release at .dev, and does nothing where PHASEWORD is 0.
No byte of memory has changed yet, and every register not released is as it was. (R72, R76, R151, R172, R173, R174,
R177, R221, R225, R243, R282) -/
def Obligations.StoresIssue : Prop :=
  (∀ f, MemMeaning (.st f) (meReq f none .store 0x69 false) false (fun s g => s.containFull g = false)
    (fun s g l => s.addrGlobal f none g l) (fun s g l => s.wordsAt g l (meData f))) ∧
  (∀ f e, MemMeaning (.stExtended f e) (meReq f (some e) .store 0x69 false) false (fun s g => s.containFull g = false)
    (fun s g l => s.addrGlobal f (some e) g l) (fun s g l => s.wordsAt g l (meData f))) ∧
  (∀ f, MemMeaning (.sts f) (meReq f none .store 0x6B true) false (fun _ _ => True)
    (fun s g l => s.addrScratch f none g l) (fun s g l => s.wordsAt g l (meData f))) ∧
  (∀ f e, MemMeaning (.stsExtended f e) (meReq f (some e) .store 0x6B true) false (fun _ _ => True)
    (fun s g l => s.addrScratch f (some e) g l) (fun s g l => s.wordsAt g l (meData f))) ∧
  (∀ f, SplitMeaning (.phpost f)
    { kind := .store, opcode := 0x16, scratch := false, size := 8, scope := 5, acq := false, rel := true }
    (fun s g => s.containFull g = false ∧ (s.launch (s.group g).id.launch).bundle.phaseWord ≠ 0)
    (fun s g _ => (s.launch (s.group g).id.launch).bundle.phaseWord)
    (fun s g _ => [BitVec.ofNat 32 (fld (s.scalar g f.a.toNat) 16 16 * 65536 + fld (s.scalar g f.a.toNat) 0 2),
      s.scalar g f.d.toNat])) ∧
  (∀ f s₀ s is m, s₀.begin_ (.phpost f) (opnds (.phpost f)) = s → Issues s is m →
    (s.launch (s.group m.gid).id.launch).bundle.phaseWord = 0 →
    ∃ t, exec (.phpost f) s₀ = .next t ∧ GoesOn s t is m 0 ∧ RegFrame m.gid [] s t)

/-- ATOM, ATOMS, SRD.sys and SWR.sys complete their issue. An atomic outside an open containment region whose lanes pass
their checks issues with the addresses of R183 and each lane's operand words; SRD.sys and SWR.sys issue once for the
split as an acquire and a release at .sys of the register whose offset the second word gives, with the scalars
written. The threads go on; no byte of memory and no register not released has changed yet. (R72, R173, R183, R184,
R293, R295) -/
def Obligations.AtomicsAndSystemAccessesIssue : Prop :=
  (∀ f e, MemMeaning (.atom f e) (atomReq e 0x70 false) false (fun s g => s.inContain g = false)
    (fun s g l => s.addrAtom f e g l) (fun s g l => s.wordsAt g l (atomData f e))) ∧
  (∀ f e, MemMeaning (.atoms f e) (atomReq e 0x71 true) false (fun s g => s.inContain g = false)
    (fun s g l => s.addrAtoms f e g l) (fun s g l => s.wordsAt g l (atomData f e))) ∧
  (∀ f e, SplitMeaning (.srdSys f e) (sysReq .load 4) (fun _ _ => True) (fun _ _ _ => e.setWidth 64) (fun _ _ _ => [])) ∧
  (∀ f e, SplitMeaning (.srdSysB64 f e) (sysReq .load 8) (fun _ _ => True) (fun _ _ _ => e.setWidth 64)
    (fun _ _ _ => [])) ∧
  (∀ f e, SplitMeaning (.swrSys f e) (sysReq .store 4) (fun _ _ => True) (fun _ _ _ => e.setWidth 64)
    (fun s g _ => [s.scalar g f.d.toNat])) ∧
  (∀ f e, SplitMeaning (.swrSysB64 f e) (sysReq .store 8) (fun _ _ => True) (fun _ _ _ => e.setWidth 64)
    (fun s g _ => [s.scalar g (evenOf f.d.toNat), s.scalar g (evenOf f.d.toNat + 1)]))

/-- LOAD_PERFORM gives a lane the bytes of its address, low first. A load lane that is ready and whose bytes all read (its
group's newest earlier FIFO entry, else the nodes from the core outward, else the bank or device) is performed: its
value is those SIZE bytes, little-endian; a lane at a system register takes the register's value. While other lanes
are still to be performed the operation stays; with its last lane it is gone, its slot is clear, and its destination
holds the zero-extended word, in the lanes still there. No byte of memory and no FIFO changes, but for older node
entries that a scope beyond the core pushes out first. (R172, R176, R178, R223, R224, R293) -/
def Obligations.LoadsArePerformed : Prop :=
  ∀ (s u : State) op lane m x pa v, tget s.flight.ops op = some m → m.todo lane = some (x, pa) → m.kind = .load →
    s.loadReady op m x pa = true → (∀ y, y ∈ m.lanes → y.cause = none) →
    (u = if pa < sysBase ∧ m.scope > 1 ∧ pa < scratchBase then
        (s.pushToward (pathOf (s.coreOf m.gid)) (s.scopeNode m.gid m.scope) pa m.size).settle else s) →
    (pa < sysBase → ∃ b : List Byte, (∀ j, j < m.size → u.loadByte m.gid op (pa + j) = some (b.getD j 0)) ∧
      b.length = m.size ∧ v = BitVec.ofNat 64 (leNat b)) →
    (sysBase ≤ pa → v = s.sysValue (pa - sysBase) m.size) →
    ∃ t, exec (.loadPerform op lane) s = .next t ∧ t.mem = u.mem ∧ (∀ g, (t.group g).fifo = (u.group g).fifo) ∧
      t.flight.nodes = u.flight.nodes ∧
      ((∃ y, y ∈ m.lanes ∧ y.lane ≠ lane ∧ y.over = false) → ∃ m', tget t.flight.ops op = some m' ∧
        m'.lanes = m.lanes.map (fun y => if y.lane = lane then { y with done := true, value := v } else y)) ∧
      ((∀ y, y ∈ m.lanes → y.lane ≠ lane → y.over = true) → tget t.flight.ops op = none ∧
        (m.slot ≠ 0 → tget (t.group m.gid).sb m.slot = none)) ∧
      (∀ d, m.lanes = [x] → m.sdest = some d → d < 128 → m.size < 8 → (tget s.groups m.gid).isSome = true →
        (s.group m.gid).run.place ≠ .stowed → s.shadowScalar m.gid d = false → s.scalarTaken m.gid d m.mask m.seq = false →
        t.scalar m.gid d = loWord v) ∧
      (∀ n, (∀ y, y ∈ m.lanes → y.lane ≠ lane → y.over = true) → m.sdest = none → m.dests = [n] → m.resv.length ≤ 1 →
        (tget s.groups m.gid).isSome = true → lane < 128 → (s.group m.gid).occupied.getLsbD lane = true →
        WritableName s m.gid n (m.resv.getD 0 none) → (t.readName m.gid n lane).val = loWord v)

/-- STORE_DRAIN and STORE_PUSH move the oldest bytes outward; nothing else in memory changes. When the first FIFO entry
that a containment region does not hold may leave, it leaves the FIFO: for device memory it enters its core's node
after every entry there and no byte of memory changes; for a scratchpad its bytes are stored at its physical address
and every other byte of memory is as it was; for a system register it is on its way there. An entry of a node that no
older one overlaps moves to the parent node, or from a die node to memory: exactly its bytes are stored, and every
byte outside them is as it was; a quarantined page keeps its data (R170). (R170, R172, R174, R221, R222, R225, R229,
R293) -/
def Obligations.StoresDrainInOrder : Prop :=
  (∀ s g e pa, (s.group g).fifoHead = some e → s.drainReady g e = true → e.pa = some pa →
    ∃ t, exec (.storeDrain g) s = .next t ∧ (t.group g).fifo = (s.group g).fifo.erase e ∧
      (∀ h, h ≠ g → (t.group h).fifo = (s.group h).fifo) ∧
      (pa < scratchBase → t.mem = s.mem ∧ t.node (s.coreOf g) = s.node (s.coreOf g) ++ [⟨e.op, g, pa, e.bytes⟩] ∧
        ∀ n, n ≠ s.coreOf g → t.node n = s.node n) ∧
      (scratchBase ≤ pa → pa < sysBase → Stored s t pa e.bytes ∧ ∀ n, t.node n = s.node n) ∧
      (sysBase ≤ pa → t.mem = s.mem ∧ (∀ n, t.node n = s.node n) ∧ ∃ id w, tget t.flight.sysw id = some w ∧
        w.off = pa - sysBase ∧ w.val = BitVec.ofNat 64 (leNat e.bytes) ∧ w.op = e.op ∧ w.gid = g)) ∧
  (∀ s n j e, n < deviceNode → (s.node n)[j]? = some e →
    ((s.node n).take j).all (fun x => !overlap x.pa x.bytes.length e.pa e.bytes.length) = true →
    ∃ t, exec (.storePush n j) s = .next t ∧ t.node n = (s.node n).eraseIdx j ∧
      (n < 80 → t.mem = s.mem ∧ t.node (parentNode n) = s.node (parentNode n) ++ [e]) ∧
      (80 ≤ n → s.quarantined e.pa = false → Stored s t e.pa e.bytes) ∧ (80 ≤ n → s.quarantined e.pa = true → t.mem = s.mem) ∧
      (∀ g, (t.group g).fifo = (s.group g).fifo)) ∧
  (∀ s g, (s.group g).fifo = [] → exec (.storeDrain g) s = .next s)

/-- ATOMIC_PERFORM reads and writes a lane's word as one action. An atomic lane that is ready, whose operand lies within
one 32-byte grain (as an aligned one does) of no quarantined page, whose bytes read and whose exceptions are not
enabled, is performed at the node of its scope, or at the bank for a scratchpad: its value is the old word, and the
new word (sum, difference, least, greatest, and, or, xor, exchange, compare-and-exchange, or float sum, by AOP) is
written there as one entry; exactly those bytes of memory change where it acts at the device or a bank, and none where
it acts at another node. Its exceptions are ORed into GFLAGS. (R125, R183, R184, R220, R226, R229) -/
def Obligations.AtomicsArePerformed : Prop :=
  (∀ (s u : State) op lane m x pa aop ret target (b : List Byte) v fl, tget s.flight.ops op = some m →
    m.todo lane = some (x, pa) → m.kind = .atomic aop ret → s.atomReady op m x pa = true → m.size ≠ 0 → pa % 32 + m.size ≤ 32 →
    (∀ y, y ∈ m.lanes → y.cause = none) → (tget s.groups m.gid).isSome = true →
    (target = if scratchBase ≤ pa then deviceNode else s.scopeNode m.gid m.scope) →
    (u = if scratchBase ≤ pa then s else (s.pushToward (pathOf (s.coreOf m.gid)) target pa m.size).settle) →
    b.length = m.size → u.quarantined pa = false →
    (∀ j, j < m.size → u.pathByte (if scratchBase ≤ pa then [] else (pathOf (s.coreOf m.gid)).dropWhile (· ≠ target))
      (pa + j) = some (b.getD j 0)) →
    ((v, fl) = atomNew (s.ftz m.gid) aop (8 * m.size) (leNat b)
      (if m.size = 8 then (wideOf (x.data.getD 1 0) (x.data.getD 0 0)).toNat else (x.data.getD 0 0).toNat)
      (if m.size = 8 then (wideOf (x.data.getD 1 0) (x.data.getD 0 0)).toNat else (x.data.getD 0 0).toNat)
      (if m.size = 8 then (wideOf (x.data.getD 3 0) (x.data.getD 2 0)).toNat else (x.data.getD 1 0).toNat)) →
    trapSub (s.regionOf m.gid).trapen fl = 0 →
    ∃ t, exec (.atomicPerform op lane) s = .next t ∧
      (target = deviceNode ∨ scratchBase ≤ pa → Stored u t pa (leBytes m.size v)) ∧
      (target ≠ deviceNode → pa < scratchBase → t.mem = u.mem ∧
        t.node target = u.node target ++ [⟨0, m.gid, pa, leBytes m.size v⟩]) ∧
      (t.group m.gid).regs.gflags = (u.group m.gid).regs.gflags ||| fl ∧
      ((∃ y, y ∈ m.lanes ∧ y.lane ≠ lane ∧ y.over = false) → ∃ m', tget t.flight.ops op = some m' ∧
        m'.lanes = m.lanes.map (fun y => if y.lane = lane then
          { y with done := true, value := BitVec.ofNat 64 (leNat b) } else y)) ∧
      ((∀ y, y ∈ m.lanes → y.lane ≠ lane → y.over = true) → tget t.flight.ops op = none)) ∧
  (∀ z w a b n, (w = 32 ∨ w = 64) → a < 2 ^ w → b < 2 ^ w →
    (atomNew z 0 w a b b n).1 = (a + b) % 2 ^ w ∧ ((atomNew z 1 w a b b n).1 + b) % 2 ^ w = a ∧
    sextN w (atomNew z 2 w a b b n).1 = min (sextN w a) (sextN w b) ∧
    sextN w (atomNew z 3 w a b b n).1 = max (sextN w a) (sextN w b) ∧
    (atomNew z 4 w a b b n).1 = min a b ∧ (atomNew z 5 w a b b n).1 = max a b ∧
    (atomNew z 6 w a b b n).1 = a &&& b ∧ (atomNew z 7 w a b b n).1 = a ||| b ∧ (atomNew z 8 w a b b n).1 = a ^^^ b ∧
    (atomNew z 9 w a b b n).1 = b ∧ (atomNew z 10 w a b b n).1 = if a = b then n else a)

/-- A walk caches its leaf; PREF has no effect; a refresh window lets the waiting reads go on. PREF and its extended form
release their last-use sources and change nothing else: no byte of memory and no operation in flight. A walk behind
256 earlier ones of its die waits, and one of which a table word stands in a refresh window. Another is in flight no
more once it ends, and where it finds a leaf, its core's TLB finds the walked page's leaf from then on; memory is as
it was. Where no read waits at a weight-store bank, the end of its refresh window changes nothing. (R66, R151, R155,
R180) -/
def Obligations.WalksAndHints : Prop :=
  (∀ f s₀ s is m, s₀.begin_ (.pref f) (opnds (.pref f)) = s → Issues s is m →
    ∃ t, exec (.pref f) s₀ = .next t ∧ GoesOn s t is m 0 ∧ RegFrame m.gid (releasedNames s (.pref f) m.gid is.wb) s t ∧
      FreesSources (.pref f) s t is m ∧       t.flight = s.flight) ∧
  (∀ f e s₀ s is m, s₀.begin_ (.prefExtended f e) (opnds (.prefExtended f e)) = s → Issues s is m →
    ∃ t, exec (.prefExtended f e) s₀ = .next t ∧ GoesOn s t is m 0 ∧
      RegFrame m.gid (releasedNames s (.prefExtended f e) m.gid is.wb) s t ∧
      FreesSources (.prefExtended f e) s t is m ∧ t.flight = s.flight) ∧
  (∀ s id w, tget s.flight.walks id = some w → (s.walkRuns id w = false ∨ s.walkHeld w.troot (w.page * 65536) = true) →
    exec (.tlbWalkDone id) s = .next s) ∧
  (∀ s id w, tget s.flight.walks id = some w → s.walkRuns id w = true → s.walkHeld w.troot (w.page * 65536) = false →
    s.flight.ops = [] →
    ∃ t, exec (.tlbWalkDone id) s = .next t ∧ tget t.flight.walks id = none ∧ t.mem = s.mem ∧ t.groups = s.groups ∧
      (∀ e, s.walkLeaf w.troot (w.page * 65536) = .ok e → ((tget t.flight.tlbs w.tlb).getD []).head? = some { e with asid := w.asid }) ∧
      (∀ c, s.walkLeaf w.troot (w.page * 65536) = .error c → t.flight.tlbs = s.flight.tlbs)) ∧
  (∀ s d b, s.flight.ops = [] → exec (.wsRefreshWindowEnd d b) s = .next s) ∧
  (∀ s d b op m x pa off, s.flight.ops = [(op, m)] → m.kind = .load → m.lanes = [x] → x.over = false → x.pa = some pa →
    window pa = .weight d off → off / 4096 % 32 = b →
    exec (.wsRefreshWindowEnd d b) s = exec (.loadPerform op x.lane) s)

/-- LDSP queues a transfer, and its segments move the bytes and arrive. LDSP of a positive number of bytes that passes its
checks (aligned, within the range, outside a containment region) queues a transfer with the source pair, the
destination, the barrier and its generation in the core's transfer unit when fewer than 16 are there, and its threads
go on; LDSP of 0 bytes only sends an engine arrival. A segment that is ready, whose source waits for no walker and no
refresh window and whose source bytes read is moved (what has been walked for it is cached) to the block's scratchpad,
from its place in the source to its place in the destination where no service has named others: the last segment frees
the entry and sends one arrival of the whole count to the barrier with the generation that the transfer was bound to.
(R157, R182, R230) -/
def Obligations.TransfersMoveSegments : Prop :=
  (∀ f e s₀ s is m blk dst, s₀.begin_ (.ldsp f e) (opnds (.ldsp f e)) = s → Issues s is m → m.act ≠ 0 →
    s.inContain m.gid = false → s.scalar m.gid f.b.toNat ≠ 0 →
    s.ldspCheck m.gid (s.scalar m.gid f.d.toNat) (s.pair m.gid f.a.toNat) (s.scalar m.gid f.b.toNat).toNat = .ok (blk, dst) →
    tfree (s.core (s.coreOf m.gid)).xfer < 16 →
    ∃ t, exec (.ldsp f e) s₀ = .next t ∧ GoesOn s t is m 0 ∧ t.mem = s.mem ∧ ∃ n x,
      tget (s.core (s.coreOf m.gid)).xfer n = none ∧ tget (t.core (s.coreOf m.gid)).xfer n = some x ∧ x.gid = m.gid ∧
      x.block = blk ∧ x.src = s.pair m.gid f.a.toNat ∧ x.dst = dst ∧ x.n = (s.scalar m.gid f.b.toNat).toNat ∧
      x.bar = fld e 0 4 ∧ x.gen = s.genAt m.gid (fld e 0 4) ∧ x.done = []) ∧
  (∀ f e s₀ s is m blk dst, s₀.begin_ (.ldsp f e) (opnds (.ldsp f e)) = s → Issues s is m → m.act ≠ 0 →
    s.inContain m.gid = false → s.scalar m.gid f.b.toNat = 0 →
    s.ldspCheck m.gid (s.scalar m.gid f.d.toNat) (s.pair m.gid f.a.toNat) 0 = .ok (blk, dst) →
    ∃ t, exec (.ldsp f e) s₀ = .next t ∧ GoesOn s t is m 0 ∧ t.mem = s.mem ∧ ∃ id a,
      tget t.flight.arrivals id = some a ∧ a.block = some (s.group m.gid).id.block ∧ a.bar = fld e 0 4 ∧
      a.gen = s.genAt m.gid (fld e 0 4) ∧ a.n = 0) ∧
  (∀ (x : Transfer) seg, tget x.again seg = none →
    x.plan seg = (x.range seg).map (fun r => (x.src.toNat + r.1, x.dst + r.1, r.2, 0))) ∧
  (∀ s core entry x id seg va dst n off u r, s.findXfer id = some (core, entry, x) → tget (s.core core).xfer entry = some x →
    x.plan seg = some (va, dst, n, off) → s.xferReady x seg = true → s.xferHeld core x va n = false →
    r = (s.launch x.launch).region →
    s.xferAstray x seg dst n = false → (s.coreFills core r.asid r.troot va n).xferMove core x va dst n = (u, none) →
    ∃ t, exec (.transferSegment id seg) s = .next t ∧ t.mem = u.mem ∧
      (x.done.length + 1 < x.count → ∃ y, tget (t.core core).xfer entry = some y ∧ y.done = seg :: x.done) ∧
      (x.done.length + 1 = x.count → tget (t.core core).xfer entry = none ∧ ∃ k a, tget t.flight.arrivals k = some a ∧
        a.bar = x.bar ∧ a.gen = x.gen ∧ a.n = x.n ∧ a.block = some (s.group x.gid).id.block))

/-- FENCE and WAITSB wait, and return when what they wait for is over. FENCE and WAITSB with an active thread make their
active threads wait with what the word names (a fence with neither order bit is full). A fence whose acquire part
finds its threads' earlier loads and atomics over, and whose release part finds the group's earlier stores at the node
of the scope or beyond, returns, and one that does not stays as it is; WAITSB returns when every named slot but its
own is clear. (R81, R185, R186, R227) -/
def Obligations.FencesWaitForEarlierAccesses : Prop :=
  (∀ f s₀ s is m, s₀.begin_ (.fence f) Opnds.none = s → Issues s is m → m.act ≠ 0 →
    ∃ t, exec (.fence f) s₀ = .next t ∧ WaitDone (.fence (f.b.getLsbD 3 || !f.b.getLsbD 4) (f.b.getLsbD 4 || !f.b.getLsbD 3)
      (fld f.b 0 3)) 0 s t is m) ∧
  (∀ f s₀ s is m, s₀.begin_ (.waitsb f) Opnds.none = s → Issues s is m → m.act ≠ 0 →
    ∃ t, exec (.waitsb f) s₀ = .next t ∧ WaitDone (.waitsb (f.imm.setWidth 8)) 0 s t is m) ∧
  (∀ s id w acq rel scope, tget s.flight.waits id = some w → w.kind = .fence acq rel scope →
    ((acq = true → s.earlierLoadsOver w.gid id w.lanes = true) ∧ (rel = true → s.earlierStoresOut w.gid id scope = true) →
      ∃ t, exec (.fenceComplete id) s = .next t ∧ WaitOver id w s t) ∧
    (acq = true ∧ s.earlierLoadsOver w.gid id w.lanes = false ∨ rel = true ∧ s.earlierStoresOut w.gid id scope = false →
      exec (.fenceComplete id) s = .next s)) ∧
  (∀ s id w slots, tget s.flight.waits id = some w → w.kind = .waitsb slots →
    (∀ k, k < 8 → k ≠ w.slot → slots.getLsbD k = true → tget (s.group w.gid).sb k = none) →
    ∃ t, exec (.waitsbReturn id) s = .next t ∧ WaitOver id w s t)

/-- Barrier instructions queue at the bank, which applies them; waits follow PHASE and LP. BINIT, BARV and BEXP with an
active thread queue one operation at the end of their block's bank and go on. The bank applies its first operation
that may go: init sets EXPECT, clears the counts and steps GEN; an arrival adds one; an expectation adds its bytes;
and check flips PHASE and clears the counts exactly when EXPECT is not 0 and both counts are reached. What was to read
GEN right after that operation has it then, and an engine arrival waits for such a read (R189). An engine arrival of
the right generation adds one and its bytes; one of another generation sets STALEARRIVE and leaves the barrier. BWAIT
waits, and its group's first returns when PHASE differs from LP, or once its phase has completed (which a later flip
does not undo), toggling LP; BTEST writes whether it differs to pD and toggles LP if so. (R71, R79, R128, R156, R157,
R187, R188, R189, R231) -/
def Obligations.BarriersCountAndFlip : Prop :=
  (∀ i o bar kind s₀ s is m, (∃ f, i = .binit f ∧ o = Opnds.none ∧ bar = f.d.toNat % 16 ∧ kind = .init (f.imm.setWidth 16)) ∨
      (∃ f e, i = .binitLiteral f e ∧ o = Opnds.none ∧ bar = f.d.toNat % 16 ∧ kind = .init (e.setWidth 16)) ∨
      (∃ f, i = .barv f ∧ o = Opnds.none ∧ bar = f.a.toNat % 16 ∧ kind = .arrive) ∨
      (∃ f, i = .bexp f ∧ o = opnds i ∧ bar = f.a.toNat % 16 ∧ kind = .expect (s.scalar m.gid f.b.toNat)) ∨
      (∃ f e, i = .bexpLiteral f e ∧ o = Opnds.none ∧ bar = f.a.toNat % 16 ∧ kind = .expect e) →
    s₀.begin_ i o = s → Issues s is m → m.act ≠ 0 → (tget s.blocks (s.group m.gid).id.block).isSome = true →
    ∃ t x, exec i s₀ = .next t ∧ GoesOn s t is m 0 ∧ t.mem = s.mem ∧ x.gid = m.gid ∧ x.bar = bar ∧ x.kind = kind ∧
      x.slot = is.sbset ∧ t.block (s.group m.gid).id.block = { s.block (s.group m.gid).id.block with
        bank := (s.block (s.group m.gid).id.block).bank ++ [x] }) ∧
  (∀ s b x, s.bankNext (s.block b).bank = some x → (tget s.blocks b).isSome = true → x.bar < 16 →
    ∃ t, exec (.barrierBankOp b) s = .next t ∧ (t.block b).bank = (s.block b).bank.erase x ∧
      (t.block b).bar x.bar = ((s.block b).bar x.bar).apply x.kind ∧
      (∀ k, k < 16 → k ≠ x.bar → (t.block b).bar k = (s.block b).bar k) ∧ t.mem = s.mem ∧
      (∀ k a, tget s.flight.arrivals k = some a → a.gen = .behind x.seq →
        tget t.flight.arrivals k = some { a with gen := .value ((t.block b).bar a.bar).gen }) ∧
      (x.slot ≠ 0 → tget (t.group x.gid).sb x.slot = none)) ∧
  (∀ (b : Bar) n x, b.apply (.init n) = ⟨n, 0, 0, 0, b.gen + 1, b.phase⟩ ∧
    (b.expect ≠ 0 ∧ (b.arrived + 1).toNat ≥ b.expect.toNat ∧ b.lbytes.toNat ≥ b.xbytes.toNat →
      b.apply .arrive = { b with arrived := 0, xbytes := 0, lbytes := 0, phase := !b.phase }) ∧
    (b.expect = 0 ∨ (b.arrived + 1).toNat < b.expect.toNat ∨ b.lbytes.toNat < b.xbytes.toNat →
      b.apply .arrive = { b with arrived := b.arrived + 1 }) ∧
    (b.expect = 0 → b.apply (.expect x) = { b with xbytes := b.xbytes + x })) ∧
  (∀ s id a k B, tget s.flight.arrivals id = some a → a.block = some k → tget s.blocks k = some B → a.bar < 16 →
    (s.genOpen a = true → exec (.engineArrive id) s = .next s) ∧
    (a.gen = .value (B.bar a.bar).gen → ∃ t, exec (.engineArrive id) s = .next t ∧ tget t.flight.arrivals id = none ∧
      (t.block k).bar a.bar = (B.bar a.bar).engine a.n ∧ t.mem = s.mem) ∧
    (∀ g, a.gen = .value g → (B.bar a.bar).gen ≠ g → a.chan = none → (tget s.groups a.gid).isSome = true →
      ∃ t, exec (.engineArrive id) s = .next t ∧ tget t.flight.arrivals id = none ∧ t.block k = B ∧
        (t.group a.gid).regs.gwarn.getLsbD 2 = true)) ∧
  (∀ f s₀ s is m, s₀.begin_ (.bwait f) Opnds.none = s → Issues s is m → m.act ≠ 0 →
    ∃ t, exec (.bwait f) s₀ = .next t ∧ WaitDone (.bwait (f.a.toNat % 16) false) 0 s t is m) ∧
  (∀ s id w b passed, tget s.flight.waits id = some w → w.kind = .bwait b passed → b < 16 →
    (s.bwaits w.gid b).head?.map Prod.fst = some id →
    (passed = true ∨ ((s.blockOf w.gid).bar b).phase ≠ (s.group w.gid).regs.lp.getLsbD b) →
    (s.group w.gid).run.place ≠ .stowed →
    (tget s.groups w.gid).isSome = true →
    ∃ t, exec (.bwaitReturn id) s = .next t ∧ WaitOver id w s t ∧
      (t.group w.gid).regs.lp = (s.group w.gid).regs.lp ^^^ (1#16 <<< b)) ∧
  (∀ s b x id w G, s.bankNext (s.block b).bank = some x → (tget s.blocks b).isSome = true → x.bar < 16 →
    (((s.block b).bar x.bar).apply x.kind).phase ≠ ((s.block b).bar x.bar).phase →
    tget s.flight.waits id = some w → w.kind = .bwait x.bar false → s.bwaits w.gid x.bar = [(id, false)] →
    tget s.groups w.gid = some G → G.id.block = b → G.regs.lp.getLsbD x.bar = ((s.block b).bar x.bar).phase →
    ∃ t, exec (.barrierBankOp b) s = .next t ∧ tget t.flight.waits id = some { w with kind := .bwait x.bar true }) ∧
  (∀ f s₀ s is m, s₀.begin_ (.btest f) (opnds (.btest f)) = s → Issues s is m → m.act ≠ 0 →
    ∃ t, exec (.btest f) s₀ = .next t ∧ GoesOn s t is m 0 ∧ OnlyGroup m.gid s t ∧
      (∀ l p, l < 128 → p < 7 → m.act.getLsbD l = true → t.predOf m.gid l p =
        if p = pf f.d then s.phasePassed m.gid (f.a.toNat % 16) else s.predOf m.gid l p) ∧
      (t.group m.gid).regs.lp = (if s.phasePassed m.gid (f.a.toNat % 16) = true
        then (s.group m.gid).regs.lp ^^^ (1#16 <<< (f.a.toNat % 16)) else (s.group m.gid).regs.lp))

/-- MBW fills an empty mailbox, MBR takes from a full one and MBP leaves it full. MBW captures its lowest active lane's
value at issue, releases its source, and its threads wait; MBR and MBP make theirs wait. When no earlier write of the
mailbox is queued, the mailbox is empty and the release at .blk holds, MAILBOX_FILL puts the value there, full, and
the wait is over; when no earlier read is queued and the mailbox is full and not poisoned, MAILBOX_TAKE writes its
value to the scalar or the pair (where no split that issued later has written it already), MBR empties the mailbox and
MBP leaves it, and the wait is over. The block's other mailboxes and memory are as they were. (R81, R95, R105, R128,
R190, R231) -/
def Obligations.MailboxesHandOver : Prop :=
  (∀ f s₀ s is m, (s₀.beginStall (.mbw f) (opnds (.mbw f))).readLow (opnds (.mbw f)) = s → Issues s is m → m.act ≠ 0 →
    ∃ t, exec (.mbw f) s₀ = .next t ∧ GoesOn s t is m 0 ∧ t.mem = s.mem ∧
      FreesSources (.mbw f) s t is m ∧
      (∀ l, l < 128 → m.act.getLsbD l = true → ((t.group m.gid).thread l).st = .waiting) ∧
      ∃ id w, tget t.flight.waits id = some w ∧ w.gid = m.gid ∧ w.lanes = m.act ∧
        w.kind = .mbw (f.b.toNat % 16) (wideOf ((s.laneSrcs m.gid is.wb (opnds (.mbw f)) (lowLane m.act)).getD 1 0)
          ((s.laneSrcs m.gid is.wb (opnds (.mbw f)) (lowLane m.act)).getD 0 0)) false) ∧
  (∀ f s₀ s is m, s₀.begin_ (.mbr f) (opnds (.mbr f)) = s → Issues s is m → m.act ≠ 0 →
    ∃ t, exec (.mbr f) s₀ = .next t ∧ WaitDone (.mbr (f.b.toNat % 16) true (f.a.getLsbD 0) f.d.toNat) 0 s t is m) ∧
  (∀ f s₀ s is m, s₀.begin_ (.mbp f) (opnds (.mbp f)) = s → Issues s is m → m.act ≠ 0 →
    ∃ t, exec (.mbp f) s₀ = .next t ∧ WaitDone (.mbr (f.b.toNat % 16) false (f.a.getLsbD 0) f.d.toNat) 0 s t is m) ∧
  (∀ s id w b n v bad, tget s.flight.waits id = some w → w.kind = .mbw n v bad → b = (s.group w.gid).id.block → n < 16 →
    (tget s.blocks b).isSome = true → s.queuedBehind w (fun k => k.writes n) = false → ((s.block b).mbox n).full = false →
    s.releaseOk w.gid id w.lanes 1 = true →
    ∃ t, exec (.mailboxFill id) s = .next t ∧ WaitOver id w s t ∧ (t.block b).mbox n = ⟨v, true, bad⟩ ∧
      ∀ k, k < 16 → k ≠ n → (t.block b).mbox k = (s.block b).mbox k) ∧
  (∀ s id w b n take wide d, tget s.flight.waits id = some w → w.kind = .mbr n take wide d →
    b = (s.group w.gid).id.block → n < 16 → (tget s.blocks b).isSome = true → (tget s.groups w.gid).isSome = true →
    s.queuedBehind w (fun k => k.reads n) = false → ((s.block b).mbox n).full = true → ((s.block b).mbox n).poison = false →
    (s.group w.gid).run.place ≠ .stowed → s.inHandler w.gid = false → d < 128 → (∀ n, s.scalarTaken w.gid n w.lanes w.seq = false) →
    ∃ t, exec (.mailboxTake id) s = .next t ∧ WaitOver id w s t ∧
      (t.block b).mbox n = (if take = true then { (s.block b).mbox n with full := false } else (s.block b).mbox n) ∧
      (∀ k, k < 16 → k ≠ n → (t.block b).mbox k = (s.block b).mbox k) ∧
      (wide = true → t.pair w.gid d = ((s.block b).mbox n).val) ∧
      (wide = false → t.scalar w.gid d = loWord ((s.block b).mbox n).val))

/-- REGGIVE, REGCLAIM and ROLE move registers between a group and its block. REGGIVE of n (leaving at least 16) takes n
from the allotment; what the group holds beyond its new allotment is owed and the rest goes to FREE, so that
allotment, owed and FREE together stay the same. REGCLAIM of a positive n within 512 joins its block's queue and its
threads wait; CLAIM_SERVE serves a head that FREE covers: FREE falls and the group's allotment grows by n, and its
wait is over. ROLE by all the group's threads, to a sub-launch of the same allotment, gives the group its entry PC,
role and WSTRIDE with empty windows. (R81, R96, R237, R238, R239, R240, R242) -/
def Obligations.AllotmentsMove : Prop :=
  (∀ i o n s₀ s is m, (∃ f, i = .reggive f ∧ o = opnds i ∧ n = (s.scalar m.gid f.a.toNat).toNat) ∨
      (∃ f e, i = .reggiveLiteral f e ∧ o = Opnds.none ∧ n = e.toNat) →
    s₀.begin_ i o = s → Issues s is m → m.act ≠ 0 → n ≠ 0 → n + 16 ≤ (s.group m.gid).regs.allot →
    (tget s.blocks (s.group m.gid).id.block).isSome = true →
    ∃ t, exec i s₀ = .next t ∧ GoesOn s t is m 0 ∧ t.mem = s.mem ∧ (t.group m.gid).regs.allot = (s.group m.gid).regs.allot - n ∧
      (t.group m.gid).regs.owe - (s.group m.gid).regs.owe =
        min n ((s.core (s.coreOf m.gid)).held m.gid - ((s.group m.gid).regs.allot - n)) ∧
      (t.block (s.group m.gid).id.block).free + (t.group m.gid).regs.owe + (t.group m.gid).regs.allot =
        (s.block (s.group m.gid).id.block).free + (s.group m.gid).regs.owe + (s.group m.gid).regs.allot) ∧
  (∀ i o n s₀ s is m, (∃ f, i = .regclaim f ∧ o = opnds i ∧ n = (s.scalar m.gid f.a.toNat).toNat) ∨
      (∃ f e, i = .regclaimLiteral f e ∧ o = Opnds.none ∧ n = e.toNat) →
    s₀.begin_ i o = s → Issues s is m → m.act ≠ 0 → n ≠ 0 → (s.group m.gid).regs.allot + n ≤ 512 →
    (tget s.blocks (s.group m.gid).id.block).isSome = true →
    ∃ t id w, exec i s₀ = .next t ∧ GoesOn s t is m 0 ∧ t.mem = s.mem ∧ tget t.flight.waits id = some w ∧ w.gid = m.gid ∧
      w.lanes = m.act ∧ w.kind = .claim n ∧
      (∀ l, l < 128 → m.act.getLsbD l = true → ((t.group m.gid).thread l).st = .waiting) ∧
      (t.block (s.group m.gid).id.block).claims = (s.block (s.group m.gid).id.block).claims ++ [.thread id] ∧
      (t.block (s.group m.gid).id.block).free = (s.block (s.group m.gid).id.block).free) ∧
  (∀ s b id w n rest, (s.block b).claims = .thread id :: rest → tget s.flight.waits id = some w → w.kind = .claim n →
    n ≤ (s.block b).free → (s.block b).run = .running → (tget s.blocks b).isSome = true →
    (tget s.groups w.gid).isSome = true →
    ∃ t, exec (.claimServe b) s = .next t ∧ WaitOver id w s t ∧ (t.block b).claims = rest ∧
      (t.block b).free = (s.block b).free - n ∧ (t.group w.gid).regs.allot = (s.group w.gid).regs.allot + n) ∧
  (∀ f s₀ s is m L sub, s₀.begin_ (.role f) Opnds.none = s → Issues s is m → m.act ≠ 0 →
    L = s.launch (s.group m.gid).id.launch → L.bundle.subs[f.d.toNat % 4]? = some sub → s.inContain m.gid = false →
    m.act = (s.group m.gid).occupied → L.allotOf (f.d.toNat % 4) = (s.group m.gid).regs.allot →
    (f.a.getLsbD 3 = true ∨ fld f.a 0 3 ≤ L.current) →
    ∃ t, exec (.role f) s₀ = .next t ∧ OnlyGroup m.gid s t ∧ (t.group m.gid).regs = (s.group m.gid).regs ∧
      (∀ l, l < 128 → m.act.getLsbD l = true → ((t.group m.gid).thread l).pc = sub.entry ∧
        ((t.group m.gid).thread l).wb = 0 ∧ ((t.group m.gid).thread l).stack = []) ∧
      (t.group m.gid).id = { (s.group m.gid).id with
        sub := some (f.d.toNat % 4), role := sub.role, stride := sub.stride
        cls := if f.a.getLsbD 3 = true then (s.group m.gid).id.cls else fld f.a 0 3 })

/-- SRD.grp, SWR.grp, RDID, RDTIME and CHKSET complete. SRD.grp writes the group register of its index to its scalar
(GWARN and GFLAGS once the group's earlier instructions have written back); SWR.grp clears the bits of GWARN or GFLAGS
that are ones in the scalar, sets GDITHER's PHASE, and leaves the read-only registers; RDID and RDTIME write the
identity word and the campanile value to a pair, low half first; CHKSET ORs bits into the checks in force and its M =
1 form restores the region's. The threads go on and nothing else changes. (R79, R106, R117, R125, R238, R293, R294,
R296, R297, R303) -/
def Obligations.GroupRegistersReadAndClear : Prop :=
  (∀ f e s₀ s is m, s₀.begin_ (.srdGrp f e) (opnds (.srdGrp f e)) = s → Issues s is m → m.act ≠ 0 →
    (e.toNat ≤ 1 → s.writtenBack m.gid = true) →
    ∃ t, exec (.srdGrp f e) s₀ = .next t ∧ SetsScalars [(f.d.toNat, s.groupReg m.gid e.toNat)] s t is m) ∧
  (∀ (s : State) g, s.groupReg g 0 = (s.group g).regs.gwarn.setWidth 32 ∧ s.groupReg g 1 = (s.group g).regs.gflags.setWidth 32 ∧
    s.groupReg g 2 = (s.group g).regs.phase.setWidth 32 ∧ s.groupReg g 5 = (s.group g).regs.chk.setWidth 32 ∧
    wideOf (s.groupReg g 9) (s.groupReg g 8) = (s.group g).regs.rres.value) ∧
  (∀ f e s₀ s is m, s₀.begin_ (.swrGrp f e) (opnds (.swrGrp f e)) = s → Issues s is m → m.act ≠ 0 →
    ∃ t, exec (.swrGrp f e) s₀ = .next t ∧ SetsRegs (fun r =>
      { r with
        gwarn := if e.toNat = 0 then r.gwarn &&& ~~~((s.scalar m.gid f.d.toNat).setWidth 4) else r.gwarn
        gflags := if e.toNat = 1 then r.gflags &&& ~~~((s.scalar m.gid f.d.toNat).setWidth 6) else r.gflags
        phase := if e.toNat = 2 then (s.scalar m.gid f.d.toNat).setWidth 5 else r.phase }) s t is m) ∧
  (∀ f s₀ s is m, s₀.begin_ (.rdid f) (opnds (.rdid f)) = s → Issues s is m → m.act ≠ 0 →
    ∃ t, exec (.rdid f) s₀ = .next t ∧ SetsScalars [(evenOf f.d.toNat, loWord (s.identity m.gid)),
      (evenOf f.d.toNat + 1, hiWord (s.identity m.gid))] s t is m) ∧
  (∀ f s₀ s is m, s₀.begin_ (.rdtime f) (opnds (.rdtime f)) = s → Issues s is m → m.act ≠ 0 →
    ∃ t, exec (.rdtime f) s₀ = .next t ∧ SetsScalars [(evenOf f.d.toNat, BitVec.ofNat 32 s.clk.ns),
      (evenOf f.d.toNat + 1, BitVec.ofNat 32 (s.clk.ns / 2 ^ 32))] s t is m) ∧
  (∀ f s₀ s is m, s₀.begin_ (.chkset f) (opnds (.chkset f)) = s → Issues s is m → m.act ≠ 0 →
    ∃ t, exec (.chkset f) s₀ = .next t ∧
      SetsRegs (fun r => { r with chk := r.chk ||| (s.scalar m.gid f.a.toNat).setWidth 3 }) s t is m) ∧
  (∀ f s₀ s is m, s₀.begin_ (.chksetRestore f) (opnds (.chksetRestore f)) = s → Issues s is m → m.act ≠ 0 →
    ∃ t, exec (.chksetRestore f) s₀ = .next t ∧ SetsRegs (fun r => { r with chk := (s.regionOf m.gid).chk }) s t is m)

/-- CTOPEN takes its snapshot and CTCLOSE drops it. CTOPEN by all the group's threads outside a region opens one: the
snapshot holds the rename table and each thread's window and loop stack, the handler is the relative target, the
status register is D and is set to 0, no store is held yet, and every physical register that a name maps is pinned. By
only some of the threads it parks them with ILLEGAL CONTAIN. CTCLOSE closes the open region, and the group's names
read as before; outside a region it parks its threads with ILLEGAL CONTAIN. (R281, R282, R283, R292) -/
def Obligations.ContainmentOpensAndCloses : Prop :=
  (∀ f e s₀ s is m, s₀.begin_ (.ctopen f e) (opnds (.ctopen f e)) = s → Issues s is m → s.inContain m.gid = false →
    m.act ≠ 0 → f.d.toNat < 128 →
    (m.act = (s.group m.gid).occupied → s.inHandler m.gid = false →
      ∃ t c, exec (.ctopen f e) s₀ = .next t ∧ GoesOn s t is m 0 ∧ t.mem = s.mem ∧ t.scalar m.gid f.d.toNat = 0 ∧
        (t.group m.gid).contain = some c ∧ c.map = (s.group m.gid).map ∧ c.handler = relTarget is.pc e.toInt ∧
        c.status = f.d.toNat ∧ c.stores = [] ∧ c.fresh = [] ∧
        c.frames = (s.group m.gid).threads.map (fun x => (x.wb, x.stack)) ∧
        ∀ n x p r, tget (s.group m.gid).map n = some x → x.map = .phys p → tget (s.core (s.coreOf m.gid)).pool p = some r →
          tget (t.core (s.coreOf m.gid)).pool p = some { r with pinned := true }) ∧
    (m.act ≠ (s.group m.gid).occupied → s.inHandler m.gid = false →
      ∃ t, exec (.ctopen f e) s₀ = .next t ∧ ParksWith (kIllegal, 0x0E) s t is m)) ∧
  (∀ s₀ s is m, s₀.begin_ .ctclose Opnds.none = s → Issues s is m → m.act ≠ 0 →
    (s.inContain m.gid = true → ∃ t, exec .ctclose s₀ = .next t ∧ GoesOn s t is m 0 ∧ (t.group m.gid).contain = none ∧
      (t.group m.gid).map = (s.group m.gid).map ∧ (t.group m.gid).fifo = (s.group m.gid).fifo ∧ t.mem = s.mem) ∧
    (s.inContain m.gid = false → s.inHandler m.gid = false →
      ∃ t, exec .ctclose s₀ = .next t ∧ ParksWith (kIllegal, 0x0E) s t is m))

/-- PMSET arms a match point, a hit enters its handler, PMRET and the abandonment leave it. PMSET whose descriptor reads,
is aligned and legal, and whose match point is free or the holder's own, arms or frees match point D. A hit sends the
active threads of the group's next split that match, and have not just come back, to the handler, under the window
that they had, with no loop frames and false predicates, and keeps each thread's PC, window, stack and predicates; a
second hit does not occur while a handler runs. PMRET by all of the handler's threads gives them back and ends the
handler, so that they stand at their PCs and do not match again at once; outside a handler it parks with ILLEGAL
SUBOP. (R300, R301) -/
def Obligations.MatchPointsStopAndReturn : Prop :=
  (∀ f s₀ s is m pa b, s₀.begin_ (.pmset f) (opnds (.pmset f)) = s → Issues s is m → m.act ≠ 0 →
    (s.pair m.gid f.a.toNat).toNat % 16 = 0 → s.readOwn m.gid (s.pair m.gid f.a.toNat) 16 = .ok (pa, b) →
    (leAt b 0 8 % 16 = 4 ∨ leAt b 0 8 % 16 = 8 ∨ leAt b 0 8 % 16 = 12) → leAt b 0 8 / 2 ^ 56 % 128 = 0 →
    (leAt b 8 8 % 16 = 4 ∨ leAt b 8 8 % 16 = 8 ∨ leAt b 8 8 % 16 = 12) → leAt b 8 8 / 2 ^ 56 = 0 →
    (∀ p, tget (s.core (s.coreOf m.gid)).points (f.d.toNat % 32) = some p → p.holder = (s.regionOf m.gid).rcb) →
    ∃ t, exec (.pmset f) s₀ = .next t ∧ GoesOn s t is m 0 ∧ t.mem = s.mem ∧
      tget (t.core (s.coreOf m.gid)).points (f.d.toNat % 32) = (if leAt b 0 8 / 2 ^ 63 = 1 then
        some ⟨BitVec.ofNat 64 (leAt b 0 8 % 2 ^ 56), BitVec.ofNat 64 (leAt b 8 8), (s.regionOf m.gid).rcb,
          (s.regionOf m.gid).world, pa⟩ else none)) ∧
  (∀ s g pc wb m i sl n p act, (s.candidates g).head? = some (pc, wb, m) → s.fetch g pc = .ok (i, sl) →
    s.pointAt g pc = some n → tget (s.core (s.coreOf g)).points n = some p → (tget s.groups g).isSome = true →
    s.matching g (s.guardMask g m (sl.ctl.extractLsb' 0 4)) = act → act ≠ 0 →
    ∃ t h, exec (.matchPointHit g) s = .next t ∧ OnlyGroup g s t ∧ (t.group g).handler = some h ∧ h.point = n ∧
      h.lanes = act ∧ h.ret = pc ∧ (∀ pc', t.pointAt g pc' = none) ∧
      (∀ l, l < 128 → act.getLsbD l = true → ((t.group g).thread l).pc = p.handler ∧ ((t.group g).thread l).wb = ((s.group g).thread l).wb ∧
        ((t.group g).thread l).stack = [] ∧ ((t.group g).thread l).preds = 0) ∧
      (∀ l, l < 128 → act.getLsbD l = false → (t.group g).thread l = (s.group g).thread l)) ∧
  (∀ s₀ s is m h, s₀.begin_ .pmret Opnds.none = s → Issues s is m → (s.group m.gid).handler = some h → m.act = h.lanes →
    ∃ t, exec .pmret s₀ = .next t ∧ OnlyGroup m.gid s t ∧ (t.group m.gid).handler = none ∧
      ∀ l pc wb stk ps, l < 128 → m.act.getLsbD l = true → h.saved[l]? = some (pc, wb, stk, ps) →
        ((t.group m.gid).thread l).pc = pc ∧ ((t.group m.gid).thread l).wb = wb ∧ ((t.group m.gid).thread l).stack = stk ∧
        ((t.group m.gid).thread l).preds = ps ∧ ((t.group m.gid).thread l).noMatch = true) ∧
  (∀ s₀ s is m, s₀.begin_ .pmret Opnds.none = s → Issues s is m → (s.group m.gid).handler = none → m.act ≠ 0 →
    ∃ t, exec .pmret s₀ = .next t ∧ ParksWith (kIllegal, 3) s t is m) ∧
  (∀ s g h, (s.group g).handler = some h → 64 ≤ h.issues → (tget s.groups g).isSome = true →
    ∃ t, exec (.matchHandlerAbandon g) s = .next t ∧ (t.group g).handler = none ∧ t.mem = s.mem) ∧
  (∀ s g h, (s.group g).handler = some h → h.issues < 64 → exec (.matchHandlerAbandon g) s = .next s)

/-- KDEF and MACZ complete, MMA, MMAG, MMAB and MDRN sign, MWAIT waits for what its group signed. KDEF whose register
holds the pair already goes on; where the set is resident it waits, and once the register is idle KDEF_COMPLETE gives
the register the base and the count and ends the wait. MACZ writes zeros to its 32 destinations in 4 ac. A set
operation of a group inside its register's set signs for its active threads: with no operation signing and fewer than
four queued a new one begins, with the register's next ordinal; else threads that have not signed join the same words
under the same window, and those that have signed stay where they are. Outside the set it parks with ILLEGAL KSET.
MWAIT waits for the register's operations that its group signed, and goes on where there are none. (R66, R196, R197,
R198, R199, R200, R204, R206, R207, R208, R209, R210) -/
def Obligations.MatrixOperationsSign : Prop :=
  (∀ f s₀ s is m b base, s₀.begin_ (.kdef f) Opnds.none = s → Issues s is m → m.act ≠ 0 → b = (s.group m.gid).id.block →
    base = (s.group m.gid).id.index - (s.group m.gid).id.index % f.b.toNat → s.setResident b base f.b.toNat = true →
    ((s.kreg b (f.d.toNat % 16)).base = base ∧ (s.kreg b (f.d.toNat % 16)).n = f.b.toNat →
      ∃ t, exec (.kdef f) s₀ = .next t ∧ GoesOn s t is m 0 ∧ OnlyGroup m.gid s t) ∧
    ((s.kreg b (f.d.toNat % 16)).base ≠ base ∨ (s.kreg b (f.d.toNat % 16)).n ≠ f.b.toNat →
      ∃ t, exec (.kdef f) s₀ = .next t ∧ WaitDone (.kdef (f.d.toNat % 16) f.b.toNat) 0 s t is m)) ∧
  (∀ s id w k n b, tget s.flight.waits id = some w → w.kind = .kdef k n → b = (s.group w.gid).id.block → k < 16 →
    (tget s.blocks b).isSome = true → (s.kSettle b k).kIdle b k = true →
    ∃ t, exec (.kdefComplete id) s = .next t ∧ WaitOver id w s t ∧ (t.kreg b k).n = n ∧
      (t.kreg b k).base = (s.group w.gid).id.index - (s.group w.gid).id.index % n) ∧
  (∀ f, VecMeaning (.macz f) 4 (fun _ _ _ _ => ⟨List.replicate 32 0, [], 0⟩)) ∧
  (∀ i o s₀ s is m b idx K, (∃ f e, (i = .mma f e ∧ o = mmaFields .regs f e) ∨ (i = .mmag f e ∧ o = mmaFields .gather f e) ∨
      (i = .mmab f e ∧ o = mmaFields .latch f e) ∨ (i = .mdrn f e ∧ o = mdrnFields f e)) →
    (s₀.beginStall i (o.opnds (s₀.isFirst o))).kSettle b o.k = s → Issues s is m → m.act ≠ 0 → b = (s.group m.gid).id.block →
    idx = (s.group m.gid).id.index → K = s.kreg b o.k → (tget s.blocks b).isSome = true →
    (K.n ≠ 0 → K.base ≤ idx → idx < K.base + K.n → K.signing = none → s.queuedOn b o.k < 4 →
      (s.groupAt b idx).map Prod.fst = some m.gid →
      ∃ t id op M, exec i s₀ = .next t ∧ GoesOn s t is m 0 ∧ t.mem = s.mem ∧ tget t.mats id = some op ∧ op.instr = i ∧
        op.block = b ∧ op.k = o.k ∧ op.ordinal = K.ordinal ∧ M ∈ op.members ∧ M.gid = m.gid ∧ M.signed = m.act ∧
        M.wb = some is.wb) ∧
    (∀ id op j M, K.n ≠ 0 → K.base ≤ idx → idx < K.base + K.n → K.signing = some id → tget s.mats id = some op →
      op.memberOf m.gid = some (j, M) → m.act &&& M.signed = 0 → op.words = wordsOf i → (M.wb = none ∨ M.wb = some is.wb) →
      ∃ t op' M', exec i s₀ = .next t ∧ GoesOn s t is m 0 ∧ t.mem = s.mem ∧ tget t.mats id = some op' ∧
        op'.instr = op.instr ∧ op'.ordinal = op.ordinal ∧ M' ∈ op'.members ∧ M'.gid = m.gid ∧
        M'.signed = M.signed ||| m.act) ∧
    (∀ id op j M, K.n ≠ 0 → K.base ≤ idx → idx < K.base + K.n → K.signing = some id → tget s.mats id = some op →
      op.memberOf m.gid = some (j, M) → m.act &&& M.signed ≠ 0 → m.act &&& ~~~M.signed ≠ 0 → op.words = wordsOf i →
      (M.wb = none ∨ M.wb = some is.wb) →
      ∃ t op' M', exec i s₀ = .next t ∧ t.mem = s.mem ∧ tget t.mats id = some op' ∧ M' ∈ op'.members ∧ M'.gid = m.gid ∧
        M'.signed = M.signed ||| m.act ∧ ∀ l, l < 128 → (m.act &&& M.signed).getLsbD l = true →
          ((t.group m.gid).thread l).pc = ((s.group m.gid).thread l).pc) ∧
    (K.n = 0 ∨ idx < K.base ∨ K.base + K.n ≤ idx → s.inHandler m.gid = false →
      ∃ t, exec i s₀ = .next t ∧ ParksWith (kIllegal, 0x0B) s t is m)) ∧
  (∀ f s₀ s is m, s₀.begin_ (.mwait f) Opnds.none = s → Issues s is m → m.act ≠ 0 →
    (s.mwaitOpen m.gid (f.d.toNat % 16) = true →
      ∃ t, exec (.mwait f) s₀ = .next t ∧ GoesOn s t is m 0 ∧ OnlyGroup m.gid s t) ∧
    (s.mwaitOpen m.gid (f.d.toNat % 16) = false →
      ∃ t, exec (.mwait f) s₀ = .next t ∧ WaitDone (.mwait (f.d.toNat % 16)) 0 s t is m)) ∧
  (∀ (s : State) g k, s.mwaitOpen g k = true ↔ ∀ id op M, (id, op) ∈ s.mats → op.block = (s.group g).id.block → op.k = k →
    M ∈ op.members → M.gid = g → M.signed = 0)

/-- An idle engine starts the head of its queue, and its completion ends the operation. ENGINE_OP_START of an idle engine
has the head's members take registers for their destinations; it waits while a request waits, and then while a store
before the head's signs is not out. A head with all of them, whose evaluation faults nowhere, runs for the time of
R213 (how it overlaps the operation before is the model's reading, log entry 26) with its results on the operands as
the registers hold them then, and changes no byte of memory; when it is released and what it asks for follow log entry
33, the model's choice. A halt of the partition retracts an operation where it may. At its end ENGINE_OP_COMPLETE
leaves the engine idle, ends the operation and every MWAIT whose group has signed no other one of its register, ORs
its exceptions into its member's GFLAGS, and for a drain of one member with M other than 1 fills the latch of the
member's partition, exited or not; before its end nothing changes. An operation with a fault parks instead. (R11, R57,
R200, R209, R211, R213, R214, R216) -/
def Obligations.EngineRunsOperations : Prop :=
  (∀ (s s₁ s₂ : State) p id rest op₁ op₂ o, s.enqueueOps p = s₁ → (s₁.part p).engine = none → (s₁.part p).queue = id :: rest →
    tget s₁.mats id = some op₁ → setOpOf op₁.instr = some o → (s₁.block op₁.block).run = .running →
    (s₁.part p).frozen = none → s₁.partHalted p = false → State.matTake o id op₁.members.zipIdx s₁ = (false, s₂) →
    tget s₂.mats id = some op₂ →
    (s₂.matWaits id = true → exec (.engineOpStart p) s = .next (s₂.modMat id (fun x => { x with phase := .allocating }))) ∧
    (s₂.matWaits id = false → s₂.signsReleased op₂ = false →
      exec (.engineOpStart p) s = .next (s₂.modMat id (fun x => { x with phase := .queued }))) ∧
    (∀ (s₃ : State) op ctr ev, s₂.matWaits id = false → s₂.signsReleased op₂ = true → s₂.imageHeld op₂ o = false →
      s₂.freshFree = (ctr, s₃) → op = s₃.readValues op₂ →
      ev = (if o.drain = true then s₃.matDrain ctr op o else s₃.matMul ctr op o) → ev.cause = none → s₃.env.sdc = 0 →
      trapSub (s₃.launch (s₃.block op.block).id.launch).region.trapen ev.flags = 0 →
      ∃ t op', exec (.engineOpStart p) s = .next t ∧ (t.part p).engine = some (id, s₃.matUntil p ctr op o) ∧
        tget t.mats id = some op' ∧ op'.phase = .running (s₃.matUntil p ctr op o) ∧ op'.out = ev.out ∧
        op'.latchOut = ev.latchOut ∧ op'.flags = ev.flags ∧ op'.fault = none ∧ t.mem = s.mem)) ∧
  (∀ (s s₁ : State) p id u v op, s.enqueueOps p = s₁ → (s₁.part p).engine = some (id, u) → tget s₁.mats id = some op →
    op.phase = .running v → s₁.partHalted p = true → s₁.haltsAt op = true →
    ∃ t op', exec (.engineOpStart p) s = .next t ∧ (t.part p).engine = none ∧ tget t.mats id = some op' ∧
      op'.phase = .waiting ∧ op'.out = [] ∧ t.mem = s.mem) ∧
  (∀ s p id u op o, (s.part p).engine = some (id, u) → tget s.mats id = some op → setOpOf op.instr = some o →
    (s.clk.ac < u → exec (.engineOpComplete p) s = .next s) ∧
    (u ≤ s.clk.ac → op.fault = none → ∃ t, exec (.engineOpComplete p) s = .next t ∧ (t.part p).engine = none ∧
      tget t.mats id = none ∧ t.mem = s.mem ∧
      (∀ k, k ≠ id → (tget t.mats k).map (fun x => { x with members := [] }) =
        (tget s.mats k).map (fun x => { x with members := [] })) ∧
      (∀ x w k, tget s.flight.waits x = some w → w.kind = .mwait k →
        ({ s with mats := s.mats.filter (fun e => decide (e.1 ≠ id)) } : State).mwaitOpen w.gid k = true →
        tget t.flight.waits x = none) ∧
      ∀ M, op.members = [M] → M.dead = false → (tget s.groups M.gid).isSome = true →
        ((s.group M.gid).run.place ≠ .gone → (t.group M.gid).regs.gflags = (s.group M.gid).regs.gflags ||| op.flags) ∧
        (o.drain = true → o.m ≠ 1 → t.latchOf (s.group M.gid).id.part o.latch =
          ⟨some op.block, op.latchOut.getD 0 [], false⟩)) ∧
    (∀ c, u ≤ s.clk.ac → op.fault = some c → (∀ M, M ∈ op.members → s.inContain M.gid = false) →
      ∃ t op', exec (.engineOpComplete p) s = .next t ∧ (t.part p).engine = none ∧ tget t.mats id = some op' ∧
        op'.phase = .parked ∧ t.mem = s.mem)) ∧
  (∀ s p, (s.part p).engine = none → exec (.engineOpComplete p) s = .next s)

/-- TDEF, TQRY, BINRUN, WAKE, TWAKEQ and TAPPLY complete. With the group's earlier stores gone: TDEF of address 0 unbinds
its handle, and of an aligned, legal descriptor binds it as the descriptor says; on a bound handle TQRY gives the
occupied, woken, overflow or free rows, BINRUN sets the run flag, WAKE makes occupied rows woken and leaves the
others, TWAKEQ wakes the rows whose column compares true, TAPPLY (a scratchpad tile without overflow rows) writes each
occupied row's column with the operation of the old value and the scalar. The threads go on. TAPPLY parks where the
write of a row faults, and changes no row (when the release comes, and that a fault leaves every row, are the model's
choices: log entry 44). An unbound handle parks with ILLEGAL TILE. (R245, R247, R248, R250, R251, R252, R255) -/
def Obligations.TilesBindAndAnswer : Prop :=
  (∀ f s₀ s is m b, s₀.begin_ (.tdef f) (opnds (.tdef f)) = s → Issues s is m → m.act ≠ 0 → s.tileReady m.gid = true →
    b = (s.group m.gid).id.block → (tget s.blocks b).isSome = true →
    (s.pair m.gid f.b.toNat = 0 → ∃ t, exec (.tdef f) s₀ = .next t ∧ tget (t.block b).tiles (handleOf f.a) = none ∧
      (tget (s.block b).tiles (handleOf f.a) = none → GoesOn s t is m 0 ∧ t.mem = s.mem)) ∧
    (∀ va T, va = (s.pair m.gid f.b.toNat).toNat → va ≠ 0 → va % 64 = 0 → tget (s.block b).tiles (handleOf f.a) = none →
      (∀ pa, s.xlate (s.regionOf m.gid).troot .load (s.regionOf m.gid).world va = .ok pa → s.backParked pa = false) →
      s.readTile b va = .ok (some T) →
      ∃ t T', exec (.tdef f) s₀ = .next t ∧ GoesOn s t is m 0 ∧ t.mem = s.mem ∧
        tget (t.block b).tiles (handleOf f.a) = some T' ∧ T' = { T with dispatch := T'.dispatch })) ∧
  (∀ f s₀ s is m T, s₀.begin_ (.tqry f) (opnds (.tqry f)) = s → Issues s is m → m.act ≠ 0 →
    tget (s.block (s.group m.gid).id.block).tiles (handleOf f.a) = some T → s.tileReady m.gid = true →
    ∃ t, exec (.tqry f) s₀ = .next t ∧ SetsScalars [(f.d.toNat, BitVec.ofNat 32 (if f.b.toNat = 0 then T.nocc
      else if f.b.toNat = 1 then T.nwoken else if f.b.toNat = 2 then T.ovf else T.rows - T.nocc))] s t is m) ∧
  (∀ f s₀ s is m b T, s₀.begin_ (.binrun f) (opnds (.binrun f)) = s → Issues s is m → m.act ≠ 0 →
    b = (s.group m.gid).id.block → tget (s.block b).tiles (handleOf f.a) = some T → s.tileReady m.gid = true →
    ∃ t T', exec (.binrun f) s₀ = .next t ∧ GoesOn s t is m 0 ∧ t.mem = s.mem ∧
      tget (t.block b).tiles (handleOf f.a) = some T' ∧ T' = { T with binrun := true, dispatch := T'.dispatch }) ∧
  (∀ i s₀ s is m b h T (rows : List Nat), ((∃ f, i = .wakeScalar f ∧ h = handleOf f.a ∧ rows = [(s.scalar m.gid f.b.toNat).toNat]) ∨
      (∃ f, i = .wakeVector f ∧ h = handleOf f.a ∧ rows =
        (lanesOf m.act).map (fun l => ((s.laneSrcs m.gid is.wb (opnds i) l).getD 0 0).toNat))) →
    s₀.begin_ i (opnds i) = s → Issues s is m → m.act ≠ 0 → b = (s.group m.gid).id.block →
    tget (s.block b).tiles h = some T → s.tileReady m.gid = true →
    ∃ t T', exec i s₀ = .next t ∧ GoesOn s t is m 0 ∧ t.mem = s.mem ∧ tget (t.block b).tiles h = some T' ∧
      T' = { T with woken := T'.woken, nwoken := T'.nwoken, dispatch := T'.dispatch } ∧
      (∀ r, r ∈ T'.woken ↔ r ∈ T.woken ∨ (r ∈ rows ∧ r ∈ T.occ)) ∧
      ((∃ r, r ∈ rows ∧ r ∉ T.occ) → (t.group m.gid).regs.gwarn.getLsbD 3 = true)) ∧
  (∀ f e s₀ s is m b T rows, s₀.begin_ (.twakeq f e) (opnds (.twakeq f e)) = s → Issues s is m → m.act ≠ 0 →
    b = (s.group m.gid).id.block → tget (s.block b).tiles (handleOf f.a) = some T → s.tileReady m.gid = true →
    fld e 0 5 < T.names.length → s.tileColumn b T (fld e 0 5) = .ok (rows, []) →
    ∃ t T', exec (.twakeq f e) s₀ = .next t ∧ GoesOn s t is m 0 ∧ t.mem = s.mem ∧
      tget (t.block b).tiles (handleOf f.a) = some T' ∧
      T' = { T with woken := T'.woken, nwoken := T'.nwoken, dispatch := T'.dispatch } ∧
      ∀ r, r ∈ T'.woken ↔ r ∈ T.woken ∨ ∃ x, (r, x) ∈ rows ∧ isetHolds (fld e 5 3) x (s.scalar m.gid f.b.toNat) = true) ∧
  (∀ f e s₀ s is m b T rows y, s₀.begin_ (.tapply f e) (opnds (.tapply f e)) = s → Issues s is m → m.act ≠ 0 →
    b = (s.group m.gid).id.block → tget (s.block b).tiles (handleOf f.a) = some T → s.tileReady m.gid = true →
    fld e 0 5 < T.names.length → T.scratch = true → s.tileColumn b T (fld e 0 5) = .ok (rows, []) →
    y = s.scalar m.gid f.b.toNat →
    trapSub (s.regionOf m.gid).trapen ((rows.map (fun r => (tapply (fld e 5 4) (s.ftz m.gid) r.2 y).2)).foldl (· ||| ·) 0) = 0 →
    ∃ t, exec (.tapply f e) s₀ = .next t ∧ GoesOn s t is m 0 ∧
      t.mem = (foldS rows s (fun u r => u.blockPut b (T.rowAddr r.1 + 4 * fld e 0 5)
        (leBytes 4 (tapply (fld e 5 4) (s.ftz m.gid) r.2 y).1.toNat))).mem ∧
      (t.group m.gid).regs.gflags = (s.group m.gid).regs.gflags |||
        (rows.map (fun r => (tapply (fld e 5 4) (s.ftz m.gid) r.2 y).2)).foldl (· ||| ·) 0) ∧
  (∀ f e s₀ s is m b T rows ovf y c a, s₀.begin_ (.tapply f e) (opnds (.tapply f e)) = s → Issues s is m → m.act ≠ 0 →
    s.inHandler m.gid = false → s.inContain m.gid = false →
    b = (s.group m.gid).id.block → tget (s.block b).tiles (handleOf f.a) = some T → s.tileReady m.gid = true →
    fld e 0 5 < T.names.length → s.tileColumn b T (fld e 0 5) = .ok (rows, ovf) → y = s.scalar m.gid f.b.toNat →
    trapSub (s.regionOf m.gid).trapen ((rows.map (fun r => (tapply (fld e 5 4) (s.ftz m.gid) r.2 y).2) ++
      ovf.map (fun r => (tapply (fld e 5 4) (s.ftz m.gid) r.2.2 y).2)).foldl (· ||| ·) 0) = 0 →
    s.writeAll (fun u r => u.tileWrite b T (T.rowAddr r.1 + 4 * fld e 0 5)
      (leBytes 4 (tapply (fld e 5 4) (s.ftz m.gid) r.2 y).1.toNat)) rows = .error (c, a) →
    ∃ t, exec (.tapply f e) s₀ = .next t ∧ ParksWith c s t is m) ∧
  (∀ i h s₀ s is m, ((∃ f, i = .tqry f ∧ h = handleOf f.a) ∨ (∃ f, i = .binrun f ∧ h = handleOf f.a) ∨
      (∃ f, i = .wakeScalar f ∧ h = handleOf f.a) ∨ (∃ f, i = .wakeVector f ∧ h = handleOf f.a) ∨
      (∃ f e, i = .twakeq f e ∧ h = handleOf f.a) ∨ (∃ f e, i = .tapply f e ∧ h = handleOf f.a)) →
    s₀.begin_ i (opnds i) = s → Issues s is m → m.act ≠ 0 → s.inHandler m.gid = false →
    tget (s.block (s.group m.gid).id.block).tiles h = none →
    ∃ t, exec i s₀ = .next t ∧ ParksWith (kIllegal, 0x0C) s t is m)

/-- SUSP stores a thread's columns in the lowest free row; a bin group forms from woken rows. SUSP of one active thread,
with its columns live and the group's earlier stores gone, writes its columns to the lowest free row of a scratchpad
tile, which becomes occupied, and the thread is gone while others of its group stay; where every row is occupied and
there is no overflow chain the threads go on with their predicate false. BIN_GROUP_FORM of a placed dispatch with
woken rows that read, whose request for registers is served, forms a new group of the block in that partition, one
live thread at the resume PC for each of the lowest woken rows (up to 128, or THRESH of them: log entry 56, the
model's reading), and those rows are occupied no more; with no woken row, while the block has groups, the allotment
returns to FREE. When the group's stores must be out, and the order of requests, are the model's choices: log entry
44. (R249, R253, R254) -/
def Obligations.ThreadsSuspendAndRunAgain : Prop :=
  (∀ f s₀ s is m b T, (s₀.begin_ (.susp f) (opnds (.susp f))).unwindWhere 3 State.inContain = s → Issues s is m →
    m.act ≠ 0 → b = (s.group m.gid).id.block → tget (s.block b).tiles (handleOf f.a) = some T → s.tileReady m.gid = true →
    (s.group m.gid).sb.any (fun e => e.2.names.any T.names.contains) = false →
    (s.sbchk m.gid = true → s.pendLanes m.gid T.names [] [] &&& m.act = 0) →
    (∀ l row, lanesOf m.act = [l] → (∀ n, n ∈ T.names → (s.readName m.gid n l).live = true ∧
        (s.readName m.gid n l).poison = false) → T.freeRow = some row → T.nocc < T.rows → T.scratch = true → (s.group m.gid).occupied &&& ~~~m.act ≠ 0 →
      ∃ t, exec (.susp f) s₀ = .next t ∧ ((t.group m.gid).thread l).st = .vacant ∧
        tget (t.block b).tiles (handleOf f.a) = some (T.occupy [row]) ∧
        t.mem = (s.blockPut b (T.rowAddr row) (s.columns m.gid T.names l)).mem) ∧
    (T.freeRow = none ∨ T.rows ≤ T.nocc → T.overflow = 0 → (s.group m.gid).occupied ≠ 0 → m.act &&& (s.group m.gid).occupied = m.act →
      ∃ t, exec (.susp f) s₀ = .next t ∧ GoesOn s t is m 0 ∧ t.mem = s.mem ∧
        (t.block b).tiles = (s.block b).tiles ∧
        ∀ l, l < 128 → m.act.getLsbD l = true → pf f.d < 7 → t.predOf m.gid l (pf f.d) = false)) ∧
  (∀ s b h T p data, tget (s.block b).tiles h = some T → T.dispatch = .placed p → (s.block b).run = .running →
    h ≠ faultBin → T.ready ≠ [] → T.ovf = 0 → s.readRows b h T T.ready = .ok data →
    (∀ x, x ∈ data → x.toOption.isSome = true) → s.formServed (p / 4) b h (max 16 T.names.length) = true →
    ∃ t g G T', exec (.binGroupForm b h) s = .next t ∧ s.env.nextId ≤ g ∧ tget t.groups g = some G ∧ G.id.block = b ∧
      G.id.part = p ∧ G.id.role = T.role ∧ G.regs.allot = T.allot ∧
      (∀ l, l < T.ready.length → (G.thread l).st = .live ∧ (G.thread l).pc = T.resume) ∧
      (∀ l, T.ready.length ≤ l → l < 128 → (G.thread l).st = .vacant) ∧
      tget (t.block b).tiles h = some T' ∧ (∀ r, r ∈ T.ready → r ∉ T'.occ ∧ r ∉ T'.woken) ∧
      T' = { T.free T.ready T.count with binrun := false, dispatch := T'.dispatch }) ∧
  (∀ s b h T p, tget (s.block b).tiles h = some T → T.dispatch = .placed p → (s.block b).run = .running → T.ready = [] →
    s.blockGroups b ≠ [] → ∃ t, exec (.binGroupForm b h) s = .next t ∧ (t.block b).free = (s.block b).free + T.allot ∧
      tget (t.block b).tiles h =
        some { T.free [] T.count with binrun := false, dispatch := .none } ∧ t.mem = s.mem)

/-- PKRD, PKWR and the services complete for a handler that may act on a record of this chip. PKRD writes the selected
word to its scalar. PKWR puts its value into a tile's or segment's OPVAL half, into one lane of a register, or into a
replay word, and marks the record PATCHED. PKRES, PKRTY, PKDIR and PKKIL answer 1 for a record already served, 2 for a
service its origin lacks, and 0 otherwise; PKRES, PKRTY and PKDIR make its parked lanes live: they replay, replay
afresh, or stand at the given PC (PKRES of a TRAP: after it); where its block is stowed the service waits with the
record. A PKWR that must wait for the pool writes nothing and asks for its register. A request of another chip, looked
up in the grants by its job and behind no other of its source (the model's reading: log entries 35 and 38), gets the
same answers, and a refused one its cause while nothing else changes. (R267, R280, R287, R288, R289, R290, R291) -/
def Obligations.HandlersServeParkedWork : Prop :=
  (∀ i f e k s₀ s is m dom own world id r sel v, (i = .pkrdRec f e ∧ k = 0 ∨ i = .pkrdReg f e ∧ k = 1 ∨ i = .pkrdRpl f e ∧ k = 2) →
    s₀.begin_ i (opnds i) = s → Issues s is m → m.act ≠ 0 → s.pkSelector m.gid k e = some sel →
    s.handlerOf m.gid = some (dom, own, world) → thisChip (handleChip (s.pair m.gid f.a.toNat)) = true →
    s.pkCheck (s.pair m.gid f.a.toNat) (some dom) world = .ok (id, r) → s.pkRead id r k sel.toNat = .ok v →
    ∃ t, exec i s₀ = .next t ∧ SetsScalars [(f.d.toNat, v)] s t is m) ∧
  (∀ i f e k s₀ s is m dom own world id r sel v, (i = .pkwrRec f e ∧ k = 0 ∨ i = .pkwrReg f e ∧ k = 1 ∨ i = .pkwrRpl f e ∧ k = 2) →
    s₀.begin_ i (opnds i) = s → Issues s is m → m.act ≠ 0 → s.pkSelector m.gid k e = some sel →
    s.handlerOf m.gid = some (dom, own, world) → thisChip (handleChip (s.pair m.gid f.a.toNat)) = true →
    s.pkCheck (s.pair m.gid f.a.toNat) (some dom) world = .ok (id, r) → tget s.faults.recs id = some r → r.action = 0 →
    v = s.scalar m.gid f.d.toNat →
    (∀ w, k = 0 → w = sel.toNat % 32 → (r.origin.otype = 1 ∧ 20 ≤ w ∧ w ≤ 21 ∨ r.origin.otype = 2 ∧ 20 ≤ w ∧ w ≤ 23) →
      ∃ t r', exec i s₀ = .next t ∧ GoesOn s t is m 0 ∧ tget t.faults.recs id = some r' ∧ r'.patched = true ∧
        (if w % 2 = 0 then loWord else hiWord) (r'.opval.getD (2 + (w - 20) / 2) 0) = v) ∧
    (∀ g, k = 1 → r.binned = none → s.pkGroup r sel.toNat = some g → (tget s.groups g).isSome = true →
      WritableName s g (sel.toNat % 512) none → (s.group g).run.spilled = false →
      (s.poolSays g 1 (.patch (some (m.gid, is.pc, is.wb))) = .ok →
        ∃ t r', exec i s₀ = .next t ∧ GoesOn s t is m 0 ∧ tget t.faults.recs id = some r' ∧ r'.patched = true ∧
          (t.pkReg g (sel.toNat % 512) (sel.toNat / 512 % 128)).val = v) ∧
      (s.poolSays g 1 (.patch (some (m.gid, is.pc, is.wb))) = .wait →
        s.needsPhys g (sel.toNat % 512) (laneBit (sel.toNat / 512 % 128)) false = true →
        exec i s₀ = .next (s₀.unissue.askPatch g (.patch (some (m.gid, is.pc, is.wb)))))) ∧
    (∀ g x, k = 2 → r.binned = none → s.parkedLane id r (sel.toNat / 512 % 128) = some (g, x) → g ≠ m.gid →
      (tget s.groups g).isSome = true → ((s.group g).thread (sel.toNat / 512 % 128)).stash = [] →
      ∃ t r', exec i s₀ = .next t ∧ GoesOn s t is m 0 ∧ tget t.faults.recs id = some r' ∧ r'.patched = true ∧
        ((t.group g).thread (sel.toNat / 512 % 128)).replay = some (x.setWord (sel.toNat % 8) v))) ∧
  (∀ i a d (sv : Service) s₀ s is m dom own world id r, ((∃ f, i = .pkres f ∧ a = f.a ∧ d = f.d ∧ sv = ⟨1, 0, 0⟩) ∨
      (∃ f, i = .pkrty f ∧ a = f.a ∧ d = f.d ∧ sv = ⟨2, 0, 0⟩) ∨
      (∃ f e, i = .pkdir f e ∧ a = f.a ∧ d = f.d ∧ sv = ⟨3, f.m.toNat, s.pair m.gid (fld e 0 7)⟩) ∨
      (∃ f, i = .pkkil f ∧ a = f.a ∧ d = f.d ∧ sv = ⟨4, 0, 0⟩)) →
    s₀.begin_ i (opnds i) = s → Issues s is m → m.act ≠ 0 → s.earlierStoresOut m.gid s.env.nextId 5 = true →
    s.handlerOf m.gid = some (dom, own, world) → thisChip (handleChip (s.pair m.gid a.toNat)) = true →
    s.pkCheck (s.pair m.gid a.toNat) (some dom) world = .ok (id, r) → (s.group m.gid).run.place ≠ .gone →
    (r.action ≠ 0 ∨ 2 ≤ r.state → ∃ t, exec i s₀ = .next t ∧ SetsScalars [(d.toNat, 1)] s t is m) ∧
    (r.action = 0 → r.state < 2 → sv.unsup r.origin = true →
      ∃ t, exec i s₀ = .next t ∧ SetsScalars [(d.toNat, 2)] s t is m) ∧
    (r.action = 0 → r.state < 2 → sv.unsup r.origin = false → (tget (s.pkServe id r sv).2.groups m.gid).isSome = true →
      ((s.pkServe id r sv).2.group m.gid).run.place ≠ .gone → ∃ t, exec i s₀ = .next t ∧ t.scalar m.gid d.toNat = 0) ∧
    (∀ g lm, r.action = 0 → r.state < 2 → sv.unsup r.origin = false → sv.action ≤ 3 → r.origin = .lanes g lm → g ≠ m.gid →
      r.binned = none → (tget s.groups g).isSome = true → s.originStowed r.origin = false →
      ∃ t, exec i s₀ = .next t ∧ GoesOn s t is m 0 ∧ t.scalar m.gid d.toNat = 0 ∧
        ∀ l x, l < 128 → s.parkedLane id r l = some (g, x) → ((s.group g).thread l).stash = [] →
          ((t.group g).thread l).st = .live ∧
          (sv.action = 3 → ((t.group g).thread l).pc = sv.value ∧ ((t.group g).thread l).replay = none) ∧
          (r.kind = kTrap → sv.action = 1 → ((t.group g).thread l).pc = s.pcAfter g r.pc ∧
            ((t.group g).thread l).replay = none) ∧
          (sv.action = 2 ∨ sv.action = 1 ∧ r.kind ≠ kTrap → ((t.group g).thread l).pc = ((s.group g).thread l).pc ∧
            ((t.group g).thread l).replay = some { x with go := true, fresh := decide (sv.action = 2) })) ∧
    (∀ g lm, r.action = 0 → r.state < 2 → sv.unsup r.origin = false → r.origin = .lanes g lm → g ≠ m.gid →
      s.originStowed r.origin = true → tget s.faults.recs id = some r →
      ∃ t r', exec i s₀ = .next t ∧ GoesOn s t is m 0 ∧ t.scalar m.gid d.toNat = 0 ∧ tget t.groups g = tget s.groups g ∧
        tget t.faults.recs id = some r' ∧ r'.service = some (sv.action, sv.target, sv.value))) ∧
  (∀ (s : State) q, s.inLine (.pk q) = false →
    (∀ c, (c = (kProt, 4) ∧ (s.grantOf q.job = none ∨ ∃ G, s.grantOf q.job = some G ∧ G.world = true ∧ q.secure = false)) ∨
        (∃ G, s.grantOf q.job = some G ∧ (G.world = true → q.secure = true) ∧
          s.pkCheck q.handle (s.domOf q.own) G.world = .error c) →
      exec (.pkRequestReceive q) s =
        .next { s with net := { s.net with replies := s.net.replies ++ [(q.peer, ⟨[], none, some c⟩)] } }) ∧
    (∀ G id r k v, s.grantOf q.job = some G → (G.world = true → q.secure = true) →
      s.pkCheck q.handle (s.domOf q.own) G.world = .ok (id, r) →
      (q.action = .readRec ∧ k = 0 ∨ q.action = .readReg ∧ k = 1 ∨ q.action = .readRpl ∧ k = 2) →
      s.pkRead id r k q.selector = .ok v → exec (.pkRequestReceive q) s =
        .next { s with net := { s.net with replies := s.net.replies ++ [(q.peer, ⟨leBytes 4 v.toNat, none, none⟩)] } }) ∧
    (∀ G id r (sv : Service) code, s.grantOf q.job = some G → (G.world = true → q.secure = true) →
      s.pkCheck q.handle (s.domOf q.own) G.world = .ok (id, r) →
      (q.action = .res ∧ sv = ⟨1, 0, 0⟩ ∨ q.action = .rty ∧ sv = ⟨2, 0, 0⟩ ∨
        (∃ n, q.action = .dir n ∧ sv = ⟨3, n, q.value⟩) ∨ q.action = .kil ∧ sv = ⟨4, 0, 0⟩) →
      code = (if r.action ≠ 0 ∨ 2 ≤ r.state then 1 else if sv.unsup r.origin = true then 2 else 0) →
      ∃ t, exec (.pkRequestReceive q) s = .next t ∧ t.net.replies.getLast? = some (q.peer, ⟨leBytes 4 code, none, none⟩)))

/-- CPSUB waits for its image and admission; CPWP and CPWAIT read progress and status. CPSUB of an aligned image keeps its
address, its extension word, and the barrier's generation, and its threads wait, as log entry 53 has it (of another it
parks with PROT ALIGN); CPSUB_ADMIT, once the group's earlier stores are out and no refresh holds its bank, reads the
image, and then, when no queue rule holds it back, decides admission: an image whose header is illegal gets status 9,
and the wait is over with the handle or status in the scalar. CPWP writes the progress of its handle and CPWP.raw a
context's landing pointer, all ones where its selector has higher bits. CPWAIT writes a status that is known at once,
else waits, and CPWAIT_RETURN writes it once it is known. (A scalar that another split has written since stays.) (R38,
R81, R161, R163, R191, R192, R193, R194) -/
def Obligations.CopiesAreSubmittedAndAwaited : Prop :=
  (∀ f e s₀ s is m a, (s₀.begin_ (.cpsub f e) (opnds (.cpsub f e))).unwindWhere 3 State.inContain = s → Issues s is m →
    m.act ≠ 0 → a = s.imageAddr f m.gid (lowLane m.act) →
    (a.toNat % 64 = 0 → ∃ t, exec (.cpsub f e) s₀ = .next t ∧
      WaitDone (.cpsub f.d.toNat none e (s.genAt m.gid (fld e 23 4)) a) 0 s t is m) ∧
    (a.toNat % 64 ≠ 0 → s.inHandler m.gid = false →
      ∃ t, exec (.cpsub f e) s₀ = .next t ∧ ParksWith (kProt, 6) s t is m)) ∧
  (∀ (s : State) f g l, s.replayOf g l = none → s.imageAddr f g l = s.pair g f.a.toNat) ∧
  (∀ s id w d e gen at_, tget s.flight.waits id = some w → w.kind = .cpsub d none e gen at_ →
    s.earlierStoresOut w.gid id 4 = true →
    (∀ b, s.vread (pathOf (s.coreOf w.gid)) (s.regionOf w.gid).troot (s.regionOf w.gid).world at_.toNat 64 = .ok b →
      s.vaHeld (s.regionOf w.gid).troot (s.regionOf w.gid).world at_.toNat 64 = true → exec (.cpsubAdmit id) s = .next s) ∧
    (∀ b, s.vread (pathOf (s.coreOf w.gid)) (s.regionOf w.gid).troot (s.regionOf w.gid).world at_.toNat 64 = .ok b →
      s.vaHeld (s.regionOf w.gid).troot (s.regionOf w.gid).world at_.toNat 64 = false → exec (.cpsubAdmit id) s = .next { s with flight := { s.flight with
        waits := tput s.flight.waits id { w with kind := .cpsub d (some b) e gen at_ } } }) ∧
    (∀ x, s.vread (pathOf (s.coreOf w.gid)) (s.regionOf w.gid).troot (s.regionOf w.gid).world at_.toNat 64 = .error x →
      ∃ t, exec (.cpsubAdmit id) s = .next t ∧ tget t.flight.waits id = none)) ∧
  (∀ s id w d image e gen at_ a, tget s.flight.waits id = some w → w.kind = .cpsub d (some image) e gen at_ →
    a = s.kernelAsk w image e gen at_ → s.groupHeld (id, w) image (s.intoWeight a.space a.img) = false →
    (∃ t, exec (.cpsubAdmit id) s = .next t ∧ tget t.flight.waits id = none) ∧
    (imageHeaderOk image = false → leAt image 0x10 8 = 0 → (tget s.groups w.gid).isSome = true →
      (s.group w.gid).run.place ≠ .stowed → s.inHandler w.gid = false → d < 128 →
      s.scalarTaken w.gid d w.lanes w.seq = false →
      ∃ t, exec (.cpsubAdmit id) s = .next t ∧ WaitOver id w s t ∧ t.scalar w.gid d = 9 ∧ t.copies = s.copies) ∧
    (imageHeaderOk image = true → leAt image 0x10 8 = 0 → (tget s.groups w.gid).isSome = true → (s.group w.gid).run.place ≠ .stowed →
      s.inHandler w.gid = false → d < 128 → s.scalarTaken w.gid d w.lanes w.seq = false → s.copyIllegal a = true →
      ∃ t, exec (.cpsubAdmit id) s = .next t ∧ WaitOver id w s t ∧ t.scalar w.gid d = 9 ∧ t.copies = s.copies)) ∧
  (∀ s id w d e gen at_, tget s.flight.waits id = some w → w.kind = .cpsub d none e gen at_ →
    s.earlierStoresOut w.gid id 4 = false → exec (.cpsubAdmit id) s = .next s) ∧
  (∀ f e s₀ s is m, s₀.begin_ (.cpwp f e) (opnds (.cpwp f e)) = s → Issues s is m → m.act ≠ 0 →
    ∃ t, exec (.cpwp f e) s₀ = .next t ∧
      SetsScalars [(f.d.toNat, s.progress (s.scalar m.gid f.a.toNat))] s t is m) ∧
  (∀ (s : State) h, (fld h 0 8 ≠ 1 → s.progress h = BitVec.ofNat 32 (0x80000000 + fld h 0 8)) ∧
    (fld h 0 8 = 1 → (s.handleCtx h).serial.toNat = fld h 17 15 → (s.handleCtx h).copy.isSome = true →
      s.progress h = BitVec.ofNat 32 ((s.handleCtx h).wptr.toNat - (s.handleCtx h).w0))) ∧
  (∀ f e s₀ s is m v, s₀.begin_ (.cpwpRaw f e) (opnds (.cpwpRaw f e)) = s → Issues s is m → m.act ≠ 0 →
    v = (if fld (s.scalar m.gid f.a.toNat) 9 23 ≠ 0 then BitVec.allOnes 64
      else (s.ctxAt (fld (s.scalar m.gid f.a.toNat) 0 2) (fld (s.scalar m.gid f.a.toNat) 2 4)
        (fld (s.scalar m.gid f.a.toNat) 6 3)).wptr) →
    ∃ t, exec (.cpwpRaw f e) s₀ = .next t ∧
      SetsScalars [(evenOf f.d.toNat, loWord v), (evenOf f.d.toNat + 1, hiWord v)] s t is m) ∧
  (∀ f e s₀ s is m h, s₀.begin_ (.cpwait f e) (opnds (.cpwait f e)) = s → Issues s is m → m.act ≠ 0 →
    h = s.scalar m.gid f.a.toNat →
    (∀ n, s.waitedStatus h = some n → ∃ t, exec (.cpwait f e) s₀ = .next t ∧
      SetsScalars [(f.d.toNat, BitVec.ofNat 32 n)] s t is m) ∧
    (s.waitedStatus h = none → ∃ t, exec (.cpwait f e) s₀ = .next t ∧ WaitDone (.cpwait f.d.toNat h) 0 s t is m)) ∧
  (∀ s id w d h n, tget s.flight.waits id = some w → w.kind = .cpwait d h → s.waitedStatus h = some n →
    (tget s.groups w.gid).isSome = true → (s.group w.gid).run.place ≠ .stowed → s.inHandler w.gid = false → d < 128 →
    s.scalarTaken w.gid d w.lanes w.seq = false →
    ∃ t, exec (.cpwaitReturn id) s = .next t ∧ WaitOver id w s t ∧ t.scalar w.gid d = BitVec.ofNat 32 n) ∧
  (∀ s id w d h, tget s.flight.waits id = some w → w.kind = .cpwait d h → s.waitedStatus h = none →
    exec (.cpwaitReturn id) s = .next s)

/-- A channel moves its head copy's next segment and a landed copy takes its final status. COPY_SEGMENT of the segment
that comes next in its channel's first copy, both sides on this chip and without transposition, reads and writes as
one: every 32-byte grain within it stands at the destination, the segment is done and the landing pointer does not
fall (the grains at its ends land whole once their other bytes are there: log entry 49); of any other segment, or
while the dies are held in reset, nothing changes; a side that does not translate parks the segment and moves no byte.
COPY_COMPLETE of a copy outside a chain that has landed whole first makes the engine arrival of its SIZE bytes where
BAREN asks for it, and once that is made ends the copy: its context is free with status DONE, or DEMOTED for a demoted
copy. (R39, R60, R154, R162, R163, R164, R192, R230, R346) -/
def Obligations.CopiesMoveAndComplete : Prop :=
  (∀ s id c seg h p sr dr b n pa, tget s.copies.copies id = some c → s.channelHead c.key = some (id, h) →
    tget c.arrived seg = none → c.nextSeg = some p → p.seg = seg → p.off = 0 → c.img.rside = 0 → c.img.xw = 0 →
    s.spire.boot.tempHold = false → s.segWaits c p = false → c.away = [] → (p.dst = (c.img.segAt seg).2 ∨ c.parts = []) →
    s.pieceRuns c.space .copyRead p.src [(0, c.img.segLen seg)] = .ok sr →
    s.pieceRuns c.space .copyWrite p.dst [(0, c.img.segLen seg)] = .ok dr → s.runsHeld (sr ++ dr) = false →
    s.readPieces [dieNode c.die] sr = (b, none) → dr = [(pa, n)] → 0 < n → pa + n ≤ scratchBase →
    s.node (dieNode c.die) = [] → c.die < 4 → b.length = n → c.w0 + c.img.size < 2 ^ 64 → memWf s.mem = true →
    p.dst.toNat % 32 = pa % 32 → p.dst.toNat + n < 2 ^ 64 → (∀ x, pa / 32 * 32 ≤ x → x < pa + n + 32 → s.quarantined x = false) →
    (∀ x, x ∈ (tget c.parts (p.dst.toNat / 32)).getD [] → pa / 32 * 32 ≤ x.1 ∧ x.1 + x.2.length ≤ pa / 32 * 32 + 32) →
    (∀ x, x ∈ (tget c.parts ((p.dst.toNat + n) / 32)).getD [] →
      (pa + n) / 32 * 32 ≤ x.1 ∧ x.1 + x.2.length ≤ (pa + n) / 32 * 32 + 32) →
    ∃ t c', exec (.copySegment id seg) s = .next t ∧
      (∀ i, i < n → pa / 32 * 32 + (if pa % 32 = 0 then 0 else 32) ≤ pa + i → pa + i < (pa + n) / 32 * 32 →
        t.pathByte [dieNode c.die] (pa + i) = some (b.getD i 0)) ∧
      (∀ x, x + 32 ≤ pa ∨ pa + n + 32 ≤ x → memGet t.mem x = memGet s.mem x ∧
        newestByte (t.node (dieNode c.die)) x = none) ∧ tget t.copies.copies id = some c' ∧
      c'.done = c.done ++ [seg] ∧ c'.img = c.img ∧ (s.ctxOf c).wptr.toNat ≤ (t.ctxOf c).wptr.toNat) ∧
  (∀ s id c seg h p e, tget s.copies.copies id = some c → s.channelHead c.key = some (id, h) → c.nextSeg = some p →
    tget c.arrived seg = none → p.seg = seg → c.img.rside = 0 → s.spire.boot.tempHold = false → s.segWaits c p = false →
    s.pieceRuns c.space .copyRead p.src [(0, c.img.segLen seg)] = .error e →
    ∃ t r x, exec (.copySegment id seg) s = .next t ∧ t.mem = s.mem ∧ tget t.faults.recs r = some x ∧ x.kind = e.1.1 ∧
      x.sub = e.1.2 ∧ x.origin = .segment id seg ∧ x.addr = BitVec.ofNat 64 e.2) ∧
  (∀ s id c seg, tget s.copies.copies id = some c → tget c.arrived seg = none →
    ((s.channelHead c.key).map Prod.fst ≠ some id ∨ c.nextSeg.map ParkedSeg.seg ≠ some seg) →
    exec (.copySegment id seg) s = .next s) ∧
  (∀ s id c, tget s.copies.copies id = some c → c.id.killed = false → c.finishes = true → c.chain = none →
    s.spire.boot.tempHold = false →
    (c.img.baren = true → c.arriving = none →
      ∃ t k a, exec (.copyComplete id) s = .next t ∧ tget t.copies.copies id = some { c with arriving := some k } ∧
        tget t.flight.arrivals k = some a ∧ a.block = c.id.target ∧ a.bar = c.img.bar ∧ a.gen = c.img.gen ∧
        a.n = c.img.size) ∧
    (∀ k, c.arriving = some k → (tget s.flight.arrivals k).isSome = true → exec (.copyComplete id) s = .next s) ∧
    (c.img.baren = false ∧ c.arriving = none ∨ (∃ k, c.arriving = some k ∧ tget s.flight.arrivals k = none) →
      ∃ t, exec (.copyComplete id) s = .next t ∧ tget t.copies.copies id = none ∧ (t.ctxOf c).copy = none ∧
        (t.ctxOf c).status = (if c.id.demoted = true then 3 else 2))) ∧
  (∀ s id c, tget s.copies.copies id = some c → c.id.killed = false → c.finishes = false →
    exec (.copyComplete id) s = .next s) ∧
  (∀ s id c seg, tget s.copies.copies id = some c → c.id.killed = false → s.spire.boot.tempHold = true →
    exec (.copySegment id seg) s = .next s ∧ exec (.copyComplete id) s = .next s)

/-- PSTOP freezes a partition until its dump is written; FTEST answers or tests a cluster. PSTOP of its own partition with
an aligned buffer freezes the partition with the dump as it stands and its threads wait; DUMP_WRITE writes it, frees
the partition, ends the wait, and gives 0x80000000 where the header cannot be written, else 1, 2 or 4. FTEST outside
world S parks with PROT WORLD; in world S it answers a code at once, or marks the cluster as under test and waits;
FTEST_COMPLETE, once every block of the cluster is stowed, ends the test: a pass clears the suspects, a failure fences
the cluster. (R81, R285, R286, R287, R299, R302, R326, R327) -/
def Obligations.DumpsAndTestsComplete : Prop :=
  (∀ f e s₀ s is m, s₀.begin_ (.pstop f e) (opnds (.pstop f e)) = s → Issues s is m → m.act ≠ 0 → e.getLsbD 8 = true →
    (s.pair m.gid f.a.toNat).toNat % 64 = 0 → (s.part is.part).frozen = none →
    ∃ t id w d, exec (.pstop f e) s₀ = .next t ∧ GoesOn s t is m 0 ∧ t.mem = s.mem ∧ tget t.flight.waits id = some w ∧
      w.gid = m.gid ∧ w.lanes = m.act ∧ w.kind = .dump f.d.toNat ∧ (t.part is.part).frozen = some d ∧ d.wait = id ∧
      d.buf = s.pair m.gid f.a.toNat ∧ d.size = fld e 9 23 * 4096 ∧
      (∀ l, l < 128 → m.act.getLsbD l = true → ((t.group m.gid).thread l).st = .waiting)) ∧
  (∀ s p d w, (s.part p).frozen = some d → (tget s.groups d.gid).isSome = true → (s.group d.gid).run.place ≠ .stowed →
    s.inHandler d.gid = false → d.dest < 128 → tget s.flight.waits d.wait = some w → w.gid = d.gid →
    s.scalarTaken d.gid d.dest w.lanes w.seq = false →
    ∃ t, exec (.dumpWrite p) s = .next t ∧ (t.part p).frozen = none ∧ tget t.flight.waits d.wait = none ∧
      (∀ x, s.vwrite deviceNode (s.regionOf d.gid).troot (s.regionOf d.gid).world d.buf.toNat (d.image.take 64) = .error x →
        t.scalar d.gid d.dest = 0x80000000 ∧ t.mem = s.mem) ∧
      (∀ u, s.vwrite deviceNode (s.regionOf d.gid).troot (s.regionOf d.gid).world d.buf.toNat (d.image.take 64) = .ok u →
        t.scalar d.gid d.dest = 4 ∨ t.scalar d.gid d.dest = (if d.size < d.need then 2 else 1))) ∧
  (∀ s p, (s.part p).frozen = none → exec (.dumpWrite p) s = .next s) ∧
  (∀ f s₀ s is m a c, s₀.begin_ (.ftest f) (opnds (.ftest f)) = s → Issues s is m → m.act ≠ 0 →
    a = s.scalar m.gid f.a.toNat → c = 4 * dieOfCore (s.coreOf m.gid) + fld a 0 4 →
    ((s.regionOf m.gid).world = false → s.inHandler m.gid = false →
      ∃ t, exec (.ftest f) s₀ = .next t ∧ ParksWith (kProt, 3) s t is m) ∧
    (∀ n, (s.regionOf m.gid).world = true → s.ftestCode m.gid a = some n →
      ∃ t, exec (.ftest f) s₀ = .next t ∧ SetsScalars [(f.d.toNat, BitVec.ofNat 32 n)] s t is m) ∧
    ((s.regionOf m.gid).world = true → s.ftestCode m.gid a = none →
      ∃ t id w, exec (.ftest f) s₀ = .next t ∧ GoesOn s t is m 0 ∧ t.mem = s.mem ∧ tget t.flight.waits id = some w ∧
        w.gid = m.gid ∧ w.lanes = m.act ∧ w.kind = .ftest f.d.toNat c (a.getLsbD 8) ∧ (t.cluster c).testing = some id)) ∧
  (∀ s id w d c keep, tget s.flight.waits id = some w → w.kind = .ftest d c keep → (s.cluster c).testing = some id →
    s.clusterStowed c = true →
    (∃ t, exec (.ftestComplete id) s = .next t ∧ tget t.flight.waits id = none) ∧
    (s.blocksOn c = [] → (tget s.groups w.gid).isSome = true → (s.group w.gid).run.place ≠ .stowed →
      s.inHandler w.gid = false → d < 128 → s.scalarTaken w.gid d w.lanes w.seq = false →
      ∃ t, exec (.ftestComplete id) s = .next t ∧ (t.cluster c).testing = none ∧
        (fld (t.scalar w.gid d) 0 8 = 0 ∧ (t.cluster c).out = keep ∧ (t.cluster c).suspects = [] ∧
            (t.cluster c).fenced = (s.cluster c).fenced ∨
          fld (t.scalar w.gid d) 0 8 = 1 ∧ (t.cluster c).fenced = true))) ∧
  (∀ s id w d c keep, tget s.flight.waits id = some w → w.kind = .ftest d c keep → s.clusterStowed c = false →
    exec (.ftestComplete id) s = .next s)

/-- Starvation, the active set, the pool's waiting list, spilling and refilling. A split that has waited 64 ac is owed its
partition's next issue, where none that can issue is. A ready pending group enters the active set when fewer than
eight ordinary groups are in it; where eight are, it replaces one that meets a long-latency dependence (where none
does, nothing changes), and after 1,024 ac the one that entered longest ago. The head of a core's waiting list is
granted once it can be met; while it cannot, the next victim is spilled whole: its registers leave the pool, and it
reads every name as before. A spilled group whose request is granted is restored, and its spilled names read as
before. That no byte of memory changes is the model's choice of where spilled values stand (log entry 16). (R85, R86,
R90, R92, R98, R99, R100) -/
def Obligations.GroupsShareIssueAndRegisters : Prop :=
  (∀ (s : State) p o, s.owedNow p = false → s.starved p = some o →
    exec (.starvationGuard p) s = .next (s.modPart p (fun P => { P with owed := some o })) ∧
      ((s.modPart p (fun P => { P with owed := some o })).part p).owed = some o) ∧
  (∀ (s : State) p n, firstBy s.older (s.pendingReady p) = some n → (s.part p).frozen = none → (s.ordinaryActive p).length < 8 →
    ∃ t, exec (.activeSetSwap p) s = .next t ∧ (t.group n.1).run.place = .active ∧ (t.group n.1).run.entered = s.clk.ac ∧
      (t.group n.1).run.openAt = s.clk.ac + 2 ∧ (t.group n.1).threads = (s.group n.1).threads ∧
      (∀ h, h ≠ n.1 → tget t.groups h = tget s.groups h) ∧ t.mem = s.mem) ∧
  (∀ (s : State) p n, firstBy s.older (s.pendingReady p) = some n → (s.part p).frozen = none → 8 ≤ (s.ordinaryActive p).length →
    (∀ x, (s.ordinaryActive p).find? (fun e => s.longStall e.1) = some x → n.1 ≠ x.1 → (tget s.groups x.1).isSome = true →
      ∃ t, exec (.activeSetSwap p) s = .next t ∧ (t.group n.1).run.place = .active ∧ (t.group n.1).run.entered = s.clk.ac ∧
        (t.group n.1).run.openAt = s.clk.ac + 2 ∧ (t.group x.1).run.place = .pending ∧
        (∀ h, h ≠ n.1 → h ≠ x.1 → tget t.groups h = tget s.groups h) ∧ t.mem = s.mem) ∧
    ((∀ x, x ∈ s.ordinaryActive p → s.longStall x.1 = false) → exec (.activeSetSwap p) s = .next s)) ∧
  (∀ (s : State) p n x, firstBy s.older ((s.pendingReady p).filter (fun e => e.2.run.readySince.any (fun t =>
      decide (t + 1024 ≤ s.clk.ac)))) = some n →
    firstBy (fun a b => decide (a.2.run.entered < b.2.run.entered)) (s.ordinaryActive p) = some x → n.1 ≠ x.1 →
    (s.part p).frozen = none → (tget s.groups x.1).isSome = true →
    ∃ t, exec (.pendingAgeSwap p) s = .next t ∧ (t.group n.1).run.place = .active ∧ (t.group x.1).run.place = .pending ∧
      (∀ h, h ≠ n.1 → h ≠ x.1 → tget t.groups h = tget s.groups h) ∧ t.mem = s.mem) ∧
  (∀ (s u : State) c q, u = s.modCore c (fun k => { k with pwait := k.pwait.filter (fun q => !s.staleReq q) }) →
    u.poolHead c = some q →
    (u.canServe c q = true → ∃ t, exec (.poolAllocServe c) s = .next t ∧ { q with granted := true } ∈ (t.core c).pwait ∧
      t.mem = s.mem) ∧
    (u.canServe c q = false → exec (.poolAllocServe c) s = .next u)) ∧
  (∀ (s : State) c q v, s.poolHead c = some q → s.canServe c q = false → s.nextVictim c (some q.gid) = some v →
    s.spillFault v.1 ((s.core (s.coreOf v.1)).held v.1) .store = none →
    ∃ t, exec (.spillEvict c) s = .next t ∧ (t.group v.1).run.spilled = true ∧
      (∀ k r, tget (t.core (s.coreOf v.1)).pool k = some r → r.owner ≠ v.1) ∧
      (∀ n l, l < 128 → t.readName v.1 n l = s.readName v.1 n l) ∧ t.mem = s.mem) ∧
  (∀ (s : State) g q, (tget s.groups g).isSome = true → (s.group g).run.spilled = true → (s.group g).run.place ≠ .stowed →
    (s.group g).run.place ≠ .gone → s.spillStuck g = false → (s.blockOf g).run = .running →
    (s.core (s.coreOf g)).pwait.find? (PoolReq.refills g) = some q → q.granted = true →
    s.spillFault g (s.spilledCount g) .load = none →
    (∀ x y, x ∈ s.mappingsOf g → y ∈ s.mappingsOf g → x.same y = true → x = y) → (s.group g).contain = none → (s.group g).landing = [] →
    ∃ t, exec (.groupRefill g) s = .next t ∧ (t.group g).run.spilled = false ∧ t.mem = s.mem ∧
      ∀ n l v p k key, l < 128 → tget (s.group g).map n = some ⟨.spilled key v p false, k⟩ →
        t.readName g n l = s.readName g n l) ∧
  (∀ s g, (s.group g).run.spilled = false → exec (.groupRefill g) s = .next s)

/-- The dispatcher starts, resumes and pre-empts blocks; a halt stows; a finished bundle retires. DISPATCH_PLACE of a head
that fits: a fresh block stands running on its cores with a group for each of its bundle's, every thread live at its
sub-launch's entry PC, and its launch counts it as started; a stowed block runs again on its cores; a bin dispatch
takes a partition. Where the head does not fit, the running blocks that make room halt, their halt due 41 ac later.
PREEMPT_HALT_DONE stows a block whose halt is ready with all its groups, and a stowed one whose cluster is under a
test leaves it, its groups spilled. When the engines let a halt be ready, and which of equal places and blocks is
taken, are the model's choices (log entries 26 and 46). BUNDLE_RETIRE of a launch that may retire removes it and its
groups, and notes the variant of the next phase, which a killed phase and one without a block leave as it was. (R6,
R22, R51, R52, R53, R54, R56, R57, R59, R80, R326, R333) -/
def Obligations.BlocksPlaceStowAndRetire : Prop :=
  (∀ (s : State) d h rest, s.spire.boot.inReset.contains (1 + d) = false → s.spire.boot.inReset.contains 6 = false →
    s.spire.boot.tempHold = false → s.items d = h :: rest →
    (∀ c l x, s.bestPlace h = some c → h = .fresh l x → (s.cluster (c.headD 0 / 4)).suspects.length < 65535 → (tget s.belfry.launches l).isSome = true →
      ∃ t b B, exec (.dispatchPlace d) s = .next t ∧ s.env.nextId ≤ b ∧ tget t.blocks b = some B ∧ B.id.launch = l ∧
        B.id.index = x ∧ B.id.cores = c ∧ B.run = .running ∧ (t.launch l).started = (s.launch l).started + 1 ∧
        ∀ e, e ∈ (s.launch l).groupOrder → ∃ g G, tget t.groups g = some G ∧ G.id.block = b ∧ G.id.index = e.1 ∧
          G.id.sub = some e.2 ∧ G.id.launch = l ∧ ∀ k, k < 128 → (G.thread k).st = .live ∧
            (G.thread k).pc = ((s.launch l).bundle.subs.getD e.2 default).entry) ∧
    (∀ c b, s.bestPlace h = some c → h = .stowed b → (s.cluster (c.headD 0 / 4)).suspects.length < 65535 →
      (tget s.blocks b).isSome = true →
      ∃ t, exec (.dispatchPlace d) s = .next t ∧ (t.block b).run = .running ∧ (t.block b).id.cores = c) ∧
    (∀ c b k T, s.bestPlace h = some c → h = .bin b k → tget (s.block b).tiles k = some T →
      ∃ t, exec (.dispatchPlace d) s = .next t ∧ t.mem = s.mem ∧
        tget (t.block b).tiles k = some { T with dispatch := .placed (s.freestPart c) }) ∧
    (∀ c bs, s.bestPlace h = none → s.preemptFor h = some (c, bs) →
      ∃ t, exec (.dispatchPlace d) s = .next t ∧ t.mem = s.mem ∧ t.groups = s.groups ∧
        ∀ b, (tget s.blocks b).isSome = true → (s.block b).run = .running →
          (t.block b).run = (if b ∈ bs then .halting (s.clk.ac + 41) else .running))) ∧
  (∀ s d, s.items d = [] → exec (.dispatchPlace d) s = .next s) ∧
  (∀ s b, s.haltReady b = true → (tget s.blocks b).isSome = true →
    ∃ t, exec (.preemptHaltDone b) s = .next t ∧ (t.block b).run = .stowed ∧
      ∀ g, g ∈ (s.blockGroups b).map Prod.fst → (t.group g).run.place = .stowed) ∧
  (∀ s b, s.haltReady b = false → s.leavesNow b = false → exec (.preemptHaltDone b) s = .next s) ∧
  (∀ s b, s.haltReady b = false → s.leavesNow b = true →
    ∃ t, exec (.preemptHaltDone b) s = .next t ∧ ∀ g, g ∈ (s.blockGroups b).map Prod.fst → (t.group g).run.spilled = true) ∧
  (∀ s l L, tget s.belfry.launches l = some L → s.mayRetire l L = true →
    ∃ t, exec (.bundleRetire l) s = .next t ∧ tget t.belfry.launches l = none ∧
      (∀ g G, tget t.groups g = some G → G.id.launch ≠ l) ∧
      t.belfry.variants.head? = some ⟨L.region.rcb, L.bundle.addr,
        L.nextVariant.getD (s.variantOf L.region.rcb L.bundle.addr)⟩) ∧
  (∀ s l L, tget s.belfry.launches l = some L → s.mayRetire l L = false → exec (.bundleRetire l) s = .next s)

/-- Ticks demote what has used its budget; servers are replenished and written back. BUDGET_TICK does nothing before its
100 ns tick. At it every launch and copy whose charge has reached its budget is demoted, none that was demoted is
restored, each server keeps its counts, and the next tick is the next multiple of 100 ns. SERVER_REPLENISH does
nothing before PSTART + PERIOD; then PSTART becomes the latest PSTART + m × PERIOD not after the present, the used
counts are 0, and ordinary work is in budget again. USED_WRITEBACK stores USED and PSTART in the RCB when due, and is
due again 10 µs later. With USED the OVERRUNS of every region with admitted work are stored again; every other byte is
as it was. (R46, R47, R50) -/
def Obligations.BudgetsAreEnforced : Prop :=
  (∀ s, s.clk.ns < s.belfry.nextTick → exec .budgetTick s = .next s) ∧
  (∀ s, s.belfry.nextTick ≤ s.clk.ns → ∃ t, exec .budgetTick s = .next t ∧ t.belfry.nextTick = s.clk.ns / 100 * 100 + 100 ∧
    (∀ l L, tget s.belfry.launches l = some L → ∃ M, tget t.belfry.launches l = some M ∧ M.charge = L.charge ∧
      (L.demoted = true ∨ L.budget ≤ coreNs L.charge → M.demoted = true)) ∧
    (∀ c C, tget s.copies.copies c = some C → ∃ D, tget t.copies.copies c = some D ∧ D.id.charge = C.id.charge ∧
      (C.id.demoted = true ∨ C.id.budget ≤ C.id.charge → D.id.demoted = true)) ∧
    (∀ v V, tget s.belfry.servers v = some V → ∃ W, tget t.belfry.servers v = some W ∧ W.used = V.used ∧ W.pstart = V.pstart ∧
      (coreNs V.ordAc + V.ordNs ≥ V.budget - V.freserve → W.ordOut = true) ∧ (V.freserve = 0 → W.faultOut = true))) ∧
  (∀ s v V, tget s.belfry.servers v = some V → s.clk.ns < V.pstart + V.period → exec (.serverReplenish v) s = .next s) ∧
  (∀ s v V, tget s.belfry.servers v = some V → V.period ≠ 0 → V.pstart + V.period ≤ s.clk.ns →
    ∃ t W, exec (.serverReplenish v) s = .next t ∧ tget t.belfry.servers v = some W ∧ W.used = 0 ∧ W.ordOut = false ∧
      W.faultOut = decide (V.freserve = 0) ∧ (∃ k, W.pstart = V.pstart + k * V.period) ∧ W.pstart ≤ s.clk.ns ∧
      s.clk.ns < W.pstart + V.period ∧ UsedStored v 0 W.pstart s t) ∧
  (∀ s v V, tget s.belfry.servers v = some V → V.nextWrite ≤ s.clk.ns →
    ∃ t W, exec (.usedWriteback v) s = .next t ∧ tget t.belfry.servers v = some W ∧ W.nextWrite = s.clk.ns + 10000 ∧
      W.used = V.used ∧ UsedStored v V.used V.pstart s t) ∧
  (∀ s v V, tget s.belfry.servers v = some V → s.clk.ns < V.nextWrite → exec (.usedWriteback v) s = .next s)

/-- Waking, fetching, skipping and slices of the Belfry's queues. BELFRY_WAKE makes a watched queue that waits look at its
slot again once WRIDX or the awaited ticket's line has changed, QUEUE_POLL an unwatched one when it polls.
PACKET_FETCH on the queue's turn: an unpublished ticket puts it to sleep, and its processor's slice is given up; a
published slot is read, its ticket is freed for the next round, RDIDX advances in memory, and a legal packet stands to
be acted on while an illegal one is done at once. SKIP_SLOT consumes one published slot without action, and waits for
an unpublished one; where its ticket cannot be read or freed the queue stops and the packet is done.
QUEUE_SLICE_EXPIRE moves an idle processor to its next ready queue for 2,000 ns. Where these do not hold nothing
changes. When a watched queue wakes, and what is done where the spec is silent, are the model's choices (log entries
14 and 47). (R28, R30, R32, R34, R38) -/
def Obligations.QueuesWakeFetchAndRotate : Prop :=
  (∀ (s : State) e q Q, (e = .belfryWake q ∧ Q.watch = true ∧ s.watched Q Q.line ≠ Q.seen ∨
      e = .queuePoll q ∧ Q.watch = false ∧ (s.published Q = true ∨ Q.checkAt ≤ s.clk.ns)) → tget s.belfry.queues q = some Q →
    s.belfryUp = true → Q.awake = false → (Q.packet = none ∧ Q.stopping = false ∨ 0 < Q.skips) →
    exec e s = .next (s.modQueue q (fun Q => { Q with awake := true })) ∧
      (s.modQueue q (fun Q => { Q with awake := true })).queue q = { Q with awake := true }) ∧
  (∀ (s : State) q Q, tget s.belfry.queues q = some Q → (Q.watch = false ∨ s.watched Q Q.line = Q.seen) →
    exec (.belfryWake q) s = .next s) ∧
  (∀ (s : State) q Q, tget s.belfry.queues q = some Q → (Q.watch = true ∨ s.published Q = false ∧ s.clk.ns < Q.checkAt) →
    exec (.queuePoll q) s = .next s) ∧
  (∀ (s : State) q Q, tget s.belfry.queues q = some Q → s.turn q = true → Q.packet = none → Q.skips = 0 → Q.stopping = false →
    (∀ x, s.ticketAt Q = .ok x → x ≠ (Q.rd + 1) % 2 ^ 64 →
      ∃ t l, exec (.packetFetch q) s = .next t ∧ t.mem = s.mem ∧
        t.queue q = { Q with awake := false, checkAt := s.clk.ns + 10000, line := l, seen := s.watched Q l } ∧
        (∀ P, tget s.belfry.procs (procOf q) = some P → P.current = some q →
          tget t.belfry.procs (procOf q) = some { P with sliceEnd := 0 }) ∧
        ∀ pa, s.xlate Q.troot .load Q.world (Q.slotVa Q.rd) = .ok pa → l = pa / 64 * 64) ∧
    (∀ b u p, s.ticketAt Q = .ok ((Q.rd + 1) % 2 ^ 64) → s.belfryRead Q.space (Q.slotVa Q.rd) 64 = .ok b →
      s.belfryWrite Q.space (Q.slotVa Q.rd) (leBytes 8 ((Q.rd + Q.nslots) % 2 ^ 64)) = .ok u →
      p = ⟨Q.rd, b, 0, s.clk.ns, false, none, 0, []⟩ →
      ∃ t, exec (.packetFetch q) s = .next t ∧ (t.queue q).rd = (Q.rd + 1) % 2 ^ 64 ∧
        (∀ k, k ≠ q → tget t.belfry.queues k = tget s.belfry.queues k) ∧
        (Q.legal p = true → (t.queue q).packet = some p ∧ (TakesOwn u (Q.header + 8) 8 →
          Stored u t (Q.header + 8) (leBytes 8 ((Q.rd + 1) % 2 ^ 64)))) ∧
        (Q.legal p = false → (t.queue q).packet = none)) ∧
    (∀ e u, s.ticketAt Q = .ok ((Q.rd + 1) % 2 ^ 64) → s.belfryRead Q.space (Q.slotVa Q.rd) 64 = .error e →
      s.belfryWrite Q.space (Q.slotVa Q.rd) (leBytes 8 ((Q.rd + Q.nslots) % 2 ^ 64)) = .ok u →
      ∃ t, exec (.packetFetch q) s = .next t ∧ (t.queue q).rd = (Q.rd + 1) % 2 ^ 64 ∧ (t.queue q).packet = none)) ∧
  (∀ (s : State) q, s.turn q = false → exec (.packetFetch q) s = .next s) ∧
  (∀ (s : State) q Q u, tget s.belfry.queues q = some Q → s.turn q = true → 0 < Q.skips →
    s.ticketAt Q = .ok ((Q.rd + 1) % 2 ^ 64) →
    s.belfryWrite Q.space (Q.slotVa Q.rd) (leBytes 8 ((Q.rd + Q.nslots) % 2 ^ 64)) = .ok u →
    ∃ t, exec (.skipSlot q) s = .next t ∧ t.queue q = { Q with rd := (Q.rd + 1) % 2 ^ 64, skips := Q.skips - 1 } ∧
      (TakesOwn u (Q.header + 8) 8 → Stored u t (Q.header + 8) (leBytes 8 ((Q.rd + 1) % 2 ^ 64)))) ∧
  (∀ (s : State) q Q x, tget s.belfry.queues q = some Q → s.turn q = true → 0 < Q.skips → s.ticketAt Q = .ok x →
    x ≠ (Q.rd + 1) % 2 ^ 64 → ∃ t, exec (.skipSlot q) s = .next t ∧ t.mem = s.mem ∧ (t.queue q).awake = false ∧
      (t.queue q).skips = Q.skips ∧ (t.queue q).packet = Q.packet ∧ (t.queue q).rd = Q.rd) ∧
  (∀ (s : State) q Q e, tget s.belfry.queues q = some Q → s.turn q = true → 0 < Q.skips →
    (s.ticketAt Q = .error e ∨ s.ticketAt Q = .ok ((Q.rd + 1) % 2 ^ 64) ∧
      s.belfryWrite Q.space (Q.slotVa Q.rd) (leBytes 8 ((Q.rd + Q.nslots) % 2 ^ 64)) = .error e) →
    ∃ t, exec (.skipSlot q) s = .next t ∧ (t.queue q).packet = none ∧ (t.queue q).skips = 0 ∧ (t.queue q).stopping = true) ∧
  (∀ (s : State) p P, tget s.belfry.procs p = some P → s.belfryUp = true → P.current.isSome = true → P.sliceEnd ≤ s.clk.ns → P.sliceEnd ≠ 0 →
    s.between p = true → ∃ t, exec (.queueSliceExpire p) s = .next t ∧ t.mem = s.mem ∧ t.belfry.queues = s.belfry.queues ∧
      tget t.belfry.procs p = some ⟨s.nextQueue p P.current, s.clk.ns + 2000⟩) ∧
  (∀ (s : State) p P, tget s.belfry.procs p = some P → (s.clk.ns < P.sliceEnd ∨ P.sliceEnd = 0 ∨ s.between p = false) →
    exec (.queueSliceExpire p) s = .next s)

/-- LAUNCH, FAULT launches and COPY packets end with their admission status. A LAUNCH packet that may be acted on ends
with its admission status, and an admitted one is a launch of its queue and slot that has started nothing; a refused
one adds none. A COPY packet ends with the status of its admission. A packet with FAULT whose handle names no record
of this chip that awaits its task ends with ILLPKT; one whose record was torn down ends unlaunched; else its record is
delivered when it is admitted. While the table of admitted items is full such a packet waits (log entry 47). (R32,
R34, R39, R42, R161, R273, R279) -/
def Obligations.LaunchAndCopyPacketsAreAdmitted : Prop :=
  (∀ (s u : State) q Q p st, s.actable q 1 = some (Q, p) → p.isTask = false → s.admitLaunch Q.space (p.ask q Q.header) = (st, u) →
    ∃ t, exec (.launchPacket q) s = .next t ∧ PacketEnded q st Q p u t ∧
      (st = 1 → ∃ l L, tget t.belfry.launches l = some L ∧ L.queue = q ∧ L.qheader = Q.header ∧ L.slot = p.slot ∧ L.charge = 0 ∧ L.started = 0) ∧
      (st ≠ 1 → t.belfry.launches = s.belfry.launches)) ∧
  (∀ (s : State) q Q p, s.actable q 1 = some (Q, p) → p.isTask = true → exec (.launchPacket q) s = .next s) ∧
  (∀ (s u : State) q Q p h, s.actable q 7 = some (Q, p) → s.admitCopy
      { source := .queue q p.slot p.compl, space := Q.space, raw := p.bytes, img := copyImage p.bytes, from_ := p.fetched
        qheader := Q.header, homeDie := 0, own := none, ownRegion := none, imageAt := BitVec.ofNat 64 (Q.slotVa p.slot), depth := 1, dom := none
        parent := 0 } = (h, u) →
    ∃ t, exec (.copyPacket q) s = .next t ∧ PacketEnded q (h % 256) Q p u t) ∧
  (∀ (s : State) q Q p, s.actable q 1 = some (Q, p) → p.isTask = true → s.admittedCount < 16384 →
    thisChip (handleChip (BitVec.ofNat 64 (p.field 0x30 8))) = true →
    (s.recOf (BitVec.ofNat 64 (p.field 0x30 8)) = none →
      ∃ t, exec (.faultLaunch q) s = .next t ∧ PacketEnded q 9 Q p s t) ∧
    (∀ id r, s.recOf (BitVec.ofNat 64 (p.field 0x30 8)) = some (id, r) → r.appended = true → r.task = none →
      ∃ t, exec (.faultLaunch q) s = .next t ∧ (t.queue q).packet = none ∧
        (r.torn = true → t.belfry.launches = s.belfry.launches) ∧
        (r.torn = false → ∀ st u, s.admitTask Q.space (p.ask q Q.header) ⟨BitVec.ofNat 64 (p.field 0x30 8), some id, r.kind, r.sub,
            r.depth, { r.region with dom := r.dom }⟩ r.dom = (st, u) →
          (st ≠ 1 → t.belfry.launches = s.belfry.launches) ∧
          (st = 1 → tget s.faults.recs id = some r → r.state = 0 →
            ∃ r', tget t.faults.recs id = some r' ∧ r'.state = 1 ∧ r'.task.isSome = true)))) ∧
  (∀ (s : State) q Q p, s.actable q 1 = some (Q, p) → (p.isTask = false ∨ 16384 ≤ s.admittedCount) →
    exec (.faultLaunch q) s = .next s)

/-- WAIT, WRITE, WRSIG, STAMP, BRANCH, JUMP, FENCE and NOP packets take their steps and end with DONE. NOP ends with DONE.
WRITE and STAMP of this chip store and then end; WRSIG stores and adds, or claims the target's slot, stores, copies
its image and publishes the ticket, and then ends. FENCE takes one step and ends. WAIT ends after a read that holds,
and else is held and read again, and goes on in its queue's turn once such a read holds; a held WRSIG tries again
after its time. BRANCH skips the slots that its word selects and JUMP its count, and each ends once they are consumed.
A failed access ends WAIT with its status. How many steps a packet takes, and when a held one is tried again, are the
model's choices where the spec is silent (log entries 14 and 47). (R32, R34, R35, R36, R38, R39) -/
def Obligations.PacketsTakeTheirSteps : Prop :=
  (∀ (s : State) q Q p, s.actable q 10 = some (Q, p) → ∃ t, exec (.nopPacket q) s = .next t ∧ PacketEnded q 2 Q p s t) ∧
  (∀ (s : State) e ty q Q p, ((e = .waitPacket q ∧ ty = 2 ∨ e = .writePacket q ∧ ty = 3 ∨ e = .fencePacket q ∧ ty = 8 ∨
      e = .stamp q ∧ ty = 9) ∧ 0 < p.step ∨ e = .branchPacket q ∧ ty = 5 ∧ p.val ≠ 0 ∧ Q.skips = 0) → s.actable q ty = some (Q, p) →
    ∃ t, exec e s = .next t ∧ PacketEnded q 2 Q p s t) ∧
  (∀ (s : State) q Q p, s.actable q 8 = some (Q, p) → p.step = 0 →
    ∃ t, exec (.fencePacket q) s = .next t ∧ PacketIs q { p with step := 1 } s t) ∧
  (∀ (s : State) q Q p, s.actable q 2 = some (Q, p) → p.step = 0 → p.val ≠ 0 →
    ∃ t, exec (.waitPacket q) s = .next t ∧ PacketIs q { p with step := 1 } s t) ∧
  (∀ (s : State) q Q p, s.actable q 2 = some (Q, p) → p.step = 0 → p.val = 0 →
    (s.waitRead Q p = .ok true → ∃ t, exec (.waitPacket q) s = .next t ∧ PacketIs q { p with step := 1 } s t) ∧
    (s.waitRead Q p = .ok false → ∃ t, exec (.waitPacket q) s = .next t ∧ PacketIs q { p with held := true } s t) ∧
    (∀ st, s.waitRead Q p = .error st → ∃ t, exec (.waitPacket q) s = .next t ∧ PacketEnded q st Q p s t)) ∧
  (∀ (s : State) q Q p, tget s.belfry.queues q = some Q → Q.packet = some p → p.held = true → s.belfryUp = true →
    s.between (procOf q) = true → s.belfryHeld Q = false →
    (p.type = 2 → s.waitRead Q p = .ok true →
      ∃ t, exec (.waitRecheck q) s = .next t ∧ PacketIs q { p with held := false, val := 1 } s t) ∧
    (p.type = 2 → s.waitRead Q p = .ok false → s.clk.ns < Q.checkAt → exec (.waitRecheck q) s = .next s) ∧
    (p.type = 4 → Q.checkAt ≤ s.clk.ns →
      ∃ t, exec (.wrsigRetry q) s = .next t ∧ PacketIs q { p with held := false, step := 0 } s t) ∧
    (p.type = 4 → s.clk.ns < Q.checkAt → exec (.wrsigRetry q) s = .next s)) ∧
  (∀ (s u : State) e q Q p ty chip va b, (e = .writePacket q ∧ ty = 3 ∧ p.step = 0 ∧ chip = p.field 0x28 2 ∧
        va = p.field 0x18 8 ∧ b = (leBytes 8 (p.field 0x20 8)).take (p.field 0x2A 1) ∨
      e = .stamp q ∧ ty = 9 ∧ p.step = 0 ∧ chip = p.field 0x20 2 ∧ va = p.field 0x18 8 ∧ b = leBytes 8 s.clk.ns ∨
      e = .wrsigAdd q ∧ ty = 4 ∧ p.field 0x3C 1 = 0 ∧ p.step = 0 ∧ chip = p.field 0x38 2 ∧ va = p.field 0x18 8 ∧
        b = leBytes 8 (p.field 0x20 8) ∨
      e = .wrsigAdd q ∧ ty = 4 ∧ p.field 0x3C 1 = 0 ∧ p.step = 1 ∧ chip = p.field 0x3A 2 ∧ va = p.field 0x28 8 ∧
        (∃ x, s.belfryRead Q.space va 8 = .ok x ∧ b = leBytes 8 ((leNat x + p.field 0x30 8) % 2 ^ 64)) ∨
      e = .wrsigAppend q ∧ ty = 4 ∧ p.field 0x3C 1 = 1 ∧ p.step = 3 ∧ p.val.toNat = leAt p.info 0 8 ∧ chip = p.field 0x38 2 ∧
        va = p.field 0x18 8 ∧ b = leBytes 8 (p.field 0x20 8) ∨
      e = .wrsigAppend q ∧ ty = 4 ∧ p.field 0x3C 1 = 1 ∧ p.step = 4 ∧ chip = p.field 0x3A 2 ∧
        va = leAt p.info 0x18 8 + 64 * (leAt p.info 0 8 % max 1 (leAt p.info 0x10 4)) + 8 ∧
        (∃ x, s.belfryRead Q.space (p.field 0x30 8) 64 = .ok x ∧ b = x.drop 8) ∨
      e = .wrsigAppend q ∧ ty = 4 ∧ p.field 0x3C 1 = 1 ∧ p.step = 5 ∧ chip = p.field 0x3A 2 ∧
        va = leAt p.info 0x18 8 + 64 * (leAt p.info 0 8 % max 1 (leAt p.info 0x10 4)) ∧
        b = leBytes 8 ((leAt p.info 0 8 + 1) % 2 ^ 64)) →
    s.actable q ty = some (Q, p) → thisChip chip = true → s.belfryWrite Q.space va b = .ok u →
    ∃ t, exec e s = .next t ∧ PacketStored q p u s t) ∧
  (∀ (s : State) q Q p, s.actable q 4 = some (Q, p) →
    (p.field 0x3C 1 = 0 → 2 ≤ p.step → ∃ t, exec (.wrsigAdd q) s = .next t ∧ PacketEnded q 2 Q p s t) ∧
    (p.field 0x3C 1 = 1 → 6 ≤ p.step → ∃ t, exec (.wrsigAppend q) s = .next t ∧ PacketEnded q 2 Q p s t) ∧
    (p.field 0x3C 1 = 1 → p.step = 0 → thisChip (p.field 0x3A 2) = true → s.claimSlot Q p = .ok none →
      ∃ t, exec (.wrsigAppend q) s = .next t ∧ PacketIs q { p with held := true, step := 0, msg := none } s t) ∧
    (∀ u p', p.field 0x3C 1 = 1 → p.step = 0 → thisChip (p.field 0x3A 2) = true → s.claimSlot Q p = .ok (some (u, p')) →
      ∃ t, exec (.wrsigAppend q) s = .next t ∧ t.mem = u.mem ∧ (t.queue q).packet = some { p' with step := 3 })) ∧
  (∀ (s : State) q Q p k n, s.actable q 5 = some (Q, p) → p.val = 0 →
    (p.field 0x18 8 = 0 ∧ k = 0 ∧ n = p.step ∨ p.field 0x18 8 ≠ 0 ∧ n = p.step + 1 ∧
      ∃ b, s.belfryRead Q.space (p.field 0x18 8) 8 = .ok b ∧ k = if leNat b % 4 ≥ p.field 0x28 1 then 0 else leNat b % 4) →
    ∃ t, exec (.branchPacket q) s = .next t ∧ PacketIs q { p with step := n, val := 1 } s t ∧
      (t.queue q).skips = p.field (0x20 + 2 * k) 2) ∧
  (∀ (s : State) q Q p, s.actable q 5 = some (Q, p) → p.val ≠ 0 → 0 < Q.skips → exec (.branchPacket q) s = .next s) ∧
  (∀ (s : State) q Q p, s.actable q 6 = some (Q, p) →
    (p.val = 0 → ∃ t, exec (.jumpPacket q) s = .next t ∧ PacketIs q { p with val := 1 } s t ∧
      (t.queue q).skips = p.field 0x18 2) ∧
    (p.val ≠ 0 → Q.skips = 0 → ∃ t, exec (.jumpPacket q) s = .next t ∧ PacketEnded q 2 Q p s t) ∧
    (p.val ≠ 0 → 0 < Q.skips → exec (.jumpPacket q) s = .next s))

/-- A write that has reached a system register takes effect there and is no longer on its way (units, the hub's die,
header: log entries 37, 40, 47). A write to trace control, QREG, TLBINV or another register takes effect and leaves
the flight: EN, sizes and ring follow R341; a header, and VALID, which registers or ends a queue (a write that
registers one whose former packet is in progress, or whose header waits for a refresh window, waits); TLBs drop what
matches; a bank's STATUS clears by ones; read-only registers keep their value; a mailbox command is pending. World S
reading STATUS sets SEEN. A rail of a die not under margining, or out of range, only sets ERR; a lane of an up port
only ERR; else they take their values: a rail slews by one step a us from where it stands, and slews and scans end. A
sample is due again a period later. (R29, R152, R293, R295, R314, R315, R341, R342, R348, R349) -/
def Obligations.SystemRegisterWritesTakeEffect : Prop :=
  (∀ (s : State) id w, tget s.flight.sysw id = some w →
    (sysBlock w.off = some .trace → ∃ t, exec (.trctlWrite id) s = .next t ∧ tget t.flight.sysw id = none ∧ t.mem = s.mem ∧
      (w.wide = true → w.off = 0x400000 → t.trace.en = w.val.getLsbD 0 ∧ t.trace.stopFull = w.val.getLsbD 1 ∧
        t.trace.types = w.val.extractLsb' 16 16 ∧
        t.trace.wptr = (if w.val.getLsbD 0 = true ∧ s.trace.en = false then 0 else s.trace.wptr)) ∧
      (w.wide = true → w.off = 0x400008 → t.trace.base = (if s.trace.en = true then s.trace.base else w.val.toNat / 4096 * 4096)) ∧
      (w.wide = true → w.off = 0x400010 → t.trace.size = (if s.trace.en = true then s.trace.size else w.val.toNat / 4096 * 4096))) ∧
    (sysBlock w.off = some .qreg → s.qregWaits w = true → exec (.qregWrite id) s = .next s) ∧
    (∀ q e, sysBlock w.off = some .qreg → s.qregWaits w = false → q = w.off / 16 → e = tgetD s.belfry.qreg q →
      ∃ t, exec (.qregWrite id) s = .next t ∧ tget t.flight.sysw id = none ∧ t.mem = s.mem ∧
        (e.world = true → w.world = false → t.belfry = s.belfry) ∧
        (w.off % 16 = 0 → w.wide = true → (e.world = false ∨ w.world = true) →
          tget t.belfry.qreg q = some { e with header := w.val } ∧ t.belfry.queues = s.belfry.queues) ∧
        (w.off % 16 = 8 → (e.world = false ∨ w.world = true) → e.valid = true → w.val.getLsbD 0 = false →
          (tgetD t.belfry.qreg q).valid = false ∧
          ∀ Q, tget s.belfry.queues q = some Q → Q.packet = none → tget t.belfry.queues q = none) ∧
        (w.off % 16 = 8 → (e.world = false ∨ w.world = true) → e.valid = false → w.val.getLsbD 0 = true →
          (tgetD t.belfry.qreg q).valid = true ∧
          ((tgetD t.belfry.qreg q).err = true ∧ tget t.belfry.queues q = none ∨ (tgetD t.belfry.qreg q).err = false ∧
            ∃ Q, tget t.belfry.queues q = some Q ∧ Q.header = e.header.toNat ∧ Q.packet = none))) ∧
    (sysBlock w.off = some .tlbinv → ∃ t, exec (.tlbinvWrite id) s = .next t ∧ tget t.flight.sysw id = none ∧ t.mem = s.mem ∧
      (w.wide = true → ∀ c, tget t.flight.tlbs c = (tget s.flight.tlbs c).map (fun l => l.filter (fun e => !tlbDropped w.val e)))) ∧
    (∀ b, sysBlock w.off = some b → b ≠ .trace → b ≠ .qreg → b ≠ .tlbinv →
      ∃ t, exec (.systemRegisterWrite id) s = .next t ∧ tget t.flight.sysw id = none ∧ t.mem = s.mem ∧ t.belfry = s.belfry ∧
        t.trace = s.trace ∧
        (b = .refresh ∨ b = .campanile ∨ b = .chipId ∨ b = .timesync ∨ b = .channels ∨ b = .fused ∨ b = .field →
          t.spire = s.spire ∧ t.clk = s.clk) ∧
        (b = .banks → w.wide = true → w.off % 64 = 0 → ∀ i, tgetD t.spire.banks i =
          (if i = (w.off - 0x100000) / 64 then (tgetD s.spire.banks i).w1c w.val else tgetD s.spire.banks i)) ∧
        (w.off = 0x500000 → 1 ≤ w.size → s.spire.mail.status ≠ 1 → t.spire.mail.cmd = w.val.setWidth 8 ∧ t.spire.mail.status = 1))) ∧
  (∀ (s : State) b, bankExists b = true →
    (∃ t, exec (.errbankStatusRead b true) s = .next t ∧
      tgetD t.spire.banks b = { tgetD s.spire.banks b with seen := true } ∧ t.mem = s.mem) ∧
    exec (.errbankStatusRead b false) s = .next s ∧
    (∀ v, ∃ t, exec (.errbankStatusWrite b v) s = .next t ∧ tgetD t.spire.banks b = (tgetD s.spire.banks b).w1c v ∧
      t.mem = s.mem)) ∧
  (∀ (b : Bank) v, (v.getLsbD 32 = true → (b.w1c v).state = 0 ∧ (b.w1c v).seen = false ∧ (b.w1c v).addr = 0) ∧
    (v.getLsbD 32 = false → (b.w1c v).state = b.state ∧ (b.w1c v).seen = b.seen ∧ (b.w1c v).addr = b.addr) ∧
    (b.w1c v).ovf = (b.ovf && !v.getLsbD 2) ∧ (b.w1c v).cecount = (if fld v 16 16 = 0 then b.cecount else 0)) ∧
  (∀ (s : State) r v, (railExists r = false → exec (.railStepWrite r v) s = .next s) ∧
    (railExists r = true → ∃ t, exec (.railStepWrite r v) s = .next t ∧ t.mem = s.mem ∧
      (s.spire.margin.contains (railDie r) = false ∨ 20 < (sextN 7 (fld v 0 7)).natAbs →
        (tgetD t.spire.rails r).err = true ∧ (tgetD t.spire.rails r).step = (tgetD s.spire.rails r).step) ∧
      (s.spire.margin.contains (railDie r) = true → (sextN 7 (fld v 0 7)).natAbs ≤ 20 →
        (tgetD t.spire.rails r).step = BitVec.ofNat 7 (fld v 0 7) ∧
        (tgetD t.spire.rails r).doneAt = s.clk.ns +
          (1000 * sextN 7 (fld v 0 7) - (tgetD s.spire.rails r).position s.clk.ns).natAbs ∧
        (tgetD t.spire.rails r).err = ((tgetD s.spire.rails r).err && !v.getLsbD 9)))) ∧
  (∀ (s : State) r, ((tgetD s.spire.rails r).busy = false ∨ s.clk.ns < (tgetD s.spire.rails r).doneAt →
      exec (.railSlewDone r) s = .next s) ∧
    ((tgetD s.spire.rails r).busy = true → (tgetD s.spire.rails r).doneAt ≤ s.clk.ns →
      ∃ t, exec (.railSlewDone r) s = .next t ∧ (tgetD t.spire.rails r).busy = false ∧
        (tgetD t.spire.rails r).step = (tgetD s.spire.rails r).step ∧ t.mem = s.mem)) ∧
  (∀ (s : State) l v x, laneExists l = true → x = tgetD s.spire.lanes l →
    (s.laneOpen l = false → ∃ t u, exec (.laneTapWrite l v) s = .next t ∧ tgetD t.spire.lanes l = { x with err := true } ∧
      exec (.eyeScanStart l v) s = .next u ∧ tgetD u.spire.lanes l = { x with err := true }) ∧
    (s.laneOpen l = true → ∃ t u, exec (.laneTapWrite l v) s = .next t ∧ tgetD t.spire.lanes l = { x with taps := loWord v } ∧
      exec (.eyeScanStart l v) s = .next u ∧ (tgetD u.spire.lanes l).scanning = true ∧ (tgetD u.spire.lanes l).done = false ∧
      (tgetD u.spire.lanes l).phase = v.extractLsb' 8 8 ∧ (tgetD u.spire.lanes l).volt = v.extractLsb' 16 8)) ∧
  (∀ (s : State) l n, (tgetD s.spire.lanes l).scanning = true → ∃ t, exec (.eyeScanDone l n) s = .next t ∧
    tgetD t.spire.lanes l = { tgetD s.spire.lanes l with scanning := false, done := true, errcnt := n } ∧ t.mem = s.mem) ∧
  (∀ (s : State) l n, (tgetD s.spire.lanes l).scanning = false → exec (.eyeScanDone l n) s = .next s) ∧
  (∀ (s : State), (s.trace.en = false ∨ s.clk.ac < s.trace.nextSample → exec .traceSample s = .next s) ∧
    (s.trace.en = true → fld s.trace.sample 0 16 ≠ 0 → s.trace.nextSample ≤ s.clk.ac →
      ∃ t, exec .traceSample s = .next t ∧ t.trace.nextSample = s.clk.ac + 64 * fld s.trace.sample 0 16 ∧
        (s.trace.types.getLsbD 9 = false → t.mem = s.mem))) ∧
  (∀ (s : State) d r, d < 4 → (r = 1 ∨ r = 2 ∨ r = 4) → ∃ t, exec (.dramTemperatureThreshold d r) s = .next t ∧
    tget t.spire.refresh d = some r ∧ t.mem = s.mem)

/-- Mailbox commands, boot, heartbeats, limits, array errors and the bank scan complete (arguments, units and what a reset
spares: log entry 40). A command that is pending ends with a status: QUOTE answers with M and the log length, LOGREAD
with digests, GRANT writes an entry, RESET resets and clears a die's field record, QCLEAR drops a page or resets a
fenced controller, MARGIN starts or ends margining, WMAP sets the world of its pages, and an unknown one is refused.
Boot releases units whose image is valid and stops at one without. HEARTBEAT_MISS of a released unit completes: the
first miss is counted, and the second in a row resets the unit: the Belfry gives up its packets, the firmware takes
every port down. A limit holds the dies until it recovers. An array error is logged as CE or UE, and a UE poisons its
unit. The scan marks UE banks as seen. (R170, R308, R315, R318, R344, R345, R346, R347, R348, R350, R362) -/
def Obligations.SpireRunsCommandsAndBoots : Prop :=
  (∀ (s : State) e n, (e = .quote ∧ n = 1 ∨ e = .logread ∧ n = 2 ∨ e = .grantCommand ∧ n = 3 ∨ e = .resetCommand ∧ n = 4 ∨
      e = .qclear ∧ n = 5 ∨ e = .margin ∧ n = 6 ∨ e = .wmap ∧ n = 7) → s.cmdIs n = false → exec e s = .next s) ∧
  (∀ (s : State), s.cmdIs 1 = true → ∃ t, exec .quote s = .next t ∧ t.spire.mail.status = 2 ∧
    t.spire.mail.resp.take 56 = digestBytes s.spire.boot.m ++ leBytes 8 s.spire.boot.log.length ∧ t.mem = s.mem) ∧
  (∀ (s : State), s.cmdIs 2 = true → ∃ t, exec .logread s = .next t ∧ t.spire.mail.status = 2 ∧ t.mem = s.mem ∧
    ∀ d, s.spire.boot.log[s.argAt 0]? = some d → t.spire.mail.resp.take 48 = digestBytes d) ∧
  (∀ (s : State), s.cmdIs 3 = true → ∃ t, exec .grantCommand s = .next t ∧ t.mem = s.mem ∧
    (256 ≤ s.argAt 0 → t.spire.mail.status = 4 ∧ t.net = s.net) ∧
    (s.argAt 0 < 256 → t.spire.mail.status = 2 ∧ ∃ g, tget t.net.grants (s.argAt 0) = some g ∧
      g.job = leAt (s.argBytes 8 16) 0 4 % 2 ^ 24 ∧ g.asid = leAt (s.argBytes 8 16) 6 2)) ∧
  (∀ (s : State), s.cmdIs 4 = true → ∃ t, exec .resetCommand s = .next t ∧
    (s.argAt 0 < 4 → t.spire.mail.status = 2 ∧ tget t.spire.field (s.argAt 0) = none) ∧
    (17 ≤ s.argAt 0 → s.argAt 0 ≤ 20 → t.spire.mail.status = 2 ∧ t.blocks = s.blocks ∧ t.mem = s.mem) ∧
    (4 ≤ s.argAt 0 → s.argAt 0 < 16 → t.spire.mail.status = 4 ∧ t.blocks = s.blocks ∧ t.mem = s.mem)) ∧
  (∀ (s : State), s.cmdIs 5 = true → ∃ t, exec .qclear s = .next t ∧ t.mem = s.mem ∧
    (64 ≤ s.argAt 0 → t.spire.mail.status = 4 ∧ t.spire.dram = s.spire.dram) ∧
    (s.argAt 0 < 64 → t.spire.mail.status = 2 ∧
      (((tget s.spire.dram (s.argAt 0)).getD ⟨[], false⟩).fenced = true → tget t.spire.dram (s.argAt 0) = none) ∧
      (((tget s.spire.dram (s.argAt 0)).getD ⟨[], false⟩).fenced = false →
        ∃ d, tget t.spire.dram (s.argAt 0) = some d ∧ d.fenced = false ∧ s.argAt 1 / 65536 ∉ d.pages))) ∧
  (∀ (s : State), s.cmdIs 6 = true → ∃ t, exec .margin s = .next t ∧ t.mem = s.mem ∧
    (4 < s.argAt 0 ∨ 1 < s.argAt 1 → t.spire.mail.status = 4 ∧ t.spire.margin = s.spire.margin) ∧
    (s.argAt 0 ≤ 4 → s.argAt 1 = 1 → t.spire.mail.status = 2 ∧ s.argAt 0 ∈ t.spire.margin) ∧
    (s.argAt 0 ≤ 4 → s.argAt 1 = 0 → t.spire.mail.status = 2 ∧ s.argAt 0 ∉ t.spire.margin ∧
      ∀ r, railExists r = true → railDie r = s.argAt 0 → (tget s.spire.rails r).isSome = true → (tgetD t.spire.rails r).step = 0)) ∧
  (∀ (s : State), s.cmdIs 7 = true → ∃ t, exec .wmap s = .next t ∧ t.mem = s.mem ∧
    (s.argAt 0 % 65536 ≠ 0 ∨ 2 ^ 24 < s.argAt 1 → t.spire.mail.status = 4 ∧ t.spire.worldS = s.spire.worldS) ∧
    (s.argAt 0 % 65536 = 0 → s.argAt 1 ≤ 2 ^ 24 → (∀ i, i < s.argAt 1 → mapPage (s.argAt 0 / 65536 + i) = true) →
      t.spire.mail.status = 2 ∧ ∀ p, p ∈ t.spire.worldS ↔
        if s.argAt 0 / 65536 ≤ p ∧ p < s.argAt 0 / 65536 + s.argAt 1 then s.argAt 2 % 2 = 1 else p ∈ s.spire.worldS)) ∧
  (∀ (s : State), s.spire.mail.status = 1 → (s.spire.mail.cmd = 0 ∨ 7 < s.spire.mail.cmd.toNat) →
    ∃ t, exec .mailboxCommandRefused s = .next t ∧ t.spire.mail.status = 3 ∧ t.mem = s.mem) ∧
  (∀ (s : State) imgs, s.spire.boot.failed = false → s.spire.boot.tempHold = false →
    (s.spire.boot.released = 0 → (∀ u, u < 6 → Config.imageValid (imgs.getD u ([], [])).1 = true) →
      ∃ t, exec (.powerOnBoot imgs) s = .next t ∧ t.spire.boot.released = 6 ∧ t.spire.boot.failed = false ∧
        (∀ u, u < 6 → u ∉ t.spire.boot.inReset) ∧ t.spire.boot.lockWait = some (s.clk.ns + 2000000000) ∧
        t.spire.boot.log.length = s.spire.boot.log.length + 6) ∧
    (s.spire.boot.released = 0 → Config.imageValid (imgs.getD 0 ([], [])).1 = false →
      Config.imageValid (imgs.getD 0 ([], [])).2 = false →
      ∃ t, exec (.powerOnBoot imgs) s = .next t ∧ t.spire.boot = { s.spire.boot with failed := true }) ∧
    (s.spire.boot.released = 6 → s.spire.boot.lockWait = none → Config.imageValid (imgs.getD 6 ([], [])).1 = true →
      ∃ t, exec (.powerOnBoot imgs) s = .next t ∧ t.spire.boot.released = 7 ∧ 6 ∉ t.spire.boot.inReset)) ∧
  (∀ (s : State) x, s.spire.boot.lockWait = some x → (x ≤ s.clk.ns → ∃ t, exec .bootLockTimeout s = .next t ∧
      t.spire.boot = { s.spire.boot with lockWait := none } ∧ t.mem = s.mem) ∧
    (s.clk.ns < x → exec .bootLockTimeout s = .next s)) ∧
  (∀ (s : State) u ms, s.unitBeats u = true → ms = s.clk.ns / 1000000 →
    (tget s.spire.boot.beats u = some ms → exec (.heartbeatMiss u) s = .next s) ∧
    (tget s.spire.boot.beats u ≠ some ms → (ms = 0 ∨ tget s.spire.boot.beats u ≠ some (ms - 1)) →
      ∃ t, exec (.heartbeatMiss u) s = .next t ∧ tget t.spire.boot.beats u = some ms ∧ t.mem = s.mem ∧ t.blocks = s.blocks ∧
        t.belfry = s.belfry ∧ t.net = s.net) ∧
    (ms ≠ 0 → tget s.spire.boot.beats u = some (ms - 1) →
      ∃ t, exec (.heartbeatMiss u) s = .next t ∧ t = s.resetUnit u ∧ tget t.spire.boot.beats u = none ∧
        (u = 0 → ∀ q Q, tget t.belfry.queues q = some Q → Q.packet = none ∧ Q.awake = true) ∧
        (u = 5 → ∀ p, p < 16 → (t.port p).phys = false ∧ (t.port p).up = false) ∧
        (1 ≤ u → u ≤ 4 → t.blocks = s.blocks ∧ t.mem = s.mem))) ∧
  (∀ (s : State) u, s.unitBeats u = false → exec (.heartbeatMiss u) s = .next s) ∧
  (∀ (s : State), (∃ t, exec .powerThermalFault s = .next t ∧ t.spire.boot.tempHold = true) ∧
    ∃ t, exec .powerThermalRecover s = .next t ∧ t.spire.boot = { s.spire.boot with tempHold := false } ∧ t.mem = s.mem) ∧
  (∀ (s : State) b d, bankExists b = true → ∃ t, exec (.eccCorrected b d) s = .next t ∧ t.mem = s.mem ∧ t.groups = s.groups ∧
    (tgetD t.spire.banks b).cecount = min ((tgetD s.spire.banks b).cecount + 1) 0xFFFF ∧
    ((tgetD s.spire.banks b).state = 0 → (tgetD t.spire.banks b).state = 1) ∧
    ((tgetD s.spire.banks b).state = 2 → (tgetD t.spire.banks b).state = 2 ∧
      (tgetD t.spire.banks b).addr = (tgetD s.spire.banks b).addr)) ∧
  (∀ (s : State) site d, bankExists (s.siteBank site) = true →
    ∃ t, exec (.eccUncorrectable site d) s = .next t ∧ t.mem = s.mem ∧
      ((∀ k a, site ≠ .grain k a) → (tgetD t.spire.banks (s.siteBank site)).state = 2) ∧
      (∀ g i, site = .scalar g i → (tget s.groups g).isSome = true → i ∈ (t.group g).scalPoison) ∧
      (∀ c p l r, site = .regLane c p l → tget (s.core c).pool p = some r →
        tget (t.core c).pool p = some { r with poison := r.poison ||| laneBit l }) ∧
      (∀ p l x, site = .latch p l → tget (s.part p).latches l = some x →
        tget (t.part p).latches l = some { x with poison := true })) ∧
  (∀ (s : State), (s.clk.ns < s.spire.scanAt → exec .spireBankScan s = .next s) ∧
    (s.spire.scanAt ≤ s.clk.ns → ∃ t, exec .spireBankScan s = .next t ∧ t.spire.scanAt = s.spire.scanAt + 10000000 ∧ t.mem = s.mem ∧
      ∀ i b, tget s.spire.banks i = some b →
        tget t.spire.banks i = some (if b.state = 2 then { b with seen := true } else b)))

/-- A record takes a slot, or is deferred; its fault task is published once (budget, order and waits: log entries 35, 50).
PARKED_RECORD_WRITE of the first unwritten record of its origin, not nested too deep, gives it the handle of the slot
that it takes and, with no trace under way, writes its 128 bytes there, where the slot takes a write of the device's
own, and no other byte; without a slot it is deferred, and DEFERRED_RECORD_FORM writes it when there is one.
FAULT_TASK_APPEND of a written record appends its packet to the handler's queue of this chip; while that queue is
full, or a read waits for a refresh window, nothing changes; toward another chip it sends the append, or kills the
work where that chip cannot be reached. One that was appended is not appended again. (R36, R265, R266, R267, R273,
R274, R280, R291, R325) -/
def Obligations.RecordsAreWrittenAndAppended : Prop :=
  (∀ (s : State) e id r a keep, tget s.faults.recs id = some r → r.handle = none → r.state < 2 → s.earlierUnwritten id r = false →
    (e = .parkedRecordWrite id ∧ r.deferred = false ∧ r.depth ≤ r.dom.maxDepth ∨ e = .deferredRecordForm id ∧ r.deferred = true) →
    s.slotFor r = some (a, keep) → a < 2 ^ 48 →
    ∃ t r', exec e s = .next t ∧ tget t.faults.recs id = some r' ∧
      r' = { r with handle := some (BitVec.ofNat 64 (2 ^ 48 * Config.chipId + a)), keep := keep, deferred := false } ∧
      (s.trace.en = false → TakesOwn s a 128 → Stored s t a (s.recBytes r')) ∧ t.groups = s.groups) ∧
  (∀ (s : State) id r, tget s.faults.recs id = some r → r.handle = none → r.state < 2 → s.earlierUnwritten id r = false →
    s.slotFor r = none →
    (r.deferred = false → r.depth ≤ r.dom.maxDepth → ∃ t, exec (.parkedRecordWrite id) s = .next t ∧ t.mem = s.mem ∧
      tget t.faults.recs id = some { r with deferred := true }) ∧
    (r.deferred = true → exec (.parkedRecordWrite id) s = .next s ∧ exec (.deferredRecordForm id) s = .next s)) ∧
  (∀ (s : State) r, (s.recBytes r).length = 128 ∧ (s.recBytes r).take 4 =
    [BitVec.ofNat 8 r.kind, BitVec.ofNat 8 r.sub, BitVec.ofNat 8 r.depth, BitVec.ofNat 8 r.origin.otype]) ∧
  (∀ (s : State) id r, tget s.faults.recs id = some r → r.handle.isSome = true → r.appended = false → r.torn = false → r.state < 2 →
    s.earlierUnsent id r = false →
    (∀ q Q h w u v, thisChip r.dom.hqChip = true → s.handlerQueue r.dom.hqueue = some (q, Q) →
      s.runHeld Q.header 8 = false → s.vaHeld Q.troot Q.world (r.dom.hbundle.toNat + 0x18) 8 = false →
      s.vaHeld Q.troot Q.world (Q.slotVa (leNat (s.runBytes [] [(Q.header, 8)]))) 8 = false →
      s.ownRead Q.header 8 = some h → w = leNat h → s.belfryRead Q.space (Q.slotVa w) 8 = .ok (leBytes 8 w) →
      (s.ownWrite Q.header (leBytes 8 ((w + 1) % 2 ^ 64))).belfryWrite Q.space (Q.slotVa w + 8)
        (r.packet (s.taskBudget Q r.dom)) = .ok u →
      u.belfryWrite Q.space (Q.slotVa w) (leBytes 8 ((w + 1) % 2 ^ 64)) = .ok v →
      ∃ t, exec (.faultTaskAppend id) s = .next t ∧ t.mem = v.mem ∧ tget t.faults.recs id = some { r with appended := true } ∧
        w ∈ (t.queue q).devSlots) ∧
    (∀ q Q h b, thisChip r.dom.hqChip = true → s.handlerQueue r.dom.hqueue = some (q, Q) → s.ownRead Q.header 8 = some h →
      s.belfryRead Q.space (Q.slotVa (leNat h)) 8 = .ok b → leNat b ≠ leNat h → exec (.faultTaskAppend id) s = .next s) ∧
    (thisChip r.dom.hqChip = false → (r.dom.world = false ∨ s.net.secured.contains r.dom.hqChip = true) →
      s.unreachable r.dom.hqChip = false → ∃ t k m b, exec (.faultTaskAppend id) s = .next t ∧ t.mem = s.mem ∧
        tget t.faults.recs id = some { r with appended := true } ∧ tget t.net.msgs k = some m ∧ m.chip = r.dom.hqChip ∧
        m.kind = .append id ∧ m.bytes = leBytes 8 0 ++ r.packet b)) ∧
  (∀ (s : State) id r, tget s.faults.recs id = some r → (r.handle = none ∨ r.appended = true) →
    exec (.faultTaskAppend id) s = .next s)

/-- Keepalives, link state, drain rounds, frames, remote operations and time (log entries 35, 38 and 39). A keepalive goes
out at its time; three received in a row bring a link up and three missed take it down, each with a new sequence
number; a lost physical layer takes it down at once, and the drain rounds are due where the table had it alive. A
newer link state is stored and forwarded to the other up links, an older one dropped. Rounds 1 to 3 follow 20,000 ns
apart (round 1 returns what cannot leave, of this chip and of others) and the routes then follow the table. The ninth
failed receipt of a frame takes the link down; a pause is taken, a packet of others is queued, and a frame that needs
what is not implemented is a CE. A remote operation that must wait is kept, and those of its source behind it; one
without a grant is refused; a granted read answers bytes, a write stores them, an add does both; a peer's report of a
fault task's charge has no answer. Answers reach what waits for them. A PTP exchange measures the offset, which steps
the campanile once and then steers it. (R309, R316, R318, R320, R321, R322, R323, R324, R325) -/
def Obligations.LinksKeepAliveAndAnswer : Prop :=
  (∀ (s : State) p, p < 16 → (s.port p).phys = true →
    ((s.port p).nextSend ≤ s.clk.ns → ∃ t id m, exec (.keepaliveSend p) s = .next t ∧ tget t.net.msgs id = some m ∧
      m.kind = .keepalive ∧ m.port = some p ∧ m.chip = (s.port p).peer ∧
      (t.port p).nextSend = (s.clk.ns / 10000 + 1) * 10000 ∧ t.mem = s.mem) ∧
    (s.clk.ns < (s.port p).nextSend → exec (.keepaliveSend p) s = .next s) ∧
    ((s.port p).expect ≤ s.clk.ns + 5000 → ∃ t, exec (.keepaliveReceive p) s = .next t ∧ t.mem = s.mem ∧
      (t.port p).missed = 0 ∧ (t.port p).expect = (s.port p).expect + 10000 ∧
      (t.port p).up = ((s.port p).up || decide (2 ≤ (s.port p).got)) ∧
      t.net.seq = (if (s.port p).up = false ∧ 2 ≤ (s.port p).got then s.net.seq + 1 else s.net.seq)) ∧
    ((s.port p).expect + 2000 ≤ s.clk.ns → ∃ t, exec (.keepaliveMiss p) s = .next t ∧ t.mem = s.mem ∧
      (t.port p).expect = (s.port p).expect + 10000 ∧ (t.port p).up = ((s.port p).up && decide ((s.port p).missed < 2)) ∧
      (t.port p).phys = !((s.port p).up && decide (2 ≤ (s.port p).missed)) ∧
      t.net.seq = (if (s.port p).up = true ∧ 2 ≤ (s.port p).missed then s.net.seq + 1 else s.net.seq)) ∧
    (s.clk.ns < (s.port p).expect + 2000 → exec (.keepaliveMiss p) s = .next s) ∧
    (∃ t, exec (.physicalLinkLoss p) s = .next t ∧ (t.port p).phys = false ∧ (t.port p).up = false ∧ t.mem = s.mem ∧
      ((s.port p).up = true → linkAlive s.net.table Config.chipId p = true → s.net.round = 0 → s.net.roundAt = none →
        t.net.roundAt = some ((s.clk.ns + 1000 + 19999) / 20000 * 20000))) ∧
    (∀ u, s.newer u = false → exec (.linkStateUpdate p u) s = .next s) ∧
    (∀ u, s.newer u = true → u.origin ≠ Config.chipId → ∃ t, exec (.linkStateUpdate p u) s = .next t ∧ t.mem = s.mem ∧
      tget t.net.table u.origin = some ⟨u.seq, u.links⟩ ∧
      ∀ q, q < 16 → q ≠ p → (s.port q).up = true → ∃ id m, tget t.net.msgs id = some m ∧ m.port = some q ∧
        m.kind = .linkState u)) ∧
  (∀ (s : State) p, p < 16 → (s.port p).phys = false → s.spire.boot.inReset.contains 5 = false →
    ∃ t, exec (.physicalLinkUp p) s = .next t ∧ (t.port p).phys = true ∧ (t.port p).up = (s.port p).up ∧ (t.port p).got = 0 ∧
      (t.port p).nextSend = (s.clk.ns / 10000 + 1) * 10000 ∧ t.mem = s.mem) ∧
  (∀ (s : State) x, s.net.roundAt = some x → x ≤ s.clk.ns →
    ((s.net.round = 0 ∨ s.net.round = 4) → ∃ t, exec .drainRound1 s = .next t ∧
      t.net.round = (if s.net.restart = true then 4 else 1) ∧
      t.net.roundAt = some (x + 20000) ∧ t.mem = s.mem ∧ (∀ id m, tget s.net.msgs id = some m → id < s.env.nextId → tget t.net.msgs id =
        some (if m.isOp = true ∧ m.held = true ∧ s.hopDead m.chip = true then { m with returned := true } else m)) ∧
      t.net.transit = s.net.transit.filter (fun y => !s.hopDead y.dst) ∧
      ∀ y, y ∈ s.net.transit → s.hopDead y.dst = true → ∃ id m, tget t.net.msgs id = some m ∧ m.kind = .undeliverable y.message ∧
        m.chip = y.src) ∧
    (s.net.round = 1 → s.net.restart = false → (∀ id m, (id, m) ∈ s.net.msgs → m.isOp = true → m.returned = true → s.inReach m.chip = true) →
      ∃ t, exec .drainRound2 s = .next t ∧ t.net.round = 2 ∧ t.net.roundAt = some (x + 20000) ∧ t.net.msgs = s.net.msgs ∧
        t.mem = s.mem ∧ (∀ c, c ∈ t.net.secured ↔ c ∈ s.net.secured ∧ s.inReach c = true) ∧
        ∀ c, c ∈ t.net.contexts ↔ c ∈ s.net.contexts ∧ s.inReach c.1 = true) ∧
    (s.net.round = 2 → s.net.restart = false → (∀ id m, (id, m) ∈ s.net.msgs → m.isOp = true → s.inReach m.chip = true) → s.faults.recs = [] →
      ∃ t, exec .drainRound3 s = .next t ∧ t.net.round = 3 ∧ t.net.roundAt = some (x + 20000) ∧ t.net.msgs = s.net.msgs ∧
        t.mem = s.mem) ∧
    (s.net.round = 3 → (∀ id m, (id, m) ∈ s.net.msgs → m.isOp = true → s.inReach m.chip = true) →
      ∃ t, exec .routeRecompute s = .next t ∧ t.net.round = 0 ∧ t.net.roundAt = none ∧ t.mem = s.mem ∧
        (∀ id m, tget s.net.msgs id = some m → tget t.net.msgs id = 
          some { m with held := m.held && t.msgWaits m, returned := false }) ∧
        ∀ c, (tget t.net.routes c).isSome = reaches s.net.table c)) ∧
  (∀ (s : State), s.net.roundAt = none → s.net.recompute = none → exec .drainRound1 s = .next s ∧ exec .drainRound2 s = .next s ∧
    exec .drainRound3 s = .next s ∧ exec .routeRecompute s = .next s) ∧
  (∀ (s : State) p, p < 16 → (s.port p).phys = true →
    (∀ f, ∃ t, exec (.frameReceive p true f) s = .next t ∧ (t.port p).replays = 0 ∧ (t.port p).up = (s.port p).up ∧ t.mem = s.mem ∧
      (frameSupported f = false → t.net.msgs = s.net.msgs ∧ t.net.transit = s.net.transit ∧
        (tgetD t.spire.banks (portBank p)).cecount = min ((tgetD s.spire.banks (portBank p)).cecount + 1) 0xFFFF) ∧
      (∀ c, frameSupported f = true → f.kind = .pause c → (t.port p).paused = c &&& pausable) ∧
      (∀ d e r src dst k, frameSupported f = true → f.kind = .transport d e r src dst k → thisChip dst = false →
        t.net.transit = s.net.transit ++ (if s.canLeave dst f.cls = true then [] else [⟨src, dst, f.cls, k⟩])) ∧
      (∀ k m, frameSupported f = true → f.kind = .undeliverable k → tget s.net.msgs k = some m →
        tget t.net.msgs k = some { m with held := true, returned := true })) ∧
    (∀ b, ∃ t, exec (.frameReceive p false b) s = .next t ∧ t.mem = s.mem ∧
      (t.port p).up = ((s.port p).up && decide ((s.port p).replays < 8)) ∧
      (tgetD t.spire.banks (portBank p)).cecount = min ((tgetD s.spire.banks (portBank p)).cecount + 1) 0xFFFF)) ∧
  (∀ (s : State) (o : RemoteOp), o.port < 16 → (s.port o.port).phys = true → remoteKnown o = true → s.inLine (.op o) = false →
    o.kind = .report → ∃ t, exec (.remoteOpReceive o) s = .next t ∧ t.net = s.net ∧ t.mem = s.mem ∧
      (s.recOf o.va = none → t = s)) ∧
  (∀ (s : State) (o : RemoteOp), o.port < 16 → (s.port o.port).phys = true → remoteKnown o = true → o.kind ≠ .report →
    s.firstInLine (.op o) = false → (s.inLine (.op o) = true ∨ s.remoteWaits o = true) →
    exec (.remoteOpReceive o) s = .next { s with net := { s.net with waiting := s.net.waiting ++ [.op o] } }) ∧
  (∀ (s : State) (o : RemoteOp), o.port < 16 → (s.port o.port).phys = true → remoteKnown o = true → o.kind ≠ .report →
    s.inLine (.op o) = false → s.remoteWaits o = false →
    (s.grantOf o.job = none → exec (.remoteOpReceive o) s =
      .next { s with net := { s.net with replies := s.net.replies ++ [(o.port, ⟨[], none, some (kProt, 4)⟩)] } }) ∧
    (∀ g, s.grantOf o.job = some g → (g.world = true ∧ o.secure = false ∨ g.permits o.kind = false) →
      exec (.remoteOpReceive o) s =
        .next { s with net := { s.net with replies := s.net.replies ++ [(o.port, ⟨[], none, some (kProt, 4)⟩)] } }) ∧
    (∀ g pa n, s.grantOf o.job = some g → (g.world = false ∨ o.secure = true) → g.permits o.kind = true →
      s.xlate g.troot (remoteAcc o.kind) g.world o.va.toNat = .ok pa → pa < sysBase →
      s.xlateRuns g.troot (remoteAcc o.kind) g.world o.va.toNat (remoteSpan o) = .ok [(pa, n)] →
      (o.kind = .read → exec (.remoteOpReceive o) s =
        .next { s with net := { s.net with replies := s.net.replies ++ [(o.port, s.remoteRead o.host [(pa, n)])] } }) ∧
      (o.kind = .write → o.poison = [] → n = o.data.length → s.quarantined pa = false → ∃ t, exec (.remoteOpReceive o) s = .next t ∧ Stored s t pa o.data ∧
        t.net.replies = s.net.replies ++ [(o.port, ⟨[], none, none⟩)]) ∧
      (o.kind = .fetchAdd → n = o.size → s.quarantined pa = false → s.firstPoison [] [(pa, n)] = none → ∃ t, exec (.remoteOpReceive o) s = .next t ∧
        Stored s t pa (leBytes o.size ((leNat (s.runBytes [] [(pa, n)]) + leNat (o.data.take o.size)) % 2 ^ (8 * o.size))) ∧
        t.net.replies = s.net.replies ++ [(o.port, ⟨leBytes o.size (leNat (s.runBytes [] [(pa, n)])), none, none⟩)]))) ∧
  (∀ (s : State) id r a, tget s.net.msgs id = none → exec (.remoteWriteAck id r) s = .next s ∧
    exec (.remoteReadResponse id a) s = .next s) ∧
  (∀ (s : State) id m q Q p, tget s.net.msgs id = some m → m.held = false → m.kind = .belfry q → tget s.belfry.queues q = some Q →
    Q.packet = some p → p.msg = some id →
    (∃ t, exec (.remoteWriteAck id none) s = .next t ∧ tget t.net.msgs id = none ∧ t.mem = s.mem ∧
      ∃ p', (t.queue q).packet = some p' ∧ p'.msg = none ∧ p'.step = p.step) ∧
    (∀ b, ∃ t, exec (.remoteReadResponse id ⟨b, none, none⟩) s = .next t ∧ tget t.net.msgs id = none ∧ t.mem = s.mem ∧
      ∃ p', (t.queue q).packet = some p' ∧ p'.msg = none ∧ p'.val = BitVec.ofNat 64 (leNat (b.take 8)))) ∧
  (∀ (s : State) id m w q x d k v b, tget s.net.msgs id = some m → m.held = false → m.kind = .pk w q → tget s.flight.waits w = some x →
    x.kind = .pk d k v → (tget s.groups x.gid).isSome = true → (s.group x.gid).run.place ≠ .stowed → s.inHandler x.gid = false →
    d < 128 → s.scalarTaken x.gid d x.lanes x.seq = false → b ≠ [] →
    ∃ t, exec (.remoteReadResponse id ⟨b, none, none⟩) s = .next t ∧ WaitOver w x s t ∧
      t.scalar x.gid d = BitVec.ofNat 32 (leNat (b.take 4))) ∧
  (∀ (s : State) p q, p < 16 → (s.port p).phys = true → s.spire.boot.inReset.contains 5 = false →
    (∀ t₁, ∃ t, exec (.ptpEventMessage p (.sync q (some t₁))) s = .next t ∧ t.mem = s.mem ∧ t.clk = s.clk ∧
      t.spire.sync = { s.spire.sync with exchange := some ⟨p, q, some t₁, s.clk.ns, some s.clk.ns⟩ } ∧
      ∃ id m, tget t.net.msgs id = some m ∧ m.port = some p ∧ m.kind = .ptp (.delayReq q) ∧ m.cls = 6) ∧
    (∃ t, exec (.ptpEventMessage p (.sync q none)) s = .next t ∧ t.mem = s.mem ∧ t.clk = s.clk ∧
      t.spire.sync = { s.spire.sync with exchange := some ⟨p, q, none, s.clk.ns, none⟩ }) ∧
    (∀ t₁ a k, s.spire.sync.exchange = some ⟨p, q, none, a, k⟩ →
      ∃ t, exec (.ptpEventMessage p (.followUp q t₁)) s = .next t ∧ t.mem = s.mem ∧ t.clk = s.clk ∧
        t.spire.sync = { s.spire.sync with exchange := some ⟨p, q, some t₁, a, some s.clk.ns⟩ } ∧
        ∃ id m, tget t.net.msgs id = some m ∧ m.port = some p ∧ m.kind = .ptp (.delayReq q) ∧ m.cls = 6) ∧
    (s.spire.sync.state ≠ 0 → s.spire.sync.port ≠ p → ∃ t id m, exec (.ptpEventMessage p (.delayReq q)) s = .next t ∧ t.mem = s.mem ∧
      t.clk = s.clk ∧ tget t.net.msgs id = some m ∧ m.port = some p ∧ m.kind = .ptp (.delayResp q s.clk.ns) ∧ m.cls = 6) ∧
    (∀ (t₁ a t₃ t₄ : Nat) x, s.spire.sync.exchange = some ⟨p, q, some t₁, a, some t₃⟩ →
      x = (((a : Int) - t₁) - ((t₄ : Int) - t₃)) / 2 →
      ∃ t, exec (.ptpEventMessage p (.delayResp q t₄)) s = .next t ∧ t.spire.sync = ⟨1, p, x, none⟩ ∧
        t.spire.boot.lockWait = none ∧ t.mem = s.mem ∧
        (s.spire.sync.state = 0 ∧ s.spire.boot.inReset.contains 6 = true →
          t.clk = { s.clk with ns := ((s.clk.ns : Int) - x).toNat }) ∧
        (s.spire.sync.state ≠ 0 ∨ s.spire.boot.inReset.contains 6 = false → t.clk = { s.clk with ppm := steer x }))) ∧
  (∀ (s : State), s.spire.sync.state = 1 → ∃ t, exec .ptpHoldover s = .next t ∧ t.spire.sync.state = 2 ∧
    t.clk = { s.clk with ppm := max (-2) (min 2 s.clk.ppm) } ∧ t.mem = s.mem) ∧
  (∀ (s : State) c, s.net.secured.contains c = false → ∃ t, exec (.securedContextOpen c) s = .next t ∧
    t.net = { s.net with secured := s.net.secured ++ [c] } ∧ t.mem = s.mem)
end

