-- ==== Sys2Proof/Laws/Encoding.lean ====
section
/-! SUPPORT. The fields of the words that the encoder builds (R70), and that a word is its opcode with its fields. -/
namespace Sys2Proof

theorem getLsbD_ofBool_zero (b : Bool) : (BitVec.ofBool b).getLsbD 0 = b := by cases b <;> rfl

theorem getLsbD_ofBool_getLsbD {n : Nat} (w : BitVec n) (k i : Nat) (h : i = 0) :
    (BitVec.ofBool (w.getLsbD k)).getLsbD i = w.getLsbD k := by subst h; exact getLsbD_ofBool_zero _

@[simp] theorem opOf_trWord (op : BitVec 7) (f : TR) : opOf (trWord op f) = op := by
  apply BitVec.eq_of_getLsbD_eq
  intro i hi
  simp (disch := omega) only [opOf, trWord, BitVec.getLsbD_extractLsb', BitVec.getLsbD_append, hi, decide_true,
    Bool.true_and, if_neg]
  congr 1
  omega

@[simp] theorem trOf_trWord (op : BitVec 7) (f : TR) : trOf (trWord op f) = f := by
  obtain ⟨la, lb, m, d, a, b⟩ := f
  simp only [trOf, trWord, TR.mk.injEq]
  refine ⟨?_, ?_, ?_, ?_, ?_, ?_⟩
  · simp (disch := omega) only [BitVec.getLsbD_append, if_neg, if_pos]
    exact getLsbD_ofBool_zero _
  · simp (disch := omega) only [BitVec.getLsbD_append, if_neg, if_pos]
    exact getLsbD_ofBool_zero _
  · apply BitVec.eq_of_getLsbD_eq
    intro i hi
    simp (disch := omega) only [BitVec.getLsbD_extractLsb', BitVec.getLsbD_append, hi, decide_true, Bool.true_and,
      if_neg, if_pos]
    try (congr 1; omega)
  · apply BitVec.eq_of_getLsbD_eq
    intro i hi
    simp (disch := omega) only [BitVec.getLsbD_extractLsb', BitVec.getLsbD_append, hi, decide_true, Bool.true_and,
      if_neg, if_pos]
    try (congr 1; omega)
  · apply BitVec.eq_of_getLsbD_eq
    intro i hi
    simp (disch := omega) only [BitVec.getLsbD_extractLsb', BitVec.getLsbD_append, hi, decide_true, Bool.true_and,
      if_neg, if_pos]
    try (congr 1; omega)
  · apply BitVec.eq_of_getLsbD_eq
    intro i hi
    simp (disch := omega) only [BitVec.getLsbD_extractLsb', BitVec.getLsbD_append, hi, decide_true, Bool.true_and,
      if_neg, if_pos]
    try (congr 1; omega)

theorem trWord_trOf (w : Word) : trWord (opOf w) (trOf w) = w := by
  apply BitVec.eq_of_getLsbD_eq
  intro i hi
  simp only [trWord, opOf, trOf, BitVec.getLsbD_append, BitVec.getLsbD_extractLsb']
  repeat' split
  all_goals first
    | (rw [getLsbD_ofBool_getLsbD _ _ _ (by omega)]; congr 1; omega)
    | (rw [decide_eq_true (by omega), Bool.true_and]; congr 1; omega)

@[simp] theorem opOf_riWord (op : BitVec 7) (f : RI) : opOf (riWord op f) = op := by
  apply BitVec.eq_of_getLsbD_eq
  intro i hi
  simp (disch := omega) only [opOf, riWord, BitVec.getLsbD_extractLsb', BitVec.getLsbD_append, hi, decide_true,
    Bool.true_and, if_neg]
  congr 1
  omega

@[simp] theorem riOf_riWord (op : BitVec 7) (f : RI) : riOf (riWord op f) = f := by
  obtain ⟨la, d, a, imm⟩ := f
  simp only [riOf, riWord, RI.mk.injEq]
  refine ⟨?_, ?_, ?_, ?_⟩
  · simp (disch := omega) only [BitVec.getLsbD_append, if_neg, if_pos]
    exact getLsbD_ofBool_zero _
  · apply BitVec.eq_of_getLsbD_eq
    intro i hi
    simp (disch := omega) only [BitVec.getLsbD_extractLsb', BitVec.getLsbD_append, hi, decide_true, Bool.true_and,
      if_neg, if_pos]
    try (congr 1; omega)
  · apply BitVec.eq_of_getLsbD_eq
    intro i hi
    simp (disch := omega) only [BitVec.getLsbD_extractLsb', BitVec.getLsbD_append, hi, decide_true, Bool.true_and,
      if_neg, if_pos]
    try (congr 1; omega)
  · apply BitVec.eq_of_getLsbD_eq
    intro i hi
    simp (disch := omega) only [BitVec.getLsbD_extractLsb', BitVec.getLsbD_append, hi, decide_true, Bool.true_and,
      if_neg, if_pos]
    try (congr 1; omega)

theorem riWord_riOf (w : Word) : riWord (opOf w) (riOf w) = w := by
  apply BitVec.eq_of_getLsbD_eq
  intro i hi
  simp only [riWord, opOf, riOf, BitVec.getLsbD_append, BitVec.getLsbD_extractLsb']
  repeat' split
  all_goals first
    | (rw [getLsbD_ofBool_getLsbD _ _ _ (by omega)]; congr 1; omega)
    | (rw [decide_eq_true (by omega), Bool.true_and]; congr 1; omega)

@[simp] theorem opOf_luWord (op : BitVec 7) (f : LU) : opOf (luWord op f) = op := by
  apply BitVec.eq_of_getLsbD_eq
  intro i hi
  simp (disch := omega) only [opOf, luWord, BitVec.getLsbD_extractLsb', BitVec.getLsbD_append, hi, decide_true,
    Bool.true_and, if_neg]
  congr 1
  omega

@[simp] theorem luOf_luWord (op : BitVec 7) (f : LU) : luOf (luWord op f) = f := by
  obtain ⟨d, imm⟩ := f
  simp only [luOf, luWord, LU.mk.injEq]
  refine ⟨?_, ?_⟩
  · apply BitVec.eq_of_getLsbD_eq
    intro i hi
    simp (disch := omega) only [BitVec.getLsbD_extractLsb', BitVec.getLsbD_append, hi, decide_true, Bool.true_and,
      if_neg, if_pos]
    try (congr 1; omega)
  · apply BitVec.eq_of_getLsbD_eq
    intro i hi
    simp (disch := omega) only [BitVec.getLsbD_extractLsb', BitVec.getLsbD_append, hi, decide_true, Bool.true_and,
      if_neg, if_pos]
    try (congr 1; omega)

theorem luWord_luOf (w : Word) : luWord (opOf w) (luOf w) = w := by
  apply BitVec.eq_of_getLsbD_eq
  intro i hi
  simp only [luWord, opOf, luOf, BitVec.getLsbD_append, BitVec.getLsbD_extractLsb']
  repeat' split
  all_goals (rw [decide_eq_true (by omega), Bool.true_and]; congr 1; omega)

@[simp] theorem opOf_brWord (op : BitVec 7) (f : BR) : opOf (brWord op f) = op := by
  apply BitVec.eq_of_getLsbD_eq
  intro i hi
  simp (disch := omega) only [opOf, brWord, BitVec.getLsbD_extractLsb', BitVec.getLsbD_append, hi, decide_true,
    Bool.true_and, if_neg]
  congr 1
  omega

@[simp] theorem brOf_brWord (op : BitVec 7) (f : BR) : brOf (brWord op f) = f := by
  obtain ⟨off⟩ := f
  simp only [brOf, brWord, BR.mk.injEq]
  exact by
    apply BitVec.eq_of_getLsbD_eq
    intro i hi
    simp (disch := omega) only [BitVec.getLsbD_extractLsb', BitVec.getLsbD_append, hi, decide_true, Bool.true_and,
      if_pos]
    try (congr 1; omega)

theorem brWord_brOf (w : Word) : brWord (opOf w) (brOf w) = w := by
  apply BitVec.eq_of_getLsbD_eq
  intro i hi
  simp only [brWord, opOf, brOf, BitVec.getLsbD_append, BitVec.getLsbD_extractLsb']
  repeat' split
  all_goals (rw [decide_eq_true (by omega), Bool.true_and]; congr 1; omega)

@[simp] theorem opOf_meWord (op : BitVec 7) (f : ME) : opOf (meWord op f) = op := by
  apply BitVec.eq_of_getLsbD_eq
  intro i hi
  simp (disch := omega) only [opOf, meWord, BitVec.getLsbD_extractLsb', BitVec.getLsbD_append, hi, decide_true,
    Bool.true_and, if_neg]
  congr 1
  omega

@[simp] theorem meOf_meWord (op : BitVec 7) (f : ME) : meOf (meWord op f) = f := by
  obtain ⟨la, mode, size, d, a, off⟩ := f
  simp only [meOf, meWord, ME.mk.injEq]
  refine ⟨?_, ?_, ?_, ?_, ?_, ?_⟩
  · simp (disch := omega) only [BitVec.getLsbD_append, if_neg, if_pos]
    exact getLsbD_ofBool_zero _
  · simp (disch := omega) only [BitVec.getLsbD_append, if_neg, if_pos]
    exact getLsbD_ofBool_zero _
  · apply BitVec.eq_of_getLsbD_eq
    intro i hi
    simp (disch := omega) only [BitVec.getLsbD_extractLsb', BitVec.getLsbD_append, hi, decide_true, Bool.true_and,
      if_neg, if_pos]
    try (congr 1; omega)
  · apply BitVec.eq_of_getLsbD_eq
    intro i hi
    simp (disch := omega) only [BitVec.getLsbD_extractLsb', BitVec.getLsbD_append, hi, decide_true, Bool.true_and,
      if_neg, if_pos]
    try (congr 1; omega)
  · apply BitVec.eq_of_getLsbD_eq
    intro i hi
    simp (disch := omega) only [BitVec.getLsbD_extractLsb', BitVec.getLsbD_append, hi, decide_true, Bool.true_and,
      if_neg, if_pos]
    try (congr 1; omega)
  · apply BitVec.eq_of_getLsbD_eq
    intro i hi
    simp (disch := omega) only [BitVec.getLsbD_extractLsb', BitVec.getLsbD_append, hi, decide_true, Bool.true_and,
      if_neg, if_pos]
    try (congr 1; omega)

theorem meWord_meOf (w : Word) : meWord (opOf w) (meOf w) = w := by
  apply BitVec.eq_of_getLsbD_eq
  intro i hi
  simp only [meWord, opOf, meOf, BitVec.getLsbD_append, BitVec.getLsbD_extractLsb']
  repeat' split
  all_goals first
    | (rw [getLsbD_ofBool_getLsbD _ _ _ (by omega)]; congr 1; omega)
    | (rw [decide_eq_true (by omega), Bool.true_and]; congr 1; omega)

end Sys2Proof
end

