-- ==== Sys2Proof/Laws/Tables.lean ====
section
/-! SUPPORT. What reading a table gives after each of its operations, and that they keep its keys in rising order. -/
namespace Sys2Proof.Machine

variable {α β : Type}

@[simp] theorem tget_nil (n : Nat) : tget ([] : Tab α) n = none := rfl

theorem tget_cons (k : Nat) (v : α) (r : Tab α) (n : Nat) :
    tget ((k, v) :: r) n = if n = k then some v else tget r n := rfl

theorem tget_isSome_iff (t : Tab α) (n : Nat) : (tget t n).isSome ↔ n ∈ t.map Prod.fst := by
  induction t with
  | nil => simp
  | cons e r ih => obtain ⟨k, v⟩ := e; by_cases h : n = k <;> simp [tget_cons, h, ih]

@[simp] theorem tget_tput_self (t : Tab α) (n : Nat) (v : α) : tget (tput t n v) n = some v := by
  induction t with
  | nil => simp [tput, tget_cons]
  | cons e r ih =>
    obtain ⟨k, x⟩ := e
    unfold tput
    split
    · simp [tget_cons]
    · split
      · simp [tget_cons]
      · next h => simp [tget_cons, h, ih]

theorem tget_tput_ne (t : Tab α) {n m : Nat} (v : α) (h : m ≠ n) : tget (tput t n v) m = tget t m := by
  induction t with
  | nil => simp [tput, tget_cons, h]
  | cons e r ih =>
    obtain ⟨k, x⟩ := e
    unfold tput
    split
    · simp [tget_cons, h]
    · split
      · next hk => subst hk; simp [tget_cons, h]
      · simp [tget_cons, ih]

theorem tget_tput (t : Tab α) (n m : Nat) (v : α) :
    tget (tput t n v) m = if m = n then some v else tget t m := by
  by_cases h : m = n
  · subst h; simp
  · simp [h, tget_tput_ne t v h]

theorem tget_tdel (t : Tab α) (n m : Nat) : tget (tdel t n) m = if m = n then none else tget t m := by
  induction t with
  | nil => simp [tdel]
  | cons e r ih =>
    obtain ⟨k, x⟩ := e
    simp only [tdel] at ih ⊢
    by_cases hk : k = n
    · subst hk
      by_cases hm : m = k <;> simp_all [tget_cons]
    · by_cases hm : m = n
      · subst hm
        have : ¬ m = k := fun h => hk h.symm
        simp_all [tget_cons]
      · simp_all [tget_cons]

@[simp] theorem tget_tdel_self (t : Tab α) (n : Nat) : tget (tdel t n) n = none := by simp [tget_tdel]

theorem tget_tdel_ne (t : Tab α) {n m : Nat} (h : m ≠ n) : tget (tdel t n) m = tget t m := by simp [tget_tdel, h]

theorem tget_tmod (t : Tab α) (n m : Nat) (f : α → α) :
    tget (tmod t n f) m = if m = n then (tget t m).map f else tget t m := by
  induction t with
  | nil => simp [tmod]
  | cons e r ih =>
    obtain ⟨k, x⟩ := e
    simp only [tmod] at ih
    by_cases hm : m = k
    · subst hm
      by_cases hn : m = n <;> simp [tmod, tget_cons, hn]
    · by_cases hk : k = n
      · subst hk; simp_all [tmod, tget_cons]
      · simp_all [tmod, tget_cons]

theorem tget_tmod_ne (t : Tab α) {n m : Nat} (f : α → α) (h : m ≠ n) : tget (tmod t n f) m = tget t m := by
  simp [tget_tmod, h]

@[simp] theorem tget_tmod_self (t : Tab α) (n : Nat) (f : α → α) : tget (tmod t n f) n = (tget t n).map f := by
  simp [tget_tmod]

theorem tgetD_tput [Inhabited α] (t : Tab α) (n m : Nat) (v : α) :
    tgetD (tput t n v) m = if m = n then v else tgetD t m := by
  unfold tgetD
  rw [tget_tput]
  split <;> rfl

@[simp] theorem tgetD_tput_self [Inhabited α] (t : Tab α) (n : Nat) (v : α) : tgetD (tput t n v) n = v := by
  simp [tgetD_tput]

theorem tget_tupd [Inhabited α] (t : Tab α) (n m : Nat) (f : α → α) :
    tget (tupd t n f) m = if m = n then some (f (tgetD t n)) else tget t m := tget_tput t n m _

theorem tgetD_tupd [Inhabited α] (t : Tab α) (n m : Nat) (f : α → α) :
    tgetD (tupd t n f) m = if m = n then f (tgetD t n) else tgetD t m := tgetD_tput t n m _

theorem tgetD_of_tget [Inhabited α] {t : Tab α} {n : Nat} {v : α} (h : tget t n = some v) : tgetD t n = v := by
  simp [tgetD, h]

theorem tget_tfresh_le (t : Tab α) {n : Nat} (h : tfresh t ≤ n) : tget t n = none := by
  induction t with
  | nil => rfl
  | cons e r ih =>
    obtain ⟨k, v⟩ := e
    simp only [tfresh] at h
    rw [tget_cons, if_neg (by omega), ih (by omega)]

/-- The number taken for a new entry is not a key. -/
@[simp] theorem tget_tfree (t : Tab α) : tget t (tfree t) = none := by
  unfold tfree
  split
  · next h => simpa using h
  · exact tget_tfresh_le t (Nat.le_refl _)

/-! ### Keys in rising order -/

theorem tab_wf_iff (t : Tab α) : Tab.wf t = true ↔ (t.map Prod.fst).Pairwise (· < ·) := by simp [Tab.wf]

theorem mem_keys_tput (t : Tab α) (n : Nat) (v : α) {x : Nat} (h : x ∈ (tput t n v).map Prod.fst) :
    x = n ∨ x ∈ t.map Prod.fst := by
  rw [← tget_isSome_iff, tget_tput] at h
  by_cases hx : x = n
  · exact .inl hx
  · rw [if_neg hx, tget_isSome_iff] at h
    exact .inr h

theorem tput_wf {t : Tab α} (h : Tab.wf t = true) (n : Nat) (v : α) : Tab.wf (tput t n v) = true := by
  rw [tab_wf_iff] at h ⊢
  induction t with
  | nil => simp [tput]
  | cons e r ih =>
    obtain ⟨k, x⟩ := e
    simp only [List.map_cons, List.pairwise_cons] at h
    unfold tput
    split
    · next hk =>
      simp only [List.map_cons, List.pairwise_cons]
      exact ⟨fun a ha => by
        rcases List.mem_cons.1 ha with rfl | ha
        · exact hk
        · exact Nat.lt_trans hk (h.1 a ha), h.1, h.2⟩
    · split
      · next hk => subst hk; simp only [List.map_cons, List.pairwise_cons]; exact h
      · simp only [List.map_cons, List.pairwise_cons]
        refine ⟨fun a ha => ?_, ih h.2⟩
        rcases mem_keys_tput r n v ha with rfl | ha
        · omega
        · exact h.1 a ha

theorem tdel_wf {t : Tab α} (h : Tab.wf t = true) (n : Nat) : Tab.wf (tdel t n) = true := by
  rw [tab_wf_iff] at h ⊢
  exact h.sublist ((List.filter_sublist).map _)

theorem tmod_wf {t : Tab α} (h : Tab.wf t = true) (n : Nat) (f : α → α) : Tab.wf (tmod t n f) = true := by
  rw [tab_wf_iff] at h ⊢
  have : (tmod t n f).map Prod.fst = t.map Prod.fst := by
    unfold tmod
    rw [List.map_map]
    apply List.map_congr_left
    intro e _
    simp only [Function.comp]
    split <;> rfl
  rwa [this]

theorem tupd_wf [Inhabited α] {t : Tab α} (h : Tab.wf t = true) (n : Nat) (f : α → α) : Tab.wf (tupd t n f) = true :=
  tput_wf h n _

end Sys2Proof.Machine
end

