-- ==== Sys2Proof/Laws/State.lean ====
section
/-! SUPPORT. What each update of the state leaves as it was, field by field, and what it makes of the entry it updates. -/
namespace Sys2Proof.Machine

section mods
variable (s : State) (k : Nat)

@[simp] theorem modGroup_clk (f) : (s.modGroup k f).clk = s.clk := rfl
@[simp] theorem modGroup_env (f) : (s.modGroup k f).env = s.env := rfl
@[simp] theorem modGroup_issue (f) : (s.modGroup k f).issue = s.issue := rfl
@[simp] theorem modGroup_mem (f) : (s.modGroup k f).mem = s.mem := rfl
@[simp] theorem modGroup_flight (f) : (s.modGroup k f).flight = s.flight := rfl
@[simp] theorem modGroup_groups (f) : (s.modGroup k f).groups = tmod s.groups k f := rfl
@[simp] theorem modGroup_blocks (f) : (s.modGroup k f).blocks = s.blocks := rfl
@[simp] theorem modGroup_cores (f) : (s.modGroup k f).cores = s.cores := rfl
@[simp] theorem modGroup_parts (f) : (s.modGroup k f).parts = s.parts := rfl
@[simp] theorem modGroup_mats (f) : (s.modGroup k f).mats = s.mats := rfl
@[simp] theorem modGroup_belfry (f) : (s.modGroup k f).belfry = s.belfry := rfl
@[simp] theorem modGroup_copies (f) : (s.modGroup k f).copies = s.copies := rfl
@[simp] theorem modGroup_faults (f) : (s.modGroup k f).faults = s.faults := rfl
@[simp] theorem modGroup_net (f) : (s.modGroup k f).net = s.net := rfl
@[simp] theorem modGroup_spire (f) : (s.modGroup k f).spire = s.spire := rfl
@[simp] theorem modGroup_trace (f) : (s.modGroup k f).trace = s.trace := rfl

@[simp] theorem modBlock_clk (f) : (s.modBlock k f).clk = s.clk := rfl
@[simp] theorem modBlock_env (f) : (s.modBlock k f).env = s.env := rfl
@[simp] theorem modBlock_issue (f) : (s.modBlock k f).issue = s.issue := rfl
@[simp] theorem modBlock_mem (f) : (s.modBlock k f).mem = s.mem := rfl
@[simp] theorem modBlock_flight (f) : (s.modBlock k f).flight = s.flight := rfl
@[simp] theorem modBlock_groups (f) : (s.modBlock k f).groups = s.groups := rfl
@[simp] theorem modBlock_blocks (f) : (s.modBlock k f).blocks = tmod s.blocks k f := rfl
@[simp] theorem modBlock_cores (f) : (s.modBlock k f).cores = s.cores := rfl
@[simp] theorem modBlock_parts (f) : (s.modBlock k f).parts = s.parts := rfl
@[simp] theorem modBlock_mats (f) : (s.modBlock k f).mats = s.mats := rfl
@[simp] theorem modBlock_belfry (f) : (s.modBlock k f).belfry = s.belfry := rfl
@[simp] theorem modBlock_copies (f) : (s.modBlock k f).copies = s.copies := rfl
@[simp] theorem modBlock_faults (f) : (s.modBlock k f).faults = s.faults := rfl
@[simp] theorem modBlock_net (f) : (s.modBlock k f).net = s.net := rfl
@[simp] theorem modBlock_spire (f) : (s.modBlock k f).spire = s.spire := rfl
@[simp] theorem modBlock_trace (f) : (s.modBlock k f).trace = s.trace := rfl

@[simp] theorem modCore_clk (f) : (s.modCore k f).clk = s.clk := rfl
@[simp] theorem modCore_env (f) : (s.modCore k f).env = s.env := rfl
@[simp] theorem modCore_issue (f) : (s.modCore k f).issue = s.issue := rfl
@[simp] theorem modCore_mem (f) : (s.modCore k f).mem = s.mem := rfl
@[simp] theorem modCore_flight (f) : (s.modCore k f).flight = s.flight := rfl
@[simp] theorem modCore_groups (f) : (s.modCore k f).groups = s.groups := rfl
@[simp] theorem modCore_blocks (f) : (s.modCore k f).blocks = s.blocks := rfl
@[simp] theorem modCore_cores (f) : (s.modCore k f).cores = tupd s.cores k f := rfl
@[simp] theorem modCore_parts (f) : (s.modCore k f).parts = s.parts := rfl
@[simp] theorem modCore_mats (f) : (s.modCore k f).mats = s.mats := rfl
@[simp] theorem modCore_belfry (f) : (s.modCore k f).belfry = s.belfry := rfl
@[simp] theorem modCore_copies (f) : (s.modCore k f).copies = s.copies := rfl
@[simp] theorem modCore_faults (f) : (s.modCore k f).faults = s.faults := rfl
@[simp] theorem modCore_net (f) : (s.modCore k f).net = s.net := rfl
@[simp] theorem modCore_spire (f) : (s.modCore k f).spire = s.spire := rfl
@[simp] theorem modCore_trace (f) : (s.modCore k f).trace = s.trace := rfl

@[simp] theorem modPart_clk (f) : (s.modPart k f).clk = s.clk := rfl
@[simp] theorem modPart_env (f) : (s.modPart k f).env = s.env := rfl
@[simp] theorem modPart_issue (f) : (s.modPart k f).issue = s.issue := rfl
@[simp] theorem modPart_mem (f) : (s.modPart k f).mem = s.mem := rfl
@[simp] theorem modPart_flight (f) : (s.modPart k f).flight = s.flight := rfl
@[simp] theorem modPart_groups (f) : (s.modPart k f).groups = s.groups := rfl
@[simp] theorem modPart_blocks (f) : (s.modPart k f).blocks = s.blocks := rfl
@[simp] theorem modPart_cores (f) : (s.modPart k f).cores = s.cores := rfl
@[simp] theorem modPart_parts (f) : (s.modPart k f).parts = tupd s.parts k f := rfl
@[simp] theorem modPart_mats (f) : (s.modPart k f).mats = s.mats := rfl
@[simp] theorem modPart_belfry (f) : (s.modPart k f).belfry = s.belfry := rfl
@[simp] theorem modPart_copies (f) : (s.modPart k f).copies = s.copies := rfl
@[simp] theorem modPart_faults (f) : (s.modPart k f).faults = s.faults := rfl
@[simp] theorem modPart_net (f) : (s.modPart k f).net = s.net := rfl
@[simp] theorem modPart_spire (f) : (s.modPart k f).spire = s.spire := rfl
@[simp] theorem modPart_trace (f) : (s.modPart k f).trace = s.trace := rfl

theorem core_modCore (c : Nat) (f) : (s.modCore k f).core c = if c = k then f (s.core k) else s.core c := by
  simp only [State.core, modCore_cores]
  exact tgetD_tupd s.cores k c f

@[simp] theorem core_modCore_self (f) : (s.modCore k f).core k = f (s.core k) := by simp [core_modCore]

theorem part_modPart (p : Nat) (f) : (s.modPart k f).part p = if p = k then f (s.part k) else s.part p := by
  simp only [State.part, modPart_parts]
  exact tgetD_tupd s.parts k p f

theorem group_modGroup (g : Nat) (f) (h : (tget s.groups k).isSome) :
    (s.modGroup k f).group g = if g = k then f (s.group k) else s.group g := by
  obtain ⟨G, hG⟩ := Option.isSome_iff_exists.1 h
  simp only [State.group, tgetD, modGroup_groups, tget_tmod]
  split
  · next e => subst e; simp [hG]
  · rfl

theorem group_modGroup_ne {g : Nat} (f) (h : g ≠ k) : (s.modGroup k f).group g = s.group g := by
  simp only [State.group, tgetD, modGroup_groups, tget_tmod_ne _ _ h]

/-- A property of a group that an update keeps holds of it after the update, whether or not the group is there. -/
theorem group_modGroup_keep {γ : Type} (π : Group → γ) (g : Nat) (f) (h : ∀ G, π (f G) = π G) :
    π ((s.modGroup k f).group g) = π (s.group g) := by
  simp only [State.group, tgetD, modGroup_groups, tget_tmod]
  split
  · cases tget s.groups g <;> simp [h]
  · rfl

end mods

/-! ### Threads and masks -/

theorem modThreads_thread (G : Group) (m : Mask) (f : Nat → Thread → Thread) {l : Nat} (hl : l < 128) :
    (G.modThreads m f).thread l = if m.getLsbD l then f l (G.thread l) else G.thread l := by
  simp only [Group.modThreads, Group.thread, List.getD_eq_getElem?_getD]
  rw [List.getElem?_map, List.getElem?_range hl]
  simp

theorem lanesFn_val (f : Nat → Word) {l : Nat} (hl : l < 128) : laneVal (lanesFn f) l = f l := by
  simp only [laneVal, lanesFn, List.getD_eq_getElem?_getD]
  rw [List.getElem?_map, List.getElem?_range hl]
  rfl

theorem mergeLanes_val (m : Mask) (new old : Lanes) {l : Nat} (hl : l < 128) :
    laneVal (mergeLanes m new old) l = if m.getLsbD l then laneVal new l else laneVal old l := lanesFn_val _ hl

theorem mem_lanesOf (m : Mask) (l : Nat) : l ∈ lanesOf m ↔ l < 128 ∧ m.getLsbD l = true := by
  simp [lanesOf]

theorem getLsbD_laneBit (l k : Nat) (hk : k < 128) : (laneBit l).getLsbD k = decide (k = l) := by
  by_cases h : k < l
  · simp [laneBit, hk, h]; omega
  · simp [laneBit, hk, h]; omega

theorem getLsbD_maskOf_aux (ls : List Nat) (m : Mask) (k : Nat) (hk : k < 128) :
    (ls.foldl (fun m l => m ||| laneBit l) m).getLsbD k = (m.getLsbD k || decide (k ∈ ls)) := by
  induction ls generalizing m with
  | nil => simp
  | cons a r ih =>
    rw [List.foldl_cons, ih, BitVec.getLsbD_or, getLsbD_laneBit _ _ hk]
    by_cases h : k = a <;> simp [h]

theorem getLsbD_maskOf (ls : List Nat) (k : Nat) (hk : k < 128) : (maskOf ls).getLsbD k = decide (k ∈ ls) := by
  rw [maskOf, getLsbD_maskOf_aux _ _ _ hk]; simp

end Sys2Proof.Machine
end

