-- ==== Sys2Proof/Laws/Regs.lean ====
section
/-! SUPPORT. What releasing, reserving and mapping registers can do: nothing outside the rename table of the group, the
pools and the accounts of the allotment (R90 to R99, R238, R239). -/
namespace Sys2Proof.Machine

/-- A fold keeps what a reflexive and transitive relation says. -/
theorem foldS_rel {α : Type} {R : State → State → Prop} (hr : ∀ s, R s s) (ht : ∀ {a b c}, R a b → R b c → R a c)
    {f : State → α → State} (hf : ∀ s a, R s (f s a)) (l : List α) (s : State) : R s (foldS l s f) := by
  induction l generalizing s with
  | nil => exact hr s
  | cons a r ih => exact ht (hf s a) (ih (f s a))

@[simp] theorem foldS_nil {α : Type} (s : State) (f : State → α → State) : foldS [] s f = s := rfl
@[simp] theorem foldS_cons {α : Type} (a : α) (r : List α) (s : State) (f : State → α → State) :
    foldS (a :: r) s f = foldS r (f s a) f := rfl

/-- The two states differ at most in the rename table of one group, in the pools and in the accounts of the allotment. -/
structure RegsOnly (g : Nat) (s t : State) : Prop where
  clk : t.clk = s.clk
  env : t.env = s.env
  issue : t.issue = s.issue
  mem : t.mem = s.mem
  flight : t.flight = s.flight
  parts : t.parts = s.parts
  mats : t.mats = s.mats
  belfry : t.belfry = s.belfry
  copies : t.copies = s.copies
  faults : t.faults = s.faults
  net : t.net = s.net
  spire : t.spire = s.spire
  trace : t.trace = s.trace
  groups : ∀ h, (tget t.groups h).map Group.bare = (tget s.groups h).map Group.bare
  maps : ∀ h, h ≠ g → (t.group h).map = (s.group h).map
  blocks : ∀ b, (tget t.blocks b).map Block.bare = (tget s.blocks b).map Block.bare
  cores : ∀ c, (t.core c).bare = (s.core c).bare

theorem RegsOnly.refl (g : Nat) (s : State) : RegsOnly g s s := by constructor <;> intros <;> rfl

theorem RegsOnly.trans {g : Nat} {a b c : State} (h : RegsOnly g a b) (k : RegsOnly g b c) : RegsOnly g a c where
  clk := k.clk.trans h.clk
  env := k.env.trans h.env
  issue := k.issue.trans h.issue
  mem := k.mem.trans h.mem
  flight := k.flight.trans h.flight
  parts := k.parts.trans h.parts
  mats := k.mats.trans h.mats
  belfry := k.belfry.trans h.belfry
  copies := k.copies.trans h.copies
  faults := k.faults.trans h.faults
  net := k.net.trans h.net
  spire := k.spire.trans h.spire
  trace := k.trace.trans h.trace
  groups x := (k.groups x).trans (h.groups x)
  maps x hx := (k.maps x hx).trans (h.maps x hx)
  blocks x := (k.blocks x).trans (h.blocks x)
  cores x := (k.cores x).trans (h.cores x)

/-- The bare group of a state, there or not. -/
theorem RegsOnly.bare {g : Nat} {s t : State} (h : RegsOnly g s t) (x : Nat) : (t.group x).bare = (s.group x).bare := by
  have := h.groups x
  simp only [State.group, tgetD]
  cases ht : tget t.groups x <;> cases hs : tget s.groups x <;> simp_all

theorem regsOnly_modCore (g : Nat) (s : State) (k : Nat) (f : Core → Core) (hf : ∀ c, (f c).bare = c.bare) :
    RegsOnly g s (s.modCore k f) := by
  constructor <;> intros <;> first | rfl | skip
  rw [core_modCore]
  split
  · next h => subst h; exact hf _
  · rfl

theorem regsOnly_modGroup (g : Nat) (s : State) (k : Nat) (f : Group → Group) (hf : ∀ G, (f G).bare = G.bare)
    (hm : k = g ∨ ∀ G, (f G).map = G.map) : RegsOnly g s (s.modGroup k f) := by
  constructor <;> intros <;> first | rfl | skip
  · simp only [modGroup_groups, tget_tmod]
    split
    · rw [Option.map_map]; congr 1; funext G; exact hf G
    · rfl
  · next h hne =>
    rcases hm with rfl | hm
    · exact congrArg _ (group_modGroup_ne s k f hne)
    · exact group_modGroup_keep s k Group.map h f hm

theorem regsOnly_modBlock (g : Nat) (s : State) (k : Nat) (f : Block → Block) (hf : ∀ b, (f b).bare = b.bare) :
    RegsOnly g s (s.modBlock k f) := by
  constructor <;> intros <;> first | rfl | skip
  simp only [modBlock_blocks, tget_tmod]
  split
  · rw [Option.map_map]; congr 1; funext b; exact hf b
  · rfl

theorem regsOnly_setEntry (s : State) (g n : Nat) (e : Option MapEntry) : RegsOnly g s (s.setEntry g n e) :=
  regsOnly_modGroup g s g _ (fun _ => rfl) (.inl rfl)

theorem regsOnly_payRelease (g : Nat) (s : State) (k : Nat) : RegsOnly g s (s.payRelease k) := by
  simp only [State.payRelease]
  split
  · exact regsOnly_modBlock g s _ _ (fun _ => rfl)
  · split
    · refine .trans ?_ (regsOnly_modBlock g _ _ _ (fun _ => rfl))
      exact regsOnly_modGroup g s k _ (fun _ => rfl) (.inr (fun _ => rfl))
    · exact .refl g s

theorem regsOnly_dropPhys (g : Nat) (s : State) (c p : Nat) : RegsOnly g s (s.dropPhys c p) := by
  simp only [State.dropPhys]
  split
  · exact .refl g s
  · split
    · refine .trans ?_ (regsOnly_payRelease g _ _)
      exact regsOnly_modCore g s c _ (fun _ => rfl)
    · exact regsOnly_modCore g s c _ (fun _ => rfl)

theorem regsOnly_dropMapping (g : Nat) (s : State) (c : Nat) (m : Mapping) : RegsOnly g s (s.dropMapping c m) := by
  cases m with
  | phys p => exact regsOnly_dropPhys g s c p
  | unif u =>
    simp only [State.dropMapping]
    split
    · exact .refl g s
    · exact regsOnly_modCore g s c _ (fun _ => rfl)
  | spilled => exact .refl g s

theorem regsOnly_unreserve (g : Nat) (s : State) (c : Nat) (r : Option Nat) : RegsOnly g s (s.unreserve c r) := by
  cases r with
  | none => exact .refl g s
  | some p => exact regsOnly_dropPhys g s c p

/-- Releasing lanes of a name touches the group's rename table and the pools only (R92). -/
theorem regsOnly_releaseName (s : State) (g n : Nat) (w : Mask) : RegsOnly g s (s.releaseName g n w) := by
  simp only [State.releaseName]
  split
  · exact .refl g s
  · split
    · exact regsOnly_modGroup g s g _ (fun _ => rfl) (.inl rfl)
    · split
      · exact (regsOnly_setEntry s g n _).trans (regsOnly_dropMapping g _ _ _)
      · exact regsOnly_setEntry s g n _

theorem regsOnly_releaseAll (s : State) (g : Nat) (w : Mask) : RegsOnly g s (s.releaseAll g w) :=
  foldS_rel (R := RegsOnly g) (.refl g) .trans (fun s n => regsOnly_releaseName s g n w) _ s

theorem regsOnly_takePhys (s : State) (c g : Nat) (r : Option Nat) (v : Lanes) (p : Mask) :
    RegsOnly g s (s.takePhys c g r v p).2 := regsOnly_modCore g s c _ (fun _ => rfl)

theorem regsOnly_reserve (s : State) (g : Nat) : RegsOnly g s (s.reserve g).2 :=
  regsOnly_modCore g s _ _ (fun _ => rfl)

theorem coreOf_regsOnly {g : Nat} {s t : State} (h : RegsOnly g s t) (x : Nat) : t.coreOf x = s.coreOf x := by
  have := congrArg Group.id (h.bare x)
  simp only [Group.bare] at this
  simp only [State.coreOf, this]

/-- A vector write at write-back of a group whose registers are in the pool touches the group's rename table and the pools only,
unless the name is a shadow register (R91, R93, R301). -/
theorem regsOnly_landName (s : State) (g n : Nat) (w : Mask) (v : Lanes) (x : Bool) (r : Option Nat)
    (hn : n < shadowName) (hs : (s.group g).run.spilled = false) : RegsOnly g s (s.landName g n w v x r) := by
  simp only [State.landName, if_neg (Nat.not_le.2 hn), hs, Bool.false_eq_true, if_false]
  repeat' split
  all_goals
    repeat first
      | exact .refl g s
      | refine .trans ?_ (regsOnly_unreserve g _ _ _)
      | refine .trans ?_ (regsOnly_setEntry _ g _ _)
      | refine .trans ?_ (regsOnly_takePhys _ _ g _ _ _)
      | refine .trans ?_ (regsOnly_dropMapping g _ _ _)
      | refine .trans ?_ (regsOnly_modCore g _ _ _ (fun _ => rfl))

end Sys2Proof.Machine
end

