-- ==== Sys2Proof/Laws/Reads.lean ====
section
/-! SUPPORT. What a name reads as after another name is released, after a register is set aside, and after a write lands
(R90 to R95). -/
namespace Sys2Proof.Machine

/-- A read looks only at the group's identity and rename table, the entry behind the mapping, the shadow registers, the
set operations and the counter of the free values. -/
theorem readName_congr {s t : State} {g n : Nat} (hid : (t.group g).id = (s.group g).id)
    (hp : (t.part (s.group g).id.part).shadowV = (s.part (s.group g).id.part).shadowV)
    (hm : t.mats = s.mats) (he : t.env.freeCtr = s.env.freeCtr) (hmap : tget (t.group g).map n = tget (s.group g).map n)
    (hv : ∀ e, tget (s.group g).map n = some e →
      (t.core (s.coreOf g)).mapVals e.map = (s.core (s.coreOf g)).mapVals e.map ∧
      (t.core (s.coreOf g)).mapPoison e.map = (s.core (s.coreOf g)).mapPoison e.map) (l : Nat) :
    t.readName g n l = s.readName g n l := by
  have hc : t.coreOf g = s.coreOf g := by simp only [State.coreOf, hid]
  have hr : (t.core (s.coreOf g)).readEntry (tget (s.group g).map n) l =
      (s.core (s.coreOf g)).readEntry (tget (s.group g).map n) l := by
    cases h : tget (s.group g).map n with
    | none => rfl
    | some e => simp only [Core.readEntry, (hv e h).1, (hv e h).2]
  have hi : t.inMatrix g n = s.inMatrix g n := by simp only [State.inMatrix, hm]
  simp only [State.readName, hid, hp, hc, hmap, hr, hi, he]

@[simp] theorem payRelease_cores (s : State) (k : Nat) : (s.payRelease k).cores = s.cores := by
  simp only [State.payRelease]
  split
  · rfl
  · split <;> rfl

theorem payRelease_core (s : State) (k c : Nat) : (s.payRelease k).core c = s.core c := by
  simp only [State.core, payRelease_cores]

/-- Giving a physical register back leaves the other registers of the core as they were. -/
theorem dropPhys_pool_ne (s : State) (c p c' : Nat) {q : Nat} (h : q ≠ p) :
    tget ((s.dropPhys c p).core c').pool q = tget (s.core c').pool q := by
  simp only [State.dropPhys]
  split
  · rfl
  · split
    · rw [payRelease_core, core_modCore]
      split
      · next e => subst e; exact tget_tdel_ne _ h
      · rfl
    · rw [core_modCore]
      split
      · next e => subst e; exact tget_tput_ne _ _ h
      · rfl

theorem dropPhys_unif (s : State) (c p c' : Nat) : ((s.dropPhys c p).core c').unif = (s.core c').unif := by
  simp only [State.dropPhys]
  split
  · rfl
  · split
    · rw [payRelease_core, core_modCore]
      split
      · next e => subst e; rfl
      · rfl
    · rw [core_modCore]
      split
      · next e => subst e; rfl
      · rfl

/-- The lanes behind a mapping are those of another mapping's drop. -/
theorem dropMapping_lanes (s : State) (c c' : Nat) {m m' : Mapping} (h : m' ≠ m) :
    ((s.dropMapping c m).core c').mapVals m' = (s.core c').mapVals m' ∧
    ((s.dropMapping c m).core c').mapPoison m' = (s.core c').mapPoison m' := by
  cases m with
  | phys p =>
    cases m' with
    | phys q =>
      have hq : q ≠ p := fun e => h (by rw [e])
      simp only [State.dropMapping, Core.mapVals, Core.mapPoison, tgetD, dropPhys_pool_ne s c p c' hq, and_self]
    | unif u => simp only [State.dropMapping, Core.mapVals, Core.mapPoison, dropPhys_unif, and_self]
    | spilled => exact ⟨rfl, rfl⟩
  | unif u =>
    simp only [State.dropMapping]
    split
    · exact ⟨rfl, rfl⟩
    · cases m' with
      | phys q =>
        simp only [Core.mapVals, Core.mapPoison, core_modCore]
        split
        · next e => subst e; exact ⟨rfl, rfl⟩
        · exact ⟨rfl, rfl⟩
      | unif v =>
        have hv : v ≠ u := fun e => h (by rw [e])
        simp only [Core.mapVals, Core.mapPoison, core_modCore, tgetD]
        split
        · next e => subst e; simp only [tget_tdel_ne _ hv, and_self]
        · exact ⟨rfl, rfl⟩
      | spilled => exact ⟨rfl, rfl⟩
  | spilled => exact ⟨rfl, rfl⟩

theorem dropMapping_map (s : State) (c : Nat) (m : Mapping) (h : Nat) :
    ((s.dropMapping c m).group h).map = (s.group h).map :=
  (regsOnly_dropMapping (h + 1) s c m).maps h (by omega)

theorem setEntry_map_ne (s : State) (g : Nat) {n n' : Nat} (e : Option MapEntry) (h : n ≠ n') :
    tget ((s.setEntry g n' e).group g).map n = tget (s.group g).map n := by
  unfold State.setEntry
  exact group_modGroup_keep s g (fun G => tget G.map n) g _ (fun G => by
    cases e with
    | none => exact tget_tdel_ne _ h
    | some x => exact tget_tput_ne _ _ h)

/-- Releasing lanes of a name leaves the entry of every other name as it was (R92). -/
theorem releaseName_map_ne (s : State) (g : Nat) {n n' : Nat} (w : Mask) (hn : n ≠ n') :
    tget ((s.releaseName g n' w).group g).map n = tget (s.group g).map n := by
  simp only [State.releaseName]
  split
  · rfl
  · split
    · exact congrArg (tget · n) (group_modGroup_keep s g Group.map g _ (fun _ => rfl))
    · split
      · rw [dropMapping_map]; exact setEntry_map_ne s g _ hn
      · exact setEntry_map_ne s g _ hn

/-- The entry that is left of a name when lanes leave its mask (R92). -/
theorem releaseName_map_self {s : State} {g n : Nat} {e : MapEntry} (w : Mask) (he : tget (s.group g).map n = some e)
    (hh : s.engineHolds g e.map = false) : tget ((s.releaseName g n w).group g).map n =
      if e.mask &&& ~~~w = 0 then none else some { e with mask := e.mask &&& ~~~w } := by
  have hg : (tget s.groups g).isSome = true := by
    cases h : tget s.groups g with
    | none => simp [State.group, tgetD, h, show (default : Group).map = [] from rfl] at he
    | some G => rfl
  simp only [State.releaseName, he, hh, Bool.false_eq_true, if_false]
  split
  · rw [dropMapping_map]
    simp [State.setEntry, group_modGroup s g g _ hg]
  · simp [State.setEntry, group_modGroup s g g _ hg]

theorem releaseName_map_none {s : State} {g n : Nat} (w : Mask) (he : tget (s.group g).map n = none) :
    s.releaseName g n w = s := by simp only [State.releaseName, he]

/-- Releasing lanes of a name leaves every name that does not share its register as it was (R92). -/
theorem readName_releaseName (s : State) (g : Nat) {n n' : Nat} (w : Mask) (hn : n ≠ n')
    (hs : (s.group g).mappingOf n' = none ∨ (s.group g).mappingOf n ≠ (s.group g).mappingOf n') (l : Nat) :
    (s.releaseName g n' w).readName g n l = s.readName g n l := by
  have R := regsOnly_releaseName s g n' w
  have hid := congrArg Group.id (R.bare g)
  refine readName_congr hid (by simp only [State.part, R.parts]) R.mats (by rw [R.env]) (releaseName_map_ne s g w hn) ?_ l
  · intro e he
    simp only [State.releaseName]
    split
    · exact ⟨rfl, rfl⟩
    · next e' he' =>
      split
      · exact ⟨rfl, rfl⟩
      · split
        · have hne : e.map ≠ e'.map := by
            rcases hs with hs | hs
            · simp [Group.mappingOf, he'] at hs
            · simpa [Group.mappingOf, he, he'] using hs
          exact dropMapping_lanes (s.setEntry g n' none) (s.coreOf g) (s.coreOf g) hne
        · exact ⟨rfl, rfl⟩

theorem releaseName_mapping (s : State) (g : Nat) (n' n : Nat) (w : Mask) :
    ((s.releaseName g n' w).group g).mappingOf n = (s.group g).mappingOf n ∨
    ((s.releaseName g n' w).group g).mappingOf n = none := by
  by_cases hn : n = n'
  · subst hn
    simp only [State.releaseName, Group.mappingOf]
    cases hg : tget s.groups g with
    | none =>
      left
      have : s.group g = default := by simp [State.group, tgetD, hg]
      split
      · rfl
      · next e he => rw [this] at he; cases he
    | some G =>
      split
      · next he => left; rw [he]
      · next e he =>
        split
        · left
          simp [group_modGroup s g g _ (by simp [hg])]
        · split
          · right
            rw [dropMapping_map]
            simp [State.setEntry, group_modGroup s g g _ (by simp [hg])]
          · left
            simp [State.setEntry, group_modGroup s g g _ (by simp [hg]), he]
  · left
    simp only [Group.mappingOf]
    congr 1
    exact releaseName_map_ne s g w hn

/-- Setting a register aside changes what no name reads as (R94). -/
theorem readName_reserve (s : State) (g h n l : Nat) : (s.reserve g).2.readName h n l = s.readName h n l := by
  have R := regsOnly_reserve s g
  have hid := congrArg Group.id (R.bare h)
  refine readName_congr (s := s) hid (by simp only [State.part, R.parts]) R.mats (by rw [R.env]) rfl ?_ l
  intro e _
  simp only [State.reserve, core_modCore]
  split
  · next hc =>
    rw [hc]
    cases hm : e.map with
    | phys q =>
      simp only [Core.mapVals, Core.mapPoison, tgetD_tput]
      split
      · next hq => subst hq; simp only [tgetD, tget_tfree]; exact ⟨rfl, rfl⟩
      · exact ⟨rfl, rfl⟩
    | unif u => exact ⟨rfl, rfl⟩
    | spilled => exact ⟨rfl, rfl⟩
  · exact ⟨rfl, rfl⟩

end Sys2Proof.Machine
end

