-- ==== Sys2Proof/Laws/Exec.lean ====
section
/-! SUPPORT. What a fixed-latency instruction does, once for every instruction of that shape (R66 to R68, R72, R91). -/
namespace Sys2Proof.Machine

/-- A fold keeps an invariant. -/
theorem foldS_inv {α : Type} {P : State → Prop} {f : State → α → State} (l : List α) (s : State) (h : P s)
    (hf : ∀ s a, a ∈ l → P s → P (f s a)) : P (foldS l s f) := by
  induction l generalizing s with
  | nil => exact h
  | cons a r ih =>
    exact ih (f s a) (hf s a (List.mem_cons_self ..) h) (fun s b hb => hf s b (List.mem_cons_of_mem _ hb))

/-! ### Releases before the effect -/

/-- From `s` to `t` only names of `rel` have been released, and every name that shares no register with one of them reads
as before. -/
structure Released (g : Nat) (rel : List Nat) (s t : State) : Prop where
  regs : RegsOnly g s t
  maps : ∀ n, (t.group g).mappingOf n = (s.group g).mappingOf n ∨ (t.group g).mappingOf n = none
  reads : ∀ n l, n ∉ rel →
    (∀ n', n' ∈ rel → (s.group g).mappingOf n' = none ∨ (s.group g).mappingOf n ≠ (s.group g).mappingOf n') →
    t.readName g n l = s.readName g n l

theorem Released.refl (g : Nat) (rel : List Nat) (s : State) : Released g rel s s :=
  ⟨.refl g s, fun _ => .inl rfl, fun _ _ _ _ => rfl⟩

theorem Released.step {g : Nat} {rel : List Nat} {s t : State} (h : Released g rel s t) {n' : Nat} (hn' : n' ∈ rel)
    (w : Mask) : Released g rel s (t.releaseName g n' w) where
  regs := h.regs.trans (regsOnly_releaseName t g n' w)
  maps n := by
    rcases releaseName_mapping t g n' n w with e | e
    · rw [e]; exact h.maps n
    · exact .inr e
  reads n l hn hs := by
    rw [← h.reads n l hn hs]
    refine readName_releaseName t g w (by rintro rfl; exact hn hn') ?_ l
    rcases h.maps n' with e' | e'
    · rcases hs n' hn' with hs | hs
      · exact .inl (e'.trans hs)
      · rcases h.maps n with e | e
        · right; rw [e, e']; exact hs
        · rw [e, e']
          cases hm : (s.group g).mappingOf n' with
          | none => exact .inl rfl
          | some x => exact .inr (by simp)
    · exact .inl e'

theorem inHandler_bare {s t : State} {g : Nat} (h : (t.group g).bare = (s.group g).bare) : t.inHandler g = s.inHandler g := by
  have := congrArg Group.handler h
  simp only [Group.bare] at this
  simp only [State.inHandler, this]

theorem fieldName_bare {s t : State} {g : Nat} (h : (t.group g).bare = (s.group g).bare) (wb : BitVec 9) (f : Nat) :
    t.fieldName g wb f = s.fieldName g wb f := by
  simp only [State.fieldName, inHandler_bare h]

/-- Last-use releases (R72, R92). -/
theorem released_releaseSrcs (s : State) (g : Nat) (wb : BitVec 9) (o : Opnds) (w : Mask) :
    Released g ((o.vs.filter (·.last)).flatMap (fun v => v.fields.map (s.fieldName g wb))) s
      (s.releaseSrcs g wb o w) := by
  unfold State.releaseSrcs
  refine foldS_inv (P := Released g _ s) _ s (.refl ..) (fun t v hv ht => ?_)
  refine foldS_inv (P := Released g _ s) _ t ht (fun t f hf ht => ?_)
  have e := fieldName_bare (ht.regs.bare g) wb f
  simp only [e]
  split
  · exact ht
  · exact ht.step (List.mem_flatMap.2 ⟨v, hv, List.mem_map.2 ⟨f, hf, rfl⟩⟩) w

theorem engineHolds_mats {s t : State} (h : t.mats = s.mats) (g : Nat) (x : Mapping) :
    t.engineHolds g x = s.engineHolds g x := by simp only [State.engineHolds, h]

/-- The entry of one name where every name of a list has been released in turn. -/
theorem releaseList_map {g n : Nat} {e : MapEntry} {w : Mask} (ns : List Nat) {s t : State} (R : RegsOnly g s t)
    (hh : s.engineHolds g e.map = false)
    (h : tget (t.group g).map n = some e ∨
      tget (t.group g).map n = if e.mask &&& ~~~w = 0 then none else some { e with mask := e.mask &&& ~~~w }) :
    let u := foldS ns t (fun s k => if shadowName ≤ k then s else s.releaseName g k w)
    ((n ∈ ns ∧ n < shadowName) ∨ tget (t.group g).map n ≠ some e →
      tget (u.group g).map n = if e.mask &&& ~~~w = 0 then none else some { e with mask := e.mask &&& ~~~w }) := by
  induction ns generalizing t with
  | nil =>
    rintro u (⟨hm, _⟩ | hne)
    · cases hm
    · exact h.resolve_left hne
  | cons k r ih =>
    intro u hu
    simp only [u, foldS_cons]
    by_cases hk : shadowName ≤ k
    · simp only [if_pos hk]
      refine ih R h ?_
      rcases hu with ⟨hm, hs⟩ | hne
      · exact .inl ⟨(List.mem_cons.1 hm).resolve_left (by omega), hs⟩
      · exact .inr hne
    · simp only [if_neg hk]
      have R' := R.trans (regsOnly_releaseName t g k w)
      by_cases hkn : n = k
      · subst hkn
        have hdone : tget ((t.releaseName g n w).group g).map n =
            if e.mask &&& ~~~w = 0 then none else some { e with mask := e.mask &&& ~~~w } := by
          rcases h with h | h
          · exact releaseName_map_self w h ((engineHolds_mats R.mats g _).trans hh)
          · by_cases h0 : e.mask &&& ~~~w = 0
            · rw [if_pos h0] at h ⊢
              rw [releaseName_map_none w h]; exact h
            · rw [if_neg h0] at h ⊢
              rw [releaseName_map_self w h ((engineHolds_mats R.mats g _).trans hh)]
              rw [BitVec.and_assoc, BitVec.and_self, if_neg h0]
        by_cases hr : n ∈ r
        · exact ih R' (.inr hdone) (.inl ⟨hr, by omega⟩)
        · by_cases heq : tget ((t.releaseName g n w).group g).map n = some e
          · -- nothing was in the mask to release
            have := ih R' (.inl heq)
            rw [heq] at hdone
            have hk' : tget ((foldS r (t.releaseName g n w) (fun s k =>
                if shadowName ≤ k then s else s.releaseName g k w)).group g).map n =
                tget ((t.releaseName g n w).group g).map n :=
              foldS_inv (P := fun x => tget (x.group g).map n = tget ((t.releaseName g n w).group g).map n) r _ rfl
                (fun x b hb hx => by
                  split
                  · exact hx
                  · rw [releaseName_map_ne x g w (by rintro rfl; exact hr hb)]; exact hx)
            rw [hk', heq, hdone]
          · exact ih R' (.inr hdone) (.inr heq)
      · have hsame := releaseName_map_ne t g w hkn
        refine ih R' (by rw [hsame]; exact h) ?_
        rcases hu with ⟨hm, hs⟩ | hne
        · exact .inl ⟨(List.mem_cons.1 hm).resolve_left hkn, hs⟩
        · exact .inr (by rw [hsame]; exact hne)

theorem foldS_append {α : Type} (a b : List α) (s : State) (f : State → α → State) :
    foldS (a ++ b) s f = foldS b (foldS a s f) f := by
  induction a generalizing s with
  | nil => rfl
  | cons x r ih => exact ih (f s x)

/-- The sources of an instruction are released name after name. -/
theorem releaseSrcs_list (s : State) (g : Nat) (wb : BitVec 9) (o : Opnds) (w : Mask) :
    s.releaseSrcs g wb o w = foldS ((o.vs.filter (·.last)).flatMap (fun v => v.fields.map (s.fieldName g wb))) s
      (fun s k => if shadowName ≤ k then s else s.releaseName g k w) := by
  suffices h : ∀ (l : List VSrc) (t : State), RegsOnly g s t →
      foldS l t (fun s v => foldS v.fields s (fun s f =>
        let n := s.fieldName g wb f
        if shadowName ≤ n then s else s.releaseName g n w)) =
      foldS (l.flatMap (fun v => v.fields.map (s.fieldName g wb))) t
        (fun s k => if shadowName ≤ k then s else s.releaseName g k w) from h _ s (.refl g s)
  intro l
  induction l with
  | nil => exact fun t _ => rfl
  | cons v r ih =>
    intro t R
    have key : ∀ (fs : List Nat) (t : State), RegsOnly g s t →
        foldS fs t (fun s f => let n := s.fieldName g wb f; if shadowName ≤ n then s else s.releaseName g n w) =
          foldS (fs.map (s.fieldName g wb)) t (fun s k => if shadowName ≤ k then s else s.releaseName g k w) ∧
        RegsOnly g s (foldS (fs.map (s.fieldName g wb)) t (fun s k => if shadowName ≤ k then s else s.releaseName g k w)) := by
      intro fs
      induction fs with
      | nil => exact fun t R => ⟨rfl, R⟩
      | cons f fr ihf =>
        intro t R
        simp only [List.map_cons, foldS_cons, fieldName_bare (R.bare g) wb f]
        refine ihf _ ?_
        split
        · exact R
        · exact R.trans (regsOnly_releaseName t g _ w)
    obtain ⟨e, R'⟩ := key v.fields t R
    rw [foldS_cons, e, List.flatMap_cons, foldS_append]
    exact ih _ R'

/-- Each name whose last-use bit is set loses the lanes (R72, R92). -/
theorem releaseSrcs_frees {s : State} {g : Nat} {wb : BitVec 9} {o : Opnds} {w : Mask} {n : Nat} {e : MapEntry}
    (hn : n ∈ (o.vs.filter (·.last)).flatMap (fun v => v.fields.map (s.fieldName g wb))) (hs : n < shadowName)
    (he : tget (s.group g).map n = some e) (hh : s.engineHolds g e.map = false) :
    tget ((s.releaseSrcs g wb o w).group g).map n =
      if e.mask &&& ~~~w = 0 then none else some { e with mask := e.mask &&& ~~~w } := by
  rw [releaseSrcs_list]
  exact releaseList_map _ (.refl g s) hh (.inl he) (.inl ⟨hn, hs⟩)

/-! ### Registers set aside -/

/-- From `s` to `t` registers have been set aside, and every name reads as before. -/
structure SetAside (g : Nat) (s t : State) : Prop where
  regs : RegsOnly g s t
  map : (t.group g).map = (s.group g).map
  reads : ∀ n l, t.readName g n l = s.readName g n l

theorem setAside_reserveAll (s : State) (g : Nat) (needs : List Bool) : SetAside g s (s.reserveAll g needs).2 := by
  suffices h : ∀ (l : List Bool) (acc : List (Option Nat) × State), SetAside g s acc.2 →
      SetAside g s (l.foldl (fun (acc : List (Option Nat) × State) b =>
        if b then
          let (p, s) := acc.2.reserve g
          (acc.1 ++ [p], s)
        else (acc.1 ++ [none], acc.2)) acc).2 from h needs ([], s) ⟨.refl g s, rfl, fun _ _ => rfl⟩
  intro l
  induction l with
  | nil => exact fun acc h => h
  | cons b r ih =>
    intro acc h
    rw [List.foldl_cons]
    apply ih
    cases b with
    | false => exact h
    | true =>
      exact ⟨h.regs.trans (regsOnly_reserve acc.2 g), h.map, fun n l =>
        (readName_reserve acc.2 g g n l).trans (h.reads n l)⟩

/-! ### Results become pending -/

/-- What adding pending results makes of the state. -/
theorem addPends_eq (ps : List Pend) (s : State) : ∃ q : Tab Pend,
    foldS ps s State.addPend =
      { s with
        env := { s.env with nextId := s.env.nextId + ps.length }
        flight := { s.flight with pends := q } } ∧
    (∀ id, id < s.env.nextId → tget q id = tget s.flight.pends id) ∧
    ∀ p, p ∈ ps → ∃ id, tget q id = some p := by
  induction ps generalizing s with
  | nil => exact ⟨s.flight.pends, rfl, fun _ _ => rfl, fun p hp => by cases hp⟩
  | cons p r ih =>
    obtain ⟨q, e, lo, hi⟩ := ih (s.addPend p)
    refine ⟨q, ?_, ?_, ?_⟩
    · rw [foldS_cons, e]
      simp only [State.addPend, State.freshId, List.length_cons]
      congr 2
      omega
    · intro id hid
      rw [lo id (by simp only [State.addPend, State.freshId]; omega)]
      simp only [State.addPend, State.freshId]
      exact tget_tput_ne _ _ (by omega)
    · intro x hx
      rcases List.mem_cons.1 hx with rfl | hx
      · refine ⟨s.env.nextId, ?_⟩
        rw [lo _ (by simp only [State.addPend, State.freshId]; omega)]
        simp [State.addPend, State.freshId]
      · exact hi x hx

/-! ### Traps and checks that find nothing -/

theorem trapGroups_calm (tr : BitVec 5) (m : Mask) (fl : Nat → BitVec 6)
    (h : ∀ l, m.getLsbD l = true → trapSub tr (fl l) = 0) : trapGroups tr m fl = [] := by
  simp only [trapGroups, List.filterMap_eq_nil_iff, List.mem_filter, List.mem_range, decide_eq_true_eq]
  rintro sub ⟨_, hsub⟩
  have : (lanesOf m).filter (fun l => decide (trapSub tr (fl l) = sub)) = [] := by
    simp only [List.filter_eq_nil_iff, mem_lanesOf, decide_eq_true_eq]
    rintro l ⟨_, hl⟩ e
    exact hsub (e.symm.trans (h l hl))
  simp [this]

theorem payCheck_calm {s : State} (h : s.env.sdc = 0) (i : Instr) (is : Issue) :
    s.payCheck i is = s ∨ ∃ n, s.payCheck i is = s.modPart is.part (fun p => { p with hold := n }) := by
  simp only [State.payCheck]
  split
  · exact .inl rfl
  · right
    have hr : s.rotated i is = 0 := by simp only [State.rotated, h]; split <;> rfl
    refine ⟨s.clk.ac + 2, ?_⟩
    simp only [hr, if_true]
    split
    · rw [show sdcRest (s.modPart is.part _).env.sdc = (s.modPart is.part _).env.sdc by
        rw [show (s.modPart is.part _).env = s.env from rfl, h]; rfl]
    · rfl

/-! ### The end of an issue -/

theorem thread_of_threads {G H : Group} (h : G.threads = H.threads) (l : Nat) : G.thread l = H.thread l := by
  simp only [Group.thread, h]

theorem and_not_zero (a : Mask) : a &&& ~~~(0 : Mask) = a := by
  rw [show ~~~(0 : Mask) = BitVec.allOnes 128 from by decide, BitVec.and_allOnes]

theorem checkedNow_bare {s t : State} (i : Instr) {is : Issue} {m : Member} (hm : is.members = [m])
    (h : (t.group m.gid).bare = (s.group m.gid).bare) : t.checkedNow i is = s.checkedNow i is := by
  have := congrArg (fun G => G.regs.chk) h
  simp only [Group.bare] at this
  simp only [State.checkedNow, State.rchk, hm, List.any_cons, List.any_nil, this]

/-- From `s` to `t` an issue has ended: results have become pending, a slot is marked, a request has left the waiting list
and threads have gone on. -/
structure Ended (g : Nat) (s t : State) : Prop where
  clk : t.clk = s.clk
  mem : t.mem = s.mem
  flight : t.flight = { s.flight with pends := t.flight.pends }
  pending : ∀ id, id < s.env.nextId → tget t.flight.pends id = tget s.flight.pends id
  next : s.env.nextId ≤ t.env.nextId
  free : t.env.freeCtr = s.env.freeCtr
  sdc : t.env.sdc = s.env.sdc
  parts : t.parts = s.parts
  blocks : t.blocks = s.blocks
  mats : t.mats = s.mats
  belfry : t.belfry = s.belfry
  copies : t.copies = s.copies
  faults : t.faults = s.faults
  net : t.net = s.net
  spire : t.spire = s.spire
  trace : t.trace = s.trace
  cores : ∀ c, { t.core c with pwait := [] } = { s.core c with pwait := [] }
  others : ∀ h, h ≠ g → tget t.groups h = tget s.groups h
  there : (tget t.groups g).isSome = (tget s.groups g).isSome
  group : { t.group g with threads := [], sb := [] } = { s.group g with threads := [], sb := [] }
  preds : ∀ l, l < 128 → ((t.group g).thread l).preds = ((s.group g).thread l).preds

theorem Ended.refl (g : Nat) (s : State) : Ended g s s := by
  constructor <;> intros <;> first | exact Nat.le_refl _ | rfl

theorem Ended.trans {g : Nat} {a b c : State} (h : Ended g a b) (k : Ended g b c) : Ended g a c where
  clk := k.clk.trans h.clk
  mem := k.mem.trans h.mem
  flight := by rw [k.flight, h.flight]
  pending x hx := (k.pending x (Nat.lt_of_lt_of_le hx h.next)).trans (h.pending x hx)
  next := Nat.le_trans h.next k.next
  free := k.free.trans h.free
  sdc := k.sdc.trans h.sdc
  parts := k.parts.trans h.parts
  blocks := k.blocks.trans h.blocks
  mats := k.mats.trans h.mats
  belfry := k.belfry.trans h.belfry
  copies := k.copies.trans h.copies
  faults := k.faults.trans h.faults
  net := k.net.trans h.net
  spire := k.spire.trans h.spire
  trace := k.trace.trans h.trace
  cores x := (k.cores x).trans (h.cores x)
  others x hx := (k.others x hx).trans (h.others x hx)
  there := k.there.trans h.there
  group := k.group.trans h.group
  preds l hl := (k.preds l hl).trans (h.preds l hl)

theorem ended_modGroup (g : Nat) (s : State) (f : Group → Group)
    (hf : ∀ G, { f G with threads := [], sb := [] } = { G with threads := [], sb := [] })
    (hp : ∀ G l, l < 128 → ((f G).thread l).preds = (G.thread l).preds) : Ended g s (s.modGroup g f) := by
  constructor <;> intros <;> first | rfl | exact Nat.le_refl _ | skip
  · next h hne => exact tget_tmod_ne _ _ hne
  · simp only [modGroup_groups, tget_tmod_self, Option.isSome_map]
  · exact group_modGroup_keep s g (fun G => { G with threads := [], sb := [] }) g f hf
  · next l hl => exact group_modGroup_keep s g (fun G => (G.thread l).preds) g f (fun G => hp G l hl)

theorem ended_markSlot (s : State) (g k : Nat) (x : SbSlot) : Ended g s (s.markSlot g k x) := by
  unfold State.markSlot
  split
  · exact .refl g s
  · exact ended_modGroup g s _ (fun _ => rfl) (fun _ _ _ => rfl)

theorem ended_poolDone (s : State) (g : Nat) : Ended g s (s.poolDone g) := by
  constructor <;> intros <;> first | rfl | exact Nat.le_refl _ | skip
  next c =>
  simp only [State.poolDone, core_modCore]
  split
  · next h => subst h; rfl
  · rfl

theorem ended_advance (s : State) (g : Nat) (m : Mask) (pc : Wide) (r : Nat) : Ended g s (s.advance g m pc r) := by
  refine ended_modGroup g s _ (fun _ => rfl) (fun G l hl => ?_)
  rw [modThreads_thread _ _ _ hl]
  unfold Thread.goOn
  repeat' split
  all_goals rfl

theorem ended_freshSeq (g : Nat) (s : State) : Ended g s s.freshSeq.2 := by
  constructor <;> intros <;> first | exact Nat.le_refl _ | rfl

theorem ended_addPends (g : Nat) (ps : List Pend) (s : State) : Ended g s (foldS ps s State.addPend) := by
  obtain ⟨q, e, lo, _⟩ := addPends_eq ps s
  rw [e]
  constructor <;> intros <;> first | rfl | exact Nat.le_add_right .. | skip
  exact lo _ (by assumption)

/-- Names read at the end of an issue as they did at its beginning. -/
theorem Ended.reads {g : Nat} {s t : State} (h : Ended g s t) (n l : Nat) : t.readName g n l = s.readName g n l := by
  have hid := congrArg Group.id h.group
  have hmap := congrArg Group.map h.group
  simp only at hid hmap
  refine readName_congr hid (by simp only [State.part, h.parts]) h.mats h.free (by rw [hmap]) (fun e _ => ?_) l
  have hc := h.cores (s.coreOf g)
  have hpool := congrArg Core.pool hc
  have hunif := congrArg Core.unif hc
  simp only at hpool hunif
  cases e.map <;> simp only [Core.mapVals, Core.mapPoison, hpool, hunif, and_self]

/-- Threads of a mask that do not replay go on. -/
theorem advance_thread (s : State) (g : Nat) (m : Mask) (pc : Wide) (r : Nat) (hg : (tget s.groups g).isSome = true)
    {l : Nat} (hl : l < 128) (hm : m.getLsbD l = true) (hr : ((s.group g).thread l).replay = none) :
    (((s.advance g m pc r).group g).thread l).pc = pc ∧ (((s.advance g m pc r).group g).thread l).ready = r := by
  unfold State.advance
  rw [group_modGroup s g g _ hg, if_pos rfl, modThreads_thread _ _ _ hl, if_pos hm]
  simp only [Thread.goOn, hr, and_self]

theorem ended_vecCommit (s : State) (i : Instr) (o : Opnds) (out : Nat → LaneOut) (is : Issue) (m : Member) (bad : Mask)
    (names : List Nat) (resv : List (Option Nat)) : Ended m.gid s (s.vecCommit i o out is m bad names resv) := by
  unfold State.vecCommit
  refine .trans ?_ (ended_advance _ m.gid _ _ _)
  refine .trans ?_ (ended_poolDone _ m.gid)
  simp only
  split
  · exact ended_freshSeq m.gid s
  · exact ((ended_freshSeq m.gid s).trans (ended_addPends m.gid _ _)).trans (ended_markSlot _ m.gid _ _)

/-- At the end of an issue in which no lane has parked, its results are pending. -/
theorem vecCommit_pends (s : State) (i : Instr) (o : Opnds) (out : Nat → LaneOut) (is : Issue) (m : Member)
    (names : List Nat) (resv : List (Option Nat)) (ha : m.act ≠ 0) :
    ∀ p, p ∈ vecPends i o out m.gid m.act names resv
        (s.clk.ac + (fixedL i + if s.checkedNow i is then 1 else 0)) (if isFixed i then is.sbset else varSlot is) s.env.seq →
      ∃ id, tget (s.vecCommit i o out is m 0 names resv).flight.pends id = some p := by
  intro p hp
  obtain ⟨q, e, _, hi⟩ := addPends_eq (vecPends i o out m.gid m.act names resv
        (s.clk.ac + (fixedL i + if s.checkedNow i is then 1 else 0)) (if isFixed i then is.sbset else varSlot is) s.env.seq)
        s.freshSeq.2
  obtain ⟨id, hid⟩ := hi p hp
  refine ⟨id, ?_⟩
  unfold State.vecCommit
  have hg : m.act &&& ~~~(0 : Mask) = m.act := and_not_zero _
  simp only [hg, if_neg ha]
  have mk (x : State) (g k : Nat) (y : SbSlot) : (x.markSlot g k y).flight = x.flight := by
    unfold State.markSlot; split <;> rfl
  change tget (State.markSlot _ _ _ _).flight.pends id = _
  rw [mk]
  exact (congrArg (fun x : State => tget x.flight.pends id) e).trans hid

/-- The end of an issue is the threads' advance in a state whose threads and clock are those of the beginning. -/
theorem vecCommit_advance (s : State) (i : Instr) (o : Opnds) (out : Nat → LaneOut) (is : Issue) (m : Member)
    (bad : Mask) (names : List Nat) (resv : List (Option Nat)) : ∃ y : State,
    s.vecCommit i o out is m bad names resv = y.advance m.gid (m.lanes &&& ~~~bad) is.next
      (s.nextReady is (if s.checkedNow i is then 1 else 0)) ∧
    (y.group m.gid).threads = (s.group m.gid).threads ∧
    (tget y.groups m.gid).isSome = (tget s.groups m.gid).isSome := by
  have mk (x : State) (k : Nat) (y : SbSlot) : ((x.markSlot m.gid k y).group m.gid).threads = (x.group m.gid).threads := by
    unfold State.markSlot
    split
    · rfl
    · exact group_modGroup_keep x m.gid Group.threads m.gid _ (fun _ => rfl)
  have ap (ps : List Pend) (x : State) : (foldS ps x State.addPend).groups = x.groups := by
    obtain ⟨q, e, _⟩ := addPends_eq ps x
    rw [e]
  have key (y : State) (hy : (y.group m.gid).threads = (s.group m.gid).threads)
      (ht : (tget y.groups m.gid).isSome = (tget s.groups m.gid).isSome) (hc : y.clk = s.clk) : ∃ z : State,
      (y.poolDone m.gid).advance m.gid (m.lanes &&& ~~~bad) is.next
        ((y.poolDone m.gid).nextReady is (if s.checkedNow i is then 1 else 0)) =
      z.advance m.gid (m.lanes &&& ~~~bad) is.next (s.nextReady is (if s.checkedNow i is then 1 else 0)) ∧
      (z.group m.gid).threads = (s.group m.gid).threads ∧
      (tget z.groups m.gid).isSome = (tget s.groups m.gid).isSome := by
    refine ⟨y.poolDone m.gid, ?_, hy, ht⟩
    congr 1
    simp only [State.nextReady]
    change y.clk.ac + 1 + is.stall + _ = _
    rw [hc]
  unfold State.vecCommit
  simp only
  by_cases ha : m.act &&& ~~~bad = 0
  · rw [if_pos ha]
    exact key s.freshSeq.2 rfl rfl rfl
  · rw [if_neg ha]
    refine key _ ?_ ?_ ?_
    · rw [mk]
      simp only [State.group, ap]
      rfl
    · rw [(ended_markSlot _ _ _ _).there, ap]; rfl
    · rw [(ended_markSlot _ m.gid _ _).clk, (ended_addPends m.gid _ _).clk]; rfl

/-- Threads that an advance does not move, or that do not replay, keep their windows, their loop stacks and their states. -/
theorem advance_window (s : State) (g : Nat) (m : Mask) (pc : Wide) (r : Nat)
    (hr : ∀ l, m.getLsbD l = true → ((s.group g).thread l).replay = none) {l : Nat} (hl : l < 128) :
    (((s.advance g m pc r).group g).thread l).wb = ((s.group g).thread l).wb ∧
    (((s.advance g m pc r).group g).thread l).stack = ((s.group g).thread l).stack ∧
    (((s.advance g m pc r).group g).thread l).st = ((s.group g).thread l).st := by
  cases hg : tget s.groups g with
  | none =>
    have e : (s.advance g m pc r).group g = s.group g := by
      simp [State.advance, State.group, tgetD, hg]
    rw [e]; exact ⟨rfl, rfl, rfl⟩
  | some G =>
    unfold State.advance
    rw [group_modGroup s g g _ (by rw [hg]; rfl), if_pos rfl, modThreads_thread _ _ _ hl]
    split
    · next h => simp only [Thread.goOn, hr l h, and_self]
    · exact ⟨rfl, rfl, rfl⟩

/-- The threads of a split go on at the end of its issue. -/
theorem vecCommit_goesOn (s : State) (i : Instr) (o : Opnds) (out : Nat → LaneOut) (is : Issue) (m : Member)
    (names : List Nat) (resv : List (Option Nat)) (hg : (tget s.groups m.gid).isSome = true)
    (hr : ∀ l, m.lanes.getLsbD l = true → ((s.group m.gid).thread l).replay = none) :
    GoesOn s (s.vecCommit i o out is m 0 names resv) is m (if s.checkedNow i is then 1 else 0) := by
  intro l hl hm
  obtain ⟨y, e, hy, ht⟩ := vecCommit_advance s i o out is m 0 names resv
  rw [e]
  refine advance_thread y m.gid _ _ _ (ht.trans hg) hl (by rw [and_not_zero]; exact hm) ?_
  rw [thread_of_threads hy]
  exact hr l hm

theorem vecCommit_window (s : State) (i : Instr) (o : Opnds) (out : Nat → LaneOut) (is : Issue) (m : Member)
    (names : List Nat) (resv : List (Option Nat))
    (hr : ∀ l, m.lanes.getLsbD l = true → ((s.group m.gid).thread l).replay = none) {l : Nat} (hl : l < 128) :
    (((s.vecCommit i o out is m 0 names resv).group m.gid).thread l).wb = ((s.group m.gid).thread l).wb ∧
    (((s.vecCommit i o out is m 0 names resv).group m.gid).thread l).stack = ((s.group m.gid).thread l).stack ∧
    (((s.vecCommit i o out is m 0 names resv).group m.gid).thread l).st = ((s.group m.gid).thread l).st := by
  obtain ⟨y, e, hy, _⟩ := vecCommit_advance s i o out is m 0 names resv
  rw [e, ← thread_of_threads hy]
  refine advance_window y m.gid _ _ _ (fun k hk => ?_) hl
  rw [thread_of_threads hy]
  rw [and_not_zero] at hk
  exact hr k hk

/-! ### The frame -/

/-- A scalar looks only at the group's handler, its partition's shadow scalars and its own scalars. -/
theorem scalar_congr {s t : State} {g : Nat} (hid : (t.group g).id = (s.group g).id)
    (hh : (t.group g).handler = (s.group g).handler) (hs : (t.group g).scal = (s.group g).scal)
    (hp : (t.part (s.group g).id.part).shadowS = (s.part (s.group g).id.part).shadowS) (r : Nat) :
    t.scalar g r = s.scalar g r := by
  have hx : t.shadowScalar g r = s.shadowScalar g r := by simp only [State.shadowScalar, State.inHandler, hh]
  simp only [State.scalar, hx, hid, hs, hp]

theorem setAside_refl (g : Nat) (s : State) : SetAside g s s := ⟨.refl g s, rfl, fun _ _ => rfl⟩

/-- Releases, registers set aside and the end of an issue make the frame of a register instruction. -/
theorem regFrame_of {g : Nat} {rel : List Nat} {s a b c : State} (h1 : Released g rel s a) (h2 : SetAside g a b)
    (h3 : Ended g b c) (hw : ∀ l, l < 128 → ((c.group g).thread l).wb = ((b.group g).thread l).wb ∧
      ((c.group g).thread l).stack = ((b.group g).thread l).stack ∧
      ((c.group g).thread l).st = ((b.group g).thread l).st) : RegFrame g rel s c := by
  have R := h1.regs.trans h2.regs
  have B := R.bare g
  have bid := congrArg Group.id B
  have bth := congrArg Group.threads B
  have bsc := congrArg Group.scal B
  have bsp := congrArg Group.scalPoison B
  have brg := congrArg Group.regs B
  have bff := congrArg Group.fifo B
  have bhd := congrArg Group.handler B
  simp only [Group.bare] at bid bth bsc bsp brg bff bhd
  have E := h3.group
  have eid := congrArg Group.id E
  have esc := congrArg Group.scal E
  have esp := congrArg Group.scalPoison E
  have erg := congrArg Group.regs E
  have eff := congrArg Group.fifo E
  have ehd := congrArg Group.handler E
  have est := congrArg Group.map E
  simp only at eid esc esp erg eff ehd est
  exact
    { outside :=
        { clk := h3.clk.trans R.clk, mem := h3.mem.trans R.mem, mats := h3.mats.trans R.mats
          belfry := h3.belfry.trans R.belfry, copies := h3.copies.trans R.copies, faults := h3.faults.trans R.faults
          net := h3.net.trans R.net, spire := h3.spire.trans R.spire, trace := h3.trace.trans R.trace
          blocks := fun x => by rw [h3.blocks]; exact R.blocks x
          cores := fun x => by
            rw [← R.cores x]
            exact congrArg (fun k : Core => { k with pool := [], unif := [] }) (h3.cores x)
          parts := fun p => by simp only [State.part, h3.parts, R.parts] }
      flight := by rw [h3.flight, R.flight]
      pending := fun id hid => (h3.pending id (by rw [R.env]; exact hid)).trans (by rw [R.flight])
      others := fun x hx => by rw [h3.others x hx]; exact R.groups x
      otherMaps := fun x hx => by
        rw [show c.group x = b.group x from by simp only [State.group, tgetD, h3.others x hx]]
        exact R.maps x hx
      scalars := scalar_congr (eid.trans bid) (ehd.trans bhd) (esc.trans bsc)
        (by simp only [State.part, h3.parts, R.parts])
      scalPoison := esp.trans bsp
      preds := fun l hl => (h3.preds l hl).trans (by rw [thread_of_threads bth])
      window := fun l hl => (hw l hl).1.trans (by rw [thread_of_threads bth])
      stack := fun l hl => (hw l hl).2.1.trans (by rw [thread_of_threads bth])
      lane := fun l hl => (hw l hl).2.2.trans (by rw [thread_of_threads bth])
      regs := by rw [erg]; exact brg
      fifo := eff.trans bff
      names := fun n l hn hs => (h3.reads n l).trans ((h2.reads n l).trans (h1.reads n l hn hs)) }

/-- The hold of an issue slot is no part of a frame. -/
theorem RegFrame.payCheck {g : Nat} {rel : List Nat} {s t : State} (h : RegFrame g rel s t) (ht : t.env.sdc = 0)
    (i : Instr) (is : Issue) : RegFrame g rel s (t.payCheck i is) := by
  rcases payCheck_calm ht i is with e | ⟨n, e⟩
  · rw [e]; exact h
  · rw [e]
    have hp (p : Nat) : (((t.modPart is.part (fun p => { p with hold := n })).part p)) =
        { t.part p with hold := if p = is.part then n else (t.part p).hold } := by
      rw [part_modPart]
      split
      · next e => subst e; rfl
      · rfl
    have hrd (k l : Nat) : (t.modPart is.part (fun p => { p with hold := n })).readName g k l = t.readName g k l :=
      readName_congr (s := t) (t := t.modPart is.part (fun p => { p with hold := n })) rfl (by rw [hp]) rfl rfl rfl (fun _ _ => ⟨rfl, rfl⟩) l
    exact
      { outside :=
          { clk := h.outside.clk, mem := h.outside.mem, mats := h.outside.mats, belfry := h.outside.belfry
            copies := h.outside.copies, faults := h.outside.faults, net := h.outside.net, spire := h.outside.spire
            trace := h.outside.trace, blocks := h.outside.blocks, cores := h.outside.cores
            parts := fun p => by rw [hp]; exact h.outside.parts p }
        flight := h.flight
        pending := h.pending
        others := h.others
        otherMaps := h.otherMaps
        scalars := fun r => (scalar_congr (s := t)
          (t := t.modPart is.part (fun p => { p with hold := n })) rfl rfl rfl (by rw [hp]) r).trans (h.scalars r)
        scalPoison := h.scalPoison
        preds := h.preds
        window := h.window
        stack := h.stack
        lane := h.lane
        regs := h.regs
        fifo := h.fifo
        names := fun k l hk hs => (hrd k l).trans (h.names k l hk hs) }

theorem payCheck_flight {t : State} (ht : t.env.sdc = 0) (i : Instr) (is : Issue) :
    (t.payCheck i is).flight = t.flight ∧ (t.payCheck i is).groups = t.groups := by
  rcases payCheck_calm ht i is with e | ⟨n, e⟩ <;> rw [e] <;> exact ⟨rfl, rfl⟩

theorem iss_of {s : State} {is : Issue} (h : s.issue = some is) : s.iss = is := by simp only [State.iss, h, Option.getD_some]

/-- What a fixed-latency vector instruction does, for a split of one group in which no lane raises an enabled exception. -/
theorem vecRun_done {i : Instr} {s₀ s : State} {is : Issue} {m : Member} {k : Nat → Nat → List Word → LaneOut}
    (h : VecRuns i s is m (fun l => k m.gid l (s.laneSrcs m.gid is.wb (opnds i) l))) :
    VecDone i (fixedL i) (fun l => k m.gid l (s.laneSrcs m.gid is.wb (opnds i) l)) s
      (s₀.vecRun i (opnds i) k s) is m := by
  have his := iss_of h.issues.issue
  have hlead : is.leader = m := by simp only [Issue.leader, h.issues.alone, List.headD_cons]
  have hrot : s.rotated i is = 0 := by simp only [State.rotated, h.match_]; split <;> rfl
  -- no member waits for the pool
  have hwait : State.firstWait (.split is.pc is.wb) (State.vecAsks i (opnds i) k) is.members s = none := by
    rw [h.issues.alone]
    unfold State.firstWait State.vecAsks
    simp only [his]
    rw [h.pool _ (by
      refine Nat.le_trans (List.length_filter_le _ _) ?_
      simp [State.writeNames])]
    rfl
  rw [h.issues.alone] at hwait
  -- no lane traps
  have htr : trapGroups (s.regionOf m.gid).trapen m.act
      (fun l => (k m.gid l (s.laneSrcs m.gid is.wb (opnds i) l)).flags) = [] := trapGroups_calm _ _ _ h.calm
  have hok := h.pool
  -- the registers released and set aside
  have r1 : Released m.gid (releasedNames s i m.gid is.wb) s (s.releaseSrcs m.gid is.wb (opnds i) m.act) :=
    released_releaseSrcs s m.gid is.wb (opnds i) m.act
  have hrun : ∃ needs, s₀.vecRun i (opnds i) k s =
      (((s.releaseSrcs m.gid is.wb (opnds i) m.act).reserveAll m.gid needs).2.vecCommit i (opnds i)
        (fun l => k m.gid l (s.laneSrcs m.gid is.wb (opnds i) l)) is m 0 (s.writeNames m.gid is.wb (opnds i))
        ((s.releaseSrcs m.gid is.wb (opnds i) m.act).reserveAll m.gid needs).1).payCheck i is := by
    unfold State.vecRun
    simp only [his, hwait, hrot, h.issues.alone, foldS_cons, foldS_nil]
    rw [if_neg (by decide)]
    unfold State.vecMember
    simp only [his, htr, List.foldl_nil, foldS_nil, and_not_zero]
    rw [hok _ (by
      refine Nat.le_trans (List.length_filter_le _ _) ?_
      simp [State.writeNames])]
    exact ⟨_, rfl⟩
  obtain ⟨needs, hrun⟩ := hrun
  rw [hrun]
  generalize ha : s.releaseSrcs m.gid is.wb (opnds i) m.act = a at r1
  have r2 := setAside_reserveAll a m.gid needs
  generalize hb : a.reserveAll m.gid needs = b at r2
  have R := r1.regs.trans r2.regs
  have hB := R.bare m.gid
  have hthr : (b.2.group m.gid).threads = (s.group m.gid).threads := by
    have := congrArg Group.threads hB
    simpa only [Group.bare] using this
  have hfresh : ∀ l, m.lanes.getLsbD l = true → ((b.2.group m.gid).thread l).replay = none := fun l hl => by
    rw [thread_of_threads hthr]; exact h.issues.fresh l hl
  have hthere : (tget b.2.groups m.gid).isSome = true := by
    have := R.groups m.gid
    have hs := h.issues.there
    cases e : tget b.2.groups m.gid with
    | some x => rfl
    | none =>
      rw [e] at this
      cases e' : tget s.groups m.gid with
      | none => rw [e'] at hs; exact hs
      | some x => rw [e'] at this; cases this
  have hchk : b.2.checkedNow i is = s.checkedNow i is := checkedNow_bare i h.issues.alone hB
  have r3 := ended_vecCommit b.2 i (opnds i) (fun l => k m.gid l (s.laneSrcs m.gid is.wb (opnds i) l)) is m 0
    (s.writeNames m.gid is.wb (opnds i)) b.1
  have F := regFrame_of r1 r2 r3 (fun l hl => vecCommit_window b.2 i (opnds i) _ is m _ b.1 hfresh hl)
  have hsdc : (b.2.vecCommit i (opnds i) (fun l => k m.gid l (s.laneSrcs m.gid is.wb (opnds i) l)) is m 0
    (s.writeNames m.gid is.wb (opnds i)) b.1).env.sdc = 0 := by rw [r3.sdc, R.env]; exact h.match_
  have hfl := payCheck_flight hsdc i is
  refine ⟨?_, ?_, ?_, ?_, F.payCheck hsdc i is⟩
  · intro hact j f hj
    have hmem : (s.fieldName m.gid is.wb f, j) ∈ (s.writeNames m.gid is.wb (opnds i)).zipIdx := by
      rw [List.mk_mem_zipIdx_iff_getElem?]
      simp only [State.writeNames, List.getElem?_map, hj, Option.map_some]
    obtain ⟨id, hid⟩ := vecCommit_pends b.2 i (opnds i) (fun l => k m.gid l (s.laneSrcs m.gid is.wb (opnds i) l)) is m
      (s.writeNames m.gid is.wb (opnds i)) b.1 hact _
      (List.mem_append_left _ (List.mem_map.2 ⟨(s.fieldName m.gid is.wb f, j), hmem, rfl⟩))
    refine ⟨id, _, by rw [hfl.1]; exact hid, rfl, rfl, rfl, ?_, rfl, fun x hx _ => lanesFn_val (fun l =>
      (k m.gid l (s.laneSrcs m.gid is.wb (opnds i) l)).vals.getD j 0) hx⟩
    simp only [R.clk, hchk, checkExtra]
  · intro hact j p hj
    have hmem : (p, j) ∈ (opnds i).pd.zipIdx := by rw [List.mk_mem_zipIdx_iff_getElem?]; exact hj
    obtain ⟨id, hid⟩ := vecCommit_pends b.2 i (opnds i) (fun l => k m.gid l (s.laneSrcs m.gid is.wb (opnds i) l)) is m
      (s.writeNames m.gid is.wb (opnds i)) b.1 hact _
      (List.mem_append_right _ (List.mem_map.2 ⟨(p, j), hmem, rfl⟩))
    refine ⟨id, _, by rw [hfl.1]; exact hid, rfl, rfl, rfl, ?_, rfl, fun x hx _ => lanesFn_val (fun l => if
      (k m.gid l (s.laneSrcs m.gid is.wb (opnds i) l)).preds.getD j false then 1 else 0) hx⟩
    simp only [R.clk, hchk, checkExtra]
  · intro l hl hm
    have := vecCommit_goesOn b.2 i (opnds i) (fun l => k m.gid l (s.laneSrcs m.gid is.wb (opnds i) l)) is m
      (s.writeNames m.gid is.wb (opnds i)) b.1 hthere hfresh l hl hm
    simp only [State.group, tgetD, hfl.2, checkExtra, ← hchk]
    rw [show s.clk = b.2.clk from R.clk.symm]
    exact this
  · intro n e hn hs he hh
    have hmap := congrArg Group.map r3.group
    simp only [State.group, tgetD, hfl.2] at hmap ⊢
    rw [hmap]
    have hm2 := r2.map
    simp only [State.group, tgetD] at hm2
    rw [hm2, ← ha]
    exact releaseSrcs_frees hn hs he hh

/-- What an instruction whose meaning is a fixed-latency vector operation does. -/
theorem vecMeaning_of {i : Instr} {k : State → Nat → Nat → List Word → LaneOut}
    (h : ∀ s, exec i s = .next (s.vecOp i (opnds i) k)) {lat : Nat} (hl : fixedL i = lat) : VecMeaning i lat k := by
  intro s₀ s is m hc hr
  refine ⟨_, h s₀, ?_⟩
  subst hl
  unfold State.vecOp
  simp only [hc]
  exact vecRun_done (k := k s) hr

end Sys2Proof.Machine
end

