-- ==== Sys2Proof/Laws/Latency.lean ====
section
/-! SUPPORT. The latency of each fixed-latency instruction (R66). -/
namespace Sys2Proof.Machine

theorem fixedL_call (f : LU) (l : Option Word) : fixedL (.call f l) = 2 := rfl
theorem fixedL_iaddScalar (f : TR) (l : Option Word) : fixedL (.iaddScalar f l) = 2 := by
  have h : opcodeOf (.iaddScalar f l) = some 0x18 := congrArg (fun o : BitVec 7 => some o.toNat) (opOf_trWord 0x18#7 f)
  unfold fixedL latency
  simp only [h]
  rfl
theorem fixedL_isubScalar (f : TR) (l : Option Word) : fixedL (.isubScalar f l) = 2 := by
  have h : opcodeOf (.isubScalar f l) = some 0x19 := congrArg (fun o : BitVec 7 => some o.toNat) (opOf_trWord 0x19#7 f)
  unfold fixedL latency
  simp only [h]
  rfl
theorem fixedL_imulScalar (f : TR) (l : Option Word) : fixedL (.imulScalar f l) = 2 := by
  have h : opcodeOf (.imulScalar f l) = some 0x1A := congrArg (fun o : BitVec 7 => some o.toNat) (opOf_trWord 0x1A#7 f)
  unfold fixedL latency
  simp only [h]
  rfl
theorem fixedL_imulhScalar (f : TR) (l : Option Word) : fixedL (.imulhScalar f l) = 2 := by
  have h : opcodeOf (.imulhScalar f l) = some 0x1B := congrArg (fun o : BitVec 7 => some o.toNat) (opOf_trWord 0x1B#7 f)
  unfold fixedL latency
  simp only [h]
  rfl
theorem fixedL_andScalar (f : TR) (l : Option Word) : fixedL (.andScalar f l) = 2 := by
  have h : opcodeOf (.andScalar f l) = some 0x1C := congrArg (fun o : BitVec 7 => some o.toNat) (opOf_trWord 0x1C#7 f)
  unfold fixedL latency
  simp only [h]
  rfl
theorem fixedL_orScalar (f : TR) (l : Option Word) : fixedL (.orScalar f l) = 2 := by
  have h : opcodeOf (.orScalar f l) = some 0x1D := congrArg (fun o : BitVec 7 => some o.toNat) (opOf_trWord 0x1D#7 f)
  unfold fixedL latency
  simp only [h]
  rfl
theorem fixedL_xorScalar (f : TR) (l : Option Word) : fixedL (.xorScalar f l) = 2 := by
  have h : opcodeOf (.xorScalar f l) = some 0x1E := congrArg (fun o : BitVec 7 => some o.toNat) (opOf_trWord 0x1E#7 f)
  unfold fixedL latency
  simp only [h]
  rfl
theorem fixedL_shlScalar (f : TR) (l : Option Word) : fixedL (.shlScalar f l) = 2 := by
  have h : opcodeOf (.shlScalar f l) = some 0x1F := congrArg (fun o : BitVec 7 => some o.toNat) (opOf_trWord 0x1F#7 f)
  unfold fixedL latency
  simp only [h]
  rfl
theorem fixedL_shrScalar (f : TR) (l : Option Word) : fixedL (.shrScalar f l) = 2 := by
  have h : opcodeOf (.shrScalar f l) = some 0x20 := congrArg (fun o : BitVec 7 => some o.toNat) (opOf_trWord 0x20#7 f)
  unfold fixedL latency
  simp only [h]
  rfl
theorem fixedL_iminScalar (f : TR) (l : Option Word) : fixedL (.iminScalar f l) = 2 := by
  have h : opcodeOf (.iminScalar f l) = some 0x21 := congrArg (fun o : BitVec 7 => some o.toNat) (opOf_trWord 0x21#7 f)
  unfold fixedL latency
  simp only [h]
  rfl
theorem fixedL_imaxScalar (f : TR) (l : Option Word) : fixedL (.imaxScalar f l) = 2 := by
  have h : opcodeOf (.imaxScalar f l) = some 0x21 := congrArg (fun o : BitVec 7 => some o.toNat) (opOf_trWord 0x21#7 f)
  unfold fixedL latency
  simp only [h]
  rfl
theorem fixedL_bitsScalar (f : TR) : fixedL (.bitsScalar f) = 2 := by
  have h : opcodeOf (.bitsScalar f) = some 0x22 := congrArg (fun o : BitVec 7 => some o.toNat) (opOf_trWord 0x22#7 f)
  unfold fixedL latency
  simp only [h]
  rfl
theorem fixedL_iaddScalarImm (f : RI) (l : Option Word) : fixedL (.iaddScalarImm f l) = 2 := by
  have h : opcodeOf (.iaddScalarImm f l) = some 0x23 := congrArg (fun o : BitVec 7 => some o.toNat) (opOf_riWord 0x23#7 f)
  unfold fixedL latency
  simp only [h]
  rfl
theorem fixedL_andScalarImm (f : RI) (l : Option Word) : fixedL (.andScalarImm f l) = 2 := by
  have h : opcodeOf (.andScalarImm f l) = some 0x24 := congrArg (fun o : BitVec 7 => some o.toNat) (opOf_riWord 0x24#7 f)
  unfold fixedL latency
  simp only [h]
  rfl
theorem fixedL_orScalarImm (f : RI) (l : Option Word) : fixedL (.orScalarImm f l) = 2 := by
  have h : opcodeOf (.orScalarImm f l) = some 0x25 := congrArg (fun o : BitVec 7 => some o.toNat) (opOf_riWord 0x25#7 f)
  unfold fixedL latency
  simp only [h]
  rfl
theorem fixedL_xorScalarImm (f : RI) (l : Option Word) : fixedL (.xorScalarImm f l) = 2 := by
  have h : opcodeOf (.xorScalarImm f l) = some 0x26 := congrArg (fun o : BitVec 7 => some o.toNat) (opOf_riWord 0x26#7 f)
  unfold fixedL latency
  simp only [h]
  rfl
theorem fixedL_shlScalarImm (f : RI) : fixedL (.shlScalarImm f) = 2 := by
  have h : opcodeOf (.shlScalarImm f) = some 0x27 := congrArg (fun o : BitVec 7 => some o.toNat) (opOf_riWord 0x27#7 f)
  unfold fixedL latency
  simp only [h]
  rfl
theorem fixedL_shrScalarImm (f : RI) : fixedL (.shrScalarImm f) = 2 := by
  have h : opcodeOf (.shrScalarImm f) = some 0x28 := congrArg (fun o : BitVec 7 => some o.toNat) (opOf_riWord 0x28#7 f)
  unfold fixedL latency
  simp only [h]
  rfl
theorem fixedL_iset (f : RI) : fixedL (.iset f) = 2 := by
  have h : opcodeOf (.iset f) = some 0x29 := congrArg (fun o : BitVec 7 => some o.toNat) (opOf_riWord 0x29#7 f)
  unfold fixedL latency
  simp only [h]
  rfl
theorem fixedL_movScalarImm (f : LU) (l : Option Word) : fixedL (.movScalarImm f l) = 2 := by
  have h : opcodeOf (.movScalarImm f l) = some 0x2A := congrArg (fun o : BitVec 7 => some o.toNat) (opOf_luWord 0x2A#7 f)
  unfold fixedL latency
  simp only [h]
  rfl
theorem fixedL_movScalar (f : TR) : fixedL (.movScalar f) = 2 := by
  have h : opcodeOf (.movScalar f) = some 0x2B := congrArg (fun o : BitVec 7 => some o.toNat) (opOf_trWord 0x2B#7 f)
  unfold fixedL latency
  simp only [h]
  rfl
theorem fixedL_iaddVector (f : TR) (l : Option Word) : fixedL (.iaddVector f l) = 3 := by
  have h : opcodeOf (.iaddVector f l) = some 0x2C := congrArg (fun o : BitVec 7 => some o.toNat) (opOf_trWord 0x2C#7 f)
  unfold fixedL latency
  simp only [h]
  rfl
theorem fixedL_isubVector (f : TR) (l : Option Word) : fixedL (.isubVector f l) = 3 := by
  have h : opcodeOf (.isubVector f l) = some 0x2D := congrArg (fun o : BitVec 7 => some o.toNat) (opOf_trWord 0x2D#7 f)
  unfold fixedL latency
  simp only [h]
  rfl
theorem fixedL_imulVector (f : TR) (l : Option Word) : fixedL (.imulVector f l) = 5 := rfl
theorem fixedL_imulhVector (f : TR) (l : Option Word) : fixedL (.imulhVector f l) = 5 := rfl
theorem fixedL_imad (f : TR) (l : Option Word) : fixedL (.imad f l) = 5 := rfl
theorem fixedL_andVector (f : TR) (l : Option Word) : fixedL (.andVector f l) = 3 := by
  have h : opcodeOf (.andVector f l) = some 0x31 := congrArg (fun o : BitVec 7 => some o.toNat) (opOf_trWord 0x31#7 f)
  unfold fixedL latency
  simp only [h]
  rfl
theorem fixedL_orVector (f : TR) (l : Option Word) : fixedL (.orVector f l) = 3 := by
  have h : opcodeOf (.orVector f l) = some 0x32 := congrArg (fun o : BitVec 7 => some o.toNat) (opOf_trWord 0x32#7 f)
  unfold fixedL latency
  simp only [h]
  rfl
theorem fixedL_xorVector (f : TR) (l : Option Word) : fixedL (.xorVector f l) = 3 := by
  have h : opcodeOf (.xorVector f l) = some 0x33 := congrArg (fun o : BitVec 7 => some o.toNat) (opOf_trWord 0x33#7 f)
  unfold fixedL latency
  simp only [h]
  rfl
theorem fixedL_shlVector (f : TR) (l : Option Word) : fixedL (.shlVector f l) = 3 := by
  have h : opcodeOf (.shlVector f l) = some 0x34 := congrArg (fun o : BitVec 7 => some o.toNat) (opOf_trWord 0x34#7 f)
  unfold fixedL latency
  simp only [h]
  rfl
theorem fixedL_shrVector (f : TR) (l : Option Word) : fixedL (.shrVector f l) = 3 := by
  have h : opcodeOf (.shrVector f l) = some 0x35 := congrArg (fun o : BitVec 7 => some o.toNat) (opOf_trWord 0x35#7 f)
  unfold fixedL latency
  simp only [h]
  rfl
theorem fixedL_iminVector (f : TR) (l : Option Word) : fixedL (.iminVector f l) = 3 := by
  have h : opcodeOf (.iminVector f l) = some 0x36 := congrArg (fun o : BitVec 7 => some o.toNat) (opOf_trWord 0x36#7 f)
  unfold fixedL latency
  simp only [h]
  rfl
theorem fixedL_imaxVector (f : TR) (l : Option Word) : fixedL (.imaxVector f l) = 3 := by
  have h : opcodeOf (.imaxVector f l) = some 0x37 := congrArg (fun o : BitVec 7 => some o.toNat) (opOf_trWord 0x37#7 f)
  unfold fixedL latency
  simp only [h]
  rfl
theorem fixedL_icmp (f : TR) (l : Option Word) : fixedL (.icmp f l) = 3 := by
  have h : opcodeOf (.icmp f l) = some 0x38 := congrArg (fun o : BitVec 7 => some o.toNat) (opOf_trWord 0x38#7 f)
  unfold fixedL latency
  simp only [h]
  rfl
theorem fixedL_ineg (f : TR) : fixedL (.ineg f) = 3 := by
  have h : opcodeOf (.ineg f) = some 0x39 := congrArg (fun o : BitVec 7 => some o.toNat) (opOf_trWord 0x39#7 f)
  unfold fixedL latency
  simp only [h]
  rfl
theorem fixedL_bitsVector (f : TR) : fixedL (.bitsVector f) = 3 := by
  have h : opcodeOf (.bitsVector f) = some 0x3A := congrArg (fun o : BitVec 7 => some o.toNat) (opOf_trWord 0x3A#7 f)
  unfold fixedL latency
  simp only [h]
  rfl
theorem fixedL_cvti (f : TR) : fixedL (.cvti f) = 6 := rfl
theorem fixedL_iaddVectorImm (f : RI) (l : Option Word) : fixedL (.iaddVectorImm f l) = 3 := by
  have h : opcodeOf (.iaddVectorImm f l) = some 0x3C := congrArg (fun o : BitVec 7 => some o.toNat) (opOf_riWord 0x3C#7 f)
  unfold fixedL latency
  simp only [h]
  rfl
theorem fixedL_andVectorImm (f : RI) (l : Option Word) : fixedL (.andVectorImm f l) = 3 := by
  have h : opcodeOf (.andVectorImm f l) = some 0x3D := congrArg (fun o : BitVec 7 => some o.toNat) (opOf_riWord 0x3D#7 f)
  unfold fixedL latency
  simp only [h]
  rfl
theorem fixedL_orVectorImm (f : RI) (l : Option Word) : fixedL (.orVectorImm f l) = 3 := by
  have h : opcodeOf (.orVectorImm f l) = some 0x3E := congrArg (fun o : BitVec 7 => some o.toNat) (opOf_riWord 0x3E#7 f)
  unfold fixedL latency
  simp only [h]
  rfl
theorem fixedL_xorVectorImm (f : RI) (l : Option Word) : fixedL (.xorVectorImm f l) = 3 := by
  have h : opcodeOf (.xorVectorImm f l) = some 0x3F := congrArg (fun o : BitVec 7 => some o.toNat) (opOf_riWord 0x3F#7 f)
  unfold fixedL latency
  simp only [h]
  rfl
theorem fixedL_shlVectorImm (f : RI) : fixedL (.shlVectorImm f) = 3 := by
  have h : opcodeOf (.shlVectorImm f) = some 0x40 := congrArg (fun o : BitVec 7 => some o.toNat) (opOf_riWord 0x40#7 f)
  unfold fixedL latency
  simp only [h]
  rfl
theorem fixedL_shrVectorImm (f : RI) : fixedL (.shrVectorImm f) = 3 := by
  have h : opcodeOf (.shrVectorImm f) = some 0x41 := congrArg (fun o : BitVec 7 => some o.toNat) (opOf_riWord 0x41#7 f)
  unfold fixedL latency
  simp only [h]
  rfl
theorem fixedL_icmpImm (f : RI) (l : Option Word) : fixedL (.icmpImm f l) = 3 := by
  have h : opcodeOf (.icmpImm f l) = some 0x42 := congrArg (fun o : BitVec 7 => some o.toNat) (opOf_riWord 0x42#7 f)
  unfold fixedL latency
  simp only [h]
  rfl
theorem fixedL_isubVectorImm (f : RI) (l : Option Word) : fixedL (.isubVectorImm f l) = 3 := by
  have h : opcodeOf (.isubVectorImm f l) = some 0x43 := congrArg (fun o : BitVec 7 => some o.toNat) (opOf_riWord 0x43#7 f)
  unfold fixedL latency
  simp only [h]
  rfl
theorem fixedL_imulVectorImm (f : RI) (l : Option Word) : fixedL (.imulVectorImm f l) = 5 := rfl
theorem fixedL_movVectorImm (f : LU) (l : Option Word) : fixedL (.movVectorImm f l) = 3 := by
  have h : opcodeOf (.movVectorImm f l) = some 0x45 := congrArg (fun o : BitVec 7 => some o.toNat) (opOf_luWord 0x45#7 f)
  unfold fixedL latency
  simp only [h]
  rfl
theorem fixedL_movVector (f : TR) : fixedL (.movVector f) = 3 := by
  have h : opcodeOf (.movVector f) = some 0x46 := congrArg (fun o : BitVec 7 => some o.toNat) (opOf_trWord 0x46#7 f)
  unfold fixedL latency
  simp only [h]
  rfl
theorem fixedL_movVectorBroadcast (f : TR) : fixedL (.movVectorBroadcast f) = 3 := by
  have h : opcodeOf (.movVectorBroadcast f) = some 0x46 := congrArg (fun o : BitVec 7 => some o.toNat) (opOf_trWord 0x46#7 f)
  unfold fixedL latency
  simp only [h]
  rfl
theorem fixedL_movVectorB64 (f : TR) : fixedL (.movVectorB64 f) = 3 := by
  have h : opcodeOf (.movVectorB64 f) = some 0x46 := congrArg (fun o : BitVec 7 => some o.toNat) (opOf_trWord 0x46#7 f)
  unfold fixedL latency
  simp only [h]
  rfl
theorem fixedL_fadd (f : TR) (l : Option Word) : fixedL (.fadd f l) = 5 := by
  have h : opcodeOf (.fadd f l) = some 0x48 := congrArg (fun o : BitVec 7 => some o.toNat) (opOf_trWord 0x48#7 f)
  unfold fixedL latency
  simp only [h]
  rfl
theorem fixedL_fsub (f : TR) (l : Option Word) : fixedL (.fsub f l) = 5 := by
  have h : opcodeOf (.fsub f l) = some 0x49 := congrArg (fun o : BitVec 7 => some o.toNat) (opOf_trWord 0x49#7 f)
  unfold fixedL latency
  simp only [h]
  rfl
theorem fixedL_fmul (f : TR) (l : Option Word) : fixedL (.fmul f l) = 5 := by
  have h : opcodeOf (.fmul f l) = some 0x4A := congrArg (fun o : BitVec 7 => some o.toNat) (opOf_trWord 0x4A#7 f)
  unfold fixedL latency
  simp only [h]
  rfl
theorem fixedL_ffma (f : TR) (l : Option Word) : fixedL (.ffma f l) = 5 := by
  have h : opcodeOf (.ffma f l) = some 0x4B := congrArg (fun o : BitVec 7 => some o.toNat) (opOf_trWord 0x4B#7 f)
  unfold fixedL latency
  simp only [h]
  rfl
theorem fixedL_fmin (f : TR) (l : Option Word) : fixedL (.fmin f l) = 5 := by
  have h : opcodeOf (.fmin f l) = some 0x4C := congrArg (fun o : BitVec 7 => some o.toNat) (opOf_trWord 0x4C#7 f)
  unfold fixedL latency
  simp only [h]
  rfl
theorem fixedL_fmax (f : TR) (l : Option Word) : fixedL (.fmax f l) = 5 := by
  have h : opcodeOf (.fmax f l) = some 0x4D := congrArg (fun o : BitVec 7 => some o.toNat) (opOf_trWord 0x4D#7 f)
  unfold fixedL latency
  simp only [h]
  rfl
theorem fixedL_fcmp (f : TR) (l : Option Word) : fixedL (.fcmp f l) = 5 := by
  have h : opcodeOf (.fcmp f l) = some 0x4E := congrArg (fun o : BitVec 7 => some o.toNat) (opOf_trWord 0x4E#7 f)
  unfold fixedL latency
  simp only [h]
  rfl
theorem fixedL_fneg (f : TR) : fixedL (.fneg f) = 5 := by
  have h : opcodeOf (.fneg f) = some 0x4F := congrArg (fun o : BitVec 7 => some o.toNat) (opOf_trWord 0x4F#7 f)
  unfold fixedL latency
  simp only [h]
  rfl
theorem fixedL_frcp (f : TR) : fixedL (.frcp f) = 8 := rfl
theorem fixedL_frsq (f : TR) : fixedL (.frsq f) = 8 := rfl
theorem fixedL_fexp2 (f : TR) : fixedL (.fexp2 f) = 8 := rfl
theorem fixedL_flog2 (f : TR) : fixedL (.flog2 f) = 8 := rfl
theorem fixedL_cvt (f : TR) (e : Word) : fixedL (.cvt f e) = 6 := rfl
theorem fixedL_pack (f : TR) (e : Word) : fixedL (.pack f e) = 6 := rfl
theorem fixedL_unpack (f : TR) (e : Word) : fixedL (.unpack f e) = 6 := rfl
theorem fixedL_fscale (f : TR) (l : Option Word) : fixedL (.fscale f l) = 5 := by
  have h : opcodeOf (.fscale f l) = some 0x57 := congrArg (fun o : BitVec 7 => some o.toNat) (opOf_trWord 0x57#7 f)
  unfold fixedL latency
  simp only [h]
  rfl
theorem fixedL_hadd2 (f : TR) (l : Option Word) : fixedL (.hadd2 f l) = 6 := rfl
theorem fixedL_hmul2 (f : TR) (l : Option Word) : fixedL (.hmul2 f l) = 6 := rfl
theorem fixedL_hfma2 (f : TR) (l : Option Word) : fixedL (.hfma2 f l) = 6 := rfl
theorem fixedL_fclass (f : TR) : fixedL (.fclass f) = 5 := by
  have h : opcodeOf (.fclass f) = some 0x5B := congrArg (fun o : BitVec 7 => some o.toNat) (opOf_trWord 0x5B#7 f)
  unfold fixedL latency
  simp only [h]
  rfl
theorem fixedL_laneid (f : TR) : fixedL (.laneid f) = 3 := rfl
theorem fixedL_shfl (f : TR) : fixedL (.shfl f) = 8 := rfl
theorem fixedL_voteAll (f : TR) : fixedL (.voteAll f) = 8 := rfl
theorem fixedL_voteAny (f : TR) : fixedL (.voteAny f) = 8 := rfl
theorem fixedL_voteBallot (f : TR) : fixedL (.voteBallot f) = 8 := rfl
theorem fixedL_red (f : TR) : fixedL (.red f) = 8 := rfl
theorem fixedL_plop (f : TR) : fixedL (.plop f) = 3 := rfl
theorem fixedL_pmov (f : TR) : fixedL (.pmov f) = 3 := rfl
theorem fixedL_pmovNz (f : TR) : fixedL (.pmovNz f) = 3 := rfl
theorem fixedL_pmovBit (f : TR) : fixedL (.pmovBit f) = 3 := rfl

end Sys2Proof.Machine
end

