-- ==== Sys2Proof/Laws/Scalar.lean ====
section
/-! SUPPORT. What a fixed-latency scalar instruction does, once for every instruction of that shape (R103, R128). -/
namespace Sys2Proof.Machine

theorem foldS_map {α β : Type} (h : α → β) (f : State → β → State) (l : List α) (s : State) :
    foldS l s (fun s a => f s (h a)) = foldS (l.map h) s f := by
  simp only [foldS, List.foldl_map]

theorem ended_advanceAll {s : State} {is : Issue} {m : Member} (h : is.members = [m]) (x : Nat) :
    s.advanceAll is x = s.advance m.gid m.lanes is.next (s.nextReady is x) := by
  simp only [State.advanceAll, h, foldS_cons, foldS_nil]

/-- The frame of an instruction that releases nothing. -/
theorem regFrame_ended {g : Nat} {s t : State} (h : Ended g s t)
    (hw : ∀ l, l < 128 → ((t.group g).thread l).wb = ((s.group g).thread l).wb ∧
      ((t.group g).thread l).stack = ((s.group g).thread l).stack ∧
      ((t.group g).thread l).st = ((s.group g).thread l).st) : RegFrame g [] s t :=
  regFrame_of (.refl g [] s) (setAside_refl g s) h hw

/-- An advance after steps that leave the threads and the clock as they were. -/
theorem advance_end {s y : State} {is : Issue} {m : Member} {x : Nat} (hE : Ended m.gid s y)
    (hthr : (y.group m.gid).threads = (s.group m.gid).threads) (there : (tget s.groups m.gid).isSome = true)
    (fresh : ∀ l, m.lanes.getLsbD l = true → ((s.group m.gid).thread l).replay = none) :
    GoesOn s (y.advance m.gid m.lanes is.next (y.nextReady is x)) is m x ∧
      RegFrame m.gid [] s (y.advance m.gid m.lanes is.next (y.nextReady is x)) := by
  have hfr : ∀ l, m.lanes.getLsbD l = true → ((y.group m.gid).thread l).replay = none := fun l hl => by
    rw [thread_of_threads hthr]; exact fresh l hl
  constructor
  · intro l hl hm
    have := advance_thread y m.gid m.lanes is.next (y.nextReady is x) (hE.there.trans there) hl hm (hfr l hm)
    simpa only [State.nextReady, hE.clk] using this
  · refine regFrame_ended (hE.trans (ended_advance y m.gid _ _ _)) (fun l hl => ?_)
    have := advance_window y m.gid m.lanes is.next (y.nextReady is x) hfr hl
    rwa [thread_of_threads hthr] at this

theorem addPends_threads (ps : List Pend) (s : State) : (foldS ps s State.addPend).groups = s.groups := by
  obtain ⟨q, e, _⟩ := addPends_eq ps s
  rw [e]

theorem markSlot_threads (s : State) (g k : Nat) (x : SbSlot) :
    ((s.markSlot g k x).group g).threads = (s.group g).threads := by
  unfold State.markSlot
  split
  · rfl
  · exact group_modGroup_keep s g Group.threads g _ (fun _ => rfl)

theorem markSlot_flight (s : State) (g k : Nat) (x : SbSlot) : (s.markSlot g k x).flight = s.flight := by
  unfold State.markSlot; split <;> rfl

/-- Scalar results become pending and the slot is marked. -/
theorem scalLater_done (s : State) (i : Instr) (o : Opnds) (vals : List Word) (fl : BitVec 6) (x : Nat) :
    Ended s.iss.leader.gid s (s.scalLater i o vals fl x) ∧
    ((s.scalLater i o vals fl x).group s.iss.leader.gid).threads = (s.group s.iss.leader.gid).threads ∧
    ∀ j r, o.sd[j]? = some r → ∃ id p, tget (s.scalLater i o vals fl x).flight.pends id = some p ∧
      p.gid = s.iss.leader.gid ∧ p.dest = .scal r ∧ p.landAt = s.clk.ac + fixedL i + x ∧
      p.flags = (if j = 0 then fl else 0) ∧ laneVal p.vals 0 = vals.getD j 0 := by
  unfold State.scalLater
  simp only
  rw [foldS_map (fun e : Nat × Nat => (⟨s.iss.leader.gid, .scal e.1, s.iss.leader.act, [vals.getD e.2 0],
    s.freshSeq.2.clk.ac + fixedL i + x, s.iss.sbset, if e.2 = 0 then fl else 0, false, none, s.freshSeq.1⟩ : Pend)) State.addPend]
  generalize hps : List.map _ _ = ps
  have hp : ∀ j r, o.sd[j]? = some r → ∃ id p, tget (foldS ps s.freshSeq.2 State.addPend).flight.pends id = some p ∧
      p.gid = s.iss.leader.gid ∧ p.dest = .scal r ∧ p.landAt = s.clk.ac + fixedL i + x ∧
      p.flags = (if j = 0 then fl else 0) ∧ laneVal p.vals 0 = vals.getD j 0 := by
    intro j r hj
    obtain ⟨q, e, _, hi⟩ := addPends_eq ps s.freshSeq.2
    obtain ⟨id, hid⟩ := hi _ (by
      rw [← hps]
      exact List.mem_map.2 ⟨(r, j), by rw [List.mk_mem_zipIdx_iff_getElem?]; exact hj, rfl⟩)
    exact ⟨id, _, by rw [e]; exact hid, rfl, rfl, rfl, rfl, rfl⟩
  have hE := (ended_freshSeq s.iss.leader.gid s).trans (ended_addPends s.iss.leader.gid ps s.freshSeq.2)
  have hT : ((foldS ps s.freshSeq.2 State.addPend).group s.iss.leader.gid).threads =
      (s.group s.iss.leader.gid).threads := by
    simp only [State.group, addPends_threads]; rfl
  split
  · exact ⟨hE, hT, hp⟩
  · refine ⟨hE.trans (ended_markSlot _ _ _ _), (markSlot_threads _ _ _ _).trans hT, ?_⟩
    rw [markSlot_flight]
    exact hp

/-- What an instruction whose meaning is a fixed-latency scalar operation does. -/
theorem scalMeaning_of {i : Instr} {k : List Word → List Word × BitVec 6}
    (h : ∀ s, exec i s = .next (s.scalOp i (opnds i) k)) {lat : Nat} (hl : fixedL i = lat) :
    ScalMeaning i lat k := by
  intro s₀ s is m hc hi
  refine ⟨_, h s₀, ?_⟩
  have his := iss_of hi.issue
  have hlead : is.leader = m := by simp only [Issue.leader, hi.alone, List.headD_cons]
  subst hl
  unfold State.scalOp
  simp only [hc, his, hlead]
  split
  · next ha =>
    rw [ended_advanceAll hi.alone]
    have := advance_end (is := is) (x := 0) (.refl m.gid s) rfl hi.there hi.fresh
    exact ⟨fun hn => absurd ha hn, fun _ => rfl, this⟩
  · next ha =>
    have hs := scalLater_done s i (opnds i) (k (s.scalSrcs m.gid (opnds i))).1 (k (s.scalSrcs m.gid (opnds i))).2 0
    simp only [his, hlead] at hs
    obtain ⟨hE, hT, hP⟩ := hs
    rw [ended_advanceAll hi.alone]
    have := advance_end (is := is) (x := 0) hE hT hi.there hi.fresh
    refine ⟨fun _ j r hj => ?_, fun hn => absurd hn ha, this⟩
    obtain ⟨id, p, h1, h2, h3, h4, h5, h6⟩ := hP j r hj
    exact ⟨id, p, h1, h2, h3, by rw [h4, Nat.add_zero], h5, h6⟩

end Sys2Proof.Machine
end

