-- ==== Sys2Proof/Laws/MemIssue.lean ====
section
/-! SUPPORT. What a memory instruction does at issue when every lane has its translation (R68, R172, R177, R221). -/
namespace Sys2Proof.Machine

/-- From `s` to `t` an operation of a group has entered the machine. -/
structure Entered (g : Nat) (s t : State) : Prop where
  clk : t.clk = s.clk
  mem : t.mem = s.mem
  free : t.env.freeCtr = s.env.freeCtr
  parts : t.parts = s.parts
  blocks : t.blocks = s.blocks
  mats : t.mats = s.mats
  belfry : t.belfry = s.belfry
  copies : t.copies = s.copies
  faults : t.faults = s.faults
  net : t.net = s.net
  spire : t.spire = s.spire
  trace : t.trace = s.trace
  cores : ∀ c, { t.core c with pwait := [] } = { s.core c with pwait := [] }
  others : ∀ h, h ≠ g → (tget t.groups h).map Group.still = (tget s.groups h).map Group.still
  otherMaps : ∀ h, h ≠ g → (t.group h).map = (s.group h).map
  there : (tget t.groups g).isSome = (tget s.groups g).isSome
  group : { t.group g with threads := [], sb := [], fifo := [], contain := none } =
    { s.group g with threads := [], sb := [], fifo := [], contain := none }
  preds : ∀ l, l < 128 → ((t.group g).thread l).preds = ((s.group g).thread l).preds

theorem Entered.refl (g : Nat) (s : State) : Entered g s s := by constructor <;> intros <;> rfl

theorem Entered.trans {g : Nat} {a b c : State} (h : Entered g a b) (k : Entered g b c) : Entered g a c where
  clk := k.clk.trans h.clk
  mem := k.mem.trans h.mem
  free := k.free.trans h.free
  parts := k.parts.trans h.parts
  blocks := k.blocks.trans h.blocks
  mats := k.mats.trans h.mats
  belfry := k.belfry.trans h.belfry
  copies := k.copies.trans h.copies
  faults := k.faults.trans h.faults
  net := k.net.trans h.net
  spire := k.spire.trans h.spire
  trace := k.trace.trans h.trace
  cores x := (k.cores x).trans (h.cores x)
  others x hx := (k.others x hx).trans (h.others x hx)
  otherMaps x hx := (k.otherMaps x hx).trans (h.otherMaps x hx)
  there := k.there.trans h.there
  group := k.group.trans h.group
  preds l hl := (k.preds l hl).trans (h.preds l hl)

theorem Ended.entered {g : Nat} {s t : State} (h : Ended g s t) : Entered g s t where
  clk := h.clk
  mem := h.mem
  free := h.free
  parts := h.parts
  blocks := h.blocks
  mats := h.mats
  belfry := h.belfry
  copies := h.copies
  faults := h.faults
  net := h.net
  spire := h.spire
  trace := h.trace
  cores := h.cores
  others x hx := by rw [h.others x hx]
  otherMaps x hx := by simp only [State.group, tgetD, h.others x hx]
  there := h.there
  group := by
    have := congrArg (fun G : Group => { G with fifo := [], contain := none }) h.group
    exact this
  preds := h.preds

theorem entered_modGroup (g : Nat) (s : State) (f : Group → Group)
    (hf : ∀ G, { f G with threads := [], sb := [], fifo := [], contain := none } =
      { G with threads := [], sb := [], fifo := [], contain := none })
    (hp : ∀ G l, l < 128 → ((f G).thread l).preds = (G.thread l).preds) : Entered g s (s.modGroup g f) := by
  constructor <;> intros <;> first | rfl | skip
  · next h hne => rw [modGroup_groups, tget_tmod_ne _ _ hne]
  · next h hne => exact congrArg _ (group_modGroup_ne s g f hne)
  · simp only [modGroup_groups, tget_tmod_self, Option.isSome_map]
  · exact group_modGroup_keep s g (fun G => { G with threads := [], sb := [], fifo := [], contain := none }) g f hf
  · next l hl => exact group_modGroup_keep s g (fun G => (G.thread l).preds) g f (fun G => hp G l hl)

theorem entered_clearSlot (g : Nat) (s : State) (k n : Nat) : Entered g s (s.clearSlot k n) := by
  unfold State.clearSlot
  split
  · exact .refl g s
  · by_cases hk : k = g
    · subst hk
      exact entered_modGroup k s _ (fun _ => rfl) (fun _ _ _ => rfl)
    · constructor <;> intros <;> first | rfl | skip
      · next h _ =>
        simp only [modGroup_groups, tget_tmod]
        split
        · rw [Option.map_map]; rfl
        · rfl
      · next h _ => exact group_modGroup_keep s k Group.map h _ (fun _ => rfl)
      · rw [modGroup_groups, tget_tmod_ne _ _ (Ne.symm hk)]
      · rw [group_modGroup_ne s k _ (Ne.symm hk)]
      · next l hl => rw [group_modGroup_ne s k _ (Ne.symm hk)]

theorem entered_flight (g : Nat) (s : State) (f : Flight) : Entered g s { s with flight := f } := by
  constructor <;> intros <;> rfl

theorem entered_settle (g : Nat) (s : State) : Entered g s s.settle := by
  unfold State.settle
  refine foldS_rel (R := Entered g) (.refl g) .trans (fun s e => ?_) _ s
  split
  · exact .refl g s
  · split
    · exact .trans (entered_flight g s _) (entered_clearSlot g _ _ _)
    · exact .refl g s

theorem ended_setLanes_none (s : State) (g : Nat) (st : LaneState) : Ended g s (s.setLanes g 0 st) := by
  refine ended_modGroup g s _ (fun _ => rfl) (fun G l hl => ?_)
  rw [modThreads_thread _ _ _ hl]
  simp

theorem entered_freshId (g : Nat) (s : State) : Entered g s s.freshId.2 := by constructor <;> intros <;> rfl

theorem entered_memEnqueue (s : State) (r : MemReq) (g id : Nat) (lanes : List LaneOp) :
    Entered g s (s.memEnqueue r g id lanes) := by
  unfold State.memEnqueue
  split
  · exact entered_modGroup g s _ (fun _ => rfl) (fun _ _ _ => rfl)
  · exact .refl g s

/-- The frame of an operation that has entered the machine. -/
theorem groupFrame_of {g : Nat} {rel : List Nat} {s a b c : State} (h1 : Released g rel s a) (h2 : SetAside g a b)
    (h3 : Entered g b c) (hw : ∀ l, l < 128 → ((c.group g).thread l).wb = ((b.group g).thread l).wb ∧
      ((c.group g).thread l).stack = ((b.group g).thread l).stack) : GroupFrame g rel s c := by
  have R := h1.regs.trans h2.regs
  have B := R.bare g
  have bid := congrArg Group.id B
  have bth := congrArg Group.threads B
  have bsc := congrArg Group.scal B
  have bsp := congrArg Group.scalPoison B
  have brg := congrArg Group.regs B
  have bhd := congrArg Group.handler B
  simp only [Group.bare] at bid bth bsc bsp brg bhd
  have E := h3.group
  have eid := congrArg Group.id E
  have esc := congrArg Group.scal E
  have esp := congrArg Group.scalPoison E
  have erg := congrArg Group.regs E
  have ehd := congrArg Group.handler E
  have emp := congrArg Group.map E
  simp only at eid esc esp erg ehd emp
  exact
    { outside :=
        { clk := h3.clk.trans R.clk, mem := h3.mem.trans R.mem, mats := h3.mats.trans R.mats
          belfry := h3.belfry.trans R.belfry, copies := h3.copies.trans R.copies, faults := h3.faults.trans R.faults
          net := h3.net.trans R.net, spire := h3.spire.trans R.spire, trace := h3.trace.trans R.trace
          blocks := fun x => by rw [h3.blocks]; exact R.blocks x
          cores := fun x => by
            rw [← R.cores x]
            exact congrArg (fun k : Core => { k with pool := [], unif := [] }) (h3.cores x)
          parts := fun p => by simp only [State.part, h3.parts, R.parts] }
      others := fun x hx => by
        rw [h3.others x hx]
        have := congrArg (Option.map (fun G : Group => { G with sb := [] })) (R.groups x)
        rw [Option.map_map, Option.map_map] at this
        exact this
      otherMaps := fun x hx => (h3.otherMaps x hx).trans (R.maps x hx)
      scalars := scalar_congr (eid.trans bid) (ehd.trans bhd) (esc.trans bsc)
        (by simp only [State.part, h3.parts, R.parts])
      scalPoison := esp.trans bsp
      preds := fun l hl => (h3.preds l hl).trans (by rw [thread_of_threads bth])
      window := fun l hl => (hw l hl).1.trans (by rw [thread_of_threads bth])
      stack := fun l hl => (hw l hl).2.trans (by rw [thread_of_threads bth])
      regs := by rw [erg]; exact brg
      names := fun n l hn hs => by
        rw [← h1.reads n l hn hs, ← h2.reads n l]
        refine readName_congr eid (by simp only [State.part, h3.parts]) h3.mats h3.free (by rw [emp]) (fun e _ => ?_) l
        have hc := h3.cores (b.coreOf g)
        have hpool := congrArg Core.pool hc
        have hunif := congrArg Core.unif hc
        simp only at hpool hunif
        cases e.map <;> simp only [Core.mapVals, Core.mapPoison, hpool, hunif, and_self] }


/-! ### Lanes with their translation -/

/-- A lane of an operation that has its physical address and waits to be performed. -/
def laneHit (s : State) (o : Opnds) (g : Nat) (addr : Nat → Wide) (data : Nat → List Word) (pa : Nat → Nat) (l : Nat) : LaneOp :=
  ⟨l, addr l, some (pa l), false, false, none, data l, 0, s.opval s.iss o g l⟩

theorem laneOpAt_hit {s : State} {r : MemReq} {o : Opnds} {g l : Nat} {addr : Nat → Wide} {data : Nat → List Word}
    {pa : Nat → Nat} (hr : ((s.group g).thread l).replay = none)
    (h : s.laneCheck r g (addr l) (dataWide (data l)) = .ok (pa l)) :
    s.laneOpAt r o g l (addr l) (data l) = laneHit s o g addr data pa l := by
  simp only [State.laneOpAt, State.replayOf, hr, h, laneHit]

/-- Settling keeps a store that has an entry in its group's FIFO. -/
theorem settle_keeps {s : State} {id g : Nat} {x : MemOp} (hx : tget s.flight.ops id = some x) (hg : x.gid = g)
    (hf : (s.group g).fifo.any (fun e => decide (e.op = id)) = true) :
    tget s.settle.flight.ops id = some x := by
  unfold State.settle
  have : (fun s : State => tget s.flight.ops id = some x ∧ (s.group g).fifo.any (fun e => decide (e.op = id)) = true)
      (foldS (s.flight.ops.map Prod.fst) s (fun s id =>
    match tget s.flight.ops id with
    | none => s
    | some m =>
      if m.kind = .store ∧ m.lanes.all (fun x => x.pa.isSome || x.parked) ∧ ¬ s.storePending id m then
        ({ s with flight := { s.flight with ops := tdel s.flight.ops id } }).clearSlot m.gid m.slot
      else s)) := by
    refine foldS_inv (P := fun s : State => tget s.flight.ops id = some x ∧
      (s.group g).fifo.any (fun e => decide (e.op = id)) = true) _ s ⟨hx, hf⟩ (fun s k _ h => ?_)
    split
    · exact h
    · next m hm =>
      split
      · next hc =>
        by_cases hk : k = id
        · subst hk
          rw [h.1] at hm
          cases hm
          exact absurd (by simp only [State.storePending, hg, h.2, Bool.true_or]) hc.2.2
        · have hcl (s : State) (a b : Nat) : (s.clearSlot a b).flight = s.flight ∧
              ((s.clearSlot a b).group g).fifo = (s.group g).fifo := by
            unfold State.clearSlot
            split
            · exact ⟨rfl, rfl⟩
            · exact ⟨rfl, group_modGroup_keep s a Group.fifo g _ (fun _ => rfl)⟩
          rw [(hcl _ _ _).1, (hcl _ _ _).2]
          exact ⟨(tget_tdel_ne _ (Ne.symm hk)).trans h.1, h.2⟩
      · exact h
  exact this.1

theorem settle_group (s : State) (g : Nat) : (s.settle.group g).fifo = (s.group g).fifo ∧
    (s.settle.group g).threads = (s.group g).threads := by
  unfold State.settle
  refine foldS_inv (P := fun t : State => (t.group g).fifo = (s.group g).fifo ∧ (t.group g).threads = (s.group g).threads)
    _ s ⟨rfl, rfl⟩ (fun t k _ h => ?_)
  have hcl (s : State) (a b : Nat) : ((s.clearSlot a b).group g).fifo = (s.group g).fifo ∧
      ((s.clearSlot a b).group g).threads = (s.group g).threads := by
    unfold State.clearSlot
    split
    · exact ⟨rfl, rfl⟩
    · exact ⟨group_modGroup_keep s a Group.fifo g _ (fun _ => rfl), group_modGroup_keep s a Group.threads g _ (fun _ => rfl)⟩
  split
  · exact h
  · split
    · rw [(hcl _ _ _).1, (hcl _ _ _).2]; exact h
    · exact h

/-- An operation whose lanes all have their physical addresses stays in flight, and nothing parks. -/
theorem resolveOp_hit {s : State} {id : Nat} {x : MemOp} (hx : tget s.flight.ops id = some x)
    (hne : x.lanes ≠ []) (hl : ∀ y, y ∈ x.lanes → y.pa.isSome = true ∧ y.cause = none ∧ y.done = false ∧ y.parked = false)
    (hlate : x.late = []) (hg : (tget s.groups x.gid).isSome = true)
    (hs : x.kind = .store → (s.group x.gid).fifo.any (fun e => decide (e.op = id)) = true) :
    Entered x.gid s (s.resolveOp id) ∧ tget (s.resolveOp id).flight.ops id = some x ∧
    ((s.resolveOp id).group x.gid).fifo = (s.group x.gid).fifo ∧
    ∀ l, l < 128 → (((s.resolveOp id).group x.gid).thread l).pc = ((s.group x.gid).thread l).pc ∧
      (((s.resolveOp id).group x.gid).thread l).ready = ((s.group x.gid).thread l).ready ∧
      (((s.resolveOp id).group x.gid).thread l).wb = ((s.group x.gid).thread l).wb ∧
      (((s.resolveOp id).group x.gid).thread l).stack = ((s.group x.gid).thread l).stack := by
  have hall : x.lanes.all (fun y => y.pa.isSome || y.cause.isSome || y.parked) = true :=
    List.all_eq_true.2 (fun y hy => by simp [(hl y hy).1])
  have hbad : x.lanes.filter (fun y => y.cause.isSome) = [] :=
    List.filter_eq_nil_iff.2 (fun y hy => by simp [(hl y hy).2.1])
  have hcauses : x.causes = [] := by
    have : x.lanes.filterMap (fun y => if y.parked then none else y.cause) = [] :=
      List.filterMap_eq_nil_iff.2 (fun y hy => by simp [(hl y hy).2.1])
    simp [MemOp.causes, this]
  -- the operation once its lanes have gone on
  generalize hback : x.mask &&& (s.group x.gid).lanesIn .waiting = back
  let f : Group → Group := fun G => { (G.modThreads back (fun _ t => { t with st := .live, since := none })) with
        fifo := G.fifo.filter (fun e => !(e.op = id && (0 : Mask).getLsbD e.lane)) }
  have hft (G : Group) (l : Nat) : (f G).thread l =
      (G.modThreads back (fun _ t => { t with st := .live, since := none })).thread l := rfl
  have hfifo (G : Group) : (f G).fifo = G.fifo := List.filter_eq_self.2 (fun e _ => by simp)
  have hz : s.resolveOp id = if x.kind = .store then (s.modGroup x.gid f).settle else (s.modGroup x.gid f).finishOp id := by
    unfold State.resolveOp
    simp only [hx, hall, not_true_eq_false, if_false, hbad, List.map_nil, hback, hlate, foldS_nil]
    have hpc : (s.modGroup x.gid f).parkCauses id = s.modGroup x.gid f := by
      unfold State.parkCauses
      change (match tget s.flight.ops id with | none => _ | some m => _) = _
      rw [hx]
      simp only [hcauses, foldS_nil]
    change (if x.kind = .store then ((s.modGroup x.gid f).parkCauses id).settle else
      ((s.modGroup x.gid f).parkCauses id).finishOp id) = _
    rw [hpc]
  have hE : Entered x.gid s (s.modGroup x.gid f) := by
    refine entered_modGroup x.gid s f (fun _ => rfl) (fun G l hl => ?_)
    rw [hft, modThreads_thread _ _ _ hl]
    split <;> rfl
  have hgr : (s.modGroup x.gid f).group x.gid = f (s.group x.gid) := by rw [group_modGroup s x.gid x.gid f hg, if_pos rfl]
  have hth : ∀ l, l < 128 → (((s.modGroup x.gid f).group x.gid).thread l).pc = ((s.group x.gid).thread l).pc ∧
      (((s.modGroup x.gid f).group x.gid).thread l).ready = ((s.group x.gid).thread l).ready ∧
      (((s.modGroup x.gid f).group x.gid).thread l).wb = ((s.group x.gid).thread l).wb ∧
      (((s.modGroup x.gid f).group x.gid).thread l).stack = ((s.group x.gid).thread l).stack := by
    intro l hl
    rw [hgr]
    rw [hft, modThreads_thread _ _ _ hl]
    split <;> exact ⟨rfl, rfl, rfl, rfl⟩
  rw [hz]
  split
  · next hk =>
    have hF : ((s.modGroup x.gid f).group x.gid).fifo = (s.group x.gid).fifo := by rw [hgr]; exact hfifo _
    refine ⟨hE.trans (entered_settle x.gid _), settle_keeps (g := x.gid) hx rfl (by rw [hF]; exact hs hk), ?_, ?_⟩
    · rw [(settle_group _ _).1, hF]
    · intro l hl
      rw [thread_of_threads (settle_group _ _).2]
      exact hth l hl
  · next hk =>
    have hfin : (s.modGroup x.gid f).finishOp id = s.modGroup x.gid f := by
      unfold State.finishOp
      change (match tget s.flight.ops id with | none => _ | some m => _) = _
      rw [hx]
      simp only
      rw [if_pos]
      right
      intro ha
      obtain ⟨y, r, e⟩ := List.exists_cons_of_ne_nil hne
      have hy : y ∈ x.lanes := by rw [e]; exact List.mem_cons_self ..
      have := List.all_eq_true.1 ha y hy
      simp [LaneOp.over, hl y hy] at this
    rw [hfin]
    refine ⟨hE, hx, ?_, hth⟩
    rw [hgr]; exact hfifo _

theorem memEnqueue_facts (s : State) (r : MemReq) (g id : Nat) (lanes : List LaneOp)
    (hg : (tget s.groups g).isSome = true) :
    (s.memEnqueue r g id lanes).flight = s.flight ∧
    ((s.memEnqueue r g id lanes).group g).threads = (s.group g).threads ∧
    ((s.memEnqueue r g id lanes).group g).fifo = (s.group g).fifo ++ (if r.kind = .store then
      (lanes.filter (fun x => x.cause.isNone)).map (fun x =>
        ⟨s.iss.seq, id, x.lane, x.addr, x.pa, storeBytes r.size x.data, r.scope, r.rel⟩) else []) := by
  unfold State.memEnqueue
  split
  · refine ⟨rfl, ?_, ?_⟩ <;> rw [group_modGroup s g g _ hg, if_pos rfl]
  · exact ⟨rfl, rfl, (List.append_nil _).symm⟩

/-- An operation whose lanes all have their physical addresses enters the machine. -/
theorem memEnter_hit {b : State} {r : MemReq} {o : Opnds} {is : Issue} {m : Member} {once : Bool} {names late : List Nat}
    {lanes : List LaneOp} {resv : List (Option Nat)} (hne : lanes ≠ [])
    (hl : ∀ y, y ∈ lanes → y.pa.isSome = true ∧ y.cause = none ∧ y.done = false ∧ y.parked = false)
    (hg : (tget b.groups m.gid).isSome = true)
    (fresh : ∀ l, m.lanes.getLsbD l = true → ((b.group m.gid).thread l).replay = none) :
    ∃ id q ph, Entered m.gid b (b.memEnter r o is m once names late lanes resv) ∧
      tget (b.memEnter r o is m once names late lanes resv).flight.ops id = some (memOpOf r o is m ph names [] lanes resv) ∧
      ((b.memEnter r o is m once names late lanes resv).group m.gid).fifo = (b.group m.gid).fifo ++
        (if r.kind = .store then lanes.map (fun x =>
          ⟨q, id, x.lane, x.addr, x.pa, storeBytes r.size x.data, r.scope, r.rel⟩) else []) ∧
      GoesOn b (b.memEnter r o is m once names late lanes resv) is m 0 ∧
      ∀ l, l < 128 → (((b.memEnter r o is m once names late lanes resv).group m.gid).thread l).wb = ((b.group m.gid).thread l).wb ∧
        (((b.memEnter r o is m once names late lanes resv).group m.gid).thread l).stack = ((b.group m.gid).thread l).stack := by
  have hmiss : lanes.filter (fun x => x.pa.isNone && x.cause.isNone) = [] :=
    List.filter_eq_nil_iff.2 (fun y hy => by
      have := (hl y hy).1
      cases h : y.pa with
      | none => rw [h] at this; cases this
      | some p => simp)
  have hkeep : lanes.filter (fun x => x.cause.isNone) = lanes :=
    List.filter_eq_self.2 (fun y hy => by rw [(hl y hy).2.1]; rfl)
  unfold State.memEnter
  simp only [hmiss, foldS_nil, List.isEmpty_nil, if_true, List.map_nil]
  rw [show (if once = true then (0 : Mask) else maskOf []) = 0 from by split <;> rfl]
  generalize hid : ((b.poolDone m.gid).freshId).1 = id
  generalize hi2 : ((b.poolDone m.gid).freshId).2 = i2
  have E2 : Entered m.gid b i2 := by
    rw [← hi2]
    exact (ended_poolDone b m.gid).entered.trans (entered_freshId m.gid _)
  have ht2 : (i2.group m.gid).threads = (b.group m.gid).threads := by rw [← hi2]; rfl
  have hg2 : (tget i2.groups m.gid).isSome = true := E2.there.trans hg
  have hf2 : (i2.group m.gid).fifo = (b.group m.gid).fifo := by rw [← hi2]; rfl
  have hfr2 : ∀ l, m.lanes.getLsbD l = true → ((i2.group m.gid).thread l).replay = none := fun l h => by
    rw [thread_of_threads ht2]; exact fresh l h
  -- the threads go on
  generalize ha : i2.advance m.gid m.lanes is.next (i2.nextReady is 0) = a
  have Ea : Ended m.gid i2 a := by rw [← ha]; exact ended_advance i2 m.gid _ _ _
  have hpc : ∀ l, l < 128 → m.lanes.getLsbD l = true → ((a.group m.gid).thread l).pc = is.next ∧
      ((a.group m.gid).thread l).ready = b.clk.ac + 1 + is.stall + 0 := fun l h1 h2 => by
    have := advance_thread i2 m.gid m.lanes is.next (i2.nextReady is 0) hg2 h1 h2 (hfr2 l h2)
    rw [ha] at this
    simpa only [State.nextReady, E2.clk] using this
  have hwa : ∀ l, l < 128 → ((a.group m.gid).thread l).wb = ((b.group m.gid).thread l).wb ∧
      ((a.group m.gid).thread l).stack = ((b.group m.gid).thread l).stack := fun l h1 => by
    have := advance_window i2 m.gid m.lanes is.next (i2.nextReady is 0) hfr2 h1
    rw [ha, thread_of_threads ht2] at this
    exact ⟨this.1, this.2.1⟩
  have hga : (tget a.groups m.gid).isSome = true := Ea.there.trans hg2
  have hfa : (a.group m.gid).fifo = (b.group m.gid).fifo := by
    have := congrArg Group.fifo Ea.group
    exact Eq.trans this hf2
  -- no lane waits
  generalize hc : a.setLanes m.gid 0 .waiting = c
  have Ec : Ended m.gid a c := by rw [← hc]; exact ended_setLanes_none a m.gid .waiting
  have hth : ∀ l, l < 128 → (c.group m.gid).thread l = (a.group m.gid).thread l := fun l h1 => by
    rw [← hc]
    unfold State.setLanes
    rw [group_modGroup a m.gid m.gid _ hga, if_pos rfl, modThreads_thread _ _ _ h1]
    simp
  have hgc : (tget c.groups m.gid).isSome = true := Ec.there.trans hga
  have hfc : (c.group m.gid).fifo = (b.group m.gid).fifo := by
    have := congrArg Group.fifo Ec.group
    exact Eq.trans this hfa
  -- the operation is in flight
  generalize hph : (c.group m.gid).regs.phase = ph
  generalize hop : memOpOf r o is m ph names [] lanes resv = op
  generalize hd : ({ c with flight := { c.flight with ops := tput c.flight.ops id op } } : State) = d
  have Ed : Entered m.gid c d := by rw [← hd]; exact entered_flight m.gid c _
  have hgd : (tget d.groups m.gid).isSome = true := Ed.there.trans hgc
  have hod : tget d.flight.ops id = some op := by rw [← hd]; exact tget_tput_self _ _ _
  have hdg : d.group m.gid = c.group m.gid := by rw [← hd]; rfl
  have hM := memEnqueue_facts d r m.gid id lanes hgd
  generalize hq : d.iss.seq = q at hM
  generalize he : d.memEnqueue r m.gid id lanes = e at hM
  have Ee : Entered m.gid d e := by rw [← he]; exact entered_memEnqueue d r m.gid id lanes
  generalize hx : SbSlot.mk _ _ _ _ _ _ _ _ = sb
  generalize hk : e.markSlot m.gid (varSlot is) sb = k
  have Ek : Entered m.gid e k := by rw [← hk]; exact (ended_markSlot e m.gid _ _).entered
  have hok : tget k.flight.ops id = some op := by rw [← hk, markSlot_flight, hM.1]; exact hod
  have hkt : (k.group m.gid).threads = (c.group m.gid).threads := by
    rw [← hk, markSlot_threads, hM.2.1, hdg]
  have hkf : (k.group m.gid).fifo = (b.group m.gid).fifo ++ (if r.kind = .store then lanes.map (fun x =>
          ⟨q, id, x.lane, x.addr, x.pa, storeBytes r.size x.data, r.scope, r.rel⟩) else []) := by
    have h1 : (k.group m.gid).fifo = (e.group m.gid).fifo := by
      rw [← hk]
      have := congrArg Group.fifo (ended_markSlot e m.gid (varSlot is) sb).group
      exact this
    rw [h1, hM.2.2, hdg, hfc, hkeep]
  have hopg : op.gid = m.gid := by rw [← hop]; rfl
  have hopk : op.kind = r.kind := by rw [← hop]; rfl
  have hopl : op.lanes = lanes := by rw [← hop]; rfl
  have hR := resolveOp_hit (s := k) (id := id) (x := op) hok (by rw [hopl]; exact hne) (by rw [hopl]; exact hl)
    (by rw [← hop]; rfl) (by rw [hopg]; exact Ek.there.trans (Ee.there.trans hgd)) (by
      rw [hopk, hopg]
      intro hst
      rw [hkf, if_pos hst, List.any_append]
      obtain ⟨y, ys, e⟩ := List.exists_cons_of_ne_nil hne
      rw [e]
      simp)
  rw [hopg] at hR
  have E : Entered m.gid b k := ((E2.trans Ea.entered).trans Ec.entered).trans (Ed.trans (Ee.trans Ek))
  refine ⟨id, q, ph, E.trans hR.1, hR.2.1.trans (by rw [hop]), hR.2.2.1.trans hkf, ?_, ?_⟩
  · intro l h1 h2
    have := hR.2.2.2 l h1
    rw [this.1, this.2.1, thread_of_threads hkt, hth l h1]
    exact hpc l h1 h2
  · intro l h1
    have := hR.2.2.2 l h1
    rw [this.2.2.1, this.2.2.2, thread_of_threads hkt, hth l h1]
    exact hwa l h1

theorem lowLane_act {m : Mask} (h : m ≠ 0) : lowLane m < 128 ∧ m.getLsbD (lowLane m) = true := by
  have hne : lanesOf m ≠ [] := by
    intro e
    apply h
    apply BitVec.eq_of_getLsbD_eq
    intro i hi
    have : i ∉ lanesOf m := by rw [e]; exact List.not_mem_nil
    rw [mem_lanesOf] at this
    simp only [hi, true_and, Bool.not_eq_true] at this
    rw [this]; simp
  obtain ⟨a, r, e⟩ := List.exists_cons_of_ne_nil hne
  have : a ∈ lanesOf m := by rw [e]; exact List.mem_cons_self ..
  rw [mem_lanesOf] at this
  simpa only [lowLane, e, List.headD_cons] using this

theorem actLanes_act {once : Bool} {m : Member} (h : m.act ≠ 0) {l : Nat} (hl : l ∈ actLanes once m) :
    l < 128 ∧ m.act.getLsbD l = true := by
  unfold actLanes at hl
  split at hl
  · rw [List.mem_singleton] at hl; subst hl; exact lowLane_act h
  · rwa [mem_lanesOf] at hl

theorem actLanes_ne {once : Bool} {m : Member} (h : m.act ≠ 0) : actLanes once m ≠ [] := by
  unfold actLanes
  split
  · simp
  · intro e
    have := (mem_lanesOf m.act (lowLane m.act)).2 (lowLane_act h)
    rw [e] at this
    cases this

theorem inside_lanes {a b : Mask} (h : a &&& ~~~b = 0) {l : Nat} (hl : l < 128) (ha : a.getLsbD l = true) :
    b.getLsbD l = true := by
  have := congrArg (fun x : Mask => x.getLsbD l) h
  simp [hl, ha] at this
  simpa [hl] using this

/-- What a memory instruction does whose lanes all have their translation. -/
theorem memRun_done {i : Instr} {r : MemReq} {once : Bool} {A : State → Nat → Nat → Wide}
    {D : State → Nat → Nat → List Word} {pa : Nat → Nat} {s : State} {is : Issue} {m : Member} (s' : State)
    (h : MemRuns i r once (A s m.gid) (D s m.gid) pa s is m) :
    MemDone i r once (A s m.gid) (D s m.gid) pa s (State.memRunOp r (opnds i) once A D s' s) is m := by
  have his := iss_of h.issues.issue
  have hwait : State.firstWait (.split is.pc is.wb) (State.memAsks (opnds i)) [m] s = none := by
    unfold State.firstWait State.memAsks
    simp only [his]
    rw [h.pool _ _ (by
      refine Nat.le_trans (List.length_filter_le _ _) ?_
      simp [State.writeNames])]
    rfl
  have hfr : ∀ l, m.act.getLsbD l = true → ((s.group m.gid).thread l).replay = none := fun l hl => by
    by_cases h' : l < 128
    · exact h.issues.fresh l (inside_lanes h.issues.inside h' hl)
    · rw [BitVec.getLsbD_of_ge _ _ (by omega)] at hl; cases hl
  have hlanes : (if once = true then [lowLane m.act] else lanesOf m.act).map (fun l =>
      s.laneOpAt r (opnds i) m.gid l (A s m.gid l) (D s m.gid l)) =
      (actLanes once m).map (laneHit s (opnds i) m.gid (A s m.gid) (D s m.gid) pa) := by
    change (actLanes once m).map _ = _
    apply List.map_congr_left
    intro l hl
    exact laneOpAt_hit (hfr l (actLanes_act h.some_ hl).2) (h.hits l hl)
  generalize hL : (actLanes once m).map (laneHit s (opnds i) m.gid (A s m.gid) (D s m.gid) pa) = lanes at hlanes
  have hne : lanes ≠ [] := by
    rw [← hL]
    intro e
    exact actLanes_ne h.some_ (List.map_eq_nil_iff.1 e)
  have hl : ∀ y, y ∈ lanes → y.pa.isSome = true ∧ y.cause = none ∧ y.done = false ∧ y.parked = false := by
    intro y hy
    rw [← hL] at hy
    obtain ⟨l, _, rfl⟩ := List.mem_map.1 hy
    exact ⟨rfl, rfl, rfl, rfl⟩
  have hgood : once = false → maskOf ((lanes.filter (fun x => x.pa.isSome)).map LaneOp.lane) = m.act := by
    intro ho
    rw [List.filter_eq_self.2 (fun y hy => (hl y hy).1), ← hL, List.map_map]
    apply BitVec.eq_of_getLsbD_eq
    intro k hk
    rw [getLsbD_maskOf _ k hk]
    simp only [actLanes, ho, Bool.false_eq_true, if_false, List.mem_map, Function.comp, laneHit]
    cases hb : m.act.getLsbD k with
    | true => simp [mem_lanesOf, hk, hb]
    | false => simp [mem_lanesOf, hb]
  have hrun : ∃ (w : Mask) (needs : List Bool) (late : List Nat), (once = false → w = m.act) ∧ State.memRunOp r (opnds i) once A D s' s =
      ((s.releaseSrcs m.gid is.wb (opnds i) w).reserveAll m.gid needs).2.memEnter r (opnds i) is m once
        (s.writeNames m.gid is.wb (opnds i)) late lanes
        ((s.releaseSrcs m.gid is.wb (opnds i) w).reserveAll m.gid needs).1 := by
    unfold State.memRunOp
    simp only [his, h.issues.alone, hwait, foldS_cons, foldS_nil]
    unfold State.memMember
    simp only [his, if_neg h.some_, hlanes]
    rw [h.pool _ _ (by
      refine Nat.le_trans (List.length_filter_le _ _) ?_
      simp [State.writeNames])]
    exact ⟨_, _, _, hgood, rfl⟩
  obtain ⟨w, needs, late, hw, hrun⟩ := hrun
  rw [hrun]
  have r1 : Released m.gid (releasedNames s i m.gid is.wb) s (s.releaseSrcs m.gid is.wb (opnds i) w) :=
    released_releaseSrcs s m.gid is.wb (opnds i) w
  generalize ha : s.releaseSrcs m.gid is.wb (opnds i) w = a at r1
  have r2 := setAside_reserveAll a m.gid needs
  generalize hb : a.reserveAll m.gid needs = b at r2
  have R := r1.regs.trans r2.regs
  have hB := R.bare m.gid
  have hthr : (b.2.group m.gid).threads = (s.group m.gid).threads := by
    have := congrArg Group.threads hB
    simpa only [Group.bare] using this
  have hff : (b.2.group m.gid).fifo = (s.group m.gid).fifo := by
    have := congrArg Group.fifo hB
    simpa only [Group.bare] using this
  have hfresh : ∀ l, m.lanes.getLsbD l = true → ((b.2.group m.gid).thread l).replay = none := fun l hl => by
    rw [thread_of_threads hthr]; exact h.issues.fresh l hl
  have hthere : (tget b.2.groups m.gid).isSome = true := by
    have := R.groups m.gid
    have hs := h.issues.there
    cases e : tget b.2.groups m.gid with
    | some x => rfl
    | none =>
      rw [e] at this
      cases e' : tget s.groups m.gid with
      | none => rw [e'] at hs; exact hs
      | some x => rw [e'] at this; cases this
  obtain ⟨id, q, ph, hE, hop, hfifo, hgo, hwin⟩ := memEnter_hit (o := opnds i) (is := is) (m := m) (once := once)
    (names := s.writeNames m.gid is.wb (opnds i)) (late := late) (resv := b.1) (r := r) hne hl hthere hfresh
  refine ⟨⟨id, _, hop, rfl, rfl, rfl, rfl, rfl, rfl, rfl, rfl, rfl, rfl, ?_⟩, ⟨id, q, ?_⟩, ?_, ?_, ?_⟩
  · intro l hl'
    refine ⟨laneHit s (opnds i) m.gid (A s m.gid) (D s m.gid) pa l, ?_, rfl, rfl, rfl, rfl, rfl, rfl, rfl⟩
    change _ ∈ lanes
    rw [← hL]
    exact List.mem_map.2 ⟨l, hl', rfl⟩
  · rw [hfifo, hff, ← hL]
    congr 1
    split
    · rw [List.map_map]; rfl
    · rfl
  · intro l h1 h2
    have := hgo l h1 h2
    rw [show s.clk = b.2.clk from R.clk.symm]
    exact this
  · intro ho n e hn hs he hh
    have hmap := congrArg Group.map hE.group
    simp only at hmap
    rw [hmap, r2.map, ← ha, ← hw ho]
    exact releaseSrcs_frees hn hs he hh
  · exact groupFrame_of r1 r2 hE hwin

end Sys2Proof.Machine
end

