-- ==== Sys2Proof/Laws/Memory.lean ====
section
/-! SUPPORT. Byte memory: what a read gives after a write, and that every write keeps the canonical form. -/
namespace Sys2Proof.Machine

@[simp] theorem memGet_nil (a : Nat) : memGet [] a = Config.blankByte := rfl

theorem memGet_cons (x : Nat) (b : Byte) (r : List Host.Cell) (a : Nat) :
    memGet ((x, b) :: r) a = if x = a then b else memGet r a := rfl

theorem memWf_iff (m : List Host.Cell) :
    memWf m = true ↔ (m.map Prod.fst).Pairwise (· < ·) ∧ ∀ c ∈ m, c.2 ≠ Config.blankByte := by
  simp [memWf]

theorem memWf_cons {x : Nat} {b : Byte} {r : List Host.Cell} (h : memWf ((x, b) :: r) = true) :
    (∀ c ∈ r, x < c.1) ∧ b ≠ Config.blankByte ∧ memWf r = true := by
  rw [memWf_iff] at h ⊢
  simp only [List.map_cons, List.pairwise_cons, List.mem_map, List.mem_cons] at h
  refine ⟨fun c hc => h.1.1 c.1 ⟨c, hc, rfl⟩, h.2 _ (.inl rfl), h.1.2, fun c hc => h.2 c (.inr hc)⟩

theorem memWf_cons_of {x : Nat} {b : Byte} {r : List Host.Cell} (h1 : ∀ c ∈ r, x < c.1)
    (h2 : b ≠ Config.blankByte) (h3 : memWf r = true) : memWf ((x, b) :: r) = true := by
  rw [memWf_iff] at h3 ⊢
  simp only [List.map_cons, List.pairwise_cons, List.mem_map, List.mem_cons]
  refine ⟨⟨?_, h3.1⟩, ?_⟩
  · rintro _ ⟨c, hc, rfl⟩; exact h1 c hc
  · rintro c (rfl | hc)
    · exact h2
    · exact h3.2 c hc

/-- Below every listed address nothing is listed. -/
theorem memGet_below {r : List Host.Cell} {a : Nat} (h : ∀ c ∈ r, a < c.1) : memGet r a = Config.blankByte := by
  induction r with
  | nil => rfl
  | cons e r ih =>
    obtain ⟨x, b⟩ := e
    have hx := h (x, b) (by simp)
    rw [memGet_cons, if_neg (by simp at hx; omega), ih (fun c hc => h c (by simp [hc]))]

theorem memPut_keys (m : List Host.Cell) (a : Nat) (v : Byte) {c : Host.Cell} (h : c ∈ memPut m a v) :
    c.1 = a ∨ c ∈ m := by
  induction m with
  | nil =>
    unfold memPut at h
    split at h
    · cases h
    · rw [List.mem_singleton] at h; subst h; exact .inl rfl
  | cons e r ih =>
    obtain ⟨x, b⟩ := e
    unfold memPut at h
    split at h
    · split at h
      · exact .inr h
      · rcases List.mem_cons.1 h with rfl | h
        · exact .inl rfl
        · exact .inr h
    · split at h
      · split at h
        · exact .inr (List.mem_cons_of_mem _ h)
        · rcases List.mem_cons.1 h with rfl | h
          · exact .inl rfl
          · exact .inr (List.mem_cons_of_mem _ h)
      · rcases List.mem_cons.1 h with rfl | h
        · exact .inr (List.mem_cons_self ..)
        · rcases ih h with h | h
          · exact .inl h
          · exact .inr (List.mem_cons_of_mem _ h)

/-- A write keeps the canonical form. -/
theorem memPut_wf {m : List Host.Cell} (h : memWf m = true) (a : Nat) (v : Byte) : memWf (memPut m a v) = true := by
  induction m with
  | nil =>
    unfold memPut
    split
    · exact h
    · next hv => exact memWf_cons_of (by simp) hv rfl
  | cons e r ih =>
    obtain ⟨x, b⟩ := e
    obtain ⟨h1, h2, h3⟩ := memWf_cons h
    unfold memPut
    split
    · next ha =>
      split
      · exact h
      · next hv =>
        refine memWf_cons_of ?_ hv h
        intro c hc
        rcases List.mem_cons.1 hc with rfl | hc
        · exact ha
        · exact Nat.lt_trans ha (h1 c hc)
    · split
      · next hx =>
        subst hx
        split
        · exact h3
        · next hv => exact memWf_cons_of h1 hv h3
      · refine memWf_cons_of ?_ h2 (ih h3)
        intro c hc
        rcases memPut_keys r a v hc with h | h
        · omega
        · exact h1 c h

theorem memWrite_wf {m : List Host.Cell} (h : memWf m = true) (a : Nat) (b : List Byte) :
    memWf (memWrite m a b) = true := by
  induction b generalizing m a with
  | nil => exact h
  | cons v r ih => exact ih (memPut_wf h a v) (a + 1)

/-- In canonical form a byte reads as the value last written to it. -/
theorem memGet_memPut_self {m : List Host.Cell} (h : memWf m = true) (a : Nat) (v : Byte) :
    memGet (memPut m a v) a = v := by
  induction m with
  | nil =>
    unfold memPut
    split
    · next hv => subst hv; rfl
    · simp [memGet_cons]
  | cons e r ih =>
    obtain ⟨x, b⟩ := e
    obtain ⟨h1, h2, h3⟩ := memWf_cons h
    unfold memPut
    split
    · next ha =>
      split
      · next hv =>
        subst hv
        rw [memGet_cons, if_neg (by omega), memGet_below (fun c hc => Nat.lt_trans ha (h1 c hc))]
      · simp [memGet_cons]
    · split
      · next hx =>
        subst hx
        split
        · next hv => subst hv; exact memGet_below h1
        · simp [memGet_cons]
      · next hx => rw [memGet_cons, if_neg (fun e => hx e.symm), ih h3]

/-- A write leaves every other byte alone. -/
theorem memGet_memPut_ne (m : List Host.Cell) {a c : Nat} (v : Byte) (hc : c ≠ a) :
    memGet (memPut m a v) c = memGet m c := by
  induction m with
  | nil =>
    unfold memPut
    split
    · rfl
    · simp [memGet_cons, Ne.symm hc]
  | cons e r ih =>
    obtain ⟨x, b⟩ := e
    unfold memPut
    split
    · split
      · rfl
      · simp [memGet_cons, Ne.symm hc]
    · split
      · next hx =>
        subst hx
        split
        · simp [memGet_cons, Ne.symm hc]
        · simp [memGet_cons, Ne.symm hc]
      · simp [memGet_cons, ih]

theorem memGet_memWrite_out (m : List Host.Cell) (a : Nat) (b : List Byte) {c : Nat}
    (h : c < a ∨ a + b.length ≤ c) : memGet (memWrite m a b) c = memGet m c := by
  induction b generalizing m a with
  | nil => rfl
  | cons v r ih =>
    simp only [List.length_cons] at h
    rw [memWrite, ih _ _ (by omega), memGet_memPut_ne _ _ (by omega)]

theorem memGet_memWrite_in {m : List Host.Cell} (h : memWf m = true) (a : Nat) (b : List Byte) {i : Nat}
    (hi : i < b.length) : memGet (memWrite m a b) (a + i) = b[i] := by
  induction b generalizing m a i with
  | nil => simp at hi
  | cons v r ih =>
    rw [memWrite]
    cases i with
    | zero => rw [memGet_memWrite_out _ _ _ (by omega)]; simpa using memGet_memPut_self h a v
    | succ k =>
      have := ih (memPut_wf h a v) (a + 1) (i := k) (by simpa using hi)
      rw [Nat.add_assoc, Nat.add_comm 1 k] at this
      simpa using this

theorem leBytes_length (n x : Nat) : (leBytes n x).length = n := by
  induction n generalizing x with
  | zero => rfl
  | succ n ih => simp [leBytes, ih]

theorem leNat_leBytes (n x : Nat) (h : x < 256 ^ n) : leNat (leBytes n x) = x := by
  induction n generalizing x with
  | zero => simp at h; subst h; rfl
  | succ n ih =>
    simp only [leBytes, leNat, BitVec.toNat_ofNat]
    rw [ih _ (by rw [Nat.pow_succ] at h; omega)]
    omega

end Sys2Proof.Machine
end

