-- ==== Sys2Proof/Laws/PerInstr.lean ====
section
/-! SUPPORT. Statements made per instruction. RoundTrip: the words of a well-formed instruction decode to it, with every
operand as it was (R70, R73, R74). -/
namespace Sys2Proof.Laws

/-- The words of a well-formed instruction decode to it. -/
def RoundTrip.Statement (i : Instr) : Prop :=
  i.wf = true → ∀ w l, encode i = some (w, l) → decodeWord w l = .ok i

/-- An instruction whose words the opcode map answers with it. -/
theorem RoundTrip.of_pick {i : Instr} {w : Word} {l : Option Word} (he : encode i = some (w, l))
    (hp : selOk i = true → pick w l = .ok (i, true)) : RoundTrip.Statement i := by
  intro h w' l' e
  rw [he] at e
  cases e
  simp only [Instr.wf, Bool.and_eq_true, Option.isNone_iff_eq_none] at h
  simp only [decodeWord, hp h.1.2, h.2]

/-- A row that is a step has no words. -/
theorem RoundTrip.of_step {i : Instr} (he : encode i = none) : RoundTrip.Statement i := by
  intro _ w l e
  rw [he] at e
  cases e

theorem pickRows0 :
    (∀ f l, selOk (.bra f l) = true → pick (brWord 0x01#7 f) l = .ok (.bra f l, true)) ∧
    (∀ f l, selOk (.call f l) = true → pick (luWord 0x02#7 f) l = .ok (.call f l, true)) ∧
    (∀ f, selOk (.retScalar f) = true → pick (trWord 0x03#7 f) none = .ok (.retScalar f, true)) ∧
    (∀ f, selOk (.retVector f) = true → pick (trWord 0x03#7 f) none = .ok (.retVector f, true)) ∧
    (∀ f, selOk (.loop f) = true → pick (riWord 0x04#7 f) none = .ok (.loop f, true)) ∧
    (∀ f, selOk (.wbase f) = true → pick (riWord 0x06#7 f) none = .ok (.wbase f, true)) ∧
    (∀ f e, selOk (.pkrdRec f e) = true → pick (trWord 0x10#7 f) (some e) = .ok (.pkrdRec f e, true)) ∧
    (∀ f e, selOk (.pkrdReg f e) = true → pick (trWord 0x10#7 f) (some e) = .ok (.pkrdReg f e, true)) := by
  refine ⟨?_, ?_, ?_, ?_, ?_, ?_, ?_, ?_⟩
  · intro f l h
    rw [pick, opOf_brWord, brOf_brWord]; rfl
  · intro f l h
    rw [pick, opOf_luWord, luOf_luWord]; rfl
  · intro f h
    simp only [selOk, decide_eq_true_eq] at h
    rw [pick, opOf_trWord, trOf_trWord, h]; rfl
  · intro f h
    simp only [selOk, decide_eq_true_eq] at h
    rw [pick, opOf_trWord, trOf_trWord, h]; rfl
  · intro f h
    rw [pick, opOf_riWord, riOf_riWord]; rfl
  · intro f h
    rw [pick, opOf_riWord, riOf_riWord]; rfl
  · intro f e h
    simp only [selOk, Bool.and_eq_true, decide_eq_true_eq] at h
    rw [pick, opOf_trWord, trOf_trWord, h.1, h.2]; rfl
  · intro f e h
    simp only [selOk, Bool.and_eq_true, decide_eq_true_eq] at h
    rw [pick, opOf_trWord, trOf_trWord, h.1, h.2]; rfl

theorem pickRows1 :
    (∀ f e, selOk (.pkrdRpl f e) = true → pick (trWord 0x10#7 f) (some e) = .ok (.pkrdRpl f e, true)) ∧
    (∀ f e, selOk (.pkwrRec f e) = true → pick (trWord 0x10#7 f) (some e) = .ok (.pkwrRec f e, true)) ∧
    (∀ f e, selOk (.pkwrReg f e) = true → pick (trWord 0x10#7 f) (some e) = .ok (.pkwrReg f e, true)) ∧
    (∀ f e, selOk (.pkwrRpl f e) = true → pick (trWord 0x10#7 f) (some e) = .ok (.pkwrRpl f e, true)) ∧
    (∀ f, selOk (.pkres f) = true → pick (trWord 0x10#7 f) none = .ok (.pkres f, true)) ∧
    (∀ f, selOk (.pkrty f) = true → pick (trWord 0x10#7 f) none = .ok (.pkrty f, true)) ∧
    (∀ f e, selOk (.pkdir f e) = true → pick (trWord 0x10#7 f) (some e) = .ok (.pkdir f e, true)) ∧
    (∀ f, selOk (.pkkil f) = true → pick (trWord 0x10#7 f) none = .ok (.pkkil f, true)) := by
  refine ⟨?_, ?_, ?_, ?_, ?_, ?_, ?_, ?_⟩
  · intro f e h
    simp only [selOk, Bool.and_eq_true, decide_eq_true_eq] at h
    rw [pick, opOf_trWord, trOf_trWord, h.1, h.2]; rfl
  · intro f e h
    simp only [selOk, Bool.and_eq_true, decide_eq_true_eq] at h
    rw [pick, opOf_trWord, trOf_trWord, h.1, h.2]; rfl
  · intro f e h
    simp only [selOk, Bool.and_eq_true, decide_eq_true_eq] at h
    rw [pick, opOf_trWord, trOf_trWord, h.1, h.2]; rfl
  · intro f e h
    simp only [selOk, Bool.and_eq_true, decide_eq_true_eq] at h
    rw [pick, opOf_trWord, trOf_trWord, h.1, h.2]; rfl
  · intro f h
    simp only [selOk, decide_eq_true_eq] at h
    rw [pick, opOf_trWord, trOf_trWord, h]; rfl
  · intro f h
    simp only [selOk, decide_eq_true_eq] at h
    rw [pick, opOf_trWord, trOf_trWord, h]; rfl
  · intro f e h
    simp only [selOk, decide_eq_true_eq] at h
    rw [pick, opOf_trWord, trOf_trWord, h]; rfl
  · intro f h
    simp only [selOk, decide_eq_true_eq] at h
    rw [pick, opOf_trWord, trOf_trWord, h]; rfl

theorem pickRows2 :
    (∀ f e, selOk (.ctopen f e) = true → pick (trWord 0x11#7 f) (some e) = .ok (.ctopen f e, true)) ∧
    (∀ f e, selOk (.srdGrp f e) = true → pick (trWord 0x12#7 f) (some e) = .ok (.srdGrp f e, true)) ∧
    (∀ f e, selOk (.swrGrp f e) = true → pick (trWord 0x12#7 f) (some e) = .ok (.swrGrp f e, true)) ∧
    (∀ f e, selOk (.srdSys f e) = true → pick (trWord 0x12#7 f) (some e) = .ok (.srdSys f e, true)) ∧
    (∀ f e, selOk (.swrSys f e) = true → pick (trWord 0x12#7 f) (some e) = .ok (.swrSys f e, true)) ∧
    (∀ f e, selOk (.srdSysB64 f e) = true → pick (trWord 0x12#7 f) (some e) = .ok (.srdSysB64 f e, true)) ∧
    (∀ f e, selOk (.swrSysB64 f e) = true → pick (trWord 0x12#7 f) (some e) = .ok (.swrSysB64 f e, true)) ∧
    (∀ f, selOk (.rdid f) = true → pick (trWord 0x12#7 f) none = .ok (.rdid f, true)) := by
  refine ⟨?_, ?_, ?_, ?_, ?_, ?_, ?_, ?_⟩
  · intro f e h
    simp only [selOk, decide_eq_true_eq] at h
    rw [pick, opOf_trWord, trOf_trWord, h]; rfl
  · intro f e h
    simp only [selOk, Bool.and_eq_true, decide_eq_true_eq] at h
    rw [pick, opOf_trWord, trOf_trWord, h.1, h.2]; rfl
  · intro f e h
    simp only [selOk, Bool.and_eq_true, decide_eq_true_eq] at h
    rw [pick, opOf_trWord, trOf_trWord, h.1, h.2]; rfl
  · intro f e h
    simp only [selOk, Bool.and_eq_true, decide_eq_true_eq] at h
    rw [pick, opOf_trWord, trOf_trWord, h.1, h.2]; rfl
  · intro f e h
    simp only [selOk, Bool.and_eq_true, decide_eq_true_eq] at h
    rw [pick, opOf_trWord, trOf_trWord, h.1, h.2]; rfl
  · intro f e h
    simp only [selOk, Bool.and_eq_true, decide_eq_true_eq] at h
    rw [pick, opOf_trWord, trOf_trWord, h.1, h.2]; rfl
  · intro f e h
    simp only [selOk, Bool.and_eq_true, decide_eq_true_eq] at h
    rw [pick, opOf_trWord, trOf_trWord, h.1, h.2]; rfl
  · intro f h
    simp only [selOk, decide_eq_true_eq] at h
    rw [pick, opOf_trWord, trOf_trWord, h]; rfl

theorem pickRows3 :
    (∀ f, selOk (.rdtime f) = true → pick (trWord 0x12#7 f) none = .ok (.rdtime f, true)) ∧
    (∀ f, selOk (.trap f) = true → pick (trWord 0x13#7 f) none = .ok (.trap f, true)) ∧
    (∀ f e, selOk (.pstop f e) = true → pick (trWord 0x14#7 f) (some e) = .ok (.pstop f e, true)) ∧
    (∀ f, selOk (.pmset f) = true → pick (trWord 0x14#7 f) none = .ok (.pmset f, true)) ∧
    (∀ f, selOk (.ftest f) = true → pick (trWord 0x15#7 f) none = .ok (.ftest f, true)) ∧
    (∀ f, selOk (.chkset f) = true → pick (trWord 0x15#7 f) none = .ok (.chkset f, true)) ∧
    (∀ f, selOk (.chksetRestore f) = true → pick (trWord 0x15#7 f) none = .ok (.chksetRestore f, true)) ∧
    (∀ f, selOk (.reggive f) = true → pick (trWord 0x16#7 f) none = .ok (.reggive f, true)) := by
  refine ⟨?_, ?_, ?_, ?_, ?_, ?_, ?_, ?_⟩
  · intro f h
    simp only [selOk, decide_eq_true_eq] at h
    rw [pick, opOf_trWord, trOf_trWord, h]; rfl
  · intro f h
    simp only [selOk, decide_eq_true_eq] at h
    rw [pick, opOf_trWord, trOf_trWord, h]; rfl
  · intro f e h
    simp only [selOk, decide_eq_true_eq] at h
    rw [pick, opOf_trWord, trOf_trWord, h]; rfl
  · intro f h
    simp only [selOk, decide_eq_true_eq] at h
    rw [pick, opOf_trWord, trOf_trWord, h]; rfl
  · intro f h
    simp only [selOk, decide_eq_true_eq] at h
    rw [pick, opOf_trWord, trOf_trWord, h]; rfl
  · intro f h
    simp only [selOk, Bool.and_eq_true, decide_eq_true_eq] at h
    rw [pick, opOf_trWord, trOf_trWord, h.1, h.2]; rfl
  · intro f h
    simp only [selOk, Bool.and_eq_true, decide_eq_true_eq] at h
    rw [pick, opOf_trWord, trOf_trWord, h.1, h.2]; rfl
  · intro f h
    simp only [selOk, decide_eq_true_eq] at h
    rw [pick, opOf_trWord, trOf_trWord, h]; rfl

theorem pickRows4 :
    (∀ f e, selOk (.reggiveLiteral f e) = true → pick (trWord 0x16#7 f) (some e) = .ok (.reggiveLiteral f e, true)) ∧
    (∀ f, selOk (.regclaim f) = true → pick (trWord 0x16#7 f) none = .ok (.regclaim f, true)) ∧
    (∀ f e, selOk (.regclaimLiteral f e) = true → pick (trWord 0x16#7 f) (some e) = .ok (.regclaimLiteral f e, true)) ∧
    (∀ f, selOk (.role f) = true → pick (trWord 0x16#7 f) none = .ok (.role f, true)) ∧
    (∀ f, selOk (.phpost f) = true → pick (trWord 0x16#7 f) none = .ok (.phpost f, true)) ∧
    (∀ f l, selOk (.iaddScalar f l) = true → pick (trWord 0x18#7 f) l = .ok (.iaddScalar f l, true)) ∧
    (∀ f l, selOk (.isubScalar f l) = true → pick (trWord 0x19#7 f) l = .ok (.isubScalar f l, true)) ∧
    (∀ f l, selOk (.imulScalar f l) = true → pick (trWord 0x1A#7 f) l = .ok (.imulScalar f l, true)) := by
  refine ⟨?_, ?_, ?_, ?_, ?_, ?_, ?_, ?_⟩
  · intro f e h
    simp only [selOk, decide_eq_true_eq] at h
    rw [pick, opOf_trWord, trOf_trWord, h]; rfl
  · intro f h
    simp only [selOk, decide_eq_true_eq] at h
    rw [pick, opOf_trWord, trOf_trWord, h]; rfl
  · intro f e h
    simp only [selOk, decide_eq_true_eq] at h
    rw [pick, opOf_trWord, trOf_trWord, h]; rfl
  · intro f h
    simp only [selOk, decide_eq_true_eq] at h
    rw [pick, opOf_trWord, trOf_trWord, h]; rfl
  · intro f h
    simp only [selOk, decide_eq_true_eq] at h
    rw [pick, opOf_trWord, trOf_trWord, h]; rfl
  · intro f l h
    rw [pick, opOf_trWord, trOf_trWord]; rfl
  · intro f l h
    rw [pick, opOf_trWord, trOf_trWord]; rfl
  · intro f l h
    rw [pick, opOf_trWord, trOf_trWord]; rfl

theorem pickRows5 :
    (∀ f l, selOk (.imulhScalar f l) = true → pick (trWord 0x1B#7 f) l = .ok (.imulhScalar f l, true)) ∧
    (∀ f l, selOk (.andScalar f l) = true → pick (trWord 0x1C#7 f) l = .ok (.andScalar f l, true)) ∧
    (∀ f l, selOk (.orScalar f l) = true → pick (trWord 0x1D#7 f) l = .ok (.orScalar f l, true)) ∧
    (∀ f l, selOk (.xorScalar f l) = true → pick (trWord 0x1E#7 f) l = .ok (.xorScalar f l, true)) ∧
    (∀ f l, selOk (.shlScalar f l) = true → pick (trWord 0x1F#7 f) l = .ok (.shlScalar f l, true)) ∧
    (∀ f l, selOk (.shrScalar f l) = true → pick (trWord 0x20#7 f) l = .ok (.shrScalar f l, true)) ∧
    (∀ f l, selOk (.iminScalar f l) = true → pick (trWord 0x21#7 f) l = .ok (.iminScalar f l, true)) ∧
    (∀ f l, selOk (.imaxScalar f l) = true → pick (trWord 0x21#7 f) l = .ok (.imaxScalar f l, true)) := by
  refine ⟨?_, ?_, ?_, ?_, ?_, ?_, ?_, ?_⟩
  · intro f l h
    rw [pick, opOf_trWord, trOf_trWord]; rfl
  · intro f l h
    rw [pick, opOf_trWord, trOf_trWord]; rfl
  · intro f l h
    rw [pick, opOf_trWord, trOf_trWord]; rfl
  · intro f l h
    rw [pick, opOf_trWord, trOf_trWord]; rfl
  · intro f l h
    rw [pick, opOf_trWord, trOf_trWord]; rfl
  · intro f l h
    rw [pick, opOf_trWord, trOf_trWord]; rfl
  · intro f l h
    simp only [selOk, decide_eq_true_eq] at h
    rw [pick, opOf_trWord, trOf_trWord, h]; rfl
  · intro f l h
    simp only [selOk, decide_eq_true_eq] at h
    rw [pick, opOf_trWord, trOf_trWord, h]; rfl

theorem pickRows6 :
    (∀ f, selOk (.bitsScalar f) = true → pick (trWord 0x22#7 f) none = .ok (.bitsScalar f, true)) ∧
    (∀ f l, selOk (.iaddScalarImm f l) = true → pick (riWord 0x23#7 f) l = .ok (.iaddScalarImm f l, true)) ∧
    (∀ f l, selOk (.andScalarImm f l) = true → pick (riWord 0x24#7 f) l = .ok (.andScalarImm f l, true)) ∧
    (∀ f l, selOk (.orScalarImm f l) = true → pick (riWord 0x25#7 f) l = .ok (.orScalarImm f l, true)) ∧
    (∀ f l, selOk (.xorScalarImm f l) = true → pick (riWord 0x26#7 f) l = .ok (.xorScalarImm f l, true)) ∧
    (∀ f, selOk (.shlScalarImm f) = true → pick (riWord 0x27#7 f) none = .ok (.shlScalarImm f, true)) ∧
    (∀ f, selOk (.shrScalarImm f) = true → pick (riWord 0x28#7 f) none = .ok (.shrScalarImm f, true)) ∧
    (∀ f, selOk (.iset f) = true → pick (riWord 0x29#7 f) none = .ok (.iset f, true)) := by
  refine ⟨?_, ?_, ?_, ?_, ?_, ?_, ?_, ?_⟩
  · intro f h
    rw [pick, opOf_trWord, trOf_trWord]; rfl
  · intro f l h
    rw [pick, opOf_riWord, riOf_riWord]; rfl
  · intro f l h
    rw [pick, opOf_riWord, riOf_riWord]; rfl
  · intro f l h
    rw [pick, opOf_riWord, riOf_riWord]; rfl
  · intro f l h
    rw [pick, opOf_riWord, riOf_riWord]; rfl
  · intro f h
    rw [pick, opOf_riWord, riOf_riWord]; rfl
  · intro f h
    rw [pick, opOf_riWord, riOf_riWord]; rfl
  · intro f h
    rw [pick, opOf_riWord, riOf_riWord]; rfl

theorem pickRows7 :
    (∀ f l, selOk (.movScalarImm f l) = true → pick (luWord 0x2A#7 f) l = .ok (.movScalarImm f l, true)) ∧
    (∀ f, selOk (.movScalar f) = true → pick (trWord 0x2B#7 f) none = .ok (.movScalar f, true)) ∧
    (∀ f l, selOk (.iaddVector f l) = true → pick (trWord 0x2C#7 f) l = .ok (.iaddVector f l, true)) ∧
    (∀ f l, selOk (.isubVector f l) = true → pick (trWord 0x2D#7 f) l = .ok (.isubVector f l, true)) ∧
    (∀ f l, selOk (.imulVector f l) = true → pick (trWord 0x2E#7 f) l = .ok (.imulVector f l, true)) ∧
    (∀ f l, selOk (.imulhVector f l) = true → pick (trWord 0x2F#7 f) l = .ok (.imulhVector f l, true)) ∧
    (∀ f l, selOk (.imad f l) = true → pick (trWord 0x30#7 f) l = .ok (.imad f l, true)) ∧
    (∀ f l, selOk (.andVector f l) = true → pick (trWord 0x31#7 f) l = .ok (.andVector f l, true)) := by
  refine ⟨?_, ?_, ?_, ?_, ?_, ?_, ?_, ?_⟩
  · intro f l h
    rw [pick, opOf_luWord, luOf_luWord]; rfl
  · intro f h
    rw [pick, opOf_trWord, trOf_trWord]; rfl
  · intro f l h
    rw [pick, opOf_trWord, trOf_trWord]; rfl
  · intro f l h
    rw [pick, opOf_trWord, trOf_trWord]; rfl
  · intro f l h
    rw [pick, opOf_trWord, trOf_trWord]; rfl
  · intro f l h
    rw [pick, opOf_trWord, trOf_trWord]; rfl
  · intro f l h
    rw [pick, opOf_trWord, trOf_trWord]; rfl
  · intro f l h
    rw [pick, opOf_trWord, trOf_trWord]; rfl

theorem pickRows8 :
    (∀ f l, selOk (.orVector f l) = true → pick (trWord 0x32#7 f) l = .ok (.orVector f l, true)) ∧
    (∀ f l, selOk (.xorVector f l) = true → pick (trWord 0x33#7 f) l = .ok (.xorVector f l, true)) ∧
    (∀ f l, selOk (.shlVector f l) = true → pick (trWord 0x34#7 f) l = .ok (.shlVector f l, true)) ∧
    (∀ f l, selOk (.shrVector f l) = true → pick (trWord 0x35#7 f) l = .ok (.shrVector f l, true)) ∧
    (∀ f l, selOk (.iminVector f l) = true → pick (trWord 0x36#7 f) l = .ok (.iminVector f l, true)) ∧
    (∀ f l, selOk (.imaxVector f l) = true → pick (trWord 0x37#7 f) l = .ok (.imaxVector f l, true)) ∧
    (∀ f l, selOk (.icmp f l) = true → pick (trWord 0x38#7 f) l = .ok (.icmp f l, true)) ∧
    (∀ f, selOk (.ineg f) = true → pick (trWord 0x39#7 f) none = .ok (.ineg f, true)) := by
  refine ⟨?_, ?_, ?_, ?_, ?_, ?_, ?_, ?_⟩
  · intro f l h
    rw [pick, opOf_trWord, trOf_trWord]; rfl
  · intro f l h
    rw [pick, opOf_trWord, trOf_trWord]; rfl
  · intro f l h
    rw [pick, opOf_trWord, trOf_trWord]; rfl
  · intro f l h
    rw [pick, opOf_trWord, trOf_trWord]; rfl
  · intro f l h
    rw [pick, opOf_trWord, trOf_trWord]; rfl
  · intro f l h
    rw [pick, opOf_trWord, trOf_trWord]; rfl
  · intro f l h
    rw [pick, opOf_trWord, trOf_trWord]; rfl
  · intro f h
    rw [pick, opOf_trWord, trOf_trWord]; rfl

theorem pickRows9 :
    (∀ f, selOk (.bitsVector f) = true → pick (trWord 0x3A#7 f) none = .ok (.bitsVector f, true)) ∧
    (∀ f, selOk (.cvti f) = true → pick (trWord 0x3B#7 f) none = .ok (.cvti f, true)) ∧
    (∀ f l, selOk (.iaddVectorImm f l) = true → pick (riWord 0x3C#7 f) l = .ok (.iaddVectorImm f l, true)) ∧
    (∀ f l, selOk (.andVectorImm f l) = true → pick (riWord 0x3D#7 f) l = .ok (.andVectorImm f l, true)) ∧
    (∀ f l, selOk (.orVectorImm f l) = true → pick (riWord 0x3E#7 f) l = .ok (.orVectorImm f l, true)) ∧
    (∀ f l, selOk (.xorVectorImm f l) = true → pick (riWord 0x3F#7 f) l = .ok (.xorVectorImm f l, true)) ∧
    (∀ f, selOk (.shlVectorImm f) = true → pick (riWord 0x40#7 f) none = .ok (.shlVectorImm f, true)) ∧
    (∀ f, selOk (.shrVectorImm f) = true → pick (riWord 0x41#7 f) none = .ok (.shrVectorImm f, true)) := by
  refine ⟨?_, ?_, ?_, ?_, ?_, ?_, ?_, ?_⟩
  · intro f h
    rw [pick, opOf_trWord, trOf_trWord]; rfl
  · intro f h
    rw [pick, opOf_trWord, trOf_trWord]; rfl
  · intro f l h
    rw [pick, opOf_riWord, riOf_riWord]; rfl
  · intro f l h
    rw [pick, opOf_riWord, riOf_riWord]; rfl
  · intro f l h
    rw [pick, opOf_riWord, riOf_riWord]; rfl
  · intro f l h
    rw [pick, opOf_riWord, riOf_riWord]; rfl
  · intro f h
    rw [pick, opOf_riWord, riOf_riWord]; rfl
  · intro f h
    rw [pick, opOf_riWord, riOf_riWord]; rfl

theorem pickRows10 :
    (∀ f l, selOk (.icmpImm f l) = true → pick (riWord 0x42#7 f) l = .ok (.icmpImm f l, true)) ∧
    (∀ f l, selOk (.isubVectorImm f l) = true → pick (riWord 0x43#7 f) l = .ok (.isubVectorImm f l, true)) ∧
    (∀ f l, selOk (.imulVectorImm f l) = true → pick (riWord 0x44#7 f) l = .ok (.imulVectorImm f l, true)) ∧
    (∀ f l, selOk (.movVectorImm f l) = true → pick (luWord 0x45#7 f) l = .ok (.movVectorImm f l, true)) ∧
    (∀ f, selOk (.movVector f) = true → pick (trWord 0x46#7 f) none = .ok (.movVector f, true)) ∧
    (∀ f, selOk (.movVectorBroadcast f) = true → pick (trWord 0x46#7 f) none = .ok (.movVectorBroadcast f, true)) ∧
    (∀ f, selOk (.movVectorB64 f) = true → pick (trWord 0x46#7 f) none = .ok (.movVectorB64 f, true)) ∧
    (∀ f l, selOk (.fadd f l) = true → pick (trWord 0x48#7 f) l = .ok (.fadd f l, true)) := by
  refine ⟨?_, ?_, ?_, ?_, ?_, ?_, ?_, ?_⟩
  · intro f l h
    rw [pick, opOf_riWord, riOf_riWord]; rfl
  · intro f l h
    rw [pick, opOf_riWord, riOf_riWord]; rfl
  · intro f l h
    rw [pick, opOf_riWord, riOf_riWord]; rfl
  · intro f l h
    rw [pick, opOf_luWord, luOf_luWord]; rfl
  · intro f h
    simp only [selOk, decide_eq_true_eq] at h
    rw [pick, opOf_trWord, trOf_trWord, h]; rfl
  · intro f h
    simp only [selOk, decide_eq_true_eq] at h
    rw [pick, opOf_trWord, trOf_trWord, h]; rfl
  · intro f h
    simp only [selOk, decide_eq_true_eq] at h
    rw [pick, opOf_trWord, trOf_trWord, h]; rfl
  · intro f l h
    rw [pick, opOf_trWord, trOf_trWord]; rfl

theorem pickRows11 :
    (∀ f l, selOk (.fsub f l) = true → pick (trWord 0x49#7 f) l = .ok (.fsub f l, true)) ∧
    (∀ f l, selOk (.fmul f l) = true → pick (trWord 0x4A#7 f) l = .ok (.fmul f l, true)) ∧
    (∀ f l, selOk (.ffma f l) = true → pick (trWord 0x4B#7 f) l = .ok (.ffma f l, true)) ∧
    (∀ f l, selOk (.fmin f l) = true → pick (trWord 0x4C#7 f) l = .ok (.fmin f l, true)) ∧
    (∀ f l, selOk (.fmax f l) = true → pick (trWord 0x4D#7 f) l = .ok (.fmax f l, true)) ∧
    (∀ f l, selOk (.fcmp f l) = true → pick (trWord 0x4E#7 f) l = .ok (.fcmp f l, true)) ∧
    (∀ f, selOk (.fneg f) = true → pick (trWord 0x4F#7 f) none = .ok (.fneg f, true)) ∧
    (∀ f, selOk (.frcp f) = true → pick (trWord 0x50#7 f) none = .ok (.frcp f, true)) := by
  refine ⟨?_, ?_, ?_, ?_, ?_, ?_, ?_, ?_⟩
  · intro f l h
    rw [pick, opOf_trWord, trOf_trWord]; rfl
  · intro f l h
    rw [pick, opOf_trWord, trOf_trWord]; rfl
  · intro f l h
    rw [pick, opOf_trWord, trOf_trWord]; rfl
  · intro f l h
    rw [pick, opOf_trWord, trOf_trWord]; rfl
  · intro f l h
    rw [pick, opOf_trWord, trOf_trWord]; rfl
  · intro f l h
    rw [pick, opOf_trWord, trOf_trWord]; rfl
  · intro f h
    rw [pick, opOf_trWord, trOf_trWord]; rfl
  · intro f h
    rw [pick, opOf_trWord, trOf_trWord]; rfl

theorem pickRows12 :
    (∀ f, selOk (.frsq f) = true → pick (trWord 0x51#7 f) none = .ok (.frsq f, true)) ∧
    (∀ f, selOk (.fexp2 f) = true → pick (trWord 0x52#7 f) none = .ok (.fexp2 f, true)) ∧
    (∀ f, selOk (.flog2 f) = true → pick (trWord 0x53#7 f) none = .ok (.flog2 f, true)) ∧
    (∀ f e, selOk (.cvt f e) = true → pick (trWord 0x54#7 f) (some e) = .ok (.cvt f e, true)) ∧
    (∀ f e, selOk (.pack f e) = true → pick (trWord 0x55#7 f) (some e) = .ok (.pack f e, true)) ∧
    (∀ f e, selOk (.unpack f e) = true → pick (trWord 0x56#7 f) (some e) = .ok (.unpack f e, true)) ∧
    (∀ f l, selOk (.fscale f l) = true → pick (trWord 0x57#7 f) l = .ok (.fscale f l, true)) ∧
    (∀ f l, selOk (.hadd2 f l) = true → pick (trWord 0x58#7 f) l = .ok (.hadd2 f l, true)) := by
  refine ⟨?_, ?_, ?_, ?_, ?_, ?_, ?_, ?_⟩
  · intro f h
    rw [pick, opOf_trWord, trOf_trWord]; rfl
  · intro f h
    rw [pick, opOf_trWord, trOf_trWord]; rfl
  · intro f h
    rw [pick, opOf_trWord, trOf_trWord]; rfl
  · intro f e h
    rw [pick, opOf_trWord, trOf_trWord]; rfl
  · intro f e h
    rw [pick, opOf_trWord, trOf_trWord]; rfl
  · intro f e h
    rw [pick, opOf_trWord, trOf_trWord]; rfl
  · intro f l h
    rw [pick, opOf_trWord, trOf_trWord]; rfl
  · intro f l h
    rw [pick, opOf_trWord, trOf_trWord]; rfl

theorem pickRows13 :
    (∀ f l, selOk (.hmul2 f l) = true → pick (trWord 0x59#7 f) l = .ok (.hmul2 f l, true)) ∧
    (∀ f l, selOk (.hfma2 f l) = true → pick (trWord 0x5A#7 f) l = .ok (.hfma2 f l, true)) ∧
    (∀ f, selOk (.fclass f) = true → pick (trWord 0x5B#7 f) none = .ok (.fclass f, true)) ∧
    (∀ f, selOk (.laneid f) = true → pick (trWord 0x60#7 f) none = .ok (.laneid f, true)) ∧
    (∀ f, selOk (.shfl f) = true → pick (trWord 0x61#7 f) none = .ok (.shfl f, true)) ∧
    (∀ f, selOk (.voteAll f) = true → pick (trWord 0x62#7 f) none = .ok (.voteAll f, true)) ∧
    (∀ f, selOk (.voteAny f) = true → pick (trWord 0x62#7 f) none = .ok (.voteAny f, true)) ∧
    (∀ f, selOk (.voteBallot f) = true → pick (trWord 0x62#7 f) none = .ok (.voteBallot f, true)) := by
  refine ⟨?_, ?_, ?_, ?_, ?_, ?_, ?_, ?_⟩
  · intro f l h
    rw [pick, opOf_trWord, trOf_trWord]; rfl
  · intro f l h
    rw [pick, opOf_trWord, trOf_trWord]; rfl
  · intro f h
    rw [pick, opOf_trWord, trOf_trWord]; rfl
  · intro f h
    rw [pick, opOf_trWord, trOf_trWord]; rfl
  · intro f h
    rw [pick, opOf_trWord, trOf_trWord]; rfl
  · intro f h
    simp only [selOk, decide_eq_true_eq] at h
    rw [pick, opOf_trWord, trOf_trWord, h]; rfl
  · intro f h
    simp only [selOk, decide_eq_true_eq] at h
    rw [pick, opOf_trWord, trOf_trWord, h]; rfl
  · intro f h
    simp only [selOk, decide_eq_true_eq] at h
    rw [pick, opOf_trWord, trOf_trWord, h]; rfl

theorem pickRows14 :
    (∀ f, selOk (.red f) = true → pick (trWord 0x63#7 f) none = .ok (.red f, true)) ∧
    (∀ f, selOk (.vreds f) = true → pick (trWord 0x64#7 f) none = .ok (.vreds f, true)) ∧
    (∀ f, selOk (.plop f) = true → pick (trWord 0x65#7 f) none = .ok (.plop f, true)) ∧
    (∀ f, selOk (.pmov f) = true → pick (trWord 0x66#7 f) none = .ok (.pmov f, true)) ∧
    (∀ f, selOk (.pmovNz f) = true → pick (trWord 0x66#7 f) none = .ok (.pmovNz f, true)) ∧
    (∀ f, selOk (.pmovBit f) = true → pick (trWord 0x66#7 f) none = .ok (.pmovBit f, true)) ∧
    (∀ f, selOk (.sredw f) = true → pick (trWord 0x67#7 f) none = .ok (.sredw f, true)) ∧
    (∀ f, selOk (.ld f) = true → pick (meWord 0x68#7 f) none = .ok (.ld f, true)) := by
  refine ⟨?_, ?_, ?_, ?_, ?_, ?_, ?_, ?_⟩
  · intro f h
    rw [pick, opOf_trWord, trOf_trWord]; rfl
  · intro f h
    rw [pick, opOf_trWord, trOf_trWord]; rfl
  · intro f h
    rw [pick, opOf_trWord, trOf_trWord]; rfl
  · intro f h
    simp only [selOk, decide_eq_true_eq] at h
    rw [pick, opOf_trWord, trOf_trWord, h]; rfl
  · intro f h
    simp only [selOk, decide_eq_true_eq] at h
    rw [pick, opOf_trWord, trOf_trWord, h]; rfl
  · intro f h
    simp only [selOk, decide_eq_true_eq] at h
    rw [pick, opOf_trWord, trOf_trWord, h]; rfl
  · intro f h
    rw [pick, opOf_trWord, trOf_trWord]; rfl
  · intro f h
    rw [pick, opOf_meWord, meOf_meWord]; rfl

theorem pickRows15 :
    (∀ f e, selOk (.ldExtended f e) = true → pick (meWord 0x68#7 f) (some e) = .ok (.ldExtended f e, true)) ∧
    (∀ f, selOk (.st f) = true → pick (meWord 0x69#7 f) none = .ok (.st f, true)) ∧
    (∀ f e, selOk (.stExtended f e) = true → pick (meWord 0x69#7 f) (some e) = .ok (.stExtended f e, true)) ∧
    (∀ f, selOk (.lds f) = true → pick (meWord 0x6A#7 f) none = .ok (.lds f, true)) ∧
    (∀ f e, selOk (.ldsExtended f e) = true → pick (meWord 0x6A#7 f) (some e) = .ok (.ldsExtended f e, true)) ∧
    (∀ f, selOk (.sts f) = true → pick (meWord 0x6B#7 f) none = .ok (.sts f, true)) ∧
    (∀ f e, selOk (.stsExtended f e) = true → pick (meWord 0x6B#7 f) (some e) = .ok (.stsExtended f e, true)) ∧
    (∀ f, selOk (.ldc f) = true → pick (meWord 0x6C#7 f) none = .ok (.ldc f, true)) := by
  refine ⟨?_, ?_, ?_, ?_, ?_, ?_, ?_, ?_⟩
  · intro f e h
    rw [pick, opOf_meWord, meOf_meWord]; rfl
  · intro f h
    rw [pick, opOf_meWord, meOf_meWord]; rfl
  · intro f e h
    rw [pick, opOf_meWord, meOf_meWord]; rfl
  · intro f h
    rw [pick, opOf_meWord, meOf_meWord]; rfl
  · intro f e h
    rw [pick, opOf_meWord, meOf_meWord]; rfl
  · intro f h
    rw [pick, opOf_meWord, meOf_meWord]; rfl
  · intro f e h
    rw [pick, opOf_meWord, meOf_meWord]; rfl
  · intro f h
    rw [pick, opOf_meWord, meOf_meWord]; rfl

theorem pickRows16 :
    (∀ f e, selOk (.ldcExtended f e) = true → pick (meWord 0x6C#7 f) (some e) = .ok (.ldcExtended f e, true)) ∧
    (∀ f, selOk (.ldws f) = true → pick (meWord 0x6D#7 f) none = .ok (.ldws f, true)) ∧
    (∀ f e, selOk (.ldwsExtended f e) = true → pick (meWord 0x6D#7 f) (some e) = .ok (.ldwsExtended f e, true)) ∧
    (∀ f, selOk (.pref f) = true → pick (meWord 0x6E#7 f) none = .ok (.pref f, true)) ∧
    (∀ f e, selOk (.prefExtended f e) = true → pick (meWord 0x6E#7 f) (some e) = .ok (.prefExtended f e, true)) ∧
    (∀ f e, selOk (.ldsp f e) = true → pick (trWord 0x6F#7 f) (some e) = .ok (.ldsp f e, true)) ∧
    (∀ f e, selOk (.atom f e) = true → pick (trWord 0x70#7 f) (some e) = .ok (.atom f e, true)) ∧
    (∀ f e, selOk (.atoms f e) = true → pick (trWord 0x71#7 f) (some e) = .ok (.atoms f e, true)) := by
  refine ⟨?_, ?_, ?_, ?_, ?_, ?_, ?_, ?_⟩
  · intro f e h
    rw [pick, opOf_meWord, meOf_meWord]; rfl
  · intro f h
    rw [pick, opOf_meWord, meOf_meWord]; rfl
  · intro f e h
    rw [pick, opOf_meWord, meOf_meWord]; rfl
  · intro f h
    rw [pick, opOf_meWord, meOf_meWord]; rfl
  · intro f e h
    rw [pick, opOf_meWord, meOf_meWord]; rfl
  · intro f e h
    rw [pick, opOf_trWord, trOf_trWord]; rfl
  · intro f e h
    rw [pick, opOf_trWord, trOf_trWord]; rfl
  · intro f e h
    rw [pick, opOf_trWord, trOf_trWord]; rfl

theorem pickRows17 :
    (∀ f, selOk (.fence f) = true → pick (trWord 0x72#7 f) none = .ok (.fence f, true)) ∧
    (∀ f, selOk (.waitsb f) = true → pick (luWord 0x73#7 f) none = .ok (.waitsb f, true)) ∧
    (∀ f, selOk (.binit f) = true → pick (riWord 0x74#7 f) none = .ok (.binit f, true)) ∧
    (∀ f e, selOk (.binitLiteral f e) = true → pick (riWord 0x74#7 f) (some e) = .ok (.binitLiteral f e, true)) ∧
    (∀ f, selOk (.barv f) = true → pick (trWord 0x75#7 f) none = .ok (.barv f, true)) ∧
    (∀ f, selOk (.bexp f) = true → pick (trWord 0x75#7 f) none = .ok (.bexp f, true)) ∧
    (∀ f e, selOk (.bexpLiteral f e) = true → pick (trWord 0x75#7 f) (some e) = .ok (.bexpLiteral f e, true)) ∧
    (∀ f, selOk (.bwait f) = true → pick (trWord 0x75#7 f) none = .ok (.bwait f, true)) := by
  refine ⟨?_, ?_, ?_, ?_, ?_, ?_, ?_, ?_⟩
  · intro f h
    rw [pick, opOf_trWord, trOf_trWord]; rfl
  · intro f h
    rw [pick, opOf_luWord, luOf_luWord]; rfl
  · intro f h
    rw [pick, opOf_riWord, riOf_riWord]; rfl
  · intro f e h
    rw [pick, opOf_riWord, riOf_riWord]; rfl
  · intro f h
    simp only [selOk, decide_eq_true_eq] at h
    rw [pick, opOf_trWord, trOf_trWord, h]; rfl
  · intro f h
    simp only [selOk, decide_eq_true_eq] at h
    rw [pick, opOf_trWord, trOf_trWord, h]; rfl
  · intro f e h
    simp only [selOk, decide_eq_true_eq] at h
    rw [pick, opOf_trWord, trOf_trWord, h]; rfl
  · intro f h
    simp only [selOk, decide_eq_true_eq] at h
    rw [pick, opOf_trWord, trOf_trWord, h]; rfl

theorem pickRows18 :
    (∀ f, selOk (.btest f) = true → pick (trWord 0x75#7 f) none = .ok (.btest f, true)) ∧
    (∀ f, selOk (.mbw f) = true → pick (trWord 0x76#7 f) none = .ok (.mbw f, true)) ∧
    (∀ f, selOk (.mbr f) = true → pick (trWord 0x76#7 f) none = .ok (.mbr f, true)) ∧
    (∀ f, selOk (.mbp f) = true → pick (trWord 0x76#7 f) none = .ok (.mbp f, true)) ∧
    (∀ f e, selOk (.cpsub f e) = true → pick (trWord 0x77#7 f) (some e) = .ok (.cpsub f e, true)) ∧
    (∀ f e, selOk (.cpwp f e) = true → pick (trWord 0x77#7 f) (some e) = .ok (.cpwp f e, true)) ∧
    (∀ f e, selOk (.cpwpRaw f e) = true → pick (trWord 0x77#7 f) (some e) = .ok (.cpwpRaw f e, true)) ∧
    (∀ f e, selOk (.cpwait f e) = true → pick (trWord 0x77#7 f) (some e) = .ok (.cpwait f e, true)) := by
  refine ⟨?_, ?_, ?_, ?_, ?_, ?_, ?_, ?_⟩
  · intro f h
    simp only [selOk, decide_eq_true_eq] at h
    rw [pick, opOf_trWord, trOf_trWord, h]; rfl
  · intro f h
    simp only [selOk, decide_eq_true_eq] at h
    rw [pick, opOf_trWord, trOf_trWord, h]; rfl
  · intro f h
    simp only [selOk, decide_eq_true_eq] at h
    rw [pick, opOf_trWord, trOf_trWord, h]; rfl
  · intro f h
    simp only [selOk, decide_eq_true_eq] at h
    rw [pick, opOf_trWord, trOf_trWord, h]; rfl
  · intro f e h
    simp only [selOk, decide_eq_true_eq] at h
    rw [pick, opOf_trWord, trOf_trWord, h]; rfl
  · intro f e h
    simp only [selOk, decide_eq_true_eq] at h
    rw [pick, opOf_trWord, trOf_trWord, h]; rfl
  · intro f e h
    simp only [selOk, decide_eq_true_eq] at h
    rw [pick, opOf_trWord, trOf_trWord, h]; rfl
  · intro f e h
    simp only [selOk, decide_eq_true_eq] at h
    rw [pick, opOf_trWord, trOf_trWord, h]; rfl

theorem pickRows19 :
    (∀ f e, selOk (.mma f e) = true → pick (trWord 0x78#7 f) (some e) = .ok (.mma f e, true)) ∧
    (∀ f e, selOk (.mmag f e) = true → pick (trWord 0x79#7 f) (some e) = .ok (.mmag f e, true)) ∧
    (∀ f e, selOk (.mmab f e) = true → pick (trWord 0x79#7 f) (some e) = .ok (.mmab f e, true)) ∧
    (∀ f e, selOk (.mdrn f e) = true → pick (trWord 0x7B#7 f) (some e) = .ok (.mdrn f e, true)) ∧
    (∀ f, selOk (.kdef f) = true → pick (trWord 0x7A#7 f) none = .ok (.kdef f, true)) ∧
    (∀ f, selOk (.macz f) = true → pick (trWord 0x7A#7 f) none = .ok (.macz f, true)) ∧
    (∀ f, selOk (.mwait f) = true → pick (trWord 0x7A#7 f) none = .ok (.mwait f, true)) ∧
    (∀ f, selOk (.tdef f) = true → pick (trWord 0x7C#7 f) none = .ok (.tdef f, true)) := by
  refine ⟨?_, ?_, ?_, ?_, ?_, ?_, ?_, ?_⟩
  · intro f e h
    simp only [selOk, decide_eq_true_eq] at h
    rw [pick, opOf_trWord, trOf_trWord, h]; rfl
  · intro f e h
    simp only [selOk, decide_eq_true_eq] at h
    rw [pick, opOf_trWord, trOf_trWord, h]; rfl
  · intro f e h
    simp only [selOk, decide_eq_true_eq] at h
    rw [pick, opOf_trWord, trOf_trWord, h]; rfl
  · intro f e h
    rw [pick, opOf_trWord, trOf_trWord]; rfl
  · intro f h
    simp only [selOk, decide_eq_true_eq] at h
    rw [pick, opOf_trWord, trOf_trWord, h]; rfl
  · intro f h
    simp only [selOk, decide_eq_true_eq] at h
    rw [pick, opOf_trWord, trOf_trWord, h]; rfl
  · intro f h
    simp only [selOk, decide_eq_true_eq] at h
    rw [pick, opOf_trWord, trOf_trWord, h]; rfl
  · intro f h
    simp only [selOk, decide_eq_true_eq] at h
    rw [pick, opOf_trWord, trOf_trWord, h]; rfl

theorem pickRows20 :
    (∀ f, selOk (.tqry f) = true → pick (trWord 0x7C#7 f) none = .ok (.tqry f, true)) ∧
    (∀ f, selOk (.binrun f) = true → pick (trWord 0x7C#7 f) none = .ok (.binrun f, true)) ∧
    (∀ f, selOk (.susp f) = true → pick (trWord 0x7D#7 f) none = .ok (.susp f, true)) ∧
    (∀ f, selOk (.wakeScalar f) = true → pick (trWord 0x7D#7 f) none = .ok (.wakeScalar f, true)) ∧
    (∀ f, selOk (.wakeVector f) = true → pick (trWord 0x7D#7 f) none = .ok (.wakeVector f, true)) ∧
    (∀ f e, selOk (.twakeq f e) = true → pick (trWord 0x7E#7 f) (some e) = .ok (.twakeq f e, true)) ∧
    (∀ f e, selOk (.tapply f e) = true → pick (trWord 0x7E#7 f) (some e) = .ok (.tapply f e, true)) := by
  refine ⟨?_, ?_, ?_, ?_, ?_, ?_, ?_⟩
  · intro f h
    simp only [selOk, decide_eq_true_eq] at h
    rw [pick, opOf_trWord, trOf_trWord, h]; rfl
  · intro f h
    simp only [selOk, decide_eq_true_eq] at h
    rw [pick, opOf_trWord, trOf_trWord, h]; rfl
  · intro f h
    simp only [selOk, decide_eq_true_eq] at h
    rw [pick, opOf_trWord, trOf_trWord, h]; rfl
  · intro f h
    simp only [selOk, decide_eq_true_eq] at h
    rw [pick, opOf_trWord, trOf_trWord, h]; rfl
  · intro f h
    simp only [selOk, decide_eq_true_eq] at h
    rw [pick, opOf_trWord, trOf_trWord, h]; rfl
  · intro f e h
    simp only [selOk, decide_eq_true_eq] at h
    rw [pick, opOf_trWord, trOf_trWord, h]; rfl
  · intro f e h
    simp only [selOk, decide_eq_true_eq] at h
    rw [pick, opOf_trWord, trOf_trWord, h]; rfl

theorem RoundTrip.nop : RoundTrip.Statement .nop := RoundTrip.of_pick rfl (fun _ => rfl)
theorem RoundTrip.bra f l : RoundTrip.Statement (.bra f l) := RoundTrip.of_pick rfl (pickRows0.1 f l)
theorem RoundTrip.call f l : RoundTrip.Statement (.call f l) := RoundTrip.of_pick rfl (pickRows0.2.1 f l)
theorem RoundTrip.retScalar f : RoundTrip.Statement (.retScalar f) := RoundTrip.of_pick rfl (pickRows0.2.2.1 f)
theorem RoundTrip.retVector f : RoundTrip.Statement (.retVector f) := RoundTrip.of_pick rfl (pickRows0.2.2.2.1 f)
theorem RoundTrip.loop f : RoundTrip.Statement (.loop f) := RoundTrip.of_pick rfl (pickRows0.2.2.2.2.1 f)
theorem RoundTrip.endl : RoundTrip.Statement .endl := RoundTrip.of_pick rfl (fun _ => rfl)
theorem RoundTrip.wbase f : RoundTrip.Statement (.wbase f) := RoundTrip.of_pick rfl (pickRows0.2.2.2.2.2.1 f)
theorem RoundTrip.exit : RoundTrip.Statement .exit := RoundTrip.of_pick rfl (fun _ => rfl)
theorem RoundTrip.pkrdRec f e : RoundTrip.Statement (.pkrdRec f e) := RoundTrip.of_pick rfl (pickRows0.2.2.2.2.2.2.1 f e)
theorem RoundTrip.pkrdReg f e : RoundTrip.Statement (.pkrdReg f e) := RoundTrip.of_pick rfl (pickRows0.2.2.2.2.2.2.2 f e)
theorem RoundTrip.pkrdRpl f e : RoundTrip.Statement (.pkrdRpl f e) := RoundTrip.of_pick rfl (pickRows1.1 f e)
theorem RoundTrip.pkwrRec f e : RoundTrip.Statement (.pkwrRec f e) := RoundTrip.of_pick rfl (pickRows1.2.1 f e)
theorem RoundTrip.pkwrReg f e : RoundTrip.Statement (.pkwrReg f e) := RoundTrip.of_pick rfl (pickRows1.2.2.1 f e)
theorem RoundTrip.pkwrRpl f e : RoundTrip.Statement (.pkwrRpl f e) := RoundTrip.of_pick rfl (pickRows1.2.2.2.1 f e)
theorem RoundTrip.pkres f : RoundTrip.Statement (.pkres f) := RoundTrip.of_pick rfl (pickRows1.2.2.2.2.1 f)
theorem RoundTrip.pkrty f : RoundTrip.Statement (.pkrty f) := RoundTrip.of_pick rfl (pickRows1.2.2.2.2.2.1 f)
theorem RoundTrip.pkdir f e : RoundTrip.Statement (.pkdir f e) := RoundTrip.of_pick rfl (pickRows1.2.2.2.2.2.2.1 f e)
theorem RoundTrip.pkkil f : RoundTrip.Statement (.pkkil f) := RoundTrip.of_pick rfl (pickRows1.2.2.2.2.2.2.2 f)
theorem RoundTrip.ctopen f e : RoundTrip.Statement (.ctopen f e) := RoundTrip.of_pick rfl (pickRows2.1 f e)
theorem RoundTrip.ctclose : RoundTrip.Statement .ctclose := RoundTrip.of_pick rfl (fun _ => rfl)
theorem RoundTrip.srdGrp f e : RoundTrip.Statement (.srdGrp f e) := RoundTrip.of_pick rfl (pickRows2.2.1 f e)
theorem RoundTrip.swrGrp f e : RoundTrip.Statement (.swrGrp f e) := RoundTrip.of_pick rfl (pickRows2.2.2.1 f e)
theorem RoundTrip.srdSys f e : RoundTrip.Statement (.srdSys f e) := RoundTrip.of_pick rfl (pickRows2.2.2.2.1 f e)
theorem RoundTrip.swrSys f e : RoundTrip.Statement (.swrSys f e) := RoundTrip.of_pick rfl (pickRows2.2.2.2.2.1 f e)
theorem RoundTrip.srdSysB64 f e : RoundTrip.Statement (.srdSysB64 f e) := RoundTrip.of_pick rfl (pickRows2.2.2.2.2.2.1 f e)
theorem RoundTrip.swrSysB64 f e : RoundTrip.Statement (.swrSysB64 f e) := RoundTrip.of_pick rfl (pickRows2.2.2.2.2.2.2.1 f e)
theorem RoundTrip.rdid f : RoundTrip.Statement (.rdid f) := RoundTrip.of_pick rfl (pickRows2.2.2.2.2.2.2.2 f)
theorem RoundTrip.rdtime f : RoundTrip.Statement (.rdtime f) := RoundTrip.of_pick rfl (pickRows3.1 f)
theorem RoundTrip.trap f : RoundTrip.Statement (.trap f) := RoundTrip.of_pick rfl (pickRows3.2.1 f)
theorem RoundTrip.pstop f e : RoundTrip.Statement (.pstop f e) := RoundTrip.of_pick rfl (pickRows3.2.2.1 f e)
theorem RoundTrip.pmset f : RoundTrip.Statement (.pmset f) := RoundTrip.of_pick rfl (pickRows3.2.2.2.1 f)
theorem RoundTrip.pmret : RoundTrip.Statement .pmret := RoundTrip.of_pick rfl (fun _ => rfl)
theorem RoundTrip.ftest f : RoundTrip.Statement (.ftest f) := RoundTrip.of_pick rfl (pickRows3.2.2.2.2.1 f)
theorem RoundTrip.chkset f : RoundTrip.Statement (.chkset f) := RoundTrip.of_pick rfl (pickRows3.2.2.2.2.2.1 f)
theorem RoundTrip.chksetRestore f : RoundTrip.Statement (.chksetRestore f) := RoundTrip.of_pick rfl (pickRows3.2.2.2.2.2.2.1 f)
theorem RoundTrip.reggive f : RoundTrip.Statement (.reggive f) := RoundTrip.of_pick rfl (pickRows3.2.2.2.2.2.2.2 f)
theorem RoundTrip.reggiveLiteral f e : RoundTrip.Statement (.reggiveLiteral f e) := RoundTrip.of_pick rfl (pickRows4.1 f e)
theorem RoundTrip.regclaim f : RoundTrip.Statement (.regclaim f) := RoundTrip.of_pick rfl (pickRows4.2.1 f)
theorem RoundTrip.regclaimLiteral f e : RoundTrip.Statement (.regclaimLiteral f e) := RoundTrip.of_pick rfl (pickRows4.2.2.1 f e)
theorem RoundTrip.role f : RoundTrip.Statement (.role f) := RoundTrip.of_pick rfl (pickRows4.2.2.2.1 f)
theorem RoundTrip.phpost f : RoundTrip.Statement (.phpost f) := RoundTrip.of_pick rfl (pickRows4.2.2.2.2.1 f)
theorem RoundTrip.iaddScalar f l : RoundTrip.Statement (.iaddScalar f l) := RoundTrip.of_pick rfl (pickRows4.2.2.2.2.2.1 f l)
theorem RoundTrip.isubScalar f l : RoundTrip.Statement (.isubScalar f l) := RoundTrip.of_pick rfl (pickRows4.2.2.2.2.2.2.1 f l)
theorem RoundTrip.imulScalar f l : RoundTrip.Statement (.imulScalar f l) := RoundTrip.of_pick rfl (pickRows4.2.2.2.2.2.2.2 f l)
theorem RoundTrip.imulhScalar f l : RoundTrip.Statement (.imulhScalar f l) := RoundTrip.of_pick rfl (pickRows5.1 f l)
theorem RoundTrip.andScalar f l : RoundTrip.Statement (.andScalar f l) := RoundTrip.of_pick rfl (pickRows5.2.1 f l)
theorem RoundTrip.orScalar f l : RoundTrip.Statement (.orScalar f l) := RoundTrip.of_pick rfl (pickRows5.2.2.1 f l)
theorem RoundTrip.xorScalar f l : RoundTrip.Statement (.xorScalar f l) := RoundTrip.of_pick rfl (pickRows5.2.2.2.1 f l)
theorem RoundTrip.shlScalar f l : RoundTrip.Statement (.shlScalar f l) := RoundTrip.of_pick rfl (pickRows5.2.2.2.2.1 f l)
theorem RoundTrip.shrScalar f l : RoundTrip.Statement (.shrScalar f l) := RoundTrip.of_pick rfl (pickRows5.2.2.2.2.2.1 f l)
theorem RoundTrip.iminScalar f l : RoundTrip.Statement (.iminScalar f l) := RoundTrip.of_pick rfl (pickRows5.2.2.2.2.2.2.1 f l)
theorem RoundTrip.imaxScalar f l : RoundTrip.Statement (.imaxScalar f l) := RoundTrip.of_pick rfl (pickRows5.2.2.2.2.2.2.2 f l)
theorem RoundTrip.bitsScalar f : RoundTrip.Statement (.bitsScalar f) := RoundTrip.of_pick rfl (pickRows6.1 f)
theorem RoundTrip.iaddScalarImm f l : RoundTrip.Statement (.iaddScalarImm f l) := RoundTrip.of_pick rfl (pickRows6.2.1 f l)
theorem RoundTrip.andScalarImm f l : RoundTrip.Statement (.andScalarImm f l) := RoundTrip.of_pick rfl (pickRows6.2.2.1 f l)
theorem RoundTrip.orScalarImm f l : RoundTrip.Statement (.orScalarImm f l) := RoundTrip.of_pick rfl (pickRows6.2.2.2.1 f l)
theorem RoundTrip.xorScalarImm f l : RoundTrip.Statement (.xorScalarImm f l) := RoundTrip.of_pick rfl (pickRows6.2.2.2.2.1 f l)
theorem RoundTrip.shlScalarImm f : RoundTrip.Statement (.shlScalarImm f) := RoundTrip.of_pick rfl (pickRows6.2.2.2.2.2.1 f)
theorem RoundTrip.shrScalarImm f : RoundTrip.Statement (.shrScalarImm f) := RoundTrip.of_pick rfl (pickRows6.2.2.2.2.2.2.1 f)
theorem RoundTrip.iset f : RoundTrip.Statement (.iset f) := RoundTrip.of_pick rfl (pickRows6.2.2.2.2.2.2.2 f)
theorem RoundTrip.movScalarImm f l : RoundTrip.Statement (.movScalarImm f l) := RoundTrip.of_pick rfl (pickRows7.1 f l)
theorem RoundTrip.movScalar f : RoundTrip.Statement (.movScalar f) := RoundTrip.of_pick rfl (pickRows7.2.1 f)
theorem RoundTrip.iaddVector f l : RoundTrip.Statement (.iaddVector f l) := RoundTrip.of_pick rfl (pickRows7.2.2.1 f l)
theorem RoundTrip.isubVector f l : RoundTrip.Statement (.isubVector f l) := RoundTrip.of_pick rfl (pickRows7.2.2.2.1 f l)
theorem RoundTrip.imulVector f l : RoundTrip.Statement (.imulVector f l) := RoundTrip.of_pick rfl (pickRows7.2.2.2.2.1 f l)
theorem RoundTrip.imulhVector f l : RoundTrip.Statement (.imulhVector f l) := RoundTrip.of_pick rfl (pickRows7.2.2.2.2.2.1 f l)
theorem RoundTrip.imad f l : RoundTrip.Statement (.imad f l) := RoundTrip.of_pick rfl (pickRows7.2.2.2.2.2.2.1 f l)
theorem RoundTrip.andVector f l : RoundTrip.Statement (.andVector f l) := RoundTrip.of_pick rfl (pickRows7.2.2.2.2.2.2.2 f l)
theorem RoundTrip.orVector f l : RoundTrip.Statement (.orVector f l) := RoundTrip.of_pick rfl (pickRows8.1 f l)
theorem RoundTrip.xorVector f l : RoundTrip.Statement (.xorVector f l) := RoundTrip.of_pick rfl (pickRows8.2.1 f l)
theorem RoundTrip.shlVector f l : RoundTrip.Statement (.shlVector f l) := RoundTrip.of_pick rfl (pickRows8.2.2.1 f l)
theorem RoundTrip.shrVector f l : RoundTrip.Statement (.shrVector f l) := RoundTrip.of_pick rfl (pickRows8.2.2.2.1 f l)
theorem RoundTrip.iminVector f l : RoundTrip.Statement (.iminVector f l) := RoundTrip.of_pick rfl (pickRows8.2.2.2.2.1 f l)
theorem RoundTrip.imaxVector f l : RoundTrip.Statement (.imaxVector f l) := RoundTrip.of_pick rfl (pickRows8.2.2.2.2.2.1 f l)
theorem RoundTrip.icmp f l : RoundTrip.Statement (.icmp f l) := RoundTrip.of_pick rfl (pickRows8.2.2.2.2.2.2.1 f l)
theorem RoundTrip.ineg f : RoundTrip.Statement (.ineg f) := RoundTrip.of_pick rfl (pickRows8.2.2.2.2.2.2.2 f)
theorem RoundTrip.bitsVector f : RoundTrip.Statement (.bitsVector f) := RoundTrip.of_pick rfl (pickRows9.1 f)
theorem RoundTrip.cvti f : RoundTrip.Statement (.cvti f) := RoundTrip.of_pick rfl (pickRows9.2.1 f)
theorem RoundTrip.iaddVectorImm f l : RoundTrip.Statement (.iaddVectorImm f l) := RoundTrip.of_pick rfl (pickRows9.2.2.1 f l)
theorem RoundTrip.andVectorImm f l : RoundTrip.Statement (.andVectorImm f l) := RoundTrip.of_pick rfl (pickRows9.2.2.2.1 f l)
theorem RoundTrip.orVectorImm f l : RoundTrip.Statement (.orVectorImm f l) := RoundTrip.of_pick rfl (pickRows9.2.2.2.2.1 f l)
theorem RoundTrip.xorVectorImm f l : RoundTrip.Statement (.xorVectorImm f l) := RoundTrip.of_pick rfl (pickRows9.2.2.2.2.2.1 f l)
theorem RoundTrip.shlVectorImm f : RoundTrip.Statement (.shlVectorImm f) := RoundTrip.of_pick rfl (pickRows9.2.2.2.2.2.2.1 f)
theorem RoundTrip.shrVectorImm f : RoundTrip.Statement (.shrVectorImm f) := RoundTrip.of_pick rfl (pickRows9.2.2.2.2.2.2.2 f)
theorem RoundTrip.icmpImm f l : RoundTrip.Statement (.icmpImm f l) := RoundTrip.of_pick rfl (pickRows10.1 f l)
theorem RoundTrip.isubVectorImm f l : RoundTrip.Statement (.isubVectorImm f l) := RoundTrip.of_pick rfl (pickRows10.2.1 f l)
theorem RoundTrip.imulVectorImm f l : RoundTrip.Statement (.imulVectorImm f l) := RoundTrip.of_pick rfl (pickRows10.2.2.1 f l)
theorem RoundTrip.movVectorImm f l : RoundTrip.Statement (.movVectorImm f l) := RoundTrip.of_pick rfl (pickRows10.2.2.2.1 f l)
theorem RoundTrip.movVector f : RoundTrip.Statement (.movVector f) := RoundTrip.of_pick rfl (pickRows10.2.2.2.2.1 f)
theorem RoundTrip.movVectorBroadcast f : RoundTrip.Statement (.movVectorBroadcast f) := RoundTrip.of_pick rfl (pickRows10.2.2.2.2.2.1 f)
theorem RoundTrip.movVectorB64 f : RoundTrip.Statement (.movVectorB64 f) := RoundTrip.of_pick rfl (pickRows10.2.2.2.2.2.2.1 f)
theorem RoundTrip.fadd f l : RoundTrip.Statement (.fadd f l) := RoundTrip.of_pick rfl (pickRows10.2.2.2.2.2.2.2 f l)
theorem RoundTrip.fsub f l : RoundTrip.Statement (.fsub f l) := RoundTrip.of_pick rfl (pickRows11.1 f l)
theorem RoundTrip.fmul f l : RoundTrip.Statement (.fmul f l) := RoundTrip.of_pick rfl (pickRows11.2.1 f l)
theorem RoundTrip.ffma f l : RoundTrip.Statement (.ffma f l) := RoundTrip.of_pick rfl (pickRows11.2.2.1 f l)
theorem RoundTrip.fmin f l : RoundTrip.Statement (.fmin f l) := RoundTrip.of_pick rfl (pickRows11.2.2.2.1 f l)
theorem RoundTrip.fmax f l : RoundTrip.Statement (.fmax f l) := RoundTrip.of_pick rfl (pickRows11.2.2.2.2.1 f l)
theorem RoundTrip.fcmp f l : RoundTrip.Statement (.fcmp f l) := RoundTrip.of_pick rfl (pickRows11.2.2.2.2.2.1 f l)
theorem RoundTrip.fneg f : RoundTrip.Statement (.fneg f) := RoundTrip.of_pick rfl (pickRows11.2.2.2.2.2.2.1 f)
theorem RoundTrip.frcp f : RoundTrip.Statement (.frcp f) := RoundTrip.of_pick rfl (pickRows11.2.2.2.2.2.2.2 f)
theorem RoundTrip.frsq f : RoundTrip.Statement (.frsq f) := RoundTrip.of_pick rfl (pickRows12.1 f)
theorem RoundTrip.fexp2 f : RoundTrip.Statement (.fexp2 f) := RoundTrip.of_pick rfl (pickRows12.2.1 f)
theorem RoundTrip.flog2 f : RoundTrip.Statement (.flog2 f) := RoundTrip.of_pick rfl (pickRows12.2.2.1 f)
theorem RoundTrip.cvt f e : RoundTrip.Statement (.cvt f e) := RoundTrip.of_pick rfl (pickRows12.2.2.2.1 f e)
theorem RoundTrip.pack f e : RoundTrip.Statement (.pack f e) := RoundTrip.of_pick rfl (pickRows12.2.2.2.2.1 f e)
theorem RoundTrip.unpack f e : RoundTrip.Statement (.unpack f e) := RoundTrip.of_pick rfl (pickRows12.2.2.2.2.2.1 f e)
theorem RoundTrip.fscale f l : RoundTrip.Statement (.fscale f l) := RoundTrip.of_pick rfl (pickRows12.2.2.2.2.2.2.1 f l)
theorem RoundTrip.hadd2 f l : RoundTrip.Statement (.hadd2 f l) := RoundTrip.of_pick rfl (pickRows12.2.2.2.2.2.2.2 f l)
theorem RoundTrip.hmul2 f l : RoundTrip.Statement (.hmul2 f l) := RoundTrip.of_pick rfl (pickRows13.1 f l)
theorem RoundTrip.hfma2 f l : RoundTrip.Statement (.hfma2 f l) := RoundTrip.of_pick rfl (pickRows13.2.1 f l)
theorem RoundTrip.fclass f : RoundTrip.Statement (.fclass f) := RoundTrip.of_pick rfl (pickRows13.2.2.1 f)
theorem RoundTrip.laneid f : RoundTrip.Statement (.laneid f) := RoundTrip.of_pick rfl (pickRows13.2.2.2.1 f)
theorem RoundTrip.shfl f : RoundTrip.Statement (.shfl f) := RoundTrip.of_pick rfl (pickRows13.2.2.2.2.1 f)
theorem RoundTrip.voteAll f : RoundTrip.Statement (.voteAll f) := RoundTrip.of_pick rfl (pickRows13.2.2.2.2.2.1 f)
theorem RoundTrip.voteAny f : RoundTrip.Statement (.voteAny f) := RoundTrip.of_pick rfl (pickRows13.2.2.2.2.2.2.1 f)
theorem RoundTrip.voteBallot f : RoundTrip.Statement (.voteBallot f) := RoundTrip.of_pick rfl (pickRows13.2.2.2.2.2.2.2 f)
theorem RoundTrip.red f : RoundTrip.Statement (.red f) := RoundTrip.of_pick rfl (pickRows14.1 f)
theorem RoundTrip.vreds f : RoundTrip.Statement (.vreds f) := RoundTrip.of_pick rfl (pickRows14.2.1 f)
theorem RoundTrip.plop f : RoundTrip.Statement (.plop f) := RoundTrip.of_pick rfl (pickRows14.2.2.1 f)
theorem RoundTrip.pmov f : RoundTrip.Statement (.pmov f) := RoundTrip.of_pick rfl (pickRows14.2.2.2.1 f)
theorem RoundTrip.pmovNz f : RoundTrip.Statement (.pmovNz f) := RoundTrip.of_pick rfl (pickRows14.2.2.2.2.1 f)
theorem RoundTrip.pmovBit f : RoundTrip.Statement (.pmovBit f) := RoundTrip.of_pick rfl (pickRows14.2.2.2.2.2.1 f)
theorem RoundTrip.sredw f : RoundTrip.Statement (.sredw f) := RoundTrip.of_pick rfl (pickRows14.2.2.2.2.2.2.1 f)
theorem RoundTrip.ld f : RoundTrip.Statement (.ld f) := RoundTrip.of_pick rfl (pickRows14.2.2.2.2.2.2.2 f)
theorem RoundTrip.ldExtended f e : RoundTrip.Statement (.ldExtended f e) := RoundTrip.of_pick rfl (pickRows15.1 f e)
theorem RoundTrip.st f : RoundTrip.Statement (.st f) := RoundTrip.of_pick rfl (pickRows15.2.1 f)
theorem RoundTrip.stExtended f e : RoundTrip.Statement (.stExtended f e) := RoundTrip.of_pick rfl (pickRows15.2.2.1 f e)
theorem RoundTrip.lds f : RoundTrip.Statement (.lds f) := RoundTrip.of_pick rfl (pickRows15.2.2.2.1 f)
theorem RoundTrip.ldsExtended f e : RoundTrip.Statement (.ldsExtended f e) := RoundTrip.of_pick rfl (pickRows15.2.2.2.2.1 f e)
theorem RoundTrip.sts f : RoundTrip.Statement (.sts f) := RoundTrip.of_pick rfl (pickRows15.2.2.2.2.2.1 f)
theorem RoundTrip.stsExtended f e : RoundTrip.Statement (.stsExtended f e) := RoundTrip.of_pick rfl (pickRows15.2.2.2.2.2.2.1 f e)
theorem RoundTrip.ldc f : RoundTrip.Statement (.ldc f) := RoundTrip.of_pick rfl (pickRows15.2.2.2.2.2.2.2 f)
theorem RoundTrip.ldcExtended f e : RoundTrip.Statement (.ldcExtended f e) := RoundTrip.of_pick rfl (pickRows16.1 f e)
theorem RoundTrip.ldws f : RoundTrip.Statement (.ldws f) := RoundTrip.of_pick rfl (pickRows16.2.1 f)
theorem RoundTrip.ldwsExtended f e : RoundTrip.Statement (.ldwsExtended f e) := RoundTrip.of_pick rfl (pickRows16.2.2.1 f e)
theorem RoundTrip.pref f : RoundTrip.Statement (.pref f) := RoundTrip.of_pick rfl (pickRows16.2.2.2.1 f)
theorem RoundTrip.prefExtended f e : RoundTrip.Statement (.prefExtended f e) := RoundTrip.of_pick rfl (pickRows16.2.2.2.2.1 f e)
theorem RoundTrip.ldsp f e : RoundTrip.Statement (.ldsp f e) := RoundTrip.of_pick rfl (pickRows16.2.2.2.2.2.1 f e)
theorem RoundTrip.atom f e : RoundTrip.Statement (.atom f e) := RoundTrip.of_pick rfl (pickRows16.2.2.2.2.2.2.1 f e)
theorem RoundTrip.atoms f e : RoundTrip.Statement (.atoms f e) := RoundTrip.of_pick rfl (pickRows16.2.2.2.2.2.2.2 f e)
theorem RoundTrip.fence f : RoundTrip.Statement (.fence f) := RoundTrip.of_pick rfl (pickRows17.1 f)
theorem RoundTrip.waitsb f : RoundTrip.Statement (.waitsb f) := RoundTrip.of_pick rfl (pickRows17.2.1 f)
theorem RoundTrip.binit f : RoundTrip.Statement (.binit f) := RoundTrip.of_pick rfl (pickRows17.2.2.1 f)
theorem RoundTrip.binitLiteral f e : RoundTrip.Statement (.binitLiteral f e) := RoundTrip.of_pick rfl (pickRows17.2.2.2.1 f e)
theorem RoundTrip.barv f : RoundTrip.Statement (.barv f) := RoundTrip.of_pick rfl (pickRows17.2.2.2.2.1 f)
theorem RoundTrip.bexp f : RoundTrip.Statement (.bexp f) := RoundTrip.of_pick rfl (pickRows17.2.2.2.2.2.1 f)
theorem RoundTrip.bexpLiteral f e : RoundTrip.Statement (.bexpLiteral f e) := RoundTrip.of_pick rfl (pickRows17.2.2.2.2.2.2.1 f e)
theorem RoundTrip.bwait f : RoundTrip.Statement (.bwait f) := RoundTrip.of_pick rfl (pickRows17.2.2.2.2.2.2.2 f)
theorem RoundTrip.btest f : RoundTrip.Statement (.btest f) := RoundTrip.of_pick rfl (pickRows18.1 f)
theorem RoundTrip.mbw f : RoundTrip.Statement (.mbw f) := RoundTrip.of_pick rfl (pickRows18.2.1 f)
theorem RoundTrip.mbr f : RoundTrip.Statement (.mbr f) := RoundTrip.of_pick rfl (pickRows18.2.2.1 f)
theorem RoundTrip.mbp f : RoundTrip.Statement (.mbp f) := RoundTrip.of_pick rfl (pickRows18.2.2.2.1 f)
theorem RoundTrip.cpsub f e : RoundTrip.Statement (.cpsub f e) := RoundTrip.of_pick rfl (pickRows18.2.2.2.2.1 f e)
theorem RoundTrip.cpwp f e : RoundTrip.Statement (.cpwp f e) := RoundTrip.of_pick rfl (pickRows18.2.2.2.2.2.1 f e)
theorem RoundTrip.cpwpRaw f e : RoundTrip.Statement (.cpwpRaw f e) := RoundTrip.of_pick rfl (pickRows18.2.2.2.2.2.2.1 f e)
theorem RoundTrip.cpwait f e : RoundTrip.Statement (.cpwait f e) := RoundTrip.of_pick rfl (pickRows18.2.2.2.2.2.2.2 f e)
theorem RoundTrip.mma f e : RoundTrip.Statement (.mma f e) := RoundTrip.of_pick rfl (pickRows19.1 f e)
theorem RoundTrip.mmag f e : RoundTrip.Statement (.mmag f e) := RoundTrip.of_pick rfl (pickRows19.2.1 f e)
theorem RoundTrip.mmab f e : RoundTrip.Statement (.mmab f e) := RoundTrip.of_pick rfl (pickRows19.2.2.1 f e)
theorem RoundTrip.mdrn f e : RoundTrip.Statement (.mdrn f e) := RoundTrip.of_pick rfl (pickRows19.2.2.2.1 f e)
theorem RoundTrip.kdef f : RoundTrip.Statement (.kdef f) := RoundTrip.of_pick rfl (pickRows19.2.2.2.2.1 f)
theorem RoundTrip.macz f : RoundTrip.Statement (.macz f) := RoundTrip.of_pick rfl (pickRows19.2.2.2.2.2.1 f)
theorem RoundTrip.mwait f : RoundTrip.Statement (.mwait f) := RoundTrip.of_pick rfl (pickRows19.2.2.2.2.2.2.1 f)
theorem RoundTrip.tdef f : RoundTrip.Statement (.tdef f) := RoundTrip.of_pick rfl (pickRows19.2.2.2.2.2.2.2 f)
theorem RoundTrip.tqry f : RoundTrip.Statement (.tqry f) := RoundTrip.of_pick rfl (pickRows20.1 f)
theorem RoundTrip.binrun f : RoundTrip.Statement (.binrun f) := RoundTrip.of_pick rfl (pickRows20.2.1 f)
theorem RoundTrip.susp f : RoundTrip.Statement (.susp f) := RoundTrip.of_pick rfl (pickRows20.2.2.1 f)
theorem RoundTrip.wakeScalar f : RoundTrip.Statement (.wakeScalar f) := RoundTrip.of_pick rfl (pickRows20.2.2.2.1 f)
theorem RoundTrip.wakeVector f : RoundTrip.Statement (.wakeVector f) := RoundTrip.of_pick rfl (pickRows20.2.2.2.2.1 f)
theorem RoundTrip.twakeq f e : RoundTrip.Statement (.twakeq f e) := RoundTrip.of_pick rfl (pickRows20.2.2.2.2.2.1 f e)
theorem RoundTrip.tapply f e : RoundTrip.Statement (.tapply f e) := RoundTrip.of_pick rfl (pickRows20.2.2.2.2.2.2 f e)
theorem RoundTrip.dumpWrite x0 : RoundTrip.Statement (.dumpWrite x0) := RoundTrip.of_step rfl
theorem RoundTrip.matchPointHit x0 : RoundTrip.Statement (.matchPointHit x0) := RoundTrip.of_step rfl
theorem RoundTrip.matchHandlerAbandon x0 : RoundTrip.Statement (.matchHandlerAbandon x0) := RoundTrip.of_step rfl
theorem RoundTrip.ftestComplete x0 : RoundTrip.Statement (.ftestComplete x0) := RoundTrip.of_step rfl
theorem RoundTrip.claimServe x0 : RoundTrip.Statement (.claimServe x0) := RoundTrip.of_step rfl
theorem RoundTrip.vredsComplete x0 : RoundTrip.Statement (.vredsComplete x0) := RoundTrip.of_step rfl
theorem RoundTrip.sredwReturn x0 : RoundTrip.Statement (.sredwReturn x0) := RoundTrip.of_step rfl
theorem RoundTrip.fenceComplete x0 : RoundTrip.Statement (.fenceComplete x0) := RoundTrip.of_step rfl
theorem RoundTrip.waitsbReturn x0 : RoundTrip.Statement (.waitsbReturn x0) := RoundTrip.of_step rfl
theorem RoundTrip.bwaitReturn x0 : RoundTrip.Statement (.bwaitReturn x0) := RoundTrip.of_step rfl
theorem RoundTrip.barrierBankOp x0 : RoundTrip.Statement (.barrierBankOp x0) := RoundTrip.of_step rfl
theorem RoundTrip.engineArrive x0 : RoundTrip.Statement (.engineArrive x0) := RoundTrip.of_step rfl
theorem RoundTrip.mailboxFill x0 : RoundTrip.Statement (.mailboxFill x0) := RoundTrip.of_step rfl
theorem RoundTrip.mailboxTake x0 : RoundTrip.Statement (.mailboxTake x0) := RoundTrip.of_step rfl
theorem RoundTrip.cpsubAdmit x0 : RoundTrip.Statement (.cpsubAdmit x0) := RoundTrip.of_step rfl
theorem RoundTrip.cpwaitReturn x0 : RoundTrip.Statement (.cpwaitReturn x0) := RoundTrip.of_step rfl
theorem RoundTrip.kdefComplete x0 : RoundTrip.Statement (.kdefComplete x0) := RoundTrip.of_step rfl
theorem RoundTrip.engineOpStart x0 : RoundTrip.Statement (.engineOpStart x0) := RoundTrip.of_step rfl
theorem RoundTrip.engineOpComplete x0 : RoundTrip.Statement (.engineOpComplete x0) := RoundTrip.of_step rfl
theorem RoundTrip.binGroupForm x0 x1 : RoundTrip.Statement (.binGroupForm x0 x1) := RoundTrip.of_step rfl
theorem RoundTrip.fixedWriteback x0 : RoundTrip.Statement (.fixedWriteback x0) := RoundTrip.of_step rfl
theorem RoundTrip.starvationGuard x0 : RoundTrip.Statement (.starvationGuard x0) := RoundTrip.of_step rfl
theorem RoundTrip.activeSetSwap x0 : RoundTrip.Statement (.activeSetSwap x0) := RoundTrip.of_step rfl
theorem RoundTrip.pendingAgeSwap x0 : RoundTrip.Statement (.pendingAgeSwap x0) := RoundTrip.of_step rfl
theorem RoundTrip.poolAllocServe x0 : RoundTrip.Statement (.poolAllocServe x0) := RoundTrip.of_step rfl
theorem RoundTrip.spillEvict x0 : RoundTrip.Statement (.spillEvict x0) := RoundTrip.of_step rfl
theorem RoundTrip.groupRefill x0 : RoundTrip.Statement (.groupRefill x0) := RoundTrip.of_step rfl
theorem RoundTrip.loadPerform x0 x1 : RoundTrip.Statement (.loadPerform x0 x1) := RoundTrip.of_step rfl
theorem RoundTrip.storeDrain x0 : RoundTrip.Statement (.storeDrain x0) := RoundTrip.of_step rfl
theorem RoundTrip.storePush x0 x1 : RoundTrip.Statement (.storePush x0 x1) := RoundTrip.of_step rfl
theorem RoundTrip.atomicPerform x0 x1 : RoundTrip.Statement (.atomicPerform x0 x1) := RoundTrip.of_step rfl
theorem RoundTrip.tlbWalkDone x0 : RoundTrip.Statement (.tlbWalkDone x0) := RoundTrip.of_step rfl
theorem RoundTrip.transferSegment x0 x1 : RoundTrip.Statement (.transferSegment x0 x1) := RoundTrip.of_step rfl
theorem RoundTrip.copySegment x0 x1 : RoundTrip.Statement (.copySegment x0 x1) := RoundTrip.of_step rfl
theorem RoundTrip.remoteWriteAck x0 x1 : RoundTrip.Statement (.remoteWriteAck x0 x1) := RoundTrip.of_step rfl
theorem RoundTrip.copyComplete x0 : RoundTrip.Statement (.copyComplete x0) := RoundTrip.of_step rfl
theorem RoundTrip.wsRefreshWindowEnd x0 x1 : RoundTrip.Statement (.wsRefreshWindowEnd x0 x1) := RoundTrip.of_step rfl
theorem RoundTrip.belfryWake x0 : RoundTrip.Statement (.belfryWake x0) := RoundTrip.of_step rfl
theorem RoundTrip.queuePoll x0 : RoundTrip.Statement (.queuePoll x0) := RoundTrip.of_step rfl
theorem RoundTrip.packetFetch x0 : RoundTrip.Statement (.packetFetch x0) := RoundTrip.of_step rfl
theorem RoundTrip.queueSliceExpire x0 : RoundTrip.Statement (.queueSliceExpire x0) := RoundTrip.of_step rfl
theorem RoundTrip.launchPacket x0 : RoundTrip.Statement (.launchPacket x0) := RoundTrip.of_step rfl
theorem RoundTrip.faultLaunch x0 : RoundTrip.Statement (.faultLaunch x0) := RoundTrip.of_step rfl
theorem RoundTrip.waitPacket x0 : RoundTrip.Statement (.waitPacket x0) := RoundTrip.of_step rfl
theorem RoundTrip.waitRecheck x0 : RoundTrip.Statement (.waitRecheck x0) := RoundTrip.of_step rfl
theorem RoundTrip.writePacket x0 : RoundTrip.Statement (.writePacket x0) := RoundTrip.of_step rfl
theorem RoundTrip.wrsigAdd x0 : RoundTrip.Statement (.wrsigAdd x0) := RoundTrip.of_step rfl
theorem RoundTrip.wrsigAppend x0 : RoundTrip.Statement (.wrsigAppend x0) := RoundTrip.of_step rfl
theorem RoundTrip.wrsigRetry x0 : RoundTrip.Statement (.wrsigRetry x0) := RoundTrip.of_step rfl
theorem RoundTrip.branchPacket x0 : RoundTrip.Statement (.branchPacket x0) := RoundTrip.of_step rfl
theorem RoundTrip.jumpPacket x0 : RoundTrip.Statement (.jumpPacket x0) := RoundTrip.of_step rfl
theorem RoundTrip.skipSlot x0 : RoundTrip.Statement (.skipSlot x0) := RoundTrip.of_step rfl
theorem RoundTrip.copyPacket x0 : RoundTrip.Statement (.copyPacket x0) := RoundTrip.of_step rfl
theorem RoundTrip.fencePacket x0 : RoundTrip.Statement (.fencePacket x0) := RoundTrip.of_step rfl
theorem RoundTrip.stamp x0 : RoundTrip.Statement (.stamp x0) := RoundTrip.of_step rfl
theorem RoundTrip.nopPacket x0 : RoundTrip.Statement (.nopPacket x0) := RoundTrip.of_step rfl
theorem RoundTrip.bundleRetire x0 : RoundTrip.Statement (.bundleRetire x0) := RoundTrip.of_step rfl
theorem RoundTrip.dispatchPlace x0 : RoundTrip.Statement (.dispatchPlace x0) := RoundTrip.of_step rfl
theorem RoundTrip.preemptHaltDone x0 : RoundTrip.Statement (.preemptHaltDone x0) := RoundTrip.of_step rfl
theorem RoundTrip.budgetTick : RoundTrip.Statement .budgetTick := RoundTrip.of_step rfl
theorem RoundTrip.serverReplenish x0 : RoundTrip.Statement (.serverReplenish x0) := RoundTrip.of_step rfl
theorem RoundTrip.usedWriteback x0 : RoundTrip.Statement (.usedWriteback x0) := RoundTrip.of_step rfl
theorem RoundTrip.parkedRecordWrite x0 : RoundTrip.Statement (.parkedRecordWrite x0) := RoundTrip.of_step rfl
theorem RoundTrip.deferredRecordForm x0 : RoundTrip.Statement (.deferredRecordForm x0) := RoundTrip.of_step rfl
theorem RoundTrip.faultTaskAppend x0 : RoundTrip.Statement (.faultTaskAppend x0) := RoundTrip.of_step rfl
theorem RoundTrip.pkRequestReceive x0 : RoundTrip.Statement (.pkRequestReceive x0) := RoundTrip.of_step rfl
theorem RoundTrip.traceSample : RoundTrip.Statement .traceSample := RoundTrip.of_step rfl
theorem RoundTrip.trctlWrite x0 : RoundTrip.Statement (.trctlWrite x0) := RoundTrip.of_step rfl
theorem RoundTrip.qregWrite x0 : RoundTrip.Statement (.qregWrite x0) := RoundTrip.of_step rfl
theorem RoundTrip.tlbinvWrite x0 : RoundTrip.Statement (.tlbinvWrite x0) := RoundTrip.of_step rfl
theorem RoundTrip.systemRegisterWrite x0 : RoundTrip.Statement (.systemRegisterWrite x0) := RoundTrip.of_step rfl
theorem RoundTrip.eccCorrected x0 x1 : RoundTrip.Statement (.eccCorrected x0 x1) := RoundTrip.of_step rfl
theorem RoundTrip.eccUncorrectable x0 x1 : RoundTrip.Statement (.eccUncorrectable x0 x1) := RoundTrip.of_step rfl
theorem RoundTrip.errbankStatusRead x0 x1 : RoundTrip.Statement (.errbankStatusRead x0 x1) := RoundTrip.of_step rfl
theorem RoundTrip.errbankStatusWrite x0 x1 : RoundTrip.Statement (.errbankStatusWrite x0 x1) := RoundTrip.of_step rfl
theorem RoundTrip.spireBankScan : RoundTrip.Statement .spireBankScan := RoundTrip.of_step rfl
theorem RoundTrip.frameReceive x0 x1 x2 : RoundTrip.Statement (.frameReceive x0 x1 x2) := RoundTrip.of_step rfl
theorem RoundTrip.remoteOpReceive x0 : RoundTrip.Statement (.remoteOpReceive x0) := RoundTrip.of_step rfl
theorem RoundTrip.keepaliveSend x0 : RoundTrip.Statement (.keepaliveSend x0) := RoundTrip.of_step rfl
theorem RoundTrip.keepaliveReceive x0 : RoundTrip.Statement (.keepaliveReceive x0) := RoundTrip.of_step rfl
theorem RoundTrip.keepaliveMiss x0 : RoundTrip.Statement (.keepaliveMiss x0) := RoundTrip.of_step rfl
theorem RoundTrip.physicalLinkLoss x0 : RoundTrip.Statement (.physicalLinkLoss x0) := RoundTrip.of_step rfl
theorem RoundTrip.linkStateUpdate x0 x1 : RoundTrip.Statement (.linkStateUpdate x0 x1) := RoundTrip.of_step rfl
theorem RoundTrip.drainRound1 : RoundTrip.Statement .drainRound1 := RoundTrip.of_step rfl
theorem RoundTrip.drainRound2 : RoundTrip.Statement .drainRound2 := RoundTrip.of_step rfl
theorem RoundTrip.drainRound3 : RoundTrip.Statement .drainRound3 := RoundTrip.of_step rfl
theorem RoundTrip.routeRecompute : RoundTrip.Statement .routeRecompute := RoundTrip.of_step rfl
theorem RoundTrip.ptpEventMessage x0 x1 : RoundTrip.Statement (.ptpEventMessage x0 x1) := RoundTrip.of_step rfl
theorem RoundTrip.powerOnBoot x0 : RoundTrip.Statement (.powerOnBoot x0) := RoundTrip.of_step rfl
theorem RoundTrip.bootLockTimeout : RoundTrip.Statement .bootLockTimeout := RoundTrip.of_step rfl
theorem RoundTrip.heartbeatMiss x0 : RoundTrip.Statement (.heartbeatMiss x0) := RoundTrip.of_step rfl
theorem RoundTrip.powerThermalFault : RoundTrip.Statement .powerThermalFault := RoundTrip.of_step rfl
theorem RoundTrip.powerThermalRecover : RoundTrip.Statement .powerThermalRecover := RoundTrip.of_step rfl
theorem RoundTrip.quote : RoundTrip.Statement .quote := RoundTrip.of_step rfl
theorem RoundTrip.logread : RoundTrip.Statement .logread := RoundTrip.of_step rfl
theorem RoundTrip.grantCommand : RoundTrip.Statement .grantCommand := RoundTrip.of_step rfl
theorem RoundTrip.resetCommand : RoundTrip.Statement .resetCommand := RoundTrip.of_step rfl
theorem RoundTrip.qclear : RoundTrip.Statement .qclear := RoundTrip.of_step rfl
theorem RoundTrip.margin : RoundTrip.Statement .margin := RoundTrip.of_step rfl
theorem RoundTrip.wmap : RoundTrip.Statement .wmap := RoundTrip.of_step rfl
theorem RoundTrip.mailboxCommandRefused : RoundTrip.Statement .mailboxCommandRefused := RoundTrip.of_step rfl
theorem RoundTrip.railStepWrite x0 x1 : RoundTrip.Statement (.railStepWrite x0 x1) := RoundTrip.of_step rfl
theorem RoundTrip.railSlewDone x0 : RoundTrip.Statement (.railSlewDone x0) := RoundTrip.of_step rfl
theorem RoundTrip.laneTapWrite x0 x1 : RoundTrip.Statement (.laneTapWrite x0 x1) := RoundTrip.of_step rfl
theorem RoundTrip.eyeScanStart x0 x1 : RoundTrip.Statement (.eyeScanStart x0 x1) := RoundTrip.of_step rfl
theorem RoundTrip.eyeScanDone x0 x1 : RoundTrip.Statement (.eyeScanDone x0 x1) := RoundTrip.of_step rfl
theorem RoundTrip.physicalLinkUp x0 : RoundTrip.Statement (.physicalLinkUp x0) := RoundTrip.of_step rfl
theorem RoundTrip.ptpHoldover : RoundTrip.Statement .ptpHoldover := RoundTrip.of_step rfl
theorem RoundTrip.dramTemperatureThreshold x0 x1 : RoundTrip.Statement (.dramTemperatureThreshold x0 x1) := RoundTrip.of_step rfl
theorem RoundTrip.remoteReadResponse x0 x1 : RoundTrip.Statement (.remoteReadResponse x0 x1) := RoundTrip.of_step rfl
theorem RoundTrip.securedContextOpen x0 : RoundTrip.Statement (.securedContextOpen x0) := RoundTrip.of_step rfl

end Sys2Proof.Laws
end

