-- ==== Sys2Proof/Laws/Waits.lean ====
section
/-! SUPPORT. What an instruction whose threads wait does at issue (R68, R81). -/
namespace Sys2Proof.Machine

theorem groupFrame_entered {g : Nat} {s t : State} (h : Entered g s t)
    (hw : ∀ l, l < 128 → ((t.group g).thread l).wb = ((s.group g).thread l).wb ∧
      ((t.group g).thread l).stack = ((s.group g).thread l).stack) : GroupFrame g [] s t :=
  groupFrame_of (.refl g [] s) (setAside_refl g s) h hw

/-- The active threads wait and all of the split's threads stand at the next instruction. -/
theorem waitFor_done {s : State} {is : Issue} {m : Member} (k : WaitKind) (mark : SbSlot) (at_ extra : Nat)
    (hg : (tget s.groups m.gid).isSome = true)
    (fresh : ∀ l, m.lanes.getLsbD l = true → ((s.group m.gid).thread l).replay = none) :
    WaitDone k extra s (s.waitFor is m k mark at_ extra).2 is m := by
  unfold State.waitFor
  simp only
  generalize hi : s.freshId.2.freshSeq.2 = i2
  have E2 : Entered m.gid s i2 := by
    rw [← hi]
    exact (entered_freshId m.gid s).trans (ended_freshSeq m.gid _).entered
  have ht2 : (i2.group m.gid).threads = (s.group m.gid).threads := by rw [← hi]; rfl
  have hg2 : (tget i2.groups m.gid).isSome = true := E2.there.trans hg
  have hfr2 : ∀ l, m.lanes.getLsbD l = true → ((i2.group m.gid).thread l).replay = none := fun l h => by
    rw [thread_of_threads ht2]; exact fresh l h
  generalize ha : i2.advance m.gid m.lanes is.next (i2.nextReady is extra) = a
  have Ea : Ended m.gid i2 a := by rw [← ha]; exact ended_advance i2 m.gid _ _ _
  have hpc : ∀ l, l < 128 → m.lanes.getLsbD l = true → ((a.group m.gid).thread l).pc = is.next ∧
      ((a.group m.gid).thread l).ready = s.clk.ac + 1 + is.stall + extra := fun l h1 h2 => by
    have := advance_thread i2 m.gid m.lanes is.next (i2.nextReady is extra) hg2 h1 h2 (hfr2 l h2)
    rw [ha] at this
    simpa only [State.nextReady, E2.clk] using this
  have hwa : ∀ l, l < 128 → ((a.group m.gid).thread l).wb = ((s.group m.gid).thread l).wb ∧
      ((a.group m.gid).thread l).stack = ((s.group m.gid).thread l).stack := fun l h1 => by
    have := advance_window i2 m.gid m.lanes is.next (i2.nextReady is extra) hfr2 h1
    rw [ha, thread_of_threads ht2] at this
    exact ⟨this.1, this.2.1⟩
  have hga : (tget a.groups m.gid).isSome = true := Ea.there.trans hg2
  generalize hc : a.setLanes m.gid m.act .waiting = c
  have hcg : c.group m.gid = (a.group m.gid).modThreads m.act (fun _ t => { t with st := .waiting }) := by
    rw [← hc]
    unfold State.setLanes
    rw [group_modGroup a m.gid m.gid _ hga, if_pos rfl]
  have Ec : Entered m.gid a c := by
    rw [← hc]
    refine entered_modGroup m.gid a _ (fun _ => rfl) (fun G l hl => ?_)
    rw [modThreads_thread _ _ _ hl]
    split <;> rfl
  have hth : ∀ l, l < 128 → ((c.group m.gid).thread l).pc = ((a.group m.gid).thread l).pc ∧
      ((c.group m.gid).thread l).ready = ((a.group m.gid).thread l).ready ∧
      ((c.group m.gid).thread l).wb = ((a.group m.gid).thread l).wb ∧
      ((c.group m.gid).thread l).stack = ((a.group m.gid).thread l).stack ∧
      (m.act.getLsbD l = true → ((c.group m.gid).thread l).st = .waiting) := fun l h1 => by
    rw [hcg, modThreads_thread _ _ _ h1]
    split
    · exact ⟨rfl, rfl, rfl, rfl, fun _ => rfl⟩
    · next h => exact ⟨rfl, rfl, rfl, rfl, fun h' => absurd h' h⟩
  generalize hw : Wait.mk _ _ _ _ _ _ _ _ _ = w
  generalize hd : ({ c with flight := { c.flight with waits := tput c.flight.waits s.freshId.1 w } } : State) = d
  have Ed : Entered m.gid c d := by rw [← hd]; exact entered_flight m.gid c _
  have hdw : tget d.flight.waits s.freshId.1 = some w := by rw [← hd]; exact tget_tput_self _ _ _
  have hdt : (d.group m.gid).threads = (c.group m.gid).threads := by rw [← hd]; rfl
  generalize hx : ({ mark with op := s.freshId.2.freshSeq.1, count := 1 } : SbSlot) = sb
  have hkt : ((d.markSlot m.gid (varSlot is) sb).group m.gid).threads = (c.group m.gid).threads := by
    rw [markSlot_threads, hdt]
  refine ⟨⟨s.freshId.1, w, ?_, ?_, ?_, ?_, ?_, ?_⟩, ?_, ?_, ?_⟩
  · rw [markSlot_flight]; exact hdw
  iterate 5 · subst hw; rfl
  · intro l h1 h2
    rw [thread_of_threads hkt]
    exact (hth l h1).2.2.2.2 h2
  · intro l h1 h2
    rw [thread_of_threads hkt, (hth l h1).1, (hth l h1).2.1]
    exact hpc l h1 h2
  · refine groupFrame_entered (((E2.trans Ea.entered).trans Ec).trans (Ed.trans (ended_markSlot d m.gid _ _).entered))
      (fun l h1 => ?_)
    rw [thread_of_threads hkt, (hth l h1).2.2.1, (hth l h1).2.2.2.1]
    exact hwa l h1

end Sys2Proof.Machine
end

