-- ==== Sys2Proof/Tests/Slice0.lean ====
section
/-! SUPPORT. Tests of the model: decodings of words written out from the tables of the spec, terms that WellFormed
refuses, for each obligation states and operands that meet what it assumes, and one-step results worked out by hand. -/

namespace Sys2Proof.Tests
open Sys2Proof Sys2Proof.Machine
set_option Elab.async false

/-- Words of the control opcodes by R70, R73, R74 and the entries. -/
theorem test_words_control :
    decodeWord 0b0000001_1111111111111111111111100#32 none = .ok (.bra ⟨33554428⟩ none) ∧
    decodeWord 0b0000010_0101000_000000000000000110#32 none = .ok (.call ⟨40, 6⟩ none) ∧
    decodeWord 0b0000011_0_0_00_0000000_0101000_0000000#32 none = .ok (.retScalar ⟨false, false, 0, 0, 40, 0⟩) ∧
    decodeWord 0b0000011_0_0_01_0000000_0101001_0000000#32 none = .ok (.retVector ⟨false, false, 1, 0, 41, 0⟩) ∧
    decodeWord 0b0000100_0_0000000_0000000_0001100000#32 none = .ok (.loop ⟨false, 0, 0, 96⟩) ∧
    decodeWord 0b0000101_0000000000000000000000000#32 none = .ok (.endl) ∧
    decodeWord 0b0000110_0_0000000_0000000_0110000000#32 none = .ok (.wbase ⟨false, 0, 0, 384⟩) ∧
    decodeWord 0b0000111_0000000000000000000000000#32 none = .ok (.exit) ∧
    decodeWord 0b0000000_0000000000000000000000000#32 none = .ok (.nop) :=
  ⟨rfl, rfl, rfl, rfl, rfl, rfl, rfl, rfl, rfl⟩

/-- Words of the system opcodes by R70, R73, R74 and the entries. -/
theorem test_words_system :
    decodeWord 0b0010000_0_0_00_0001001_0000100_0000000#32 (some 0x1e#32) = .ok (.pkrdRec ⟨false, false, 0, 9, 4, 0⟩ 0x1e) ∧
    decodeWord 0b0010000_0_0_01_0001001_0000100_0000000#32 (some 0x3ffff#32) = .ok (.pkrdReg ⟨false, false, 1, 9, 4, 0⟩ 0x3ffff) ∧
    decodeWord 0b0010000_0_0_10_0001001_0000100_0000001#32 (some 0xfe05#32) = .ok (.pkwrRpl ⟨false, false, 2, 9, 4, 1⟩ 0xfe05) ∧
    decodeWord 0b0010000_0_0_00_0000111_0000100_0000010#32 none = .ok (.pkres ⟨false, false, 0, 7, 4, 2⟩) ∧
    decodeWord 0b0010000_0_0_00_0000111_0000100_0000011#32 none = .ok (.pkrty ⟨false, false, 0, 7, 4, 3⟩) ∧
    decodeWord 0b0010000_0_0_01_0000111_0000100_0000100#32 (some 0x22#32) = .ok (.pkdir ⟨false, false, 1, 7, 4, 4⟩ 0x22) ∧
    decodeWord 0b0010000_0_0_00_0000111_0000100_0000101#32 none = .ok (.pkkil ⟨false, false, 0, 7, 4, 5⟩) ∧
    decodeWord 0b0010001_0_0_00_0000011_0000000_0000000#32 (some 0x5#32) = .ok (.ctopen ⟨false, false, 0, 3, 0, 0⟩ 0x5) ∧
    decodeWord 0b0010001_000000000000000000_0000001#32 none = .ok (.ctclose) ∧
    decodeWord 0b0010010_0_0_00_0000101_0000000_0000000#32 (some 0x1f#32) = .ok (.srdGrp ⟨false, false, 0, 5, 0, 0⟩ 0x1f) ∧
    decodeWord 0b0010010_0_0_01_0000101_0000000_0000001#32 (some 0x10100#32) = .ok (.swrSys ⟨false, false, 1, 5, 0, 1⟩ 0x10100) ∧
    decodeWord 0b0010010_0_0_10_0000110_0000000_0000000#32 (some 0x10008#32) = .ok (.srdSysB64 ⟨false, false, 2, 6, 0, 0⟩ 0x10008) ∧
    decodeWord 0b0010010_0_0_00_0000110_0000000_0000010#32 none = .ok (.rdid ⟨false, false, 0, 6, 0, 2⟩) ∧
    decodeWord 0b0010010_0_0_00_0000110_0000000_0000011#32 none = .ok (.rdtime ⟨false, false, 0, 6, 0, 3⟩) :=
  ⟨rfl, rfl, rfl, rfl, rfl, rfl, rfl, rfl, rfl, rfl, rfl, rfl, rfl, rfl⟩

/-- Words of the debug opcodes by R70, R73, R74 and the entries. -/
theorem test_words_debug :
    decodeWord 0b0010011_0_0_00_1111111_0000001_0000000#32 none = .ok (.trap ⟨false, false, 0, 127, 1, 0⟩) ∧
    decodeWord 0b0010100_0_0_00_0001000_0001010_0000000#32 (some 0x1100#32) = .ok (.pstop ⟨false, false, 0, 8, 10, 0⟩ 0x1100) ∧
    decodeWord 0b0010100_0_0_00_0011111_0001010_0000001#32 none = .ok (.pmset ⟨false, false, 0, 31, 10, 1⟩) ∧
    decodeWord 0b0010100_000000000000000000_0000010#32 none = .ok (.pmret) ∧
    decodeWord 0b0010101_0_0_00_0001001_0001000_0000000#32 none = .ok (.ftest ⟨false, false, 0, 9, 8, 0⟩) ∧
    decodeWord 0b0010101_0_0_00_0000000_0000011_0000001#32 none = .ok (.chkset ⟨false, false, 0, 0, 3, 1⟩) ∧
    decodeWord 0b0010101_0_0_01_0000000_0000011_0000001#32 none = .ok (.chksetRestore ⟨false, false, 1, 0, 3, 1⟩) :=
  ⟨rfl, rfl, rfl, rfl, rfl, rfl, rfl⟩

/-- Words of the allotment opcodes by R70, R73, R74 and the entries. -/
theorem test_words_allotment :
    decodeWord 0b0010110_0_0_00_0000000_0001100_0000000#32 none = .ok (.reggive ⟨false, false, 0, 0, 12, 0⟩) ∧
    decodeWord 0b0010110_0_0_00_0000000_0000000_0000000#32 (some 0x8#32) = .ok (.reggiveLiteral ⟨false, false, 0, 0, 0, 0⟩ 0x8) ∧
    decodeWord 0b0010110_0_0_00_0000000_0001100_0000001#32 none = .ok (.regclaim ⟨false, false, 0, 0, 12, 1⟩) ∧
    decodeWord 0b0010110_0_0_00_0000011_0001111_0000010#32 none = .ok (.role ⟨false, false, 0, 3, 15, 2⟩) ∧
    decodeWord 0b0010110_0_0_00_0000100_0000101_0000011#32 none = .ok (.phpost ⟨false, false, 0, 4, 5, 3⟩) :=
  ⟨rfl, rfl, rfl, rfl, rfl⟩

/-- Words of the scalarInteger opcodes by R70, R73, R74 and the entries. -/
theorem test_words_scalarInteger :
    decodeWord 0b0011000_0_0_10_0000011_0000100_0000101#32 none = .ok (.iaddScalar ⟨false, false, 2, 3, 4, 5⟩ none) ∧
    decodeWord 0b0100000_0_0_10_0000011_0000100_0000101#32 none = .ok (.shrScalar ⟨false, false, 2, 3, 4, 5⟩ none) ∧
    decodeWord 0b0100001_0_0_00_0000011_0000100_0000101#32 none = .ok (.iminScalar ⟨false, false, 0, 3, 4, 5⟩ none) ∧
    decodeWord 0b0100001_0_0_01_0000011_0000100_0000101#32 none = .ok (.imaxScalar ⟨false, false, 1, 3, 4, 5⟩ none) ∧
    decodeWord 0b0100011_0_0000011_0000100_1111111111#32 none = .ok (.iaddScalarImm ⟨false, 3, 4, 1023⟩ none) ∧
    decodeWord 0b0100111_0_0000011_0000100_0000011111#32 none = .ok (.shlScalarImm ⟨false, 3, 4, 31⟩) ∧
    decodeWord 0b0101001_0_0000011_0000100_1111111111#32 none = .ok (.iset ⟨false, 3, 4, 1023⟩) ∧
    decodeWord 0b0101010_0000011_111111111111111110#32 none = .ok (.movScalarImm ⟨3, 262142⟩ none) :=
  ⟨rfl, rfl, rfl, rfl, rfl, rfl, rfl, rfl⟩

/-- Words of the vectorInteger opcodes by R70, R73, R74 and the entries. -/
theorem test_words_vectorInteger :
    decodeWord 0b0101100_0_1_01_0000111_0000111_0001001#32 none = .ok (.iaddVector ⟨false, true, 1, 7, 7, 9⟩ none) ∧
    decodeWord 0b0110000_1_0_11_0000111_0001000_0001001#32 none = .ok (.imad ⟨true, false, 3, 7, 8, 9⟩ none) ∧
    decodeWord 0b0111000_0_0_00_1001110_0001000_0001001#32 none = .ok (.icmp ⟨false, false, 0, 78, 8, 9⟩ none) ∧
    decodeWord 0b0111001_0_0_00_0000111_0001000_0000001#32 none = .ok (.ineg ⟨false, false, 0, 7, 8, 1⟩) ∧
    decodeWord 0b0111001_0_0_00_0000111_0001000_0000000#32 (some 5#32) = .ok (.ineg ⟨false, false, 0, 7, 8, 0⟩) ∧
    decodeWord 0b1000010_0_0100001_0000000_0000000000#32 none = .ok (.icmpImm ⟨false, 33, 0, 0⟩ none) ∧
    decodeWord 0b1000011_0_0000111_0001000_0000000000#32 (some 0xffffffff#32) = .ok (.isubVectorImm ⟨false, 7, 8, 0⟩ (some 0xffffffff)) ∧
    decodeWord 0b1000101_0000101_000000000000000000#32 (some 0x12345678#32) = .ok (.movVectorImm ⟨5, 0⟩ (some 0x12345678)) ∧
    decodeWord 0b1000110_0_0_01_0000101_0000110_0000000#32 none = .ok (.movVectorBroadcast ⟨false, false, 1, 5, 6, 0⟩) :=
  ⟨rfl, rfl, rfl, rfl, rfl, rfl, rfl, rfl, rfl⟩

/-- Words of the floatingPoint opcodes by R70, R73, R74 and the entries. -/
theorem test_words_floatingPoint :
    decodeWord 0b1001000_0_0_00_0000001_0000010_0000011#32 none = .ok (.fadd ⟨false, false, 0, 1, 2, 3⟩ none) ∧
    decodeWord 0b1001011_1_1_10_0000001_0000010_0000011#32 none = .ok (.ffma ⟨true, true, 2, 1, 2, 3⟩ none) ∧
    decodeWord 0b1001110_0_0_00_0111010_0000010_0000011#32 none = .ok (.fcmp ⟨false, false, 0, 58, 2, 3⟩ none) ∧
    decodeWord 0b1010011_0_0_00_0000001_0000010_0000000#32 none = .ok (.flog2 ⟨false, false, 0, 1, 2, 0⟩) ∧
    decodeWord 0b1010111_0_0_00_0000001_0000010_0000011#32 none = .ok (.fscale ⟨false, false, 0, 1, 2, 3⟩ none) ∧
    decodeWord 0b1011010_0_0_01_0000001_0000010_0000011#32 none = .ok (.hfma2 ⟨false, false, 1, 1, 2, 3⟩ none) ∧
    decodeWord 0b1011011_0_0_00_0000001_0000010_0000000#32 none = .ok (.fclass ⟨false, false, 0, 1, 2, 0⟩) :=
  ⟨rfl, rfl, rfl, rfl, rfl, rfl, rfl⟩

/-- Words of the conversion opcodes by R70, R73, R74 and the entries. -/
theorem test_words_conversion :
    decodeWord 0b1010100_0_0_00_0000011_0000010_0000000#32 (some 0x430#32) = .ok (.cvt ⟨false, false, 0, 3, 2, 0⟩ 0x430) ∧
    decodeWord 0b1010101_0_0_00_0000011_0000010_0000000#32 (some 0x30#32) = .ok (.pack ⟨false, false, 0, 3, 2, 0⟩ 0x30) ∧
    decodeWord 0b1010110_0_0_00_0000011_0000010_0000000#32 (some 0x3#32) = .ok (.unpack ⟨false, false, 0, 3, 2, 0⟩ 0x3) :=
  ⟨rfl, rfl, rfl⟩

/-- Words of the lanes opcodes by R70, R73, R74 and the entries. -/
theorem test_words_lanes :
    decodeWord 0b1100000_0_0_00_0001001_0000000_0000000#32 none = .ok (.laneid ⟨false, false, 0, 9, 0, 0⟩) ∧
    decodeWord 0b1100001_0_0_11_0001001_0001000_0000111#32 none = .ok (.shfl ⟨false, false, 3, 9, 8, 7⟩) ∧
    decodeWord 0b1100010_0_0_10_0001000_0000011_0000000#32 none = .ok (.voteBallot ⟨false, false, 2, 8, 3, 0⟩) ∧
    decodeWord 0b1100011_0_0_01_0001001_0001000_0000010#32 none = .ok (.red ⟨false, false, 1, 9, 8, 2⟩) ∧
    decodeWord 0b1100100_0_0_00_0000000_0001000_0000011#32 none = .ok (.vreds ⟨false, false, 0, 0, 8, 3⟩) ∧
    decodeWord 0b1100101_0_0_10_0000001_0000010_0000011#32 none = .ok (.plop ⟨false, false, 2, 1, 2, 3⟩) ∧
    decodeWord 0b1100110_0_0_10_0000001_0000100_0000000#32 none = .ok (.pmovBit ⟨false, false, 2, 1, 4, 0⟩) ∧
    decodeWord 0b1100111_0_0_00_0000010_0000100_0000000#32 none = .ok (.sredw ⟨false, false, 0, 2, 4, 0⟩) :=
  ⟨rfl, rfl, rfl, rfl, rfl, rfl, rfl, rfl⟩

/-- Words of the memory opcodes by R70, R73, R74 and the entries. -/
theorem test_words_memory :
    decodeWord 0b1101000_0_0_11_0000101_0000110_0000111#32 none = .ok (.ld ⟨false, false, 3, 5, 6, 7⟩) ∧
    decodeWord 0b1101001_0_1_00_0000101_0000110_0000000#32 (some 0xffffff12#32) = .ok (.stExtended ⟨false, true, 0, 5, 6, 0⟩ 0xffffff12) ∧
    decodeWord 0b1101010_0_1_10_0000101_0000110_1000000#32 none = .ok (.lds ⟨false, true, 2, 5, 6, 64⟩) ∧
    decodeWord 0b1101011_0_0_10_0000101_0000110_0000111#32 (some 0xb#32) = .ok (.stsExtended ⟨false, false, 2, 5, 6, 7⟩ 0xb) ∧
    decodeWord 0b1101100_0_0_10_0000101_0000110_0000111#32 none = .ok (.ldc ⟨false, false, 2, 5, 6, 7⟩) ∧
    decodeWord 0b1101101_0_0_10_0000101_0000110_0000111#32 (some 0x6#32) = .ok (.ldwsExtended ⟨false, false, 2, 5, 6, 7⟩ 0x6) ∧
    decodeWord 0b1101110_0_0_10_0000010_0000110_0000111#32 none = .ok (.pref ⟨false, false, 2, 2, 6, 7⟩) ∧
    decodeWord 0b1101111_0_0_00_0000101_0000110_0000111#32 (some 0xf#32) = .ok (.ldsp ⟨false, false, 0, 5, 6, 7⟩ 0xf) :=
  ⟨rfl, rfl, rfl, rfl, rfl, rfl, rfl, rfl⟩

/-- Words of the atomics opcodes by R70, R73, R74 and the entries. -/
theorem test_words_atomics :
    decodeWord 0b1110000_0_0_00_0000101_0000110_0000111#32 (some 0xa#32) = .ok (.atom ⟨false, false, 0, 5, 6, 7⟩ 0xa) ∧
    decodeWord 0b1110001_0_0_00_0000101_0000110_0000111#32 (some 0xcb#32) = .ok (.atoms ⟨false, false, 0, 5, 6, 7⟩ 0xcb) ∧
    decodeWord 0b1110010_0_0_00_0000000_0000000_0011110#32 none = .ok (.fence ⟨false, false, 0, 0, 0, 30⟩) ∧
    decodeWord 0b1110011_0000000_000000000011111110#32 none = .ok (.waitsb ⟨0, 254⟩) :=
  ⟨rfl, rfl, rfl, rfl⟩

/-- Words of the barriers opcodes by R70, R73, R74 and the entries. -/
theorem test_words_barriers :
    decodeWord 0b1110100_0_0001111_0000000_1111111111#32 none = .ok (.binit ⟨false, 15, 0, 1023⟩) ∧
    decodeWord 0b1110101_0_0_00_0000000_0001111_0000000#32 none = .ok (.barv ⟨false, false, 0, 0, 15, 0⟩) ∧
    decodeWord 0b1110101_0_0_01_0000000_0001111_0000000#32 (some 0x80000000#32) = .ok (.bexpLiteral ⟨false, false, 1, 0, 15, 0⟩ 0x80000000) ∧
    decodeWord 0b1110101_0_0_10_0000000_0001111_0000000#32 none = .ok (.bwait ⟨false, false, 2, 0, 15, 0⟩) ∧
    decodeWord 0b1110101_0_0_11_0000110_0001111_0000000#32 none = .ok (.btest ⟨false, false, 3, 6, 15, 0⟩) ∧
    decodeWord 0b1110110_0_0_00_0000001_0000101_0001111#32 none = .ok (.mbw ⟨false, false, 0, 1, 5, 15⟩) ∧
    decodeWord 0b1110110_0_0_01_0000101_0000001_0001111#32 none = .ok (.mbr ⟨false, false, 1, 5, 1, 15⟩) ∧
    decodeWord 0b1110110_0_0_10_0000101_0000000_0000011#32 none = .ok (.mbp ⟨false, false, 2, 5, 0, 3⟩) :=
  ⟨rfl, rfl, rfl, rfl, rfl, rfl, rfl, rfl⟩

/-- Words of the copies opcodes by R70, R73, R74 and the entries. -/
theorem test_words_copies :
    decodeWord 0b1110111_0_0_00_0000101_0000110_0000000#32 (some 0x7ffffff#32) = .ok (.cpsub ⟨false, false, 0, 5, 6, 0⟩ 0x7ffffff) ∧
    decodeWord 0b1110111_0_0_01_0000101_0000110_0000000#32 (some 0x0#32) = .ok (.cpwp ⟨false, false, 1, 5, 6, 0⟩ 0x0) ∧
    decodeWord 0b1110111_0_0_10_0000101_0000110_0000000#32 (some 0x0#32) = .ok (.cpwait ⟨false, false, 2, 5, 6, 0⟩ 0x0) ∧
    decodeWord 0b1110111_0_0_11_0000101_0000110_0000000#32 (some 0x0#32) = .ok (.cpwpRaw ⟨false, false, 3, 5, 6, 0⟩ 0x0) :=
  ⟨rfl, rfl, rfl, rfl⟩

/-- Words of the matrix opcodes by R70, R73, R74 and the entries. -/
theorem test_words_matrix :
    decodeWord 0b1111000_0_0_00_0000001_0000010_0000011#32 (some 0x10#32) = .ok (.mma ⟨false, false, 0, 1, 2, 3⟩ 0x10) ∧
    decodeWord 0b1111001_0_0_00_0000001_0000010_0000011#32 (some 0x30000010#32) = .ok (.mmag ⟨false, false, 0, 1, 2, 3⟩ 0x30000010) ∧
    decodeWord 0b1111001_0_0_01_0000001_0000011_0000011#32 (some 0x20#32) = .ok (.mmab ⟨false, false, 1, 1, 3, 3⟩ 0x20) ∧
    decodeWord 0b1111010_0_0_00_0001111_0000000_0000100#32 none = .ok (.kdef ⟨false, false, 0, 15, 0, 4⟩) ∧
    decodeWord 0b1111010_0_0_01_0000001_0000000_0000000#32 none = .ok (.macz ⟨false, false, 1, 1, 0, 0⟩) ∧
    decodeWord 0b1111010_0_0_10_0000001_0000000_0000000#32 none = .ok (.mwait ⟨false, false, 2, 1, 0, 0⟩) ∧
    decodeWord 0b1111011_0_0_01_0000001_0000010_0000000#32 (some 0x30#32) = .ok (.mdrn ⟨false, false, 1, 1, 2, 0⟩ 0x30) :=
  ⟨rfl, rfl, rfl, rfl, rfl, rfl, rfl⟩

/-- Words of the tiles opcodes by R70, R73, R74 and the entries. -/
theorem test_words_tiles :
    decodeWord 0b1111100_0_0_00_0000000_0001111_0000100#32 none = .ok (.tdef ⟨false, false, 0, 0, 15, 4⟩) ∧
    decodeWord 0b1111100_0_0_01_0000001_0001111_0000011#32 none = .ok (.tqry ⟨false, false, 1, 1, 15, 3⟩) ∧
    decodeWord 0b1111100_0_0_10_0000000_0001111_0000000#32 none = .ok (.binrun ⟨false, false, 2, 0, 15, 0⟩) ∧
    decodeWord 0b1111101_0_0_00_0000010_0001111_0000000#32 none = .ok (.susp ⟨false, false, 0, 2, 15, 0⟩) ∧
    decodeWord 0b1111101_0_0_01_0000000_0001111_0000011#32 none = .ok (.wakeScalar ⟨false, false, 1, 0, 15, 3⟩) ∧
    decodeWord 0b1111101_0_1_10_0000000_0001111_0000011#32 none = .ok (.wakeVector ⟨false, true, 2, 0, 15, 3⟩) ∧
    decodeWord 0b1111110_0_0_00_0000000_0001111_0000011#32 (some 0xff#32) = .ok (.twakeq ⟨false, false, 0, 0, 15, 3⟩ 0xff) ∧
    decodeWord 0b1111110_0_0_01_0000000_0001111_0000011#32 (some 0x160#32) = .ok (.tapply ⟨false, false, 1, 0, 15, 3⟩ 0x160) :=
  ⟨rfl, rfl, rfl, rfl, rfl, rfl, rfl, rfl⟩

/-- The TR word of R70 in short form, for the tests below. -/
def tr (m : BitVec 2) (d a b : BitVec 7) : TR := ⟨false, false, m, d, a, b⟩
/-- Whether every term is ill formed, and the check that refuses it is the one named. -/
def refuses (e : DecodeError) (l : List Instr) : Bool := l.all (fun i => !i.wf && decide (check i true = some e))

/-- Reserved sub-operations of the first word (R77 and the entries): each is refused as SUBOP. -/
theorem test_illFormed_subopWord : refuses .subop
    [.imulScalar (tr 2 1 2 3) none, .iaddVector (tr 2 1 2 3) none, .isubVector (tr 2 1 2 3) none,
     .imulVector (tr 2 1 2 3) none, .imad (tr 2 1 2 3) none, .imulhScalar (tr 1 1 2 3) none,
     .imulhVector (tr 3 1 2 3) none, .andScalar (tr 2 1 2 3) none, .orScalar (tr 2 1 2 3) none,
     .xorScalar (tr 3 1 2 3) none, .shlScalar (tr 2 1 2 3) none, .andVector (tr 2 1 2 3) none,
     .orVector (tr 2 1 2 3) none, .xorVector (tr 2 1 2 3) none, .shlVector (tr 2 1 2 3) none,
     .movScalar (tr 2 1 2 0), .cvti (tr 2 1 2 0), .pkdir (tr 2 1 2 4) 0, .hadd2 (tr 2 1 2 3) none,
     .hmul2 (tr 3 1 2 3) none, .hfma2 (tr 2 1 2 3) none, .icmp (tr 2 0 2 3) none, .icmp (tr 0 80 2 3) none,
     .icmpImm ⟨false, 80, 2, 3⟩ none, .fcmp (tr 1 0 2 3) none, .fcmp (tr 0 64 2 3) none, .fadd (tr 1 1 2 3) none,
     .fsub (tr 1 1 2 3) none, .fmul (tr 1 1 2 3) none, .fmin (tr 1 1 2 3) none, .fmax (tr 1 1 2 3) none,
     .fscale (tr 1 1 2 3) none, .fclass (tr 1 1 2 0), .frcp (tr 1 1 2 0), .frsq (tr 1 1 2 0), .fexp2 (tr 1 1 2 0),
     .flog2 (tr 1 1 2 0), .ffma (tr 3 1 2 3) none, .fneg (tr 3 1 2 0), .red (tr 3 1 2 2), .vreds (tr 3 0 2 2),
     .vreds (tr 1 0 2 3), .pref ⟨false, false, 2, 3, 6, 7⟩] = true := by decide +kernel

/-- Reserved sub-operations of the second word and of M (R138 to R140, R183, R203, R209, R258): SUBOP. -/
theorem test_illFormed_subopExt : refuses .subop
    [.cvt (tr 0 3 2 0) 0x500, .cvt (tr 0 3 2 0) 0x0E, .cvt (tr 0 3 2 0) 0x98, .cvt (tr 0 3 2 0) 0x87,
     .pack (tr 0 3 2 0) 0x001, .unpack (tr 0 3 2 0) 0x010, .atom (tr 0 5 6 7) 12, .atom (tr 0 5 6 7) 0x20,
     .atoms (tr 0 5 6 7) 0x1B, .mma (tr 0 1 2 3) 0x70, .mmag (tr 0 1 2 3) 0x6000010, .mmab (tr 1 1 3 3) 0x40,
     .mma (tr 1 1 2 3) 0x10, .mdrn (tr 3 1 2 0) 0x30, .mdrn (tr 1 1 2 0) 0x40, .mdrn (tr 0 0 2 0) 0x10,
     .tapply (tr 1 0 15 3) 0x180] = true := by decide +kernel

/-- Scopes and orders that the entries do not allow (R76, R155, R176, R183, R185): SCOPE. -/
theorem test_illFormed_scope : refuses .scope
    [.ldExtended ⟨false, false, 2, 5, 6, 7⟩ 7, .stExtended ⟨false, false, 2, 5, 6, 7⟩ 0x18,
     .ldcExtended ⟨false, false, 2, 5, 6, 7⟩ 7, .ldwsExtended ⟨false, false, 2, 5, 6, 7⟩ 7,
     .ldsExtended ⟨false, false, 2, 5, 6, 7⟩ 4, .stsExtended ⟨false, false, 2, 5, 6, 7⟩ 4,
     .prefExtended ⟨false, false, 2, 0, 6, 7⟩ 1, .atom (tr 0 5 6 7) 0x1C0, .atoms (tr 0 5 6 7) 0x100,
     .fence (tr 0 0 0 7)] = true := by decide +kernel

/-- Fields of the first word that must be zero or stay within their bounds (R77 and the entries): FIELD. -/
theorem test_illFormed_fieldWord : refuses .field
    [.retScalar (tr 0 0 40 1), .retVector (tr 1 1 40 1), .loop ⟨false, 0, 0, 8⟩, .loop ⟨false, 0, 0, 112⟩,
     .wbase ⟨false, 0, 0, 400⟩, .bitsScalar (tr 0 1 2 3), .bitsVector (tr 0 1 2 3), .movScalar (tr 0 1 2 3),
     .movVector (tr 0 1 2 3), .movVectorBroadcast (tr 1 1 2 3), .movVectorB64 (tr 2 1 2 3), .fneg (tr 0 1 2 3),
     .fclass (tr 0 1 2 3), .frcp (tr 0 1 2 3), .frsq (tr 0 1 2 3), .fexp2 (tr 0 1 2 3), .flog2 (tr 0 1 2 3),
     .shlScalarImm ⟨false, 1, 2, 32⟩, .shlVectorImm ⟨false, 1, 2, 32⟩, .shrScalarImm ⟨false, 1, 2, 64⟩,
     .shrVectorImm ⟨false, 1, 2, 64⟩, .cvti (tr 0 1 2 2), .cvti (tr 1 1 2 8), .cvti (tr 0 1 2 0x11),
     .laneid (tr 1 1 0 0), .voteBallot (tr 2 2 3 0), .pmovBit (tr 2 1 2 0), .red (tr 0 1 2 3), .vreds (tr 0 1 2 0),
     .pkrdRec ⟨true, false, 0, 1, 2, 0⟩ 0, .pkrdReg ⟨true, false, 1, 1, 2, 0⟩ 0, .pkrdRpl ⟨false, true, 2, 1, 2, 0⟩ 0,
     .pkwrRec ⟨true, false, 0, 1, 2, 1⟩ 0, .pkwrReg ⟨true, false, 1, 1, 2, 1⟩ 0, .pkwrRpl ⟨false, true, 2, 1, 2, 1⟩ 0,
     .pkres (tr 1 1 2 2), .pkrty (tr 1 1 2 3), .pkkil (tr 1 1 2 5), .pkdir ⟨true, false, 0, 1, 2, 4⟩ 0,
     .ctopen (tr 1 3 0 0) 5, .srdGrp (tr 0 1 2 0) 0, .swrGrp (tr 0 1 2 1) 0, .srdSys (tr 1 1 2 0) 0,
     .swrSys (tr 1 1 2 1) 0, .srdSysB64 (tr 2 1 2 0) 0, .swrSysB64 (tr 2 1 2 1) 0, .rdid (tr 1 1 0 2),
     .rdtime (tr 0 1 2 3), .trap (tr 0 1 2 0), .pstop (tr 1 8 10 0) 0x1100, .pmset (tr 0 32 10 1), .ftest (tr 1 9 8 0),
     .chkset (tr 0 1 3 1), .chksetRestore (tr 1 1 3 1), .reggive (tr 1 0 12 0), .regclaim (tr 0 1 12 1),
     .reggiveLiteral (tr 0 0 1 0) 8, .regclaimLiteral (tr 0 0 1 1) 8, .role (tr 0 4 0 2), .phpost (tr 1 4 5 3)] = true := by
  decide +kernel

/-- The same of the memory, barrier, copy, matrix and tile entries: FIELD. -/
theorem test_illFormed_fieldWord2 : refuses .field
    [.pref ⟨false, false, 2, 4, 6, 7⟩, .fence (tr 0 1 0 0), .fence (tr 0 0 0 32), .waitsb ⟨0, 1⟩, .waitsb ⟨0, 256⟩,
     .binit ⟨false, 16, 0, 1⟩, .binitLiteral ⟨false, 0, 1, 0⟩ 1, .barv (tr 0 0 16 0), .bexp (tr 1 1 0 0),
     .bexpLiteral (tr 1 0 16 0) 1, .bwait (tr 2 0 0 1), .btest (tr 3 6 16 0), .mbw (tr 0 2 5 0), .mbr (tr 1 5 2 0),
     .mbp (tr 2 5 0 16), .kdef (tr 0 0 0 3), .macz (tr 1 1 1 0), .mwait (tr 2 16 0 0), .tdef (tr 0 1 0 0),
     .tqry (tr 1 1 0 4), .binrun (tr 2 1 0 0), .susp (tr 0 2 16 0), .wakeScalar (tr 1 1 0 3), .wakeVector (tr 2 0 16 3),
     .cvt (tr 1 3 2 0) 0x430, .pack (tr 0 3 2 1) 0x030, .unpack (tr 0 3 2 1) 0x003, .ldsp (tr 1 5 6 7) 0,
     .atom (tr 1 5 6 7) 0, .atoms (tr 1 5 6 7) 0, .cpsub (tr 0 5 6 1) 0, .cpwp (tr 1 5 6 1) 0, .cpwpRaw (tr 3 5 6 1) 0,
     .cpwait (tr 2 5 6 1) 0, .mmab (tr 1 1 4 3) 0x20, .mdrn (tr 1 1 2 1) 0x30, .twakeq (tr 0 1 0 3) 0,
     .tapply (tr 1 1 0 3) 0] = true := by decide +kernel

/-- Fields of the second word that must be zero or stay within their bounds: FIELD. -/
theorem test_illFormed_fieldExt : refuses .field
    [.ldExtended ⟨false, false, 2, 5, 6, 7⟩ 0x20, .stExtended ⟨false, true, 2, 5, 6, 1⟩ 0x40,
     .prefExtended ⟨false, false, 2, 0, 6, 7⟩ 0x80, .cvt (tr 0 3 2 0) 0x8430, .cvt (tr 0 3 2 0) 0x1430,
     .pack (tr 0 3 2 0) 0x1030, .unpack (tr 0 3 2 0) 0x1003, .ldsp (tr 0 5 6 7) 16, .atom (tr 0 5 6 7) 0x1000,
     .atoms (tr 0 5 6 7) 0x8000, .binitLiteral ⟨false, 0, 0, 0⟩ 0x10000, .cpsub (tr 0 5 6 0) 0x8000000,
     .cpwp (tr 1 5 6 0) 1, .cpwpRaw (tr 3 5 6 0) 1, .cpwait (tr 2 5 6 0) 1, .mma (tr 0 1 2 3) 0x10000010,
     .mma (tr 0 1 2 3) 0x00004020, .mmag (tr 0 1 2 3) 0x00004020, .mmab (tr 1 1 3 3) 0x10000020, .mdrn (tr 1 1 2 0) 0x80030,
     .twakeq (tr 0 0 0 3) 256, .tapply (tr 1 0 0 3) 512, .pkrdRec (tr 0 1 2 0) 32, .pkrdReg (tr 1 1 2 0) 0x40000,
     .pkrdRpl (tr 2 1 2 0) 6, .pkrdRpl (tr 2 1 2 0) 8, .pkwrRec (tr 0 1 2 1) 0x80000080, .pkdir (tr 0 1 2 4) 128,
     .srdGrp (tr 0 1 0 0) 6, .swrGrp (tr 0 1 0 1) 32, .srdSys (tr 1 1 0 0) 2, .swrSys (tr 1 1 0 1) 1,
     .srdSysB64 (tr 2 1 0 0) 4, .swrSysB64 (tr 2 1 0 1) 4, .pstop (tr 0 8 10 0) 0x101] = true := by decide +kernel

/-- A row that is a step has no words, and a field that selects another row is no term of this one. -/
theorem test_illFormed_rows :
    [Instr.tlbWalkDone 0, .dumpWrite 0, .fixedWriteback 0, .pkrdRec (tr 1 1 2 0) 0, .retScalar (tr 1 0 40 0),
     .movVector (tr 1 1 2 0), .bwait (tr 3 0 0 0), .imaxScalar (tr 0 3 4 5) none, .pkres (tr 0 7 4 3)].all
      (fun i => !i.wf) = true := by decide +kernel

/-- A literal that an entry does not take, an extension word that is missing, a reserved KIND and the second slot of a
pair are refused by the names of R63 and R77. -/
theorem test_refused_words :
    decodeWord 0b0000111_0_0_00_0000000_0000000_0000000#32 (some 1#32) = .error .wide ∧
    decodeWord 0b1010100_0_0_00_0000011_0000010_0000000#32 none = .error .wide ∧
    decodeWord 0b1000111_0_0_00_0000011_0000010_0000000#32 none = .error .opcode ∧
    decodeBundle (leBytes 4 0x80000000 ++ List.replicate 12 0) 2 = .error .target ∧
    decodeBundle (leBytes 4 0xC0000000 ++ List.replicate 12 0) 1 = .error .kind ∧ slotOfPc 0x3000 = none :=
  ⟨rfl, rfl, rfl, rfl, rfl, rfl⟩

/-- The host's numbering: bit 0 is the lowest bit of the first word, and the second word's bits count on from it. -/
theorem test_tableWord :
    decodeTableWord 32 0x590182F3 = some (.iaddVector ⟨true, false, 0, 6, 5, 0x73⟩ none) ∧
    decodeTableWord 64 0x000004_30_A800C100 = some (.cvt (tr 0 3 2 0) 0x430) := ⟨rfl, rfl⟩


/-- Whether a computation answers a value. -/
def okB {e a : Type} [DecidableEq a] (x : Except e a) (v : a) : Bool :=
  match x with
  | .ok y => decide (y = v)
  | .error _ => false
/-- Whether a computation ends with an error. -/
def errB {e a : Type} [DecidableEq e] (x : Except e a) (v : e) : Bool :=
  match x with
  | .ok _ => false
  | .error y => decide (y = v)

/-! ### A small state to issue from

`fetched` is the state that runs one placed word (log entry 2): group 2 of block 1, 128 live threads at 0x10004, one
bundle, identity tables for the first 2 MiB. `probe` stands in the issue of that word. -/

/-- A state before its step: NOP stands at the PC. -/
def fetched : State := { State.reset.withFetchWord 32 0 with issue := none }
/-- The issue that `fetched` picks. -/
def probe : State := match fetched.pick with
  | some (_, .issue _ is) => fetched.issuing is
  | _ => fetched
/-- The issue of an instruction there, after what comes before its own effect. -/
def ready (i : Instr) : State := probe.begin_ i (opnds i)
/-- The same for an instruction without operands in registers. -/
def bare (i : Instr) : State := probe.begin_ i Opnds.none

/-- The conditions of `Issues`, as a test. -/
def issuesB (s : State) : Bool :=
  match s.issue with
  | none => false
  | some is => match is.members with
    | [m] => (tget s.groups m.gid).isSome && decide (m.act &&& ~~~m.lanes = 0) && decide (m.act ≠ 0) &&
        (List.range 128).all (fun l => ((s.group m.gid).thread l).replay.isNone)
    | _ => false

/-- The split that issues. -/
abbrev lead (s : State) : Member := s.iss.leader

/-- A bit of a mask lies below 128. -/
theorem bit_lt {m : Mask} {l : Nat} (h : m.getLsbD l = true) : l < 128 := by
  by_cases hl : l < 128
  · exact hl
  · rw [BitVec.getLsbD_of_ge m l (by omega)] at h; cases h

theorem issues_of {s : State} (h : issuesB s = true) : Issues s s.iss (lead s) ∧ (lead s).act ≠ 0 := by
  unfold issuesB at h
  split at h
  · cases h
  · rename_i is hi
    split at h
    · rename_i m hm
      simp only [Bool.and_eq_true, decide_eq_true_eq, List.all_eq_true, List.mem_range] at h
      have e : s.iss = is := by simp [State.iss, hi]
      have e2 : lead s = m := by simp [lead, e, Issue.leader, hm]
      rw [e2, e]
      refine ⟨⟨hi, hm, h.1.1.1, h.1.1.2, fun l hl => ?_⟩, h.1.2⟩
      exact Option.isNone_iff_eq_none.mp (h.2 l (bit_lt hl))
    · cases h

/-- The conditions of `VecRuns`, as a test; the traps are off. -/
def vecB (i : Instr) (s : State) : Bool :=
  issuesB s && decide (s.env.sdc = 0) && decide ((s.regionOf (lead s).gid).trapen = 0) &&
    (List.range ((opnds i).vd.length + 1)).all (fun n =>
      decide ((s.releaseSrcs (lead s).gid s.iss.wb (opnds i) (lead s).act).poolSays (lead s).gid n (.split s.iss.pc s.iss.wb) = .ok))

theorem trapSub_zero (f : BitVec 6) : trapSub 0 f = 0 := by simp [trapSub]

theorem vec_of {i : Instr} {s : State} (h : vecB i s = true) (out : Nat → LaneOut) : VecRuns i s s.iss (lead s) out := by
  simp only [vecB, Bool.and_eq_true, decide_eq_true_eq, List.all_eq_true, List.mem_range] at h
  exact ⟨(issues_of h.1.1.1).1, fun n hn => h.2 n (by omega), h.1.1.2, fun l _ => by rw [h.1.2]; exact trapSub_zero _⟩


/-! ### Witnesses: what the obligations assume can be met -/

/-- A move that a table can hold: RI fields. -/
def ri (d a : BitVec 7) (imm : BitVec 10) : RI := ⟨false, d, a, imm⟩

/-- EncodedInstructionDecodes and DecodedInstructionEncodes: a wide pair with every field set. -/
theorem test_meets_EncodedInstructionDecodes :
    (Instr.cvt (tr 0 127 127 0) 0xF00).wf = false ∧ (Instr.ldExtended ⟨true, true, 3, 127, 127, 0⟩ 0xFFFFFF16).wf = true ∧
    encode (.ldExtended ⟨true, true, 3, 127, 127, 0⟩ 0xFFFFFF16) =
      some (0b1101000_1_1_11_1111111_1111111_0000000#32, some 0xFFFFFF16) := by decide +kernel

/-- StepRunsDecodedInstruction: a word that decodes, one that does not, and a PC that no table maps. -/
theorem test_meets_StepRunsDecodedInstruction :
    (fetched.issue = none ∧ fetched.env.sched = [] ∧ fetched.firstOf fetched.agenda = none ∧
      fetched.parts = [] ++ (0, fetched.part 0) :: fetched.parts.tail ∧ (fetched.part 0).hold ≤ fetched.clk.ac ∧
      fetched.leaderOf 0 = some (2, 0x10004, 0, allLanes) ∧ slotOfPc 0x10004 = some 0 ∧ fetched.pointAt 2 0x10004 = none ∧
      okB (fetched.fetchBytes 2 0x10004) (tableBundle 32 0) = true) ∧
    okB ((State.reset.withFetchWord 32 0x10000000).fetchBytes 2 0x10004) (tableBundle 32 0x10000000) = true ∧
    errB (({ fetched with mem := [] }).fetchBytes 2 0x10004) (kPage, 3) = true ∧
    ({ fetched with mem := [] }).leaderOf 0 = some (2, 0x10004, 0, allLanes) := by decide +kernel

/-- Its decodings: what stands in those bundles. -/
theorem test_meets_StepRunsDecodedInstruction_decode :
    ((decodeBundle (tableBundle 32 0) 0).map Prod.fst = .ok .nop) ∧ decodeBundle (tableBundle 32 0x10000000) 0 = .error .opcode :=
  ⟨rfl, rfl⟩

/-- A state in which a scalar result is due. -/
def due : State := { fetched with flight := { fetched.flight with pends := [(7, ⟨2, .scal 5, allLanes, [9], 0, 0, 0, false, none, 0⟩)] } }

/-- StepTakesScheduledEvent: an event on the schedule, an instruction there, an event that is due, and nothing to do. -/
theorem test_meets_StepTakesScheduledEvent :
    encode (.tlbWalkDone 0) = none ∧ (encode .nop).isSome = true ∧ (due.firstOf due.agenda).isSome = true ∧
    due.issue = none ∧ due.env.sched = [] ∧ State.reset.issue = none ∧ State.reset.env.sched = [] ∧
    State.reset.firstOf State.reset.agenda = none ∧ State.reset.pick = none := by decide +kernel

/-- InvariantKept and MemoryReadsWhatWasWritten: reset has the invariants, and its step gives a next state. -/
theorem test_meets_InvariantKept : memWf State.reset.mem = true ∧ State.reset.clk.frac < 18000000 ∧
    -200 ≤ State.reset.clk.ppm ∧ State.reset.clk.ppm ≤ 200 ∧ memWf fetched.mem = true ∧
    (match step fetched with
      | .next t => memWf t.mem
      | _ => false) = true := by decide +kernel

/-- ScaleFormatValues, ConversionsKeepExactValues, FloatOperationsAgree, ReductionsAreTrees: operands at their bounds. -/
theorem test_meets_numbers :
    (decodeFmt 0 false 0x7F7FFFFF).isNan = false ∧ (decodeFmt 0 false 0x7F800001).isNan = true ∧
    (decodeFmt 13 false (2 ^ elemWidth 13 - 1)).isNan = false ∧ (f32v false 0x80000000).isNan = false ∧
    (decodeFmt 7 false 255).isNan = true ∧ (List.replicate 128 (some 1#32)).length = 128 := by decide +kernel

/-- Scalar instructions of ScalarIntegerResults, with and without literals and at every reading of M. -/
def scalarTerms : List Instr :=
  [.iaddScalar (tr 0 3 4 5) none, .iaddScalar (tr 1 3 4 0) (some 0xFFFFFFFF), .iaddScalar (tr 2 3 4 5) none,
   .iaddScalar (tr 2 2 4 0) (some 0x80000000), .isubScalar (tr 3 3 4 5) none, .isubScalar (tr 2 126 127 5) none,
   .imulScalar (tr 1 3 4 5) none, .imulhScalar (tr 2 3 4 5) none, .andScalar (tr 0 3 4 5) none, .orScalar (tr 0 3 4 5) none,
   .xorScalar (tr 0 3 4 5) none, .shlScalar (tr 0 3 4 0) (some 32), .shrScalar (tr 2 3 4 5) none,
   .iminScalar (tr 0 3 4 5) none, .imaxScalar (tr 3 3 4 5) none, .bitsScalar (tr 1 3 4 0), .movScalar (tr 1 3 4 0),
   .iaddScalarImm (ri 3 4 512) none, .andScalarImm (ri 3 4 0) (some 7), .orScalarImm (ri 3 4 1) none, .xorScalarImm (ri 3 4 1) none,
   .shlScalarImm (ri 3 4 31), .shrScalarImm (ri 3 4 63), .iset (ri 3 4 1023), .movScalarImm ⟨127, 0x20000⟩ none]

/-- ScalarIntegerResults: each issues with its threads. -/
theorem test_meets_ScalarIntegerResults : scalarTerms.all (fun i => i.wf && issuesB (ready i)) = true := by decide +kernel

/-- Vector integer instructions of VectorIntegerResults. -/
def vectorTerms : List Instr :=
  [.iaddVector (tr 0 1 2 3) none, .isubVector (tr 1 1 2 0) (some 1), .imulVector (tr 3 1 2 3) none, .imulhVector (tr 2 1 2 3) none,
   .imad (tr 0 1 2 3) none, .imad (tr 1 1 2 0) (some 2), .andVector (tr 0 1 2 3) none, .orVector (tr 1 1 2 3) none,
   .xorVector (tr 0 1 2 3) none, .shlVector (tr 0 1 2 3) none, .shrVector (tr 2 1 2 3) none, .iminVector (tr 1 1 2 3) none,
   .imaxVector (tr 0 1 2 3) none, .icmp (tr 0 0x4E 2 3) none, .ineg (tr 2 1 2 3), .bitsVector (tr 3 1 2 0), .cvti (tr 0 1 2 0x18),
   .iaddVectorImm (ri 1 2 512) none, .isubVectorImm (ri 1 2 1) none, .imulVectorImm (ri 1 2 0) (some 3), .andVectorImm (ri 1 2 1) none,
   .orVectorImm (ri 1 2 1) none, .xorVectorImm (ri 1 2 1) none, .icmpImm (ri 0x21 2 0) none, .shlVectorImm (ri 1 2 31),
   .shrVectorImm (ri 1 2 63), .movVectorImm ⟨127, 0⟩ (some 5), .movVector (tr 0 1 127 0), .movVectorBroadcast (tr 1 1 127 0),
   .movVectorB64 (tr 2 111 127 0)]

/-- VectorIntegerResults: each runs, whatever its lanes compute. -/
theorem test_meets_VectorIntegerResults : vectorTerms.all (fun i => i.wf && vecB i (ready i)) = true := by decide +kernel

/-- Floating-point, conversion and lane instructions of FloatResults, ConversionResults and LaneAndPredicateResults. -/
def floatTerms : List Instr :=
  [.fadd (tr 0 1 2 3) none, .fsub (tr 0 1 2 3) none, .fmul (tr 0 1 2 0) (some 0x3F800000), .ffma (tr 2 1 2 3) none, .fmin (tr 0 1 2 3) none,
   .fmax (tr 0 1 2 3) none, .fscale (tr 0 1 2 3) none, .fcmp (tr 0 0x3E 2 3) none, .fneg (tr 2 1 2 0), .fclass (tr 0 1 2 0),
   .frcp (tr 0 1 2 0), .frsq (tr 0 1 2 0), .fexp2 (tr 0 1 2 0), .flog2 (tr 0 1 2 0), .hadd2 (tr 0 1 2 3) none, .hmul2 (tr 1 1 2 3) none,
   .hfma2 (tr 1 1 2 3) none, .cvt (tr 0 3 2 0) 0x430, .cvt (tr 0 3 2 0) 0x3103, .pack (tr 0 3 2 0) 0x460, .unpack (tr 0 3 2 0) 0x006,
   .laneid (tr 0 1 0 0), .voteAll (tr 0 6 3 0), .voteAny (tr 1 6 7 0), .plop (tr 3 0 1 2), .pmov (tr 0 6 7 0), .pmovNz (tr 1 6 127 0),
   .pmovBit (tr 2 6 124 0), .red (tr 3 1 2 1)]

/-- FloatResults, ConversionResults and LaneAndPredicateResults: each runs. -/
theorem test_meets_FloatResults : floatTerms.all (fun i => i.wf && vecB i (ready i)) = true := by decide +kernel

/-- What such a test says: the hypothesis of a vector instruction's statement holds, whatever it computes. -/
theorem test_meets_VecRuns (i : Instr) (h : i ∈ vectorTerms ∨ i ∈ floatTerms) (out : Nat → LaneOut) :
    VecRuns i (ready i) (ready i).iss (lead (ready i)) out := by
  have h1 := List.all_eq_true.mp test_meets_VectorIntegerResults i
  have h2 := List.all_eq_true.mp test_meets_FloatResults i
  exact vec_of (h.elim (fun h => (Bool.and_eq_true _ _ ▸ h1 h).2) (fun h => (Bool.and_eq_true _ _ ▸ h2 h).2)) out

/-- SHFL, VOTE.ballot, VREDS and SREDW of LaneAndPredicateResults and GroupReductions. -/
theorem test_meets_GroupReductions :
    vecB (.shfl (tr 3 1 2 127)) (probe.beginShfl (tr 3 1 2 127)) = true ∧
    [Instr.voteBallot (tr 2 124 3 0), .vreds (tr 0 0 2 3), .sredw (tr 0 126 4 0)].all
      (fun i => i.wf && issuesB (ready i) && decide ((ready i).env.sdc = 0)) = true ∧
    ((ready (.vreds (tr 0 0 2 3))).regionOf 2).trapen = 0 := by decide +kernel


/-- `probe` whose split is two groups, with name 1 of each in a register, and which issues an instruction. -/
def joined (i : Instr) : State :=
  let s := { probe with groups := tput probe.groups 7 { (probe.group 2) with map := [(1, ⟨.phys 1, 1⟩)] } }
  let s := s.modGroup 2 (fun G => { G with map := [(1, ⟨.phys 0, 1⟩)] })
  { s with issue := some { s.iss with members := [⟨2, allLanes, allLanes⟩, ⟨7, allLanes, 1⟩] } }.begin_ i (opnds i)
/-- The conditions of `JoinedIssues` and those of `JoinedMeaning`, as a test. -/
def joinedB (i : Instr) (s : State) (is : Issue) : Bool :=
  decide (is.members.map Member.gid).Nodup && is.members.all (fun m => (tget s.groups m.gid).isSome &&
      decide (m.act &&& ~~~m.lanes = 0) && (List.range 128).all (fun l => ((s.group m.gid).thread l).replay.isNone) &&
      decide ((s.regionOf m.gid).trapen = 0) &&
      (s.writeNames m.gid is.wb (opnds i)).all (fun n => !s.needsPhys m.gid n m.act false)) &&
    decide (s.env.sdc = 0) && (opnds i).vs.all (fun v => !v.last)

theorem issue_of {i : Instr} {s : State} {is : Issue} (h : s.issue = some is) (hb : joinedB i s is = true) : JoinedIssues s is := by
  simp only [joinedB, Bool.and_eq_true, decide_eq_true_eq, List.all_eq_true, Option.isNone_iff_eq_none, List.mem_range] at hb
  obtain ⟨⟨⟨nodup, all⟩, -⟩, -⟩ := hb
  exact ⟨h, nodup, fun m hm => (all m hm).1.1.1.1, fun m hm => (all m hm).1.1.1.2,
    fun m l hm hl => (all m hm).1.1.2 l (BitVec.lt_of_getLsbD hl)⟩

/-- Joined splits of VectorIntegerResults, FloatResults and BranchesTakeTheirTargets: each issues. -/
theorem test_meets_joined :
    [Instr.iaddVector (tr 0 1 2 3) none, .isubVector (tr 1 1 2 0) (some 1), .imulVector (tr 3 1 2 3) none, .imad (tr 0 1 2 3) none,
      .andVector (tr 0 1 2 3) none, .icmp (tr 0 0x4E 2 3) none, .movVectorBroadcast (tr 1 1 127 0), .fadd (tr 0 1 2 3) none,
      .fmul (tr 0 1 2 0) (some 0x3F800000), .ffma (tr 2 1 2 3) none, .fcmp (tr 0 0x3E 2 3) none, .bra ⟨0x1000000⟩ none].all
      (fun i => i.wf && (joined i).issue.isSome && ((joined i).iss.members.length == 2) && joinedB i (joined i) (joined i).iss) = true := by decide +kernel

theorem iss_of {s : State} (h : s.issue.isSome = true) : s.issue = some s.iss := by
  unfold State.iss
  cases hi : s.issue with
  | none => simp [hi] at h
  | some is => rfl

theorem test_meets_JoinedIssues : JoinedIssues (joined .nop) (joined .nop).iss :=
  issue_of (i := .nop) (iss_of (by decide +kernel)) (by decide +kernel)

/-! ### Results that land, control flow and memory -/

/-- ResultsLand: a scalar, a predicate and a vector result that are due, and one that is not. -/
theorem test_meets_ResultsLand :
    (tget due.flight.pends 7).isSome = true ∧ 0 ≤ due.clk.ac ∧ (tget due.groups 2).isSome = true ∧
    due.shadowScalar 2 127 = false ∧ (due.group 2).occupied.getLsbD 127 = true ∧ (due.group 2).run.spilled = false ∧
    due.inMatrix 2 511 = false ∧ tget (due.group 2).map 511 = none ∧ 511 < shadowName := by decide +kernel

/-- `WritableName` of a name that no entry of the map holds. -/
theorem writable_of {s : State} {g n : Nat} (h1 : n < shadowName) (h2 : (s.group g).run.spilled = false)
    (h3 : s.inMatrix g n = false) (h4 : tget (s.group g).map n = none) : WritableName s g n none :=
  ⟨h1, h2, h3, fun e q he _ => by rw [h4] at he; cases he⟩

theorem test_meets_WritableName : WritableName due 2 511 none :=
  have h := test_meets_ResultsLand
  writable_of h.2.2.2.2.2.2.2.2 h.2.2.2.2.2.1 h.2.2.2.2.2.2.1 h.2.2.2.2.2.2.2.1

/-- BranchesTakeTheirTargets and WalksAndHints: NOP, BRA, CALL, RET and PREF issue, and PCs of the three slots. -/
theorem test_meets_BranchesTakeTheirTargets :
    issuesB (bare .nop) = true ∧
    [Instr.bra ⟨0x1000000⟩ none, .bra ⟨0⟩ (some 0x7FFFFFFF), .call ⟨126, 0x20000⟩ none, .retScalar (tr 0 0 126 0),
      .retVector (tr 1 0 111 0), .pref ⟨true, false, 0, 0, 6, 127⟩, .prefExtended ⟨false, true, 2, 2, 6, 0⟩ 0x80000000].all
      (fun i => i.wf && issuesB (ready i)) = true ∧
    (2 ^ 62 - 4) % 16 = 12 ∧ (2 ^ 62 - 8) % 16 = 8 ∧ (2 ^ 62 - 12) % 16 = 4 := by decide +kernel

/-- The issue of `probe` at another loop depth. -/
def deep (n : Nat) : State := probe.modGroup 2 (fun G => { G with threads := G.threads.map (fun t => { t with stack := List.replicate n 96 }) })

/-- LoopsMoveTheWindow: depth 7 for LOOP, a window at its limit for WBASE, and depth 1 for ENDL. -/
theorem test_meets_LoopsMoveTheWindow :
    (let s := (deep 7).begin_ (.loop (ri 0 0 96)) Opnds.none
     issuesB s && (s.group 2).threads.all (fun t => decide (t.stack.length < 8) &&
      decide (t.wb.toNat + 96 ≤ min 384 (s.group 2).id.stride))) = true ∧
    (let s := (deep 1).begin_ .endl Opnds.none
     issuesB s && (s.group 2).threads.all (fun t => decide (t.stack ≠ []) &&
      decide ((t.stack.headD 0).toNat ≤ min 384 (s.group 2).id.stride))) = true ∧
    issuesB (bare (.wbase (ri 0 0 384))) = true ∧ 384 = min 384 ((bare (.wbase (ri 0 0 384))).group 2).id.stride := by
  decide +kernel

/-- BadWindowsPark: depth 8, depth 0, a window past the WSTRIDE, TRAP, and TRAP with no active thread. -/
theorem test_meets_BadWindowsPark :
    (let s := (deep 8).begin_ (.loop (ri 0 0 0)) Opnds.none
     issuesB s && !s.inHandler 2 && (s.group 2).threads.all (fun t => decide (8 ≤ t.stack.length))) = true ∧
    (let s := (deep 0).begin_ .endl Opnds.none
     issuesB s && (s.group 2).threads.all (fun t => decide (t.stack = []))) = true ∧
    (let s := (probe.modGroup 2 (fun G => { G with id := { G.id with stride := 64 } })).begin_ (.wbase (ri 0 0 80)) Opnds.none
     issuesB s && decide (80 > min 384 (s.group 2).id.stride)) = true ∧
    issuesB (bare (.trap (tr 0 127 1 0))) = true := by decide +kernel

/-- The issue of `probe` with a leader that has other active threads. -/
def guarded (act : Mask) : State := { probe with issue := some { probe.iss with members := [⟨2, allLanes, act⟩] } }

/-- ExitVacatesLanes and the issues whose guard is false: EXIT of all lanes, of some, and a split with no active thread. -/
theorem test_meets_ExitVacatesLanes :
    issuesB (bare .exit) = true ∧ ((bare .exit).group 2).occupied &&& ~~~(lead (bare .exit)).act = 0 ∧
    ((bare .exit).group 2).run.place ≠ .gone ∧
    issuesB ((guarded 1).begin_ .exit Opnds.none) = true ∧ ((guarded 1).group 2).occupied &&& ~~~(1 : Mask) ≠ 0 ∧
    ((guarded 0).begin_ (.trap (tr 0 1 0 0)) Opnds.none).iss.members = [⟨2, allLanes, 0⟩] := by decide +kernel

/-- The issue of `probe` with scalars of the group and a cached leaf of the mapped 2 MiB. -/
def scal (l : List (Nat × Word)) : State :=
  l.foldl (fun s e => s.setScalar 2 e.1 e.2) { probe with flight := { probe.flight with tlbs := [(0, [⟨1, 0, 21, 0, 0x1F⟩, ⟨1, 0x40000000, 21, weightBase, 0x1F⟩])] } }

/-- The conditions of `MemRuns` and of `may`, where every lane meets the physical address `pa`, as a test. -/
def memB (i : Instr) (r : MemReq) (once : Bool) (may : State → Nat → Bool) (addr : State → Nat → Nat → Wide)
    (data : State → Nat → Nat → List Word) (pa : Nat) (s0 : State) : Bool :=
  i.wf && [s0.memBegin i (opnds i) once addr data, s0.begin_ i (opnds i)].all (fun s => issuesB s && may s 2 &&
    (if once then [lowLane (lead s).act] else [0, 1, 64, 127]).all (fun l =>
      decide (s.laneCheck r 2 (addr s 2 l) (dataWide (data s 2 l)) = .ok pa)) &&
    (List.range ((opnds i).vd.length + 1)).all (fun n =>
      decide ((s.releaseSrcs (lead s).gid s.iss.wb (opnds i) (lead s).act).poolSays (lead s).gid n (.split s.iss.pc s.iss.wb) = .ok)))

/-- ME fields. -/
def me (mode : Bool) (size : BitVec 2) (off : BitVec 7) : ME := ⟨true, mode, size, 5, 6, off⟩

/-- LoadsIssue: LD of the last four and eight bytes of the mapped 2 MiB, LDC, LDWS and the scratchpad, with DISP. -/
theorem test_meets_LoadsIssue :
    memB (.ld (me true 2 0)) (meReq (me true 2 0) none .load 0x68 false) false (fun _ _ => true)
      (fun s g l => s.addrGlobal (me true 2 0) none g l) (fun _ _ _ => []) 0x1FFFFC (scal [(6, 0x1FFFFC)]) = true ∧
    memB (.ldExtended (me false 3 7) 0x810) (meReq (me false 3 7) (some 0x810) .load 0x68 false) false (fun _ _ => true)
      (fun s g l => s.addrGlobal (me false 3 7) (some 0x810) g l) (fun _ _ _ => []) 0x1FFFF8 (scal [(6, 0x1FFFF0)]) = true ∧
    memB (.lds (me true 0 63)) (meReq (me true 0 63) none .load 0x6A true) false (fun _ _ => true)
      (fun s g l => s.addrScratch (me true 0 63) none g l) (fun _ _ _ => []) (scratchBase + 63) (scal []) = true ∧
    memB (.ldsExtended (me false 2 7) 0x3FFC03) (meReq (me false 2 7) (some 0x3FFC03) .load 0x6A true) false (fun _ _ => true)
      (fun s g l => s.addrScratch (me false 2 7) (some 0x3FFC03) g l) (fun _ _ _ => []) (scratchBase + 0x3FFC) (scal []) = true := by
  decide +kernel

/-- LoadsIssue, of the loads that act once and of the weight-store loads. -/
theorem test_meets_LoadsIssue_scalar :
    memB (.ldc (me true 3 1)) (meReq (me true 3 1) none .load 0x6C false) true (fun _ _ => true)
      (fun s g _ => s.addrScalar (me true 3 1) none g) (fun _ _ _ => []) 0x1008 (scal [(6, 0x1000)]) = true ∧
    memB (.ldcExtended (me false 2 7) 0x416) (meReq (me false 2 7) (some 0x416) .load 0x6C false) true (fun _ _ => true)
      (fun s g _ => s.addrScalar (me false 2 7) (some 0x416) g) (fun _ _ _ => []) 0x1004 (scal [(6, 0x1000)]) = true ∧
    memB (.ldws (me true 2 0)) (meReq (me true 2 0) none .load 0x6D false) false (fun _ _ => true)
      (fun s g l => s.addrGlobal (me true 2 0) none g l) (fun _ _ _ => []) (weightBase + 0x1FFFFC)
      (scal [(6, 0x401FFFFC)]) = true ∧
    memB (.ldwsExtended (me false 1 7) 0x206) (meReq (me false 1 7) (some 0x206) .load 0x6D false) false (fun _ _ => true)
      (fun s g l => s.addrGlobal (me false 1 7) (some 0x206) g l) (fun _ _ _ => []) (weightBase + 2)
      (scal [(6, 0x40000000)]) = true := by
  decide +kernel

/-- StoresIssue: stores to memory and to the scratchpad, and PHPOST with and without a PHASEWORD. -/
theorem test_meets_StoresIssue :
    memB (.st (me true 3 0)) (meReq (me true 3 0) none .store 0x69 false) false (fun s g => !s.containFull g)
      (fun s g l => s.addrGlobal (me true 3 0) none g l) (fun s g l => s.wordsAt g l (meData (me true 3 0))) 0x1FFFF8
      (scal [(6, 0x1FFFF8)]) = true ∧
    memB (.stExtended (me false 0 7) 0x12) (meReq (me false 0 7) (some 0x12) .store 0x69 false) false (fun s g => !s.containFull g)
      (fun s g l => s.addrGlobal (me false 0 7) (some 0x12) g l) (fun s g l => s.wordsAt g l (meData (me false 0 7))) 0x1FFFFF
      (scal [(6, 0x1FFFFF)]) = true ∧
    memB (.sts (me true 2 0)) (meReq (me true 2 0) none .store 0x6B true) false (fun _ _ => true)
      (fun s g l => s.addrScratch (me true 2 0) none g l) (fun s g l => s.wordsAt g l (meData (me true 2 0))) scratchBase
      (scal []) = true ∧
    memB (.stsExtended (me false 1 7) 0x403) (meReq (me false 1 7) (some 0x403) .store 0x6B true) false (fun _ _ => true)
      (fun s g l => s.addrScratch (me false 1 7) (some 0x403) g l) (fun s g l => s.wordsAt g l (meData (me false 1 7)))
      (scratchBase + 4) (scal []) = true ∧
    memB (.phpost (tr 0 4 5 3)) { kind := .store, opcode := 0x16, scratch := false, size := 8, scope := 5, acq := false, rel := true } true
      (fun s g => !s.containFull g && decide ((s.launch (s.group g).id.launch).bundle.phaseWord ≠ 0))
      (fun s g _ => (s.launch (s.group g).id.launch).bundle.phaseWord) (fun s _ _ => [s.scalar 2 5, s.scalar 2 4]) 0x3000
      ((scal []).modLaunch 0 (fun l => { l with bundle := { l.bundle with phaseWord := 0x3000 } })) = true ∧
    issuesB (ready (.phpost (tr 0 4 5 3))) = true ∧
    ((ready (.phpost (tr 0 4 5 3))).launch ((ready (.phpost (tr 0 4 5 3))).group 2).id.launch).bundle.phaseWord = 0 := by
  decide +kernel

/-- AtomicsAndSystemAccessesIssue. -/
theorem test_meets_AtomicsAndSystemAccessesIssue :
    memB (.atom (tr 0 5 6 7) 0x9A) (atomReq 0x9A 0x70 false) false (fun s g => !s.inContain g)
      (fun s g l => s.addrAtom (tr 0 5 6 7) 0x9A g l) (fun s g l => s.wordsAt g l (atomData (tr 0 5 6 7) 0x9A)) 0x1FFFF8
      (scal [(6, 0x1FFFF8)]) = true ∧
    memB (.atoms (tr 0 5 6 7) 0xCB) (atomReq 0xCB 0x71 true) false (fun s g => !s.inContain g)
      (fun s g l => s.addrAtoms (tr 0 5 6 7) 0xCB g l) (fun s g l => s.wordsAt g l (atomData (tr 0 5 6 7) 0xCB)) scratchBase
      (scal []) = true ∧
    memB (.srdSys (tr 1 5 0 0) 0x10008) (sysReq .load 4) true (fun _ _ => true) (fun _ _ _ => 0x10008) (fun _ _ _ => [])
      (sysBase + 0x10008) (scal []) = true ∧
    memB (.srdSysB64 (tr 2 6 0 0) 0x10010) (sysReq .load 8) true (fun _ _ => true) (fun _ _ _ => 0x10010) (fun _ _ _ => [])
      (sysBase + 0x10010) (scal []) = true ∧
    memB (.swrSys (tr 1 5 0 1) 0xFFFC) (sysReq .store 4) true (fun _ _ => true) (fun _ _ _ => 0xFFFC)
      (fun s g _ => [s.scalar g 5]) (sysBase + 0xFFFC) (scal []) = true ∧
    memB (.swrSysB64 (tr 2 6 0 1) 0x10100) (sysReq .store 8) true (fun _ _ => true) (fun _ _ _ => 0x10100)
      (fun s g _ => [s.scalar g 6, s.scalar g 7]) (sysBase + 0x10100) (scal [(6, 1)]) = true := by decide +kernel


/-! ### Memory operations in flight, stores, transfers, fences -/

/-- `fetched` with a changed flight. -/
def flying (f : Flight → Flight) : State := { fetched with flight := f fetched.flight }
/-- An operation of group 2, number 8, for one lane at a physical address. -/
def oneOp (kind : OpKind) (size scope pa : Nat) : MemOp :=
  ⟨2, 0, kind, 1, [], 0x68, false, size, scope, false, false, [5], none, 3, 0x10004, 0x10008, 0, 0,
    [⟨0, BitVec.ofNat 64 pa, some pa, false, false, none, [7, 0, 0, 0], 0, []⟩], [none]⟩
/-- A state with it in flight, and entries in the group's FIFO and a node. -/
def withOp (m : MemOp) (fifo : List StoreEntry) (nodes : Tab (List NodeEntry)) : State :=
  (flying (fun f => { f with ops := [(8, m)], nodes })).modGroup 2 (fun G => { G with fifo })
/-- What a lane finds. -/
def todoB (m : MemOp) (l pa : Nat) : Bool := (m.todo l).any (fun x => decide (x.2 = pa))

/-- Its lane. -/
def laneIn (m : MemOp) : LaneOp := m.lanes.headD default

/-- LoadsArePerformed: a load at scope .grp, one that pushes older entries, and one of a system register. -/
theorem test_meets_LoadsArePerformed :
    (let s := withOp (oneOp .load 4 0 0x2000) [⟨1, 4, 0, 0x2002, some 0x2002, [1, 2], 0, false⟩] []
     todoB (oneOp .load 4 0 0x2000) 0 0x2000 && s.loadReady 8 (oneOp .load 4 0 0x2000) (laneIn (oneOp .load 4 0 0x2000)) 0x2000 &&
      (List.range 4).all (fun j => (s.loadByte 2 8 (0x2000 + j)).isSome)) = true ∧
    (let m := oneOp .load 8 5 0x2000
     let s := withOp m [] [(0, [⟨3, 2, 0x2004, [1, 2, 3, 4]⟩])]
     let u := (s.pushToward (pathOf (s.coreOf 2)) (s.scopeNode 2 5) 0x2000 8).settle
     todoB m 0 0x2000 && s.loadReady 8 m (laneIn m) 0x2000 && (List.range 8).all (fun j => (u.loadByte 2 8 (0x2000 + j)).isSome) &&
      decide ((u.node 84).length + (u.node 80).length ≤ 1)) = true ∧
    (let m := oneOp .load 8 6 (sysBase + 0x10010)
     todoB m 0 (sysBase + 0x10010) && (withOp m [] []).loadReady 8 m (laneIn m) (sysBase + 0x10010)) = true ∧
    ((withOp (oneOp .load 4 0 0x2000) [] []).group 2).run.place ≠ .stowed ∧
    WritableName (withOp (oneOp .load 4 0 0x2000) [] []) 2 5 none := by
  refine ⟨by decide +kernel, by decide +kernel, by decide +kernel, by decide +kernel, writable_of ?_ ?_ ?_ ?_⟩ <;> decide +kernel

/-- StoresDrainInOrder: a store to the device, to the scratchpad and to a register, and entries of a core and a die node. -/
theorem test_meets_StoresDrainInOrder :
    [0x2000, 0x3FFFFFF8, scratchBase, sysBase + 0x10100].all (fun pa =>
      let s := withOp (oneOp .store 8 5 pa) [⟨1, 8, 0, 0x2000, some pa, [1, 2, 3, 4, 5, 6, 7, 8], 5, false⟩] []
      (s.group 2).fifoHead.any (fun e => s.drainReady 2 e && decide (e.pa = some pa))) = true ∧
    ((withOp (oneOp .load 4 0 0) [] [(0, [⟨3, 2, 0x2004, [1, 2]⟩, ⟨4, 2, 0x2006, [1]⟩]), (83, [⟨3, 2, 0x2004, [1]⟩])]).node 0)[1]? =
      some ⟨4, 2, 0x2006, [1]⟩ ∧
    [(⟨3, 2, 0x2004, [1, 2]⟩ : NodeEntry)].all (fun x => !overlap x.pa x.bytes.length 0x2006 1) = true ∧
    ((withOp (oneOp .load 4 0 0) [] [(83, [⟨3, 2, 0x2004, [1]⟩])]).node 83)[0]? = some ⟨3, 2, 0x2004, [1]⟩ ∧
    83 < deviceNode ∧ (fetched.group 2).fifo = [] := by decide +kernel

/-- AtomicsArePerformed: at a node within the chip, at the device, and at the scratchpad's bank. -/
theorem test_meets_AtomicsArePerformed :
    [(2, 0x2000, 4), (5, 0x2000, 8), (0, scratchBase + 8, 4)].all (fun e =>
      let m := oneOp (.atomic 10 true) e.2.2 e.1 e.2.1
      let s := withOp m [] [(0, [⟨3, 2, 0x2000, [9]⟩])]
      let target := if scratchBase ≤ e.2.1 then deviceNode else s.scopeNode 2 e.1
      let u := if scratchBase ≤ e.2.1 then s else (s.pushToward (pathOf (s.coreOf 2)) target e.2.1 e.2.2).settle
      todoB m 0 e.2.1 && s.atomReady 8 m (laneIn m) e.2.1 && decide (e.2.1 % 32 + e.2.2 ≤ 32) && (tget s.groups 2).isSome && decide ((s.regionOf 2).trapen = 0) &&
        (List.range e.2.2).all (fun j => (u.pathByte (if scratchBase ≤ e.2.1 then []
          else (pathOf (s.coreOf 2)).dropWhile (· ≠ target)) (e.2.1 + j)).isSome)) = true := by decide +kernel

/-- WalksAndHints: a walk that finds a leaf, one that finds none, a walk that runs and one that waits, and a load that waits at a weight-store bank. -/
theorem test_meets_WalksAndHints :
    (fetched.walkLeaf 0x4000 0x10000).toOption.isSome = true ∧ (fetched.walkLeaf 0x4000 0x200000).toOption.isNone = true ∧
    (flying (fun f => { f with walks := [(7, ⟨0, 1, 0x4000, 1⟩)] })).walkRuns 7 ⟨0, 1, 0x4000, 1⟩ = true ∧
    (flying (fun f => { f with walks := (List.range 257).map (fun k => (k, ⟨0, 1, 0x4000, k⟩)) })).walkRuns 256 ⟨0, 1, 0x4000, 256⟩ =
      false ∧
    fetched.flight.ops = [] ∧ window (weightBase + 0x1F000) = .weight 0 0x1F000 ∧ 0x1F000 / 4096 % 32 = 31 ∧
    (oneOp .load 4 0 (weightBase + 0x1F000)).lanes.all (fun x => !x.over) = true := by decide +kernel

/-- A transfer of group 2 from an offset of the mapped pages to the start of its scratchpad. -/
def xfer (src n : Nat) (done : List Nat) : Transfer := ⟨6, 2, 1, 0, BitVec.ofNat 64 src, 0, n, 3, .value 0, 0, done, [], [], false⟩

/-- TransfersMoveSegments: LDSP of the largest and of no bytes, a segment that is not the last and one that is. -/
theorem test_meets_TransfersMoveSegments :
    (let i := Instr.ldsp (tr 0 8 6 9) 15
     let s := (scal [(9, 0x3000), (6, 0x2000)]).begin_ i (opnds i)
     issuesB s && !s.inContain 2 && (match s.ldspCheck 2 (s.scalar 2 8) (s.pair 2 6) (s.scalar 2 9).toNat with
      | .ok _ => true
      | .error _ => false) && decide (tfree (s.core (s.coreOf 2)).xfer < 16)) = true ∧
    (let i := Instr.ldsp (tr 0 8 6 9) 0
     let s := (scal []).begin_ i (opnds i)
     issuesB s && decide (s.scalar 2 9 = 0) && (match s.ldspCheck 2 (s.scalar 2 8) (s.pair 2 6) 0 with
      | .ok _ => true
      | .error _ => false)) = true ∧
    [([], 0), ([0], 1)].all (fun e =>
      let x := xfer 0x1FF0 0x20 e.1
      let s := fetched.modCore 0 (fun c => { c with xfer := [(4, x)] })
      decide (s.findXfer 6 = some (0, 4, x)) && s.xferReady x e.2 && (match x.plan e.2 with
        | some (va, dst, n, _) => !s.xferHeld 0 x va n && !s.xferAstray x e.2 dst n && (tget x.again e.2).isNone &&
          (((s.coreFills 0 (s.launch x.launch).region.asid (s.launch x.launch).region.troot va n).xferMove 0 x va dst n).2.isNone)
        | none => false) && decide (x.count = 2)) = true := by decide +kernel

/-- A wait of lane 0 of group 2. -/
def waitOf (k : WaitKind) (slot : Nat) : Wait := ⟨2, 1, k, slot, 0x10004, 5, 0, ⟨0x10004, 0x10008, 0, 0, 5, [], true⟩, []⟩
/-- A state with one wait of group 2, number 9. -/
def waits (k : WaitKind) (slot : Nat) : State := flying (fun f => { f with waits := [(9, waitOf k slot)] })

/-- FencesWaitForEarlierAccesses: fences that hold and do not, and WAITSB. -/
theorem test_meets_FencesWaitForEarlierAccesses :
    issuesB (bare (.fence (tr 0 0 0 0x1E))) = true ∧ issuesB (bare (.waitsb ⟨0, 0xFE⟩)) = true ∧
    (waits (.fence true true 6) 3).earlierLoadsOver 2 9 1 = true ∧ (waits (.fence true true 6) 3).earlierStoresOut 2 9 6 = true ∧
    (let s := { withOp (oneOp .load 4 0 0x2000) [⟨1, 4, 0, 0x2002, some 0x2002, [1, 2], 0, false⟩] [] with
       flight := { (withOp (oneOp .load 4 0 0x2000) [] []).flight with waits := (waits (.fence true true 6) 3).flight.waits } }
     !s.earlierLoadsOver 2 9 1 && !s.earlierStoresOut 2 9 6) = true ∧
    ((waits (.waitsb 0xFE) 3).group 2).sb = [] := by decide +kernel


/-! ### Barriers, mailboxes, allotments, group registers, containment, match points -/

/-- `fetched` with its block changed. -/
def blocked (f : Block → Block) : State := fetched.modBlock 1 f
/-- A state with a wait and a changed block. -/
def waitsIn (k : WaitKind) (f : Block → Block) : State := (waits k 3).modBlock 1 f

/-- BarriersCountAndFlip: the five instructions, the bank's head, an engine arrival of each generation, and the waits. -/
theorem test_meets_BarriersCountAndFlip :
    [Instr.binit (ri 15 0 1023), .binitLiteral (ri 15 0 0) 0xFFFF, .barv (tr 0 0 15 0), .bexpLiteral (tr 1 0 15 0) 0xFFFFFFFF,
      .bwait (tr 2 0 15 0)].all (fun i => i.wf && issuesB (bare i) && (tget (bare i).blocks ((bare i).group 2).id.block).isSome) = true ∧
    issuesB (ready (.bexp (tr 1 0 0 127))) = true ∧ issuesB (ready (.btest (tr 3 6 15 0))) = true ∧
    (let x : BankOp := ⟨2, 15, .arrive, 3, 4⟩
     let s := blocked (fun B => { B with bank := [x] })
     decide (s.bankNext (s.block 1).bank = some x) && (tget s.blocks 1).isSome) = true ∧
    ((fetched.block 1).bar 15).gen = 0 ∧ (tget fetched.groups 2).isSome = true ∧
    [(false, true), (true, false)].all (fun e =>
      let s := waitsIn (.bwait 15 e.1) (fun B => { B with bars := List.replicate 16 ⟨1, 0, 0, 0, 0, e.2⟩ })
      decide ((s.bwaits 2 15).head?.map Prod.fst = some 9) &&
        (e.1 || decide (((s.blockOf 2).bar 15).phase ≠ (s.group 2).regs.lp.getLsbD 15)) &&
        decide ((s.group 2).run.place ≠ .stowed)) = true ∧
    (let x : BankOp := ⟨2, 15, .arrive, 3, 4⟩
     let s := waitsIn (.bwait 15 false) (fun B => { B with bank := [x], bars := List.replicate 16 ⟨1, 0, 0, 0, 0, false⟩ })
     decide (s.bankNext (s.block 1).bank = some x) && decide (s.bwaits 2 15 = [(9, false)]) &&
      decide ((((s.block 1).bar 15).apply x.kind).phase ≠ ((s.block 1).bar 15).phase) &&
      decide ((s.group 2).regs.lp.getLsbD 15 = ((s.block 1).bar 15).phase)) = true := by
  decide +kernel

/-- MailboxesHandOver: MBW, MBR and MBP issue; a fill finds its mailbox empty, and a take finds it full. -/
theorem test_meets_MailboxesHandOver :
    issuesB ((probe.beginStall (.mbw (tr 0 1 5 15)) (opnds (.mbw (tr 0 1 5 15)))).readLow (opnds (.mbw (tr 0 1 5 15)))) = true ∧
    issuesB (ready (.mbr (tr 1 126 1 15))) = true ∧ issuesB (ready (.mbp (tr 2 127 0 0))) = true ∧
    (let w := waitOf (.mbw 15 7 false) 3
     let s := waitsIn (.mbw 15 7 false) id
     !s.queuedBehind w (fun k => k.writes 15) && !((s.block 1).mbox 15).full && s.releaseOk 2 9 1 1) = true ∧
    (let w := waitOf (.mbr 0 true true 127) 3
     let s := waitsIn (.mbr 0 true true 127) (fun B => { B with mboxes := [⟨7, true, false⟩] })
     !s.queuedBehind w (fun k => k.reads 0) && ((s.block 1).mbox 0).full && !((s.block 1).mbox 0).poison &&
      !s.inHandler 2) = true := by decide +kernel

/-- AllotmentsMove: a gift that leaves 16, a claim up to 512, a claim that FREE covers, and ROLE. -/
theorem test_meets_AllotmentsMove :
    (let s := (scal [(12, 240)]).begin_ (.reggive (tr 0 0 12 0)) (opnds (.reggive (tr 0 0 12 0)))
     issuesB s && decide ((s.scalar 2 12).toNat + 16 = (s.group 2).regs.allot) && (tget s.blocks (s.group 2).id.block).isSome) = true ∧
    issuesB (bare (.reggiveLiteral (tr 0 0 0 0) 240)) = true ∧ 240 + 16 ≤ ((bare (.reggiveLiteral (tr 0 0 0 0) 240)).group 2).regs.allot ∧
    (let s := (scal [(12, 256)]).begin_ (.regclaim (tr 0 0 12 1)) (opnds (.regclaim (tr 0 0 12 1)))
     issuesB s && decide ((s.group 2).regs.allot + (s.scalar 2 12).toNat = 512)) = true ∧
    issuesB (bare (.regclaimLiteral (tr 0 0 0 1) 1)) = true ∧
    (let s := waitsIn (.claim 8) (fun B => { B with claims := [.thread 9], free := 8 })
     decide ((s.block 1).claims = [.thread 9]) && decide (8 ≤ (s.block 1).free) && decide ((s.block 1).run = .running)) = true ∧
    (let s := bare (.role (tr 0 0 8 2))
     let L := s.launch (s.group 2).id.launch
     issuesB s && L.bundle.subs[0]?.isSome && !s.inContain 2 && decide ((lead s).act = (s.group 2).occupied) &&
      decide (L.allotOf 0 = (s.group 2).regs.allot)) = true := by decide +kernel

/-- GroupRegistersReadAndClear: each index at its bounds. -/
theorem test_meets_GroupRegistersReadAndClear :
    [Instr.srdGrp (tr 0 127 0 0) 0, .srdGrp (tr 0 0 0 0) 31, .swrGrp (tr 0 5 0 1) 0, .swrGrp (tr 0 5 0 1) 2, .rdid (tr 0 126 0 2),
      .rdtime (tr 0 127 0 3), .chkset (tr 0 0 3 1), .chksetRestore (tr 1 0 3 1)].all (fun i => i.wf && issuesB (ready i)) = true ∧
    (ready (.srdGrp (tr 0 127 0 0) 0)).writtenBack 2 = true := by decide +kernel

/-- An open region of group 2. -/
def region : Contain := ⟨[], [], 0x20004, 5, [], [], 0⟩

/-- ContainmentOpensAndCloses: CTOPEN by all threads and by one, CTCLOSE with and without a region. -/
theorem test_meets_ContainmentOpensAndCloses :
    (let s := ready (.ctopen (tr 0 127 0 0) 5)
     issuesB s && !s.inContain 2 && decide ((lead s).act = (s.group 2).occupied) && !s.inHandler 2) = true ∧
    (let s := (guarded 1).begin_ (.ctopen (tr 0 3 0 0) 5) (opnds (.ctopen (tr 0 3 0 0) 5))
     issuesB s && !s.inContain 2 && decide ((lead s).act ≠ (s.group 2).occupied)) = true ∧
    (let s := (probe.modGroup 2 (fun G => { G with contain := some region })).begin_ .ctclose Opnds.none
     issuesB s && s.inContain 2) = true ∧
    issuesB (bare .ctclose) = true ∧ (bare .ctclose).inContain 2 = false := by decide +kernel

/-- A handler that group 2 is in. -/
def inPoint (n : Nat) : MatchCtx := ⟨31, allLanes, 0x10004, 0, List.replicate 128 (0x10004, 0, [], 0), n, 5⟩

/-- MatchPointsStopAndReturn: PMSET of a descriptor in memory, a hit, PMRET in a handler and outside, 64 issues. -/
theorem test_meets_MatchPointsStopAndReturn :
    (let s := ({ scal [(10, 0x8000)] with mem := memWrite (scal []).mem 0x8000 (leBytes 8 (2 ^ 63 + 0x10004) ++ leBytes 8 0x2000C) }).begin_
       (.pmset (tr 0 31 10 1)) (opnds (.pmset (tr 0 31 10 1)))
     issuesB s && decide ((s.pair 2 10).toNat % 16 = 0) && okB (s.readOwn 2 (s.pair 2 10) 16)
       (0x8000, leBytes 8 (2 ^ 63 + 0x10004) ++ leBytes 8 0x2000C) && decide ((s.core (s.coreOf 2)).points = [])) = true ∧
    (let s := fetched.modCore 0 (fun c => { c with points := [(31, ⟨0x10004, 0x2000C, 0x100, false, 0x8000⟩)] })
     decide (((s.candidates 2).head?).any (fun c => decide (c.1 = 0x10004))) && decide (s.pointAt 2 0x10004 = some 31) &&
      (match s.fetch 2 0x10004 with
       | .ok (i, sl) => decide (i = .nop) && decide (s.matching 2 (s.guardMask 2 allLanes (sl.ctl.extractLsb' 0 4)) ≠ 0)
       | .error _ => false)) = true ∧
    (let s := (probe.modGroup 2 (fun G => { G with handler := some (inPoint 64) })).begin_ .pmret Opnds.none
     issuesB s && decide ((lead s).act = allLanes) && decide ((s.group 2).handler.isSome)) = true ∧
    issuesB (bare .pmret) = true ∧ ((bare .pmret).group 2).handler = none := by decide +kernel


/-! ### Matrix operations, tiles, threads that suspend -/

/-- A convergence register of group 2 alone. -/
def kset (n : Nat) : State := probe.modBlock 1 (fun B => { B with kregs := List.replicate 16 ⟨0, n, none, 7⟩ })
/-- The state in which a set instruction of register 15 stands. -/
def signs (s : State) (i : Instr) (o : SetOp) : State := (s.beginStall i (o.opnds (s.isFirst o))).kSettle 1 o.k
/-- The four set instructions on register 15. -/
def setTerms : List Instr :=
  [.mma (tr 0 1 2 3) 0x1F, .mmag (tr 0 2 2 3) 0x1F, .mmab (tr 1 1 3 3) 0x2F, .mdrn (tr 1 1 2 0) 0x3F]

/-- MatrixOperationsSign: each set instruction inside and outside its set, with nothing signing. -/
theorem test_meets_MatrixOperationsSign :
    setTerms.all (fun i => i.wf && (match setOpOf i with
      | some o => [0, 1].all (fun n =>
        let s := signs (kset n) i o
        issuesB s && (tget s.blocks 1).isSome && decide (o.k = 15) && decide (s.kreg 1 15 = ⟨0, n, none, 7⟩) &&
          decide (s.queuedOn 1 15 = 0) && decide ((s.groupAt 1 (s.group 2).id.index).map Prod.fst = some 2) && !s.inHandler 2)
      | none => false)) = true := by decide +kernel

/-- An operation that one lane of group 2 has signed, and its state. -/
def half (i : Instr) : State :=
  let M : MatMem := ⟨2, 1, some 0, [], [], [], [], [], [], (0, 0), 0, 0, [], 0, false, false, []⟩
  { (kset 1).modBlock 1 (fun B => { B with kregs := List.replicate 16 ⟨0, 1, some 4, 7⟩ }) with
    mats := [(4, ⟨1, 15, 7, 0, i, wordsOf i, [M], .signing, 0x10004, 0, none, none, [], [], [], 0, none, 0, none, []⟩)] }

/-- MatrixOperationsSign: a second sign, of new lanes and of mixed ones, KDEF of a set that it has and of another, KDEF's
end, MACZ, MWAIT with and without an operation. -/
theorem test_meets_MatrixOperationsSign_more :
    (let i := Instr.mdrn (tr 1 1 2 0) 0x3F
     let s := (half i).begin_ i Opnds.none
     [~~~1, allLanes].all (fun act =>
       let u := signs { half i with issue := some { probe.iss with members := [⟨2, allLanes, act⟩] } } i (mdrnFields (tr 1 1 2 0) 0x3F)
       issuesB u && (s.kreg 1 15).signing.isSome && (match tget u.mats 4 with
        | some op => decide (op.words = wordsOf i) && (op.memberOf 2).any (fun e =>
          decide ((lead u).act &&& e.2.signed = if act = allLanes then 1 else 0) && decide ((lead u).act &&& ~~~e.2.signed ≠ 0) &&
            decide (e.2.wb = some u.iss.wb))
        | none => false))) = true ∧
    (let s := (kset 1).begin_ (.kdef (tr 0 15 0 1)) Opnds.none
     issuesB s && s.setResident 1 0 1 && decide ((s.kreg 1 15).base = 0) && decide ((s.kreg 1 15).n = 1)) = true ∧
    (let s := (kset 0).begin_ (.kdef (tr 0 15 0 1)) Opnds.none
     issuesB s && s.setResident 1 0 1 && decide ((s.kreg 1 15).n ≠ 1)) = true ∧
    ((waits (.kdef 15 4) 3).kSettle 1 15).kIdle 1 15 = true ∧ vecB (.macz (tr 1 1 0 0)) (ready (.macz (tr 1 1 0 0))) = true ∧
    issuesB (bare (.mwait (tr 2 15 0 0))) = true ∧ (bare (.mwait (tr 2 15 0 0))).mwaitOpen 2 15 = true ∧
    (let s := (half (.mdrn (tr 1 1 2 0) 0x3F)).begin_ (.mwait (tr 2 15 0 0)) Opnds.none
     issuesB s && !s.mwaitOpen 2 15) = true := by
  decide +kernel

/-- A drain to the latch that every lane has signed, waiting for its engine; and one that runs, with and without a fault. -/
def drained (ph : MatPhase) (engine : Option (Nat × Nat)) (fault : Option (Nat × Nat)) : State :=
  let i := Instr.mdrn (tr 0 0 2 0) 0x2003F
  let M : MatMem := ⟨2, allLanes, some 0, [], [], [], [], [], [], (0, 6), 0, 0, [], 0, false, false, []⟩
  { (fetched.modBlock 1 (fun B => { B with kregs := List.replicate 16 ⟨0, 1, none, 8⟩ })).modPart 0 (fun P => { P with engine }) with
    mats := [(4, ⟨1, 15, 7, 0, i, wordsOf i, [M], ph, 0x10004, 0, none, none, [], [], [], 0, fault, 0, none, []⟩)] }

/-- The head of partition 0's queue is operation 4, nothing keeps it from its members' registers, and a test holds of it then. -/
def heads (s : State) (p : SetOp → State → MatOp → Bool) : Bool :=
  decide ((s.part 0).engine = none) && decide ((s.part 0).queue = [4]) && decide ((s.part 0).frozen = none) && !s.partHalted 0 &&
    (match tget s.mats 4 with
    | none => false
    | some op => match setOpOf op.instr with
      | none => false
      | some o =>
        let x := State.matTake o 4 op.members.zipIdx s
        decide ((s.block op.block).run = .running) && !x.1 && (tget x.2.mats 4).any (p o x.2))

/-- EngineRunsOperations: an operation at the head of an idle engine's queue that nothing faults, one behind a store, and ones
that end, with an MWAIT. -/
theorem test_meets_EngineRunsOperations :
    (let s := drained .waiting none none
     let s1 := s.enqueueOps 0
     decide ((s1.part 0).engine = none) && heads s1 (fun o s2 op => !s2.matWaits 4 && s2.signsReleased op && !s2.imageHeld op o && o.drain && decide (s2.env.sdc = 0) &&
       (let f := s2.freshFree
        let ev := f.2.matDrain f.1 (f.2.readValues op) o
        ev.cause.isNone && decide (trapSub (f.2.launch (f.2.block op.block).id.launch).region.trapen ev.flags = 0)))) = true ∧
    (let s := ((drained .waiting none none).modGroup 2 (fun G => { G with fifo := [⟨1, 4, 0, 0x2002, some 0x2002, [1, 2], 0, false⟩] })).enqueueOps 0
     heads s (fun _ s2 op => !s2.matWaits 4 && !s2.signsReleased op)) = true ∧
    (let s := ((drained .waiting none none).modCore 0 (fun c => { c with pwait := [⟨3, 1, .op 4, false, false⟩] })).enqueueOps 0
     heads s (fun _ s2 _ => s2.matWaits 4)) = true ∧
    (let s := (((drained (.running 9) (some (4, 9)) none).modBlock 1 (fun B => { B with run := .halting 40 })).modMat 4
       (fun op => { op with cuts := [5] })).enqueueOps 0
     decide ((s.part 0).engine = some (4, 9)) && s.partHalted 0 && (tget s.mats 4).any (fun op => decide (op.phase = .running 9) && s.haltsAt op)) = true ∧
    ({ drained (.running 0) (some (4, 0)) none with mats := [] }).mwaitOpen 2 15 = true ∧
    ((drained (.running 0) (some (4, 0)) none).part 0).engine = some (4, 0) ∧
    (drained (.running 0) (some (4, 0)) none).clk.ac = 0 ∧ (drained (.running 1) (some (4, 1)) none).clk.ac < 1 ∧
    (setOpOf (.mdrn (tr 0 0 2 0) 0x2003F)).any (fun o => o.drain && decide (o.m ≠ 1)) = true ∧
    (drained (.running 0) (some (4, 0)) (some (6, 8))).inContain 2 = false ∧ (fetched.part 0).engine = none := by decide +kernel

/-- A scratchpad tile of four rows of one column, of which rows 1 and 2 are occupied and row 2 is woken. -/
def tile : Tile := ⟨0x8000, 0x8000, 0x200, 0x10008, 0x100, 0, [5], 4, true, 128, 16, 0, [1, 2], [2], 2, 1, 0, false, .none⟩
/-- `probe` with the tile bound to handle 15, and with scalars. -/
def tiled (T : Tile) (l : List (Nat × Word)) : State := (scal l).modBlock 1 (fun B => { B with tiles := [(15, T)] })

/-- TilesBindAndAnswer: what stands on a bound handle. -/
theorem test_meets_TilesBindAndAnswer :
    [Instr.tqry (tr 1 1 15 0), .tqry (tr 1 1 15 3), .binrun (tr 2 0 15 0), .wakeScalar (tr 1 0 15 3), .wakeVector (tr 2 0 15 3),
      .twakeq (tr 0 0 15 3) 0, .tapply (tr 1 0 15 3) 0x160].all (fun i =>
      let s := (tiled tile [(3, 2)]).begin_ i (opnds i)
      let u := (scal []).begin_ i (opnds i)
      i.wf && issuesB s && s.tileReady 2 && decide (tget (s.block 1).tiles 15 = some tile) && decide (handleOf 15 = 15) &&
        (match s.tileColumn 1 tile 0 with
         | .ok (rows, l) => decide (rows.length = 2) && decide (l = [])
         | .error _ => false) &&
        issuesB u && !u.inHandler 2 && decide (tget (u.block (u.group 2).id.block).tiles 15 = none)) = true := by decide +kernel

/-- A descriptor of the tile, as R245 lays it out. -/
def descriptor : List Byte :=
  leBytes 8 0x200 ++ leBytes 8 0x10008 ++ leBytes 8 0x100 ++ leBytes 8 0 ++ leBytes 2 (5 + 512) ++ List.replicate 14 0 ++
    leBytes 2 4 ++ [1, 1] ++ List.replicate 8 0 ++ leBytes 2 16 ++ [0, 0]

/-- TilesBindAndAnswer: TDEF of address 0 and of a descriptor in memory. -/
theorem test_meets_TilesBindAndAnswer_tdef :
    (let s := (scal []).begin_ (.tdef (tr 0 0 15 4)) (opnds (.tdef (tr 0 0 15 4)))
     issuesB s && s.tileReady 2 && decide (s.pair 2 4 = 0)) = true ∧
    (let s := ({ scal [(4, 0x8000)] with mem := memWrite (scal []).mem 0x8000 descriptor }).begin_ (.tdef (tr 0 0 15 4))
       (opnds (.tdef (tr 0 0 15 4)))
     issuesB s && decide ((s.pair 2 4).toNat % 64 = 0) && decide (tget (s.block 1).tiles 15 = none) && !s.backParked 0x8000 &&
      okB (s.readTile 1 0x8000) (some { tile with occ := [], woken := [], nocc := 0, nwoken := 0 })) = true := by decide +kernel

/-- ThreadsSuspendAndRunAgain: SUSP with a free row, with none and with a full count; a bin with a woken row and with none. -/
theorem test_meets_ThreadsSuspendAndRunAgain :
    [(tile, (1 : Mask)), ({ tile with occ := [0, 1, 2, 3], nocc := 4 }, allLanes), ({ tile with nocc := 4 }, allLanes)].all (fun e =>
      let T := { e.1 with names := [] }
      let p := { tiled T [] with issue := some { probe.iss with members := [⟨2, allLanes, e.2⟩] } }
      let s := (p.begin_ (.susp (tr 0 2 15 0)) (opnds (.susp (tr 0 2 15 0)))).unwindWhere 3 State.inContain
      issuesB s && s.tileReady 2 && decide ((s.group 2).sb = []) && (if e.2 = 1 then decide (T.freeRow = some 0) &&
        decide (T.nocc < T.rows) && decide ((s.group 2).occupied &&& ~~~1 ≠ 0) else decide (T.freeRow = none ∨ T.rows ≤ T.nocc))) = true ∧
    (let T := { tile with dispatch := .placed 3 }
     let s := tiled T []
     decide ((s.block 1).run = .running) && s.formServed 0 1 15 (max 16 T.names.length) && decide (T.ovf = 0) && decide (15 ≠ faultBin) &&
      (match s.readRows 1 15 T T.ready with
       | .ok d => d.all (fun x => x.toOption.isSome)
       | .error _ => false) && decide (T.ready = [2]) && decide ({ T with woken := [] }.ready = []) &&
      decide ({ T with nwoken := 0 }.ready = []) && decide (s.blockGroups 1 ≠ [])) = true := by decide +kernel


/-! ### Handlers, copies, dumps and tests -/

/-- A handle of this chip for the slot at 0x9000. -/
def handle : Wide := BitVec.ofNat 64 (2 ^ 48 * Config.chipId + 0x9000)
/-- A record with that handle. -/
def record (o : Origin) (kind state action : Nat) : FRec :=
  ⟨kind, 0, 1, o, probeRegion, { probeRegion.dom with maxDepth := 4 }, some 0, 0, 0, 0, 0x10004, 0, [0, 0, 0, 0], 0, 0, some handle, false,
    state, action, false, none, true, none, false, false, 0, 0, false, none, [], []⟩
/-- What a parked lane keeps. -/
def replay : Replay := ⟨0x2000, [5], true, 0, [], [], false, false, none, 6, true⟩
/-- The group 2 of a state, parked in its first two lanes, as group 7. -/
def parked (G : Group) : Group :=
  { G with threads := (List.range 128).map (fun l => if l < 2 then { (G.thread l) with st := .parked, replay := some replay } else G.thread l) }
/-- `probe` as a handler of the domain, the record's handle in s4 and s5, and group 7 parked. -/
def handler (r : FRec) (l : List (Nat × Word)) : State :=
  let s := scal ([(4, loWord handle), (5, hiWord handle)] ++ l)
  let s := s.modLaunch 0 (fun L => { L with fault := some ⟨handle, some 6, r.kind, 0, 1, probeRegion⟩ })
  { s with faults := ⟨[(6, r)]⟩, groups := s.groups ++ [(7, parked (s.group 2))] }
/-- What a handler's instruction finds: its issue, its domain, the record. -/
def servesB (s : State) (r : FRec) : Bool :=
  issuesB s && decide (s.handlerOf 2 = some (probeRegion.dom.rcb, handle, false)) && thisChip (handleChip (s.pair 2 4)) &&
    okB (s.pkCheck (s.pair 2 4) (some probeRegion.dom.rcb) false) (6, r) && s.earlierStoresOut 2 s.env.nextId 5 && decide ((s.group 2).run.place ≠ .gone)

/-- HandlersServeParkedWork: the reads and writes of a record of lanes, and of one of a segment. -/
theorem test_meets_HandlersServeParkedWork_words :
    (let r := record (.lanes 7 3) 1 0 0
     [Instr.pkrdRec (tr 0 9 4 0) 31, .pkrdReg (tr 1 9 4 0) 0x205, .pkrdRpl (tr 2 9 4 0) 0x203].zipIdx.all (fun e =>
       let s := (handler r []).begin_ e.1 (opnds e.1)
       let sel : Word := [31, 0x205, 0x203].getD e.2 0
       e.1.wf && servesB s r && decide (s.pkSelector 2 e.2 sel = some sel) && (match s.pkRead 6 r e.2 sel.toNat with
        | .ok _ => true
        | .error _ => false))) = true ∧
    (let r := record (.lanes 7 3) 1 0 0
     let s := (handler r [(9, 1)]).begin_ (.pkwrReg (tr 1 9 4 1) 0x205) (opnds (.pkwrReg (tr 1 9 4 1) 0x205))
     servesB s r && decide (s.pkGroup r 0x205 = some 7) && (tget s.groups 7).isSome && decide (tget (s.group 7).map 5 = none) &&
       !(s.group 7).run.spilled && !s.inMatrix 7 5 && decide (s.poolSays 7 1 (.patch (some (2, s.iss.pc, s.iss.wb))) = .ok) && (r.binned).isNone &&
       (let u := s.modCore 0 (fun c => { c with pwait := [⟨9, 1000000, .refill, false, true⟩] })
        issuesB u && decide (u.poolSays 7 1 (.patch (some (2, u.iss.pc, u.iss.wb))) = .wait) && u.needsPhys 7 5 (laneBit 1) false) &&
       decide (((s.group 7).thread 1).stash = []) && decide (s.parkedLane 6 r 1 = some (7, replay))) = true ∧
    (let r := record (.segment 3 0) 1 0 0
     let s := (handler r [(9, 1)]).begin_ (.pkwrRec (tr 0 9 4 1) 23) (opnds (.pkwrRec (tr 0 9 4 1) 23))
     servesB s r && decide (r.origin.otype = 2) && decide (tget s.faults.recs 6 = some r)) = true := by decide +kernel

/-- A handler's state with group 7 in a stowed block of its own. -/
def away (s : State) : State :=
  { s.modGroup 7 (fun G => { G with id := { G.id with block := 3 } }) with blocks := s.blocks ++ [(3, { s.block 1 with run := .stowed })] }

/-- HandlersServeParkedWork: each service of parked lanes, also stowed ones, of a record that was served, and of an origin that
lacks it. -/
theorem test_meets_HandlersServeParkedWork_services :
    [(Instr.pkres (tr 0 9 4 2), (⟨1, 0, 0⟩ : Service)), (.pkrty (tr 0 9 4 3), ⟨2, 0, 0⟩), (.pkdir (tr 0 9 4 4) 0x40, ⟨3, 0, 0⟩),
      (.pkkil (tr 0 9 4 5), ⟨4, 0, 0⟩)].all (fun e =>
      let r := record (.lanes 7 3) kTrap 0 0
      let s := (handler r []).begin_ e.1 (opnds e.1)
      let u := (handler (record (.lanes 7 3) 1 2 1) []).begin_ e.1 (opnds e.1)
      e.1.wf && servesB s r && !e.2.unsup r.origin && decide (s.parkedLane 6 r 1 = some (7, replay)) && servesB u (record (.lanes 7 3) 1 2 1) &&
        !s.originStowed r.origin &&
        servesB (away s) r && (away s).originStowed r.origin && decide (tget (away s).faults.recs 6 = some r) &&
        (tget (s.pkServe 6 r e.2).2.groups 2).isSome && decide (((s.pkServe 6 r e.2).2.group 2).run.place ≠ .gone)) = true ∧
    (let r := record (.region 1) 1 0 0
     let s := (handler r []).begin_ (.pkdir (tr 0 9 4 4) 0x40) (opnds (.pkdir (tr 0 9 4 4) 0x40))
     servesB s r && (⟨3, 0, 0⟩ : Service).unsup r.origin) = true ∧
    (let r := record (.lanes 7 3) 1 0 0
     let s := { handler r [] with net := { (handler r []).net with grants := [(3, ⟨0x123, 1, 1, 0x4000⟩), (4, ⟨0x124, 0x11, 1, 0x4000⟩)] } }
     !s.inLine (.pk ⟨.readReg, handle, 0x205, 0, handle, 5, false, 0x123⟩) && (s.grantOf 0x123).any (fun G => !G.world) &&
      (s.grantOf 0x124).any Grant.world && decide (s.grantOf 0x125 = none) && okB (s.pkCheck handle (s.domOf handle) false) (6, r) &&
      (match s.pkRead 6 r 1 0x205 with
      | .ok _ => true
      | .error _ => false) && errB (s.pkCheck 5 (s.domOf handle) false) (kProt, 4)) = true := by decide +kernel

/-- The image of a copy of `n` bytes. -/
def image (n : Nat) : List Byte :=
  leBytes 8 0 ++ [7, 0, 0, 0, 0, 0, 0, 0] ++ leBytes 8 0 ++ leBytes 8 0x9000 ++ leBytes 8 0xA000 ++ leBytes 8 0 ++ leBytes 4 n ++
    leBytes 4 0 ++ leBytes 8 0

/-- CopiesAreSubmittedAndAwaited: CPSUB at both alignments, the read of its image, its admission, one with a bad header and one
that is illegal. -/
theorem test_meets_CopiesAreSubmittedAndAwaited :
    (let i := Instr.cpsub (tr 0 5 6 0) 0x7FFFFFF
     [(0x8000, 0), (0x8001, 1)].all (fun e =>
       let s := ((scal [(6, e.1)]).begin_ i (opnds i)).unwindWhere 3 State.inContain
       issuesB s && decide (s.replayOf 2 0 = none) && decide ((s.imageAddr (tr 0 5 6 0) 2 0).toNat % 64 = e.2) && !s.inHandler 2)) = true ∧
    (let w := waitOf (.cpsub 5 none 0 (.value 0) 0x8000) 3
     let s := waits w.kind 3
     let u := { s with mem := memWrite s.mem 0x8000 (image 64) }
     s.earlierStoresOut 2 9 4 && okB (u.vread (pathOf (s.coreOf 2)) (s.regionOf 2).troot (s.regionOf 2).world 0x8000 64) (image 64) &&
       !u.vaHeld (s.regionOf 2).troot (s.regionOf 2).world 0x8000 64 &&
       (let h := { u with mem := memWrite u.mem 0x5008 (leBytes 8 (weightBase + 0x1F)) }
        (match h.vread (pathOf (h.coreOf 2)) (h.regionOf 2).troot (h.regionOf 2).world 0x40000000 64 with
        | .ok _ => true
        | .error _ => false) && h.vaHeld (h.regionOf 2).troot (h.regionOf 2).world 0x40000000 64) &&
       (match ({ s with mem := [] }).vread (pathOf (s.coreOf 2)) (s.regionOf 2).troot (s.regionOf 2).world 0x8000 64 with
        | .ok _ => false
        | .error _ => true)) = true ∧
    [image 64, List.replicate 64 0].all (fun b =>
      let w := waitOf (.cpsub 5 (some b) 0 (.value 0) 0x8000) 3
      let s := waits w.kind 3
      let a := s.kernelAsk w b 0 (.value 0) 0x8000
      !s.groupHeld (9, w) b (s.intoWeight a.space a.img) && decide (leAt b 0x10 8 = 0) &&
        (!imageHeaderOk b || s.copyIllegal a) && !s.inHandler 2 && !s.scalarTaken 2 5 w.lanes w.seq) = true ∧
    imageHeaderOk (image 64) = true ∧ imageHeaderOk (List.replicate 64 0) = false ∧
    ((withOp (oneOp .store 4 0 0x2000) [⟨1, 4, 0, 0x2002, some 0x2002, [1, 2], 0, false⟩] []).earlierStoresOut 2 9 4) = false := by
  decide +kernel

/-- A copy of `n` bytes on channel 3 of die 0 in context 7. -/
def copy (n : Nat) (done : List Nat) : Copy :=
  ⟨⟨.group 2 0 0 0 0, probeRegion, 0x4000, false, 0, 0, 1, 2 ^ 40, 2 ^ 40, false, false, false, 0, 0, none, 0, false, 1, default, 0⟩,
    { (default : CopyImage) with src := 0x9000, dst := 0xA000, rchip := 0xFFFF, seg := 256, size := n, deadline := 1, budget := 1 },
    0, 3, 7, 0, done, [], [], [], [], [], none, 0, false, [], [], [], none⟩
/-- A state with it. -/
def copies (s : State) (n : Nat) (done : List Nat) : State :=
  { s with copies := ⟨[(8, copy n done)], [(3, { (default : Chan) with ctxs := [(7, ⟨0, 5, some 8, 0, 0⟩)] })]⟩ }
/-- Its handle. -/
def copyHandle : Word := 1 + 2 ^ 10 * 3 + 2 ^ 14 * 7 + 2 ^ 17 * 5

/-- CopiesAreSubmittedAndAwaited: CPWP, CPWP.raw and CPWAIT, and what handles say. -/
theorem test_meets_CopiesAreSubmittedAndAwaited_waits :
    [Instr.cpwp (tr 1 5 6 0) 0, .cpwpRaw (tr 3 4 6 0) 0, .cpwait (tr 2 5 6 0) 0].all (fun i => i.wf && issuesB (ready i)) = true ∧
    fld copyHandle 0 8 = 1 ∧ ((copies fetched 64 []).handleCtx copyHandle).serial.toNat = fld copyHandle 17 15 ∧
    ((copies fetched 64 []).handleCtx copyHandle).copy.isSome = true ∧ (copies fetched 64 []).waitedStatus copyHandle = none ∧
    (copies fetched 64 []).waitedStatus 9 = some 9 ∧ fld (9 : Word) 0 8 ≠ 1 ∧ fetched.waitedStatus copyHandle = some 0 := by decide +kernel

/-- CopiesMoveAndComplete: the last segment of a copy, one that does not translate, and a copy that has landed whole. -/
theorem test_meets_CopiesMoveAndComplete :
    (let s := copies fetched 300 [0]
     let c := copy 300 [0]
     decide ((s.channelHead c.key).map Prod.fst = some 8) && c.nextSeg.any (fun p =>
       decide (p.seg = 1) && decide (p.off = 0) && decide (p.dst = (c.img.segAt 1).2) && decide (p.dst.toNat % 32 = 0xA100 % 32) &&
       decide (tget c.arrived 1 = none) && !s.segWaits c p && decide (c.away = []) && decide (c.parts = []) && !s.spire.boot.tempHold &&
       decide (s.spire.dram = []) && memWf s.mem && okB (s.pieceRuns c.space .copyRead p.src [(0, c.img.segLen 1)]) [(0x9100, 44)] &&
       okB (s.pieceRuns c.space .copyWrite p.dst [(0, c.img.segLen 1)]) [(0xA100, 44)]) && !s.runsHeld [(0x9100, 44), (0xA100, 44)] &&
       decide ((s.readPieces [dieNode 0] [(0x9100, 44)]).2 = none) && decide (s.node (dieNode 0) = []) && decide (c.space.troot = 0x4000)) = true ∧
    (let c := copy 300 [0]
     c.nextSeg.any (fun p => match (copies { fetched with mem := [] } 300 [0]).pieceRuns c.space .copyRead p.src [(0, c.img.segLen 1)] with
      | .ok _ => false
      | .error _ => true)) = true ∧
    [(false, none), (true, none), (true, some 9)].all (fun e =>
      let c := copy 300 [0, 1]
      { c with img := { c.img with baren := e.1 }, arriving := e.2 }.finishes) = true ∧ tget fetched.flight.arrivals 9 = none ∧
    tget (flying (fun f => { f with arrivals := [(9, ⟨some 1, 0, .value 0, 0, 2, none⟩)] })).flight.arrivals 9 ≠ none ∧
    (copy 300 [0, 1]).finishes = true ∧ (copy 300 [0]).finishes = false ∧ (copy 300 [0, 1]).nextSeg = none := by decide +kernel

/-- A dump that stands ready. -/
def dump : Dump := ⟨2, 127, 9, 0x8000, 4096, List.replicate 64 1, 64, 0⟩

/-- DumpsAndTestsComplete: PSTOP of its own partition, a frozen partition, FTEST with each outcome, and its end. -/
theorem test_meets_DumpsAndTestsComplete :
    (let i := Instr.pstop (tr 0 8 10 0) 0x1100
     let s := (scal [(10, 0x8000)]).begin_ i (opnds i)
     i.wf && issuesB s && decide ((s.pair 2 10).toNat % 64 = 0) && decide ((s.part s.iss.part).frozen = none)) = true ∧
    (let s := (waits (.dump 127) 3).modPart 0 (fun P => { P with frozen := some dump })
     decide ((s.part 0).frozen = some dump) && decide ((tget s.flight.waits 9).map Wait.gid = some 2) && !s.scalarTaken 2 9 (waitOf (.dump 127) 3).lanes 5 && (match s.vwrite deviceNode (s.regionOf 2).troot (s.regionOf 2).world 0x8000 (dump.image.take 64) with
      | .ok _ => true
      | .error _ => false) && (match ({ s with mem := [] }).vwrite deviceNode 0x4000 false 0x8000 (dump.image.take 64) with
      | .ok _ => false
      | .error _ => true)) = true ∧
    (let i := Instr.ftest (tr 0 9 8 0)
     let s := ready i
     let u := ((scal [(8, 1)]).modLaunch 0 (fun L => { L with region := { L.region with world := true } })).begin_ i (opnds i)
     let v := ((scal [(8, 4)]).modLaunch 0 (fun L => { L with region := { L.region with world := true } })).begin_ i (opnds i)
     issuesB s && !(s.regionOf 2).world && issuesB u && (u.regionOf 2).world && decide (u.ftestCode 2 (u.scalar 2 8) = none) &&
       issuesB v && decide (v.ftestCode 2 (v.scalar 2 8) = some 5)) = true ∧
    (let s := (waits (.ftest 9 1 true) 3).modCluster 1 (fun c => { c with testing := some 9 })
     decide ((s.cluster 1).testing = some 9) && s.clusterStowed 1 && decide (s.blocksOn 1 = []) && !s.inHandler 2 && !s.scalarTaken 2 9 1 5) = true ∧
    (waits (.ftest 9 0 true) 3).clusterStowed 0 = false ∧ (fetched.part 0).frozen = none := by decide +kernel


/-! ### Groups, blocks, budgets, queues and packets -/

/-- `fetched` at a cycle and a time. -/
def at_ (s : State) (ac ns : Nat) : State := { s with clk := { s.clk with ac, ns } }
/-- `fetched` with group 2 changed. -/
def grouped (f : Group → Group) : State := fetched.modGroup 2 f

/-- GroupsShareIssueAndRegisters: a starved split, a pending group that is ready, and one that has waited 1,024 ac. -/
theorem test_meets_GroupsShareIssueAndRegisters :
    (let s := at_ (grouped (fun G => { G with threads := G.threads.map (fun t => { t with since := some 0 }) })) 64 0
     (s.starved 0).isSome && !s.owedNow 0) = true ∧
    (let s := at_ (grouped (fun G => { G with run := { G.run with place := .pending, readySince := some 0 } })) 1024 0
     (firstBy s.older (s.pendingReady 0)).isSome && decide ((s.part 0).frozen = none) && decide ((s.ordinaryActive 0).length < 8)) = true ∧
    (let s := at_ (grouped (fun G => { G with run := { G.run with place := .pending, readySince := some 0 } })) 1024 0
     let u := { s with groups := s.groups ++ [(7, fetched.group 2)] }
     decide ((firstBy u.older ((u.pendingReady 0).filter (fun e => match e.2.run.readySince with
      | some t => decide (t + 1024 ≤ u.clk.ac)
      | none => false))).map Prod.fst = some 2) &&
     decide ((firstBy (fun a b => decide (a.2.run.entered < b.2.run.entered)) (u.ordinaryActive 0)).map Prod.fst = some 7)) = true := by
  decide +kernel

/-- Eight active groups of partition 0, of which 7 waits where `w`, and group 2 pending. -/
def eight (w : Bool) : State :=
  let G := fetched.group 2
  at_ { fetched with groups := (2, { G with run := { G.run with place := .pending, readySince := some 0 } }) :: (List.range 8).map (fun i =>
    (7 + i, if w && decide (i = 0) then { G with threads := G.threads.map (fun t => { t with st := .waiting }) } else G)) } 10 0

/-- GroupsShareIssueAndRegisters: a full active set with and without a group that meets a long-latency dependence. -/
theorem test_meets_GroupsShareIssueAndRegisters_swap :
    [true, false].all (fun w =>
      let s := eight w
      decide ((firstBy s.older (s.pendingReady 0)).map Prod.fst = some 2) && decide ((s.part 0).frozen = none) &&
        decide (8 ≤ (s.ordinaryActive 0).length) && decide (((s.ordinaryActive 0).find? (fun e => s.longStall e.1)).map Prod.fst =
          if w then some 7 else none)) = true := by decide +kernel

/-- A pool of core 0 with one request of group 2, and group 7 stowed with a register of its own. -/
def pooled (n : Nat) : State :=
  let G := fetched.group 2
  ({ fetched with groups := [(2, G), (7, { G with run := { G.run with place := .stowed }, map := [(5, ⟨.phys 0, allLanes⟩)] })] }).modCore 0
    (fun c => { c with pool := [(0, ⟨7, [3], 0, 0, 0, true, false⟩)], pwait := [⟨2, n, .split 0x10004 0, false, false⟩, ⟨2, 1, .split 0x20004 0, false, false⟩] })

/-- GroupsShareIssueAndRegisters: a request that can be met, one that cannot with its victim, and a refill. -/
theorem test_meets_GroupsShareIssueAndRegisters_pool :
    [1, 10000].all (fun n =>
      let s := pooled n
      let u := s.modCore 0 (fun k => { k with pwait := k.pwait.filter (fun q => !s.staleReq q) })
      decide ((u.core 0).pwait.length = 1) && (u.poolHead 0).any (fun q => decide (u.canServe 0 q = decide (n = 1)))) = true ∧
    ((pooled 10000).poolHead 0).any (fun q => !(pooled 10000).canServe 0 q &&
      ((pooled 10000).nextVictim 0 (some q.gid)).any (fun v => decide (v.1 = 7) &&
        decide ((pooled 10000).spillFault 7 (((pooled 10000).core ((pooled 10000).coreOf 7)).held 7) .store = none))) = true ∧
    (let s := (grouped (fun G => { G with run := { G.run with spilled := true }, map := [(5, ⟨.spilled 1 [3] 0 false, allLanes⟩)] })).modCore 0
       (fun c => { c with pwait := [⟨2, 1, .refill, false, true⟩] })
     !s.spillStuck 2 && decide ((s.blockOf 2).run = .running) &&
      ((s.core (s.coreOf 2)).pwait.find? (PoolReq.refills 2)).any PoolReq.granted &&
      decide (s.spillFault 2 (s.spilledCount 2) .load = none) && decide ((s.mappingsOf 2).length = 1) &&
      decide ((s.group 2).contain = none) && decide ((s.group 2).landing = [])) = true ∧ (fetched.group 2).run.spilled = false := by
  decide +kernel

/-- A package with an admitted bundle whose one block has not started. -/
def admitted : State :=
  { fetched with
    groups := [], blocks := [], cores := [], parts := []
    belfry := { fetched.belfry with launches := [(0, { probeLaunch with bundle := { probeLaunch.bundle with clmask := 1, variants := [[1, 0, 0, 0]] } })] } }

/-- BlocksPlaceStowAndRetire: a fresh block, a stowed one, a bin, a head that finds room only by pre-emption. -/
theorem test_meets_BlocksPlaceStowAndRetire :
    (match admitted.items 0 with
     | h :: _ => decide (h = .fresh 0 0) && (admitted.bestPlace h).isSome
     | [] => false) = true ∧ admitted.spire.boot.inReset = [] ∧ admitted.spire.boot.tempHold = false ∧
    (let s := (blocked (fun B => { B with run := .stowed })).modGroup 2 (fun G => { G with run := { G.run with place := .stowed } })
     match s.items 0 with
     | h :: _ => decide (h = .stowed 1) && (s.bestPlace h).isSome
     | [] => false) = true ∧
    (let s := blocked (fun B => { B with id := { B.id with g := 2 }, tiles := [(15, { tile with dispatch := .item, binrun := true })] })
     match s.items 0 with
     | h :: _ => decide (h = .bin 1 15) && (s.bestPlace h).isSome
     | [] => false) = true ∧ admitted.items 3 = [] := by decide +kernel

/-- BlocksPlaceStowAndRetire: a halt that is due and one that is not, and a launch that may retire and one that may not. -/
theorem test_meets_BlocksPlaceStowAndRetire_ends :
    (at_ (blocked (fun B => { B with run := .halting 41 })) 41 0).haltReady 1 = true ∧
    (at_ (blocked (fun B => { B with run := .halting 41 })) 40 0).haltReady 1 = false ∧
    (let s := ((blocked (fun B => { B with run := .stowed })).modGroup 2 (fun G => { G with run := { G.run with place := .stowed } })).modCluster 0
       (fun c => { c with testing := some 9 })
     s.leavesNow 1 && !s.haltReady 1) = true ∧
    (let L := { probeLaunch with waitBlocks := [], started := 1, exited := 1 }
     ({ admitted with belfry := { admitted.belfry with launches := [(0, L)] } }).mayRetire 0 L) = true ∧
    fetched.mayRetire 0 (fetched.launch 0) = false := by decide +kernel

/-- A server with a period of 1,000 ns that started at 500. -/
def server : Server := ⟨100, 1000, 0, 500, 0, 7, 0, 0, true, true, 3000⟩

/-- BudgetsAreEnforced: times before, at and after the tick, the period and the write-back. -/
theorem test_meets_BudgetsAreEnforced :
    (99 < 100 ∧ server.period ≠ 0 ∧ server.pstart + server.period ≤ 1500 ∧ 1499 < server.pstart + server.period ∧
      server.nextWrite ≤ 3000 ∧ 2999 < server.nextWrite) ∧ memRun (0x100 + 0xC0) 16 = true ∧ inWeight (0x100 + 0xC0) = false ∧
      fetched.quarantined (0x100 + 0xC0) = false ∧ fetched.clk.ns < fetched.belfry.nextTick ∧
    tget [(0x100, server)] 0x100 = some server := by decide +kernel

/-- A queue of 64 slots at 0x8000 with its header at 0x7000, and the packet it acts on. -/
def queue (rd : Nat) (p : Option Packet) (awake : Bool) : Queue :=
  ⟨0x7000, 64, 0x8000, 1, 0x4000, false, true, rd, p, 0, awake, 0, false, [], 0x8000, []⟩
/-- A packet of a type, with bytes from 0x10 on. -/
def packet (ty : Nat) (step : Nat) (body : List Byte) : Packet :=
  ⟨0, leBytes 8 1 ++ [BitVec.ofNat 8 ty, 0, 0, 0, 0, 0, 0, 0] ++ body ++ List.replicate (48 - body.length) 0, step, 0, false, none, 0, []⟩
/-- A package whose queue 3 is served by its processor. -/
def served (Q : Queue) (m : List Host.Cell) : State :=
  { fetched with
    mem := m
    belfry := { fetched.belfry with queues := [(3, Q)], procs := [(3, ⟨some 3, 2000⟩)], qreg := [(3, ⟨0x7000, true, false, false⟩)] } }

/-- QueuesWakeFetchAndRotate: a changed ticket's line and one that is as it was, a queue that polls, a published ticket, one that
is not, one that cannot be read, a slot that is read, and one whose body cannot be, a skip, and a slice's end. -/
theorem test_meets_QueuesWakeFetchAndRotate :
    (let m := memWrite fetched.mem 0x8000 (packet 10 0 []).bytes
     let s := served (queue 0 none false) m
     let u := served (queue 0 none true) m
     let v := served (queue 1 none true) m
     let x := served { queue 0 none true with skips := 1 } m
     s.belfryUp && decide (s.watched (queue 0 none false) 0x8000 ≠ []) &&
      decide (s.watched { queue 0 none false with seen := s.watched (queue 0 none false) 0x8000 } 0x8000 = s.watched (queue 0 none false) 0x8000) &&
      s.published { queue 0 none false with watch := false } && !v.published { queue 1 none false with watch := false, checkAt := 1 } &&
      (match x.ticketAt { queue 0 none true with skips := 1, slotBase := 0x200000 } with
       | .ok _ => false
       | .error _ => true) &&
      (let y := { u with flight := { u.flight with poison := [0x401] } }
       okB (y.ticketAt (queue 0 none true)) 1 && (match y.belfryRead (queue 0 none true).space 0x8000 64 with
        | .ok _ => false
        | .error _ => true)) && u.turn 3 && okB (u.ticketAt (queue 0 none true)) 1 &&
      okB (u.belfryRead (queue 0 none true).space 0x8000 64) (packet 10 0 []).bytes && (queue 0 none true).legal (packet 10 0 []) &&
      (match u.belfryWrite (queue 0 none true).space 0x8000 (leBytes 8 64) with
       | .ok _ => true
       | .error _ => false) && v.turn 3 && !v.published (queue 1 none true) && x.turn 3 && okB (x.ticketAt { queue 0 none true with skips := 1 }) 1 &&
      (at_ u 0 2000).between 3 && !fetched.turn 3) = true := by decide +kernel

/-- Whether a packet of queue 3 may be acted on. -/
def actsB (p : Packet) (ty : Nat) : Bool := ((served (queue 0 (some p) true) fetched.mem).actable 3 ty).any (fun e => decide (e.2 = p))

/-- LaunchAndCopyPacketsAreAdmitted and PacketsTakeTheirSteps: packets of each type at each of their steps. -/
theorem test_meets_PacketsTakeTheirSteps :
    actsB (packet 1 0 []) 1 = true ∧ (packet 1 0 []).isTask = false ∧ actsB (packet 7 0 []) 7 = true ∧ actsB (packet 10 0 []) 10 = true ∧
    [2, 3, 5, 8, 9].all (fun ty => actsB (packet ty 0 []) ty && actsB (packet ty 1 []) ty) = true ∧
    actsB (packet 4 2 []) 4 = true ∧ (packet 4 2 []).field 0x3C 1 = 0 ∧
    actsB (packet 4 6 (List.replicate 44 0 ++ [1])) 4 = true ∧ (packet 4 6 (List.replicate 44 0 ++ [1])).field 0x3C 1 = 1 ∧
    actsB { packet 6 0 [] with val := 1 } 6 = true ∧ actsB (packet 6 0 []) 6 = true ∧ actsB { packet 5 0 [] with val := 1 } 5 = true ∧
    (packet 5 0 []).field 0x18 8 = 0 ∧ memRun 0x7008 8 = true ∧
    [5, 6].all (fun ty =>
      let p := { packet ty 0 [] with val := 1 }
      (((served { queue 0 (some p) true with skips := 1 } fetched.mem).actable 3 ty).any (fun e => decide (e.2 = p)))) = true ∧
    (let p := packet 5 0 (leBytes 8 0 ++ leBytes 8 0x9000)
     actsB p 5 && decide (p.field 0x18 8 ≠ 0) && okB ((served (queue 0 (some p) true) fetched.mem).belfryRead ⟨0x4000, false⟩ 0x9000 8) (leBytes 8 0)) = true ∧
    (let p := packet 2 0 (leBytes 8 0 ++ leBytes 8 0x9000)
     okB ((served (queue 0 (some p) true) fetched.mem).waitRead (queue 0 (some p) true) p) (waitHolds 0 0 0) &&
       (match (served (queue 0 (some p) true) []).waitRead (queue 0 (some p) true) p with
        | .ok _ => false
        | .error _ => true) && actsB { p with val := 1 } 2 &&
       (let s := served (queue 0 (some { p with held := true }) true) fetched.mem
        s.between 3 && s.belfryUp && !s.belfryHeld (queue 0 (some { p with held := true }) true))) = true ∧
    (let p := packet 3 0 (leBytes 8 0 ++ leBytes 8 0x9000 ++ leBytes 8 7 ++ leBytes 2 0xFFFF ++ [8])
     let s := served (queue 0 (some p) true) fetched.mem
     actsB p 3 && thisChip (p.field 0x28 2) && decide (p.field 0x18 8 = 0x9000) && (match s.belfryWrite (queue 0 none true).space 0x9000 (leBytes 8 7) with
      | .ok _ => true
      | .error _ => false)) = true := by decide +kernel

/-- A LAUNCH packet with FAULT and the handle. -/
def taskPacket : Packet :=
  ⟨0, leBytes 8 1 ++ [1, 2, 0, 0, 0, 0, 0, 0] ++ List.replicate 32 0 ++ leBytes 8 handle.toNat ++ leBytes 8 0, 0, 0, false, none, 0, []⟩

/-- LaunchAndCopyPacketsAreAdmitted: a FAULT packet of a record that awaits its task, and of none. -/
theorem test_meets_LaunchAndCopyPacketsAreAdmitted :
    (let r := { record (.lanes 2 1) 1 0 0 with appended := true }
     let s : State := { served (queue 0 (some taskPacket) true) fetched.mem with faults := ⟨[(6, r)]⟩ }
     taskPacket.isTask && actsB taskPacket 1 && decide (BitVec.ofNat 64 (taskPacket.field 0x30 8) = handle) && thisChip (handleChip handle) &&
       decide (s.recOf handle = some (6, r)) && decide (r.task = none) && decide (s.admittedCount < 16384) &&
       decide ((served (queue 0 (some taskPacket) true) fetched.mem).recOf handle = none)) = true := by decide +kernel


/-! ### System registers, the Spire, records on their way, and links -/

/-- A write on its way to a system register. -/
def sysWrite (off : Nat) (v : Wide) (world : Bool) : SysWrite := ⟨off, 8, v, world, 1, 0, 2⟩
/-- The Spire of `fetched` changed. -/
def spired (f : Spire → Spire) : State := { fetched with spire := f fetched.spire }

/-- SystemRegisterWritesTakeEffect: writes to the registers it names, at the edges of their ranges. -/
theorem test_meets_SystemRegisterWritesTakeEffect :
    [(0x400000, SysBlock.trace), (0x400008, .trace), (0x400010, .trace), (0, .qreg), (8, .qreg), (0xFFF8, .qreg), (0x10100, .tlbinv),
      (0x10000, .refresh), (0x10008, .campanile), (0x100000, .banks), (0x500000, .mailbox)].all (fun e =>
        decide (sysBlock e.1 = some e.2) &&
        (tget (flying (fun f => { f with sysw := [(4, sysWrite e.1 1 false)] })).flight.sysw 4).isSome) = true ∧
    (let s := served (queue 0 (some (packet 10 0 [])) true) []
     let t := { s with belfry := { s.belfry with qreg := [(3, ⟨0x7000, false, false, false⟩)] } }
     t.qregWaits (sysWrite 56 1 false) = true ∧ s.qregWaits (sysWrite 56 0 false) = false ∧ fetched.qregWaits (sysWrite 56 1 false) = false ∧
       (tgetD s.belfry.qreg 3).valid = true ∧ (tgetD fetched.belfry.qreg 3).valid = false) ∧
    bankExists 0 = true ∧ bankExists 4113 = true ∧ bankExists 4114 = false ∧ fetched.spire.mail.status ≠ 1 ∧
    1 ≤ (sysWrite 0x500000 2 true).size ∧ (sysWrite 0x400000 1 false).wide = true := by decide +kernel

/-- SystemRegisterWritesTakeEffect: rails, lanes, samples and refresh rates. -/
theorem test_meets_SystemRegisterWritesTakeEffect_margin :
    railExists 33 = false ∧ railExists 3 = false ∧ railExists 0 = true ∧ railExists 32 = true ∧
    fetched.spire.margin.contains (railDie 0) = false ∧ (spired (fun p => { p with margin := [0, 4] })).spire.margin.contains (railDie 32) = true ∧
    (sextN 7 (fld (20 : Wide) 0 7)).natAbs ≤ 20 ∧ 20 < (sextN 7 (fld (21 : Wide) 0 7)).natAbs ∧
    (let s := at_ (spired (fun p => { p with rails := [(0, ⟨1, 0, true, false, 0, 1000⟩)] })) 0 1000
     (tgetD s.spire.rails 0).busy = true ∧ (tgetD s.spire.rails 0).doneAt ≤ s.clk.ns ∧ (at_ s 0 999).clk.ns < (tgetD s.spire.rails 0).doneAt ∧
       (tgetD s.spire.rails 1).busy = false) ∧
    laneExists 247 = true ∧ laneExists 248 = false ∧ fetched.laneOpen 247 = true ∧
    ({ fetched with net := { fetched.net with ports := [(15, { (default : Port) with up := true })] } }).laneOpen 247 = false ∧
    (let s := spired (fun p => { p with lanes := [(0, { (default : LaneReg) with scanning := true })] })
     (tgetD s.spire.lanes 0).scanning = true ∧ (tgetD s.spire.lanes 1).scanning = false) ∧
    (let s : State := { at_ fetched 64 0 with trace := { fetched.trace with en := true, sample := 1, nextSample := 64 } }
     s.trace.en = true ∧ fld s.trace.sample 0 16 ≠ 0 ∧ s.trace.nextSample ≤ s.clk.ac ∧ (at_ s 63 0).clk.ac < s.trace.nextSample ∧
       s.trace.types.getLsbD 9 = false) := by decide +kernel

/-- `fetched` with a pending command and the arguments that it takes. -/
def commanded (cmd : Byte) (args : List Nat) : State :=
  spired (fun p => { p with mail := ⟨cmd, 1, (args.flatMap (leBytes 8)).zipIdx.map (fun e => (e.2, e.1)), []⟩ })

/-- SpireRunsCommandsAndBoots: the commands, with arguments at the edges of their ranges. -/
theorem test_meets_SpireRunsCommandsAndBoots_commands :
    (commanded 1 []).cmdIs 1 = true ∧ fetched.cmdIs 1 = false ∧ (commanded 2 []).cmdIs 2 = true ∧
    (commanded 3 [255, 0, 0]).cmdIs 3 = true ∧ (commanded 3 [255]).argAt 0 = 255 ∧ (commanded 3 [256]).argAt 0 = 256 ∧
    (commanded 4 [3]).cmdIs 4 = true ∧ (commanded 4 [3]).argAt 0 = 3 ∧ (commanded 4 [4]).argAt 0 = 4 ∧ (commanded 4 [15]).argAt 0 = 15 ∧
    (commanded 4 [17]).argAt 0 = 17 ∧ (commanded 4 [20]).argAt 0 = 20 ∧ (commanded 5 [63, 65536]).cmdIs 5 = true ∧
    (commanded 5 [63, 65536]).argAt 1 / 65536 = 1 ∧ (commanded 5 [64]).argAt 0 = 64 ∧ (commanded 6 [4, 1]).cmdIs 6 = true ∧
    (commanded 6 [4, 1]).argAt 0 = 4 ∧ (commanded 6 [4, 1]).argAt 1 = 1 ∧ (commanded 6 [5]).argAt 0 = 5 ∧ (commanded 6 [4, 0]).argAt 1 = 0 ∧
    (commanded 7 [0, 1, 1]).cmdIs 7 = true ∧ (commanded 7 [0, 1, 1]).argAt 0 % 65536 = 0 ∧ (commanded 7 [0, 1, 1]).argAt 1 = 1 ∧ mapPage 0 = true ∧
    (commanded 7 [1]).argAt 0 % 65536 ≠ 0 ∧ (commanded 0 []).spire.mail.status = 1 ∧ (commanded 0 []).spire.mail.cmd = 0 ∧
    (commanded 8 []).spire.mail.status = 1 ∧ 7 < (commanded 8 []).spire.mail.cmd.toNat := by decide +kernel

/-- The fenced controller 63 of `commanded`, and a digest in the log. -/
theorem test_meets_SpireRunsCommandsAndBoots_state :
    (let s := spired (fun p => { p with dram := [(63, ⟨[1], true⟩)], boot := { p.boot with log := [5] } })
     ((tget s.spire.dram 63).getD ⟨[], false⟩).fenced = true ∧ ((tget fetched.spire.dram 63).getD ⟨[], false⟩).fenced = false ∧
       s.spire.boot.log[0]? = some 5) := by decide +kernel

/-- SpireRunsCommandsAndBoots: boot, limits, heartbeats, errors and the scan. Whether an image is valid is open (log
entry 8), so the boot clauses are met on whatever images the hardware finds valid or not. -/
theorem test_meets_SpireRunsCommandsAndBoots_boot :
    State.reset.spire.boot.failed = false ∧ State.reset.spire.boot.tempHold = false ∧ State.reset.spire.boot.released = 0 ∧
    (let s := spired (fun p => { p with boot := { p.boot with released := 6, lockWait := none } })
     s.spire.boot.failed = false ∧ s.spire.boot.released = 6 ∧ s.spire.boot.lockWait = none) ∧
    (let s := at_ (spired (fun p => { p with boot := { p.boot with released := 6, lockWait := some 5 } })) 0 5
     s.spire.boot.lockWait = some 5 ∧ 5 ≤ s.clk.ns ∧ (at_ s 0 4).clk.ns < 5) ∧
    fetched.unitBeats 9 = true ∧ fetched.unitBeats 0 = true ∧
    (let s := spired (fun p => { p with boot := { p.boot with beats := [(0, 0)] } })
     tget s.spire.boot.beats 0 = some (s.clk.ns / 1000000) ∧ tget s.spire.boot.beats 1 = none) ∧
    (let s := at_ (spired (fun p => { p with boot := { p.boot with beats := [(0, 2), (5, 2), (4, 2), (6, 1)] } })) 0 3000000
     [0, 4, 5].all (fun u => s.unitBeats u && decide (tget s.spire.boot.beats u = some (s.clk.ns / 1000000 - 1))) = true ∧
       s.clk.ns / 1000000 ≠ 0 ∧ tget s.spire.boot.beats 6 ≠ some (s.clk.ns / 1000000 - 1) ∧ s.unitBeats 10 = false) ∧
    (tgetD fetched.spire.banks 0).state = 0 ∧
    (let s := spired (fun p => { p with banks := [(0, { (default : Bank) with state := 2 })] })
     (tgetD s.spire.banks 0).state = 2 ∧ bankExists (s.siteBank (.regLane 0 0 0)) = true ∧ bankExists (s.siteBank (.scalar 2 0)) = true ∧
       bankExists (s.siteBank (.latch 0 0)) = true ∧ bankExists (s.siteBank (.grain 0 0)) = true ∧ (tget s.groups 2).isSome = true) ∧
    (at_ fetched 0 10000000).spire.scanAt ≤ 10000000 ∧ (at_ fetched 0 9999999).clk.ns < fetched.spire.scanAt := by decide +kernel

/-- A record that has no handle yet, of a domain with a slot at 0x9000. -/
def fresh : FRec :=
  { record (.lanes 7 3) 1 0 0 with handle := none, appended := false, dom := { (default : Domain) with maxDepth := 4, pkArea := 0x9000, pkCount := 1 } }
/-- The records of a state. -/
def recorded (l : Tab FRec) : State := { fetched with faults := ⟨l⟩ }

/-- RecordsAreWrittenAndAppended: a record that takes a slot, at once and after it was deferred. -/
theorem test_meets_RecordsAreWrittenAndAppended :
    (recorded [(6, fresh)]).slotFor fresh = some (0x9000, false) ∧ fresh.state < 2 ∧ fresh.depth ≤ fresh.dom.maxDepth ∧
    (recorded [(6, fresh)]).trace.en = false ∧
    (recorded [(6, fresh)]).earlierUnwritten 6 fresh = false ∧ tget (recorded [(6, fresh)]).faults.recs 6 = some fresh ∧
    ({ fresh with deferred := true } : FRec).deferred = true ∧
    (let r := { fresh with dom := { fresh.dom with pkCount := 0 } }
     (recorded [(6, r)]).slotFor r = some (keepBase 0, true)) := by decide +kernel

/-- The slot at 0x9000, and a header's word, take a write of the device's own. -/
theorem test_meets_TakesOwn : TakesOwn (recorded [(6, fresh)]) 0x9000 128 ∧ TakesOwn (served (queue 0 none true) []) 0x7008 8 :=
  ⟨⟨by decide +kernel, by decide +kernel, by decide +kernel⟩, ⟨by decide +kernel, by decide +kernel, by decide +kernel⟩⟩

/-- Every slot of the Keep of die 0 holds a record, and record 5000 has none. -/
def noSlot : State :=
  recorded ((5000, { fresh with keep := true }) :: (List.range 4096).map (fun i =>
    (i, { fresh with keep := true, handle := some (BitVec.ofNat 64 (2 ^ 48 * Config.chipId + (keepBase 0 + 128 * i))) })))

theorem test_meets_RecordsAreWrittenAndAppended_deferred :
    tget noSlot.faults.recs 5000 = some { fresh with keep := true } ∧ noSlot.earlierUnwritten 5000 { fresh with keep := true } = false ∧
    noSlot.slotFor { fresh with keep := true } = none := by
  refine ⟨by simp [noSlot, recorded, tget], ?_, ?_⟩
  · have none_ : noSlot.earlierOpen { fresh with keep := true } = false := by
      have e : noSlot.flight.ops = [] := by decide +kernel
      have w : noSlot.flight.waits = [] := by decide +kernel
      simp only [State.earlierOpen, fresh, record, e, w, List.any_nil, Bool.or_self]
    have self : noSlot.recBefore (5000, { fresh with keep := true }) (5000, { fresh with keep := true }) = false := by
      simp [State.recBefore]
    simp only [State.earlierUnwritten, none_, Bool.false_or, List.any_eq_false]
    intro e he
    simp only [noSlot, recorded, List.mem_cons, List.mem_map] at he
    obtain rfl | ⟨i, -, rfl⟩ := he
    · simp [self]
    · simp
  · have die : noSlot.originDie fresh.origin = 0 := by simp [fresh, record, State.originDie, noSlot, recorded]; decide +kernel
    have e : noSlot.originDie ({ fresh with keep := true } : FRec).origin = 0 := die
    unfold State.slotFor
    simp only [e, State.freeSlot]
    have : (List.range 4096).find? (fun i => !noSlot.slotTaken (keepBase 0 + 128 * i)) = none := by
      rw [List.find?_eq_none]
      intro i hi
      simp only [Bool.not_eq_true, Bool.not_eq_false', State.slotTaken, List.any_eq_true]
      refine ⟨(i, { fresh with keep := true, handle := some (BitVec.ofNat 64 (2 ^ 48 * Config.chipId + (keepBase 0 + 128 * i))) }), ?_, ?_⟩
      · simp only [noSlot, recorded, List.mem_cons, List.mem_map]
        exact .inr ⟨i, hi, rfl⟩
      · have hi := List.mem_range.mp hi
        have hk : keepBase 0 + 128 * i < 2 ^ 48 := by
          have : keepBase 0 + 128 * 4096 < 2 ^ 48 := by decide
          omega
        simp only [FRec.addrOf, Option.map_some, decide_eq_true_eq, Option.some.injEq, BitVec.toNat_ofNat, Config.chipId]
        omega
    simp [this]

/-- RecordsAreWrittenAndAppended: an append that finds its slot free, one that finds the queue full, one toward chip 9. -/
theorem test_meets_RecordsAreWrittenAndAppended_append :
    (let d := { fresh.dom with hqueue := 0x7000, hqChip := Config.chipId }
     let r := { fresh with handle := some handle, dom := d }
     let s := { served (queue 0 none true) fetched.mem with faults := ⟨[(6, r)]⟩ }
     let Q := queue 0 none true
     r.handle.isSome = true ∧ r.appended = false ∧ r.torn = false ∧ thisChip r.dom.hqChip = true ∧
     s.earlierUnsent 6 r = false ∧
     s.handlerQueue 0x7000 = some (3, Q) ∧ Q.header = 0x7000 ∧ s.ownRead 0x7000 8 = some (leBytes 8 0) ∧
     s.runHeld Q.header 8 = false ∧ s.vaHeld Q.troot Q.world (r.dom.hbundle.toNat + 0x18) 8 = false ∧
     s.vaHeld Q.troot Q.world (Q.slotVa (leNat (s.runBytes [] [(Q.header, 8)]))) 8 = false ∧
     okB (s.belfryRead Q.space (Q.slotVa 0) 8) (leBytes 8 0) = true ∧
     (match (s.ownWrite 0x7000 (leBytes 8 1)).belfryWrite Q.space (Q.slotVa 0 + 8) (r.packet (s.taskBudget Q r.dom)) with
      | .ok u => (match u.belfryWrite Q.space (Q.slotVa 0) (leBytes 8 1) with
        | .ok _ => true
        | .error _ => false)
      | .error _ => false) = true ∧
     (let t := { s with mem := memWrite s.mem 0x8000 (leBytes 8 5) }
      okB (t.belfryRead Q.space (Q.slotVa 0) 8) (leBytes 8 5) = true)) ∧
    thisChip 9 = false ∧ fetched.unreachable 9 = true ∧
    (let s := { fetched with net := { fetched.net with round := 1 } }
     s.unreachable 9 = false) := by decide +kernel

/-- `fetched` with its links changed. -/
def linked (f : Net → Net) : State := { fetched with net := f fetched.net }
/-- A port whose physical layer is up. -/
def port (up : Bool) (n : Nat) : Port := ⟨up, true, n, n, n, 9, 0, 100, 1000, 0⟩
/-- A link-state update of chip 9. -/
def update (seq : Word) : LinkUpdate := ⟨9, seq, 0, [⟨Config.chipId, 15, true⟩]⟩

/-- LinksKeepAliveAndAnswer: keepalives, updates and the drain rounds at the edges of their times. -/
theorem test_meets_LinksKeepAliveAndAnswer :
    (let s := linked (fun n => { n with ports := [(15, port true 2), (14, port true 0)], table := [(9, ⟨5, []⟩)] })
     (s.port 15).phys = true ∧ (s.port 15).nextSend ≤ (at_ s 0 100).clk.ns ∧ (at_ s 0 99).clk.ns < (s.port 15).nextSend ∧
     (s.port 15).expect + 2000 ≤ (at_ s 0 3000).clk.ns ∧ (at_ s 0 2999).clk.ns < (s.port 15).expect + 2000 ∧
     (s.port 15).expect ≤ s.clk.ns + 5000 ∧ s.newer (update 5) = false ∧ s.newer (update 6) = true ∧ (update 6).origin ≠ Config.chipId ∧
     (s.port 14).up = true ∧ (s.port 3).phys = false ∧ s.spire.boot.inReset.contains 5 = false) ∧
    (let s := at_ (linked (fun n => { n with round := 0, roundAt := some 7 })) 0 7
     s.net.roundAt = some 7 ∧ 7 ≤ s.clk.ns ∧ s.net.round = 0 ∧ s.net.msgs = [] ∧ s.faults.recs = []) ∧
    [1, 2, 3, 4].all (fun k => decide ((linked (fun n => { n with round := k, roundAt := some 0 })).net.round = k)) = true ∧
    fetched.net.roundAt = none ∧ fetched.net.recompute = none := by decide +kernel

/-- An operation toward a chip. -/
def sent (chip : Nat) (held returned : Bool) : Msg := ⟨chip, none, .append 6, 0, [], false, returned, held, [], 5, none⟩

/-- LinksKeepAliveAndAnswer: a live link whose loss starts the rounds, rounds with messages of this chip and of others, and rounds that
are to start again. -/
theorem test_meets_LinksKeepAliveAndAnswer_rounds :
    (let s := linked (fun n => { n with ports := [(15, port true 0)], table := [(Config.chipId, ⟨1, (List.range 16).map (fun _ => ⟨9, 15, true⟩)⟩)] })
     (s.port 15).up = true ∧ linkAlive s.net.table Config.chipId 15 = true ∧ s.net.round = 0 ∧ s.net.roundAt = none) ∧
    (let t := linked (fun n => { n with round := 4, roundAt := some 0, restart := true, transit := [⟨3, 9, 2, 7⟩], msgs := [(4, sent 9 true false)] })
     let s := { t with env := { t.env with nextId := 5 } }
     s.net.restart = true ∧ s.net.round = 4 ∧ s.hopDead 9 = true ∧ (sent 9 true false).isOp = true ∧ tget s.net.msgs 4 = some (sent 9 true false) ∧
       4 < s.env.nextId) ∧
    (let s := linked (fun n => { n with round := 1, roundAt := some 0, reach := [9], msgs := [(4, sent 9 true true)] })
     s.net.restart = false ∧ s.net.msgs.all (fun e => s.inReach e.2.chip) = true ∧ s.faults.recs = []) := by decide +kernel

/-- Frames that are supported: a pause of class 2, a packet between other chips, one that comes back. -/
def frames : List Frame :=
  [⟨64, 0, 6, .pause 4⟩, ⟨9216, 4096, 3, .transport .rod .write false 3 9 7⟩, ⟨64, 0, 7, .undeliverable 4⟩]

/-- LinksKeepAliveAndAnswer: frames at their limits, one past each, one toward a chip that cannot be reached, an exchange of time. -/
theorem test_meets_LinksKeepAliveAndAnswer_frames :
    frames.all frameSupported = true ∧ frameSupported ⟨9217, 0, 3, .control⟩ = false ∧ frameSupported ⟨9216, 4097, 3, .control⟩ = false ∧
    frameSupported ⟨64, 8, 3, .transport .rod (.atomic 16 true) false 3 9 7⟩ = false ∧ frameSupported ⟨64, 8, 3, .transport .rod .write true 3 9 7⟩ = false ∧
    thisChip 9 = false ∧ fetched.canLeave 9 3 = false ∧
    (let s := linked (fun n => { n with msgs := [(4, sent 9 false false)] })
     tget s.net.msgs 4 = some (sent 9 false false)) ∧
    (let s := { spired (fun p => { p with sync := ⟨1, 14, 0, some ⟨15, 3, some 100, 150, some 160⟩⟩ }) with
       net := { fetched.net with ports := [(15, port true 0)] } }
     (s.port 15).phys = true ∧ s.spire.boot.inReset.contains 5 = false ∧ s.spire.sync.exchange = some ⟨15, 3, some 100, 150, some 160⟩ ∧
       s.spire.sync.state ≠ 0 ∧ s.spire.sync.port ≠ 15 ∧ (((150 : Nat) : Int) - (100 : Nat) - (((170 : Nat) : Int) - (160 : Nat))) / 2 = 20) ∧
    (let s := spired (fun p => { p with sync := ⟨0, 0, 0, some ⟨15, 3, none, 150, none⟩⟩, boot := { p.boot with inReset := [6] } })
     s.spire.sync.exchange = some ⟨15, 3, none, 150, none⟩ ∧ s.spire.sync.state = 0 ∧ s.spire.boot.inReset.contains 6 = true) := by decide +kernel

/-- A remote operation of job 5 at 0x9000. -/
def remote (k : RemoteKind) : RemoteOp := ⟨k, 5, false, 0x9000, 8, [1, 2, 3, 4, 5, 6, 7, 8], 0, [], 15, 2, false⟩

/-- LinksKeepAliveAndAnswer: remote operations without a grant, turned away by one, and let through. -/
theorem test_meets_LinksKeepAliveAndAnswer_remote :
    (let s := linked (fun n => { n with ports := [(15, port true 0)], grants := [(0, ⟨5, 0xF, 1, 0x4000⟩)] })
     (s.port 15).phys = true ∧ remoteKnown { remote .report with data := leBytes 8 5 } = true ∧ s.recOf (remote .report).va = none ∧ [RemoteKind.read, .write, .fetchAdd].all (fun k => remoteKnown (remote k) &&
      (match s.grantOf 5 with
       | some g => !g.world && g.permits k && okB (s.xlate g.troot (remoteAcc k) g.world 0x9000) 0x9000 &&
         okB (s.xlateRuns g.troot (remoteAcc k) g.world 0x9000 (remoteSpan (remote k))) [(0x9000, 8)]
       | none => false) && (fetched.grantOf 5).isNone) = true ∧ s.firstPoison [] [(0x9000, 8)] = none ∧ 0x9000 < sysBase ∧
     s.quarantined 0x9000 = false ∧ [RemoteKind.read, .write, .fetchAdd].all (fun k => !s.inLine (.op (remote k)) && !s.remoteWaits (remote k)) = true) ∧
    (let s := linked (fun n => { n with ports := [(15, port true 0)], waiting := [.op (remote .write)] })
     s.firstInLine (.op (remote .read)) = false ∧ s.inLine (.op (remote .read)) = true) ∧
    (let s := { linked (fun n => { n with grants := [(0, ⟨5, 0xF, 1, 0x4000⟩)] }) with
       mem := memWrite fetched.mem 0x5008 (leBytes 8 (weightBase + 0x1F)) }
     s.firstInLine (.op { remote .read with va := 0x40000000 }) = false ∧ s.remoteWaits { remote .read with va := 0x40000000 } = true) ∧
    (let s := linked (fun n => { n with grants := [(0, ⟨5, 0x1, 1, 0x4000⟩)] })
     (s.grantOf 5).any (fun g => !g.permits .read) = true) ∧
    (let s := linked (fun n => { n with grants := [(0, ⟨5, 0x1F, 1, 0x4000⟩)] })
     (s.grantOf 5).any (fun g => g.world) = true) := by decide +kernel

/-- LinksKeepAliveAndAnswer: an answer that a packet waits for, one that a peer handler waits for, time and holdover. -/
theorem test_meets_LinksKeepAliveAndAnswer_answers :
    (let p := { packet 3 1 [] with msg := some 4 }
     let m : Msg := ⟨9, none, .belfry 3, 0, [], false, false, false, [], 6, none⟩
     let s := { served (queue 0 (some p) true) [] with net := { fetched.net with msgs := [(4, m)] } }
     m.held = false ∧ tget s.net.msgs 4 = some m ∧ tget s.belfry.queues 3 = some (queue 0 (some p) true) ∧ p.msg = some 4 ∧ tget s.net.msgs 5 = none) ∧
    (let m : Msg := ⟨9, none, .pk 9 ⟨.readRec, handle, 0, 0, handle, 0, false, 5⟩, 0, [], false, false, false, [], 6, none⟩
     let s := { waits (.pk 127 4 false) 3 with net := { fetched.net with msgs := [(4, m)] } }
     tget s.net.msgs 4 = some m ∧ tget s.flight.waits 9 = some (waitOf (.pk 127 4 false) 3) ∧ (tget s.groups 2).isSome = true ∧
       (s.group 2).run.place ≠ .stowed ∧ s.inHandler 2 = false ∧ m.held = false ∧ s.scalarTaken 2 127 1 5 = false) ∧
    (let s := spired (fun p => { p with sync := ⟨0, 0, 0, none⟩, boot := { p.boot with inReset := [6] } })
     s.spire.boot.inReset.contains 5 = false ∧ s.spire.sync.state = 0 ∧ s.spire.boot.inReset.contains 6 = true) ∧
    fetched.spire.boot.inReset.contains 6 = false ∧ (spired (fun p => { p with sync := ⟨1, 0, 0, none⟩ })).spire.sync.state = 1 ∧
    fetched.net.secured.contains 9 = false := by decide +kernel

/-! ### One step's effect: expected values are worked examples of the spec or computed by hand from its rules -/

/-- The values in flight for a scalar after an instruction of group 2 has issued with those scalars. -/
def scalarResult (i : Instr) (l : List (Nat × Word)) (d : Nat) : List (List Word) :=
  match exec i (scal l) with
  | .next t => (t.flight.pends.filter (fun e => decide (e.2.dest = .scal d))).map (fun e => e.2.vals)
  | _ => []
/-- The values in flight for lanes 0 to 3 of a vector name. -/
def vectorResult (i : Instr) (l : List (Nat × Word)) (d : Nat) : List (List Word) :=
  match exec i (scal l) with
  | .next t => (t.flight.pends.filter (fun e => decide (e.2.dest = .vec d))).map (fun e => e.2.vals.take 4)
  | _ => []

/-- The four words of R355 and R356, and the first three of the table of worked encodings. -/
theorem test_worked_words :
    decodeWord 0x58004002 none = .ok (.iaddVector (tr 0 1 0 2) none) ∧
    decodeWord 0xD8E10001 none = .ok (.ldc ⟨false, true, 3, 4, 0, 1⟩) ∧
    decodeWord 0x8A140000 (some 0x12345678) = .ok (.movVectorImm ⟨5, 0⟩ (some 0x12345678)) ∧
    decodeWord 0x58A1C389 none = .ok (.iaddVector ⟨false, true, 1, 7, 7, 9⟩ none) ∧
    decodeWord 0xA800C100 (some 0x430) = .ok (.cvt (tr 0 3 2 0) 0x430) ∧
    decodeWord 0x04A00006 none = .ok (.call ⟨40, 6⟩ none) := ⟨rfl, rfl, rfl, rfl, rfl, rfl⟩

/-- CALL at slot 0 of a bundle at 0x3000 with IMM18 = 6 goes to 0x3024 (the worked example under R128). -/
theorem test_call_target : relTarget 0x3004 6 = 0x3024 := by decide +kernel

/-- 1.039_062_5 to e4 with .sr, lanes 0 to 3 at PHASE 0 and PHASE 1 (the worked example under R117). -/
theorem test_dither :
    ([0, 1, 2, 3].map (fun p => (convert 0 3 4 false false (ditherOf p 0) 0x3F850000).1) = [0x38, 0x38, 0x38, 0x39]) ∧
    ([0, 1, 2, 3].map (fun p => (convert 0 3 4 false false (ditherOf p 1) 0x3F850000).1) = [0x38, 0x38, 0x39, 0x38]) := by decide +kernel

/-- 0.5, 2.5 and 6 to e2 (the worked example under R358). -/
theorem test_e2 :
    [0x3F000000, 0x40200000, 0x40C00000].map (fun x => (convert 0 5 0 false false 0 x).1) = [1, 4, 7] := by decide +kernel

/-- The scalar integer operations wrap, carry into the pair's high word, and give 0 for a long shift (R130, R132). -/
theorem test_scalar_results :
    scalarResult (.iaddScalar (tr 0 3 4 5) none) [(4, 0xFFFFFFFF), (5, 2)] 3 = [[1]] ∧
    scalarResult (.iaddScalar (tr 2 2 4 6) none) [(4, 0xFFFFFFFF), (5, 0), (6, 1)] 3 = [[1]] ∧
    scalarResult (.isubScalar (tr 0 3 4 5) none) [(4, 0), (5, 1)] 3 = [[0xFFFFFFFF]] ∧
    scalarResult (.imulScalar (tr 0 3 4 5) none) [(4, 0x10001), (5, 0x10001)] 3 = [[0x20001]] ∧
    scalarResult (.iminScalar (tr 0 3 4 5) none) [(4, 0xFFFFFFFF), (5, 1)] 3 = [[0xFFFFFFFF]] ∧
    scalarResult (.imaxScalar (tr 0 3 4 5) none) [(4, 0xFFFFFFFF), (5, 1)] 3 = [[1]] ∧
    scalarResult (.xorScalar (tr 0 3 4 5) none) [(4, 0xF0F0), (5, 0xFF)] 3 = [[0xF00F]] ∧
    scalarResult (.shlScalar (tr 0 3 4 5) none) [(4, 1), (5, 32)] 3 = [[0]] ∧
    scalarResult (.iaddScalarImm (ri 3 4 0x3FF) none) [(4, 5)] 3 = [[4]] := by decide +kernel

/-- A CALL in slot 0 writes the PC of slot 1 (R128), and the immediates are sign-extended (R133). -/
theorem test_moves :
    scalarResult (.call ⟨40, 6⟩ none) [] 40 = [[0x10008]] ∧ scalarResult (.call ⟨40, 6⟩ none) [] 41 = [[0]] ∧
    scalarResult (.movScalarImm ⟨3, 0x3FFFF⟩ none) [] 3 = [[0xFFFFFFFF]] ∧
    vectorResult (.movVectorImm ⟨5, 0x20000⟩ none) [] 5 = [List.replicate 4 0xFFFE0000] ∧
    vectorResult (.iaddVectorImm (ri 5 4 0x3FF) none) [] 5 = [List.replicate 4 0xFFFFFFFF] := by decide +kernel

/-- f32: 1.5 + 2.25, 1.5 · 2, 1 ÷ 4, and 1 − 1 as a fused operation, by hand from R107. -/
theorem test_float_results :
    (fpAdd false 0x3FC00000 0x40100000).1 = 0x40700000 ∧ (fpMul false 0x3FC00000 0x40000000).1 = 0x40400000 ∧
    (fpRcp false 0x40800000).1 = 0x3E800000 ∧ (fpSub false 0x3F800000 0x3F800000).1 = 0 ∧
    (fpAdd false 0x4B800000 0x3F800000).1 = 0x4B800000 := by decide +kernel

/-- SHA-384 of "abc" (the example of FIPS 180-4): the digest's bytes as one number, its first byte the most significant. -/
theorem test_sha384 :
    (digestBytes (sha384 [0x61, 0x62, 0x63])).foldl (fun n b => 256 * n + b.toNat) 0 =
      0xCB00753F45A35E8BB5A03D699AC65007272C32AB0EDED1631A8B605A43FF5BED8086072BA1E7CC2358BAECA134C825A7 := by decide +kernel


end Sys2Proof.Tests
end

section
/-! What one step does, by the head of the schedule (log entry 1), and the clock at the end of a cycle (log entry 21). -/
namespace Sys2Proof.Machine

/-! ### The end of a cycle and the clock -/

theorem foldS_clk {α : Type} {f : State → α → State} (h : ∀ s x, (f s x).clk = s.clk) (l : List α) (s : State) :
    (foldS l s f).clk = s.clk :=
  foldS_inv (P := fun t => t.clk = s.clk) l s rfl (fun t x _ ht => (h t x).trans ht)

@[simp] theorem chargeServers_clk (s : State) (servers : List Nat) (fault : Bool) (ac ns : Nat) :
    (s.chargeServers servers fault ac ns).clk = s.clk := foldS_clk (by intros; rfl) servers s

@[simp] theorem chargeLaunch_clk (s : State) (l ac : Nat) : (s.chargeLaunch l ac).clk = s.clk := by
  simp [State.chargeLaunch, State.modLaunch]

/-- Charges, ready times and stall counters leave the clock alone, so the end of a cycle moves it on by one cycle. -/
theorem tick_clk (s : State) : s.tick.clk = s.clk.next := by
  refine congrArg Clock.next
    ((foldS_clk ?stalls _ _).trans ((foldS_clk ?ready _ _).trans (foldS_clk ?charges _ s)))
  case stalls => exact fun s e => rfl
  case ready => exact fun s e => rfl
  case charges => intro s p; split <;> simp

/-! ### Which step is taken -/

/-- With a choice at the head of the schedule, a step is that choice's, once the last issue is forgotten. -/
theorem step_of_sched {s : State} {c : Choice} {rest : List Choice} (h : s.env.sched = c :: rest) :
    step s = ({ s with issue := none } : State).chosen c := by
  simp only [step, State.runStep, h]

/-- With an empty schedule a step is the machine's own. -/
theorem step_of_sched_nil {s : State} (h : s.env.sched = []) :
    step s = ({ s with issue := none } : State).runInner := by
  simp only [step, State.runStep, h]

theorem forget_issue_of_none {s : State} (h : s.issue = none) : ({ s with issue := none } : State) = s := by
  rw [← h]

theorem unschedule_of_sched {s : State} {c : Choice} {rest : List Choice} (h : s.env.sched = c :: rest) :
    s.unschedule = { s with env := { s.env with sched := rest } } := by
  simp only [State.unschedule, h, List.tail_cons]

/-- An instruction that a partition picked and that gives a next state is followed by the end of its replays' reads. -/
theorem doPick_issue {s t : State} {i : Instr} {is : Issue} (h : exec i (s.issuing is) = .next t) :
    s.doPick (.issue i is) = .next (s.endReplays is t) := by
  simp only [State.doPick, h]

/-! ### Each kind of choice -/

/-- An event that has no word is taken. -/
theorem chosen_event {s : State} {i : Instr} (h : encode i = none) : s.chosen (.event i) = exec i s.unschedule := by
  simp [State.chosen, h]

/-- An instruction of a program is dropped. -/
theorem chosen_event_dropped {s : State} {i : Instr} (h : (encode i).isSome = true) :
    s.chosen (.event i) = .next s.unschedule := by
  obtain ⟨w, hw⟩ := Option.isSome_iff_exists.1 h
  simp [State.chosen, hw]

/-- What has a fixed time goes before a partition's issue. -/
theorem chosen_issue_timed {s t : State} (p : Nat) (h : s.firstOf s.timedEvents = some t) :
    s.chosen (.issue p) = .next t := by
  simp only [State.chosen, h]

/-- The choice of an issue is dropped where no partition up to it has something to do. -/
theorem chosen_issue_none {s : State} {p : Nat} (h : s.firstOf s.timedEvents = none) (hp : s.pickUpTo p = none) :
    s.chosen (.issue p) = .next s.unschedule := by
  simp only [State.chosen, h, hp]

/-- The choice of an issue stands while a lower partition does what it picked, and is used up by its own. -/
theorem chosen_issue_pick {s : State} {p q : Nat} {k : Pick} (h : s.firstOf s.timedEvents = none)
    (hp : s.pickUpTo p = some (q, k)) : s.chosen (.issue p) = (if q = p then s.unschedule else s).doPick k := by
  simp only [State.chosen, h, hp]

/-- What has a fixed time goes before the end of the cycle. -/
theorem chosen_cycle_timed {s t : State} (h : s.firstOf s.timedEvents = some t) : s.chosen .cycle = .next t := by
  simp only [State.chosen, h]

/-- A partition that has something to do goes before the end of the cycle. -/
theorem chosen_cycle_pick {s : State} {q : Nat} {k : Pick} (h : s.firstOf s.timedEvents = none)
    (hp : s.pick = some (q, k)) : s.chosen .cycle = s.doPick k := by
  simp only [State.chosen, h, hp]

theorem chosen_cycle_none {s : State} (h : s.firstOf s.timedEvents = none) (hp : s.pick = none) :
    s.chosen .cycle = .next s.unschedule.tick := by
  simp only [State.chosen, h, hp]

theorem chosen_miss (s : State) (p : Nat) :
    s.chosen (.miss p) = .next (s.unschedule.modPart p (fun P => { P with fetchAt := s.clk.ac + 1 })) := rfl

/-! ### The machine's own step -/

theorem runInner_due {s t : State} (h : s.nextDue = some t) : s.runInner = .next t := by
  simp only [State.runInner, h]

theorem runInner_idle {s : State} (h : s.nextDue = none) (hp : s.pick = none) : s.runInner = .next s.tick := by
  simp only [State.runInner, h, hp]

/-! ### The order of the agents -/

/-- With a choice at the head of the schedule and no issue to forget, a step is that choice's. -/
theorem step_eq_chosen {s : State} {c : Choice} {rest : List Choice} (hi : s.issue = none)
    (h : s.env.sched = c :: rest) : step s = s.chosen c := by
  rw [step_of_sched h, forget_issue_of_none hi]

/-- With an empty schedule and no issue to forget, a step is the machine's own. -/
theorem step_eq_runInner {s : State} (hi : s.issue = none) (h : s.env.sched = []) : step s = s.runInner := by
  rw [step_of_sched_nil h, forget_issue_of_none hi]

/-- Settles O5: a step is the choice at the head of the schedule, or else the machine's own, and each kind of choice
does what its lemma above says. -/
theorem stepTakesScheduledEvent : Obligations.StepTakesScheduledEvent := by
  unfold Obligations.StepTakesScheduledEvent
  refine ⟨fun s i rest h he => ?event, fun s i rest h he => ?dropped, ?issue, fun s p rest hi h => ?miss, ?cycle,
    fun s t hi h hd => ?due, fun s => ?order, fun s hi h hd hp => ⟨?idle, ?ac, ?ns⟩⟩
  case event =>
    have hs : ({ s with issue := none } : State).env.sched = .event i :: rest := h
    rw [step_of_sched h, chosen_event he, unschedule_of_sched hs]
  case dropped =>
    have hs : ({ s with issue := none } : State).env.sched = .event i :: rest := h
    rw [step_of_sched h, chosen_event_dropped he, unschedule_of_sched hs]
  case issue =>
    intro s u p rest hi h hu
    rw [step_eq_chosen hi h, hu, ← unschedule_of_sched h]
    refine ⟨fun t ht => chosen_issue_timed p ht, fun ht hp => chosen_issue_none ht hp,
      fun q i is t ht hp hq hx => ?lower, fun i is t ht hp hx => ?own⟩
    case lower => rw [chosen_issue_pick ht hp, if_neg hq, doPick_issue hx]
    case own => rw [chosen_issue_pick ht hp, if_pos rfl, doPick_issue hx]
  case miss =>
    refine ⟨_, (step_eq_chosen hi h).trans (chosen_miss s p), ?_, ?_, rfl, rfl, rfl⟩
    · rw [part_modPart, if_pos rfl]
    · rw [unschedule_of_sched h]; rfl
  case cycle =>
    intro s u rest hi h hu
    rw [step_eq_chosen hi h, hu, ← unschedule_of_sched h]
    refine ⟨fun t ht => chosen_cycle_timed ht, fun q i is t ht hp hx => ?_, fun ht hp => chosen_cycle_none ht hp⟩
    rw [chosen_cycle_pick ht hp, doPick_issue hx]
  case due => rw [step_eq_runInner hi h, runInner_due hd]
  case order =>
    unfold State.nextDue
    cases s.firstOf s.agenda <;> rfl
  case idle => rw [step_eq_runInner hi h, runInner_idle hd hp]
  case ac => rw [tick_clk]; rfl
  case ns => rw [tick_clk]; rfl

end Sys2Proof.Machine
end

section
/-! What the dispatcher's own bookkeeping leaves as it stands: which blocks there are, where they stand and how they run,
what launches have started, and the Spire (R51 to R59). -/
namespace Sys2Proof.Machine

/-! ### Tables seen through a projection -/

/-- Changing an entry in a way that a projection does not see changes no entry as the projection sees it. -/
theorem tget_tmod_map {α β : Type} (π : α → β) {f : α → α} (hf : ∀ x, π (f x) = π x) (t : Tab α) (n m : Nat) :
    (tget (tmod t n f) m).map π = (tget t m).map π := by
  rw [tget_tmod]
  split
  · rw [Option.map_map, funext (f := π ∘ f) hf]
  · rfl

theorem tget_map_snd {α β : Type} (π : α → β) (t : Tab α) (n : Nat) :
    tget (t.map (fun e => (e.1, π e.2))) n = (tget t n).map π := by
  induction t with
  | nil => rfl
  | cons e r ih =>
    obtain ⟨k, x⟩ := e
    simp only [List.map_cons, tget_cons, ih]
    split <;> rfl

/-- Changing an entry in a way that a projection does not see leaves the list of entries as the projection sees it. -/
theorem tmod_map_snd {α β : Type} (π : α → β) {f : α → α} (hf : ∀ x, π (f x) = π x) (t : Tab α) (n : Nat) :
    (tmod t n f).map (fun e => (e.1, π e.2)) = t.map (fun e => (e.1, π e.2)) := by
  rw [tmod, List.map_map]
  refine List.map_congr_left (fun e _ => ?_)
  simp only [Function.comp]
  split
  · rw [hf]
  · rfl

/-- What each step of a fold brings about for its element, and no later step undoes, holds of every element at the end,
where `E` is what a step needs of an element to bring it about. -/
theorem foldS_all {α : Type} {f : State → α → State} {E P : α → State → Prop} (hE : ∀ s a b, E b s → E b (f s a))
    (hP : ∀ s a b, P b s → P b (f s a)) (hf : ∀ s a, E a s → P a (f s a)) (l : List α) (s : State)
    (h : ∀ a, a ∈ l → E a s) : ∀ a, a ∈ l → P a (foldS l s f) := by
  induction l generalizing s with
  | nil => exact fun a ha => absurd ha List.not_mem_nil
  | cons a r ih =>
    intro b hb
    rcases List.mem_cons.1 hb with rfl | hb
    · exact foldS_inv (P := P b) r _ (hf s b (h b hb)) (fun t c _ ht => hP t c b ht)
    · exact ih _ (fun c hc => hE s a c (h c (List.mem_cons_of_mem _ hc))) b hb

/-! ### States whose blocks and launches stand the same -/

/-- What placement reads of a block: where it stands and how it runs. -/
def Block.standing (B : Block) : BlockId × BlockRun := (B.id, B.run)

/-- What a start reads and counts of a launch: its bundle and the blocks that have started. -/
def Launch.plan (L : Launch) : Bundle × Nat := (L.bundle, L.started)

/-- From `s` to `t` no block has come, gone, moved or changed how it runs, no launch has started a block, and the Spire and
the table of variants are as they were. -/
structure Steady (s t : State) : Prop where
  nextId : s.env.nextId ≤ t.env.nextId
  spire : t.spire = s.spire
  variants : t.belfry.variants = s.belfry.variants
  launches : ∀ l, (tget t.belfry.launches l).map Launch.plan = (tget s.belfry.launches l).map Launch.plan
  blocks : ∀ b, (tget t.blocks b).map Block.standing = (tget s.blocks b).map Block.standing

namespace Steady

theorem of_eq {s t : State} (hn : s.env.nextId ≤ t.env.nextId) (hs : t.spire = s.spire) (hl : t.belfry = s.belfry)
    (hb : t.blocks = s.blocks) : Steady s t :=
  ⟨hn, hs, by rw [hl], fun _ => by rw [hl], fun _ => by rw [hb]⟩

theorem refl (s : State) : Steady s s := of_eq (Nat.le_refl _) rfl rfl rfl

theorem trans {a b c : State} (h : Steady a b) (k : Steady b c) : Steady a c where
  nextId := Nat.le_trans h.nextId k.nextId
  spire := k.spire.trans h.spire
  variants := k.variants.trans h.variants
  launches l := (k.launches l).trans (h.launches l)
  blocks b := (k.blocks b).trans (h.blocks b)

theorem fold {α : Type} {f : State → α → State} (hf : ∀ s a, Steady s (f s a)) (l : List α) (s : State) :
    Steady s (foldS l s f) := foldS_rel (R := Steady) refl trans hf l s

variable {s t : State} (h : Steady s t)
include h

theorem block_eq {b : Nat} {B : Block} (hb : tget s.blocks b = some B) :
    ∃ C, tget t.blocks b = some C ∧ C.id = B.id ∧ C.run = B.run := by
  have e := h.blocks b
  rw [hb, Option.map_some, Option.map_eq_some_iff] at e
  obtain ⟨C, hC, e⟩ := e
  exact ⟨C, hC, congrArg Prod.fst e, congrArg Prod.snd e⟩

theorem block_isSome (b : Nat) : (tget t.blocks b).isSome = (tget s.blocks b).isSome := by
  simpa using congrArg Option.isSome (h.blocks b)

theorem launch_isSome (l : Nat) : (tget t.belfry.launches l).isSome = (tget s.belfry.launches l).isSome := by
  simpa using congrArg Option.isSome (h.launches l)

theorem launch_plan (l : Nat) : (t.launch l).plan = (s.launch l).plan := by
  have e := congrArg (Option.getD · (default : Launch).plan) (h.launches l)
  simpa only [State.launch, tgetD, Option.getD_map] using e

theorem bundle_eq (l : Nat) : (t.launch l).bundle = (s.launch l).bundle := congrArg Prod.fst (h.launch_plan l)

theorem started_eq (l : Nat) : (t.launch l).started = (s.launch l).started := congrArg Prod.snd (h.launch_plan l)

theorem cluster_eq (c : Nat) : t.cluster c = s.cluster c := by simp only [State.cluster, h.spire]

end Steady

theorem RegsOnly.steady {g : Nat} {s t : State} (h : RegsOnly g s t) : Steady s t where
  nextId := Nat.le_of_eq (congrArg Env.nextId h.env.symm)
  spire := h.spire
  variants := by rw [h.belfry]
  launches _ := by rw [h.belfry]
  blocks b := by
    have e := congrArg (Option.map Block.standing) (h.blocks b)
    rwa [Option.map_map, Option.map_map] at e

/-! ### States whose groups stand the same, seen through a projection -/

/-- The table of groups is the same but for what the projection `π` does not see. -/
def SameGroups {γ : Type} (π : Group → γ) (s t : State) : Prop :=
  t.groups.map (fun e => (e.1, π e.2)) = s.groups.map (fun e => (e.1, π e.2))

section sameGroups
variable {γ : Type} {π : Group → γ}

theorem SameGroups.refl (s : State) : SameGroups π s s := rfl

theorem SameGroups.of_eq {s t : State} (h : t.groups = s.groups) : SameGroups π s t := by rw [SameGroups, h]

theorem SameGroups.trans {a b c : State} (h : SameGroups π a b) (k : SameGroups π b c) : SameGroups π a c :=
  Eq.trans k h

/-- What a projection does not see, a coarser one does not see either. -/
theorem SameGroups.mono {δ : Type} {s t : State} (h : SameGroups π s t) (ρ : γ → δ) :
    SameGroups (fun G => ρ (π G)) s t := by
  have e := congrArg (List.map (fun x : Nat × γ => (x.1, ρ x.2))) h
  rwa [List.map_map, List.map_map] at e

theorem SameGroups.fold {α : Type} {f : State → α → State} (hf : ∀ s a, SameGroups π s (f s a)) (l : List α) (s : State) :
    SameGroups π s (foldS l s f) := foldS_rel (R := SameGroups π) .refl .trans hf l s

theorem SameGroups.tget {s t : State} (h : SameGroups π s t) (g : Nat) :
    (Machine.tget t.groups g).map π = (Machine.tget s.groups g).map π := by
  rw [← tget_map_snd, ← tget_map_snd, h]

theorem SameGroups.isSome {s t : State} (h : SameGroups π s t) (g : Nat) :
    (Machine.tget t.groups g).isSome = (Machine.tget s.groups g).isSome := by
  simpa using congrArg Option.isSome (h.tget g)

theorem SameGroups.group_eq {s t : State} (h : SameGroups π s t) (g : Nat) : π (t.group g) = π (s.group g) := by
  have e := congrArg (Option.getD · (π default)) (h.tget g)
  simpa only [State.group, tgetD, Option.getD_map] using e

theorem group_of_groups {s t : State} (h : t.groups = s.groups) (g : Nat) : t.group g = s.group g :=
  congrArg (tgetD · g) h

theorem sameGroups_modGroup (s : State) (g : Nat) (f : Group → Group) (hf : ∀ G, π (f G) = π G := by intro _; rfl) :
    SameGroups π s (s.modGroup g f) := tmod_map_snd π hf s.groups g

end sameGroups

theorem steady_modGroup (s : State) (g : Nat) (f : Group → Group) : Steady s (s.modGroup g f) :=
  .of_eq (Nat.le_refl _) rfl rfl rfl

theorem steady_modPart (s : State) (p : Nat) (f : Part → Part) : Steady s (s.modPart p f) :=
  .of_eq (Nat.le_refl _) rfl rfl rfl

theorem steady_modBlock (s : State) (b : Nat) (f : Block → Block)
    (hf : ∀ B, (f B).standing = B.standing := by intro _; rfl) :
    Steady s (s.modBlock b f) where
  nextId := Nat.le_refl _
  spire := rfl
  variants := rfl
  launches _ := rfl
  blocks := tget_tmod_map Block.standing hf s.blocks b

theorem steady_modLaunch (s : State) (l : Nat) (f : Launch → Launch) (hf : ∀ L, (f L).plan = L.plan := by intro _; rfl) :
    Steady s (s.modLaunch l f) where
  nextId := Nat.le_refl _
  spire := rfl
  variants := rfl
  launches := tget_tmod_map Launch.plan hf s.belfry.launches l
  blocks _ := rfl

theorem steady_freshId (s : State) : Steady s s.freshId.2 := .of_eq (Nat.le_succ _) rfl rfl rfl

/-! ### Writes to memory -/

/-- The two states differ at most in memory, in what is in flight, and in the trace ring. -/
def MemoryOnly (s t : State) : Prop := ∃ m f r, t = { s with mem := m, flight := f, trace := r }

namespace MemoryOnly

theorem refl (s : State) : MemoryOnly s s := ⟨_, _, _, rfl⟩

theorem trans {a b c : State} (h : MemoryOnly a b) (k : MemoryOnly b c) : MemoryOnly a c := by
  obtain ⟨m, f, r, rfl⟩ := h
  obtain ⟨m', f', r', rfl⟩ := k
  exact ⟨m', f', r', rfl⟩

theorem steady {s t : State} (h : MemoryOnly s t) : Steady s t := by
  obtain ⟨m, f, r, rfl⟩ := h
  exact .of_eq (Nat.le_refl _) rfl rfl rfl

theorem groups_eq {s t : State} (h : MemoryOnly s t) : t.groups = s.groups := by
  obtain ⟨m, f, r, rfl⟩ := h
  rfl

theorem blocks_eq {s t : State} (h : MemoryOnly s t) : t.blocks = s.blocks := by
  obtain ⟨m, f, r, rfl⟩ := h
  rfl

theorem belfry_eq {s t : State} (h : MemoryOnly s t) : t.belfry = s.belfry := by
  obtain ⟨m, f, r, rfl⟩ := h
  rfl

end MemoryOnly

theorem memoryOnly_flight (s : State) (f : Flight) : MemoryOnly s { s with flight := f } := ⟨_, _, _, rfl⟩

theorem memoryOnly_devWrite (s : State) (a : Nat) (b : List Byte) : MemoryOnly s (s.devWrite a b) := by
  simp only [State.devWrite]
  split
  · exact .refl s
  · exact ⟨_, _, _, rfl⟩

theorem memoryOnly_ownWrite (s : State) (a : Nat) (b : List Byte) : MemoryOnly s (s.ownWrite a b) := by
  unfold State.ownWrite
  split
  · exact memoryOnly_devWrite s a b
  · exact .refl s

theorem memoryOnly_nodeWrite (s : State) (n g a : Nat) (b : List Byte) : MemoryOnly s (s.nodeWrite n g a b) := by
  unfold State.nodeWrite
  split
  · exact .refl s
  · split
    · exact memoryOnly_devWrite s a b
    · exact memoryOnly_flight s _

theorem memoryOnly_putRuns (n g : Nat) (rs : List (Nat × Nat)) (s : State) (b : List Byte) :
    MemoryOnly s (s.putRuns n g rs b) := by
  induction rs generalizing s b with
  | nil => exact .refl s
  | cons r rest ih => exact (memoryOnly_nodeWrite s n g r.1 _).trans (ih _ _)

theorem memoryOnly_vwrite {s t : State} {n r : Nat} {w : Bool} {va : Nat} {b : List Byte}
    (h : s.vwrite n r w va b = .ok t) : MemoryOnly s t := by
  unfold State.vwrite at h
  split at h
  · cases h
  · cases h
    exact memoryOnly_putRuns n 0 _ s b

theorem memoryOnly_belfryWrite {s t : State} {sp : Space} {va : Nat} {b : List Byte}
    (h : s.belfryWrite sp va b = .ok t) : MemoryOnly s t := by
  unfold State.belfryWrite at h
  split at h
  · cases h
  · next u hu =>
    cases h
    exact memoryOnly_vwrite hu

theorem memoryOnly_trace1 (s : State) (ty src region : Nat) (data : List Byte) :
    MemoryOnly s (s.trace1 ty src region data) := by
  simp only [State.trace1]
  repeat' split
  all_goals exact ⟨_, _, _, rfl⟩

theorem memoryOnly_addPoison (s : State) (g : Nat) : MemoryOnly s (s.addPoison g) := by
  unfold State.addPoison
  split
  · exact .refl s
  · exact memoryOnly_flight s _

theorem steady_blockPut (s : State) (b off : Nat) (x : List Byte) : Steady s (s.blockPut b off x) := by
  unfold State.blockPut
  split
  · exact .refl s
  · split
    · exact steady_modBlock s b _
    · exact (memoryOnly_putRuns _ _ _ s x).steady

theorem blockPut_groups (s : State) (b off : Nat) (x : List Byte) : (s.blockPut b off x).groups = s.groups := by
  unfold State.blockPut
  split
  · rfl
  · split
    · rfl
    · exact (memoryOnly_putRuns _ _ _ s x).groups_eq

/-! ### Records -/

theorem steady_formRecord (s : State) (c : Cause) (o : Origin) (l g : Nat) (pc a : Wide) (v : List Wide) :
    Steady s (s.formRecord c o l g pc a v).2 where
  nextId := Nat.le_succ _
  spire := rfl
  variants := rfl
  launches := tget_tmod_map Launch.plan (f := fun L => { L with recs := L.recs + 1 }) (fun _ => rfl) s.belfry.launches l
  blocks _ := rfl

theorem steady_faults (s : State) (f : Faults) : Steady s { s with faults := f } :=
  .of_eq (Nat.le_refl _) rfl rfl rfl

/-! ### Registers and scalars of groups -/

theorem steady_unreserve (s : State) (c : Nat) (r : Option Nat) : Steady s (s.unreserve c r) :=
  (regsOnly_unreserve 0 s c r).steady

theorem steady_setEntry (s : State) (g n : Nat) (e : Option MapEntry) : Steady s (s.setEntry g n e) :=
  steady_modGroup s g _

/-- A vector write touches registers, or the partition's shadow registers (R91, R301). -/
theorem steady_landName (s : State) (g n : Nat) (w : Mask) (v : Lanes) (x : Bool) (r : Option Nat) :
    Steady s (s.landName g n w v x r) := by
  by_cases hn : n < shadowName
  · cases hs : (s.group g).run.spilled with
    | false => exact (regsOnly_landName s g n w v x r hn hs).steady
    | true =>
      simp only [State.landName, if_neg (Nat.not_le.2 hn), hs, if_true]
      have hu := steady_unreserve s (s.coreOf g) r
      split
      · exact hu
      · split
        · refine .trans ?_ (steady_setEntry _ g n _)
          split
          · exact hu.trans (steady_freshId _)
          · exact hu
        · exact hu.trans ((steady_freshId _).trans (steady_setEntry _ g n _))
  · simp only [State.landName, if_pos (Nat.not_lt.1 hn)]
    split
    · exact steady_unreserve s _ r
    · exact steady_modPart s _ _

theorem steady_setScalar (s : State) (g i : Nat) (v : Word) : Steady s (s.setScalar g i v) := by
  unfold State.setScalar
  split
  · exact steady_modPart s _ _
  · exact steady_modGroup s g _

theorem steady_landScal (s : State) (g i : Nat) (v : Word) (m : Mask) (q : Nat) : Steady s (s.landScal g i v m q) := by
  unfold State.landScal State.landOwn
  split
  · exact steady_setScalar s g i v
  · split
    · exact .refl s
    · exact (steady_modGroup s g _).trans (steady_modGroup _ g _)

theorem steady_landBuffer (s : State) (g : Nat) : Steady s (s.landBuffer g) := by
  refine (steady_modGroup s g _).trans (Steady.fold (fun s x => ?_) _ _)
  split
  · exact steady_landScal ..
  · exact steady_landName ..

theorem steady_clearSlot (s : State) (g k : Nat) : Steady s (s.clearSlot g k) := by
  unfold State.clearSlot
  split
  · exact .refl s
  · exact steady_modGroup s g _

end Sys2Proof.Machine
end

section
/-! What evicting groups, stowing scratchpads and starting a record leave as it stands, and what a halted group and a group
that starts stand as (R22, R57 to R59, R99, R334). -/
namespace Sys2Proof.Machine

/-! ### Eviction -/

/-- What names a group, and where each of its threads stands. -/
def Group.footing (G : Group) : GroupId × List (LaneState × Wide) := (G.id, G.threads.map (fun t => (t.st, t.pc)))

/-- Other mappings change neither where a group stands nor where its threads do. -/
theorem sameGroups_mapMappings (s : State) (g : Nat) (f : Mapping → Mapping) :
    SameGroups (fun G => (G.run, G.footing)) s (s.mapMappings g f) := by
  simp only [SameGroups, State.mapMappings, modGroup_groups]
  refine tmod_map_snd (fun G : Group => (G.run, G.footing)) (fun G => ?_) s.groups g
  simp only [Group.footing, List.map_map]
  rfl

theorem steady_spillGroup (s : State) (g : Nat) : Steady s (s.spillGroup g) := .of_eq (Nat.le_refl _) rfl rfl rfl

/-- A group is spilled by a change of its mappings, which neither its place nor its threads show, and then by the mark. -/
theorem spillGroup_groups (s : State) (g : Nat) : ∃ u, SameGroups (fun G => (G.run, G.footing)) s u ∧
    (s.spillGroup g).groups = (u.modGroup g (fun G => { G with run := { G.run with spilled := true } })).groups :=
  ⟨_, sameGroups_mapMappings s g (s.core (s.coreOf g)).toSpill, rfl⟩

theorem sameGroups_spillGroup (s : State) (g : Nat) : SameGroups Group.footing s (s.spillGroup g) := by
  obtain ⟨u, hu, e⟩ := spillGroup_groups s g
  exact (hu.mono Prod.snd).trans ((sameGroups_modGroup u g _).trans (.of_eq e))

theorem spillGroup_isSome (s : State) (g h : Nat) : (tget (s.spillGroup g).groups h).isSome = (tget s.groups h).isSome :=
  (sameGroups_spillGroup s g).isSome h

theorem spillGroup_spilled (s : State) (g : Nat) {h : Nat} (hh : (tget s.groups h).isSome = true) :
    ((s.spillGroup g).group h).run.spilled = (decide (h = g) || (s.group h).run.spilled) := by
  obtain ⟨u, hu, e⟩ := spillGroup_groups s g
  have hr := congrArg (fun x => x.1.spilled) (hu.group_eq h)
  rw [group_of_groups e]
  by_cases hg : h = g
  · subst hg
    rw [group_modGroup u h h _ ((hu.isSome h).trans hh), if_pos rfl]
    simp
  · rw [group_modGroup_ne u g _ hg]
    simpa [hg] using hr

theorem steady_spillRecord (s : State) (g a : Nat) : Steady s (s.spillRecord g a) :=
  .trans (steady_formRecord ..) (steady_faults _ _)

theorem spillRecord_groups (s : State) (g a : Nat) : (s.spillRecord g a).groups = s.groups := rfl

theorem steady_evict (s : State) (g : Nat) : Steady s (s.evict g) := by
  have h : Steady s (if (s.group g).run.place = .active then
      s.modGroup g (fun G => { G with run := { G.run with place := .pending } }) else s) := by
    split
    · exact steady_modGroup s g _
    · exact .refl s
  simp only [State.evict]
  split
  · exact h.trans (steady_spillGroup _ g)
  · exact h.trans (steady_spillRecord _ g _)

theorem sameGroups_evict (s : State) (g : Nat) : SameGroups Group.footing s (s.evict g) := by
  have h : SameGroups Group.footing s (if (s.group g).run.place = .active then
      s.modGroup g (fun G => { G with run := { G.run with place := .pending } }) else s) := by
    split
    · exact sameGroups_modGroup s g _
    · exact .refl s
  simp only [State.evict]
  split
  · exact h.trans (sameGroups_spillGroup _ g)
  · exact h.trans (.of_eq (spillRecord_groups _ g _))

/-- Making room evicts groups, one after another. -/
theorem makeRoom_rel {R : State → State → Prop} (hr : ∀ s, R s s) (ht : ∀ {a b c}, R a b → R b c → R a c)
    (he : ∀ s g, R s (s.evict g)) (c need n : Nat) (s : State) : R s (s.makeRoom c need n) := by
  induction n generalizing s with
  | zero => exact hr s
  | succ n ih =>
    unfold State.makeRoom
    split
    · exact hr s
    · split
      · exact hr s
      · exact ht (he s _) (ih _)

theorem steady_makeRoom (s : State) (c need n : Nat) : Steady s (s.makeRoom c need n) :=
  makeRoom_rel .refl .trans steady_evict c need n s

theorem sameGroups_makeRoom (s : State) (c need n : Nat) : SameGroups Group.footing s (s.makeRoom c need n) :=
  makeRoom_rel (R := SameGroups Group.footing) .refl .trans sameGroups_evict c need n s

/-! ### Scratchpads and latches that go to the stow area and come back (R59, R216) -/

theorem steady_stowScratch (s : State) (b : Nat) : Steady s (s.stowScratch b) := by
  simp only [State.stowScratch]
  split
  · exact .refl s
  · exact (steady_modBlock s b _).trans (memoryOnly_flight _ _).steady

theorem stowScratch_groups (s : State) (b : Nat) : (s.stowScratch b).groups = s.groups := by
  simp only [State.stowScratch]
  split <;> rfl

theorem steady_clearScratch (cores : List Nat) (spread : Bool) (t n : Nat) (s : State) :
    Steady s (s.clearScratch cores spread t n) := by
  induction n generalizing s with
  | zero => exact .refl s
  | succ n ih =>
    unfold State.clearScratch
    split
    · exact .refl s
    · split
      · exact .refl s
      · exact (steady_stowScratch s _).trans (ih _)

theorem steady_unstowScratch (s : State) (b : Nat) : Steady s (s.unstowScratch b) := by
  simp only [State.unstowScratch]
  split
  · exact .refl s
  · exact ((steady_modBlock s b _).trans (steady_blockPut _ b 0 _)).trans
      (Steady.fold (fun t i => (memoryOnly_addPoison t _).steady) _ _)

theorem steady_saveLatch (s : State) (p l owner : Nat) : Steady s (s.saveLatch p l owner) := by
  simp only [State.saveLatch]
  split
  · split
    · exact steady_modBlock s _ _
    · exact .refl s
  · exact .refl s

theorem steady_stowLatchesOf (s : State) (b : Nat) : Steady s (s.stowLatchesOf b) :=
  Steady.fold (fun t p => by
    simp only
    exact (steady_modBlock t b _).trans (steady_modPart _ p _)) _ s

theorem stowLatchesOf_groups (s : State) (b : Nat) : (s.stowLatchesOf b).groups = s.groups :=
  foldS_inv (P := fun t => t.groups = s.groups) _ s rfl (fun _ _ _ h => h)

/-! ### Block records (R334) -/

theorem steady_startRecord (s : State) (b : Nat) : Steady s (s.startRecord b) := by
  simp only [State.startRecord]
  split
  · next h => exact (memoryOnly_vwrite h).steady
  · exact steady_modLaunch s _ _

/-! ### Handlers that are abandoned (R301) -/

/-- What a halt reads of a group: what names it, and its place in the issue path. -/
def Group.standing (G : Group) : GroupId × Place := (G.id, G.run.place)

theorem sameGroups_setScalar (s : State) (g i : Nat) (v : Word) : SameGroups Group.standing s (s.setScalar g i v) := by
  unfold State.setScalar
  split
  · exact .refl s
  · exact sameGroups_modGroup s g _

theorem sameGroups_clearSlot (s : State) (g k : Nat) : SameGroups Group.standing s (s.clearSlot g k) := by
  unfold State.clearSlot
  split
  · exact .refl s
  · exact sameGroups_modGroup s g _

/-- Settling a handler's results writes scalars, drops what is in flight for it, and clears slots. -/
theorem settleHandler_rel {R : State → State → Prop} (hr : ∀ s, R s s) (ht : ∀ {a b c}, R a b → R b c → R a c)
    (hw : ∀ s g i v, R s (s.setScalar g i v)) (hf : ∀ (s : State) f, R s { s with flight := f })
    (hc : ∀ s g k, R s (s.clearSlot g k)) (s : State) (g : Nat) (m : Mask) : R s (s.settleHandler g m) := by
  unfold State.settleHandler
  refine ht (ht (foldS_rel hr ht (fun t e => ?_) _ s) (hf _ _)) (foldS_rel hr ht (fun t k => hc t g k) _ _)
  split
  · exact hw t g _ _
  · exact hr t
  · exact hr t

theorem steady_endHandler (s : State) (g : Nat) : Steady s (s.endHandler g) := by
  unfold State.endHandler
  split
  · exact .refl s
  · exact (settleHandler_rel .refl .trans steady_setScalar (fun t f => (memoryOnly_flight t f).steady) steady_clearSlot
      s g _).trans (steady_modGroup _ g _)

theorem sameGroups_endHandler (s : State) (g : Nat) : SameGroups Group.standing s (s.endHandler g) := by
  unfold State.endHandler
  split
  · exact .refl s
  · exact (settleHandler_rel (R := SameGroups Group.standing) .refl .trans sameGroups_setScalar
      (fun t f => .of_eq (memoryOnly_flight t f).groups_eq) sameGroups_clearSlot s g _).trans
      (sameGroups_modGroup _ g _)

/-! ### Engine operations that are retracted (R57, R215) -/

theorem sameGroups_payRelease (s : State) (g : Nat) : SameGroups Group.standing s (s.payRelease g) := by
  simp only [State.payRelease]
  split
  · exact .refl s
  · split
    · exact .trans (sameGroups_modGroup s g (fun G => { G with regs := { G.regs with owe := G.regs.owe - 1 } }))
        (.of_eq rfl)
    · exact .refl s

theorem sameGroups_unreserve (s : State) (c : Nat) (r : Option Nat) : SameGroups Group.standing s (s.unreserve c r) := by
  unfold State.unreserve
  split
  · unfold State.dropPhys
    split
    · exact .refl s
    · split
      · exact SameGroups.trans (.of_eq rfl) (sameGroups_payRelease _ _)
      · exact .of_eq rfl
  · exact .refl s

/-- Retracting an operation takes it from its engine, gives its registers back, and withdraws its requests. -/
theorem retract_rel {R : State → State → Prop} (hr : ∀ s, R s s) (ht : ∀ {a b c}, R a b → R b c → R a c)
    (hp : ∀ (s : State) p, R s { s with parts := p }) (hu : ∀ s c r, R s (s.unreserve c r))
    (hm : ∀ (s : State) c m, R s { s with cores := c, mats := m }) (s : State) (id : Nat) : R s (s.retract id) := by
  unfold State.retract
  have hd (t : State) (op : MatOp) : R t (t.dropMatResv op) :=
    foldS_rel hr ht (fun t x => foldS_rel hr ht (fun t r => hu t _ r) _ t) _ t
  split
  · exact hr s
  · split
    case h_4 => exact hr s
    all_goals exact ht (ht (hp s _) (hd _ _)) (hm _ _ _)

theorem steady_retract (s : State) (id : Nat) : Steady s (s.retract id) :=
  retract_rel .refl .trans (fun _ _ => .of_eq (Nat.le_refl _) rfl rfl rfl) steady_unreserve
    (fun _ _ _ => .of_eq (Nat.le_refl _) rfl rfl rfl) s id

theorem sameGroups_retract (s : State) (id : Nat) : SameGroups Group.standing s (s.retract id) :=
  retract_rel (R := SameGroups Group.standing) .refl .trans (fun _ _ => .of_eq rfl) sameGroups_unreserve
    (fun _ _ _ => .of_eq rfl) s id

/-! ### Tile bindings that are written back (R246, R361) -/

/-- A write-back puts bytes at a node or into a block's scratchpad, or forms a record. -/
theorem tileBack_rel {R : State → State → Prop} (ht : ∀ {a b c}, R a b → R b c → R a c)
    (hw : ∀ s t, MemoryOnly s t → R s t) (hb : ∀ s b off x, R s (s.blockPut b off x))
    (hf : ∀ s b id t a, R s (s.backFault b id t a)) (s : State) (b : Nat) (t : Tile) : R s (s.tileBack b t) := by
  simp only [State.tileBack]
  split
  · next u hu =>
    unfold State.tileBackTry at hu
    split at hu
    · cases hu
    · split at hu
      · cases hu
        split
        · exact ht (hw _ _ (memoryOnly_putRuns ..)) (hb _ _ _ _)
        · exact hw _ _ (memoryOnly_putRuns ..)
      · split at hu
        · cases hu
        · cases hu
          exact hw _ _ ((memoryOnly_putRuns ..).trans (memoryOnly_putRuns ..))
  · exact hf s b _ t _

theorem steady_tileBack (s : State) (b : Nat) (t : Tile) : Steady s (s.tileBack b t) :=
  tileBack_rel .trans (fun _ _ h => h.steady) steady_blockPut
    (fun _ _ _ _ _ => (steady_formRecord ..).trans (steady_faults _ _)) s b t

theorem tileBack_groups (s : State) (b : Nat) (t : Tile) : (s.tileBack b t).groups = s.groups :=
  tileBack_rel (R := fun s t => t.groups = s.groups) (fun h k => k.trans h) (fun _ _ h => h.groups_eq)
    blockPut_groups (fun _ _ _ _ _ => rfl) s b t

end Sys2Proof.Machine
end

section
/-! What DISPATCH_PLACE, PREEMPT_HALT_DONE and BUNDLE_RETIRE do to the blocks and groups that they concern (R22, R51 to R59,
R333). -/
namespace Sys2Proof.Machine

/-! ### Blocks that are halted (R52, R56) -/

theorem block_modBlock (s : State) (k b : Nat) (f : Block → Block) (h : (tget s.blocks k).isSome = true) :
    (s.modBlock k f).block b = if b = k then f (s.block k) else s.block b := by
  obtain ⟨B, hB⟩ := Option.isSome_iff_exists.1 h
  simp only [State.block, tgetD, modBlock_blocks, tget_tmod]
  split
  · next e => subst e; simp [hB]
  · rfl

theorem block_of_blocks {s t : State} (h : t.blocks = s.blocks) (b : Nat) : t.block b = s.block b :=
  congrArg (tgetD · b) h

theorem preempt_isSome (s : State) (k b : Nat) : (tget (s.preempt k).blocks b).isSome = (tget s.blocks b).isSome := by
  simp only [State.preempt, modBlock_blocks, tget_tmod]
  split
  · rw [Option.isSome_map]
  · rfl

/-- A block that is to be stowed halts where it runs; every other block runs as it did. -/
theorem preempt_run {s : State} {b : Nat} (h : (tget s.blocks b).isSome = true) (k : Nat) :
    ((s.preempt k).block b).run =
      if b = k ∧ (s.block b).run = .running then .halting (s.clk.ac + 41) else (s.block b).run := by
  by_cases hb : b = k
  · subst hb
    rw [State.preempt, block_modBlock s b b _ h, if_pos rfl]
    by_cases hr : (s.block b).run = .running <;> simp [hr]
  · rw [if_neg (fun x => hb x.1), State.preempt]
    simp only [State.block, tgetD, modBlock_blocks, tget_tmod_ne _ _ hb]

theorem foldPreempt_run (bs : List Nat) {s : State} {b : Nat} (h : (tget s.blocks b).isSome = true)
    (hr : (s.block b).run = .running ∨ (s.block b).run = .halting (s.clk.ac + 41)) :
    ((foldS bs s State.preempt).block b).run = if b ∈ bs then .halting (s.clk.ac + 41) else (s.block b).run := by
  induction bs generalizing s with
  | nil => simp
  | cons k r ih =>
    have hk := preempt_run h k
    have hs : (tget (s.preempt k).blocks b).isSome = true := (preempt_isSome s k b).trans h
    by_cases hb : b = k
    · subst hb
      have hh : ((s.preempt b).block b).run = .halting (s.clk.ac + 41) := by
        rw [hk]
        rcases hr with hr | hr <;> simp [hr]
      have e := ih hs (.inr hh)
      rw [hh, show (s.preempt b).clk = s.clk from rfl, ite_self] at e
      rw [foldS_cons, e, if_pos List.mem_cons_self]
    · rw [if_neg (fun x => hb x.1)] at hk
      rw [foldS_cons, ih hs (by rw [hk]; exact hr), hk]
      simp only [List.mem_cons, hb, false_or]
      rfl

/-- A pre-emption moves no byte and no group. -/
theorem foldPreempt_frame (bs : List Nat) (s : State) :
    (foldS bs s State.preempt).mem = s.mem ∧ (foldS bs s State.preempt).groups = s.groups :=
  foldS_inv (P := fun t => t.mem = s.mem ∧ t.groups = s.groups) bs s ⟨rfl, rfl⟩ (fun _ _ _ h => h)

/-! ### A halt that completes (R57) -/

/-- A group that gives up its slot changes place; its handler's end aside it stands as it did. -/
theorem stowGroup_groups (s : State) (g : Nat) : ∃ u f, SameGroups Group.standing s u ∧
    (s.stowGroup g).groups = (u.modGroup g f).groups ∧ ∀ G, (f G).run.place = .stowed :=
  ⟨_, _, sameGroups_endHandler s g, rfl, fun _ => rfl⟩

theorem steady_stowGroup (s : State) (g : Nat) : Steady s (s.stowGroup g) :=
  (steady_endHandler s g).trans (.of_eq (Nat.le_refl _) rfl rfl rfl)

theorem stowGroup_isSome (s : State) (g h : Nat) : (tget (s.stowGroup g).groups h).isSome = (tget s.groups h).isSome := by
  obtain ⟨u, f, hu, e, -⟩ := stowGroup_groups s g
  rw [e, ← hu.isSome h, modGroup_groups, tget_tmod]
  split
  · rw [Option.isSome_map]
  · rfl

theorem stowGroup_place (s : State) (g : Nat) {h : Nat} (hh : (tget s.groups h).isSome = true) :
    ((s.stowGroup g).group h).run.place = if h = g then .stowed else (s.group h).run.place := by
  obtain ⟨u, f, hu, e, hf⟩ := stowGroup_groups s g
  rw [group_of_groups e]
  split
  · next hg =>
    subst hg
    rw [group_modGroup u h h f ((hu.isSome h).trans hh), if_pos rfl, hf]
  · next hg =>
    rw [group_modGroup_ne u g f hg]
    exact congrArg Prod.snd (hu.group_eq h)

/-- Groups that give up their slots one after another all stand stowed. -/
theorem foldStow_place (gs : List Nat) (s : State) (hs : ∀ g, g ∈ gs → (tget s.groups g).isSome = true) :
    ∀ g, g ∈ gs → ((foldS gs s State.stowGroup).group g).run.place = .stowed := by
  refine fun g hg => (foldS_all (E := fun g s => (tget s.groups g).isSome = true)
    (P := fun g s => (tget s.groups g).isSome = true ∧ (s.group g).run.place = .stowed)
    (fun s a b h => (stowGroup_isSome s a b).trans h) (fun s a b h => ⟨(stowGroup_isSome s a b).trans h.1, ?_⟩)
    (fun s a h => ⟨(stowGroup_isSome s a a).trans h, ?_⟩) gs s hs g hg).2
  · rw [stowGroup_place s a h.1, h.2, ite_self]
  · rw [stowGroup_place s a h, if_pos rfl]

theorem mem_blockGroups_isSome {s : State} {b g : Nat} (h : g ∈ (s.blockGroups b).map Prod.fst) :
    (tget s.groups g).isSome = true := by
  rw [tget_isSome_iff]
  obtain ⟨e, he, rfl⟩ := List.mem_map.1 h
  exact List.mem_map_of_mem (List.mem_filter.1 he).1

/-- The groups of a block are found by what a halt leaves of a group. -/
theorem blockGroups_keys {s t : State} (h : SameGroups Group.standing s t) (b : Nat) :
    (t.blockGroups b).map Prod.fst = (s.blockGroups b).map Prod.fst := by
  have key (s : State) : (s.blockGroups b).map Prod.fst = ((s.groups.map (fun e => (e.1, e.2.standing))).filter
      (fun x => decide (x.2.1.block = b) && decide (x.2.2 ≠ .gone))).map Prod.fst := by
    rw [List.filter_map, List.map_map]
    rfl
  rw [key, key, h]

/-- A halt first retracts the engine's operations and writes the tile bindings back (R57, R246). -/
def State.haltSettled (s : State) (b : Nat) : State :=
  let u := foldS ((s.haltOps b).map Prod.fst) s State.retract
  foldS ((u.block b).tiles.filter (fun e => decide (e.1 ≠ faultBin))) u (fun u e => u.tileBack b e.2)

theorem steady_haltSettled (s : State) (b : Nat) : Steady s (s.haltSettled b) := by
  have h := Steady.fold steady_retract ((s.haltOps b).map Prod.fst) s
  exact h.trans (Steady.fold (fun u (e : Nat × Tile) => steady_tileBack u b e.2) _ _)

theorem sameGroups_haltSettled (s : State) (b : Nat) : SameGroups Group.standing s (s.haltSettled b) := by
  have h := SameGroups.fold sameGroups_retract ((s.haltOps b).map Prod.fst) s
  exact h.trans (.fold (fun u (e : Nat × Tile) => .of_eq (tileBack_groups u b e.2)) _ _)

/-- Then the block is stowed, and its groups give up their slots. -/
theorem stowBlock_stages (s : State) (b : Nat) : ∃ f : Block → Block, (∀ B, (f B).run = .stowed) ∧
    MemoryOnly (foldS ((s.blockGroups b).map Prod.fst) ((s.haltSettled b).modBlock b f) State.stowGroup)
      (s.stowBlock b) := by
  rw [← blockGroups_keys (sameGroups_haltSettled s b) b]
  exact ⟨_, fun _ => rfl, memoryOnly_trace1 _ _ _ _ _⟩

theorem stowBlock_run {s : State} {b : Nat} (hb : (tget s.blocks b).isSome = true) :
    ((s.stowBlock b).block b).run = .stowed := by
  obtain ⟨f, hf, hm⟩ := stowBlock_stages s b
  obtain ⟨B, hB⟩ := Option.isSome_iff_exists.1 (((steady_haltSettled s b).block_isSome b).trans hb)
  have hB' : tget ((s.haltSettled b).modBlock b f).blocks b = some (f B) := by
    rw [modBlock_blocks, tget_tmod_self, hB, Option.map_some]
  obtain ⟨C, hC, -, hr⟩ := (Steady.fold steady_stowGroup ((s.blockGroups b).map Prod.fst) _).block_eq hB'
  rw [block_of_blocks hm.blocks_eq, State.block, tgetD_of_tget hC, hr, hf]

theorem stowBlock_place {s : State} {b g : Nat} (hg : g ∈ (s.blockGroups b).map Prod.fst) :
    ((s.stowBlock b).group g).run.place = .stowed := by
  obtain ⟨f, -, hm⟩ := stowBlock_stages s b
  rw [group_of_groups hm.groups_eq]
  refine foldStow_place _ _ (fun h hh => ?_) g hg
  exact ((sameGroups_haltSettled s b).isSome h).trans (mem_blockGroups_isSome hh)

/-! ### A stowed block that leaves its cluster (R326) -/

/-- Groups that are not spilled yet are spilled one after another. -/
theorem foldSpill_spilled (gs : List Nat) (s : State) (hs : ∀ g, g ∈ gs → (tget s.groups g).isSome = true) :
    ∀ g, g ∈ gs →
      ((foldS gs s (fun s g => if (s.group g).run.spilled then s else s.spillGroup g)).group g).run.spilled = true := by
  refine fun g hg => (foldS_all (E := fun g s => (tget s.groups g).isSome = true)
    (P := fun g s => (tget s.groups g).isSome = true ∧ (s.group g).run.spilled = true)
    (fun s a b h => ?_) (fun s a b h => ?_) (fun s a h => ?_) gs s hs g hg).2
  · split
    · exact h
    · exact (spillGroup_isSome s a b).trans h
  · split
    · exact h
    · exact ⟨(spillGroup_isSome s a b).trans h.1, by rw [spillGroup_spilled s a h.1, h.2, Bool.or_true]⟩
  · split
    · next hg => exact ⟨h, hg⟩
    · exact ⟨(spillGroup_isSome s a a).trans h, by simp [spillGroup_spilled s a h]⟩

theorem stowWhole_spilled {s : State} {b g : Nat} (hg : g ∈ (s.blockGroups b).map Prod.fst) :
    ((s.stowWhole b).group g).run.spilled = true := by
  simp only [State.stowWhole]
  rw [group_of_groups ((stowLatchesOf_groups _ b).trans (stowScratch_groups _ b))]
  exact foldSpill_spilled _ s (fun h hh => mem_blockGroups_isSome hh) g hg

theorem preemptHaltDone_ready {s : State} {b : Nat} (h : s.haltReady b = true) :
    exec (.preemptHaltDone b) s = .next (s.stowBlock b) := by
  show execPreemptHaltDone b s = _
  rw [execPreemptHaltDone, if_pos h]

theorem preemptHaltDone_leaves {s : State} {b : Nat} (h : s.haltReady b = false) (hl : s.leavesNow b = true) :
    exec (.preemptHaltDone b) s = .next (s.stowWhole b) := by
  show execPreemptHaltDone b s = _
  rw [execPreemptHaltDone, if_neg (by rw [h]; exact Bool.false_ne_true), if_pos hl]

theorem preemptHaltDone_idle {s : State} {b : Nat} (h : s.haltReady b = false) (hl : s.leavesNow b = false) :
    exec (.preemptHaltDone b) s = .next s := by
  show execPreemptHaltDone b s = _
  simp only [execPreemptHaltDone, h, hl, Bool.false_eq_true, if_false]

/-! ### The suspect set of a cluster (R326) -/

/-- While a cluster's suspect set is not about to fill, taking a region changes the Spire's table only. -/
theorem suspect_frame {s : State} {cores : List Nat} (h : (s.cluster (cores.headD 0 / 4)).suspects.length < 65535)
    (r : Region) : (s.suspect cores r).blocks = s.blocks ∧ (s.suspect cores r).groups = s.groups ∧
      (s.suspect cores r).belfry = s.belfry := by
  simp only [State.suspect, h, true_or, if_true]
  split
  · exact ⟨rfl, rfl, rfl⟩
  · split <;> exact ⟨rfl, rfl, rfl⟩

end Sys2Proof.Machine
end

section
/-! What placing a block does: a fresh block and its groups start, a stowed block runs again (R6, R22, R51, R53, R80). -/
namespace Sys2Proof.Machine

/-! ### Groups that start (R6, R22, R80) -/

/-- A footing of a group that has just started in a block: group `e.1` of sub-launch `e.2`, every thread live at `pc`. -/
def StartsAs (l b : Nat) (e : Nat × Nat) (pc : Wide) (f : GroupId × List (LaneState × Wide)) : Prop :=
  f.1.block = b ∧ f.1.index = e.1 ∧ f.1.sub = some e.2 ∧ f.1.launch = l ∧ f.2 = List.replicate 128 (.live, pc)

/-- A group is there that has started so, under a number that has been given out. -/
def Started (l b : Nat) (e : Nat × Nat) (pc : Wide) (s : State) : Prop :=
  ∃ g G, g < s.env.nextId ∧ tget s.groups g = some G ∧ StartsAs l b e pc G.footing

theorem Started.sameGroups {l b : Nat} {e : Nat × Nat} {pc : Wide} {s t : State} (h : Started l b e pc s)
    (hs : Steady s t) (hg : SameGroups Group.footing s t) : Started l b e pc t := by
  obtain ⟨g, G, hn, hG, hf⟩ := h
  have e := hg.tget g
  rw [hG, Option.map_some, Option.map_eq_some_iff] at e
  obtain ⟨H, hH, e⟩ := e
  exact ⟨g, H, Nat.lt_of_lt_of_le hn hs.nextId, hH, e ▸ hf⟩

/-- Where each thread of a group with a given footing stands. -/
theorem thread_of_footing {G : Group} {st : LaneState} {pc : Wide} (h : G.footing.2 = List.replicate 128 (st, pc)) {k : Nat}
    (hk : k < 128) : (G.thread k).st = st ∧ (G.thread k).pc = pc := by
  have hl : k < G.threads.length := by
    have e := congrArg List.length h
    rw [Group.footing, List.length_map, List.length_replicate] at e
    rw [e]
    exact hk
  have e : (G.threads[k].st, G.threads[k].pc) = (st, pc) := by
    have e := congrArg (fun x : List (LaneState × Wide) => x[k]?) h
    simp only [Group.footing, List.getElem?_map, List.getElem?_eq_getElem hl, Option.map_some,
      List.getElem?_replicate, if_pos hk] at e
    exact Option.some.inj e
  have ht : G.thread k = G.threads[k] := by
    rw [Group.thread, List.getD_eq_getElem?_getD, List.getElem?_eq_getElem hl, Option.getD_some]
  rw [ht]
  exact ⟨congrArg Prod.fst e, congrArg Prod.snd e⟩

theorem steady_startGroup (s : State) (l b i j : Nat) (cores : List Nat) (keep : Bool) :
    Steady s (s.startGroup l b i j cores keep) := .of_eq (Nat.le_succ _) rfl rfl rfl

/-- A start takes a fresh number for its group. -/
theorem startGroup_groups (s : State) (l b i j : Nat) (cores : List Nat) (keep : Bool) : ∃ G,
    (s.startGroup l b i j cores keep).groups = tput s.groups s.env.nextId G ∧
    StartsAs l b (i, j) ((s.launch l).bundle.subs.getD j default).entry G.footing :=
  ⟨_, rfl, rfl, rfl, rfl, rfl, List.map_replicate⟩

/-- The groups of a block start one after another, each at its sub-launch's entry. -/
theorem foldStart_started (es : List (Nat × Nat)) (s : State) (l b : Nat) (cores : List Nat) (keep : Bool) :
    ∀ e, e ∈ es → Started l b e ((s.launch l).bundle.subs.getD e.2 default).entry
      (foldS es s (fun s e => s.startGroup l b e.1 e.2 cores keep)) := by
  refine foldS_all (E := fun _ t => (t.launch l).bundle = (s.launch l).bundle)
    (P := fun e t => Started l b e ((s.launch l).bundle.subs.getD e.2 default).entry t)
    (fun t a _ h => ((steady_startGroup t l b a.1 a.2 cores keep).bundle_eq l).trans h) (fun t a _ h => ?_) (fun t a h => ?_)
    es s (fun _ _ => rfl)
  · obtain ⟨g, G, hn, hG, hf⟩ := h
    obtain ⟨H, e, -⟩ := startGroup_groups t l b a.1 a.2 cores keep
    exact ⟨g, G, Nat.lt_succ_of_lt hn, by rw [e, tget_tput_ne _ _ (Nat.ne_of_lt hn), hG], hf⟩
  · obtain ⟨H, e, hf⟩ := startGroup_groups t l b a.1 a.2 cores keep
    exact ⟨t.env.nextId, H, Nat.lt_succ_self _, by rw [e, tget_tput_self], h ▸ hf⟩

/-! ### A fresh block (R22, R51, R334) -/

/-- A fresh block enters the tables and its launch counts it (`u`); its groups start (`v`), room is made on its cores (`w`),
and their cluster takes the region. -/
theorem startBlock_stages (s : State) (l x : Nat) (cores : List Nat) (spread : Bool) : ∃ (p u v w : State) (B : Block)
    (f : Launch → Launch), Steady s p ∧
    (B.id.launch = l ∧ B.id.index = x ∧ B.id.cores = cores ∧ B.run = .running) ∧
    (∀ L, (f L).plan = (L.bundle, L.started + 1)) ∧
    u = ({ p.freshId.2 with blocks := tput p.blocks p.env.nextId B } : State).modLaunch l f ∧
    v = foldS (s.launch l).groupOrder (u.startRecord p.env.nextId)
      (fun s e => s.startGroup l p.env.nextId e.1 e.2 cores false) ∧
    w = foldS cores v (fun s c => s.makeRoom c 0 256) ∧
    MemoryOnly (w.suspect cores (s.launch l).region) (s.startBlock l x cores spread false) :=
  ⟨_, _, _, _, _, _, steady_clearScratch cores spread (s.launch l).t 256 s, ⟨rfl, rfl, rfl, rfl⟩, fun _ => rfl,
    rfl, rfl, rfl, memoryOnly_trace1 _ _ _ _ _⟩

/-- A block that has entered the tables stands there, its launch has started one block more, and has its bundle still. -/
theorem enterBlock_facts {s : State} {l : Nat} {B : Block} {f : Launch → Launch}
    (hf : ∀ L, (f L).plan = (L.bundle, L.started + 1)) (hl : (tget s.belfry.launches l).isSome = true) {u : State}
    (hu : u = ({ s.freshId.2 with blocks := tput s.blocks s.env.nextId B } : State).modLaunch l f) :
    tget u.blocks s.env.nextId = some B ∧ (u.launch l).started = (s.launch l).started + 1 ∧
      (u.launch l).bundle = (s.launch l).bundle := by
  subst hu
  obtain ⟨L, hL⟩ := Option.isSome_iff_exists.1 hl
  have e : (State.modLaunch { s.freshId.2 with blocks := tput s.blocks s.env.nextId B } l f).launch l = f L := by
    refine tgetD_of_tget ?_
    show tget (tmod s.belfry.launches l f) l = _
    rw [tget_tmod_self, hL, Option.map_some]
  rw [e, show s.launch l = L from tgetD_of_tget hL]
  exact ⟨tget_tput_self s.blocks s.env.nextId B, congrArg Prod.snd (hf L), congrArg Prod.fst (hf L)⟩

theorem startBlock_facts {s : State} {l x : Nat} {cores : List Nat} (spread : Bool)
    (hc : (s.cluster (cores.headD 0 / 4)).suspects.length < 65535) (hl : (tget s.belfry.launches l).isSome = true) :
    ∃ b B, s.env.nextId ≤ b ∧ tget (s.startBlock l x cores spread false).blocks b = some B ∧
      (B.id.launch = l ∧ B.id.index = x ∧ B.id.cores = cores ∧ B.run = .running) ∧
      ((s.startBlock l x cores spread false).launch l).started = (s.launch l).started + 1 ∧
      ∀ e, e ∈ (s.launch l).groupOrder → ∃ g G, tget (s.startBlock l x cores spread false).groups g = some G ∧
        StartsAs l b e ((s.launch l).bundle.subs.getD e.2 default).entry G.footing := by
  obtain ⟨p, u, v, w, B, f, hp, hB, hf, hu, hv, hw, hm⟩ := startBlock_stages s l x cores spread
  obtain ⟨hub, hus, hud⟩ := enterBlock_facts hf ((hp.launch_isSome l).trans hl) hu
  have huv : Steady u v := hv ▸ (steady_startRecord u p.env.nextId).trans
    (Steady.fold (fun t (e : Nat × Nat) => steady_startGroup t l p.env.nextId e.1 e.2 cores false) _ _)
  have hvw : Steady v w := hw ▸ Steady.fold (fun t c => steady_makeRoom t c 0 256) cores v
  have hgw : SameGroups Group.footing v w := hw ▸ SameGroups.fold (fun t c => sameGroups_makeRoom t c 0 256) cores v
  have huw := huv.trans hvw
  have hup : u.spire = p.spire := by rw [hu]; rfl
  have hwc : w.cluster (cores.headD 0 / 4) = s.cluster (cores.headD 0 / 4) := by
    simp only [State.cluster, huw.spire, hup, hp.spire]
  obtain ⟨hwb, hwg, hwl⟩ := suspect_frame (s := w) (by rw [hwc]; exact hc) (s.launch l).region
  obtain ⟨C, hC, hCi, hCr⟩ := huw.block_eq hub
  refine ⟨p.env.nextId, C, hp.nextId, ?block, ?names, ?started, fun e he => ?groups⟩
  case block => rw [hm.blocks_eq, hwb, hC]
  case names => rw [hCi, hCr]; exact hB
  case started =>
    have e : (s.startBlock l x cores spread false).launch l = w.launch l :=
      congrArg (tgetD · l) (congrArg Belfry.launches (hm.belfry_eq.trans hwl))
    rw [e, huw.started_eq, hus, hp.started_eq]
  case groups =>
    have h := foldStart_started (s.launch l).groupOrder (u.startRecord p.env.nextId) l p.env.nextId cores false e he
    rw [(steady_startRecord u _).bundle_eq, hud, hp.bundle_eq, ← hv] at h
    obtain ⟨g, G, -, hG, hf⟩ := h.sameGroups hvw hgw
    exact ⟨g, G, by rw [hm.groups_eq, hwg, hG], hf⟩

/-! ### A stowed block that runs again (R53, R58, R59) -/

/-- What has landed for a group is written when it takes its slot again, unless its registers are spilled. -/
theorem steady_landUnlessSpilled (s : State) (g : Nat) :
    Steady s (if (s.group g).run.spilled then s else s.landBuffer g) := by
  split
  · exact .refl s
  · exact steady_landBuffer s g

theorem steady_resumeGroup (s : State) (g : Nat) (old new : List Nat) : Steady s (s.resumeGroup g old new) :=
  ((steady_modGroup s g _).trans (steady_modPart _ _ _)).trans (steady_landUnlessSpilled _ g)

/-- A stowed block takes its place; then its scratchpad, latches and groups come back, room is made on its cores, and their
cluster takes the region. -/
theorem resumeBlock_stages (s : State) (b : Nat) (cores : List Nat) : ∃ (p v : State) (base : Nat) (r : Region),
    Steady s p ∧ Steady (p.modBlock b (fun x => { x with
      id := { x.id with cores := cores, die := cores.headD 0 / 16, base := base }, run := .running, stowLatches := [] })) v ∧
    MemoryOnly (v.suspect cores r) (s.resumeBlock b cores) := by
  have hq : Steady s (if (s.block b).id.cores = cores then s else s.stowLatchesOf b) := by
    split
    · exact .refl s
    · exact steady_stowLatchesOf s b
  have hp (q : State) (back spread : Bool) (t : Nat) : Steady q (if back then q.clearScratch cores spread t 256 else q) := by
    split
    · exact steady_clearScratch cores spread t 256 q
    · exact .refl q
  exact ⟨_, _, _, _, hq.trans (hp _ _ _ _), (steady_unstowScratch _ b).trans (.trans
    (Steady.fold (fun t (x : Nat × Nat × Latch) => (steady_saveLatch t _ x.2.1 b).trans (steady_modPart _ _ _)) _ _) (.trans
    (Steady.fold (fun t g => steady_resumeGroup t g _ cores) _ _)
    (Steady.fold (fun t c => steady_makeRoom t c 0 256) cores _))), memoryOnly_trace1 _ _ _ _ _⟩

theorem resumeBlock_facts {s : State} {b : Nat} {cores : List Nat}
    (hc : (s.cluster (cores.headD 0 / 4)).suspects.length < 65535) (hb : (tget s.blocks b).isSome = true) :
    ((s.resumeBlock b cores).block b).run = .running ∧ ((s.resumeBlock b cores).block b).id.cores = cores := by
  obtain ⟨p, v, base, r, hp, hv, hm⟩ := resumeBlock_stages s b cores
  obtain ⟨B, hB⟩ := Option.isSome_iff_exists.1 ((hp.block_isSome b).trans hb)
  obtain ⟨C, hC, hi, hr⟩ := hv.block_eq (b := b) (by rw [modBlock_blocks, tget_tmod_self, hB, Option.map_some])
  have hvc : v.cluster (cores.headD 0 / 4) = s.cluster (cores.headD 0 / 4) :=
    (hv.cluster_eq _).trans (hp.cluster_eq _)
  obtain ⟨hs, -, -⟩ := suspect_frame (s := v) (by rw [hvc]; exact hc) r
  rw [block_of_blocks (hm.blocks_eq.trans hs), State.block, tgetD_of_tget hC, hi, hr]
  exact ⟨rfl, rfl⟩

/-! ### A bin dispatch (R253) -/

theorem placeBin_tile {s : State} {b k : Nat} {T : Tile} (hT : tget (s.block b).tiles k = some T) (c : List Nat) :
    tget ((s.placeItem (.bin b k) c).block b).tiles k = some { T with dispatch := .placed (s.freestPart c) } := by
  have hb : (tget s.blocks b).isSome = true := by
    cases h : tget s.blocks b with
    | none => simp [State.block, tgetD, h, show (default : Block).tiles = [] from rfl] at hT
    | some B => rfl
  rw [State.placeItem, block_modBlock s b b _ hb, if_pos rfl, tget_tmod_self, hT, Option.map_some]

/-! ### DISPATCH_PLACE -/

section dispatch
variable {s : State} {d : Nat} {h : Item} {rest : List Item} (hd : s.spire.boot.inReset.contains (1 + d) = false)
  (h6 : s.spire.boot.inReset.contains 6 = false) (ht : s.spire.boot.tempHold = false) (hi : s.items d = h :: rest)
include hd h6 ht hi

theorem dispatchPlace_places {c : List Nat} (hc : s.bestPlace h = some c) :
    exec (.dispatchPlace d) s = .next (s.placeItem h c) := by
  show execDispatchPlace d s = _
  simp only [execDispatchPlace, hd, h6, ht, hi, hc, Bool.false_eq_true, or_self, if_false]

theorem dispatchPlace_preempts (hc : s.bestPlace h = none) {c bs : List Nat} (hp : s.preemptFor h = some (c, bs)) :
    exec (.dispatchPlace d) s = .next (foldS bs s State.preempt) := by
  show execDispatchPlace d s = _
  simp only [execDispatchPlace, hd, h6, ht, hi, hc, hp, Bool.false_eq_true, or_self, if_false]

end dispatch

theorem dispatchPlace_idle {s : State} {d : Nat} (hi : s.items d = []) : exec (.dispatchPlace d) s = .next s := by
  show execDispatchPlace d s = _
  simp only [execDispatchPlace, hi, ite_self]

/-! ### BUNDLE_RETIRE (R22, R54, R333) -/

theorem memoryOnly_writeRetire (s : State) (L : Launch) (next : Nat) : MemoryOnly s (s.writeRetire L next) := by
  simp only [State.writeRetire]
  split
  · exact .refl s
  · next h =>
    split
    · exact memoryOnly_belfryWrite h
    · next h' => exact (memoryOnly_belfryWrite h).trans (memoryOnly_belfryWrite h')

theorem steady_post (s : State) (chip : Nat) (k : MsgKind) (a : Wide) (runs : List (Nat × Nat)) (x : List Byte) (w : Bool) :
    Steady s (s.post chip k a runs x w).2 := by
  simp only [State.post, State.send, State.openContext]
  repeat' split
  all_goals exact .of_eq (Nat.le_succ _) rfl rfl rfl

theorem steady_reportCharge (s : State) (L : Launch) : Steady s (s.reportCharge L) := by
  unfold State.reportCharge
  split
  · split
    · exact .refl s
    · exact steady_post ..
  · exact .refl s

theorem memoryOnly_complete (s : State) (header slot : Nat) (sp : Space) (compl : Wide) (status : Nat) :
    MemoryOnly s (s.complete header slot sp compl status) := by
  unfold State.complete
  split
  · next h => exact memoryOnly_belfryWrite h
  · exact memoryOnly_ownWrite ..

theorem steady_finalStatus (s : State) (L : Launch) : Steady s (s.finalStatus L) := by
  unfold State.finalStatus
  split
  · unfold State.taskStatus
    split
    · exact (memoryOnly_ownWrite ..).steady
    · exact steady_post ..
  · exact (memoryOnly_complete ..).steady

theorem recordVariant_head (s : State) (L : Launch) : (s.recordVariant L).belfry.variants.head? =
    some ⟨L.region.rcb, L.bundle.addr, L.nextVariant.getD (s.variantOf L.region.rcb L.bundle.addr)⟩ := rfl

theorem steady_grantAreas (s : State) : Steady s s.grantAreas :=
  Steady.fold (fun t _ => steady_modLaunch t _ _) _ s

theorem grantAreas_groups (s : State) : s.grantAreas.groups = s.groups :=
  foldS_inv (P := fun t => t.groups = s.groups) _ s rfl (fun _ _ _ h => h)

/-- A launch that retires leaves its variant at the head of the table; then the launch and its groups are gone. -/
theorem bundleRetire_stages {s : State} {l : Nat} {L : Launch} (hL : tget s.belfry.launches l = some L)
    (hr : s.mayRetire l L = true) : ∃ p u, MemoryOnly s p ∧ Steady (p.recordVariant L) u ∧
      exec (.bundleRetire l) s = .next ({ u with
        belfry := { u.belfry with launches := tdel u.belfry.launches l }
        groups := u.groups.filter (fun (e : Nat × Group) => decide (e.2.id.launch ≠ l))
      } : State).freeRecords.grantAreas := by
  have e : exec (.bundleRetire l) s = execBundleRetire l s := rfl
  simp only [e, execBundleRetire, hL, hr, not_true_eq_false, if_false]
  exact ⟨_, _, memoryOnly_writeRetire s L (s.reportedVariant L), ((steady_reportCharge _ L).trans
    (steady_finalStatus _ L)).trans (memoryOnly_trace1 _ _ _ _ _).steady, rfl⟩

theorem bundleRetire_waits {s : State} {l : Nat} {L : Launch} (hL : tget s.belfry.launches l = some L)
    (hr : s.mayRetire l L = false) : exec (.bundleRetire l) s = .next s := by
  show execBundleRetire l s = _
  simp only [execBundleRetire, hL, hr, Bool.false_eq_true, not_false_eq_true, if_true]

/-- No entry of a table that a condition was filtered by fails it. -/
theorem tget_filter_pos {α : Type} (t : Tab α) (p : Nat × α → Bool) {n : Nat} {x : α} (h : tget (t.filter p) n = some x) :
    p (n, x) = true := by
  induction t with
  | nil => cases h
  | cons e r ih =>
    rw [List.filter_cons] at h
    split at h
    · next he =>
      rw [tget_cons] at h
      split at h
      · next hn => cases h; rw [hn]; exact he
      · exact ih h
    · exact ih h

theorem bundleRetire_facts {s : State} {l : Nat} {L : Launch} (hL : tget s.belfry.launches l = some L)
    (hr : s.mayRetire l L = true) : ∃ t, exec (.bundleRetire l) s = .next t ∧ tget t.belfry.launches l = none ∧
      (∀ g G, tget t.groups g = some G → G.id.launch ≠ l) ∧
      t.belfry.variants.head? = some ⟨L.region.rcb, L.bundle.addr,
        L.nextVariant.getD (s.variantOf L.region.rcb L.bundle.addr)⟩ := by
  obtain ⟨p, u, hp, hu, e⟩ := bundleRetire_stages hL hr
  refine ⟨_, e, ?launch, fun g G hG => ?groups, ?variant⟩
  case launch =>
    refine Option.not_isSome_iff_eq_none.1 ?_
    rw [(steady_grantAreas _).launch_isSome]
    simp [State.freeRecords]
  case groups =>
    rw [grantAreas_groups] at hG
    simpa using tget_filter_pos _ _ hG
  case variant =>
    rw [(steady_grantAreas _).variants]
    show u.belfry.variants.head? = _
    rw [hu.variants, recordVariant_head]
    simp only [State.variantOf, hp.belfry_eq]

/-! ### The obligation -/

/-- Settles O52: what placing, stowing and retiring do to blocks, groups and launches, by the lemmas above, each of which
follows the stages of its event: all other stages leave blocks, launches and groups standing. -/
theorem blocksPlaceStowAndRetire : Obligations.BlocksPlaceStowAndRetire := by
  unfold Obligations.BlocksPlaceStowAndRetire
  refine ⟨fun s d h rest hd h6 ht hi => ⟨?fresh, ?stowed, ?bin, ?preempt⟩, fun s d hi => dispatchPlace_idle hi,
    fun s b hr hb => ⟨_, preemptHaltDone_ready hr, stowBlock_run hb, fun g hg => stowBlock_place hg⟩,
    fun s b hr hl => preemptHaltDone_idle hr hl,
    fun s b hr hl => ⟨_, preemptHaltDone_leaves hr hl, fun g hg => stowWhole_spilled hg⟩,
    fun s l L hL hr => bundleRetire_facts hL hr, fun s l L hL hr => bundleRetire_waits hL hr⟩
  case fresh =>
    rintro c l x hc rfl hs hl
    obtain ⟨b, B, hn, hB, ⟨hBl, hBx, hBc, hBr⟩, ht', hg⟩ := startBlock_facts (decide ((s.launch l).t > coreScratch)) hs hl
    refine ⟨_, b, B, dispatchPlace_places hd h6 ht hi hc, hn, hB, hBl, hBx, hBc, hBr, ht', fun e he => ?_⟩
    obtain ⟨g, G, hG, hblock, hindex, hsub, hlaunch, hthreads⟩ := hg e he
    exact ⟨g, G, hG, hblock, hindex, hsub, hlaunch, fun k hk => thread_of_footing hthreads hk⟩
  case stowed =>
    rintro c b hc rfl hs hb
    exact ⟨_, dispatchPlace_places hd h6 ht hi hc, resumeBlock_facts hs hb⟩
  case bin =>
    rintro c b k T hc rfl hT
    exact ⟨_, dispatchPlace_places hd h6 ht hi hc, rfl, placeBin_tile hT c⟩
  case preempt =>
    intro c bs hc hp
    obtain ⟨hm, hg⟩ := foldPreempt_frame bs s
    refine ⟨_, dispatchPlace_preempts hd h6 ht hi hc hp, hm, hg, fun b hb hr => ?_⟩
    rw [foldPreempt_run bs hb (.inl hr), hr]

end Sys2Proof.Machine
end

section
/-! What LOOP, ENDL and WBASE do to the windows and the loop stacks of a split, within their limits and beyond (R17, R89). -/
namespace Sys2Proof.Machine

/-! ### A change of window (R89) -/

theorem Issues.iss_eq {s : State} {is : Issue} {m : Member} (h : Issues s is m) : s.iss = is := iss_of h.issue

theorem Issues.leader_eq {s : State} {is : Issue} {m : Member} (h : Issues s is m) : is.leader = m := by
  simp only [Issue.leader, h.alone, List.headD_cons]

theorem lanesWhere_none {s : State} {g : Nat} {m : Mask} {p : Thread → Bool}
    (h : ∀ l, m.getLsbD l = true → p ((s.group g).thread l) = false) : s.lanesWhere g m p = 0 := by
  have e : (lanesOf m).filter (fun l => p ((s.group g).thread l)) = [] :=
    List.filter_eq_nil_iff.2 (fun l hl => by simp [h l ((mem_lanesOf m l).1 hl).2])
  rw [State.lanesWhere, e]
  rfl

theorem parkMember_none (s : State) (is : Issue) (o : Opnds) (g : Nat) (c : Cause) : s.parkMember is o g 0 c = s := by
  simp only [State.parkMember, State.parkLanes, if_true]

/-- A change of window in which no active thread breaks a limit parks none. -/
theorem changeWb_within {s : State} {is : Issue} {m : Member} (h : Issues s is m) (o : Opnds) {bad : Thread → Bool}
    {new : Thread → Nat} {stack : Thread → List (BitVec 9)}
    (hb : ∀ l, m.act.getLsbD l = true → bad ((s.group m.gid).thread l) = false)
    (hw : ∀ l, m.act.getLsbD l = true → new ((s.group m.gid).thread l) ≤ min 384 (s.group m.gid).id.stride) :
    s.changeWb o bad new stack = (s.advance m.gid m.lanes is.next (s.nextReady is 0)).modGroup m.gid (fun G =>
      G.modThreads m.act (fun _ t => { t with wb := BitVec.ofNat 9 (new t), stack := stack t })) := by
  have hw' : s.lanesWhere m.gid m.act (fun t => decide (new t > 384) || decide (new t > (s.group m.gid).id.stride)) = 0 := by
    refine lanesWhere_none (fun l hl => ?_)
    have := hw l hl
    simp only [Bool.or_eq_false_iff, decide_eq_false_iff_not]
    omega
  simp only [State.changeWb, h.iss_eq, h.leader_eq, lanesWhere_none hb, and_not_zero, hw', parkMember_none]

/-- Within the limits a change of window moves the window and the loop stack of the active threads and nothing else, where
both are computed from the window and the loop stack alone. -/
theorem changeWb_rewindows {s : State} {is : Issue} {m : Member} (h : Issues s is m) (o : Opnds) {bad : Thread → Bool}
    {new : Thread → Nat} {stack : Thread → List (BitVec 9)}
    (hb : ∀ l, m.act.getLsbD l = true → bad ((s.group m.gid).thread l) = false)
    (hw : ∀ l, m.act.getLsbD l = true → new ((s.group m.gid).thread l) ≤ min 384 (s.group m.gid).id.stride)
    (hnew : ∀ x y : Thread, x.wb = y.wb → x.stack = y.stack → new x = new y ∧ stack x = stack y) :
    Rewindowed s (s.changeWb o bad new stack) is m new stack := by
  rw [changeWb_within h o hb hw]
  generalize ha : s.advance m.gid m.lanes is.next (s.nextReady is 0) = a
  have there : (tget a.groups m.gid).isSome = true := by
    rw [← ha]
    exact (ended_advance s m.gid m.lanes is.next _).there.trans h.there
  have on : ∀ l, l < 128 → m.lanes.getLsbD l = true →
      ((a.group m.gid).thread l).pc = is.next ∧ ((a.group m.gid).thread l).ready = s.nextReady is 0 := fun l hl hm => by
    rw [← ha]
    exact advance_thread s m.gid m.lanes is.next _ h.there hl hm (h.fresh l hm)
  have kept : ∀ l, l < 128 → ((a.group m.gid).thread l).wb = ((s.group m.gid).thread l).wb ∧
      ((a.group m.gid).thread l).stack = ((s.group m.gid).thread l).stack := fun l hl => by
    have e := advance_window s m.gid m.lanes is.next (s.nextReady is 0) h.fresh hl
    rw [ha] at e
    exact ⟨e.1, e.2.1⟩
  have same {γ : Type} (π : Group → γ) (hπ : ∀ (G : Group) x f, π (G.modThreads x f) = π G) :
      π ((a.modGroup m.gid (fun G => G.modThreads m.act (fun _ t =>
        { t with wb := BitVec.ofNat 9 (new t), stack := stack t }))).group m.gid) = π (s.group m.gid) := by
    rw [group_modGroup_keep a m.gid π m.gid _ (fun G => hπ G _ _), ← ha]
    exact group_modGroup_keep s m.gid π m.gid _ (fun G => hπ G _ _)
  have thread : ∀ l, l < 128 → ((a.modGroup m.gid (fun G => G.modThreads m.act (fun _ t =>
        { t with wb := BitVec.ofNat 9 (new t), stack := stack t }))).group m.gid).thread l =
      if m.act.getLsbD l then { (a.group m.gid).thread l with
        wb := BitVec.ofNat 9 (new ((a.group m.gid).thread l)), stack := stack ((a.group m.gid).thread l) }
      else (a.group m.gid).thread l := fun l hl => by
    rw [group_modGroup a m.gid m.gid _ there, if_pos rfl, modThreads_thread _ _ _ hl]
  refine ⟨fun l hl hm => ?goesOn, ⟨?frame, fun x hx => ?others⟩, fun l hl hact => ?window, fun l hl hact => ?rest,
    same Group.regs (fun _ _ _ => rfl), same Group.map (fun _ _ _ => rfl), same Group.scal (fun _ _ _ => rfl)⟩
  case goesOn =>
    rw [thread l hl]
    split <;> exact on l hl hm
  case frame => rw [← ha]; rfl
  case others =>
    rw [modGroup_groups, tget_tmod_ne _ _ hx, ← ha]
    exact (ended_advance s m.gid m.lanes is.next _).others x hx
  case window =>
    obtain ⟨hn, hs⟩ := hnew _ _ (kept l hl).1 (kept l hl).2
    have := hw l hact
    rw [thread l hl, if_pos hact, hn, hs]
    refine ⟨?_, rfl⟩
    rw [BitVec.toNat_ofNat]
    exact Nat.mod_eq_of_lt (by omega)
  case rest =>
    rw [thread l hl, hact, if_neg Bool.false_ne_true]
    exact kept l hl

/-! ### The obligation on windows within their limits -/

/-- Settles O25: within the limits each of the three instructions is a change of window that parks no thread. -/
theorem loopsMoveTheWindow : Obligations.LoopsMoveTheWindow := by
  unfold Obligations.LoopsMoveTheWindow
  refine ⟨?loop, ?endl, ?wbase⟩
  case loop =>
    rintro f s₀ s is m rfl h hlim
    exact ⟨_, rfl, changeWb_rewindows h _ (fun l hl => decide_eq_false (Nat.not_le.2 (hlim l hl).1))
      (fun l hl => (hlim l hl).2) (fun x y hw hs => by rw [hw, hs]; exact ⟨rfl, rfl⟩)⟩
  case endl =>
    rintro s₀ s is m rfl h hlim
    exact ⟨_, rfl, changeWb_rewindows h _ (fun l hl => List.isEmpty_eq_false_iff.2 (hlim l hl).1)
      (fun l hl => (hlim l hl).2) (fun x y _ hs => by rw [hs]; exact ⟨rfl, rfl⟩)⟩
  case wbase =>
    rintro f s₀ s is m rfl h hlim
    exact ⟨_, rfl, changeWb_rewindows h _ (fun _ _ => rfl)
      (fun l hl => hlim (by rintro h0; simp [h0] at hl)) (fun x y _ hs => ⟨rfl, hs⟩)⟩

/-! ### The obligation on windows beyond their limits -/

/-- A split of lane 0 of a group whose threads stand at window 0 and at no loop depth, where the issue counts the window
as 1: the two are given apart, and no condition of the obligation ties them. -/
def splitAtOtherWindow : State :=
  { State.reset with
    groups := [(0, default)]
    issue := some { (default : Issue) with members := [⟨0, 1, 1⟩], wb := 1 } }

/-- What comes before the effect of ENDL leaves this split as it is. -/
theorem splitAtOtherWindow_begin : splitAtOtherWindow.begin_ .endl Opnds.none = splitAtOtherWindow := by decide +kernel

theorem splitAtOtherWindow_issues :
    Issues splitAtOtherWindow { (default : Issue) with members := [⟨0, 1, 1⟩], wb := 1 } ⟨0, 1, 1⟩ :=
  ⟨rfl, rfl, rfl, by decide, fun _ _ => rfl⟩

/-- The window of lane 0 after an outcome. -/
def windowAfter : Host.Outcome State Fault Refusal → BitVec 9
  | .next t => ((t.group 0).thread 0).wb
  | _ => 0

/-- ENDL at depth 0 parks the thread with the window of the issue. -/
theorem splitAtOtherWindow_endl : windowAfter (exec .endl splitAtOtherWindow) = 1 := by decide +kernel

/-- Refutes O26, by an ENDL at depth 0: a thread that parks takes the window that the issue gives (R268), so its WB keeps
its old value only where the two agree, which `Issues` does not ask. In `splitAtOtherWindow` the thread's window goes from 0
to 1. -/
theorem not_badWindowsPark : ¬ Obligations.BadWindowsPark := by
  unfold Obligations.BadWindowsPark
  rintro ⟨-, endl, -⟩
  obtain ⟨t, ht, -, hwb⟩ := endl _ _ _ _ splitAtOtherWindow_begin splitAtOtherWindow_issues (by decide) rfl
    (fun _ _ => rfl)
  have after : ((t.group 0).thread 0).wb = 1 := by
    have e := splitAtOtherWindow_endl
    rwa [ht] at e
  have before : ((splitAtOtherWindow.group 0).thread 0).wb = 0 := rfl
  rw [hwb 0 (by decide), before] at after
  exact absurd after (by decide)

end Sys2Proof.Machine
end

section
/-! What the engine's own steps leave as it stands while an operation reads, writes and ends: memory, what is in flight, who
the groups are, the engines and the latches, and every other operation up to its members' operands (R8, R91, R210 to R218). -/
namespace Sys2Proof.Machine

/-! ### What is kept -/

/-- Deleting an entry undoes a change of it. -/
theorem tdel_tmod_self {α : Type} (t : Tab α) (n : Nat) (f : α → α) : tdel (tmod t n f) n = tdel t n := by
  induction t with
  | nil => rfl
  | cons e r ih =>
    simp only [tdel, tmod, List.map_cons, List.filter_cons] at ih ⊢
    rw [ih]
    by_cases he : e.1 = n <;> simp [he]

theorem tdel_tdel_self {α : Type} (t : Tab α) (n : Nat) : tdel (tdel t n) n = tdel t n := by
  simp only [tdel, List.filter_filter, Bool.and_self]

theorem tdel_map_snd {α β : Type} (π : α → β) (t : Tab α) (n : Nat) :
    tdel (t.map (fun e => (e.1, π e.2))) n = (tdel t n).map (fun e => (e.1, π e.2)) := List.filter_map

/-- Who a group is, where it stands, and which exceptions it has met. -/
def Group.report (G : Group) : GroupId × Place × BitVec 6 := (G.id, G.run.place, G.regs.gflags)

/-- The engine and the latches of a partition. -/
def Part.work (P : Part) : Option (Nat × Nat) × Tab Latch := (P.engine, P.latches)

/-- An operation without its members, and of each member only whose it is and which threads have signed. -/
def MatOp.outline (op : MatOp) : MatOp × List (Nat × Mask) :=
  ({ op with members := [] }, op.members.map (fun M => (M.gid, M.signed)))

/-- The outlines of the operations. -/
def State.outlines (s : State) : Tab (MatOp × List (Nat × Mask)) := s.mats.map (fun e => (e.1, e.2.outline))

/-- The outlines of the operations other than one. -/
def State.otherOps (s : State) (id : Nat) : Tab (MatOp × List (Nat × Mask)) := tdel s.outlines id

/-- From `s` to `t` memory and what is in flight stand, the groups up to `π`, the partitions up to `ρ`, and the operations
other than `id` up to their outlines. -/
structure Keeps {γ δ : Type} (π : Group → γ) (ρ : Part → δ) (id : Nat) (s t : State) : Prop where
  mem : t.mem = s.mem
  flight : t.flight = s.flight
  groups : ∀ g, (tget t.groups g).map π = (tget s.groups g).map π
  parts : ∀ p, ρ (t.part p) = ρ (s.part p)
  here : (tget t.mats id).isSome = (tget s.mats id).isSome
  others : t.otherOps id = s.otherOps id

/-- Nothing changes but operands, registers and accounts: every group's report and every partition's work stand. -/
abbrev KeepsWork (id : Nat) (s t : State) : Prop := Keeps Group.report Part.work id s t

/-- Nothing changes but operands, registers, accounts, latches and exceptions. -/
abbrev KeepsPlace (id : Nat) (s t : State) : Prop := Keeps Group.id Part.engine id s t

/-- A change of a group that `π` does not see leaves every group as `π` sees it. -/
theorem tget_modGroup_map {γ : Type} {π : Group → γ} (s : State) (g : Nat) (f : Group → Group) (hf : ∀ G, π (f G) = π G)
    (x : Nat) : (tget (s.modGroup g f).groups x).map π = (tget s.groups x).map π := tget_tmod_map π hf s.groups g x

/-- Groups that stand the same in the table, as `π` sees them, stand the same there or not. -/
theorem group_eq_of_map {γ : Type} {π : Group → γ} {s t : State}
    (h : ∀ g, (tget t.groups g).map π = (tget s.groups g).map π) (g : Nat) : π (t.group g) = π (s.group g) := by
  have e := congrArg (Option.getD · (π default)) (h g)
  simpa only [State.group, tgetD, Option.getD_map] using e

namespace Keeps
variable {γ δ : Type} {π : Group → γ} {ρ : Part → δ} {id : Nat}

theorem refl (s : State) : Keeps π ρ id s s := ⟨rfl, rfl, fun _ => rfl, fun _ => rfl, rfl, rfl⟩

theorem trans {a b c : State} (h : Keeps π ρ id a b) (k : Keeps π ρ id b c) : Keeps π ρ id a c where
  mem := k.mem.trans h.mem
  flight := k.flight.trans h.flight
  groups g := (k.groups g).trans (h.groups g)
  parts p := (k.parts p).trans (h.parts p)
  here := k.here.trans h.here
  others := k.others.trans h.others

theorem fold {α : Type} {f : State → α → State} (hf : ∀ s a, Keeps π ρ id s (f s a)) (l : List α) (s : State) :
    Keeps π ρ id s (foldS l s f) := foldS_rel (R := Keeps π ρ id) refl trans hf l s

/-- Only registers and accounts change. -/
theorem of_regsOnly {g : Nat} {s t : State} (h : RegsOnly g s t) (hπ : ∀ G, π G.bare = π G) : Keeps π ρ id s t where
  mem := h.mem
  flight := h.flight
  groups x := by
    have e := congrArg (Option.map π) (h.groups x)
    rwa [Option.map_map, Option.map_map, show π ∘ Group.bare = π from funext hπ] at e
  parts p := by rw [State.part, h.parts]; rfl
  here := by rw [h.mats]
  others := by rw [State.otherOps, State.outlines, h.mats]; rfl

theorem modGroup (s : State) (g : Nat) (f : Group → Group) (hf : ∀ G, π (f G) = π G) :
    Keeps π ρ id s (s.modGroup g f) :=
  ⟨rfl, rfl, tget_modGroup_map s g f hf, fun _ => rfl, rfl, rfl⟩

theorem modPart (s : State) (p : Nat) (f : Part → Part) (hf : ∀ P, ρ (f P) = ρ P) : Keeps π ρ id s (s.modPart p f) where
  mem := rfl
  flight := rfl
  groups _ := rfl
  parts q := by
    rw [part_modPart]
    split
    · next e => rw [e, hf]
    · rfl
  here := rfl
  others := rfl

theorem modBlock (s : State) (b : Nat) (f : Block → Block) : Keeps π ρ id s (s.modBlock b f) :=
  ⟨rfl, rfl, fun _ => rfl, fun _ => rfl, rfl, rfl⟩

/-- The operation itself may change. -/
theorem modMat (s : State) (f : MatOp → MatOp) : Keeps π ρ id s (s.modMat id f) where
  mem := rfl
  flight := rfl
  groups _ := rfl
  parts _ := rfl
  here := by rw [State.modMat, tget_tmod_self, Option.isSome_map]
  others := by
    simp only [State.otherOps, State.outlines, tdel_map_snd, State.modMat, tdel_tmod_self]

/-- Operations may change but for their outlines. -/
theorem mapMats (s : State) (f : Nat × MatOp → Nat × MatOp)
    (hf : ∀ e, ((f e).1, (f e).2.outline) = (e.1, e.2.outline)) : Keeps π ρ id s { s with mats := s.mats.map f } := by
  have ho : ({ s with mats := s.mats.map f } : State).outlines = s.outlines := by
    simp only [State.outlines, List.map_map]
    exact List.map_congr_left (fun e _ => hf e)
  have key (t : State) : (tget t.mats id).isSome = (tget t.outlines id).isSome := by
    rw [State.outlines, tget_map_snd, Option.isSome_map]
  refine ⟨rfl, rfl, fun _ => rfl, fun _ => rfl, ?_, by rw [State.otherOps, ho]; rfl⟩
  rw [key, key, ho]

theorem mono {γ' δ' : Type} {s t : State} (h : Keeps π ρ id s t) (f : γ → γ') (g : δ → δ') :
    Keeps (fun G => f (π G)) (fun P => g (ρ P)) id s t where
  mem := h.mem
  flight := h.flight
  groups x := by
    have e := congrArg (Option.map f) (h.groups x)
    rwa [Option.map_map, Option.map_map] at e
  parts p := congrArg g (h.parts p)
  here := h.here
  others := h.others

theorem isSome {s t : State} (h : Keeps π ρ id s t) (g : Nat) : (tget t.groups g).isSome = (tget s.groups g).isSome := by
  simpa using congrArg Option.isSome (h.groups g)

theorem group_eq {s t : State} (h : Keeps π ρ id s t) (g : Nat) : π (t.group g) = π (s.group g) :=
  group_eq_of_map h.groups g

end Keeps

/-- What keeps the work keeps the place. -/
theorem KeepsWork.place {id : Nat} {s t : State} (h : KeepsWork id s t) : KeepsPlace id s t := h.mono Prod.fst Prod.fst

theorem keepsWork_regs {id g : Nat} {s t : State} (h : RegsOnly g s t) : KeepsWork id s t := .of_regsOnly h (fun _ => rfl)


theorem keepsWork_modMat (id : Nat) (s : State) (f : MatOp → MatOp) : KeepsWork id s (s.modMat id f) := Keeps.modMat s f

theorem keepsWork_clearSlot (id : Nat) (s : State) (g k : Nat) : KeepsWork id s (s.clearSlot g k) := by
  unfold State.clearSlot
  split
  · exact .refl s
  · exact .modGroup s g _ (fun _ => rfl)

/-! ### Pending reads and claims end (R91, R210, R211) -/

theorem regsOnly_endRead (g : Nat) (s : State) (c p : Nat) : RegsOnly g s (s.endRead c p) := by
  have h : RegsOnly g s (s.modCore c (fun c =>
      { c with pool := tmod c.pool p (fun r => { r with reads := r.reads - 1 }) })) :=
    regsOnly_modCore g s c _ (fun _ => rfl)
  simp only [State.endRead]
  split
  · split
    · exact h
    · exact h.trans (regsOnly_dropPhys g _ c p)
  · exact h

theorem regsOnly_freeMapping (g : Nat) (s : State) (c k : Nat) (x : Mapping) : RegsOnly g s (s.freeMapping c k x) := by
  cases x with
  | phys p => exact regsOnly_endRead g s c p
  | unif u =>
    have h : RegsOnly g s (s.modCore c (fun c =>
        { c with unif := tmod c.unif u (fun x => { x with reads := x.reads - 1 }) })) :=
      regsOnly_modCore g s c _ (fun _ => rfl)
    simp only [State.freeMapping]
    split
    · exact h
    · exact h.trans (regsOnly_dropMapping g _ c _)
  | spilled =>
    simp only [State.freeMapping]
    split
    · exact .refl g s
    · exact regsOnly_payRelease g s k

theorem regsOnly_unclaimMapping (g : Nat) (s : State) (c : Nat) (x : Mapping) : RegsOnly g s (s.unclaimMapping c x) := by
  cases x with
  | phys p =>
    have h : RegsOnly g s (s.modCore c (fun c =>
        { c with pool := tmod c.pool p (fun r => { r with engine := r.engine - 1 }) })) :=
      regsOnly_modCore g s c _ (fun _ => rfl)
    simp only [State.unclaimMapping]
    split
    · split
      · exact h
      · exact h.trans (regsOnly_dropPhys g _ c p)
    · exact h
  | unif => exact .refl g s
  | spilled => exact .refl g s

theorem regsOnly_settleLeaving (s : State) (g : Nat) : RegsOnly g s (s.settleLeaving g) := by
  simp only [State.settleLeaving]
  split
  · exact .refl g s
  · refine .trans ?_ (foldS_rel (R := RegsOnly g) (.refl g) .trans (fun t _ => regsOnly_releaseName t g _ _) _ _)
    exact regsOnly_modGroup g s g _ (fun _ => rfl) (.inl rfl)

theorem keepsWork_endReads (s : State) (id : Nat) : KeepsWork id s (s.endReads id) := by
  simp only [State.endReads]
  split
  · exact .refl s
  · refine .trans (.trans (keepsWork_modMat id s _) (Keeps.fold (fun t M => ?_) _ _))
      (Keeps.fold (fun t M => keepsWork_regs (regsOnly_settleLeaving t _)) _ _)
    exact (Keeps.fold (fun t x => keepsWork_regs (regsOnly_freeMapping 0 t _ _ x)) _ _).trans
      (Keeps.fold (fun t x => keepsWork_regs (regsOnly_unclaimMapping 0 t _ x)) _ _)

/-- When the engine has read an operation's operands, pending reads, claims and marks end, and names are released. -/
theorem keepsWork_readOver (s : State) (id : Nat) : KeepsWork id s (s.readOver id) := by
  simp only [State.readOver]
  split
  · exact .refl s
  · exact .trans ((keepsWork_endReads s id).trans (keepsWork_modMat id _ _))
      (Keeps.fold (fun t _ => keepsWork_regs (regsOnly_releaseName t _ _ _)) _ _)

theorem keepsWork_dropMatResv (s : State) (id : Nat) (op : MatOp) : KeepsWork id s (s.dropMatResv op) :=
  Keeps.fold (fun t _ => Keeps.fold (fun t r => keepsWork_regs (regsOnly_unreserve 0 t _ r)) _ t) _ s

/-! ### Results are written (R91, R209, R211, R218) -/

/-- A vector write touches the registers, or for a shadow name the partition's shadow registers (R91, R301); a spilled
group's may take a fresh key. -/
theorem landName_rel {R : State → State → Prop} (ht : ∀ {a b c}, R a b → R b c → R a c) {g : Nat}
    (hreg : ∀ {s t}, RegsOnly g s t → R s t) (hid : ∀ s : State, R s s.freshId.2)
    (hp : ∀ (s : State) p (f : Tab Lanes → Tab Lanes), R s (s.modPart p (fun P => { P with shadowV := f P.shadowV })))
    (s : State) (n : Nat) (w : Mask) (v : Lanes) (x : Bool) (r : Option Nat) : R s (s.landName g n w v x r) := by
  by_cases hn : n < shadowName
  · cases hs : (s.group g).run.spilled with
    | false => exact hreg (regsOnly_landName s g n w v x r hn hs)
    | true =>
      have hu : R s (s.unreserve (s.coreOf g) r) := hreg (regsOnly_unreserve g s _ r)
      have he (t : State) (e : Option MapEntry) : R t (t.setEntry g n e) := hreg (regsOnly_setEntry t g n e)
      simp only [State.landName, if_neg (Nat.not_le.2 hn), hs, if_true]
      split
      · exact hu
      · split
        · refine ht ?_ (he _ _)
          split
          · exact ht hu (hid _)
          · exact hu
        · exact ht hu (ht (hid _) (he _ _))
  · simp only [State.landName, if_pos (Nat.not_lt.1 hn)]
    split
    · exact hreg (regsOnly_unreserve g s _ r)
    · exact hp s _ (fun old => tupd old (n - shadowName) (fun y => mergeLanes w v y))

theorem keepsWork_landName (id : Nat) (s : State) (g n : Nat) (w : Mask) (v : Lanes) (x : Bool) (r : Option Nat) :
    KeepsWork id s (s.landName g n w v x r) :=
  landName_rel (R := KeepsWork id) .trans (g := g) keepsWork_regs (fun _ => ⟨rfl, rfl, fun _ => rfl, fun _ => rfl, rfl, rfl⟩)
    (fun s p _ => .modPart s p _ (fun _ => rfl)) s n w v x r

theorem keepsWork_landResult (id : Nat) (s : State) (o : SetOp) (M : MatMem) (f : Nat) (w : Mask) (v : Lanes)
    (r : Option Nat) : KeepsWork id s (s.landResult o M f w v r) := by
  simp only [State.landResult]
  split
  · refine .trans ?_ (keepsWork_regs (regsOnly_unreserve 0 _ _ r))
    exact .modGroup s M.gid _ (fun _ => rfl)
  · split
    · refine keepsWork_regs (.trans (.trans ?_ (regsOnly_setEntry _ M.gid _ _)) (regsOnly_unreserve M.gid _ _ r))
      exact regsOnly_modCore M.gid s _ _ (fun _ => rfl)
    · exact keepsWork_landName id s ..

theorem keepsWork_forward (id : Nat) (s : State) (op : MatOp) (g n : Nat) (w : Mask) (v : Lanes) :
    KeepsWork id s (s.forward op g n w v) := by
  refine Keeps.mapMats s _ (fun e => ?_)
  split
  · simp only [MatOp.outline, List.map_map]
    refine congrArg (fun l => (e.1, ({ e.2 with members := [] }, l))) (List.map_congr_left (fun M _ => ?_))
    simp only [Function.comp]
    split <;> rfl
  · rfl

/-- The registers of a member's results land, and reach the later operations that work on from them (R211, R218). -/
def State.landMember (op : MatOp) (o : SetOp) (ctr : Nat) (s : State) (M : MatMem) (j : Nat) : State :=
  foldS o.dFields.zipIdx s (fun t f =>
    let v := M.either ctr j (M.name f.1) ((op.out.getD j []).getD f.2 [])
    (t.landResult o M f.1 (s.group M.gid).occupied v ((op.resv.getD j []).getD f.2 none)).forward op M.gid (M.name f.1)
      (s.group M.gid).occupied v)

/-- A drain fills the latch of the partition `p` of a member, exited or not (R209). -/
def State.latchMember (op : MatOp) (o : SetOp) (p : Nat) (s : State) (M : MatMem) (j : Nat) : State :=
  if o.drain ∧ o.m ≠ 1 ∧ !M.dead ∧ (tget s.groups M.gid).isSome then
    s.fillLatch p o.latch op.block (op.latchOut.getD j []) false
  else s

/-- A member's results are written. -/
def State.writeMember (op : MatOp) (o : SetOp) (ctr : Nat) (s : State) (M : MatMem) (j : Nat) : State :=
  if ¬ s.memberThere M then s.latchMember op o (s.group M.gid).id.part M j
  else ((s.landMember op o ctr M j).latchMember op o (s.group M.gid).id.part M j).orFlags M.gid op.flags

theorem matWrite_members (s : State) (op : MatOp) (o : SetOp) : s.matWrite op o =
    foldS op.members.zipIdx s.freshFree.2 (fun t e => t.writeMember op o s.freshFree.1 e.1 e.2) := rfl

theorem keepsWork_freshFree (id : Nat) (s : State) : KeepsWork id s s.freshFree.2 :=
  ⟨rfl, rfl, fun _ => rfl, fun _ => rfl, rfl, rfl⟩

section members
variable (id : Nat) (op : MatOp) (o : SetOp) (ctr p : Nat) (s : State) (M : MatMem) (j : Nat)

theorem keepsWork_landMember : KeepsWork id s (s.landMember op o ctr M j) :=
  Keeps.fold (fun t _ => (keepsWork_landResult id t ..).trans (keepsWork_forward id _ ..)) _ s

theorem saveLatch_keeps {γ δ : Type} {π : Group → γ} {ρ : Part → δ} (l owner : Nat) :
    Keeps π ρ id s (s.saveLatch p l owner) := by
  simp only [State.saveLatch]
  split
  · split
    · exact .modBlock s _ _
    · exact .refl s
  · exact .refl s

theorem saveLatch_groups (l owner : Nat) : (s.saveLatch p l owner).groups = s.groups := by
  simp only [State.saveLatch]
  split
  · split <;> rfl
  · rfl

theorem keepsPlace_latchMember : KeepsPlace id s (s.latchMember op o p M j) := by
  unfold State.latchMember
  split
  · exact (saveLatch_keeps id p s _ _).trans (.modPart _ p _ (fun _ => rfl))
  · exact .refl s

theorem latchMember_groups : (s.latchMember op o p M j).groups = s.groups := by
  unfold State.latchMember
  split
  · exact saveLatch_groups p s _ _
  · rfl

/-- A drain that fills latches fills that of a member that no unwind has left without registers. -/
theorem latchMember_latch {op : MatOp} {o : SetOp} {s : State} {M : MatMem} (hd : o.drain = true) (hm : o.m ≠ 1)
    (ha : M.dead = false) (hg : (tget s.groups M.gid).isSome = true) :
    (s.latchMember op o p M j).latchOf p o.latch = ⟨some op.block, op.latchOut.getD j [], false⟩ := by
  rw [State.latchMember, if_pos ⟨hd, hm, by rw [ha]; rfl, hg⟩]
  simp [State.latchOf, State.fillLatch, part_modPart]

theorem keepsPlace_orFlags (g : Nat) (f : BitVec 6) : KeepsPlace id s (s.orFlags g f) := .modGroup s g _ (fun _ => rfl)

theorem keepsPlace_writeMember : KeepsPlace id s (s.writeMember op o ctr M j) := by
  unfold State.writeMember
  split
  · exact keepsPlace_latchMember ..
  · exact ((keepsWork_landMember id op o ctr s M j).place.trans (keepsPlace_latchMember ..)).trans
      (keepsPlace_orFlags id _ _ _)

theorem keepsPlace_matWrite : KeepsPlace id s (s.matWrite op o) := by
  rw [matWrite_members]
  exact (keepsWork_freshFree id s).place.trans (Keeps.fold (fun t _ => keepsPlace_writeMember id op o _ t _ _) _ _)

end members

/-- A member that is there takes the exceptions of the operation, on those that it has met before (R125, R214). -/
theorem writeMember_gflags {op : MatOp} {o : SetOp} {ctr : Nat} {s : State} {M : MatMem} {j : Nat} (hd : M.dead = false)
    (hg : (tget s.groups M.gid).isSome = true) (hp : (s.group M.gid).run.place ≠ .gone) :
    ((s.writeMember op o ctr M j).group M.gid).regs.gflags = (s.group M.gid).regs.gflags ||| op.flags := by
  have there : s.memberThere M = true := by simp [State.memberThere, hd, hg, hp]
  have K := keepsWork_landMember 0 op o ctr s M j
  generalize hu : (s.landMember op o ctr M j).latchMember op o (s.group M.gid).id.part M j = u
  have hug : u.groups = (s.landMember op o ctr M j).groups := by rw [← hu]; exact latchMember_groups ..
  have his : (tget u.groups M.gid).isSome = true := by rw [hug]; exact (K.isSome M.gid).trans hg
  have hfl : (u.group M.gid).regs.gflags = (s.group M.gid).regs.gflags := by
    rw [group_of_groups hug]
    exact congrArg (fun x => x.2.2) (K.group_eq M.gid)
  simp only [State.writeMember, there, hu, not_true_eq_false, if_false]
  rw [State.orFlags, State.modRegs, group_modGroup u M.gid M.gid _ his, if_pos rfl, hfl]

/-- The latch of a member's partition that a drain fills, whether or not the member is still there. -/
theorem writeMember_latch {op : MatOp} {o : SetOp} {ctr : Nat} {s : State} {M : MatMem} {j : Nat} (ho : o.drain = true)
    (hm : o.m ≠ 1) (hd : M.dead = false) (hg : (tget s.groups M.gid).isSome = true) :
    (s.writeMember op o ctr M j).latchOf (s.group M.gid).id.part o.latch =
      ⟨some op.block, op.latchOut.getD j [], false⟩ := by
  unfold State.writeMember
  split
  · exact latchMember_latch _ j ho hm hd hg
  · exact latchMember_latch _ j ho hm hd (((keepsWork_landMember 0 op o ctr s M j).isSome M.gid).trans hg)

theorem matWrite_single {op : MatOp} {M : MatMem} (h : op.members = [M]) (s : State) (o : SetOp) :
    s.matWrite op o = s.freshFree.2.writeMember op o s.freshFree.1 M 0 := by
  rw [matWrite_members, h]
  rfl

end Sys2Proof.Machine
end

section
/-! How a set operation leaves the engine: it is over (R200, R214), parks, or is retracted (R57, R215). -/
namespace Sys2Proof.Machine

/-! ### The engine lets go of an operation -/

/-- A partition whose engine and queue have let go of an operation. -/
def Part.without (P : Part) (id : Nat) : Part :=
  { P with queue := P.queue.filter (· ≠ id), engine := P.engine.filter (fun x => x.1 ≠ id) }

theorem leaveEngine_part (s : State) (id p : Nat) : (s.leaveEngine id).part p = (s.part p).without id := by
  have e : (s.leaveEngine id).parts = s.parts.map (fun e => (e.1, e.2.without id)) := rfl
  rw [State.part, tgetD, e, tget_map_snd (Part.without · id), State.part, tgetD]
  cases tget s.parts p <;> rfl

theorem leaveEngine_keeps {γ : Type} {π : Group → γ} (s : State) (id : Nat) :
    Keeps π Part.latches id s (s.leaveEngine id) :=
  ⟨rfl, rfl, fun _ => rfl, fun p => by rw [leaveEngine_part]; rfl, rfl, rfl⟩

/-- The engine that runs an operation is idle once the operation has left it. -/
theorem leaveEngine_idle {s : State} {p id u : Nat} (h : (s.part p).engine = some (id, u)) :
    ((s.leaveEngine id).part p).engine = none := by
  simp [leaveEngine_part, Part.without, h]

/-! ### Waits that end -/

/-- From `s` to `t` waits have ended: memory, the partitions, the operations and the groups' reports stand. -/
structure Woken (s t : State) : Prop where
  mem : t.mem = s.mem
  parts : t.parts = s.parts
  mats : t.mats = s.mats
  groups : ∀ g, (tget t.groups g).map Group.report = (tget s.groups g).map Group.report

theorem woken_endWait (s : State) (x : Nat) : Woken s (s.endWait x) := by
  simp only [State.endWait]
  split
  · exact ⟨rfl, rfl, rfl, fun _ => rfl⟩
  · next w _ =>
    have h (t : State) : Woken t (t.clearSlot w.gid w.slot) := by
      unfold State.clearSlot
      split
      · exact ⟨rfl, rfl, rfl, fun _ => rfl⟩
      · exact ⟨rfl, rfl, rfl, tget_modGroup_map t _ _ (fun _ => rfl)⟩
    refine ⟨(h _).mem, (h _).parts, (h _).mats, fun g => ((h _).groups g).trans ?_⟩
    refine tget_modGroup_map _ w.gid _ ?_ g
    exact fun _ => rfl

theorem woken_endWaits (l : List Nat) (s : State) : Woken s (foldS l s State.endWait) :=
  foldS_rel (R := Woken) (fun _ => ⟨rfl, rfl, rfl, fun _ => rfl⟩)
    (fun h k => ⟨k.mem.trans h.mem, k.parts.trans h.parts, k.mats.trans h.mats, fun g => (k.groups g).trans (h.groups g)⟩)
    woken_endWait l s

theorem endWait_waits (s : State) (x y : Nat) :
    tget (s.endWait x).flight.waits y = if y = x then none else tget s.flight.waits y := by
  simp only [State.endWait]
  split
  · next h =>
    split
    · next e => rw [e, h]
    · rfl
  · rw [show ∀ (t : State) g k, (t.clearSlot g k).flight = t.flight from fun t g k => by
      unfold State.clearSlot; split <;> rfl]
    exact tget_tdel s.flight.waits x y

/-- Each of some waits that end is in flight no more. -/
theorem endWaits_gone (l : List Nat) (s : State) : ∀ x, x ∈ l → tget (foldS l s State.endWait).flight.waits x = none :=
  foldS_all (E := fun _ _ => True) (P := fun x t => tget t.flight.waits x = none) (fun _ _ _ _ => trivial)
    (fun t a b h => by rw [endWait_waits, h, ite_self]) (fun t a _ => by rw [endWait_waits, if_pos rfl]) l s
    (fun _ _ => trivial)

/-! ### An operation is over -/

/-- Whether an MWAIT may return is read off the outlines of the operations and the group's block. -/
theorem mwaitOpen_outlines (s : State) (g k : Nat) : s.mwaitOpen g k = !s.outlines.any (fun e =>
    decide (e.2.1.block = (s.group g).id.block) && decide (e.2.1.k = k) &&
      e.2.2.any (fun m => decide (m.1 = g) && decide (m.2 ≠ 0))) := by
  simp only [State.mwaitOpen, State.outlines, MatOp.outline, List.any_map, Function.comp_def]

theorem mwaitOpen_congr {s t : State} (h : t.outlines = s.outlines) {g : Nat} (hg : (t.group g).id = (s.group g).id)
    (k : Nat) : t.mwaitOpen g k = s.mwaitOpen g k := by rw [mwaitOpen_outlines, mwaitOpen_outlines, h, hg]

/-- A state whose table of operations no longer holds one. -/
def State.withoutOp (s : State) (id : Nat) : State := { s with mats := tdel s.mats id }

theorem outlines_withoutOp (s : State) (id : Nat) : (s.withoutOp id).outlines = s.otherOps id :=
  (tdel_map_snd MatOp.outline s.mats id).symm

theorem mwaitOpen_withoutOp {s t : State} {id g : Nat} (h : t.otherOps id = s.otherOps id)
    (hg : (t.group g).id = (s.group g).id) (k : Nat) :
    (t.withoutOp id).mwaitOpen g k = (s.withoutOp id).mwaitOpen g k :=
  mwaitOpen_congr (s := s.withoutOp id) (t := t.withoutOp id) (by rw [outlines_withoutOp, outlines_withoutOp, h]) hg k

/-- From `s` to `t` operation `id` is over: it is gone, its engine has let go of it, and the MWAITs that no other operation
holds up are in flight no more; memory, the other operations' outlines, the groups' reports and the latches stand. -/
structure Over (id : Nat) (s t : State) : Prop where
  gone : tget t.mats id = none
  mem : t.mem = s.mem
  groups : ∀ g, (tget t.groups g).map Group.report = (tget s.groups g).map Group.report
  engine : ∀ p, (t.part p).engine = (s.part p).engine.filter (fun x => x.1 ≠ id)
  latches : ∀ p, (t.part p).latches = (s.part p).latches
  others : t.otherOps id = s.otherOps id
  waits : ∀ x w k, tget s.flight.waits x = some w → w.kind = .mwait k →
    (s.withoutOp id).mwaitOpen w.gid k = true → tget t.flight.waits x = none

theorem mem_of_tget {α : Type} {t : Tab α} {n : Nat} {v : α} (h : tget t n = some v) : (n, v) ∈ t := by
  induction t with
  | nil => cases h
  | cons e r ih =>
    rw [tget_cons e.1 e.2 r] at h
    split at h
    · next hn => cases h; rw [hn]; exact List.mem_cons_self ..
    · exact List.mem_cons_of_mem _ (ih h)

/-- Operations of the same outlines differ in their members at most. -/
theorem tget_otherOps {s t : State} {id k : Nat} (h : t.otherOps id = s.otherOps id) (hk : k ≠ id) :
    (tget t.mats k).map (fun x => { x with members := [] }) = (tget s.mats k).map (fun x => { x with members := [] }) := by
  have key (u : State) :
      (tget u.mats k).map (fun x => { x with members := [] }) = (tget (u.otherOps id) k).map Prod.fst := by
    rw [State.otherOps, tget_tdel_ne _ hk, State.outlines, tget_map_snd, Option.map_map]
    rfl
  rw [key, key, h]

/-- The MWAITs that no operation holds up. -/
def State.openMwaits (s : State) : List Nat :=
  (s.flight.waits.filter (fun e => match e.2.kind with
    | .mwait k => s.mwaitOpen e.2.gid k
    | _ => false)).map Prod.fst

theorem mem_openMwaits {s : State} {x k : Nat} {w : Wait} (h : tget s.flight.waits x = some w) (hk : w.kind = .mwait k)
    (ho : s.mwaitOpen w.gid k = true) : x ∈ s.openMwaits :=
  List.mem_map.2 ⟨(x, w), List.mem_filter.2 ⟨mem_of_tget h, by simp only [hk, ho]⟩, rfl⟩

/-- The end of an operation up to its leaving the table: its registers go back, its reads end and its slots clear. -/
def State.settleOp (s : State) (id : Nat) (op : MatOp) : State :=
  foldS op.members (((s.leaveEngine id).dropMatResv op).endReads id)
    (fun s m => foldS m.slots s (fun s k => s.clearSlot m.gid k))

theorem keepsWork_settleOp (s : State) (id : Nat) (op : MatOp) : KeepsWork id (s.leaveEngine id) (s.settleOp id op) :=
  ((keepsWork_dropMatResv _ id op).trans (keepsWork_endReads _ id)).trans
    (Keeps.fold (fun t _ => Keeps.fold (fun t _ => keepsWork_clearSlot id t _ _) _ t) _ _)

theorem matOver_eq {s : State} {id : Nat} {op : MatOp} (h : tget s.mats id = some op) : s.matOver id =
    foldS ((s.settleOp id op).withoutOp id).openMwaits ((s.settleOp id op).withoutOp id) State.endWait := by
  simp only [State.matOver, h]
  rfl

theorem matOver_over {s : State} {id : Nat} {op : MatOp} (h : tget s.mats id = some op) : Over id s (s.matOver id) := by
  have K := keepsWork_settleOp s id op
  have L := leaveEngine_keeps (π := Group.report) s id
  rw [matOver_eq h]
  generalize s.settleOp id op = b at K
  have hgroups (g : Nat) := (K.groups g).trans (L.groups g)
  have hothers : b.otherOps id = s.otherOps id := K.others.trans L.others
  have W := woken_endWaits (b.withoutOp id).openMwaits (b.withoutOp id)
  refine ⟨?gone, W.mem.trans (K.mem.trans L.mem), fun g => (W.groups g).trans (hgroups g), fun p => ?engine,
    fun p => ?latches, ?others, fun x w k hx hk hopen => ?waits⟩
  case gone => rw [W.mats, State.withoutOp, tget_tdel_self]
  case engine =>
    rw [State.part, W.parts]
    exact (congrArg Prod.fst (K.parts p)).trans (by rw [leaveEngine_part]; rfl)
  case latches =>
    rw [State.part, W.parts]
    exact (congrArg Prod.snd (K.parts p)).trans (L.parts p)
  case others =>
    rw [State.otherOps, State.outlines, W.mats, ← State.outlines, outlines_withoutOp, hothers, State.otherOps,
      tdel_tdel_self]
  case waits =>
    refine endWaits_gone _ _ x (mem_openMwaits (w := w) ?_ hk ?_)
    · exact (congrArg (tget ·.waits x) (K.flight.trans L.flight)).trans hx
    · rw [mwaitOpen_withoutOp hothers (congrArg Prod.fst (group_eq_of_map hgroups w.gid))]
      exact hopen

/-! ### ENGINE_OP_COMPLETE (R211, R214) -/

/-- An operation that ends without a fault is read, written, and over. -/
def State.completeOp (s : State) (p id : Nat) (op : MatOp) (o : SetOp) : State :=
  (((s.modPart p (fun x => { x with engineEnd := (s.clk.ac, s.clk.ac - 4) })).readOver id).matWrite op o).modMat id
    (fun x => { x with resv := [] })

section complete
variable {s : State} {p id u : Nat} {op : MatOp} {o : SetOp}

theorem engineOpComplete_runs (he : (s.part p).engine = some (id, u)) (hm : tget s.mats id = some op)
    (ho : setOpOf op.instr = some o) (hu : s.clk.ac < u) : exec (.engineOpComplete p) s = .next s := by
  show execEngineOpComplete p s = _
  simp only [execEngineOpComplete, he, hm, ho, hu, if_true]

theorem engineOpComplete_ends (he : (s.part p).engine = some (id, u)) (hm : tget s.mats id = some op)
    (ho : setOpOf op.instr = some o) (hu : u ≤ s.clk.ac) (hf : op.fault = none) :
    exec (.engineOpComplete p) s = .next ((s.completeOp p id op o).matOver id) := by
  show execEngineOpComplete p s = _
  simp only [execEngineOpComplete, he, hm, ho, Nat.not_lt.2 hu, hf, if_false]
  rfl

theorem engineOpComplete_parks {c : Cause} (he : (s.part p).engine = some (id, u)) (hm : tget s.mats id = some op)
    (ho : setOpOf op.instr = some o) (hu : u ≤ s.clk.ac) (hf : op.fault = some c) :
    exec (.engineOpComplete p) s = .next
      ((s.modPart p (fun x => { x with engineEnd := (s.clk.ac, s.clk.ac) })).matPark id c 0 (0, 0)) := by
  show execEngineOpComplete p s = _
  simp only [execEngineOpComplete, he, hm, ho, Nat.not_lt.2 hu, hf, if_false]

theorem keepsWork_beforeWrite (s : State) (p id : Nat) (e : Nat × Nat) :
    KeepsWork id s ((s.modPart p (fun x => { x with engineEnd := e })).readOver id) :=
  (Keeps.modPart s p (fun x => { x with engineEnd := e }) (fun _ => rfl)).trans (keepsWork_readOver _ id)

theorem keepsPlace_completeOp (s : State) (p id : Nat) (op : MatOp) (o : SetOp) :
    KeepsPlace id s (s.completeOp p id op o) :=
  ((keepsWork_beforeWrite s p id _).place.trans (keepsPlace_matWrite id op o _)).trans (keepsWork_modMat id _ _).place

theorem completeOp_over (hm : tget s.mats id = some op) :
    Over id (s.completeOp p id op o) ((s.completeOp p id op o).matOver id) := by
  have h := (keepsPlace_completeOp s p id op o).here
  rw [hm] at h
  obtain ⟨op', h'⟩ := Option.isSome_iff_exists.1 h
  exact matOver_over h'

/-- An operation of one member is read and then written to it. -/
theorem completeOp_single {M : MatMem} (hM : op.members = [M]) (s : State) (p id : Nat) (o : SetOp) :
    ∃ (v : State) (ctr : Nat), KeepsWork id s v ∧ s.completeOp p id op o =
      (v.writeMember op o ctr M 0).modMat id (fun x => { x with resv := [] }) :=
  ⟨_, _, (keepsWork_beforeWrite s p id _).trans (keepsWork_freshFree id _), by rw [State.completeOp, matWrite_single hM]⟩

/-- The exceptions of an operation of one member reach that member's GFLAGS (R125). -/
theorem completeOp_gflags {M : MatMem} (hM : op.members = [M]) (hd : M.dead = false)
    (hg : (tget s.groups M.gid).isSome = true) (hp : (s.group M.gid).run.place ≠ .gone) :
    ((s.completeOp p id op o).group M.gid).regs.gflags = (s.group M.gid).regs.gflags ||| op.flags := by
  obtain ⟨v, ctr, K, e⟩ := completeOp_single hM s p id o
  have hplace : (v.group M.gid).run.place = (s.group M.gid).run.place := congrArg (fun x => x.2.1) (K.group_eq M.gid)
  have hflags : (v.group M.gid).regs.gflags = (s.group M.gid).regs.gflags := congrArg (fun x => x.2.2) (K.group_eq M.gid)
  rw [e, ← hflags]
  exact writeMember_gflags hd ((K.isSome M.gid).trans hg) (by rwa [hplace])

/-- A drain of one member fills the latch of the member's partition (R209). -/
theorem completeOp_latch {M : MatMem} (hM : op.members = [M]) (hd : M.dead = false)
    (hg : (tget s.groups M.gid).isSome = true) (ho : o.drain = true) (hm : o.m ≠ 1) :
    (s.completeOp p id op o).latchOf (s.group M.gid).id.part o.latch = ⟨some op.block, op.latchOut.getD 0 [], false⟩ := by
  obtain ⟨v, ctr, K, e⟩ := completeOp_single hM s p id o
  have hpart : (v.group M.gid).id = (s.group M.gid).id := congrArg Prod.fst (K.group_eq M.gid)
  rw [e, ← hpart]
  exact writeMember_latch ho hm hd ((K.isSome M.gid).trans hg)

end complete

/-! ### An operation parks (R214) -/

theorem matPark_parks {s : State} {id p u : Nat} {op : MatOp} (c : Cause) (a : Nat) (row : Nat × Nat)
    (he : (s.part p).engine = some (id, u)) (hm : tget s.mats id = some op)
    (hc : ∀ M, M ∈ op.members → s.inContain M.gid = false) :
    ((s.matPark id c a row).part p).engine = none ∧
      (∃ op', tget (s.matPark id c a row).mats id = some op' ∧ op'.phase = .parked) ∧
      (s.matPark id c a row).mem = s.mem := by
  have hheld : op.members.filter (fun m => s.inContain m.gid) = [] :=
    List.filter_eq_nil_iff.2 (fun M hM => by rw [hc M hM]; exact Bool.false_ne_true)
  have K := keepsWork_dropMatResv (s.leaveEngine id) id op
  simp only [State.matPark, hm, hheld, List.isEmpty_nil, not_true_eq_false, and_false, if_false]
  exact ⟨(congrArg Prod.fst (K.parts p)).trans (leaveEngine_idle he), ⟨_, tget_tput_self _ _ _, rfl⟩, K.mem⟩

/-! ### An operation is retracted (R57, R215) -/

/-- An operation without what it has read and computed, which is to enter a queue again. -/
def MatOp.unread (op : MatOp) : MatOp :=
  { op with phase := .waiting, out := [], latchOut := [], resv := [], flags := 0, fault := none, readAt := none, cuts := [] }

theorem retract_running {s : State} {id p u v : Nat} {op : MatOp} (he : (s.part p).engine = some (id, u))
    (hm : tget s.mats id = some op) (hp : op.phase = .running v) : ((s.retract id).part p).engine = none ∧
      (∃ op', tget (s.retract id).mats id = some op' ∧ op'.phase = .waiting ∧ op'.out = []) ∧
      (s.retract id).mem = s.mem := by
  have K := keepsWork_dropMatResv (s.leaveEngine id) id op
  have here : (tget ((s.leaveEngine id).dropMatResv op).mats id).isSome = true := K.here.trans (congrArg Option.isSome hm)
  obtain ⟨x, hx⟩ := Option.isSome_iff_exists.1 here
  simp only [State.retract, hm, hp]
  exact ⟨(congrArg Prod.fst (K.parts p)).trans (leaveEngine_idle he),
    ⟨x.unread, (tget_tmod_self _ id MatOp.unread).trans (congrArg _ hx), rfl, rfl⟩, K.mem⟩

/-! ### Members take registers for their destinations (R98, R211) -/

theorem enqueueOps_mem (s : State) (p : Nat) : (s.enqueueOps p).mem = s.mem := by
  simp only [State.enqueueOps]
  split
  · split <;> rfl
  · rfl

theorem reserveAll_shape (s : State) (g : Nat) (l : List Bool) : ∃ c, (s.reserveAll g l).2 = { s with cores := c } := by
  unfold State.reserveAll
  refine List.foldlRecOn (motive := fun acc : List (Option Nat) × State => ∃ c, acc.2 = { s with cores := c })
    l _ ⟨_, rfl⟩ ?_
  rintro acc ⟨c, hc⟩ b -
  cases b with
  | false => exact ⟨c, hc⟩
  | true => exact ⟨_, by rw [hc]; rfl⟩

theorem matAsk_shape (s : State) (id g n : Nat) : ∃ c, s.matAsk id g n = { s with cores := c } := by
  simp only [State.matAsk]
  split <;> exact ⟨_, rfl⟩

/-- The members of an operation ask for registers and take them: nothing but cores and operations changes. -/
theorem matTake_shape (o : SetOp) (id : Nat) (l : List (MatMem × Nat)) (s : State) :
    ∃ c m, (State.matTake o id l s).2 = { s with cores := c, mats := m } := by
  induction l generalizing s with
  | nil => exact ⟨_, _, rfl⟩
  | cons e r ih =>
    obtain ⟨M, j⟩ := e
    simp only [State.matTake]
    split
    · exact ih s
    · split
      · exact ⟨_, _, rfl⟩
      · obtain ⟨c, e⟩ := matAsk_shape s id M.gid ((s.matNeeds o M).filter (· = true)).length
        rw [e]
        obtain ⟨c', m', e'⟩ := ih { s with cores := c }
        exact ⟨c', m', e'⟩
      · obtain ⟨c, e⟩ := reserveAll_shape s M.gid (s.matNeeds o M)
        rw [e]
        exact ih _

/-- What holds an operation back besides its registers does not look at cores' pools or at operations. -/
theorem matTake_holds {o : SetOp} {id : Nat} {l : List (MatMem × Nat)} {s t : State} {b : Bool}
    (h : State.matTake o id l s = (b, t)) (op : MatOp) :
    t.signsReleased op = s.signsReleased op ∧ t.imageHeld op o = s.imageHeld op o ∧ t.mem = s.mem := by
  obtain ⟨c, m, e⟩ := matTake_shape o id l s
  rw [h] at e
  subst e
  exact ⟨rfl, rfl, rfl⟩

/-! ### An operation starts (R211, R213, R215) -/

theorem coreFill_mem (s : State) (c asid troot va : Nat) : (s.coreFill c asid troot va).mem = s.mem := by
  unfold State.coreFill
  split
  · rfl
  · split <;> rfl

theorem cacheImage_mem (s : State) (op : MatOp) (o : SetOp) : (s.cacheImage op o).mem = s.mem := by
  unfold State.cacheImage
  split
  · rfl
  · exact foldS_inv (P := fun t => t.mem = s.mem) _ s rfl (fun t _ _ h => (coreFill_mem t ..).trans h)

/-- Without mismatches to come no piece of an operation mismatches (R215). -/
theorem matSdc_calm {s : State} (h : s.env.sdc = 0) (op : MatOp) : ∀ x, x ∈ (s.matSdc op).1 → x = 0 := by
  have pieces (n : Nat) : (sdcPieces n 0).1 = List.replicate n 0 := by
    induction n with
    | zero => rfl
    | succ n ih =>
      show 0 :: (sdcPieces n 0).1 = _
      rw [ih]
      rfl
  intro x hx
  simp only [State.matSdc, h] at hx
  split at hx
  · rw [pieces] at hx
    exact List.eq_of_mem_replicate hx
  · obtain ⟨_, _, e⟩ := List.mem_map.1 hx
    exact e.symm

theorem logPieces_calm {l : List Nat} (h : ∀ x, x ∈ l → x = 0) (s : State) (p r : Nat) : s.logPieces p r l = s := by
  have e : l.filter (· ≠ 0) = [] := List.filter_eq_nil_iff.2 (fun x hx => by simp [h x hx])
  rw [State.logPieces, e, foldS_nil]

/-- An operation whose evaluation faults nowhere runs for the time of R213 with its results. -/
theorem startOp_runs {s s₃ : State} {p id ctr : Nat} {op : MatOp} {o : SetOp} {ev : MatEval} (hf : s.freshFree = (ctr, s₃))
    (hev : ev = if o.drain = true then s₃.matDrain ctr (s₃.readValues op) o else s₃.matMul ctr (s₃.readValues op) o)
    (hc : ev.cause = none) (hs : s₃.env.sdc = 0)
    (ht : trapSub (s₃.launch (s₃.block (s₃.readValues op).block).id.launch).region.trapen ev.flags = 0) :
    ((s.startOp p id op o).part p).engine = some (id, s₃.matUntil p ctr (s₃.readValues op) o) ∧
      (∃ op', tget (s.startOp p id op o).mats id = some op' ∧
        op'.phase = .running (s₃.matUntil p ctr (s₃.readValues op) o) ∧ op'.out = ev.out ∧ op'.latchOut = ev.latchOut ∧
        op'.flags = ev.flags ∧ op'.fault = none) ∧ (s.startOp p id op o).mem = s.mem := by
  have calm := matSdc_calm hs (s₃.readValues op)
  have no2 : (s₃.matSdc (s₃.readValues op)).1.contains 2 = false := by
    rw [List.contains_eq_mem, decide_eq_false_iff_not]
    exact fun h => absurd (calm 2 h) (by decide)
  have hmem :
      (((foldS ev.stale s₃ (fun s g => s.warn g 0)).cacheImage (s₃.readValues op) o).matServed id).mem = s.mem := by
    refine (cacheImage_mem ..).trans (Eq.trans ?_ (congrArg (fun x => State.mem x.2) hf).symm)
    exact foldS_inv (P := fun t => t.mem = s₃.mem) _ s₃ rfl (fun _ _ _ h => h)
  simp only [State.startOp, hf, ← hev, hc, logPieces_calm calm, no2, ht, Bool.false_eq_true, ne_eq, not_true_eq_false,
    if_false, Option.isSome_none]
  exact ⟨by rw [part_modPart, if_pos rfl]; rfl, ⟨_, tget_tput_self _ _ _, rfl, rfl, rfl, rfl, rfl⟩, hmem⟩

/-! ### ENGINE_OP_START -/

section start
variable {s s₁ s₂ : State} {p id : Nat}

/-- The head of an idle engine's queue whose members exceed no allotment waits, or starts. -/
theorem engineOpStart_head {rest : List Nat} {op₁ op₂ : MatOp} {o : SetOp} (h₁ : s.enqueueOps p = s₁)
    (he : (s₁.part p).engine = none) (hq : (s₁.part p).queue = id :: rest) (hm : tget s₁.mats id = some op₁)
    (ho : setOpOf op₁.instr = some o) (hr : (s₁.block op₁.block).run = .running) (hz : (s₁.part p).frozen = none)
    (hh : s₁.partHalted p = false) (hx : State.matTake o id op₁.members.zipIdx s₁ = (false, s₂))
    (hm₂ : tget s₂.mats id = some op₂) : exec (.engineOpStart p) s = .next (
      if s₂.matWaits id = true then s₂.modMat id (fun x => { x with phase := .allocating })
      else if ¬ s₂.signsReleased op₂ = true ∨ s₂.imageHeld op₂ o = true then
        s₂.modMat id (fun x => { x with phase := .queued })
      else s₂.startOp p id op₂ o) := by
  show execEngineOpStart p s = _
  obtain ⟨hsigns, himage, -⟩ := matTake_holds hx op₂
  simp only [execEngineOpStart, h₁, he, hq, hm, ho, hr, hz, hh, hx, hm₂, Option.getD_some, ← hsigns, ← himage, ne_eq,
    not_true_eq_false, Option.isSome_none, Bool.false_eq_true, or_self, if_false]
  split
  · rfl
  · split <;> rfl

/-- The engine of a halted partition lets go of an operation that may be cut. -/
theorem engineOpStart_halted {u : Nat} {op : MatOp} (h₁ : s.enqueueOps p = s₁) (he : (s₁.part p).engine = some (id, u))
    (hm : tget s₁.mats id = some op) (hh : s₁.partHalted p = true) (ha : s₁.haltsAt op = true) :
    exec (.engineOpStart p) s = .next (s₁.retract id) := by
  show execEngineOpStart p s = _
  simp only [execEngineOpStart, h₁, he, State.runOp, hm, hh, ha, Bool.and_self, if_true]

end start

/-! ### The obligation -/

/-- Settles O44: an idle engine's start by the case that its head is in, a halt by the retraction, and an end by what is kept
while the operation is read and written and what its leaving the table changes. -/
theorem engineRunsOperations : Obligations.EngineRunsOperations := by
  unfold Obligations.EngineRunsOperations
  refine ⟨fun s s₁ s₂ p id rest op₁ op₂ o h₁ he hq hm ho hr hz hh hx hm₂ => ?start,
    fun s s₁ p id u v op h₁ he hm hp hh ha => ?halted, fun s p id u op o he hm ho => ⟨?runs, ?ends, ?parks⟩, ?idle⟩
  case start =>
    have e := engineOpStart_head h₁ he hq hm ho hr hz hh hx hm₂
    refine ⟨fun hw => by rw [e, if_pos hw], fun hw hs => ?_, fun s₃ op ctr ev hw hs hi hf hop hev hc hsdc ht => ?_⟩
    · rw [e, if_neg (by simp [hw]), if_pos (.inl (by simp [hs]))]
    · rw [if_neg (by simp [hw]), if_neg (by simp [hs, hi])] at e
      subst hop
      obtain ⟨hengine, ⟨op', hop', hphase, hout, hlatch, hflags, hfault⟩, hmem⟩ :=
        startOp_runs (p := p) (id := id) hf hev hc hsdc ht
      refine ⟨_, op', e, hengine, hop', hphase, hout, hlatch, hflags, hfault, ?_⟩
      rw [hmem, (matTake_holds hx op₂).2.2, ← h₁, enqueueOps_mem]
  case halted =>
    obtain ⟨hengine, ⟨op', hop', hphase, hout⟩, hmem⟩ := retract_running he hm hp
    exact ⟨_, op', engineOpStart_halted h₁ he hm hh ha, hengine, hop', hphase, hout, by rw [hmem, ← h₁, enqueueOps_mem]⟩
  case runs => exact engineOpComplete_runs he hm ho
  case ends =>
    intro hu hf
    have K := keepsPlace_completeOp s p id op o
    have V := completeOp_over (p := p) (o := o) hm
    refine ⟨_, engineOpComplete_ends he hm ho hu hf, ?engine, V.gone, V.mem.trans K.mem, fun k hk => ?others, ?waits,
      fun M hM hd hg => ⟨fun hp => ?flags, fun hdr hm1 => ?latch⟩⟩
    case engine => rw [V.engine, K.parts, he]; simp
    case others => exact tget_otherOps (V.others.trans K.others) hk
    case waits =>
      intro x w k hx hk hopen
      refine V.waits x w k (by rw [K.flight]; exact hx) hk ?_
      rw [mwaitOpen_withoutOp K.others (K.group_eq w.gid)]
      exact hopen
    case flags =>
      rw [← completeOp_gflags (p := p) (id := id) (o := o) hM hd hg hp]
      exact congrArg (fun x => x.2.2) (group_eq_of_map V.groups M.gid)
    case latch =>
      rw [← completeOp_latch (p := p) (id := id) hM hd hg hdr hm1, State.latchOf, V.latches]
      rfl
  case parks =>
    intro c hu hf hc
    obtain ⟨hengine, ⟨op', hop', hphase⟩, hmem⟩ :=
      matPark_parks (s := s.modPart p (fun x => { x with engineEnd := (s.clk.ac, s.clk.ac) })) c 0 (0, 0)
        (by rw [part_modPart, if_pos rfl]; exact he) hm hc
    exact ⟨_, op', engineOpComplete_parks he hm ho hu hf, hengine, hop', hphase, hmem⟩
  case idle =>
    intro s p he
    show execEngineOpComplete p s = _
    simp only [execEngineOpComplete, he]

end Sys2Proof.Machine
end

section
/-! Words of the device's own in memory: what a write of the device's own gives and keeps (R10, R154, R170), and the words of
a server and of the regions with admitted work that are written back (R10, R46). -/
namespace Sys2Proof.Machine

/-! ### A write of the device's own -/

/-- A write of the device's own that nothing refuses is a write to memory. -/
theorem ownWrite_mem {s : State} {a : Nat} {b : List Byte} (h : TakesOwn s a b.length) :
    (s.ownWrite a b).mem = memWrite s.mem a b := by
  simp [State.ownWrite, State.devWrite, h.there, h.plain, h.sound]

/-- A write of the device's own is one to memory, or leaves memory as it was. -/
theorem ownWrite_mem_cases (s : State) (a : Nat) (b : List Byte) :
    (s.ownWrite a b).mem = memWrite s.mem a b ∨ (s.ownWrite a b).mem = s.mem := by
  simp only [State.ownWrite, State.devWrite]
  repeat' split
  · exact .inr rfl
  · exact .inl rfl
  · exact .inr rfl

theorem ownWrite_memWf {s : State} (h : memWf s.mem = true) (a : Nat) (b : List Byte) :
    memWf (s.ownWrite a b).mem = true := by
  rcases ownWrite_mem_cases s a b with e | e <;> rw [e]
  · exact memWrite_wf h a b
  · exact h

theorem ownWrite_keeps (s : State) {a c : Nat} {b : List Byte} (h : c < a ∨ a + b.length ≤ c) :
    memGet (s.ownWrite a b).mem c = memGet s.mem c := by
  rcases ownWrite_mem_cases s a b with e | e <;> rw [e]
  exact memGet_memWrite_out s.mem a b h

theorem ownWrite_stored {s : State} {a : Nat} {b : List Byte} (h : TakesOwn s a b.length) :
    Stored s (s.ownWrite a b) a b := by
  refine ⟨fun hw i hi => ?_, fun c => ownWrite_keeps s⟩
  rw [ownWrite_mem h, memGet_memWrite_in hw a b hi, List.getD_eq_getElem?_getD, List.getElem?_eq_getElem hi, Option.getD_some]

/-- Which words take a write of the device's own depends on the Spire alone (R170). -/
theorem TakesOwn.of_spire {s t : State} {a n : Nat} (h : TakesOwn s a n) (e : t.spire = s.spire) : TakesOwn t a n :=
  ⟨h.there, h.plain, by simpa only [State.quarantined, e] using h.sound⟩

theorem ownWrite_spire (s : State) (a : Nat) (b : List Byte) : (s.ownWrite a b).spire = s.spire :=
  (memoryOnly_ownWrite s a b).steady.spire

/-! ### OVERRUNS of regions (R10) -/

/-- OVERRUNS of one region stored in its RCB. -/
def State.storeOverrun (s : State) (e : Nat × Nat) : State := s.ownWrite (e.1 + 0xD0) (leBytes 4 e.2)

theorem storeOverrun_keeps (s : State) {e : Nat × Nat} {c : Nat} (h : ¬ inOverruns e.1 c) :
    memGet (s.storeOverrun e).mem c = memGet s.mem c := by
  refine ownWrite_keeps s ?_
  rw [leBytes_length]
  unfold inOverruns at h
  omega

theorem storeOverruns_keeps (l : List (Nat × Nat)) (s : State) {c : Nat} (h : ∀ e, e ∈ l → ¬ inOverruns e.1 c) :
    memGet (foldS l s State.storeOverrun).mem c = memGet s.mem c :=
  foldS_inv (P := fun t => memGet t.mem c = memGet s.mem c) l s rfl
    (fun t e he ht => (storeOverrun_keeps t (h e he)).trans ht)

/-- The OVERRUNS of a region stand in its RCB after the last write for it, where no other RCB's field covers a byte of them. -/
theorem storeOverruns_stored {e : Nat × Nat} {i : Nat} (hi : i < 4) (l : List (Nat × Nat)) (s : State)
    (hw : memWf s.mem = true) (ht : TakesOwn s (e.1 + 0xD0) 4) (he : e ∈ l)
    (hx : ∀ x, x ∈ l → x ≠ e → ¬ inOverruns x.1 (e.1 + 0xD0 + i)) :
    memGet (foldS l s State.storeOverrun).mem (e.1 + 0xD0 + i) = (leBytes 4 e.2).getD i 0 := by
  induction l generalizing s with
  | nil => cases he
  | cons x r ih =>
    by_cases hr : e ∈ r
    · exact ih (s.storeOverrun x) (ownWrite_memWf hw _ _) (ht.of_spire (ownWrite_spire s _ _)) hr
        (fun y hy => hx y (List.mem_cons_of_mem x hy))
    · obtain rfl : e = x := (List.mem_cons.1 he).resolve_right hr
      have hlast : ∀ y, y ∈ r → ¬ inOverruns y.1 (e.1 + 0xD0 + i) := fun y hy =>
        hx y (List.mem_cons_of_mem e hy) (fun h => hr (h ▸ hy))
      have hlen := leBytes_length 4 e.2
      rw [foldS_cons, storeOverruns_keeps r _ hlast]
      exact (ownWrite_stored (b := leBytes 4 e.2) (hlen.symm ▸ ht)).1 hw i (hlen.symm ▸ hi)

/-! ### The words that are written back (R46) -/

/-- The words of a server that are written back: USED, then PSTART. -/
def Server.words (v : Server) : List Byte := leBytes 8 v.used ++ leBytes 8 v.pstart

theorem Server.words_length (v : Server) : v.words.length = 16 := by
  rw [Server.words, List.length_append, leBytes_length, leBytes_length]

/-- The write-back is one write of a server's words, then one of OVERRUNS for each region with admitted work. -/
theorem writeUsed_eq (s : State) (rcb : Nat) (v : Server) : s.writeUsed rcb v =
    foldS (s.belfry.overruns.filter (fun e => s.hasWork e.1)) (s.ownWrite (rcb + 0xC0) v.words) State.storeOverrun := rfl

theorem writeUsed_belfry (s : State) (rcb : Nat) (v : Server) : (s.writeUsed rcb v).belfry = s.belfry :=
  foldS_inv (P := fun t => t.belfry = s.belfry) _ _ (memoryOnly_ownWrite s _ _).belfry_eq
    (fun t _ _ ht => (memoryOnly_ownWrite t _ _).belfry_eq.trans ht)

theorem writeUsed_usedStored (s : State) (rcb : Nat) (v : Server) :
    UsedStored rcb v.used v.pstart s (s.writeUsed rcb v) := by
  have hlen := v.words_length
  rw [writeUsed_eq]
  refine ⟨fun hw ht i hi hn => ?used, fun hw e he hwork ht hx i hi => ?overruns, fun c hc hn => ?rest⟩
  case used =>
    rw [storeOverruns_keeps _ _ (fun e he => hn e (List.mem_filter.1 he).1)]
    exact (ownWrite_stored (b := v.words) (hlen.symm ▸ ht)).1 hw i (hlen.symm ▸ hi)
  case overruns =>
    exact storeOverruns_stored hi _ _ (ownWrite_memWf hw _ _) (ht.of_spire (ownWrite_spire s _ _))
      (List.mem_filter.2 ⟨he, hwork⟩) (fun x h hne => hx x i (List.mem_filter.1 h).1 hne hi)
  case rest =>
    rw [storeOverruns_keeps _ _ (fun e he => hn e (List.mem_filter.1 he).1)]
    exact ownWrite_keeps s (by omega)

/-- A write-back seen from a state that has the same memory, OVERRUNS, Spire and regions with work. -/
theorem UsedStored.of_start {rcb used pstart : Nat} {s u t : State} (h : UsedStored rcb used pstart u t)
    (hm : u.mem = s.mem) (ho : u.belfry.overruns = s.belfry.overruns) (hs : u.spire = s.spire)
    (hw : ∀ r, u.hasWork r = s.hasWork r) : UsedStored rcb used pstart s t where
  used := by
    have hu := h.used
    rw [hm, ho] at hu
    exact fun hwf ht => hu hwf (ht.of_spire hs)
  overruns := by
    have hv := h.overruns
    simp only [hm, ho, hw] at hv
    exact fun hwf e he hwork ht => hv hwf e he hwork (ht.of_spire hs)
  rest := by
    have hr := h.rest
    rw [hm, ho] at hr
    exact hr

end Sys2Proof.Machine
end

section
/-! What BUDGET_TICK, SERVER_REPLENISH and USED_WRITEBACK do to launches, copies and servers (R46, R47, R50). -/
namespace Sys2Proof.Machine

/-! ### Tables under folds and filters -/

/-- A fold keeps what each of its steps keeps. -/
theorem foldS_same {α β : Type} (π : State → β) {f : State → α → State} (h : ∀ s a, π (f s a) = π s) (l : List α)
    (s : State) : π (foldS l s f) = π s :=
  foldS_inv (P := fun t => π t = π s) l s rfl (fun t a _ ht => (h t a).trans ht)

/-- A fold that changes one entry of a table for each of its elements changes the entries whose keys are among them. A
change that is made twice must be the change made once. -/
theorem tget_foldS_tmod {α β : Type} (T : State → Tab α) {f : State → Nat × β → State} {g : α → α}
    (hf : ∀ s e, T (f s e) = tmod (T s) e.1 g) (hg : ∀ x, g (g x) = g x) (l : List (Nat × β)) (s : State) (n : Nat) :
    tget (T (foldS l s f)) n = (tget (T s) n).map (fun x => if n ∈ l.map Prod.fst then g x else x) := by
  induction l generalizing s with
  | nil => simp
  | cons e r ih =>
    rw [foldS_cons, ih, hf, tget_tmod]
    by_cases he : n = e.1
    · cases tget (T s) n <;> simp [he, hg]
    · have hmem : n ∈ (e :: r).map Prod.fst ↔ n ∈ r.map Prod.fst := by simp [he]
      simp only [if_neg he, hmem]

/-- The key of an entry that meets a condition is among the keys of the entries that do. -/
theorem mem_keys_filter {α : Type} {t : Tab α} {p : Nat × α → Bool} {n : Nat} {x : α} (h : tget t n = some x)
    (hp : p (n, x) = true) : n ∈ (t.filter p).map Prod.fst :=
  List.mem_map_of_mem (f := Prod.fst) (List.mem_filter.2 ⟨mem_of_tget h, hp⟩)

/-! ### Demotion (R47) -/

/-- A launch demoted for good. -/
def Launch.demote (L : Launch) : Launch := { L with demoted := true }

/-- A copy demoted for good. -/
def Copy.demote (C : Copy) : Copy := { C with id := { C.id with demoted := true } }

/-- A tick's step for a launch that has used its budget. -/
def State.demoteLaunch (s : State) (e : Nat × Launch) : State :=
  (s.modLaunch e.1 Launch.demote).countOverrun e.2.region.rcb

/-- A tick's step for a copy that has used its budget. -/
def State.demoteCopy (s : State) (e : Nat × Copy) : State :=
  (s.modCopy e.1 Copy.demote).countOverrun e.2.id.region.rcb

/-- The launches that a tick demotes. -/
def State.spentLaunches (s : State) : List (Nat × Launch) :=
  s.belfry.launches.filter (fun e => !e.2.demoted && decide (coreNs e.2.charge ≥ e.2.budget))

/-- The copies that a tick demotes. -/
def State.spentCopies (s : State) : List (Nat × Copy) :=
  s.copies.copies.filter (fun e => !e.2.id.demoted && decide (e.2.id.charge ≥ e.2.id.budget))

/-- Counting an overrun changes memory, what is in flight, the trace ring and the counts themselves. -/
theorem countOverrun_frame (s : State) (rcb : Nat) : ∃ o m f r,
    s.countOverrun rcb = { s with belfry := { s.belfry with overruns := o }, mem := m, flight := f, trace := r } := by
  obtain ⟨m, f, r, h⟩ := memoryOnly_ownWrite
    { s with belfry := { s.belfry with overruns := tput s.belfry.overruns rcb (satAdd32 (tgetD s.belfry.overruns rcb) 1) } }
    (rcb + 0xD0) (leBytes 4 (satAdd32 (tgetD s.belfry.overruns rcb) 1))
  exact ⟨_, m, f, r, h⟩

/-- What demotion leaves of the Belfry: the servers and the next tick. -/
def Belfry.pacing (b : Belfry) : Tab Server × Nat := (b.servers, b.nextTick)

theorem countOverrun_pacing (s : State) (rcb : Nat) : (s.countOverrun rcb).belfry.pacing = s.belfry.pacing := by
  obtain ⟨o, m, f, r, h⟩ := countOverrun_frame s rcb
  rw [h]; rfl

theorem countOverrun_launches (s : State) (rcb : Nat) : (s.countOverrun rcb).belfry.launches = s.belfry.launches := by
  obtain ⟨o, m, f, r, h⟩ := countOverrun_frame s rcb
  rw [h]

theorem countOverrun_copies (s : State) (rcb : Nat) : (s.countOverrun rcb).copies = s.copies := by
  obtain ⟨o, m, f, r, h⟩ := countOverrun_frame s rcb
  rw [h]

theorem demoteLaunch_copies (s : State) (e : Nat × Launch) : (s.demoteLaunch e).copies = s.copies :=
  countOverrun_copies ..

theorem demoteLaunch_pacing (s : State) (e : Nat × Launch) : (s.demoteLaunch e).belfry.pacing = s.belfry.pacing :=
  countOverrun_pacing ..

theorem demoteCopy_pacing (s : State) (e : Nat × Copy) : (s.demoteCopy e).belfry.pacing = s.belfry.pacing :=
  countOverrun_pacing ..

theorem demoteCopy_launches (s : State) (e : Nat × Copy) : (s.demoteCopy e).belfry.launches = s.belfry.launches :=
  countOverrun_launches ..

/-- A tick demotes the launches that have used their budgets, then such copies: the launches' step leaves the copies alone. -/
theorem demote_eq (s : State) :
    s.demote = foldS s.spentCopies (foldS s.spentLaunches s State.demoteLaunch) State.demoteCopy := by
  have h : (foldS s.spentLaunches s State.demoteLaunch).spentCopies = s.spentCopies := by
    rw [State.spentCopies, foldS_same State.copies demoteLaunch_copies, ← State.spentCopies]
  rw [← h]
  rfl

theorem demote_pacing (s : State) : s.demote.belfry.pacing = s.belfry.pacing := by
  rw [demote_eq, foldS_same (fun t => t.belfry.pacing) demoteCopy_pacing,
    foldS_same (fun t => t.belfry.pacing) demoteLaunch_pacing]

theorem tget_demote_launches (s : State) (l : Nat) : tget s.demote.belfry.launches l =
    (tget s.belfry.launches l).map (fun L => if l ∈ s.spentLaunches.map Prod.fst then L.demote else L) := by
  rw [demote_eq, foldS_same (fun t => t.belfry.launches) demoteCopy_launches]
  exact tget_foldS_tmod (g := Launch.demote) (fun t => t.belfry.launches) (fun _ _ => countOverrun_launches ..)
    (fun _ => rfl) _ s l

theorem tget_demote_copies (s : State) (c : Nat) : tget s.demote.copies.copies c =
    (tget s.copies.copies c).map (fun C => if c ∈ s.spentCopies.map Prod.fst then C.demote else C) := by
  rw [demote_eq, ← foldS_same State.copies demoteLaunch_copies s.spentLaunches s]
  exact tget_foldS_tmod (g := Copy.demote) (fun t => t.copies.copies)
    (fun _ _ => congrArg (·.copies) (countOverrun_copies ..)) (fun _ => rfl) _ _ c

/-- A launch keeps its charge, one that was demoted stays so, and one whose charge has reached its budget is demoted. -/
theorem demote_launch {s : State} {l : Nat} {L : Launch} (hL : tget s.belfry.launches l = some L) :
    ∃ M, tget s.demote.belfry.launches l = some M ∧ M.charge = L.charge ∧
      (L.demoted = true ∨ L.budget ≤ coreNs L.charge → M.demoted = true) := by
  refine ⟨_, by rw [tget_demote_launches, hL, Option.map_some], ?_⟩
  split
  · exact ⟨rfl, fun _ => rfl⟩
  · next hn =>
    exact ⟨rfl, fun h => Bool.of_not_eq_false fun hd => hn (mem_keys_filter hL (by simpa [hd] using h))⟩

/-- A copy keeps its charge, one that was demoted stays so, and one whose charge has reached its budget is demoted. -/
theorem demote_copy {s : State} {c : Nat} {C : Copy} (hC : tget s.copies.copies c = some C) :
    ∃ D, tget s.demote.copies.copies c = some D ∧ D.id.charge = C.id.charge ∧
      (C.id.demoted = true ∨ C.id.budget ≤ C.id.charge → D.id.demoted = true) := by
  refine ⟨_, by rw [tget_demote_copies, hC, Option.map_some], ?_⟩
  split
  · exact ⟨rfl, fun _ => rfl⟩
  · next hn =>
    exact ⟨rfl, fun h => Bool.of_not_eq_false fun hd => hn (mem_keys_filter hC (by simpa [hd] using h))⟩

/-! ### The class that servers leave (R47, R50) -/

/-- A launch at the class that its servers leave it. -/
def State.lowLaunch (s : State) (L : Launch) : Launch := { L with low := s.launchLow L }

/-- A copy at the class that its servers leave it. -/
def State.lowCopy (s : State) (C : Copy) : Copy :=
  { C with id := { C.id with low := C.id.region.servers.any (fun v => (tgetD s.belfry.servers v).ordOut) } }

theorem tget_setLow_launches (s : State) (l : Nat) :
    tget s.setLow.belfry.launches l = (tget s.belfry.launches l).map s.lowLaunch := tget_map_snd s.lowLaunch ..

theorem tget_setLow_copies (s : State) (c : Nat) :
    tget s.setLow.copies.copies c = (tget s.copies.copies c).map s.lowCopy := tget_map_snd s.lowCopy ..

theorem setLow_hasWork (s : State) (r : Nat) : s.setLow.hasWork r = s.hasWork r := by
  simp [State.hasWork, State.setLow, List.any_map, Function.comp_def]

/-! ### BUDGET_TICK -/

/-- The state in which a tick demotes: the next tick is set and each server is found in or out of budget. -/
def State.ticked (s : State) : State :=
  { s with belfry := { s.belfry with
    nextTick := s.clk.ns / 100 * 100 + 100
    servers := s.belfry.servers.map (fun (e : Nat × Server) => (e.1, e.2.tick)) } }

theorem budgetTick_early {s : State} (h : s.clk.ns < s.belfry.nextTick) : exec .budgetTick s = .next s := by
  show execBudgetTick s = _
  rw [execBudgetTick, if_pos h]

theorem budgetTick_due {s : State} (h : s.belfry.nextTick ≤ s.clk.ns) :
    exec .budgetTick s = .next s.ticked.demote.setLow := by
  show execBudgetTick s = _
  rw [execBudgetTick, if_neg (Nat.not_lt.2 h)]
  rfl

theorem ticked_pacing (s : State) : s.ticked.demote.setLow.belfry.pacing =
    (s.belfry.servers.map (fun (e : Nat × Server) => (e.1, e.2.tick)), s.clk.ns / 100 * 100 + 100) :=
  demote_pacing s.ticked

theorem tick_ordOut {v : Server} (h : coreNs v.ordAc + v.ordNs ≥ v.budget - v.freserve) : v.tick.ordOut = true := by
  simp only [Server.tick, decide_eq_true h, Bool.or_true]

theorem tick_faultOut {v : Server} (h : v.freserve = 0) : v.tick.faultOut = true := by
  simp only [Server.tick, decide_eq_true h, Bool.or_true, Bool.true_or]

/-! ### SERVER_REPLENISH -/

/-- A server at its replenishment at a time: its period starts anew, its counts are 0. -/
def Server.replenished (v : Server) (now : Nat) : Server :=
  { v with
    pstart := v.pstart + (now - v.pstart) / v.period * v.period, ordAc := 0, ordNs := 0, faultAc := 0, faultNs := 0
    ordOut := false, faultOut := decide (v.freserve = 0), nextWrite := now + 10000 }

theorem replenished_used (v : Server) (now : Nat) : (v.replenished now).used = 0 := by
  simp [Server.used, Server.replenished, coreNs]

theorem replenished_pstart_le {v : Server} {now : Nat} (h : v.pstart + v.period ≤ now) :
    (v.replenished now).pstart ≤ now := by
  have hmul := Nat.div_mul_le_self (now - v.pstart) v.period
  simp only [Server.replenished]
  omega

theorem lt_replenished_pstart {v : Server} {now : Nat} (hp : v.period ≠ 0) :
    now < (v.replenished now).pstart + v.period := by
  have hlt := Nat.lt_div_mul_add (a := now - v.pstart) (Nat.pos_of_ne_zero hp)
  simp only [Server.replenished]
  omega

section server
variable {s : State} {server : Nat} {v : Server} (hv : tget s.belfry.servers server = some v)
include hv

theorem serverReplenish_early (h : s.clk.ns < v.pstart + v.period) : exec (.serverReplenish server) s = .next s := by
  show execServerReplenish server s = _
  simp only [execServerReplenish, hv, h, true_or, if_true]

theorem serverReplenish_due (hp : v.period ≠ 0) (h : v.pstart + v.period ≤ s.clk.ns) :
    exec (.serverReplenish server) s = .next
      (({ s with belfry := { s.belfry with servers := tput s.belfry.servers server (v.replenished s.clk.ns) } } :
        State).setLow.writeUsed server (v.replenished s.clk.ns)) := by
  show execServerReplenish server s = _
  simp only [execServerReplenish, hv, Nat.not_lt.2 h, hp, or_self, if_false]
  rfl

/-! ### USED_WRITEBACK -/

theorem usedWriteback_early (h : s.clk.ns < v.nextWrite) : exec (.usedWriteback server) s = .next s := by
  show execUsedWriteback server s = _
  simp only [execUsedWriteback, hv, h, if_true]

theorem usedWriteback_due (h : v.nextWrite ≤ s.clk.ns) :
    exec (.usedWriteback server) s = .next
      (({ s with belfry := { s.belfry with
          servers := tmod s.belfry.servers server (fun v => { v with nextWrite := s.clk.ns + 10000 }) } } :
        State).writeUsed server v) := by
  show execUsedWriteback server s = _
  simp only [execUsedWriteback, hv, Nat.not_lt.2 h, if_false]

end server

/-! ### The obligation -/

/-- Settles O53: a due tick by what demotion and the servers' class do to each launch, copy and server; a due replenishment and
a due write-back by the table of servers that they set and the bytes that the write-back gives. -/
theorem budgetsAreEnforced : Obligations.BudgetsAreEnforced := by
  unfold Obligations.BudgetsAreEnforced
  refine ⟨fun s h => budgetTick_early h, fun s h => ⟨_, budgetTick_due h, ?next, ?launches, ?copies, ?servers⟩,
    fun s v V hV h => serverReplenish_early hV h, fun s v V hV hp h => ?replenish, fun s v V hV h => ?writeback,
    fun s v V hV h => usedWriteback_early hV h⟩
  case next => exact congrArg Prod.snd (ticked_pacing s)
  case launches =>
    intro l L hL
    obtain ⟨M, hM, hcharge, hdemoted⟩ := demote_launch (s := s.ticked) hL
    exact ⟨s.ticked.demote.lowLaunch M, by rw [tget_setLow_launches, hM, Option.map_some], hcharge, hdemoted⟩
  case copies =>
    intro c C hC
    obtain ⟨D, hD, hcharge, hdemoted⟩ := demote_copy (s := s.ticked) hC
    exact ⟨s.ticked.demote.lowCopy D, by rw [tget_setLow_copies, hD, Option.map_some], hcharge, hdemoted⟩
  case servers =>
    intro v V hV
    have htick : tget s.ticked.demote.setLow.belfry.servers v = some V.tick := by
      have e : s.ticked.demote.setLow.belfry.servers = _ := congrArg Prod.fst (ticked_pacing s)
      rw [e, tget_map_snd, hV]; rfl
    exact ⟨_, htick, rfl, rfl, tick_ordOut, tick_faultOut⟩
  case replenish =>
    refine ⟨_, V.replenished s.clk.ns, serverReplenish_due hV hp h, ?_, replenished_used .., rfl, rfl,
      ⟨_, rfl⟩, replenished_pstart_le h, lt_replenished_pstart hp, ?_⟩
    · simp only [writeUsed_belfry, State.setLow, tget_tput_self]
    · rw [← replenished_used V s.clk.ns]
      exact (writeUsed_usedStored ..).of_start rfl rfl rfl (setLow_hasWork _)
  case writeback =>
    refine ⟨_, { V with nextWrite := s.clk.ns + 10000 }, usedWriteback_due hV h, ?_, rfl, rfl,
      (writeUsed_usedStored ..).of_start rfl rfl rfl (fun _ => rfl)⟩
    simp only [writeUsed_belfry, tget_tmod_self, hV, Option.map_some]

end Sys2Proof.Machine
end
